-- ==== Sys2Proof/Word.lean ====
section
/-! DEFINITION. The word, byte and register-number types of Meruc (R3, R15, R16, R18, R121), and the
sparse tables the state is made of. -/

namespace Sys2Proof

/-- A scalar register's contents, an address while it is computed, a control word (R15, R60). -/
abbrev Word := BitVec 64

/-- A byte of any memory (R3). -/
abbrev Byte := BitVec 8

/-- A block tag: scale in bits 15 to 8, format in bits 7 to 0 (R121). -/
abbrev Tag := BitVec 16

/-- The number of a scalar register (R15). -/
abbrev SReg := BitVec 5

/-- The number of a vector register (R16). -/
abbrev VReg := BitVec 5

/-- The mask field K of an HT2 tail; 0 selects unmasked execution (R34, R18). -/
abbrev KReg := BitVec 4

/-- A table with a natural-number key; a key not listed holds a default its reader names. -/
abbrev Table (α : Type) := List (Nat × α)

end Sys2Proof
end

