-- ==== Sys2Proof/Syntax.lean ====
section
/-! DEFINITION. The steps of the package, one constructor per row of spec/opcode_table.json: the 184
Fjodar instructions with every field their encoding carries (R33, R34, R43), and the 86 package
events (spec/95_what_each_step_holds.md) with what the row's own agent supplies. Fields keep the
widths of the encoding, so a reserved value can be written down and WellFormed refuses it. -/

namespace Sys2Proof

/-- Who performs a control store: the host through BAR 0 (R62) or a strand (R59). -/
inductive Agent where
  | host
  | strand (n : Nat)
  deriving DecidableEq, Repr

/-- How a host answers a window request (R229, R232). -/
inductive Completion where
  | success
  | refusal        -- Unsupported Request or Completer Abort
  deriving DecidableEq, Repr

/-- How a boot phase ends (R288). -/
inductive PhaseEnd where
  | success
  | failure (code : BitVec 8)
  deriving DecidableEq, Repr

/-- A request arriving from another package (R234): HBM bytes or a control word, at a local
physical address, with the world it bears always 0 (R264). -/
inductive RemoteRequest where
  /-- A load, or the reading of a copy's source. -/
  | read (pa len : Nat) (copy : Bool)
  /-- With the tags a block copy or a vector store gives its blocks, by block number. -/
  | write (pa : Nat) (bytes : List Byte) (tags : Table Tag)
  | atomic (op : BitVec 4) (wide : Bool) (pa : Nat) (operand expected : Word)
  | controlLoad (pa : Nat)
  | controlStore (pa : Nat) (value : Word)
  deriving DecidableEq, Repr

/-- One image of a staged firmware set (R294): its version, whether its signature verifies, and the lowest
version it requires of each other image. -/
structure FirmwareImage where
  index    : Nat
  version  : BitVec 32
  verified : Bool
  requires : Table (BitVec 32)
  deriving DecidableEq, Repr

/-- The PLDM sensors of R295: a die is one of the compute dies 0 to 3, the hub die 4, or a base die 5 to 12. -/
inductive Sensor where
  | power
  | temp
  | die (d : Nat)
  deriving DecidableEq, Repr

/-- A step of the package (spec/opcode_table.json). -/
inductive Instr where
  -- hints and control flow (R306, R307, R323, R324, R334, R337)
  | nop
  | hintH (a : BitVec 5) (w : BitVec 2)
  | hintHt1 (a : BitVec 5) (w : BitVec 2) (tail : BitVec 16)
  | hintHt2 (a : BitVec 5) (w : BitVec 2) (tail : BitVec 32)
  | hintHt3 (a : BitVec 5) (w : BitVec 2) (tail : BitVec 48)
  | b (imm : BitVec 32)
  | bCond (cond : BitVec 5) (rb rc : SReg) (imm : BitVec 32)
  | call (imm : BitVec 32)
  | jmp (rb : SReg)
  | ret
  -- strips (R340)
  | setvl (sew : BitVec 2) (rd rb : SReg)
  | setvlf (sew : BitVec 2) (rd rb rc rp : SReg) (hint : BitVec 2) (scope : BitVec 3)
  -- traps, barriers and the work hierarchy (R88, R106, R213)
  | trap (n : BitVec 6)
  | brk
  | exit
  | bar (n : BitVec 4)
  | cwait (rd rb : SReg) (scope : BitVec 3)
  | launch (rd rb : SReg)
  | cancel (rb : SReg)
  | fpub (rb rc : SReg) (scope : BitVec 3)
  | claim
  -- maintenance (R191, R205, R308, R335)
  | tsync (rb rc : SReg)
  | icinv (rb rc : SReg) (scope : BitVec 3)
  | cflush (rb rc : SReg) (scope : BitVec 3)
  | cinv (rb rc : SReg) (scope : BitVec 3)
  | pref (rb rc : SReg) (target : BitVec 3)
  -- special registers, seals, chains, handler return (R320, R277, R250, R251, R253, R213)
  | getsr (rd : SReg) (num : BitVec 6)
  | setsr (num : BitVec 6) (rb : SReg)
  | sealOpen (rd rb rc : SReg) (hint : BitVec 2)
  | sealAbsorb (rb rc rl : SReg) (tag : BitVec 6) (hint : BitVec 2)
  | sealClose (rd rb : SReg) (hint : BitVec 2)
  | chlinkRm (rd rb rc : SReg) (hint : BitVec 2)
  | chlinkAdd (rd rb rc rp : SReg) (hint : BitVec 2)
  | chquery (rd rb : SReg)
  | chsync (rd : SReg)
  | tret
  -- integer group, register form (R303)
  | add (w : BitVec 2) (rd rb rc : SReg)
  | sub (w : BitVec 2) (rd rb rc : SReg)
  | mul (w : BitVec 2) (rd rb rc : SReg)
  | mulh (w : BitVec 2) (rd rb rc : SReg)
  | mulhu (w : BitVec 2) (rd rb rc : SReg)
  | div (w : BitVec 2) (rd rb rc : SReg)
  | divu (w : BitVec 2) (rd rb rc : SReg)
  | rem (w : BitVec 2) (rd rb rc : SReg)
  | remu (w : BitVec 2) (rd rb rc : SReg)
  | and (w : BitVec 2) (rd rb rc : SReg)
  | andn (w : BitVec 2) (rd rb rc : SReg)
  | or (w : BitVec 2) (rd rb rc : SReg)
  | xor (w : BitVec 2) (rd rb rc : SReg)
  | shl (w : BitVec 2) (rd rb rc : SReg)
  | shr (w : BitVec 2) (rd rb rc : SReg)
  | sra (w : BitVec 2) (rd rb rc : SReg)
  | min (w : BitVec 2) (rd rb rc : SReg)
  | max (w : BitVec 2) (rd rb rc : SReg)
  | minu (w : BitVec 2) (rd rb rc : SReg)
  | maxu (w : BitVec 2) (rd rb rc : SReg)
  -- integer group, immediate form (R303)
  | addImm (w : BitVec 2) (rd rb : SReg) (imm : BitVec 32)
  | subImm (w : BitVec 2) (rd rb : SReg) (imm : BitVec 32)
  | mulImm (w : BitVec 2) (rd rb : SReg) (imm : BitVec 32)
  | mulhImm (w : BitVec 2) (rd rb : SReg) (imm : BitVec 32)
  | mulhuImm (w : BitVec 2) (rd rb : SReg) (imm : BitVec 32)
  | divImm (w : BitVec 2) (rd rb : SReg) (imm : BitVec 32)
  | divuImm (w : BitVec 2) (rd rb : SReg) (imm : BitVec 32)
  | remImm (w : BitVec 2) (rd rb : SReg) (imm : BitVec 32)
  | remuImm (w : BitVec 2) (rd rb : SReg) (imm : BitVec 32)
  | andImm (w : BitVec 2) (rd rb : SReg) (imm : BitVec 32)
  | andnImm (w : BitVec 2) (rd rb : SReg) (imm : BitVec 32)
  | orImm (w : BitVec 2) (rd rb : SReg) (imm : BitVec 32)
  | xorImm (w : BitVec 2) (rd rb : SReg) (imm : BitVec 32)
  | shlImm (w : BitVec 2) (rd rb : SReg) (imm : BitVec 32)
  | shrImm (w : BitVec 2) (rd rb : SReg) (imm : BitVec 32)
  | sraImm (w : BitVec 2) (rd rb : SReg) (imm : BitVec 32)
  | minImm (w : BitVec 2) (rd rb : SReg) (imm : BitVec 32)
  | maxImm (w : BitVec 2) (rd rb : SReg) (imm : BitVec 32)
  | minuImm (w : BitVec 2) (rd rb : SReg) (imm : BitVec 32)
  | maxuImm (w : BitVec 2) (rd rb : SReg) (imm : BitVec 32)
  -- unary group, moves, selection, comparison (R310, R333, R305, R339, R311)
  | clz (w : BitVec 2) (rd rb : SReg)
  | ctz (w : BitVec 2) (rd rb : SReg)
  | popc (w : BitVec 2) (rd rb : SReg)
  | sext (w : BitVec 2) (rd rb : SReg)
  | zext (w : BitVec 2) (rd rb : SReg)
  | mov (rd rb : SReg)
  | movi (rd : SReg) (imm : BitVec 32)
  | moviHi (rd : SReg) (imm : BitVec 32)
  | addpc (rd : SReg) (imm : BitVec 32)
  | sel (rd rb rc rs : SReg) (hint : BitVec 2)
  | cmp (cond : BitVec 6) (rd rb rc : SReg)
  -- scalar float (R313, R318, R315, R316)
  | fadd (w : BitVec 2) (rd rb rc : SReg)
  | fsub (w : BitVec 2) (rd rb rc : SReg)
  | fmul (w : BitVec 2) (rd rb rc : SReg)
  | fdiv (w : BitVec 2) (rd rb rc : SReg)
  | fsqrt (w : BitVec 2) (rd rb : SReg)
  | fmin (w : BitVec 2) (rd rb rc : SReg)
  | fmax (w : BitVec 2) (rd rb rc : SReg)
  | fma (w : BitVec 2) (rd rb rc ra : SReg) (hint : BitVec 2)
  | fcmp (w : BitVec 2) (cond : BitVec 6) (rd rb rc : SReg)
  | fcvt (dst src : BitVec 3) (rd rb : SReg)
  -- scalar memory, fence, atomics (R328, R176, R299)
  | ld (w : BitVec 2) (acq : Bool) (scope : BitVec 3) (rd rb : SReg) (imm : BitVec 32)
  | ldu (w : BitVec 2) (acq : Bool) (scope : BitVec 3) (rd rb : SReg) (imm : BitVec 32)
  | st (w : BitVec 2) (rel : Bool) (scope : BitVec 3) (rs rb : SReg) (imm : BitVec 32)
  | fence (order : BitVec 2) (scope : BitVec 3)
  | aadd (w order : BitVec 2) (scope : BitVec 3) (rd rb rc : SReg) (hint : BitVec 2)
  | aand (w order : BitVec 2) (scope : BitVec 3) (rd rb rc : SReg) (hint : BitVec 2)
  | aor (w order : BitVec 2) (scope : BitVec 3) (rd rb rc : SReg) (hint : BitVec 2)
  | axor (w order : BitVec 2) (scope : BitVec 3) (rd rb rc : SReg) (hint : BitVec 2)
  | amin (w order : BitVec 2) (scope : BitVec 3) (rd rb rc : SReg) (hint : BitVec 2)
  | amax (w order : BitVec 2) (scope : BitVec 3) (rd rb rc : SReg) (hint : BitVec 2)
  | aswap (w order : BitVec 2) (scope : BitVec 3) (rd rb rc : SReg) (hint : BitVec 2)
  | acas (w order : BitVec 2) (scope : BitVec 3) (rd rb rc rx : SReg) (hint : BitVec 2)
  -- vector memory (R363, R349)
  | vld (vd : VReg) (rb : SReg) (k : KReg) (hint : BitVec 2)
  | vlds (vd : VReg) (rb rc : SReg) (k : KReg) (hint : BitVec 2)
  | vldx (iw : BitVec 2) (vd : VReg) (rb : SReg) (vc : VReg) (p : BitVec 2) (k : KReg) (hint : BitVec 2)
  | vldff (vd : VReg) (rb : SReg) (k : KReg) (hint : BitVec 2)
  | vst (vs : VReg) (rb : SReg) (k : KReg) (hint : BitVec 2)
  | vsts (vs : VReg) (rb rc : SReg) (k : KReg) (hint : BitVec 2)
  | vstx (iw : BitVec 2) (vs : VReg) (rb : SReg) (vc : VReg) (p : BitVec 2) (k : KReg) (hint : BitVec 2)
  | vamo (op : BitVec 4) (w order : BitVec 2) (scope : BitVec 3) (vd : VReg) (rb : SReg)
      (vc vi : VReg) (p : BitVec 2) (k : KReg) (hint : BitVec 2)
  -- vector integer (R347, R352, R373, R367, R362, R371, R370, R374, R353, R354)
  | vadd (vd vb vc : VReg) (p : BitVec 2) (k : KReg) (hint : BitVec 2)
  | vsub (vd vb vc : VReg) (p : BitVec 2) (k : KReg) (hint : BitVec 2)
  | vmul (vd vb vc : VReg) (p : BitVec 2) (k : KReg) (hint : BitVec 2)
  | vmulh (u : Bool) (vd vb vc : VReg) (p : BitVec 2) (k : KReg) (hint : BitVec 2)
  | vmin (u : Bool) (vd vb vc : VReg) (p : BitVec 2) (k : KReg) (hint : BitVec 2)
  | vmax (u : Bool) (vd vb vc : VReg) (p : BitVec 2) (k : KReg) (hint : BitVec 2)
  | vand (vd vb vc : VReg) (p : BitVec 2) (k : KReg) (hint : BitVec 2)
  | vor (vd vb vc : VReg) (p : BitVec 2) (k : KReg) (hint : BitVec 2)
  | vxor (vd vb vc : VReg) (p : BitVec 2) (k : KReg) (hint : BitVec 2)
  | vshl (vd vb vc : VReg) (p : BitVec 2) (k : KReg) (hint : BitVec 2)
  | vshr (vd vb vc : VReg) (p : BitVec 2) (k : KReg) (hint : BitVec 2)
  | vsra (vd vb vc : VReg) (p : BitVec 2) (k : KReg) (hint : BitVec 2)
  | vcmp (cond : BitVec 9) (kd : BitVec 5) (vb vc : VReg) (p : BitVec 2) (k : KReg) (hint : BitVec 2)
  | vsel (vd vb vc : VReg) (p : BitVec 2) (k : KReg) (hint : BitVec 2)
  | vmv (vd vb : VReg) (k : KReg) (hint : BitVec 2)
  | vmvScalar (vd : VReg) (rb : SReg) (k : KReg) (hint : BitVec 2)
  | vid (vd : VReg) (rb : SReg) (k : KReg) (hint : BitVec 2)
  | vred (op : BitVec 3) (rd : SReg) (vb : VReg) (rc : SReg) (k : KReg) (hint : BitVec 2)
  | vscan (op : BitVec 3) (excl : Bool) (vd vb : VReg) (rc : SReg) (k : KReg) (hint : BitVec 2)
  | vperm (vd vb vc : VReg) (p : BitVec 2) (k : KReg) (hint : BitVec 2)
  | vslideUp (vd vb : VReg) (rc rf : SReg) (k : KReg) (hint : BitVec 2)
  | vslideDown (vd vb : VReg) (rc rf : SReg) (k : KReg) (hint : BitVec 2)
  | vcompress (vd vb : VReg) (k : KReg) (hint : BitVec 2)
  | vexpand (vd vb : VReg) (k : KReg) (hint : BitVec 2)
  | vext (u : Bool) (rd : SReg) (vb : VReg) (rc : SReg) (hint : BitVec 2)
  | vins (vd : VReg) (rb rc : SReg) (hint : BitVec 2)
  -- vector float and conversions (R355, R360, R357, R358, R361, R368, R375)
  | vfadd (vd vb vc : VReg) (p : BitVec 2) (k : KReg) (hint : BitVec 2)
  | vfsub (vd vb vc : VReg) (p : BitVec 2) (k : KReg) (hint : BitVec 2)
  | vfmul (vd vb vc : VReg) (p : BitVec 2) (k : KReg) (hint : BitVec 2)
  | vfdiv (vd vb vc : VReg) (p : BitVec 2) (k : KReg) (hint : BitVec 2)
  | vfsqrt (vd vb : VReg) (k : KReg) (hint : BitVec 2)
  | vfrec (vd vb : VReg) (k : KReg) (hint : BitVec 2)
  | vfrsqrt (vd vb : VReg) (k : KReg) (hint : BitVec 2)
  | vfexp2 (vd vb : VReg) (k : KReg) (hint : BitVec 2)
  | vfmin (vd vb vc : VReg) (p : BitVec 2) (k : KReg) (hint : BitVec 2)
  | vfmax (vd vb vc : VReg) (p : BitVec 2) (k : KReg) (hint : BitVec 2)
  | vfma (vd vb vc va : VReg) (p : BitVec 2) (k : KReg) (hint : BitVec 2)
  | vfcmp (cond : BitVec 9) (kd : BitVec 5) (vb vc : VReg) (p : BitVec 2) (k : KReg) (hint : BitVec 2)
  | vfcvt (dst src : BitVec 4) (vd vb : VReg) (k : KReg) (hint : BitVec 2)
  | vfred (op : BitVec 2) (rd : SReg) (vb : VReg) (rc : SReg) (k : KReg) (hint : BitVec 2)
  | vpack (fmt : BitVec 4) (vd vb : VReg) (k : KReg) (hint : BitVec 2)
  | vunpack (vd vb : VReg) (rc : SReg) (k : KReg) (hint : BitVec 2)
  -- masks (R325, R327)
  | kand (kd kb kc : BitVec 5)
  | kor (kd kb kc : BitVec 5)
  | kxor (kd kb kc : BitVec 5)
  | knot (kd kb : BitVec 5)
  | kmv (kd kb : BitVec 5)
  | kset (kd : BitVec 5) (rb : SReg)
  | kpopc (rd : SReg) (kb : BitVec 5)
  | kfirst (rd : SReg) (kb : BitVec 5)
  -- matrix engine (R151)
  | mshape (mode : BitVec 2) (sparse : Bool) (rd rb rc rk : SReg) (hint : BitVec 2)
  | mldw (cls : BitVec 2) (space : BitVec 2) (sparse : Bool) (rb rc : SReg) (vm : VReg) (hint : BitVec 2)
  | mswap
  | mmac (zero : Bool) (ra rb rc : SReg) (hint : BitVec 2)
  | mzero (rb rc : SReg)
  | mld (fmt : BitVec 2) (ra rb rc : SReg) (hint : BitVec 2)
  | mst (fmt : BitVec 3) (ra rb rc : SReg) (hint : BitVec 2)
  | mrd (vd : VReg) (rb : SReg) (k : KReg) (hint : BitVec 2)
  | mwr (rb : SReg) (vc : VReg) (p : BitVec 2) (k : KReg) (hint : BitVec 2)
  | mchk (rd : SReg)
  -- copies, collective, remote reduce, tag waits (R135, R138, R238, R243, R344)
  | cpy (scope : BitVec 3) (dsp ssp : BitVec 2) (ra rb rc : SReg) (rtag atag : BitVec 6)
  | cpyd (width : BitVec 2) (fields : BitVec 3) (scope : BitVec 3) (dsp ssp : BitVec 2)
      (ra rb rc : SReg) (rtag atag : BitVec 6)
  | coll (op : BitVec 3) (fmt : BitVec 4) (scope : BitVec 3) (dsp ssp : BitVec 2)
      (ra rb rc : SReg) (rtag atag : BitVec 6)
  | rred (fmt : BitVec 2) (scope : BitVec 3) (rb : SReg) (vc : VReg) (rd : SReg) (tag : BitVec 6)
      (p : BitVec 2) (k : KReg) (hint : BitVec 2)
  | twait (rd : SReg) (tag : BitVec 6)
  | twany (rd rb : SReg)
  | tfirst (rd rb : SReg)
  -- strand actions (R66, R67)
  | strandStopComplete (n : Nat)
  | strandKillComplete (n : Nat)
  -- power and heat; requests of other packages (R292, R234 to R236)
  | powerThrottle (d i : Nat) (mhz : BitVec 12)
  | thermalThrottle (d : Nat) (mhz : BitVec 12)
  | thermalClamp (d : Nat)
  | thermalPowerDown
  | limitClear (d i : Nat)
  | remoteAccessServe (gen : BitVec 32) (request : RemoteRequest)
  -- tenants, counters (R74, R75, R284, R274, R85)
  | activate (who : Agent) (t : Nat)
  | teardown (who : Agent) (t : Nat)
  | scrubComplete (t : Nat)
  | measnow (who : Agent) (t : Nat)
  | counterCancel (who : Agent) (t : Nat) (id : BitVec 32)
  | cancelComplete (t : Nat) (id : BitVec 32)
  -- queues (R97 to R103, R110)
  | queueEnable (who : Agent) (q : Nat)
  | queueDisable (who : Agent) (q : Nat)
  | queueVerdict (who : Agent) (q : Nat) (value : Word)
  | queueWake (q : Nat)
  | cmdJob (q : Nat)
  | cmdPhase (q : Nat)
  | cmdGraph (q : Nat)
  | cmdWait (q : Nat)
  | cmdSignal (q : Nat)
  | completionWordWrite (q : Nat) (index : Nat)
  | queueResourceFree (q : Nat)
  -- dispatcher, residency, firmware (R79, R95, R96, R107, R108, R111, R77)
  | dispatchCreate
  | readyEntryAge (id : Nat)
  | readyEntryBlocking (id : Nat)
  | strandWaitAge (n : Nat)
  | strandResident (n : Nat)
  | preempt (core : Nat) (heldLong : List Nat)
  | firmwareWatchdog (f : Nat)
  | modesStore (who : Agent) (value : Word)
  -- fault queue (R197, R198, R201)
  | fqReplay (who : Agent) (t : Nat) (seq : BitVec 48)
  | fqDeny (who : Agent) (t : Nat) (seq : BitVec 48)
  | fqTsyncAll (who : Agent) (t : Nat)
  | fqTsyncPage (who : Agent) (t : Nat) (page : BitVec 41)
  | heldFaultWrite (t : Nat)
  -- engines (R136, R149, R153, R161, R241 to R243, R279)
  | copyReleaseComplete (id : Nat)
  | copyArrivalComplete (id : Nat)
  | mldwLoadDone (core : Nat)
  | matrixOpComplete (core : Nat)
  | matrixErrorStop (core : Nat) (row : Nat)
  | collResultDeliver (key : Word) (seq : BitVec 32)
  | collGroupLost (key : Word)
  | rredElementAdd (id : Nat) (elem : Nat)
  | sealAbsorbComplete (id : Nat)
  -- chains, dies, power, keys (R245, R249, R247, R261, R262, R290, R269, R270)
  | chainStart (who : Agent) (c : Nat)
  | chainRelease (who : Agent) (c : Nat)
  | linkopRemove (who : Agent) (c : Nat) (die : BitVec 3)
  | linkopAppend (who : Agent) (c : Nat) (die : BitVec 3) (base : BitVec 40)
  | chainAppendJoin (c : Nat)
  | vineWriteAccept (c : Nat)
  | dieFence (who : Agent) (d : Nat) (forwarded : Table Nat)
  | dieRestore (who : Agent) (d : Nat)
  | islandStore (who : Agent) (d i : Nat) (value : Word)
  | bootPhase (how : PhaseEnd)
  | remoteStoreAck (id : Nat) (taken : Bool)
  | keyZeroiseComplete (k : Nat)
  | keyLoad (who : Agent) (k : Nat)
  | keyZeroise (who : Agent) (k : Nat)
  -- strand actions and other control stores by an agent (R54, R56, R66, R67)
  | strandStop (who : Agent) (n : Nat)
  | strandResume (who : Agent) (n : Nat)
  | strandStep (who : Agent) (n : Nat)
  | strandKill (who : Agent) (n : Nat)
  | controlFieldStore (who : Agent) (pa : Nat) (value : Word)
  | frameKindStore (who : Agent) (pa : Nat) (value : Word)
  -- host, reset, boot, peers (R62, R224 to R232, R287, R288, R235)
  | winStore (who : Agent) (w : Nat) (value : Word)
  | windowCompletion (n : Nat) (answer : Completion)
  | hostBar0Access (offset size : Nat) (data : Option Word)
  | hostBar2Access (offset size : Nat) (data : Option (List Byte))
  | hostAtomicop
  | packageReset
  | hotReset
  | busMasterDisable
  | msixPendingSend
  | peerUp (p : Nat) (gen : BitVec 32)
  | peerStateGone (p : Nat)
  | firmwareStage (images : List FirmwareImage)
  | pldmSensorRead (which : Sensor)
  | illegalEncoding
  | completionTimeout (n : Nat)
  | trellisLinkFail (p : Nat)
  | pcieLinkUp (status : BitVec 16)
  | busMasterEnableSet
  | atomicopRequesterEnable
  deriving DecidableEq, Repr

end Sys2Proof
end

