-- ==== Sys2Proof/WellFormed.lean ====
section
/-! DEFINITION. Which steps are well formed: for an instruction, the encodings R37 does not reject
(every reserved field value of R5, R18, R24, R43 to R46 and the instruction's entry refused); for a
package event, numbers inside the maps of R52. -/

namespace Sys2Proof.Wf

/-- A scope code 0 to 4 (R5). -/
def scope (s : BitVec 3) : Bool := decide (s.toNat < 5)

/-- The integer width code: 64-bit or 32-bit (R303); the float width code alike (R313). -/
def width1 (w : BitVec 2) : Bool := decide (w.toNat < 2)

/-- The atomic width code: 32-bit or 64-bit (R299, R349). -/
def widthAtomic (w : BitVec 2) : Bool := decide (2 ≤ w.toNat)

/-- A condition code 0 to 5 (R44). -/
def cond {n : Nat} (c : BitVec n) : Bool := decide (c.toNat < 6)

/-- A float condition 0 to 3 (R315, R357). -/
def fcond {n : Nat} (c : BitVec n) : Bool := decide (c.toNat < 4)

/-- A mask named as a source: 0 to 15 (R325). -/
def maskSrc (k : BitVec 5) : Bool := decide (k.toNat < 16)

/-- A mask named as a destination: 1 to 15 (R18). -/
def maskDst (k : BitVec 5) : Bool := decide (1 ≤ k.toNat ∧ k.toNat < 16)

/-- An even register pair, 2 to 30 (R135). -/
def pair (a : SReg) : Bool := decide (a.toNat % 2 = 0 ∧ a.toNat ≠ 0)

/-- A copy's space code 0 to 2 (R135). -/
def space (s : BitVec 2) : Bool := decide (s.toNat < 3)

/-- Order and scope of a scalar access: no scope without an order (R174). -/
def ordered (ord : Bool) (s : BitVec 3) : Bool := if ord then scope s else decide (s = 0#3)

/-- Formats of `fcvt` (R45). -/
def fcvtCodes (d s : BitVec 3) : Bool := decide (d.toNat < 7 ∧ s.toNat < 7 ∧ d ≠ s)

/-- Formats of `vfcvt` (R358). -/
def vfcvtCodes (d s : BitVec 4) : Bool := decide (d.toNat < 10 ∧ s.toNat < 11 ∧ d ≠ s)

/-- The atomics of MAJ 0x34 (R299). -/
def atomic (w : BitVec 2) (s : BitVec 3) : Bool := widthAtomic w && scope s

def die (d : Nat) : Bool := decide (d < 4)
def tenant (t : Nat) : Bool := decide (t < 256)
def queue (q : Nat) : Bool := decide (q < 4096)
def strand (n : Nat) : Bool := decide (n < 65536)
def chain (c : Nat) : Bool := decide (c < 256)
def keySlot (k : Nat) : Bool := decide (k < 64)
def window (w : Nat) : Bool := decide (w < 16)
def island (i : Nat) : Bool := decide (i < 12)
def peer (p : Nat) : Bool := decide (p < 4096)

/-- Who stores: the host, or a strand of R52's map. -/
def agent : Agent → Bool
  | .host => true
  | .strand n => strand n

end Sys2Proof.Wf

namespace Sys2Proof
open Wf

/-- The step is well formed. -/
def Instr.wf : Instr → Bool
  | .nop | .hintH _ _ | .hintHt1 _ _ _ | .hintHt2 _ _ _ | .hintHt3 _ _ _ => true
  | .b _ | .call _ | .jmp _ | .ret => true
  | .bCond c _ _ _ => cond c
  | .setvl _ _ _ => true
  | .setvlf _ _ _ _ _ _ s => scope s
  | .trap _ | .brk | .exit | .bar _ | .launch _ _ | .cancel _ | .claim | .tret => true
  | .cwait _ _ s | .fpub _ _ s | .icinv _ _ s | .cflush _ _ s | .cinv _ _ s => scope s
  | .tsync _ _ => true
  | .pref _ _ t => decide (t.toNat < 2)
  | .getsr _ n | .setsr n _ => decide (n.toNat ≤ 20)
  | .sealOpen _ _ _ _ | .sealAbsorb _ _ _ _ _ | .sealClose _ _ _ => true
  | .chlinkRm _ _ _ _ | .chlinkAdd _ _ _ _ _ | .chquery _ _ | .chsync _ => true
  | .add w _ _ _ | .sub w _ _ _ | .mul w _ _ _ | .mulh w _ _ _ | .mulhu w _ _ _
  | .div w _ _ _ | .divu w _ _ _ | .rem w _ _ _ | .remu w _ _ _ | .and w _ _ _
  | .andn w _ _ _ | .or w _ _ _ | .xor w _ _ _ | .shl w _ _ _ | .shr w _ _ _
  | .sra w _ _ _ | .min w _ _ _ | .max w _ _ _ | .minu w _ _ _ | .maxu w _ _ _ => width1 w
  | .addImm w _ _ _ | .subImm w _ _ _ | .mulImm w _ _ _ | .mulhImm w _ _ _ | .mulhuImm w _ _ _
  | .divImm w _ _ _ | .divuImm w _ _ _ | .remImm w _ _ _ | .remuImm w _ _ _ | .andImm w _ _ _
  | .andnImm w _ _ _ | .orImm w _ _ _ | .xorImm w _ _ _ | .shlImm w _ _ _ | .shrImm w _ _ _
  | .sraImm w _ _ _ | .minImm w _ _ _ | .maxImm w _ _ _ | .minuImm w _ _ _
  | .maxuImm w _ _ _ => width1 w
  | .clz _ _ _ | .ctz _ _ _ | .popc _ _ _ | .sext _ _ _ | .zext _ _ _ | .mov _ _ => true
  | .movi _ _ | .moviHi _ _ | .addpc _ _ | .sel _ _ _ _ _ => true
  | .cmp c _ _ _ => cond c
  | .fadd w _ _ _ | .fsub w _ _ _ | .fmul w _ _ _ | .fdiv w _ _ _ | .fsqrt w _ _
  | .fmin w _ _ _ | .fmax w _ _ _ | .fma w _ _ _ _ _ => width1 w
  | .fcmp w c _ _ _ => width1 w && fcond c
  | .fcvt d s _ _ => fcvtCodes d s
  | .ld _ o s _ _ _ | .ldu _ o s _ _ _ | .st _ o s _ _ _ => ordered o s
  | .fence o s => decide (o ≠ 0#2) && scope s
  | .aadd w _ s _ _ _ _ | .aand w _ s _ _ _ _ | .aor w _ s _ _ _ _ | .axor w _ s _ _ _ _
  | .amin w _ s _ _ _ _ | .amax w _ s _ _ _ _ | .aswap w _ s _ _ _ _
  | .acas w _ s _ _ _ _ _ => atomic w s
  | .vld _ _ _ _ | .vlds _ _ _ _ _ | .vldx _ _ _ _ _ _ _ | .vldff _ _ _ _ => true
  | .vst _ _ _ _ | .vsts _ _ _ _ _ | .vstx _ _ _ _ _ _ _ => true
  | .vamo op w _ s _ _ _ _ _ _ _ => decide (op.toNat < 8) && atomic w s
  | .vadd _ _ _ _ _ _ | .vsub _ _ _ _ _ _ | .vmul _ _ _ _ _ _ | .vmulh _ _ _ _ _ _ _
  | .vmin _ _ _ _ _ _ _ | .vmax _ _ _ _ _ _ _ | .vand _ _ _ _ _ _ | .vor _ _ _ _ _ _
  | .vxor _ _ _ _ _ _ | .vshl _ _ _ _ _ _ | .vshr _ _ _ _ _ _ | .vsra _ _ _ _ _ _ => true
  | .vcmp c kd _ _ _ _ _ => cond c && maskDst kd
  | .vsel _ _ _ _ _ _ | .vmv _ _ _ _ | .vmvScalar _ _ _ _ | .vid _ _ _ _ => true
  | .vred _ _ _ _ _ _ | .vscan _ _ _ _ _ _ _ | .vperm _ _ _ _ _ _ => true
  | .vslideUp _ _ _ _ _ _ | .vslideDown _ _ _ _ _ _ | .vcompress _ _ _ _ | .vexpand _ _ _ _ => true
  | .vext _ _ _ _ _ | .vins _ _ _ _ => true
  | .vfadd _ _ _ _ _ _ | .vfsub _ _ _ _ _ _ | .vfmul _ _ _ _ _ _ | .vfdiv _ _ _ _ _ _ => true
  | .vfsqrt _ _ _ _ | .vfrec _ _ _ _ | .vfrsqrt _ _ _ _ | .vfexp2 _ _ _ _ => true
  | .vfmin _ _ _ _ _ _ | .vfmax _ _ _ _ _ _ | .vfma _ _ _ _ _ _ _ => true
  | .vfcmp c kd _ _ _ _ _ => fcond c && maskDst kd
  | .vfcvt d s _ _ _ _ => vfcvtCodes d s
  | .vfred op _ _ _ _ _ => decide (op.toNat < 3)
  | .vpack f _ _ _ _ => decide (1 ≤ f.toNat ∧ f.toNat ≤ 8)
  | .vunpack _ _ _ _ _ => true
  | .kand kd kb kc | .kor kd kb kc | .kxor kd kb kc => maskDst kd && maskSrc kb && maskSrc kc
  | .knot kd kb | .kmv kd kb => maskDst kd && maskSrc kb
  | .kset kd _ => maskDst kd
  | .kpopc _ kb | .kfirst _ kb => maskSrc kb
  | .mshape m _ _ _ _ _ _ => decide (m.toNat < 3)
  | .mldw c sp sparse _ _ vm _ =>
      decide (c.toNat < 3 ∧ sp.toNat < 2) && (sparse || decide (vm = 0#5))
  | .mswap | .mmac _ _ _ _ _ | .mzero _ _ | .mrd _ _ _ _ | .mwr _ _ _ _ _ | .mchk _ => true
  | .mld f _ _ _ _ => decide (f.toNat < 3)
  | .mst f _ _ _ _ => decide (f.toNat < 5)
  | .cpy s d c a _ _ _ _ => scope s && space d && space c && pair a
  | .cpyd _ f s d c a _ _ _ _ => decide (f ≠ 0#3) && scope s && space d && space c && pair a
  | .coll op f s d c a _ _ _ _ =>
      decide (op.toNat < 3 ∧ f.toNat < 6) && scope s && space d && space c && pair a
  | .rred _ s _ _ _ _ _ _ _ => scope s
  | .twait _ _ | .twany _ _ | .tfirst _ _ => true
  | .strandStop w n | .strandResume w n | .strandStep w n | .strandKill w n => agent w && strand n
  | .strandStopComplete n | .strandKillComplete n | .strandWaitAge n | .strandResident n => strand n
  | .controlFieldStore w pa _ => agent w && decide (pa < 2 ^ 56)
  | .frameKindStore w pa _ => agent w && decide (pa < 2 ^ 56)
  | .activate w t | .teardown w t | .measnow w t | .fqTsyncAll w t => agent w && tenant t
  | .scrubComplete t | .heldFaultWrite t | .cancelComplete t _ => tenant t
  | .counterCancel w t _ => agent w && tenant t
  | .queueEnable w q | .queueDisable w q | .queueVerdict w q _ => agent w && queue q
  | .queueWake q | .cmdJob q | .cmdPhase q | .cmdGraph q | .cmdWait q | .cmdSignal q
  | .completionWordWrite q _ | .queueResourceFree q => queue q
  | .dispatchCreate | .readyEntryAge _ | .readyEntryBlocking _ => true
  | .preempt c _ => decide (c < 256)
  | .firmwareWatchdog f => decide (f < 8)
  | .modesStore w _ => agent w
  | .fqReplay w t _ | .fqDeny w t _ | .fqTsyncPage w t _ => agent w && tenant t
  | .copyReleaseComplete _ | .copyArrivalComplete _ | .rredElementAdd _ _
  | .sealAbsorbComplete _ | .collResultDeliver _ _ | .collGroupLost _ | .remoteStoreAck _ _ => true
  | .mldwLoadDone c | .matrixOpComplete c => decide (c < 256)
  | .matrixErrorStop c row => decide (c < 256 ∧ row < 2048)
  | .chainStart w c | .chainRelease w c | .linkopRemove w c _ | .linkopAppend w c _ _ =>
      agent w && chain c
  | .chainAppendJoin c | .vineWriteAccept c => chain c
  | .dieFence w d _ | .dieRestore w d => agent w && die d
  | .islandStore w d i _ => agent w && die d && island i
  | .keyLoad w k | .keyZeroise w k => agent w && keySlot k
  | .keyZeroiseComplete k => keySlot k
  | .winStore w i _ => agent w && window i
  | .windowCompletion n _ | .completionTimeout n => strand n
  | .hostBar0Access _ _ _ | .hostBar2Access _ _ _ | .hostAtomicop | .packageReset | .bootPhase _
  | .hotReset | .busMasterDisable | .msixPendingSend | .busMasterEnableSet
  | .atomicopRequesterEnable | .pcieLinkUp _ | .thermalPowerDown | .firmwareStage _
  | .illegalEncoding | .remoteAccessServe _ _ => true
  | .peerUp p _ | .peerStateGone p | .trellisLinkFail p => peer p
  | .powerThrottle d i _ | .limitClear d i => die d && island i
  | .thermalThrottle d _ | .thermalClamp d => die d
  | .pldmSensorRead _ => true

end Sys2Proof
end

