-- ==== Sys2Proof/Decode.lean ====
section
/-! DEFINITION. From bits to instructions and back: the head and tail formats (R33, R34), the walk of
a code line (R35, R36), the decoder (R37, R43 to R46 and the entries), which refuses by name every
encoding that is no instruction, and the encoder, written from the same tables. -/

namespace Sys2Proof

/-- An instruction's head and tail split into the fields of its format (R33, R34). -/
inductive Enc where
  | h (maj : BitVec 7) (a : BitVec 5) (w : BitVec 2)
  | ht1 (maj : BitVec 7) (a : BitVec 5) (w : BitVec 2) (b c : BitVec 5) (f : BitVec 6)
  | ht2 (maj : BitVec 7) (a : BitVec 5) (w : BitVec 2) (b c d : BitVec 5) (k : BitVec 4)
      (p h : BitVec 2) (f : BitVec 9)
  | ht3 (maj : BitVec 7) (a : BitVec 5) (w : BitVec 2) (b c : BitVec 5) (f : BitVec 6)
      (imm : BitVec 32)
  deriving DecidableEq, Repr

/-- A head: T, MAJ, A, W from the high bit down (R33). -/
def packHead (t : BitVec 2) (maj : BitVec 7) (a : BitVec 5) (w : BitVec 2) : BitVec 16 :=
  (((t ++ maj) ++ a) ++ w).cast rfl

/-- An HT1 tail: B, C, F (R34). -/
def packHt1 (b c : BitVec 5) (f : BitVec 6) : BitVec 16 := ((b ++ c) ++ f).cast rfl

/-- An HT2 tail: B, C, D, K, P, H, F (R34). -/
def packHt2 (b c d : BitVec 5) (k : BitVec 4) (p h : BitVec 2) (f : BitVec 9) : BitVec 32 :=
  ((((((b ++ c) ++ d) ++ k) ++ p) ++ h) ++ f).cast rfl

/-- An HT3 tail: B, C, F, IMM (R34). -/
def packHt3 (b c : BitVec 5) (f : BitVec 6) (imm : BitVec 32) : BitVec 48 :=
  (((b ++ c) ++ f) ++ imm).cast rfl

/-- The length field T of a head (R33). -/
def headT (head : BitVec 16) : BitVec 2 := head.extractLsb' 14 2

/-- The tail length in bytes of a head, 2·T (R35). -/
def tailLen (head : BitVec 16) : Nat := 2 * (headT head).toNat

/-- Split a head and the value of its tail into fields; the tail's bits above its length are not
read. -/
def splitEnc (head : BitVec 16) (tail : BitVec 48) : Enc :=
  let maj := head.extractLsb' 7 7
  let a := head.extractLsb' 2 5
  let w := head.extractLsb' 0 2
  match (headT head).toNat with
  | 0 => .h maj a w
  | 1 => .ht1 maj a w (tail.extractLsb' 11 5) (tail.extractLsb' 6 5) (tail.extractLsb' 0 6)
  | 2 => .ht2 maj a w (tail.extractLsb' 27 5) (tail.extractLsb' 22 5) (tail.extractLsb' 17 5)
          (tail.extractLsb' 13 4) (tail.extractLsb' 11 2) (tail.extractLsb' 9 2)
          (tail.extractLsb' 0 9)
  | _ => .ht3 maj a w (tail.extractLsb' 43 5) (tail.extractLsb' 38 5) (tail.extractLsb' 32 6)
          (tail.extractLsb' 0 32)

/-- The head and the tail's value, zero above the tail's length. -/
def joinEnc : Enc → BitVec 16 × BitVec 48
  | .h maj a w => (packHead 0#2 maj a w, 0#48)
  | .ht1 maj a w b c f => (packHead 1#2 maj a w, (packHt1 b c f).setWidth 48)
  | .ht2 maj a w b c d k p h f => (packHead 2#2 maj a w, (packHt2 b c d k p h f).setWidth 48)
  | .ht3 maj a w b c f imm => (packHead 3#2 maj a w, packHt3 b c f imm)

/-- Why an encoding is no instruction; each is a bullet of R37. -/
inductive DecodeError where
  /-- MAJ is unassigned, or 0 with another head bit set. -/
  | unassigned
  /-- T differs from the format MAJ fixes. -/
  | wrongFormat
  /-- W, F or another code holds a value neither R43 nor the entry assigns. -/
  | reservedCode
  /-- A field the instruction does not use is not zero. -/
  | unusedField
  /-- A mask field holds 16 to 31, or `k0` would be written. -/
  | badMask
  /-- A scope field holds 5, 6 or 7, or a scope stands without an order. -/
  | badScope
  /-- P is not zero where C names no vector register. -/
  | badReplicate
  /-- The register pair of a copy or collective is odd or 0. -/
  | badPair
  deriving DecidableEq, Repr

/-- Refuse by name unless a condition holds. -/
def need (ok : Bool) (e : DecodeError) : Except DecodeError Unit :=
  if ok then .ok () else .error e

/-- A field the instruction does not use is zero. -/
def unused {n : Nat} (x : BitVec n) : Except DecodeError Unit := need (x == 0#n) .unusedField

/-- C names no vector register, so P is zero (R29). -/
def noReplicate (p : BitVec 2) : Except DecodeError Unit := need (p == 0#2) .badReplicate

/-- A bit of a field as a flag. -/
def bitFlag {n : Nat} (x : BitVec n) (i : Nat) : Bool := x.getLsbD i

/-- A flag as one bit. -/
def flagBit (b : Bool) : BitVec 1 := if b then 1#1 else 0#1

/-- The integer group's instruction of a function code, register form (R44). -/
def intOp (f : BitVec 6) (w : BitVec 2) (rd rb rc : SReg) : Except DecodeError Instr :=
  match f.toNat with
  | 0 => .ok (.add w rd rb rc) | 1 => .ok (.sub w rd rb rc) | 2 => .ok (.mul w rd rb rc)
  | 3 => .ok (.mulh w rd rb rc) | 4 => .ok (.mulhu w rd rb rc) | 5 => .ok (.div w rd rb rc)
  | 6 => .ok (.divu w rd rb rc) | 7 => .ok (.rem w rd rb rc) | 8 => .ok (.remu w rd rb rc)
  | 9 => .ok (.and w rd rb rc) | 10 => .ok (.andn w rd rb rc) | 11 => .ok (.or w rd rb rc)
  | 12 => .ok (.xor w rd rb rc) | 13 => .ok (.shl w rd rb rc) | 14 => .ok (.shr w rd rb rc)
  | 15 => .ok (.sra w rd rb rc) | 16 => .ok (.min w rd rb rc) | 17 => .ok (.max w rd rb rc)
  | 18 => .ok (.minu w rd rb rc) | 19 => .ok (.maxu w rd rb rc)
  | _ => .error .reservedCode

/-- The integer group's instruction of a function code, immediate form (R44). -/
def intOpImm (f : BitVec 6) (w : BitVec 2) (rd rb : SReg) (imm : BitVec 32) :
    Except DecodeError Instr :=
  match f.toNat with
  | 0 => .ok (.addImm w rd rb imm) | 1 => .ok (.subImm w rd rb imm)
  | 2 => .ok (.mulImm w rd rb imm) | 3 => .ok (.mulhImm w rd rb imm)
  | 4 => .ok (.mulhuImm w rd rb imm) | 5 => .ok (.divImm w rd rb imm)
  | 6 => .ok (.divuImm w rd rb imm) | 7 => .ok (.remImm w rd rb imm)
  | 8 => .ok (.remuImm w rd rb imm) | 9 => .ok (.andImm w rd rb imm)
  | 10 => .ok (.andnImm w rd rb imm) | 11 => .ok (.orImm w rd rb imm)
  | 12 => .ok (.xorImm w rd rb imm) | 13 => .ok (.shlImm w rd rb imm)
  | 14 => .ok (.shrImm w rd rb imm) | 15 => .ok (.sraImm w rd rb imm)
  | 16 => .ok (.minImm w rd rb imm) | 17 => .ok (.maxImm w rd rb imm)
  | 18 => .ok (.minuImm w rd rb imm) | 19 => .ok (.maxuImm w rd rb imm)
  | _ => .error .reservedCode

/-- The unary group (R310). -/
def unaryOp (f : BitVec 6) (w : BitVec 2) (rd rb : SReg) : Except DecodeError Instr :=
  match f.toNat with
  | 0 => .ok (.clz w rd rb) | 1 => .ok (.ctz w rd rb) | 2 => .ok (.popc w rd rb)
  | 3 => .ok (.sext w rd rb) | 4 => .ok (.zext w rd rb)
  | 5 => do need (w == 3#2) .reservedCode; .ok (.mov rd rb)
  | _ => .error .reservedCode

/-- The scalar float group (R313). -/
def floatOp (f : BitVec 6) (w : BitVec 2) (rd rb rc : SReg) : Except DecodeError Instr :=
  match f.toNat with
  | 0 => .ok (.fadd w rd rb rc) | 1 => .ok (.fsub w rd rb rc) | 2 => .ok (.fmul w rd rb rc)
  | 3 => .ok (.fdiv w rd rb rc)
  | 4 => do unused rc; .ok (.fsqrt w rd rb)
  | 5 => .ok (.fmin w rd rb rc) | 6 => .ok (.fmax w rd rb rc)
  | _ => .error .reservedCode

/-- The atomics (R299). -/
def atomicOp (f : BitVec 9) (w : BitVec 2) (rd rb rc rx : SReg) (h : BitVec 2) :
    Except DecodeError Instr := do
  need (Wf.widthAtomic w) .reservedCode
  let o : BitVec 2 := f.extractLsb' 4 2
  let s : BitVec 3 := f.extractLsb' 6 3
  need (Wf.scope s) .badScope
  match (f.extractLsb' 0 4 : BitVec 4).toNat with
  | 0 => do unused rx; .ok (.aadd w o s rd rb rc h)
  | 1 => do unused rx; .ok (.aand w o s rd rb rc h)
  | 2 => do unused rx; .ok (.aor w o s rd rb rc h)
  | 3 => do unused rx; .ok (.axor w o s rd rb rc h)
  | 4 => do unused rx; .ok (.amin w o s rd rb rc h)
  | 5 => do unused rx; .ok (.amax w o s rd rb rc h)
  | 6 => do unused rx; .ok (.aswap w o s rd rb rc h)
  | 7 => .ok (.acas w o s rd rb rc rx h)
  | _ => .error .reservedCode

/-- The vector integer group (R46, R347): F[4] only with `vmulh`, `vmin` and `vmax`. -/
def vecIntOp (f : BitVec 9) (vd vb vc : VReg) (p : BitVec 2) (k : KReg) (h : BitVec 2) :
    Except DecodeError Instr := do
  need ((f.extractLsb' 5 4 : BitVec 4) == 0#4) .reservedCode
  let u := bitFlag f 4
  match (f.extractLsb' 0 4 : BitVec 4).toNat with
  | 0 => do need (!u) .reservedCode; .ok (.vadd vd vb vc p k h)
  | 1 => do need (!u) .reservedCode; .ok (.vsub vd vb vc p k h)
  | 2 => do need (!u) .reservedCode; .ok (.vmul vd vb vc p k h)
  | 3 => .ok (.vmulh u vd vb vc p k h)
  | 4 => .ok (.vmin u vd vb vc p k h)
  | 5 => .ok (.vmax u vd vb vc p k h)
  | 6 => do need (!u) .reservedCode; .ok (.vand vd vb vc p k h)
  | 7 => do need (!u) .reservedCode; .ok (.vor vd vb vc p k h)
  | 8 => do need (!u) .reservedCode; .ok (.vxor vd vb vc p k h)
  | 9 => do need (!u) .reservedCode; .ok (.vshl vd vb vc p k h)
  | 10 => do need (!u) .reservedCode; .ok (.vshr vd vb vc p k h)
  | 11 => do need (!u) .reservedCode; .ok (.vsra vd vb vc p k h)
  | _ => .error .reservedCode

/-- A unary function leaves C zero and P 0b00 (R46). -/
def unaryC (vc : VReg) (p : BitVec 2) : Except DecodeError Unit := do
  unused vc; noReplicate p

/-- The vector float group (R46, R355). -/
def vecFloatOp (f : BitVec 9) (vd vb vc : VReg) (p : BitVec 2) (k : KReg) (h : BitVec 2) :
    Except DecodeError Instr := do
  need ((f.extractLsb' 4 5 : BitVec 5) == 0#5) .reservedCode
  match (f.extractLsb' 0 4 : BitVec 4).toNat with
  | 0 => .ok (.vfadd vd vb vc p k h)
  | 1 => .ok (.vfsub vd vb vc p k h)
  | 2 => .ok (.vfmul vd vb vc p k h)
  | 3 => .ok (.vfdiv vd vb vc p k h)
  | 4 => do unaryC vc p; .ok (.vfsqrt vd vb k h)
  | 5 => do unaryC vc p; .ok (.vfrec vd vb k h)
  | 6 => do unaryC vc p; .ok (.vfrsqrt vd vb k h)
  | 7 => do unaryC vc p; .ok (.vfexp2 vd vb k h)
  | 8 => .ok (.vfmin vd vb vc p k h)
  | 9 => .ok (.vfmax vd vb vc p k h)
  | _ => .error .reservedCode

/-- The mask group (R325). -/
def maskOp (f : BitVec 6) (kd kb kc : BitVec 5) : Except DecodeError Instr := do
  need (Wf.maskDst kd) .badMask
  match f.toNat with
  | 0 => do need (Wf.maskSrc kb && Wf.maskSrc kc) .badMask; .ok (.kand kd kb kc)
  | 1 => do need (Wf.maskSrc kb && Wf.maskSrc kc) .badMask; .ok (.kor kd kb kc)
  | 2 => do need (Wf.maskSrc kb && Wf.maskSrc kc) .badMask; .ok (.kxor kd kb kc)
  | 3 => do need (Wf.maskSrc kb) .badMask; unused kc; .ok (.knot kd kb)
  | 4 => do need (Wf.maskSrc kb) .badMask; unused kc; .ok (.kmv kd kb)
  | 5 => do unused kc; .ok (.kset kd kb)
  | _ => .error .reservedCode

/-- An HT1 tail's scope field with F[5:3] zero (R88, R106, R205, R308). -/
def scopeHt1 (f : BitVec 6) : Except DecodeError (BitVec 3) := do
  need ((f.extractLsb' 3 3 : BitVec 3) == 0#3) .unusedField
  let s : BitVec 3 := f.extractLsb' 0 3
  need (Wf.scope s) .badScope
  .ok s

/-- Order and scope of `ld`, `ldu` and `st` (R174). -/
def orderedHt3 (f : BitVec 6) : Except DecodeError (Bool × BitVec 3) := do
  need ((f.extractLsb' 4 2 : BitVec 2) == 0#2) .unusedField
  let s : BitVec 3 := f.extractLsb' 1 3
  need (Wf.ordered (bitFlag f 0) s) .badScope
  .ok (bitFlag f 0, s)

/-- What the spaces and the register pair of a copy or collective must be (R135, R238). -/
def copyCommon (a : BitVec 5) (w : BitVec 2) (f : BitVec 6) (s : BitVec 3) :
    Except DecodeError Unit := do
  unused w
  need (Wf.pair a) .badPair
  need (Wf.space (f.extractLsb' 0 2) && Wf.space (f.extractLsb' 2 2)) .reservedCode
  need (Wf.scope s) .badScope

/-- The instruction of a format H encoding. -/
def decodeH (maj : BitVec 7) (a : BitVec 5) (w : BitVec 2) : Except DecodeError Instr :=
  match maj.toNat with
  | 0x01 => do unused a; unused w; .ok .nop
  | 0x06 => do unused a; unused w; .ok .ret
  | 0x09 => .ok (.hintH a w)
  | 0x0B => do unused a; unused w; .ok .brk
  | 0x0C => do unused a; unused w; .ok .exit
  | 0x12 => do unused a; unused w; .ok .claim
  | 0x1E => do unused a; unused w; .ok .tret
  | 0x6A => do unused a; unused w; .ok .mswap
  | _ => .error .wrongFormat

/-- The instruction of a format HT1 encoding. -/
def decodeHt1 (maj : BitVec 7) (a : BitVec 5) (w : BitVec 2) (b c : BitVec 5) (f : BitVec 6) :
    Except DecodeError Instr :=
  match maj.toNat with
  | 0x05 => do unused a; unused w; unused c; unused f; .ok (.jmp b)
  | 0x07 => do unused c; unused f; .ok (.setvl w a b)
  | 0x09 => .ok (.hintHt1 a w (packHt1 b c f))
  | 0x0A => do unused a; unused w; unused b; unused c; .ok (.trap f)
  | 0x0D => do
      unused a; unused w; unused b; unused c
      need ((f.extractLsb' 4 2 : BitVec 2) == 0#2) .unusedField
      .ok (.bar (f.extractLsb' 0 4))
  | 0x0E => do unused w; unused c; let s ← scopeHt1 f; .ok (.cwait a b s)
  | 0x0F => do unused w; unused c; unused f; .ok (.launch a b)
  | 0x10 => do unused a; unused w; unused c; unused f; .ok (.cancel b)
  | 0x11 => do unused a; unused w; let s ← scopeHt1 f; .ok (.fpub b c s)
  | 0x13 => do unused a; unused w; unused f; .ok (.tsync b c)
  | 0x14 => do unused a; unused w; let s ← scopeHt1 f; .ok (.icinv b c s)
  | 0x15 => do unused a; unused w; let s ← scopeHt1 f; .ok (.cflush b c s)
  | 0x16 => do unused a; unused w; let s ← scopeHt1 f; .ok (.cinv b c s)
  | 0x17 => do
      unused a; unused w
      need (decide (f.toNat < 2)) .reservedCode
      .ok (.pref b c (f.extractLsb' 0 3))
  | 0x18 => do
      unused w; unused b; unused c
      need (decide (f.toNat ≤ 20)) .reservedCode
      .ok (.getsr a f)
  | 0x19 => do
      unused a; unused w; unused c
      need (decide (f.toNat ≤ 20)) .reservedCode
      .ok (.setsr f b)
  | 0x1C => do unused w; unused c; unused f; .ok (.chquery a b)
  | 0x1D => do unused w; unused b; unused c; unused f; .ok (.chsync a)
  | 0x20 => do need (Wf.width1 w) .reservedCode; intOp f w a b c
  | 0x22 => do unused c; unaryOp f w a b
  | 0x26 => do unused w; need (Wf.cond f) .reservedCode; .ok (.cmp f a b c)
  | 0x28 => do need (Wf.width1 w) .reservedCode; floatOp f w a b c
  | 0x2A => do need (Wf.width1 w && Wf.fcond f) .reservedCode; .ok (.fcmp w f a b c)
  | 0x2B => do
      unused w; unused c
      need (Wf.fcvtCodes (f.extractLsb' 3 3) (f.extractLsb' 0 3)) .reservedCode
      .ok (.fcvt (f.extractLsb' 3 3) (f.extractLsb' 0 3) a b)
  | 0x33 => do
      unused a; unused w; unused b; unused c
      need ((f.extractLsb' 5 1 : BitVec 1) == 0#1) .unusedField
      need ((f.extractLsb' 3 2 : BitVec 2) != 0#2) .reservedCode
      need (Wf.scope (f.extractLsb' 0 3)) .badScope
      .ok (.fence (f.extractLsb' 3 2) (f.extractLsb' 0 3))
  | 0x60 => do unused w; maskOp f a b c
  | 0x61 => do unused w; unused c; unused f; need (Wf.maskSrc b) .badMask; .ok (.kpopc a b)
  | 0x62 => do unused w; unused c; unused f; need (Wf.maskSrc b) .badMask; .ok (.kfirst a b)
  | 0x6C => do unused a; unused w; unused f; .ok (.mzero b c)
  | 0x71 => do unused w; unused b; unused c; unused f; .ok (.mchk a)
  | 0x78 => do unused w; unused b; unused c; .ok (.twait a f)
  | 0x79 => do unused w; unused c; unused f; .ok (.twany a b)
  | 0x7A => do unused w; unused c; unused f; .ok (.tfirst a b)
  | _ => .error .wrongFormat

/-- The instruction of a format HT2 encoding. -/
def decodeHt2 (maj : BitVec 7) (a : BitVec 5) (w : BitVec 2) (b c d : BitVec 5) (k : BitVec 4)
    (p h : BitVec 2) (f : BitVec 9) : Except DecodeError Instr :=
  match maj.toNat with
  | 0x08 => do
      unused k; noReplicate p
      need ((f.extractLsb' 3 6 : BitVec 6) == 0#6) .unusedField
      need (Wf.scope (f.extractLsb' 0 3)) .badScope
      .ok (.setvlf w a b c d h (f.extractLsb' 0 3))
  | 0x09 => .ok (.hintHt2 a w (packHt2 b c d k p h f))
  | 0x1A => do
      unused k; noReplicate p
      match w.toNat with
      | 0 => do unused d; unused f; .ok (.sealOpen a b c h)
      | 1 => do
          unused a
          need ((f.extractLsb' 6 3 : BitVec 3) == 0#3) .unusedField
          .ok (.sealAbsorb b c d (f.extractLsb' 0 6) h)
      | 2 => do unused c; unused d; unused f; .ok (.sealClose a b h)
      | _ => .error .reservedCode
  | 0x1B => do
      unused w; unused k; noReplicate p
      need ((f.extractLsb' 1 8 : BitVec 8) == 0#8) .unusedField
      if bitFlag f 0 then .ok (.chlinkAdd a b c d h)
      else do unused d; .ok (.chlinkRm a b c h)
  | 0x25 => do unused w; unused k; noReplicate p; unused f; .ok (.sel a b c d h)
  | 0x29 => do
      need (Wf.width1 w) .reservedCode
      unused k; noReplicate p; unused f
      .ok (.fma w a b c d h)
  | 0x34 => do unused k; noReplicate p; atomicOp f w a b c d h
  | 0x40 => do unused w; unused c; unused d; noReplicate p; unused f; .ok (.vld a b k h)
  | 0x41 => do unused w; unused d; noReplicate p; unused f; .ok (.vlds a b c k h)
  | 0x42 => do
      unused w; unused d
      need ((f.extractLsb' 2 7 : BitVec 7) == 0#7) .unusedField
      .ok (.vldx (f.extractLsb' 0 2) a b c p k h)
  | 0x43 => do unused w; unused c; unused d; noReplicate p; unused f; .ok (.vldff a b k h)
  | 0x44 => do unused w; unused c; unused d; noReplicate p; unused f; .ok (.vst a b k h)
  | 0x45 => do unused w; unused d; noReplicate p; unused f; .ok (.vsts a b c k h)
  | 0x46 => do
      unused w; unused d
      need ((f.extractLsb' 2 7 : BitVec 7) == 0#7) .unusedField
      .ok (.vstx (f.extractLsb' 0 2) a b c p k h)
  | 0x47 => do
      need (Wf.widthAtomic w && decide ((f.extractLsb' 0 4 : BitVec 4).toNat < 8)) .reservedCode
      need (Wf.scope (f.extractLsb' 6 3)) .badScope
      .ok (.vamo (f.extractLsb' 0 4) w (f.extractLsb' 4 2) (f.extractLsb' 6 3) a b c d p k h)
  | 0x48 => do unused w; unused d; vecIntOp f a b c p k h
  | 0x49 => do
      unused w; unused d
      need (Wf.cond f) .reservedCode
      need (Wf.maskDst a) .badMask
      .ok (.vcmp f a b c p k h)
  | 0x4A => do unused w; unused d; unused f; .ok (.vsel a b c p k h)
  | 0x4B => do
      unused w; unused c; unused d; noReplicate p
      need ((f.extractLsb' 1 8 : BitVec 8) == 0#8) .unusedField
      if bitFlag f 0 then .ok (.vmvScalar a b k h) else .ok (.vmv a b k h)
  | 0x4C => do unused w; unused c; unused d; noReplicate p; unused f; .ok (.vid a b k h)
  | 0x4D => do
      unused w; unused d; noReplicate p
      need ((f.extractLsb' 3 6 : BitVec 6) == 0#6) .reservedCode
      .ok (.vred (f.extractLsb' 0 3) a b c k h)
  | 0x4E => do
      unused w; unused d; noReplicate p
      need ((f.extractLsb' 4 5 : BitVec 5) == 0#5) .reservedCode
      .ok (.vscan (f.extractLsb' 0 3) (bitFlag f 3) a b c k h)
  | 0x4F => do unused w; unused d; unused f; .ok (.vperm a b c p k h)
  | 0x50 => do
      unused w; noReplicate p
      need ((f.extractLsb' 1 8 : BitVec 8) == 0#8) .unusedField
      if bitFlag f 0 then .ok (.vslideDown a b c d k h) else .ok (.vslideUp a b c d k h)
  | 0x51 => do unused w; unused c; unused d; noReplicate p; unused f; .ok (.vcompress a b k h)
  | 0x52 => do unused w; unused c; unused d; noReplicate p; unused f; .ok (.vexpand a b k h)
  | 0x53 => do
      unused w; unused d; unused k; noReplicate p
      need ((f.extractLsb' 1 8 : BitVec 8) == 0#8) .unusedField
      .ok (.vext (bitFlag f 0) a b c h)
  | 0x54 => do unused w; unused d; unused k; noReplicate p; unused f; .ok (.vins a b c h)
  | 0x58 => do unused w; unused d; vecFloatOp f a b c p k h
  | 0x59 => do unused w; unused f; .ok (.vfma a b c d p k h)
  | 0x5A => do
      unused w; unused d
      need (Wf.fcond f) .reservedCode
      need (Wf.maskDst a) .badMask
      .ok (.vfcmp f a b c p k h)
  | 0x5B => do
      unused w; unused c; unused d; noReplicate p
      need ((f.extractLsb' 8 1 : BitVec 1) == 0#1) .unusedField
      need (Wf.vfcvtCodes (f.extractLsb' 0 4) (f.extractLsb' 4 4)) .reservedCode
      .ok (.vfcvt (f.extractLsb' 0 4) (f.extractLsb' 4 4) a b k h)
  | 0x5C => do
      unused w; unused d; noReplicate p
      need (decide (f.toNat < 3)) .reservedCode
      .ok (.vfred (f.extractLsb' 0 2) a b c k h)
  | 0x5D => do
      unused w; unused c; unused d; noReplicate p
      need (decide (1 ≤ f.toNat ∧ f.toNat ≤ 8)) .reservedCode
      .ok (.vpack (f.extractLsb' 0 4) a b k h)
  | 0x5E => do unused w; unused d; noReplicate p; unused f; .ok (.vunpack a b c k h)
  | 0x68 => do
      need (decide (w.toNat < 3)) .reservedCode
      unused k; noReplicate p
      need ((f.extractLsb' 1 8 : BitVec 8) == 0#8) .unusedField
      .ok (.mshape w (bitFlag f 0) a b c d h)
  | 0x69 => do
      unused a
      need (decide (w.toNat < 3 ∧ (f.extractLsb' 0 2 : BitVec 2).toNat < 2)) .reservedCode
      unused k; noReplicate p
      need ((f.extractLsb' 3 6 : BitVec 6) == 0#6) .unusedField
      need (bitFlag f 2 || d == 0#5) .unusedField
      .ok (.mldw w (f.extractLsb' 0 2) (bitFlag f 2) b c d h)
  | 0x6B => do
      unused w; unused d; unused k; noReplicate p
      need ((f.extractLsb' 1 8 : BitVec 8) == 0#8) .unusedField
      .ok (.mmac (bitFlag f 0) a b c h)
  | 0x6D => do
      need (decide (w.toNat < 3)) .reservedCode
      unused d; unused k; noReplicate p; unused f
      .ok (.mld w a b c h)
  | 0x6E => do
      unused w; unused d; unused k; noReplicate p
      need (decide (f.toNat < 5)) .reservedCode
      .ok (.mst (f.extractLsb' 0 3) a b c h)
  | 0x6F => do unused w; unused c; unused d; noReplicate p; unused f; .ok (.mrd a b k h)
  | 0x70 => do unused a; unused w; unused d; unused f; .ok (.mwr b c p k h)
  | 0x77 => do
      unused a
      need (Wf.scope (f.extractLsb' 6 3)) .badScope
      .ok (.rred w (f.extractLsb' 6 3) b c d (f.extractLsb' 0 6) p k h)
  | _ => .error .wrongFormat

/-- The instruction of a format HT3 encoding. -/
def decodeHt3 (maj : BitVec 7) (a : BitVec 5) (w : BitVec 2) (b c : BitVec 5) (f : BitVec 6)
    (imm : BitVec 32) : Except DecodeError Instr :=
  match maj.toNat with
  | 0x02 => do unused a; unused w; unused b; unused c; unused f; .ok (.b imm)
  | 0x03 => do
      need (Wf.cond a) .reservedCode
      unused w; unused f
      .ok (.bCond a b c imm)
  | 0x04 => do unused a; unused w; unused b; unused c; unused f; .ok (.call imm)
  | 0x09 => .ok (.hintHt3 a w (packHt3 b c f imm))
  | 0x21 => do need (Wf.width1 w) .reservedCode; unused c; intOpImm f w a b imm
  | 0x23 => do
      unused b; unused c; unused f
      match w.toNat with
      | 0 => .ok (.movi a imm)
      | 1 => .ok (.moviHi a imm)
      | _ => .error .reservedCode
  | 0x24 => do unused w; unused b; unused c; unused f; .ok (.addpc a imm)
  | 0x30 => do unused c; let o ← orderedHt3 f; .ok (.ld w o.1 o.2 a b imm)
  | 0x31 => do unused c; let o ← orderedHt3 f; .ok (.ldu w o.1 o.2 a b imm)
  | 0x32 => do unused c; let o ← orderedHt3 f; .ok (.st w o.1 o.2 a b imm)
  | 0x74 => do
      copyCommon a w f (imm.extractLsb' 12 3)
      need ((f.extractLsb' 4 2 : BitVec 2) == 0#2) .unusedField
      need ((imm.extractLsb' 15 17 : BitVec 17) == 0#17) .unusedField
      .ok (.cpy (imm.extractLsb' 12 3) (f.extractLsb' 0 2) (f.extractLsb' 2 2) a b c
        (imm.extractLsb' 0 6) (imm.extractLsb' 6 6))
  | 0x75 => do
      copyCommon a w f (imm.extractLsb' 12 3)
      need ((imm.extractLsb' 15 3 : BitVec 3) != 0#3) .reservedCode
      need ((imm.extractLsb' 18 14 : BitVec 14) == 0#14) .unusedField
      .ok (.cpyd (f.extractLsb' 4 2) (imm.extractLsb' 15 3) (imm.extractLsb' 12 3)
        (f.extractLsb' 0 2) (f.extractLsb' 2 2) a b c (imm.extractLsb' 0 6) (imm.extractLsb' 6 6))
  | 0x76 => do
      copyCommon a w f (imm.extractLsb' 12 3)
      need ((f.extractLsb' 4 2 : BitVec 2) == 0#2) .unusedField
      need (decide ((imm.extractLsb' 15 3 : BitVec 3).toNat < 3 ∧
        (imm.extractLsb' 18 4 : BitVec 4).toNat < 6)) .reservedCode
      need ((imm.extractLsb' 22 10 : BitVec 10) == 0#10) .unusedField
      .ok (.coll (imm.extractLsb' 15 3) (imm.extractLsb' 18 4) (imm.extractLsb' 12 3)
        (f.extractLsb' 0 2) (f.extractLsb' 2 2) a b c (imm.extractLsb' 0 6) (imm.extractLsb' 6 6))
  | _ => .error .wrongFormat

/-- The MAJ values that R43 lists as unassigned, and 0. -/
def majUnassigned (maj : BitVec 7) : Bool :=
  let m := maj.toNat
  m == 0 || m == 0x1F || m == 0x27 || (0x2C ≤ m && m ≤ 0x2F) || (0x35 ≤ m && m ≤ 0x3F) ||
  (0x55 ≤ m && m ≤ 0x57) || m == 0x5F || (0x63 ≤ m && m ≤ 0x67) || m == 0x72 || m == 0x73 ||
  0x7B ≤ m

/-- The instruction that split fields encode, or the name of the refusal (R37). -/
def decodeEnc : Enc → Except DecodeError Instr
  | .h maj a w => do need (!majUnassigned maj) .unassigned; decodeH maj a w
  | .ht1 maj a w b c f => do need (!majUnassigned maj) .unassigned; decodeHt1 maj a w b c f
  | .ht2 maj a w b c d k p h f => do
      need (!majUnassigned maj) .unassigned; decodeHt2 maj a w b c d k p h f
  | .ht3 maj a w b c f imm => do need (!majUnassigned maj) .unassigned; decodeHt3 maj a w b c f imm

/-- The decoder: a head and its tail's value (R33 to R37). -/
def decode (head : BitVec 16) (tail : BitVec 48) : Except DecodeError Instr :=
  decodeEnc (splitEnc head tail)

/-- HT1 with the fields W, A, B, C, F of an entry. -/
def encHt1 (maj : BitVec 7) (a : BitVec 5) (w : BitVec 2) (b c : BitVec 5) (f : BitVec 6) :
    Option Enc := some (.ht1 maj a w b c f)

/-- HT2 with every field. -/
def encHt2 (maj : BitVec 7) (a : BitVec 5) (w : BitVec 2) (b c d : BitVec 5) (k : BitVec 4)
    (p h : BitVec 2) (f : BitVec 9) : Option Enc := some (.ht2 maj a w b c d k p h f)

/-- HT3 with every field. -/
def encHt3 (maj : BitVec 7) (a : BitVec 5) (w : BitVec 2) (b c : BitVec 5) (f : BitVec 6)
    (imm : BitVec 32) : Option Enc := some (.ht3 maj a w b c f imm)

/-- The format H encoding of a MAJ with A and W zero. -/
def encH (maj : BitVec 7) : Option Enc := some (.h maj 0#5 0#2)

/-- F of a scalar access: order and scope (R174). -/
def orderedField (o : Bool) (s : BitVec 3) : BitVec 6 := ((0#2 ++ s) ++ flagBit o).cast rfl

/-- F of an atomic: scope, order, operation (R299). -/
def atomicField (op : BitVec 4) (o : BitVec 2) (s : BitVec 3) : BitVec 9 := ((s ++ o) ++ op).cast rfl

/-- IMM of a copy or collective: the tags, the scope and what lies above (R135, R238). -/
def copyImm (above : BitVec 17) (s : BitVec 3) (atag rtag : BitVec 6) : BitVec 32 :=
  (((above ++ s) ++ atag) ++ rtag).cast rfl

/-- F of a copy or collective: what lies above, the source space, the destination space (R135). -/
def copySpaces (above dsp ssp : BitVec 2) : BitVec 6 := ((above ++ ssp) ++ dsp).cast rfl

/-- An instruction's fields in its format (R33, R34, R43 to R46); nothing for a package event and
for the event that stands for an illegal encoding. -/
def encodeEnc : Instr → Option Enc
  | .nop => encH 0x01#7
  | .hintH a w => some (.h 0x09#7 a w)
  | .hintHt1 a w t =>
      encHt1 0x09#7 a w (t.extractLsb' 11 5) (t.extractLsb' 6 5) (t.extractLsb' 0 6)
  | .hintHt2 a w t =>
      encHt2 0x09#7 a w (t.extractLsb' 27 5) (t.extractLsb' 22 5) (t.extractLsb' 17 5)
        (t.extractLsb' 13 4) (t.extractLsb' 11 2) (t.extractLsb' 9 2) (t.extractLsb' 0 9)
  | .hintHt3 a w t =>
      encHt3 0x09#7 a w (t.extractLsb' 43 5) (t.extractLsb' 38 5) (t.extractLsb' 32 6)
        (t.extractLsb' 0 32)
  | .b imm => encHt3 0x02#7 0#5 0#2 0#5 0#5 0#6 imm
  | .bCond cond rb rc imm => encHt3 0x03#7 cond 0#2 rb rc 0#6 imm
  | .call imm => encHt3 0x04#7 0#5 0#2 0#5 0#5 0#6 imm
  | .jmp rb => encHt1 0x05#7 0#5 0#2 rb 0#5 0#6
  | .ret => encH 0x06#7
  | .setvl sew rd rb => encHt1 0x07#7 rd sew rb 0#5 0#6
  | .setvlf sew rd rb rc rp h s => encHt2 0x08#7 rd sew rb rc rp 0#4 0#2 h (s.setWidth 9)
  | .trap n => encHt1 0x0A#7 0#5 0#2 0#5 0#5 n
  | .brk => encH 0x0B#7
  | .exit => encH 0x0C#7
  | .bar n => encHt1 0x0D#7 0#5 0#2 0#5 0#5 (n.setWidth 6)
  | .cwait rd rb s => encHt1 0x0E#7 rd 0#2 rb 0#5 (s.setWidth 6)
  | .launch rd rb => encHt1 0x0F#7 rd 0#2 rb 0#5 0#6
  | .cancel rb => encHt1 0x10#7 0#5 0#2 rb 0#5 0#6
  | .fpub rb rc s => encHt1 0x11#7 0#5 0#2 rb rc (s.setWidth 6)
  | .claim => encH 0x12#7
  | .tsync rb rc => encHt1 0x13#7 0#5 0#2 rb rc 0#6
  | .icinv rb rc s => encHt1 0x14#7 0#5 0#2 rb rc (s.setWidth 6)
  | .cflush rb rc s => encHt1 0x15#7 0#5 0#2 rb rc (s.setWidth 6)
  | .cinv rb rc s => encHt1 0x16#7 0#5 0#2 rb rc (s.setWidth 6)
  | .pref rb rc s => encHt1 0x17#7 0#5 0#2 rb rc (s.setWidth 6)
  | .getsr rd n => encHt1 0x18#7 rd 0#2 0#5 0#5 n
  | .setsr n rb => encHt1 0x19#7 0#5 0#2 rb 0#5 n
  | .sealOpen rd rb rc h => encHt2 0x1A#7 rd 0#2 rb rc 0#5 0#4 0#2 h 0#9
  | .sealAbsorb rb rc rl tag h => encHt2 0x1A#7 0#5 1#2 rb rc rl 0#4 0#2 h (tag.setWidth 9)
  | .sealClose rd rb h => encHt2 0x1A#7 rd 2#2 rb 0#5 0#5 0#4 0#2 h 0#9
  | .chlinkRm rd rb rc h => encHt2 0x1B#7 rd 0#2 rb rc 0#5 0#4 0#2 h 0#9
  | .chlinkAdd rd rb rc rp h => encHt2 0x1B#7 rd 0#2 rb rc rp 0#4 0#2 h 1#9
  | .chquery rd rb => encHt1 0x1C#7 rd 0#2 rb 0#5 0#6
  | .chsync rd => encHt1 0x1D#7 rd 0#2 0#5 0#5 0#6
  | .tret => encH 0x1E#7
  | .add w rd rb rc => encHt1 0x20#7 rd w rb rc 0#6
  | .sub w rd rb rc => encHt1 0x20#7 rd w rb rc 1#6
  | .mul w rd rb rc => encHt1 0x20#7 rd w rb rc 2#6
  | .mulh w rd rb rc => encHt1 0x20#7 rd w rb rc 3#6
  | .mulhu w rd rb rc => encHt1 0x20#7 rd w rb rc 4#6
  | .div w rd rb rc => encHt1 0x20#7 rd w rb rc 5#6
  | .divu w rd rb rc => encHt1 0x20#7 rd w rb rc 6#6
  | .rem w rd rb rc => encHt1 0x20#7 rd w rb rc 7#6
  | .remu w rd rb rc => encHt1 0x20#7 rd w rb rc 8#6
  | .and w rd rb rc => encHt1 0x20#7 rd w rb rc 9#6
  | .andn w rd rb rc => encHt1 0x20#7 rd w rb rc 10#6
  | .or w rd rb rc => encHt1 0x20#7 rd w rb rc 11#6
  | .xor w rd rb rc => encHt1 0x20#7 rd w rb rc 12#6
  | .shl w rd rb rc => encHt1 0x20#7 rd w rb rc 13#6
  | .shr w rd rb rc => encHt1 0x20#7 rd w rb rc 14#6
  | .sra w rd rb rc => encHt1 0x20#7 rd w rb rc 15#6
  | .min w rd rb rc => encHt1 0x20#7 rd w rb rc 16#6
  | .max w rd rb rc => encHt1 0x20#7 rd w rb rc 17#6
  | .minu w rd rb rc => encHt1 0x20#7 rd w rb rc 18#6
  | .maxu w rd rb rc => encHt1 0x20#7 rd w rb rc 19#6
  | .addImm w rd rb imm => encHt3 0x21#7 rd w rb 0#5 0#6 imm
  | .subImm w rd rb imm => encHt3 0x21#7 rd w rb 0#5 1#6 imm
  | .mulImm w rd rb imm => encHt3 0x21#7 rd w rb 0#5 2#6 imm
  | .mulhImm w rd rb imm => encHt3 0x21#7 rd w rb 0#5 3#6 imm
  | .mulhuImm w rd rb imm => encHt3 0x21#7 rd w rb 0#5 4#6 imm
  | .divImm w rd rb imm => encHt3 0x21#7 rd w rb 0#5 5#6 imm
  | .divuImm w rd rb imm => encHt3 0x21#7 rd w rb 0#5 6#6 imm
  | .remImm w rd rb imm => encHt3 0x21#7 rd w rb 0#5 7#6 imm
  | .remuImm w rd rb imm => encHt3 0x21#7 rd w rb 0#5 8#6 imm
  | .andImm w rd rb imm => encHt3 0x21#7 rd w rb 0#5 9#6 imm
  | .andnImm w rd rb imm => encHt3 0x21#7 rd w rb 0#5 10#6 imm
  | .orImm w rd rb imm => encHt3 0x21#7 rd w rb 0#5 11#6 imm
  | .xorImm w rd rb imm => encHt3 0x21#7 rd w rb 0#5 12#6 imm
  | .shlImm w rd rb imm => encHt3 0x21#7 rd w rb 0#5 13#6 imm
  | .shrImm w rd rb imm => encHt3 0x21#7 rd w rb 0#5 14#6 imm
  | .sraImm w rd rb imm => encHt3 0x21#7 rd w rb 0#5 15#6 imm
  | .minImm w rd rb imm => encHt3 0x21#7 rd w rb 0#5 16#6 imm
  | .maxImm w rd rb imm => encHt3 0x21#7 rd w rb 0#5 17#6 imm
  | .minuImm w rd rb imm => encHt3 0x21#7 rd w rb 0#5 18#6 imm
  | .maxuImm w rd rb imm => encHt3 0x21#7 rd w rb 0#5 19#6 imm
  | .clz w rd rb => encHt1 0x22#7 rd w rb 0#5 0#6
  | .ctz w rd rb => encHt1 0x22#7 rd w rb 0#5 1#6
  | .popc w rd rb => encHt1 0x22#7 rd w rb 0#5 2#6
  | .sext w rd rb => encHt1 0x22#7 rd w rb 0#5 3#6
  | .zext w rd rb => encHt1 0x22#7 rd w rb 0#5 4#6
  | .mov rd rb => encHt1 0x22#7 rd 3#2 rb 0#5 5#6
  | .movi rd imm => encHt3 0x23#7 rd 0#2 0#5 0#5 0#6 imm
  | .moviHi rd imm => encHt3 0x23#7 rd 1#2 0#5 0#5 0#6 imm
  | .addpc rd imm => encHt3 0x24#7 rd 0#2 0#5 0#5 0#6 imm
  | .sel rd rb rc rs h => encHt2 0x25#7 rd 0#2 rb rc rs 0#4 0#2 h 0#9
  | .cmp cond rd rb rc => encHt1 0x26#7 rd 0#2 rb rc cond
  | .fadd w rd rb rc => encHt1 0x28#7 rd w rb rc 0#6
  | .fsub w rd rb rc => encHt1 0x28#7 rd w rb rc 1#6
  | .fmul w rd rb rc => encHt1 0x28#7 rd w rb rc 2#6
  | .fdiv w rd rb rc => encHt1 0x28#7 rd w rb rc 3#6
  | .fmin w rd rb rc => encHt1 0x28#7 rd w rb rc 5#6
  | .fmax w rd rb rc => encHt1 0x28#7 rd w rb rc 6#6
  | .fsqrt w rd rb => encHt1 0x28#7 rd w rb 0#5 4#6
  | .fma w rd rb rc ra h => encHt2 0x29#7 rd w rb rc ra 0#4 0#2 h 0#9
  | .fcmp w cond rd rb rc => encHt1 0x2A#7 rd w rb rc cond
  | .fcvt dst src rd rb => encHt1 0x2B#7 rd 0#2 rb 0#5 ((dst ++ src).cast rfl)
  | .ld w o s rd rb imm => encHt3 0x30#7 rd w rb 0#5 (orderedField o s) imm
  | .ldu w o s rd rb imm => encHt3 0x31#7 rd w rb 0#5 (orderedField o s) imm
  | .st w o s rd rb imm => encHt3 0x32#7 rd w rb 0#5 (orderedField o s) imm
  | .fence o s => encHt1 0x33#7 0#5 0#2 0#5 0#5 (((0#1 ++ o) ++ s).cast rfl)
  | .aadd w o s rd rb rc h => encHt2 0x34#7 rd w rb rc 0#5 0#4 0#2 h (atomicField 0#4 o s)
  | .aand w o s rd rb rc h => encHt2 0x34#7 rd w rb rc 0#5 0#4 0#2 h (atomicField 1#4 o s)
  | .aor w o s rd rb rc h => encHt2 0x34#7 rd w rb rc 0#5 0#4 0#2 h (atomicField 2#4 o s)
  | .axor w o s rd rb rc h => encHt2 0x34#7 rd w rb rc 0#5 0#4 0#2 h (atomicField 3#4 o s)
  | .amin w o s rd rb rc h => encHt2 0x34#7 rd w rb rc 0#5 0#4 0#2 h (atomicField 4#4 o s)
  | .amax w o s rd rb rc h => encHt2 0x34#7 rd w rb rc 0#5 0#4 0#2 h (atomicField 5#4 o s)
  | .aswap w o s rd rb rc h => encHt2 0x34#7 rd w rb rc 0#5 0#4 0#2 h (atomicField 6#4 o s)
  | .acas w o s rd rb rc rx h => encHt2 0x34#7 rd w rb rc rx 0#4 0#2 h (atomicField 7#4 o s)
  | .vld vd rb k h => encHt2 0x40#7 vd 0#2 rb 0#5 0#5 k 0#2 h 0#9
  | .vlds vd rb rc k h => encHt2 0x41#7 vd 0#2 rb rc 0#5 k 0#2 h 0#9
  | .vldx iw vd rb vc p k h => encHt2 0x42#7 vd 0#2 rb vc 0#5 k p h (iw.setWidth 9)
  | .vldff vd rb k h => encHt2 0x43#7 vd 0#2 rb 0#5 0#5 k 0#2 h 0#9
  | .vst vs rb k h => encHt2 0x44#7 vs 0#2 rb 0#5 0#5 k 0#2 h 0#9
  | .vsts vs rb rc k h => encHt2 0x45#7 vs 0#2 rb rc 0#5 k 0#2 h 0#9
  | .vstx iw vs rb vc p k h => encHt2 0x46#7 vs 0#2 rb vc 0#5 k p h (iw.setWidth 9)
  | .vamo op w o s vd rb vc vi p k h => encHt2 0x47#7 vd w rb vc vi k p h (atomicField op o s)
  | .vadd vd vb vc p k h => encHt2 0x48#7 vd 0#2 vb vc 0#5 k p h 0#9
  | .vsub vd vb vc p k h => encHt2 0x48#7 vd 0#2 vb vc 0#5 k p h 1#9
  | .vmul vd vb vc p k h => encHt2 0x48#7 vd 0#2 vb vc 0#5 k p h 2#9
  | .vand vd vb vc p k h => encHt2 0x48#7 vd 0#2 vb vc 0#5 k p h 6#9
  | .vor vd vb vc p k h => encHt2 0x48#7 vd 0#2 vb vc 0#5 k p h 7#9
  | .vxor vd vb vc p k h => encHt2 0x48#7 vd 0#2 vb vc 0#5 k p h 8#9
  | .vshl vd vb vc p k h => encHt2 0x48#7 vd 0#2 vb vc 0#5 k p h 9#9
  | .vshr vd vb vc p k h => encHt2 0x48#7 vd 0#2 vb vc 0#5 k p h 10#9
  | .vsra vd vb vc p k h => encHt2 0x48#7 vd 0#2 vb vc 0#5 k p h 11#9
  | .vmulh u vd vb vc p k h =>
      encHt2 0x48#7 vd 0#2 vb vc 0#5 k p h (((0#4 ++ flagBit u) ++ 3#4).cast rfl)
  | .vmin u vd vb vc p k h =>
      encHt2 0x48#7 vd 0#2 vb vc 0#5 k p h (((0#4 ++ flagBit u) ++ 4#4).cast rfl)
  | .vmax u vd vb vc p k h =>
      encHt2 0x48#7 vd 0#2 vb vc 0#5 k p h (((0#4 ++ flagBit u) ++ 5#4).cast rfl)
  | .vcmp cond kd vb vc p k h => encHt2 0x49#7 kd 0#2 vb vc 0#5 k p h cond
  | .vsel vd vb vc p k h => encHt2 0x4A#7 vd 0#2 vb vc 0#5 k p h 0#9
  | .vmv vd vb k h => encHt2 0x4B#7 vd 0#2 vb 0#5 0#5 k 0#2 h 0#9
  | .vmvScalar vd rb k h => encHt2 0x4B#7 vd 0#2 rb 0#5 0#5 k 0#2 h 1#9
  | .vid vd rb k h => encHt2 0x4C#7 vd 0#2 rb 0#5 0#5 k 0#2 h 0#9
  | .vred op rd vb rc k h => encHt2 0x4D#7 rd 0#2 vb rc 0#5 k 0#2 h (op.setWidth 9)
  | .vscan op x vd vb rc k h =>
      encHt2 0x4E#7 vd 0#2 vb rc 0#5 k 0#2 h (((0#5 ++ flagBit x) ++ op).cast rfl)
  | .vperm vd vb vc p k h => encHt2 0x4F#7 vd 0#2 vb vc 0#5 k p h 0#9
  | .vslideUp vd vb rc rf k h => encHt2 0x50#7 vd 0#2 vb rc rf k 0#2 h 0#9
  | .vslideDown vd vb rc rf k h => encHt2 0x50#7 vd 0#2 vb rc rf k 0#2 h 1#9
  | .vcompress vd vb k h => encHt2 0x51#7 vd 0#2 vb 0#5 0#5 k 0#2 h 0#9
  | .vexpand vd vb k h => encHt2 0x52#7 vd 0#2 vb 0#5 0#5 k 0#2 h 0#9
  | .vext u rd vb rc h => encHt2 0x53#7 rd 0#2 vb rc 0#5 0#4 0#2 h ((flagBit u).setWidth 9)
  | .vins vd rb rc h => encHt2 0x54#7 vd 0#2 rb rc 0#5 0#4 0#2 h 0#9
  | .vfadd vd vb vc p k h => encHt2 0x58#7 vd 0#2 vb vc 0#5 k p h 0#9
  | .vfsub vd vb vc p k h => encHt2 0x58#7 vd 0#2 vb vc 0#5 k p h 1#9
  | .vfmul vd vb vc p k h => encHt2 0x58#7 vd 0#2 vb vc 0#5 k p h 2#9
  | .vfdiv vd vb vc p k h => encHt2 0x58#7 vd 0#2 vb vc 0#5 k p h 3#9
  | .vfmin vd vb vc p k h => encHt2 0x58#7 vd 0#2 vb vc 0#5 k p h 8#9
  | .vfmax vd vb vc p k h => encHt2 0x58#7 vd 0#2 vb vc 0#5 k p h 9#9
  | .vfsqrt vd vb k h => encHt2 0x58#7 vd 0#2 vb 0#5 0#5 k 0#2 h 4#9
  | .vfrec vd vb k h => encHt2 0x58#7 vd 0#2 vb 0#5 0#5 k 0#2 h 5#9
  | .vfrsqrt vd vb k h => encHt2 0x58#7 vd 0#2 vb 0#5 0#5 k 0#2 h 6#9
  | .vfexp2 vd vb k h => encHt2 0x58#7 vd 0#2 vb 0#5 0#5 k 0#2 h 7#9
  | .vfma vd vb vc va p k h => encHt2 0x59#7 vd 0#2 vb vc va k p h 0#9
  | .vfcmp cond kd vb vc p k h => encHt2 0x5A#7 kd 0#2 vb vc 0#5 k p h cond
  | .vfcvt dst src vd vb k h =>
      encHt2 0x5B#7 vd 0#2 vb 0#5 0#5 k 0#2 h (((0#1 ++ src) ++ dst).cast rfl)
  | .vfred op rd vb rc k h => encHt2 0x5C#7 rd 0#2 vb rc 0#5 k 0#2 h (op.setWidth 9)
  | .vpack fmt vd vb k h => encHt2 0x5D#7 vd 0#2 vb 0#5 0#5 k 0#2 h (fmt.setWidth 9)
  | .vunpack vd vb rc k h => encHt2 0x5E#7 vd 0#2 vb rc 0#5 k 0#2 h 0#9
  | .kand kd kb kc => encHt1 0x60#7 kd 0#2 kb kc 0#6
  | .kor kd kb kc => encHt1 0x60#7 kd 0#2 kb kc 1#6
  | .kxor kd kb kc => encHt1 0x60#7 kd 0#2 kb kc 2#6
  | .knot kd kb => encHt1 0x60#7 kd 0#2 kb 0#5 3#6
  | .kmv kd kb => encHt1 0x60#7 kd 0#2 kb 0#5 4#6
  | .kset kd rb => encHt1 0x60#7 kd 0#2 rb 0#5 5#6
  | .kpopc rd kb => encHt1 0x61#7 rd 0#2 kb 0#5 0#6
  | .kfirst rd kb => encHt1 0x62#7 rd 0#2 kb 0#5 0#6
  | .mshape mode sparse rd rb rc rk h =>
      encHt2 0x68#7 rd mode rb rc rk 0#4 0#2 h ((flagBit sparse).setWidth 9)
  | .mldw cls space sparse rb rc vm h =>
      encHt2 0x69#7 0#5 cls rb rc vm 0#4 0#2 h (((0#6 ++ flagBit sparse) ++ space).cast rfl)
  | .mswap => encH 0x6A#7
  | .mmac zero ra rb rc h => encHt2 0x6B#7 ra 0#2 rb rc 0#5 0#4 0#2 h ((flagBit zero).setWidth 9)
  | .mzero rb rc => encHt1 0x6C#7 0#5 0#2 rb rc 0#6
  | .mld fmt ra rb rc h => encHt2 0x6D#7 ra fmt rb rc 0#5 0#4 0#2 h 0#9
  | .mst fmt ra rb rc h => encHt2 0x6E#7 ra 0#2 rb rc 0#5 0#4 0#2 h (fmt.setWidth 9)
  | .mrd vd rb k h => encHt2 0x6F#7 vd 0#2 rb 0#5 0#5 k 0#2 h 0#9
  | .mwr rb vc p k h => encHt2 0x70#7 0#5 0#2 rb vc 0#5 k p h 0#9
  | .mchk rd => encHt1 0x71#7 rd 0#2 0#5 0#5 0#6
  | .cpy s dsp ssp ra rb rc rtag atag =>
      encHt3 0x74#7 ra 0#2 rb rc (copySpaces 0#2 dsp ssp) (copyImm 0#17 s atag rtag)
  | .cpyd width fields s dsp ssp ra rb rc rtag atag =>
      encHt3 0x75#7 ra 0#2 rb rc (copySpaces width dsp ssp) (copyImm (fields.setWidth 17) s atag rtag)
  | .coll op fmt s dsp ssp ra rb rc rtag atag =>
      encHt3 0x76#7 ra 0#2 rb rc (copySpaces 0#2 dsp ssp) (copyImm ((fmt ++ op).setWidth 17) s atag rtag)
  | .rred fmt s rb vc rd tag p k h => encHt2 0x77#7 0#5 fmt rb vc rd k p h ((s ++ tag).cast rfl)
  | .twait rd tag => encHt1 0x78#7 rd 0#2 0#5 0#5 tag
  | .twany rd rb => encHt1 0x79#7 rd 0#2 rb 0#5 0#6
  | .tfirst rd rb => encHt1 0x7A#7 rd 0#2 rb 0#5 0#6
  | .strandStop _ _ | .strandStopComplete _ | .strandResume _ _ | .strandStep _ _
  | .strandKill _ _ | .strandKillComplete _ | .controlFieldStore _ _ _ | .frameKindStore _ _ _
  | .activate _ _ | .teardown _ _ | .scrubComplete _ | .measnow _ _ | .counterCancel _ _ _
  | .cancelComplete _ _ | .queueEnable _ _ | .queueDisable _ _ | .queueVerdict _ _ _
  | .queueWake _ | .cmdJob _ | .cmdPhase _ | .cmdGraph _ | .cmdWait _ | .cmdSignal _
  | .completionWordWrite _ _ | .queueResourceFree _ | .dispatchCreate | .readyEntryAge _
  | .readyEntryBlocking _ | .strandWaitAge _ | .strandResident _ | .preempt _ _
  | .firmwareWatchdog _ | .modesStore _ _ | .fqReplay _ _ _ | .fqDeny _ _ _ | .fqTsyncAll _ _
  | .fqTsyncPage _ _ _ | .heldFaultWrite _ | .copyReleaseComplete _ | .copyArrivalComplete _
  | .mldwLoadDone _ | .matrixOpComplete _ | .matrixErrorStop _ _ | .collResultDeliver _ _
  | .collGroupLost _ | .rredElementAdd _ _ | .sealAbsorbComplete _ | .chainStart _ _
  | .chainRelease _ _ | .linkopRemove _ _ _ | .linkopAppend _ _ _ _ | .chainAppendJoin _
  | .vineWriteAccept _ | .dieFence _ _ _ | .dieRestore _ _ | .islandStore _ _ _ _ | .keyLoad _ _
  | .keyZeroise _ _ | .keyZeroiseComplete _ | .winStore _ _ _ | .windowCompletion _ _
  | .hostBar0Access _ _ _ | .hostBar2Access _ _ _ | .hostAtomicop | .packageReset | .bootPhase _
  | .hotReset | .busMasterDisable | .msixPendingSend | .peerUp _ _ | .peerStateGone _
  | .remoteAccessServe _ _ | .powerThrottle _ _ _ | .thermalThrottle _ _ | .thermalClamp _
  | .thermalPowerDown | .limitClear _ _ | .firmwareStage _ | .pldmSensorRead _
  | .illegalEncoding | .completionTimeout _ | .remoteStoreAck _ _ | .trellisLinkFail _
  | .pcieLinkUp _ | .busMasterEnableSet | .atomicopRequesterEnable => none

/-- The head and the tail's value of an instruction; nothing for a package event. -/
def encode (i : Instr) : Option (BitVec 16 × BitVec 48) := (encodeEnc i).map joinEnc

/-! The walk of a code line (R32, R35, R36). A line is 512 bits, byte `n` at bits 8n+7 to 8n. -/

/-- Head slot `i` of a line (R32). -/
def lineHalf (line : BitVec 512) (i : Nat) : BitVec 16 := line.extractLsb' (16 * i) 16

/-- The value of a tail of `len` bytes whose lowest byte is byte `at` of the line (R35). -/
def lineTail (line : BitVec 512) (lo len : Nat) : BitVec 48 :=
  (line.extractLsb' (8 * lo) (8 * len)).setWidth 48

/-- Whether bytes `lo` to `e` - 1 of a line are all zero (R35). -/
def paddingZero (line : BitVec 512) (lo e : Nat) : Bool :=
  line.extractLsb' (8 * lo) (8 * (e - lo)) == 0#(8 * (e - lo))

/-- What the walk of R35 finds at a slot. -/
inductive Slot where
  /-- A head slot: its head, its tail's value, and the lowest byte a tail has taken with it. -/
  | head (head : BitVec 16) (tail : BitVec 48) (e : Nat)
  /-- The end marker; whether the padding after it is zero. -/
  | endMarker (clean : Bool)
  /-- A head that overlaps its own or an earlier tail. -/
  | overlap
  /-- The walk does not reach the slot. -/
  | notHead
  deriving DecidableEq, Repr

/-- The walk of R35 from slot `i`, whose tails so far end at byte `e`, to slot `target`. -/
def walkFrom (line : BitVec 512) (target : Nat) : (fuel : Nat) → (i e : Nat) → Slot
  | 0, _, _ => .notHead
  | fuel + 1, i, e =>
    if 2 * i + 2 > e then .notHead
    else
      let h := lineHalf line i
      if h = 0#16 then
        if i = target then .endMarker (paddingZero line (2 * i + 2) e) else .notHead
      else if 2 * i + 2 + tailLen h > e then
        if i = target then .overlap else .notHead
      else if i = target then .head h (lineTail line (e - tailLen h) (tailLen h)) (e - tailLen h)
      else walkFrom line target fuel (i + 1) (e - tailLen h)

/-- What the walk of R35 finds at a slot of a line. -/
def slotAt (line : BitVec 512) (target : Nat) : Slot := walkFrom line target 32 0 64

/-- Whether the walk continues past slot `i`, whose tails end at byte `e`, so that slot `i` + 1 is
the next head; a head that overlaps and an end marker whose padding is not zero are reached there
(R35, R36). -/
def continuesPast (line : BitVec 512) (i e : Nat) : Bool :=
  !decide (2 * (i + 1) + 2 > e) &&
  !(lineHalf line (i + 1) == 0#16 && paddingZero line (2 * (i + 1) + 2) e)

/-- The address of the instruction after the one in slot `i` of the line at `base` (R36). -/
def nextAddr (line : BitVec 512) (base : Word) (i e : Nat) : Word :=
  if continuesPast line i e then base + BitVec.ofNat 64 (2 * (i + 1)) else base + 64#64

/-- A line that holds one instruction at slot 0, its tail at the end, the rest zero (R32, R50). -/
def lineOf (head : BitVec 16) (tail : BitVec 48) : BitVec 512 :=
  head.setWidth 512 ||| (tail.setWidth 512 <<< (512 - 8 * tailLen head))

/-- Heads with their tails packed into lines in order: each at the next free slot when R35's test passes
for it, else at slot 0 of a new line; an end marker and the padding are zero (R50). -/
def packFrom (line : BitVec 512) (i e : Nat) : List (BitVec 16 × BitVec 48) → List (BitVec 512)
  | [] => if i = 0 then [] else [line]
  | (h, t) :: r =>
    let n := tailLen h
    if 2 * i + 2 + n ≤ e then
      packFrom (line ||| h.setWidth 512 <<< (16 * i) ||| t.setWidth 512 <<< (8 * (e - n))) (i + 1) (e - n) r
    else line :: packFrom (lineOf h t) 1 (64 - n) r

/-- The code lines of instructions in program order, when each has an encoding (R50). -/
def packLines (l : List Instr) : Option (List (BitVec 512)) :=
  (l.mapM encode).map (packFrom 0#512 0 64)

/-- What fetching a slot of a line answers: the instruction and the address after it, or the reason
there is none. A slot that is no head slot, an end marker among them, is refused (R37, R39). -/
inductive Fetched where
  | instr (i : Instr) (next : Word)
  /-- A head slot whose encoding is refused, a head that overlaps, padding that is not zero. -/
  | illegal
  /-- Not a head slot. -/
  | notHead
  deriving DecidableEq, Repr

/-- Fetch and decode the instruction at byte `offset` of the line at `base` (R35 to R39). -/
def fetchFrom (line : BitVec 512) (base : Word) (offset : Nat) : Fetched :=
  if offset % 2 ≠ 0 then .notHead
  else
    match slotAt line (offset / 2) with
    | .head h t e =>
      match decode h t with
      | .ok i => .instr i (nextAddr line base (offset / 2) e)
      | .error _ => .illegal
    | .endMarker clean => if clean then .notHead else .illegal
    | .overlap => .illegal
    | .notHead => .notHead

/-- The head and tail of a word of spec/opcode_table.json: a row of `nbits` bits has its head in the
16 high bits and its tail below (log 11); nothing when the bits are no head, or more tail than its T
gives. -/
def tableWord (nbits w : Nat) : Option (BitVec 16 × BitVec 48) :=
  if nbits < 16 then none
  else
    let head := BitVec.ofNat 16 (w / 2 ^ (nbits - 16))
    let tail := w % 2 ^ (nbits - 16)
    if 2 ^ (8 * tailLen head) ≤ tail then none else some (head, BitVec.ofNat 48 tail)

/-- The line that holds such a word as its one instruction. -/
def tableLine (nbits w : Nat) : Option (BitVec 512) :=
  (tableWord nbits w).map fun ht => lineOf ht.1 ht.2

/-- The instruction the decoder reads from a table word, laid out in a line at slot 0. -/
def decodeTableWord (nbits w : Nat) : Option Instr :=
  match tableLine nbits w with
  | none => none
  | some line =>
    match fetchFrom line 0#64 0 with
    | .instr i _ => some i
    | .illegal => none
    | .notHead => none

end Sys2Proof
end

