-- ==== Sys2Proof/Config.lean ====
section
/-! DEFINITION. What a Meruc leaves open, as constants without a body: nothing in Lean can evaluate
them, so a claim proved with them holds whatever they are. Each is named in notes/assumptions. -/

namespace Sys2Proof.Config

/-- A value the manual leaves open, fresh at each counter (log 4). -/
opaque freeWord : Nat → BitVec 64

/-- A free choice among `n` allowed things: the reader takes it modulo `n` (log 4). -/
opaque freeChoice : Nat → Nat → Nat

/-- How many nanoseconds a step takes; R14 fixes no figure (log 8). -/
opaque elapsed : Nat → Nat

/-- A byte of an HBM block read under a key other than the writer's: counter, physical address,
reader's key, writer's key, stored byte (R271, log 9). -/
opaque garbledByte : Nat → Nat → Nat → Nat → BitVec 8 → BitVec 8

/-- The tag of such a block: counter, block address, reader's key, writer's key, stored tag
(R271, log 9). -/
opaque garbledTag : Nat → Nat → Nat → Nat → BitVec 16 → BitVec 16

/-- The random number a seal signature is made with, at a counter (R280, log 10). -/
opaque sealNonce : Nat → Nat

end Sys2Proof.Config
end

