-- ==== Sys2Proof/Machine/Bits.lean ====
section
/-! DEFINITION. Bit fields, sign extension, byte order (R3) and the sparse tables of the state. -/

namespace Sys2Proof.Machine

/-- Replace bits `lo` to `lo + w - 1` of a value. -/
def putSlice {n w : Nat} (x : BitVec n) (lo : Nat) (v : BitVec w) : BitVec n :=
  (x &&& ~~~((BitVec.allOnes w).setWidth n <<< lo)) ||| (v.setWidth n <<< lo)

/-- Replace one bit. -/
def putBit {n : Nat} (x : BitVec n) (i : Nat) (b : Bool) : BitVec n :=
  putSlice x i (if b then 1#1 else 0#1)

/-- A 32-bit immediate, sign-extended (R34). -/
def sextImm (imm : BitVec 32) : Word := imm.signExtend 64

/-- The low `w` bits of a word, sign-extended to 64 bits (R44). -/
def sextLow (w : Nat) (x : Word) : Word := (x.setWidth w).signExtend 64

/-- A condition as a word, 0 or 1. -/
def wordOfBool (b : Bool) : Word := if b then 1#64 else 0#64

/-- The bytes of a value, little-endian (R3). -/
def bytesOf : (n : Nat) → (v : Nat) → List Byte
  | 0, _ => []
  | n + 1, v => BitVec.ofNat 8 v :: bytesOf n (v / 256)

/-- The value of bytes, little-endian (R3). -/
def natOfBytes : List Byte → Nat
  | [] => 0
  | b :: t => b.toNat + 256 * natOfBytes t

def wordOfBytes (l : List Byte) : Word := BitVec.ofNat 64 (natOfBytes l)

/-- A saturating increment by `k` within `n` bits. -/
def satAdd {n : Nat} (x : BitVec n) (k : Nat) : BitVec n :=
  BitVec.ofNat n (min (x.toNat + k) (2 ^ n - 1))

/-- The entry of a table, or a default. -/
def lookupD {α : Type} (t : Table α) (k : Nat) (d : α) : α :=
  match t with
  | [] => d
  | (j, v) :: r => if j = k then v else lookupD r k d

/-- Whether a table lists a key. -/
def hasKey {α : Type} (t : Table α) (k : Nat) : Bool :=
  match t with
  | [] => false
  | (j, _) :: r => j == k || hasKey r k

/-- Set an entry, keeping the keys rising. -/
def insertAt {α : Type} (t : Table α) (k : Nat) (v : α) : Table α :=
  match t with
  | [] => [(k, v)]
  | (j, u) :: r =>
    if k < j then (k, v) :: (j, u) :: r
    else if j = k then (k, v) :: r
    else (j, u) :: insertAt r k v

/-- Remove an entry. -/
def removeAt {α : Type} (t : Table α) (k : Nat) : Table α :=
  match t with
  | [] => []
  | (j, u) :: r => if j = k then removeAt r k else (j, u) :: removeAt r k

/-- Set an entry of a table in canonical form: an entry equal to the default is not listed. -/
def putAt {n : Nat} (t : Table (BitVec n)) (k : Nat) (v : BitVec n) : Table (BitVec n) :=
  if v = 0#n then removeAt t k else insertAt t k v

/-- A memory's byte; an unlisted address reads 0 (log 6). -/
def readByte (m : List (Nat × Byte)) (a : Nat) : Byte := lookupD m a 0#8

/-- Write a byte, keeping the canonical form. -/
def writeByte (m : List (Nat × Byte)) (a : Nat) (b : Byte) : List (Nat × Byte) := putAt m a b

/-- `n` bytes from an address up. -/
def readBytes (m : List (Nat × Byte)) (a : Nat) : Nat → List Byte
  | 0 => []
  | n + 1 => readByte m a :: readBytes m (a + 1) n

/-- Bytes to an address up. -/
def writeBytes (m : List (Nat × Byte)) (a : Nat) : List Byte → List (Nat × Byte)
  | [] => m
  | b :: t => writeBytes (writeByte m a b) (a + 1) t

/-- The canonical form: addresses strictly rising, and no entry equal to what an unlisted address
reads as. -/
def canonical {n : Nat} : Table (BitVec n) → Bool
  | [] => true
  | [(_, v)] => v != 0#n
  | (j, v) :: (k, u) :: r => decide (j < k) && v != 0#n && canonical ((k, u) :: r)

/-- The memory is well formed. -/
abbrev Memory.wf (m : List (Nat × Byte)) : Bool := canonical m

/-- Keep the entries whose key satisfies a test. -/
def keepKeys {α : Type} (p : Nat → Bool) (t : Table α) : Table α := t.filter fun e => p e.1

/-- Apply a function to every entry of a table. -/
def mapTable {α : Type} (t : Table α) (f : Nat → α → α) : Table α := t.map fun e => (e.1, f e.1 e.2)

/-- Remove one occurrence at an index of a list. -/
def dropIndex {α : Type} (l : List α) (i : Nat) : List α := l.eraseIdx i

/-- Replace the first element that satisfies a test. -/
def replaceFirst {α : Type} (p : α → Bool) (f : α → α) : List α → List α
  | [] => []
  | x :: t => if p x then f x :: t else x :: replaceFirst p f t

/-- The number of set bits below `n`. -/
def popBelow {m : Nat} (x : BitVec m) : Nat → Nat
  | 0 => 0
  | n + 1 => popBelow x n + (if x.getLsbD n then 1 else 0)

end Sys2Proof.Machine
end

