-- ==== Sys2Proof/Machine/State.lean ====
section
/-! DEFINITION. The state of a Meruc package: everything the manual names, as plain data, and the
state right after package reset. A table lists only what differs from its reader's default; where
the manual gives no reset value the choice is in notes/assumptions/5.md. Fields marked "ours" are
the model's own: the schedule, the free-value counter, and what in-flight work holds. -/

namespace Sys2Proof.Machine

/-- Why the machine stops. -/
inductive Fault where
  /-- Raised by `step` when nothing is enabled any more: the package is halted after a failed boot
  or powered down (R288, R292) and only an outside action starts it again. Safe: the hardware does
  nothing either. -/
  | halted
  deriving DecidableEq, Repr

/-- Why a step has no meaning. -/
inductive Refusal where
  /-- Raised by the dispatcher for an instruction the model gives no meaning. Safe. -/
  | notModelled (mnemonic : String)
  deriving DecidableEq, Repr

/-- Where an access leads. Addresses of HBM and the control region are local (R53). -/
inductive Target where
  | spad (core : Nat) (lane : Bool) (a : Nat)
  | hbm (pa : Nat) (key : Nat) (raced : Bool)
  | control (pa : Nat)
  | window (w off : Nat)
  | remote (pa : Nat) (gen : BitVec 32)
  | vine (chain off : Nat) (key : Nat)
  deriving DecidableEq, Repr

/-- A strand's vector registers, masks, segment tags and progress indices (R16 to R21). -/
structure VecState where
  v    : Vector (BitVec 16384) 32
  k    : Vector (BitVec 2048) 16
  tags : Vector (BitVec 512) 32
  prog : Vector (BitVec 32) 32
  deriving DecidableEq, Repr

/-- The vector state of a strand at creation: all zero (R16, R18, R20, R21). -/
def VecState.zero : VecState :=
  { v := Vector.replicate 32 0#16384, k := Vector.replicate 16 0#2048
    tags := Vector.replicate 32 0#512, prog := Vector.replicate 32 0#32 }

/-- The strip checkpoint (R27, R30, R257). -/
structure Checkpoint where
  s     : Vector Word 32
  vl    : BitVec 32
  sew   : BitVec 2
  strip : Word
  pc    : BitVec 57
  valid : Bool
  grant : Word
  /-- The number of the first engine operation issued after it. Ours. -/
  since : Nat
  deriving DecidableEq, Repr

def Checkpoint.zero : Checkpoint :=
  { s := Vector.replicate 32 0#64, vl := 0#32, sew := 0#2, strip := 0#64, pc := 0#57
    valid := false, grant := 0#64, since := 0 }

/-- A request to the host that has been sent and has no completion yet (R229 to R232), with what its
strand needs to retire it. Ours. -/
structure WindowRequest where
  strand  : Nat
  /-- Its strand's tenant, for whom the request goes on when the strand has been freed (R191). -/
  tenant  : Nat
  /-- The strand still waits for it: a KILL discards the value (R301). -/
  live    : Bool
  window  : Nat
  va      : Word
  host    : Nat
  width   : Nat
  /-- The atomic's operation code, or none for a load. -/
  op      : Option Nat
  operand  : Word
  expected : Word
  rd      : SReg
  signed  : Bool
  acquire : Bool
  npc     : Word
  deriving DecidableEq, Repr

/-- What a strand in state 1 waits for, beyond re-executing its instruction. Ours. -/
inductive Wait where
  | none
  /-- A control store to the ACT field at this physical address has been performed and has not
  completed (R60); PC is already that of the next instruction. -/
  | act (pa : Nat)
  /-- The same in another package (R61). -/
  | peerAct (pa : Nat) (va : Word)
  /-- `seal.close` of a record of another package: its address there, the record's address, the destination, the
  next address (R61, R280). -/
  | peerSeal (pa : Nat) (va : Word) (rd : SReg) (npc : Word)
  /-- A host window request has been sent (R229). -/
  | window
  /-- `cancel` waits for the record (R90); PC is already that of the next instruction. -/
  | cancel (id : BitVec 32)
  /-- `seal.close` has set state 2 (R280): the record, its destination, the next address. -/
  | sealClose (record : Nat) (rd : SReg) (npc : Word)
  /-- A rollback waits for the engine operations issued since the checkpoint (R257). -/
  | rollback
  /-- It issues nothing more until its STOP completes (R67, R68, R222). -/
  | stopping
  deriving DecidableEq, Repr

/-- A place on a core: PLACE of R65. -/
structure Place where
  core : Nat      -- die * 64 + physical slot, 36 + k for steward core k
  slot : Nat
  deriving DecidableEq, Repr

/-- One strand: what its strand page holds (R65, R24, R30, R141, R150, R200, R212, R237, R252, R254,
R257) and what the manual keeps beside it. -/
structure Strand where
  state     : BitVec 4      -- STATUS[3:0], R78
  cause     : BitVec 8      -- STATUS[15:8]
  vres      : Bool          -- STATUS[16], vector-resident
  owed      : Bool          -- STATUS[17], replay owed
  pc        : Word
  vl        : BitVec 32
  mvl       : BitVec 16
  space     : BitVec 2
  vstart    : BitVec 32
  tags      : Word
  frm       : BitVec 3
  fflags    : BitVec 5
  trapvec   : BitVec 57
  trapcause : BitVec 8
  trappc    : BitVec 57
  trapaddr  : BitVec 57
  shape     : Word
  strip     : Word
  cycle     : Word
  launch    : BitVec 32
  sew       : BitVec 2
  place     : Option Place
  owner     : BitVec 8
  s         : Vector Word 32
  vec       : VecState
  /-- The interrupted vector state that `claim` wrote to the page (R216, R218). -/
  saved     : VecState
  ckpt      : Checkpoint
  rbStrip   : BitVec 4      -- RBACK[35:32]
  rbTotal   : BitVec 32     -- RBACK[31:0]
  tstat     : Vector (BitVec 9) 64
  mstopValid : Bool
  mstopAddr : BitVec 57
  mchkRow   : BitVec 11     -- MCHK[58:48]
  mchkLost  : BitVec 8      -- MCHK[47:40]
  mchkFail  : BitVec 11     -- MCHK[26:16]
  mchkCount : BitVec 16     -- MCHK[15:0]
  mfaddr    : BitVec 57
  awaitDenied : Bool
  awaitGot  : BitVec 16
  awaitSeqs : List (BitVec 48)
  inHandler : Bool
  claimed   : Bool
  nested    : Bool
  barmark   : Option (BitVec 4 × BitVec 32)
  claim0    : Word
  claim1    : BitVec 2
  arrivals  : Vector (BitVec 32) 16
  rReturned : Bool
  rCause    : BitVec 8
  rCount    : BitVec 16
  raddr     : BitVec 57
  vineChain : BitVec 8
  vineLost  : BitVec 32
  vaddr     : BitVec 57
  checked   : Bool
  mismatches : BitVec 32
  /-- Index within the launch (R15, R93), pool of cores (R92), dealt core (R93), bound core (R132),
  the node's class and the class it has aged to (R108). -/
  index     : Nat
  pool      : List Nat
  dealt     : Nat
  bound     : Option Nat
  prio      : BitVec 2
  cls       : BitVec 2
  /-- The open synchronisation region (R182). -/
  region    : Nat
  /-- Last sequence of a collective, per group key (R240). -/
  lastColl  : Table (BitVec 32)
  /-- The instruction that wrote k14 (R19), and the one `claim` found, which `tret` brings back with the
  vector state (R216). -/
  k14pc     : Option Word
  savedK14pc : Option Word
  /-- PC was reached in sequence, not by a transfer of control (R36, R39). -/
  inSequence : Bool
  /-- The reissue that the awaited replay verdicts make is restricted to k14 (R23). -/
  reissue   : Bool
  /-- The batch those verdicts answered (R203). -/
  prevBatch : List (BitVec 48)
  /-- The next issue is the setting instruction of a rollback (R257). -/
  rolled    : Bool
  /-- One instruction is being stepped (R223); a KILL has been performed and has not completed (R67).
  Ours. -/
  stepping  : Bool
  killing   : Bool
  /-- The cause its kill is counted with once it completes (R67, R85, R104), and whether its next instruction
  is the first after its creation or resumption (R178, R182). Ours. -/
  counted   : BitVec 8
  resumed   : Bool
  /-- The lane cluster, pair or group that holds its vector state (R94), and TIME when it was last
  resident (R95). -/
  cluster   : Nat
  left      : Word
  /-- It has been resident (R93). Ours. -/
  seated    : Bool
  wait      : Wait
  /-- Poisoned vector registers (R257); a lane error checked mode will meet, at an element (R255).
  Both come from outside. -/
  poisonV   : List Nat
  laneError : Option Nat
  deriving DecidableEq, Repr

/-- An empty strand: the reset values of its page (R65, R80). -/
def Strand.empty : Strand :=
  { state := 0#4, cause := 0#8, vres := false, owed := false, pc := 0#64, vl := 0#32, mvl := 0#16
    space := 0#2, vstart := 0#32, tags := 0#64, frm := 0#3, fflags := 0#5, trapvec := 0#57
    trapcause := 0#8, trappc := 0#57, trapaddr := 0#57, shape := 0#64, strip := 0#64
    cycle := 0#64, launch := 0#32, sew := 0#2, place := none, owner := 0#8
    s := Vector.replicate 32 0#64, vec := VecState.zero, saved := VecState.zero
    ckpt := Checkpoint.zero, rbStrip := 0#4, rbTotal := 0#32, tstat := Vector.replicate 64 0#9
    mstopValid := false, mstopAddr := 0#57, mchkRow := 0#11, mchkLost := 0#8, mchkFail := 0#11
    mchkCount := 0#16, mfaddr := 0#57, awaitDenied := false, awaitGot := 0#16, awaitSeqs := []
    inHandler := false, claimed := false, nested := false, barmark := none, claim0 := 0#64
    claim1 := 0#2, arrivals := Vector.replicate 16 0#32, rReturned := false, rCause := 0#8
    rCount := 0#16, raddr := 0#57, vineChain := 0#8, vineLost := 0#32, vaddr := 0#57
    checked := false, mismatches := 0#32, index := 0, pool := [], dealt := 0, bound := none
    prio := 0#2, cls := 0#2, region := 0, lastColl := [], k14pc := none, savedK14pc := none
    inSequence := false, reissue := false, prevBatch := [], rolled := false, stepping := false, killing := false
    counted := 0#8, resumed := false, cluster := 0, left := 0#64
    seated := false, wait := .none, poisonV := [], laneError := none }

/-- A node descriptor (R87, R104). -/
structure Node where
  entry  : BitVec 57
  args   : BitVec 57
  count  : Nat
  mvl    : Nat           -- the code; the strands' MVL is 256 * 2 ^ code
  kind   : Bool          -- steward cores
  prio   : BitVec 2
  dies   : BitVec 4
  pred   : Word
  stream : Word
  flow   : Option (BitVec 57)
  deriving DecidableEq, Repr

/-- A node of an admitted graph (R104): its launch record once allocated, whether it waits in the
ready pool, whether its strands have been created, and its outcome once counted. -/
structure GraphNode where
  node    : Node
  queued  : Bool
  created : Bool
  launch  : Option (BitVec 32)
  outcome : Option (BitVec 8)     -- 0 completed, else the cause it failed with
  deriving DecidableEq, Repr

/-- A counter record (R83), with what its level keeps beside it. -/
structure Record where
  ident     : BitVec 32
  state     : BitVec 3
  cause     : BitVec 8
  target    : BitVec 32
  completed : BitVec 32
  failed    : BitVec 32
  parent    : Option (BitVec 32)
  /-- A phase's or job's items submitted so far (R101). -/
  submitted : BitVec 32
  /-- A graph's nodes (R104). -/
  nodes     : List GraphNode
  /-- A launch's node, and its index in its graph when a graph holds it (R79, R104). -/
  node      : Option Node
  index     : Option Nat
  /-- The strands of a launch (R79). -/
  base      : Nat
  count     : Nat
  deriving DecidableEq, Repr

def Record.empty : Record :=
  { ident := 0#32, state := 0#3, cause := 0#8, target := 0#32, completed := 0#32, failed := 0#32
    parent := none, submitted := 0#32, nodes := [], node := none, index := none, base := 0
    count := 0 }

/-- One entry of a fault queue (R198), kept by its sequence. -/
structure FqEntry where
  page   : BitVec 41
  engine : Bool
  level  : BitVec 2
  mask   : BitVec 3
  who    : BitVec 32
  count  : BitVec 16
  stale  : BitVec 16
  status : BitVec 2
  deriving DecidableEq, Repr

/-- What awaits the verdict of a fault (R197, R202): nothing, as for a pinned miss; a strand; an engine
operation; a command of a queue, for its SIGNAL's store or its completion word; an entry of the ready pool, or
a flow word that is to be closed. -/
inductive Faulter where
  | record
  | strand (n : Nat)
  | op (id : Nat)
  | command (q serial : Nat)
  | entry (id : Nat)
  | closing (id : Nat)
  deriving DecidableEq, Repr

/-- What a store of the queue engine or the dispatcher waits for (R194, R197): nothing, room for its fault, or
the verdict of a sequence. -/
inductive PageWait where
  | none
  | held
  | seq (q : BitVec 48)
  deriving DecidableEq, Repr

/-- A fault waiting for room in its fault queue (R197): the entry it will become, and what awaits it. -/
structure HeldFault where
  entry : FqEntry
  who   : Faulter
  deriving DecidableEq, Repr

/-- What a scrub writes 64 KiB at a time: a frame, or a unit of a core's scratchpad (R75, R284). -/
inductive ScrubUnit where
  | frame (f : Nat)
  | spad (core unit : Nat)
  deriving DecidableEq, Repr

/-- A tenant page (R73, R254, R273), its counter page (R83) and its fault queue page (R198). -/
structure Tenant where
  state      : BitVec 3
  result     : BitVec 8
  root       : BitVec 40      -- ROOT[55:16]
  world      : BitVec 6
  keyValid   : Bool
  keySlot    : BitVec 6
  cls        : BitVec 1
  faultq     : BitVec 40      -- FAULTQ[55:16]
  strikes    : BitVec 16
  strikeLimit : BitVec 16
  barred     : Bool
  measured   : Bool
  measTaken  : Bool
  framelist  : BitVec 53      -- FRAMELIST[55:3]
  framecount : BitVec 24
  scrub      : BitVec 48
  /-- What TEARDOWN took to scrub, and what of it is still to be written (R75, R284, R285). -/
  scrubAll   : List ScrubUnit
  scrubLeft  : List ScrubUnit
  cores      : Vector (BitVec 40) 4
  spad       : Vector Word 16
  checked    : Bool
  codelist   : BitVec 54      -- CODELIST[56:3]
  codecount  : BitVec 7
  mdigest    : BitVec 384
  /-- Frames and virtual pages of the measured set (R274, R275). -/
  measFrames : List Nat
  measPages  : List Nat
  records    : Table Record   -- level * 1024 + index
  fqHead     : BitVec 32
  fqTail     : BitVec 32
  fqReplay   : Word
  fqHeld     : BitVec 32
  fqStale    : BitVec 32
  fqEntries  : Table FqEntry
  fqHolding  : List HeldFault
  deriving DecidableEq, Repr

def Tenant.empty : Tenant :=
  { state := 0#3, result := 0#8, root := 0#40, world := 0#6, keyValid := false, keySlot := 0#6
    cls := 0#1, faultq := 0#40, strikes := 0#16, strikeLimit := 0#16, barred := false
    measured := false, measTaken := false, framelist := 0#53, framecount := 0#24, scrub := 0#48
    scrubAll := [], scrubLeft := []
    cores := Vector.replicate 4 0#40, spad := Vector.replicate 16 0#64, checked := false
    codelist := 0#54, codecount := 0#7, mdigest := 0#384, measFrames := [], measPages := []
    records := [], fqHead := 0#32, fqTail := 0#32, fqReplay := 0#64, fqHeld := 0#32
    fqStale := 0#32, fqEntries := [], fqHolding := [] }

/-- A command of a queue that has been consumed and has not completed (R101, R103). -/
structure Command where
  tenant : Nat
  serial : Nat               -- a number of its own
  op     : Nat
  ident  : BitVec 32         -- the record allocated, or 0
  cpl    : Word              -- completion word address, 0 for none
  refused : BitVec 8         -- a refusal or failure code, 0 for none
  done   : Bool              -- completed, its word not yet written
  failed : BitVec 16         -- FAILED of its record at completion
  address : Word             -- SIGNAL's address and value
  value  : Word
  /-- What its SIGNAL's store, or its completion word, waits for (R101, R194), and whether that word cannot be
  written. -/
  waits  : PageWait := .none
  lost   : Bool := false
  deriving DecidableEq, Repr

/-- A queue page (R99): the two shadow copies as words, and the engine's own place in it. -/
structure Queue where
  state    : BitVec 3
  code     : BitVec 8
  consumed : BitVec 32
  verdict  : Word
  a        : Vector Word 8
  b        : Vector Word 8
  /-- Whether a wake is pending (R98), and the producer count it read. -/
  woken    : Bool
  producer : BitVec 32
  /-- The copy chosen before the last read (R99). -/
  copy     : Option (Vector Word 8)
  /-- ENABLE ← 0 has been performed and a record is mid-parse (R99). -/
  disabling : Bool
  /-- The record read and not yet consumed, as its eight words (R101). -/
  current  : Option (Vector Word 8)
  /-- F1's mode when it was read: host-assisted (R110). Ours. -/
  assisted : Bool
  /-- The job that accepts phases and the phase that accepts graphs (R101), each with the tenant whose records
  hold it. -/
  job      : Option (Nat × BitVec 32)
  phase    : Option (Nat × BitVec 32)
  pending  : List Command
  deriving DecidableEq, Repr

def Queue.empty : Queue :=
  { state := 0#3, code := 0#8, consumed := 0#32, verdict := 0#64
    a := Vector.replicate 8 0#64, b := Vector.replicate 8 0#64, woken := false, producer := 0#32
    copy := none, disabling := false, current := none, assisted := false, job := none, phase := none
    pending := [] }

/-- An entry of the ready pool (R107): a launch by `launch`, or a node of a graph. -/
structure ReadyEntry where
  id       : Nat
  tenant   : Nat
  node     : Node
  graph    : BitVec 32
  index    : Option Nat             -- the node's index in its graph
  launch   : Option (BitVec 32)     -- the record `launch` allocated
  cls      : BitVec 2
  blocking : Bool
  /-- What the store that opens its flow word waits for (R105, R194), and whether that word cannot be written. -/
  waits    : PageWait := .none
  skipFlow : Bool := false
  deriving DecidableEq, Repr

/-- A flow word that the dispatcher has still to close (R105). -/
structure FlowClose where
  id     : Nat
  tenant : Nat
  va     : Word
  waits  : PageWait := .none
  deriving DecidableEq, Repr

/-- A power island (R290). -/
structure Island where
  state   : BitVec 2
  current : BitVec 12
  ceiling : BitVec 12
  deriving DecidableEq, Repr

/-- A compute die's control page (R76, R260, R290). -/
structure Die where
  harvest  : BitVec 36
  stewards : BitVec 4
  world    : BitVec 6
  latch    : BitVec 2
  fence    : BitVec 2
  islands  : Vector Island 12
  temp     : BitVec 8
  /-- Race records the die still has room for are 16,384 less those of the package homed on it
  (R184); lines its cellar holds, as block numbers (R134). -/
  cellar   : List Nat
  deriving DecidableEq, Repr

/-- A host access received and not yet performed, because a page is held (R60, R227): through BAR 0 or BAR 2,
with what a write stores. Ours. -/
inductive HostAccess where
  | control (offset size : Nat) (data : Option Word)
  | memory (offset size : Nat) (data : Option (List Byte))
  deriving DecidableEq, Repr

/-- What an access from outside was answered with (R62, R226, R234, R295). Ours. -/
inductive Answer where
  | none
  | data (bytes : List Byte) (tags : List Tag)
  | done
  | refused (cause : BitVec 8)
  /-- The Unsupported Request completion that an AtomicOp of the host receives (R224). -/
  | unsupported
  deriving DecidableEq, Repr

/-- An entry of the range scoreboard (R143), and the operation that holds it. -/
structure SbEntry where
  strand : Nat
  write  : Bool
  first  : Nat
  count  : Nat
  stride : Nat
  op     : Nat
  deriving DecidableEq, Repr

/-- A line an instruction cache holds (R205). -/
structure CacheLine where
  tenant : Nat
  line   : Nat            -- virtual address / 64
  bits   : BitVec 512
  deriving DecidableEq, Repr

/-- A block a weight load reads (R153): its address, where that leads, and for a cask block the slot
and the key it was issued under (R167). Ours. -/
structure WeightSource where
  va   : Word
  tgt  : Target
  cask : Option (BitVec 6 × BitVec 256)
  deriving DecidableEq, Repr

/-- A weight plane (R148, R153): 0 empty, 1 loading, 2 loaded, 3 faulted. -/
structure Plane where
  state  : BitVec 2
  cause  : BitVec 8
  cask   : Bool
  sparse : Bool
  mode   : BitVec 2
  k      : Nat
  n      : Nat
  mask   : BitVec 16384
  /-- The blocks with their tags: group `i` of column `j` at `n * i + j`. -/
  blocks : Table (BitVec 512 × Tag)
  /-- A load in flight: its instruction's address, weight class, blocks in that order, its entry in the
  scoreboard, and the region it belongs to. -/
  pc     : Word
  cls    : BitVec 2
  srcs   : List WeightSource
  /-- The number of the first of them (R163). -/
  first  : Nat
  sbOp   : Nat
  region : Nat
  deriving DecidableEq, Repr

def Plane.empty : Plane :=
  { state := 0#2, cause := 0#8, cask := false, sparse := false, mode := 0#2, k := 0, n := 0
    mask := 0#16384, blocks := [], pc := 0#64, cls := 0#2, srcs := [], first := 0, sbOp := 0, region := 0 }

/-- What a queued matrix operation does (R153, R156 to R158, R160): a weight load that has yet to start, with
the plane it will make, among them. -/
inductive MatKind where
  | mldw (p : Plane)
  | mswap
  | mmac (zero : Bool)
  | mld (fmt : BitVec 2)
  | mst (fmt : BitVec 3)
  | mzero (count : Nat)
  deriving DecidableEq, Repr

/-- A matrix operation in an engine's queue, with what it captured at issue (R149). -/
structure MatOp where
  kind   : MatKind
  pc     : Word
  shape  : Word
  mode   : BitVec 2
  sparse : Bool
  base   : Nat
  addr   : Nat
  stride : Word
  start  : Nat
  sbOp   : Nat
  deriving DecidableEq, Repr

/-- A core's matrix engine (R148): its accumulator rows hold 1,024 bits each. -/
structure MatrixEngine where
  holder  : Option Nat
  waiters : List Nat
  release : Bool
  mode    : BitVec 2
  sparse  : Bool
  shape   : Word
  active  : Plane
  shadow  : Plane
  acc     : Table (BitVec 1024)
  queue   : List MatOp
  /-- Rows of the next `mmac` that an error from outside spoils (R162). -/
  upset   : List Nat
  deriving DecidableEq, Repr

def MatrixEngine.empty : MatrixEngine :=
  { holder := none, waiters := [], release := false, mode := 0#2, sparse := false, shape := 0#64
    active := Plane.empty, shadow := Plane.empty, acc := [], queue := [], upset := [] }

/-- One core, compute or steward: its scratchpad bytes and block tags (R129, R131), poisoned
scratchpad blocks (R257), range scoreboard (R143) with the strands that wait for a shared entry, in order of
request, and those whose access has been allocated one and waits for older accesses (R146), instruction cache,
its reserved way apart (R8), and matrix engine. -/
structure Core where
  spad   : List Host.Cell
  stags  : Table Tag
  poison : List Nat
  board  : List SbEntry
  boardLine : List Nat
  boardHold : List Nat
  icache : List CacheLine
  reserved : List CacheLine
  engine : MatrixEngine
  deriving DecidableEq, Repr

def Core.empty : Core :=
  { spad := [], stags := [], poison := [], board := [], boardLine := [], boardHold := [], icache := [], reserved := []
    engine := MatrixEngine.empty }

/-- The arguments of a copy (R136, R138). -/
structure CopyArgs where
  rows   : Nat
  rb     : Nat
  dst    : Word
  src    : Word
  dstr   : Word
  sstr   : Word
  dspace : BitVec 2
  sspace : BitVec 2
  /-- `cpyd`: the number of fields and the width of each in bytes. -/
  split  : Option (Nat × Nat)
  deriving DecidableEq, Repr

/-- What an engine operation does. -/
inductive EngineKind where
  | copy (a : CopyArgs)
  | coll (key : Word) (seq : BitVec 32) (op fmt count : Nat) (dst src : Word)
      (dspace sspace : BitVec 2) (digest : List Byte)
  | rred (fmt : BitVec 2) (dst : Word) (scale : Int) (elems : Table (BitVec 32))
  | absorb (record : Nat) (src : Word) (len : Nat)
  deriving DecidableEq, Repr

/-- An engine operation in flight (R136, R240, R243, R279). -/
structure EngineOp where
  kind    : EngineKind
  strand  : Nat
  tenant  : Nat
  core    : Nat
  scope   : BitVec 3
  rtag    : BitVec 6
  atag    : BitVec 6
  /-- The release tag has completed, the bytes read, in the order of the destination, and the tags
  of a block copy. -/
  released : Bool
  buffer  : List Byte
  btags   : List Tag
  /-- Every byte has been written, though a chain may still hold some of them. -/
  written : Bool
  /-- The failure met so far, 0 for none, and the element that met it (R139, R243). -/
  status  : BitVec 8
  failAt  : Nat
  /-- Fault queue entries it waits for (R139, R202), and the batch answered before (R203). -/
  awaiting : List (BitVec 48)
  answered : List (BitVec 48)
  /-- The pages it was denied (R139). -/
  denied  : List (BitVec 41)
  region  : Nat
  sbOp    : Nat
  /-- The fencing or killing that ends it, if one does. -/
  ended   : BitVec 8
  /-- Bytes of its source came from a host window (R229). -/
  windowed : Bool := false
  deriving DecidableEq, Repr

/-- A vine write on its way from head to tail (R247). -/
structure VineWrite where
  strand : Option Nat
  va     : Word
  offset : Nat
  bytes  : List Byte
  tag    : Option Tag
  op     : Option Nat        -- the engine operation it belongs to
  deriving DecidableEq, Repr

/-- A chain table (R244). -/
structure Chain where
  state    : BitVec 3
  gen      : BitVec 32
  size     : BitVec 19
  owner    : BitVec 8
  links    : BitVec 16
  count    : BitVec 3
  linkop   : Word
  accepted : Word
  lost     : BitVec 32
  base     : Vector (BitVec 40) 4
  /-- Writes on their way to the tail, oldest first (R247); an append under way. -/
  inflight : List VineWrite
  append   : Option (BitVec 3 × BitVec 40)
  deriving DecidableEq, Repr

def Chain.empty : Chain :=
  { state := 0#3, gen := 0#32, size := 0#19, owner := 0#8, links := 0#16, count := 0#3
    linkop := 0#64, accepted := 0#64, lost := 0#32, base := Vector.replicate 4 0#40
    inflight := [], append := none }

/-- A key slot page (R268); `id` names the key it holds, and grows with every new key (R271). -/
structure KeySlot where
  state  : BitVec 3
  result : BitVec 8
  bind   : BitVec 8
  fprint : BitVec 384
  wrap   : BitVec 1664
  key    : BitVec 256
  id     : Nat
  /-- CTL as it reads: the action in progress. -/
  ctl    : BitVec 2
  deriving DecidableEq, Repr

def KeySlot.empty : KeySlot :=
  { state := 0#3, result := 0#8, bind := 0#8, fprint := 0#384, wrap := 0#1664, key := 0#256
    id := 0, ctl := 0#2 }

/-- A seal record (R276), with the bytes absorbed and the key bound at open (R279, R280). -/
structure SealRecord where
  serial  : BitVec 32
  state   : BitVec 3
  result  : BitVec 8
  who     : BitVec 60
  digest  : BitVec 384
  sigr    : BitVec 384
  sigs    : BitVec 384
  bytes   : List Byte
  claimed : Nat              -- bytes of absorbs issued, R279
  keyId   : Nat
  deriving DecidableEq, Repr

def SealRecord.empty : SealRecord :=
  { serial := 0#32, state := 0#3, result := 0#8, who := 0#60, digest := 0#384, sigr := 0#384
    sigs := 0#384, bytes := [], claimed := 0, keyId := 0 }

/-- A window's WIN word (R228). -/
structure Window where
  base   : BitVec 26
  enable : Bool
  deriving DecidableEq, Repr

/-- A peer's PEER word (R228). -/
structure Peer where
  state : BitVec 2
  gen   : BitVec 32
  deriving DecidableEq, Repr

/-- A member entry of a collective's group (R239). -/
structure Member where
  launch  : BitVec 32
  package : BitVec 12
  domain  : BitVec 3
  tenant  : BitVec 8
  count   : Nat
  deriving DecidableEq, Repr

/-- A contribution the hub dies hold (R240): from an operation of this package, or from another. -/
structure Contribution where
  seq    : BitVec 32
  op     : Nat
  fmt    : Nat
  count  : Nat
  digest : List Byte
  bytes  : List Byte
  source : Option Nat        -- the engine operation here
  deriving DecidableEq, Repr

/-- A collective group (R239, R242). -/
structure Group where
  members : List Member
  contribs : List Contribution
  /-- Sequences lost, and whether a participant has ended (R242). -/
  lostSeqs : List (BitVec 32)
  ended   : Bool
  /-- Sequences whose result has been produced, with the result's bytes and the status. -/
  results : List (BitVec 32 × BitVec 8 × List Byte)
  deriving DecidableEq, Repr

def Group.empty : Group :=
  { members := [], contribs := [], lostSeqs := [], ended := false, results := [] }

/-- A remote store that its target has not acknowledged (R237). -/
structure RemoteStore where
  strand : Nat
  va     : Word
  pa     : Nat
  bytes  : List Byte
  tag    : Option Tag
  gen    : BitVec 32
  deriving DecidableEq, Repr

/-- An access recorded on a race-checked granule (R183, R184). -/
structure RaceRecord where
  granule : Nat
  strand  : Nat
  region  : Nat
  write   : Bool
  atomic  : Bool
  /-- The engine operation that made it (R182). -/
  op      : Option Nat
  deriving DecidableEq, Repr

/-- A table entry that a store changed and no `tsync` has covered: a walk may still use the old
value (R190). -/
structure StaleEntry where
  tenant : Nat
  pa     : Nat
  old    : Word
  deriving DecidableEq, Repr

/-- What the outside world does next, or which agent moves next. Ours (log 2). -/
inductive Action where
  | issue (strand : Nat)
  | event (i : Instr)
  | hostMemory (addr : Nat) (bytes : List Byte)
  | peerMemory (pa : Nat) (bytes : List Byte)
  | peerControl (pa : Nat) (value : Word)
  /-- Another package refuses what it holds in a frame, or a control store of a word, with a cause (0 for
  none); runs under another generation than PEER names; has finished the action of a control store. -/
  | peerRefuses (frame : Nat) (cause : BitVec 8)
  | peerCtlRefuses (pa : Nat) (cause : BitVec 8)
  | peerGeneration (p : Nat) (gen : BitVec 32)
  | peerActDone (pa : Nat)
  /-- The action of a control store of another package has taken effect here, and its hub is told (R61). -/
  | serveDone (pa : Nat)
  /-- The oldest host access received is performed, unless its page is held. -/
  | hostNext
  /-- The host's accesses to BAR 4 and to the function's configuration (R224, R225). -/
  | hostBar4 (word : Nat) (data : Option Word)
  | hostBar (i : Nat) (base : Word)
  | hostDevCtl2 (v : BitVec 16)
  /-- A strand executes its next instruction up to an element or row, and is stopped there (R22, R219). -/
  | partWay (strand : Nat)
  /-- The same, as a core pre-empts it: the core, and the strands that have held a slot of it for at least 50 µs,
  the longest first (R96, R219). -/
  | preemptPartWay (core : Nat) (heldLong : List Nat)
  | poisonHbm (block : Nat) (transient : Bool)
  | poisonSpad (core block : Nat)
  | poisonVector (strand reg : Nat)
  | laneError (strand elem : Nat)
  | matrixUpset (core row : Nat)
  | contribution (key : Word) (c : Contribution)
  /-- A participant in another package ends (R242). -/
  | participantEnded (key : Word)
  /-- The scrub engine writes 64 KiB for a tenant (R284). -/
  | scrub (t : Nat)
  /-- The dispatcher prefetches the ENTRY of an entry of the ready pool into the reserved ways (R104). -/
  | prefetch (id : Nat)
  /-- The dispatcher tries again to close a flow word (R105). -/
  | flowClose (id : Nat)
  /-- F4 finds that a die's links or fabric fail, or its error rate too high (R260). -/
  | dieFails (die : Nat)
  /-- F7 reports (R295); F6 chooses an island's frequency again (R290). -/
  | telemetry
  | frequency (die island : Nat) (mhz : BitVec 12)
  /-- A junction's temperature: compute dies 0 to 3, the hub die 4, base dies 5 to 12. -/
  | temperature (die : Nat) (celsius : BitVec 8)
  | power (watts : BitVec 12)
  deriving DecidableEq, Repr

/-- The state of the package. -/
structure State where
  /-- Ours: the schedule and inputs (log 2), the strand that issues and the address R36 gives after
  its instruction (log 3), the counter of the free values (log 4), operation numbers. -/
  agenda   : List Action
  cur      : Nat
  npc      : Word
  tick     : Nat
  nextId   : Nat
  /-- TIME (R24). -/
  time     : Word
  /-- The hub control page (R77, R228, R282, R293). -/
  package  : BitVec 12
  hosterr  : BitVec 32
  gen      : BitVec 32
  domain   : BitVec 3
  link     : BitVec 16
  atomen   : Bool
  win      : Vector Window 16
  route    : Vector (BitVec 8) 16
  modes    : Vector (BitVec 8) 8
  sealpub  : BitVec 768
  provpub  : BitVec 768
  /-- The private halves of the seal and the provisioning key, which never leave the Beryl root (R270,
  R280). -/
  sealkey  : Nat
  provkey  : Nat
  bootPhase : BitVec 4
  bootResult : BitVec 8
  /-- The previous image set has been tried; the package is halted or powered down (R288, R292). -/
  bootRetried : Bool
  /-- Phase 6 has succeeded: the identity chain is presented (R282, R288). -/
  identity : Bool
  halted   : Bool
  pwrlim   : BitVec 12
  power    : BitVec 12
  temp     : BitVec 8
  trip     : BitVec 2
  fwver    : Vector (BitVec 32) 13
  staged   : List FirmwareImage
  /-- The versions of the image set before the running one (R288). -/
  fwprev   : Vector (BitVec 32) 13
  /-- The anti-rollback fuses (R294). -/
  fuses    : Vector (BitVec 32) 13
  /-- The junctions of the hub die and of the base dies (R292, R293, R295). -/
  hubTemp  : BitVec 8
  baseTemps : Vector (BitVec 8) 8
  peers    : Table Peer
  /-- The PCIe port (R224, R225). -/
  linkUp   : Bool
  busMaster : Bool
  msixPending : List Nat
  msixSent : List Nat
  /-- The MSI-X table's words, two to an entry; the BARs; Device Control 2 (R224, R225). -/
  msixTable : Table Word
  bars     : Vector Word 3
  devctl2  : BitVec 16
  /-- Ours: host accesses received and not yet performed, oldest first, and the last answers given to the
  host and to another package. -/
  hostQueue : List HostAccess
  hostAnswer : Answer
  peerAnswer : Answer
  /-- The seal counter (R278) and the counter of key names (R267, R271). -/
  sealSerial : BitVec 32
  keyNames : Nat
  dies     : Vector Die 4
  cores    : Table Core
  tenants  : Table Tenant
  queues   : Table Queue
  strands  : Table Strand
  chains   : Table Chain
  keys     : Table KeySlot
  seals    : Table SealRecord
  groups   : Table Group
  ready    : List ReadyEntry
  closes   : List FlowClose
  frames   : Table (BitVec 4)
  /-- HBM: bytes, block tags, the key each block was last written under, poisoned blocks and whether
  the poison passes with the line that holds it. -/
  mem      : List Host.Cell
  mtags    : Table Tag
  mkeys    : Table Nat
  poison   : Table Bool
  stale    : List StaleEntry
  races    : List RaceRecord
  nextRegion : Nat
  ops      : Table EngineOp
  /-- Requests to the host in flight, oldest first. -/
  requests : List WindowRequest
  remote   : Table RemoteStore
  /-- Memory outside the package: the host's, and the other packages' as it is met from here. -/
  hostMem  : List Host.Cell
  peerMem  : List Host.Cell
  peerTags : Table Tag
  peerCtl  : Table Word
  /-- What the other packages refuse, by frame and by control word; their own generations where PEER names
  another; the control words whose action has not taken effect there; the packages whose link fails within
  the next step of a strand (R61, R234, R236). Ours: the outside world. -/
  peerRefuse : Table (BitVec 8)
  peerCtlRefuse : Table (BitVec 8)
  peerGens : Table (BitVec 32)
  peerActs : List Nat
  /-- The ACT fields that other packages have stored to and whose completion has not been answered (R61). Ours. -/
  serving  : List Nat
  failing  : List Nat
  deriving DecidableEq, Repr

/-- An island before phase 5 of boot: off, no frequency (log 5). -/
def Island.reset : Island := { state := 2#2, current := 0#12, ceiling := 0#12 }

/-- A die right after package reset: every slot enabled (log 5), open, live. -/
def Die.reset : Die :=
  { harvest := 0xFFFFFFFFF#36, stewards := 0xF#4, world := 0#6, latch := 0#2, fence := 0#2
    islands := Vector.replicate 12 Island.reset, temp := 0#8, cellar := [] }

/-- The open key of slot 0: state 1, always active (R267, R268). -/
def KeySlot.opened (id : Nat) : KeySlot := { KeySlot.empty with state := 1#3, id := id }

/-- The public half of a key pair over P-384 whose private half is 1, the curve's base point: X, then Y
above it (log 5). -/
def fusedPub : BitVec 768 :=
  (0x3617DE4A96262C6F5D9E98BF9292DC29F8F41DBD289A147CE9DA3113B5F0B8C00A60B1CE1D7E819D7A431D7C90EA0E5F#384 ++
    0xAA87CA22BE8B05378EB1C71EF320AD746E1D3B628BA79B9859F741E082542A385502F25DBF55296C3A545E3872760AB7#384 : BitVec 768)

/-- The package right after package reset, before boot (R287, R288). -/
def State.reset : State :=
  { agenda := [], cur := 0, npc := 0#64, tick := 0, nextId := 1, time := 0#64
    package := 0#12, hosterr := 0#32, gen := 0#32, domain := 0#3, link := 0#16, atomen := false
    win := Vector.replicate 16 { base := 0#26, enable := false }
    route := Vector.replicate 16 0#8, modes := Vector.replicate 8 0#8
    sealpub := fusedPub, provpub := fusedPub, sealkey := 1, provkey := 1
    bootPhase := 0#4, bootResult := 0#8, bootRetried := false, identity := false, halted := false
    pwrlim := 2200#12, power := 0#12, temp := 0#8, trip := 0#2
    fwver := Vector.replicate 13 0#32, staged := [], fwprev := Vector.replicate 13 0#32
    fuses := Vector.replicate 13 0#32, hubTemp := 0#8, baseTemps := Vector.replicate 8 0#8, peers := []
    linkUp := false, busMaster := false, msixPending := [], msixSent := [], msixTable := []
    bars := Vector.replicate 3 0#64, devctl2 := 0#16, hostQueue := [], hostAnswer := .none, peerAnswer := .none
    sealSerial := 0#32, keyNames := 1, dies := Vector.replicate 4 Die.reset
    cores := [], tenants := [], queues := [], strands := [], chains := []
    keys := [(0, KeySlot.opened 0)], seals := [], groups := [], ready := [], closes := [], frames := []
    mem := [], mtags := [], mkeys := [], poison := [], stale := [], races := [], nextRegion := 1
    ops := [], requests := [], remote := [], hostMem := [], peerMem := [], peerTags := [], peerCtl := []
    peerRefuse := [], peerCtlRefuse := [], peerGens := [], peerActs := [], serving := [], failing := [] }

end Sys2Proof.Machine
end

