-- ==== Sys2Proof/Machine/Store.lean ====
section
/-! DEFINITION. Where the parts of the state are read and written: strands, cores, tenants, queues,
chains, keys and records by number, the cause codes (R208, R209), free values, and the geography of
the package (R7, R52, R170). -/

namespace Sys2Proof.Machine

/-! Cause codes (R208) and record status codes (R209). -/
def cIllegalEncoding : Nat := 0x01
def cIllegalState : Nat := 0x02
def cAlignment : Nat := 0x03
def cNoMapping : Nat := 0x04
def cPermission : Nat := 0x05
def cControlAuthority : Nat := 0x06
def cControlBusy : Nat := 0x07
def cNotResident : Nat := 0x08
def cPinMiss : Nat := 0x09
def cCaskRead : Nat := 0x0A
def cCaskCopy : Nat := 0x0B
def cCaskKey : Nat := 0x0C
def cMemoryRace : Nat := 0x0D
def cRaceCapacity : Nat := 0x0E
def cScopeMiss : Nat := 0x0F
def cHostAtomic : Nat := 0x10
def cPeerGone : Nat := 0x11
def cWorldRefused : Nat := 0x12
def cUncorrectable : Nat := 0x13
def cFencedDie : Nat := 0x14
def cTrapInstruction : Nat := 0x15
def cBreakpoint : Nat := 0x16
def cStep : Nat := 0x17
def cCancelled : Nat := 0x18
def cQueueBarred : Nat := 0x19
def cTagMisuse : Nat := 0x1A
def cChainBroken : Nat := 0x1B
def kKeysBusy : Nat := 0x40
def kPeerLost : Nat := 0x41
def kTorn : Nat := 0x42
def kAbandoned : Nat := 0x43
def kDieBusy : Nat := 0x44

/-! Parts by number. -/

/-- A strand; one not listed is empty (R65). -/
def State.strand (s : State) (n : Nat) : Strand := lookupD s.strands n Strand.empty

def State.setStrand (s : State) (n : Nat) (x : Strand) : State :=
  { s with strands := insertAt s.strands n x }

def State.updStrand (s : State) (n : Nat) (f : Strand → Strand) : State :=
  s.setStrand n (f (s.strand n))

/-- The strand that issues (log 3). -/
def State.me (s : State) : Strand := s.strand s.cur

def State.updMe (s : State) (f : Strand → Strand) : State := s.updStrand s.cur f

def State.core (s : State) (c : Nat) : Core := lookupD s.cores c Core.empty

def State.updCore (s : State) (c : Nat) (f : Core → Core) : State :=
  { s with cores := insertAt s.cores c (f (s.core c)) }

def State.tenant (s : State) (t : Nat) : Tenant := lookupD s.tenants t Tenant.empty

def State.updTenant (s : State) (t : Nat) (f : Tenant → Tenant) : State :=
  { s with tenants := insertAt s.tenants t (f (s.tenant t)) }

def State.queue (s : State) (q : Nat) : Queue := lookupD s.queues q Queue.empty

def State.updQueue (s : State) (q : Nat) (f : Queue → Queue) : State :=
  { s with queues := insertAt s.queues q (f (s.queue q)) }

def State.chain (s : State) (c : Nat) : Chain := lookupD s.chains c Chain.empty

def State.updChain (s : State) (c : Nat) (f : Chain → Chain) : State :=
  { s with chains := insertAt s.chains c (f (s.chain c)) }

def State.key (s : State) (k : Nat) : KeySlot := lookupD s.keys k KeySlot.empty

def State.updKey (s : State) (k : Nat) (f : KeySlot → KeySlot) : State :=
  { s with keys := insertAt s.keys k (f (s.key k)) }

def State.seal (s : State) (m : Nat) : SealRecord := lookupD s.seals m SealRecord.empty

def State.updSeal (s : State) (m : Nat) (f : SealRecord → SealRecord) : State :=
  { s with seals := insertAt s.seals m (f (s.seal m)) }

def State.group (s : State) (k : Nat) : Group := lookupD s.groups k Group.empty

def State.updGroup (s : State) (k : Nat) (f : Group → Group) : State :=
  { s with groups := insertAt s.groups k (f (s.group k)) }

def State.peer (s : State) (p : Nat) : Peer := lookupD s.peers p { state := 0#2, gen := 0#32 }

/-- A compute die; a number past 3 reads as die 3 (no caller names one). -/
def State.die (s : State) (d : Nat) : Die :=
  if h : d < 4 then s.dies[d] else s.dies[3]

def State.updDie (s : State) (d : Nat) (f : Die → Die) : State :=
  { s with dies := s.dies.setIfInBounds d (f (s.die d)) }

/-- A counter record of a tenant (R83): level and index in one key. -/
def State.record (s : State) (t key : Nat) : Record := lookupD (s.tenant t).records key Record.empty

def State.updRecord (s : State) (t key : Nat) (f : Record → Record) : State :=
  s.updTenant t fun x => { x with records := insertAt x.records key (f (s.record t key)) }

/-- The records' key of a work identifier: level * 1024 + index (R82). -/
def recordKey (id : BitVec 32) : Nat :=
  (id.extractLsb' 30 2).toNat * 1024 + (id.extractLsb' 0 10).toNat

/-- The number of records of a level (R82). -/
def levelSize (level : Nat) : Nat :=
  if level = 0 then 512 else if level = 1 then 256 else if level = 2 then 64 else 16

/-- A work identifier of a level, generation and index (R82). -/
def workId (level gen index : Nat) : BitVec 32 :=
  BitVec.ofNat 32 (level * 2 ^ 30 + (gen % 2 ^ 20) * 1024 + index)

/-! Free values (log 4): each reads the counter that every step advances. -/

/-- A free value of the manual's open cases, the `i`-th of this step. -/
def State.free (s : State) (i : Nat) : Word := Config.freeWord (s.tick * 65536 + i)

/-- A free choice among `n` alternatives, below `n` when `n` is not 0. -/
def State.choose (s : State) (i n : Nat) : Nat := Config.freeChoice (s.tick * 65536 + i) n % n

/-- A fresh operation number. -/
def State.fresh (s : State) : Nat × State := (s.nextId, { s with nextId := s.nextId + 1 })

/-! The instruction caches (R8, R9). -/

/-- Sets and lines a set of the ways of a core's instruction cache that hold running code: seven ways of
16 KiB on a compute core, 64 KiB on a steward core. DESIGN CHOICE (log 61): a set is found by the address's
low bits, and a steward core's cache is one set. -/
def icacheSets (c : Nat) : Nat := if c % 64 < 36 then 256 else 1
def icacheWays (c : Nat) : Nat := if c % 64 < 36 then 7 else 1024

/-- The core's instruction cache holds a line; a full set gives up one of its lines, which the spec does not
name (log 61). DESIGN CHOICE (log 85): a line read through a leaf with NS = 1 is held like any other (R193). -/
def State.cacheLine (s : State) (c t line : Nat) (bits : BitVec 512) : State :=
  s.updCore c fun x =>
    let others := x.icache.filter fun l => !(l.tenant == t && l.line == line)
    let (set, rest) := others.partition fun l => l.line % icacheSets c == line % icacheSets c
    let kept := if icacheWays c ≤ set.length then set.eraseIdx (s.choose 8 set.length) else set
    { x with icache := ({ tenant := t, line := line, bits := bits } : CacheLine) :: (kept ++ rest) }

/-! The geography of the package. -/

/-- HBM's frames end here; to 0x07F_FFFF_FFFF holds no memory (R7). -/
def hbmEnd : Nat := 0x07C00000000

/-- The attached stack of a local HBM address (R7). -/
def stackOf (pa : Nat) : Nat := pa / 0xF80000000

/-- The die a local HBM address is homed on (R6, R170). -/
def homeDie (pa : Nat) : Nat := stackOf pa / 2

def windowBase : Nat := 0x80000000000
def windowEnd : Nat := 0xC0000000000
def controlBase : Nat := 0xF0000000000
def controlEnd : Nat := 0xF0400000000

/-- The frame-kind table's bytes end here (R52). -/
def kindTableEnd : Nat := 0xF00003E0000

/-- The package number of a physical address (R53). -/
def pkgOf (pa : Nat) : Nat := pa / 2 ^ 44

/-- The local address within its package (R53). -/
def localOf (pa : Nat) : Nat := pa % 2 ^ 44

/-- The kind of a local HBM frame (R55). -/
def State.frameKind (s : State) (pa : Nat) : Nat := (lookupD s.frames (pa / 65536) 0#4).toNat

/-- A core's key: die * 64 + physical slot, 36 + k for steward core k (R65). -/
def coreKey (die slot : Nat) : Nat := die * 64 + slot
def dieOfCore (c : Nat) : Nat := c / 64
def slotOfCore (c : Nat) : Nat := c % 64
def isSteward (c : Nat) : Bool := decide (36 ≤ c % 64)

/-- The scratchpad's lane slices and bytes (R129). -/
def spadSlices (c : Nat) : Nat := if isSteward c then 8 else 64
def spadBytes (c : Nat) : Nat := spadSlices c * 32768

/-- Strand slots of a core (R8, R9). -/
def strandSlots (c : Nat) : Nat := if isSteward c then 8 else 16

/-- The logical number of a physical slot (R76, R92). -/
def State.logicalCore (s : State) (c : Nat) : Nat :=
  if isSteward c then slotOfCore c - 36 else popBelow (s.die (dieOfCore c)).harvest (slotOfCore c)

/-- The core a strand works on: its place, or the core it is bound or dealt to. -/
def Strand.core (x : Strand) : Nat :=
  match x.place with
  | some p => p.core
  | none => match x.bound with
    | some c => c
    | none => x.dealt

/-- The full physical address of a local one (R53). -/
def State.fullAddr (s : State) (pa : Nat) : Nat := s.package.toNat * 2 ^ 44 + pa

/-- The physical address of a strand's page (R52, R24). -/
def State.ctxPage (s : State) (n : Nat) : Nat := s.fullAddr (0xF0100000000 + n * 0x20000)

/-- A tenant's memory slot (R271). -/
def State.memorySlot (s : State) (t : Nat) : Nat :=
  let x := s.tenant t
  if x.world = 0#6 then 0 else x.keySlot.toNat

/-- The key a slot holds, by name; names only grow (R267, R271). -/
def State.keyName (s : State) (slot : Nat) : Nat := (s.key slot).id

end Sys2Proof.Machine
end

