-- ==== Sys2Proof/Machine/Memory.lean ====
section
/-! DEFINITION. HBM as the base dies hold it: bytes, tags and the key of each block (R271), with what
a write does besides: the measured flag (R275), a ring's watched line (R98), held table entries
(R190); and the scratchpads, in either view (R130, R131). -/

namespace Sys2Proof.Machine

/-- The byte of a block under a reader's key: the stored byte when the key wrote the block, a value
the manual leaves open otherwise (R271). -/
def State.hbmByte (s : State) (key pa : Nat) : Byte :=
  let w := lookupD s.mkeys (pa / 64) 0
  let b := readByte s.mem pa
  if w = key then b else Config.garbledByte s.tick pa key w b

/-- `n` bytes of local HBM from an address up. -/
def State.hbmRead (s : State) (key pa : Nat) : Nat → List Byte
  | 0 => []
  | n + 1 => s.hbmByte key pa :: s.hbmRead key (pa + 1) n

/-- The tag of a block under a reader's key (R121, R271). -/
def State.hbmTag (s : State) (key pa : Nat) : Tag :=
  let w := lookupD s.mkeys (pa / 64) 0
  let t := lookupD s.mtags (pa / 64) 0#16
  if w = key then t else Config.garbledTag s.tick (pa / 64) key w t

/-- Bring a block under a writer's key before it is written in part (R271). -/
def State.rekeyBlock (s : State) (key block : Nat) : State :=
  if lookupD s.mkeys block 0 = key then s
  else
    { s with
      mem := writeBytes s.mem (64 * block) (s.hbmRead key (64 * block) 64)
      mtags := putAt s.mtags block (s.hbmTag key (64 * block))
      mkeys := insertAt s.mkeys block key }

/-- The tenants that are active, by number. -/
def State.activeTenants (s : State) : List Nat :=
  (s.tenants.filter fun e => e.2.state == 1#3).map fun e => e.1

/-- A write of bytes at `pa` clears the measured flag of every tenant whose measured set holds the
frame (R275). -/
def State.clearMeasured (s : State) (pa : Nat) : State :=
  { s with
    tenants := s.tenants.map fun e =>
      if e.2.measured && e.2.measFrames.contains (pa / 65536)
      then (e.1, { e.2 with measured := false }) else e }

/-- Remember the old value of a table entry that a write changes (R190): entries of table frames
may be held by the walker of every active tenant. -/
def State.noteStale (s : State) (pa : Nat) : State :=
  if s.frameKind pa = 1 then
    let old := wordOfBytes (s.hbmRead (s.keyName 0) (8 * (pa / 8)) 8)
    { s with
      stale := (s.activeTenants.map fun t =>
        ({ tenant := t, pa := 8 * (pa / 8), old := old } : StaleEntry)) ++ s.stale }
  else s

/-- CRC-32C's step over one bit, reflected (R99). -/
def crcBit (c : BitVec 32) : BitVec 32 :=
  if c.getLsbD 0 then (c >>> 1) ^^^ 0x82F63B78#32 else c >>> 1

/-- CRC-32C over bytes, before the final complement (R99). -/
def crcBytes (c : BitVec 32) : List Byte → BitVec 32
  | [] => c
  | b :: t =>
    let x := c ^^^ b.setWidth 32
    crcBytes (crcBit (crcBit (crcBit (crcBit (crcBit (crcBit (crcBit (crcBit x)))))))) t

/-- CRC-32C of bytes: initial value all ones, final complement (R99). -/
def crc32c (l : List Byte) : BitVec 32 := ~~~(crcBytes 0xFFFFFFFF#32 l)

/-- Whether a shadow copy is valid: SEQ not 0, words 4 to 6 zero, CHECK agreeing (R99). -/
def copyValid (x : Vector Word 8) : Bool :=
  x[0] != 0#64 && x[4] == 0#64 && x[5] == 0#64 && x[6] == 0#64 &&
  x[7] == (crc32c ((x.toList.take 7).flatMap fun w => bytesOf 8 w.toNat)).setWidth 64

/-- The copy in force: the valid copy with the larger SEQ (R99). DESIGN CHOICE (log 65): of two with equal
SEQ, copy A. -/
def Queue.inForce (q : Queue) : Option (Vector Word 8) :=
  match copyValid q.a, copyValid q.b with
  | true, true => if q.b[0].toNat > q.a[0].toNat then some q.b else some q.a
  | true, false => some q.a
  | false, true => some q.b
  | false, false => none

/-- A queue's OWNER, from the copy in force (R99). -/
def Queue.owner (q : Queue) : Option Nat := q.inForce.map fun x => x[1].toNat

/-- The ring's local address, from the copy in force (R99). -/
def ringBase (x : Vector Word 8) : Nat := localOf (x[2].toNat / 65536 * 65536)

/-- Wake the enabled queues whose watched line a write at block `pa / 64` touches (R98): the line of the copy
in force; while no copy is valid (R99), that of the last one read. DESIGN CHOICE (log 74): R98 names no line then. -/
def State.wakeQueues (s : State) (pa : Nat) : State :=
  { s with
    queues := s.queues.map fun e =>
      match e.2.inForce.or e.2.copy with
      | some c => if e.2.state != 0#3 && ringBase c / 64 == pa / 64
                  then (e.1, { e.2 with woken := true }) else e
      | none => e }

/-- One byte written to HBM by a writer's key, with all that a write does. -/
def State.hbmPutByte (s : State) (key pa : Nat) (b : Byte) : State :=
  let s := s.rekeyBlock key (pa / 64)
  { s with mem := writeByte s.mem pa b }

/-- Bytes to local HBM from an address up, under a key. -/
def State.hbmPut (s : State) (key pa : Nat) : List Byte → State
  | [] => s
  | b :: t => (s.hbmPutByte key pa b).hbmPut key (pa + 1) t

/-- The addresses of the 8-byte words that bytes `pa` to `pa + n - 1` touch. -/
def wordsTouched (pa n : Nat) : List Nat :=
  if n = 0 then []
  else (List.range ((pa + n - 1) / 8 - pa / 8 + 1)).map fun i => 8 * (pa / 8 + i)

/-- A write of bytes to local HBM by any agent (R271, R275, R98, R190). The block tags are left; a
block written whole is no longer poisoned (R257). -/
def State.hbmWrite (s : State) (key pa : Nat) (bytes : List Byte) : State :=
  let ws := wordsTouched pa bytes.length
  let s := ws.foldl (fun s a => ((s.noteStale a).clearMeasured a)) s
  let s := s.hbmPut key pa bytes
  let whole (b : Nat) : Bool := decide (pa ≤ 64 * b ∧ 64 * b + 64 ≤ pa + bytes.length)
  let s := { s with poison := s.poison.filter fun e => !whole e.1 }
  ws.foldl (fun s a => s.wakeQueues a) s

/-- Write a block's tag under a key (R131). -/
def State.hbmSetTag (s : State) (key pa : Nat) (t : Tag) : State :=
  let s := s.rekeyBlock key (pa / 64)
  { s with mtags := putAt s.mtags (pa / 64) t }

/-! The scratchpad. -/

/-- The lane address of a striped offset (R130). -/
def laneOfStriped (slices a : Nat) : Nat :=
  (a / 32 % slices) * 32768 + (a / (32 * slices) * 32 + a % 32)

/-- The striped offset of a lane address (R130). -/
def stripedOfLane (slices l : Nat) : Nat :=
  (l % 32768) / 32 * 32 * slices + (l / 32768) * 32 + l % 32

/-- The striped offset of a scratchpad address under SPACE 1 or 2 (R28, R130). -/
def spadOffset (c : Nat) (lane : Bool) (a : Nat) : Nat :=
  if lane then stripedOfLane (spadSlices c) a else a

/-- The tenant holds an allocation unit of a core's scratchpad by one of its SPAD entries (R73,
R129). -/
def Tenant.holdsUnit (x : Tenant) (c u : Nat) : Bool :=
  x.spad.toList.any fun e =>
    e.getLsbD 63 && (e.extractLsb' 56 3).toNat == dieOfCore c &&
    (e.extractLsb' 48 6).toNat == slotOfCore c &&
    decide ((e.extractLsb' 16 5).toNat ≤ u ∧ u < (e.extractLsb' 16 5).toNat + (e.extractLsb' 0 6).toNat)

/-- Check one byte's scratchpad address: the cause it raises, if any (R28, R129). -/
def State.spadCheck (s : State) (t c : Nat) (lane : Bool) (a : Nat) : Option Nat :=
  if spadBytes c ≤ a then some cNoMapping
  else if (s.tenant t).holdsUnit c (spadOffset c lane a / 65536) then none
  else some cPermission

/-- Bytes of a scratchpad, `n` from an address up in its view. -/
def State.spadRead (s : State) (c : Nat) (lane : Bool) (a : Nat) : Nat → List Byte
  | 0 => []
  | n + 1 => readByte (s.core c).spad (spadOffset c lane a) :: s.spadRead c lane (a + 1) n

def Core.putBytes (x : Core) (c : Nat) (lane : Bool) (a : Nat) : List Byte → Core
  | [] => x
  | b :: t =>
    ({ x with spad := writeByte x.spad (spadOffset c lane a) b }).putBytes c lane (a + 1) t

/-- Bytes to a scratchpad from an address up in its view; tags are left (R131), and a block written
whole is no longer poisoned (R257). -/
def State.spadWrite (s : State) (c : Nat) (lane : Bool) (a : Nat) (bytes : List Byte) : State :=
  let offs := (List.range bytes.length).map fun i => spadOffset c lane (a + i)
  s.updCore c fun x =>
    let y := x.putBytes c lane a bytes
    { y with poison := y.poison.filter fun b =>
        !((List.range 64).all fun i => offs.contains (64 * b + i)) }

/-- The tag of the striped block that holds an address (R131). -/
def State.spadTag (s : State) (c : Nat) (lane : Bool) (a : Nat) : Tag :=
  lookupD (s.core c).stags (spadOffset c lane a / 64) 0#16

def State.spadSetTag (s : State) (c : Nat) (lane : Bool) (a : Nat) (t : Tag) : State :=
  s.updCore c fun x => { x with stags := putAt x.stags (spadOffset c lane a / 64) t }

end Sys2Proof.Machine
end

