-- ==== Sys2Proof/Machine/Translate.lean ====
section
/-! DEFINITION. From a virtual address to where it leads: the walker (R185 to R190), the refusals of
a leaf (R57, R164, R181, R189, R246, R271), scope (R170, R171), and what the home refuses (R229,
R236, R246, R261, R265), in the order of R298. -/

namespace Sys2Proof.Machine

/-- Why an access, or an instruction, does not go through. -/
inductive Stop where
  /-- A cause, with the address TRAPADDR takes. -/
  | trap (cause : Nat) (addr : Word)
  /-- Not ready: nothing has happened, and the instruction is tried again. -/
  | wait
  /-- The same for want of an entry of the range scoreboard: the strand waits in line (R146). -/
  | entry
  /-- The same with an entry, for older ones it conflicts with (R144, R146). -/
  | conflict
  /-- The page at this address is not resident: the level of the invalid entry (R194). -/
  | miss (va : Word) (level : Nat)
  /-- The same in a pinned tenant (R194). -/
  | pinMiss (va : Word) (level : Nat)
  deriving DecidableEq, Repr

/-- Who asks: the kinds of access the refusals tell apart. -/
inductive Way where
  | scalar      -- ld, ldu, st: may reach the control region (R59)
  | atomic      -- atomics, fpub, the flow access of setvlf
  | vector
  | engine      -- copies, collectives, rred, absorbs (R139)
  | weights     -- mldw (R153)
  | fetch
  | seal        -- the seal forms and chlink: a control store (R277, R250)
  | cache       -- pref, cflush, cinv
  deriving DecidableEq, Repr

/-- An access to be checked. -/
structure Access where
  way   : Way
  read  : Bool
  write : Bool
  exec  : Bool
  width : Nat
  /-- The scope it names, if it names one (R171). -/
  scope : Option Nat
  deriving DecidableEq, Repr

/-- The outcome of a walk. -/
inductive Walk where
  | leaf (entry : Word) (level : Nat)
  | invalid (level : Nat)
  | malformed
  | refused (cause : Nat)
  deriving DecidableEq, Repr

/-- The table index of an address at a level, and the table's alignment in bits (R186). -/
def vaIndex (va : Word) (level : Nat) : Nat :=
  match level with
  | 3 => (va.extractLsb' 44 13).toNat
  | 2 => (va.extractLsb' 33 11).toNat
  | 1 => (va.extractLsb' 21 12).toNat
  | _ => (va.extractLsb' 16 5).toNat

def tableAlign (level : Nat) : Nat :=
  match level with
  | 3 => 65536
  | 2 => 16384
  | 1 => 32768
  | _ => 256

/-- Bits a leaf of a level maps (R186). -/
def leafBits (level : Nat) : Nat := if level = 2 then 33 else if level = 1 then 21 else 16

/-- A die's latch refuses a tenant's request: it bears another world, or its tenant has been torn down
(R265). -/
def State.latchRefuses (s : State) (t d : Nat) : Bool :=
  let x := s.die d
  let y := s.tenant t
  x.latch != 0#2 && (x.world != y.world || y.state != 1#3)

/-- The world and fence of a die refuse a tenant's request to what the die holds (R261, R265). -/
def State.dieRefuses (s : State) (t d : Nat) : Option Nat :=
  let x := s.die d
  if s.latchRefuses t d then some cWorldRefused
  else if x.fence = 2#2 then some cFencedDie
  else none

/-- One table entry as the walker reads it, under slot 0: the value in memory, or one a store has
replaced and no `tsync` covers (R190). -/
def State.readEntry (s : State) (t pa : Nat) : Word :=
  let now := wordOfBytes (s.hbmRead (s.keyName 0) pa 8)
  match (s.stale.filter fun e => e.tenant == t && e.pa == pa).map (·.old) with
  | [] => now
  | olds =>
    let i := s.choose (pa / 8 % 8192) (olds.length + 1)
    (now :: olds).getD i now

/-- The address of the next table, if a pointer entry is well formed (R187). -/
def State.pointerTarget (s : State) (e : Word) (level : Nat) : Option Nat :=
  let pa := (e.extractLsb' 8 48).toNat * 256
  if e.extractLsb' 4 4 = 0#4 ∧ e.extractLsb' 56 8 = 0#8 ∧ level ≠ 0 ∧
      pkgOf pa = s.package.toNat ∧ localOf pa < hbmEnd ∧ s.frameKind (localOf pa) = 1 ∧
      pa % tableAlign (level - 1) = 0 then some (localOf pa) else none

/-- A leaf entry is well formed at its level (R187, R188). -/
def leafOk (e : Word) (level : Nat) : Bool :=
  decide (level < 3) && (e.extractLsb' 8 2 == 2#2 || e.extractLsb' 56 8 == 0#8) &&
  decide ((e.extractLsb' 16 40).toNat * 65536 % 2 ^ leafBits level = 0)

/-- The walk from a table at a level down (R186, R187). -/
def State.walkFrom (s : State) (t : Nat) (va : Word) : (level table : Nat) → Walk
  | level, table =>
    let pa := table + 8 * vaIndex va level
    match s.dieRefuses t (homeDie pa) with
    | some c => .refused c
    | none =>
      let e := s.readEntry t pa
      if e.getLsbD 0 = false then .invalid level
      else if e.extractLsb' 1 3 = 0#3 then
        match s.pointerTarget e level, level with
        | some p, l + 1 => s.walkFrom t va l p
        | _, _ => .malformed
      else if e.getLsbD 2 && !e.getLsbD 1 then .malformed
      else if leafOk e level then .leaf e level else .malformed
  termination_by structural level => level

/-- The walk of an address in a tenant (R185, R187): the root frame is of kind 1. -/
def State.walk (s : State) (t : Nat) (va : Word) : Walk :=
  let root := localOf ((s.tenant t).root.toNat * 65536)
  if s.frameKind root = 1 ∧ root < hbmEnd then s.walkFrom t va 3 root else .malformed

/-- The leaf of a page, when its walk ends in one. -/
def State.leafAt (s : State) (t p : Nat) : Option Word :=
  match s.walk t (BitVec.ofNat 64 (65536 * p)) with
  | .leaf e _ => some e
  | _ => none

/-- A local control-region address lies in a range of R52. -/
def controlMapped (pa : Nat) : Bool :=
  decide (0xF0000000000 ≤ pa ∧ pa < kindTableEnd) ||
  decide (0xF0001000000 ≤ pa ∧ pa < 0xF0001050000) ||
  decide (0xF0002000000 ≤ pa ∧ pa < 0xF0003000000) ||
  decide (0xF0010000000 ≤ pa ∧ pa < 0xF0020000000) ||
  decide (0xF0100000000 ≤ pa ∧ pa < 0xF0300000000) ||
  decide (0xF0300000000 ≤ pa ∧ pa < 0xF0302000000) ||
  decide (0xF0302000000 ≤ pa ∧ pa < 0xF0303000000) ||
  decide (0xF0303000000 ≤ pa ∧ pa < 0xF0303400000) ||
  decide (0xF0304000000 ≤ pa ∧ pa < 0xF0305000000)

/-- A leaf has C = 1 or names a control-region frame, a vine leaf by C alone (R57). -/
def leafControl (e : Word) : Bool :=
  let frame := localOf ((e.extractLsb' 16 40).toNat * 65536)
  e.getLsbD 4 || (e.extractLsb' 8 2 != 2#2 && decide (controlBase ≤ frame ∧ frame < controlEnd))

/-- A leaf meets the conditions of R57 for a tenant. -/
def controlLeafOk (t : Nat) (e : Word) (level frame : Nat) : Bool :=
  e.getLsbD 4 && decide (level = 0) && e.extractLsb' 8 2 == 1#2 && !e.getLsbD 3 && !e.getLsbD 6 &&
  e.extractLsb' 10 6 == 0#6 && decide (controlBase ≤ localOf frame ∧ localOf frame < controlEnd) &&
  (decide (t = 0) || !decide (localOf frame < kindTableEnd))

/-- A tenant's address lies behind a leaf that reaches the control region, whatever else refuses an access
(R57, R59). -/
def State.meetsControl (s : State) (t : Nat) (va : Word) : Bool :=
  va.extractLsb' 57 7 == 0#7 && match s.walk t va with
    | .leaf e _ => leafControl e
    | .invalid _ | .malformed | .refused _ => false

/-- The rights of a leaf suffice for an access (R189). -/
def rightsOk (e : Word) (a : Access) : Bool :=
  (!a.read || e.getLsbD 1) && (!a.write || e.getLsbD 2) && (!a.exec || e.getLsbD 3)

/-- The local bases of a chain's replicas, one that is being filled included (R244, R249). -/
def Chain.bases (x : Chain) : List Nat :=
  (x.base.toList.take x.count.toNat ++ (x.append.map (·.2)).toList).map fun b => localOf (b.toNat * 65536)

/-- A local frame is a replica of a chain whose STATE is not 0 (R245). -/
def State.replicaFrame (s : State) (pa : Nat) : Bool :=
  s.chains.any fun e =>
    e.2.state != 0#3 && e.2.bases.any fun b => decide (b ≤ pa ∧ pa < b + e.2.size.toNat * 65536)

/-- A slot holds an active cask key bound to a tenant (R164, R167). -/
def State.caskUsable (s : State) (t slot : Nat) : Bool :=
  (s.key slot).state == 3#3 && (s.key slot).bind.toNat == t

/-- What a leaf that reaches the control region allows (R57, R59, R189, R52). DESIGN CHOICE (log 70): R298
does not place the ALIGNMENT of an access that is not 8 bytes wide among check 5; it comes here after
CONTROL_AUTHORITY and before PERMISSION. -/
def controlAccess (t : Nat) (e : Word) (level frame pa : Nat) (a : Access) (va : Word) :
    Except Stop Unit :=
  if !controlLeafOk t e level frame then .error (.trap cControlAuthority va)
  else
    match a.way with
    | .scalar =>
      if a.width ≠ 8 then .error (.trap cAlignment va)
      else if !rightsOk e a then .error (.trap cPermission va)
      else if controlMapped (localOf pa) then .ok () else .error (.trap cNoMapping va)
    | .seal =>
      if !rightsOk e a then .error (.trap cPermission va)
      else if controlMapped (localOf pa) then .ok () else .error (.trap cNoMapping va)
    | _ => .error (.trap cControlAuthority va)

/-- A tenant's memory slot holds its key: one that is being zeroised, or has been, serves no access (R269). -/
def State.slotOpen (s : State) (t : Nat) : Bool :=
  (s.tenant t).world == 0#6 || ((s.tenant t).keyValid && (s.key (s.memorySlot t)).state != 4#3)

/-- What a leaf of TYPE vine allows (R246, R269, R271, R189). -/
def State.vineAccess (s : State) (t : Nat) (e : Word) (level : Nat) (va : Word) :
    Except Stop Target :=
  let c := (e.extractLsb' 56 8).toNat
  let x := s.chain c
  let base := (e.extractLsb' 16 40).toNat * 65536
  if x.state = 0#3 ∨ x.owner.toNat ≠ t ∨ base + 2 ^ leafBits level > x.size.toNat * 65536 ∨
      e.getLsbD 6 ∨ e.getLsbD 5 ∨ (e.extractLsb' 10 6).toNat ≠ s.memorySlot t ∨ !s.slotOpen t then
    .error (.trap cPermission va)
  else .ok (.vine c (base + va.toNat % 2 ^ leafBits level) (s.keyName (s.memorySlot t)))

/-- What a leaf that names a local HBM frame allows (R55, R164, R181, R189, R245, R271). -/
def State.hbmAccess (s : State) (t : Nat) (e : Word) (pa : Nat) (a : Access) (va : Word) :
    Except Stop Target :=
  let kind := s.frameKind pa
  let key := (e.extractLsb' 10 6).toNat
  let typ := (e.extractLsb' 8 2).toNat
  let rc := e.getLsbD 6
  if kind = 4 ∨ s.replicaFrame pa ∨ typ = 3 ∨ (rc ∧ typ ≠ 0) ∨ (e.getLsbD 5 ∧ typ = 0) then
    .error (.trap cPermission va)
  else if kind = 3 then
    if typ ≠ 0 ∨ !e.getLsbD 1 ∨ e.getLsbD 3 ∨ rc ∨ !s.slotOpen t then .error (.trap cPermission va)
    else if !s.caskUsable t key then
      .error (.trap (if a.way = .weights then cCaskKey else cPermission) va)
    else if a.read || a.exec then
      match a.way with
      | .weights | .cache => .ok (.hbm pa (s.keyName (s.memorySlot t)) false)
      | .engine => .error (.trap cCaskCopy va)
      | _ => .error (.trap cCaskRead va)
    else .ok (.hbm pa (s.keyName (s.memorySlot t)) false)
  else if kind = 1 ∨ kind = 2 then
    if key ≠ 0 then .error (.trap cPermission va) else .ok (.hbm pa (s.keyName 0) rc)
  else if key ≠ s.memorySlot t ∨ !s.slotOpen t then .error (.trap cPermission va)
  else .ok (.hbm pa (s.keyName key) rc)

/-- What any other leaf allows: local HBM, a host window, or another package (R188, R189, R229,
R234). -/
def State.ordinaryAccess (s : State) (t : Nat) (e : Word) (level pa : Nat) (a : Access) (va : Word) :
    Except Stop Target :=
  let typ := (e.extractLsb' 8 2).toNat
  let loc := localOf pa
  let inWindow := decide (windowBase ≤ loc ∧ loc < windowEnd)
  -- a use of a local cask frame that R164 answers by itself
  let caskUse := typ == 0 && decide (pkgOf pa = s.package.toNat ∧ loc < hbmEnd) && s.frameKind loc == 3 &&
    (a.exec || a.read)
  if !rightsOk e a && !caskUse then .error (.trap cPermission va)
  else if typ = 2 then s.vineAccess t e level va
  else if pkgOf pa = s.package.toNat then
    if inWindow then
      if typ ≠ 3 ∨ e.extractLsb' 10 6 ≠ 0#6 ∨ e.getLsbD 6 then .error (.trap cPermission va)
      else .ok (.window ((loc - windowBase) / 2 ^ 38) ((loc - windowBase) % 2 ^ 38))
    else if typ = 3 then .error (.trap cPermission va)
    else if loc < hbmEnd then s.hbmAccess t e loc a va
    else if e.getLsbD 6 then .error (.trap cPermission va)
    else if e.getLsbD 5 ∧ typ = 0 then .error (.trap cPermission va)
    else .error (.trap cNoMapping va)
  else if inWindow ∨ typ = 3 ∨ e.getLsbD 6 ∨ (e.getLsbD 5 ∧ typ = 0) then
    .error (.trap cPermission va)
  else if loc < hbmEnd then .ok (.remote pa (s.peer (pkgOf pa)).gen)
  else .error (.trap cNoMapping va)

/-- Translate an address for an access: checks 1, 4 and 5 of R298 (R185, R187, R194, R57). A miss in
a tenant without a fault queue is NO_MAPPING; a pinned tenant's is PIN_MISS. DESIGN CHOICE (log 86): a leaf with PIN = 0
that gives PIN_MISS, where no entry is invalid, reports its own level. -/
def State.translate (s : State) (t : Nat) (va : Word) (a : Access) : Except Stop Target :=
  if va.extractLsb' 57 7 ≠ 0#7 then .error (.trap cNoMapping va)
  else
    let x := s.tenant t
    match s.walk t va with
    | .refused c => .error (.trap c va)
    | .malformed => .error (.trap cPermission va)
    | .invalid level =>
      if x.faultq = 0#40 then .error (.trap cNoMapping va)
      else if x.cls = 0#1 then .error (.miss va level)
      else .error (.pinMiss va level)
    | .leaf e level =>
      let frame := (e.extractLsb' 16 40).toNat * 65536
      let pa := frame + va.toNat % 2 ^ leafBits level
      if x.cls = 1#1 ∧ e.getLsbD 7 = false then .error (.pinMiss va level)
      else if leafControl e then
        match controlAccess t e level frame pa a va with
        | .error c => .error c
        | .ok _ =>
          if pkgOf pa = s.package.toNat then .ok (.control (localOf pa))
          else .ok (.remote pa (s.peer (pkgOf pa)).gen)
      else s.ordinaryAccess t e level pa a va

/-- The least scope whose instance around a strand of core `c` holds a target's home (R170). -/
def homeScope (c : Nat) : Target → Nat
  | .spad k _ _ => if k = c then 0 else if dieOfCore k = dieOfCore c then 1 else 2
  | .hbm pa _ _ => if homeDie pa = dieOfCore c then 1 else 2
  | .control _ => 2
  | .vine _ _ _ => 2
  | .remote _ _ => 3
  | .window _ _ => 4

/-- The address lies in a control region, its own package's or another's. -/
def inControl (pa : Nat) : Bool := decide (controlBase ≤ localOf pa ∧ localOf pa < controlEnd)

/-- A target in a control region, this package's or another's (R59, R61). -/
def Target.isControl : Target → Bool
  | .control _ => true
  | .remote pa _ => inControl pa
  | .spad _ _ _ | .hbm _ _ _ | .window _ _ | .vine _ _ _ => false

/-- The named scope misses the home (R171); a control access never misses (R59, R61). -/
def scopeMiss (c : Nat) (a : Access) (x : Target) : Bool :=
  match a.scope with
  | some sc => !x.isControl && decide (sc < homeScope c x)
  | none => false

/-- The generation a package runs under, which PEER may not name yet (R236). -/
def State.peerNow (s : State) (p : Nat) : BitVec 32 := lookupD s.peerGens p (s.peer p).gen

/-- A request to another package fails on its way (R236): the peer is not up, runs under another
generation than the translation recorded, or its link fails. -/
def State.peerFails (s : State) (pa : Nat) (gen : BitVec 32) : Bool :=
  let p := pkgOf pa
  (s.peer p).state != 1#2 || (s.peer p).gen != gen || s.peerNow p != gen || s.failing.contains p

/-- What the package that holds a remote address answers a request with, as it is met from here (R61,
R234): 0 when it serves it. -/
def State.peerCause (s : State) (pa : Nat) : Nat :=
  if inControl pa then (lookupD s.peerCtlRefuse pa 0#8).toNat else (lookupD s.peerRefuse (pa / 65536) 0#8).toNat

/-- The dies a chain's links lie on (R244). -/
def Chain.linkDies (x : Chain) : List Nat :=
  (List.range (min x.count.toNat 4)).map fun i => (x.links.extractLsb' (4 * i) 4).toNat

/-- What the home refuses (check 7 of R298), apart from the route of a host atomic. Stores to a gone
peer or a closed port are not refused: they are dropped and recorded (R236, R225). -/
def State.homeRefuses (s : State) (t : Nat) (a : Access) (va : Word) : Target → Except Stop Unit
  | .spad c _ _ =>
    match s.dieRefuses t (dieOfCore c) with
    | some x => .error (.trap x va)
    | none => .ok ()
  | .hbm pa _ _ =>
    match s.dieRefuses t (homeDie pa) with
    | some x => .error (.trap x va)
    | none => .ok ()
  | .control _ => .ok ()
  | .window w _ =>
    if (s.win.toList.getD w { base := 0#26, enable := false }).enable = false then
      .error (.trap cNoMapping va)
    else if (a.read ∨ a.way = .engine) ∧ (!s.linkUp || !s.busMaster) then
      .error (.trap cPeerGone va)
    else .ok ()
  | .remote pa gen =>
    -- a store is posted: dropped and recorded when it fails, but what the target refuses is precise
    let posted := !(a.read || a.exec || a.way == .engine)
    if s.peerFails pa gen then (if posted then .ok () else .error (.trap cPeerGone va))
    else if s.peerCause pa = 0 then .ok ()
    else .error (.trap (s.peerCause pa) va)
  | .vine c _ _ =>
    let x := s.chain c
    if x.linkDies.any (s.latchRefuses t) then
      .error (.trap cWorldRefused va)
    else if x.state = 4#3 then .error (.trap cChainBroken va)
    else if x.state = 1#3 ∨ x.state = 3#3 then .error .wait
    else .ok ()

/-- Checks 1 to 7 of R298 on one global address of `width` bytes that does not cross a page: where it
leads. Alignment, where the access demands it, is check 2. -/
def State.resolve (s : State) (t c : Nat) (va : Word) (a : Access) (aligned : Bool) :
    Except Stop Target := do
  if va.extractLsb' 57 7 ≠ 0#7 then .error (.trap cNoMapping va) else
  if aligned ∧ va.toNat % a.width ≠ 0 then .error (.trap cAlignment va) else
  let x ← s.translate t va a
  if scopeMiss c a x then .error (.trap cScopeMiss va) else
  s.homeRefuses t a va x
  .ok x

/-- The same under a SPACE value, 1 striped and 2 lane (R28): every byte of a scratchpad access is
checked (R129). -/
def State.resolveIn (s : State) (t c : Nat) (space : BitVec 2) (va : Word) (a : Access)
    (aligned : Bool) : Except Stop Target :=
  if space = 0#2 then s.resolve t c va a aligned
  else if aligned ∧ va.toNat % a.width ≠ 0 then .error (.trap cAlignment va)
  else
    let lane := space == 2#2
    match (List.range a.width).findSome? fun i => s.spadCheck t c lane (va.toNat + i) with
    | some cause => .error (.trap cause va)
    | none => do
      s.homeRefuses t a va (.spad c lane va.toNat)
      .ok (.spad c lane va.toNat)

end Sys2Proof.Machine
end

