-- ==== Sys2Proof/Machine/Access.lean ====
section
/-! DEFINITION. Reading and writing what a checked address leads to: memory, scratchpads, vine chains
(R247), host windows (R229), other packages (R236); race records (R183, R184) and poison (R257). -/

namespace Sys2Proof.Machine

/-! The cellars (R134, R248). They hold no data of their own: block numbers say which lines they hold. -/

/-- Lines of a cellar: 40 MiB (R134). -/
def cellarLinesMax : Nat := 655360

/-- Lines enter the cellar of a die, which gives up the oldest beyond its size. DESIGN CHOICE (log 48): the
spec names no replacement, and no result shows it. -/
def State.fillCellar (s : State) (d : Nat) (blocks : List Nat) : State :=
  if blocks.isEmpty then s
  else s.updDie d fun x => { x with cellar := ((blocks ++ x.cellar).eraseDups).take cellarLinesMax }

/-- Lines leave the cellar of a die. -/
def State.dropCellar (s : State) (d : Nat) (blocks : List Nat) : State :=
  s.updDie d fun x => { x with cellar := x.cellar.filter fun b => !blocks.contains b }

/-! Vine chains. -/

/-- The local addresses of a byte of a chain's region in each replica (R244). -/
def Chain.replicas (x : Chain) (off : Nat) : List Nat :=
  (List.range (min x.count.toNat 4)).map fun i =>
    localOf ((x.base.toList.getD i 0#40).toNat * 65536) + off

/-- A link applies a write to its replica, bytes and a tag if one comes with them (R247); its cellar drops the
line (R248). -/
def State.linkApply (s : State) (key pa : Nat) (bytes : List Byte) (tag : Option Tag) : State :=
  let s := (s.hbmWrite key pa bytes).dropCellar (homeDie pa) ((wordsTouched pa bytes.length).map (· / 64))
  match tag with
  | some t => s.hbmSetTag key pa t
  | none => s

/-- Acceptance at the tail (R247). DEDUCED (log 23): every replica takes the write then; a link that has applied it
earlier shows that only when it is lost, since nothing reads a replica but through its chain. -/
def State.vineApply (s : State) (c key : Nat) (off : Nat) (bytes : List Byte) (tag : Option Tag) :
    State :=
  ((s.chain c).replicas off).foldl (fun s pa => s.linkApply key pa bytes tag) s

/-- The key a strand's or tenant's vine write bears (R271). -/
def State.chainKey (s : State) (c : Nat) : Nat :=
  s.keyName (s.memorySlot (s.chain c).owner.toNat)

/-- The tail accepts the oldest write in flight (R247). -/
def State.vineAcceptOne (s : State) (c : Nat) : State :=
  match (s.chain c).inflight with
  | [] => s
  | w :: r =>
    let s := s.vineApply c (s.chainKey c) w.offset w.bytes w.tag
    s.updChain c fun x => { x with inflight := r, accepted := x.accepted + 1#64 }

/-- The tail accepts `n` writes. -/
def State.vineAcceptN (s : State) (c : Nat) : Nat → State
  | 0 => s
  | n + 1 => (s.vineAcceptOne c).vineAcceptN c n

/-- How many writes in flight stand up to the last one a test picks, the last included. -/
def lastIndex {α : Type} (p : α → Bool) (l : List α) : Nat :=
  l.length - (l.reverse.takeWhile fun x => !p x).length

/-- Accept what a strand's own earlier writes to a chain wait for, so that its load sees them
(R172, R180). -/
def State.vineDrain (s : State) (c n : Nat) : State :=
  s.vineAcceptN c (lastIndex (fun w => w.strand == some n) (s.chain c).inflight)

/-- A strand has a vine write of its own in flight, apart from its engine operations' (R174, R180). -/
def State.vineOpen (s : State) (n : Nat) : Bool :=
  s.chains.any fun e => e.2.inflight.any fun w => w.strand == some n && w.op.isNone

/-- Every write in flight of a chain accepted. -/
def State.vineDrainAll (s : State) (c : Nat) : State :=
  s.vineAcceptN c (s.chain c).inflight.length

/-- A write passes the head of a chain, whose cellar drops the line (R248). -/
def State.passHead (s : State) (c off n : Nat) : State :=
  match (s.chain c).replicas off with
  | pa :: _ => s.dropCellar (homeDie pa) ((wordsTouched pa n).map (· / 64))
  | [] => s

/-- A strand's vine write enters its chain at the head, or is dropped and counted while the strand's
VINE is not 0 (R247, R252). -/
def State.vineSend (s : State) (n c : Nat) (va : Word) (off : Nat) (bytes : List Byte)
    (tag : Option Tag) (op : Option Nat) : State :=
  if (s.strand n).vineLost ≠ 0#32 then
    s.updStrand n fun x => { x with vineLost := satAdd x.vineLost 1 }
  else
    (s.passHead c off bytes.length).updChain c fun x =>
      { x with inflight := x.inflight ++
          [{ strand := some n, va := va, offset := off, bytes := bytes, tag := tag, op := op }] }

/-! The host and other packages. -/

/-- The host address of a window access (R229). -/
def State.hostAddr (s : State) (w off : Nat) : Nat :=
  (s.win.toList.getD w { base := 0#26, enable := false }).base.toNat * 2 ^ 38 + off

/-- A posted store that is dropped: counted in RSTAT, the first one's address in RADDR (R225, R236, R237). DESIGN
CHOICE (log 77): one that fails after RSTAT was discharged leaves `returned` set. -/
def State.remoteLost (s : State) (n : Nat) (va : Word) : State :=
  s.updStrand n fun x =>
    { x with
      raddr := if x.rCount = 0#16 then va.setWidth 57 else x.raddr
      rCause := BitVec.ofNat 8 cPeerGone
      rCount := satAdd x.rCount 1 }

/-- A remote store is posted, or dropped when its peer is not up with the generation of its
translation (R236, R237). -/
def State.remoteSend (s : State) (n : Nat) (va : Word) (pa : Nat) (gen : BitVec 32)
    (bytes : List Byte) (tag : Option Tag) : State :=
  if !s.peerFails pa gen then
    { s with
      nextId := s.nextId + 1
      remote := insertAt s.remote s.nextId
        { strand := n, va := va, pa := pa, bytes := bytes, tag := tag, gen := gen } }
  else s.remoteLost n va

/-- Stores reach the other packages' memory, in the order given. -/
def State.remoteReach (s : State) (l : Table RemoteStore) : State :=
  l.foldl (fun s e =>
    { s with
      peerMem := writeBytes s.peerMem e.2.pa e.2.bytes
      peerTags := match e.2.tag with
        | some t => putAt s.peerTags (e.2.pa / 64) t
        | none => s.peerTags }) s

/-- Remote stores of the package that are still in flight reach the other packages' memory before a
load of it, in the order in which they were sent (R172). -/
def State.remoteDrain (s : State) : State :=
  { s.remoteReach s.remote with
    remote := mapTable s.remote fun _ r => { r with bytes := [], tag := none } }

/-- A window request that is answered within a step succeeds, or is refused, or times out: a free choice
(R229). -/
def State.windowAnswer (s : State) (e : Nat) (x : Target) (n : Nat) : Nat :=
  match x with
  | .window _ _ => s.choose (16384 + e) n
  | .spad _ _ _ | .hbm _ _ _ | .control _ | .remote _ _ | .vine _ _ _ => 0

/-! Targets. -/

/-- The bytes a target holds (a control page is read by its own operation). -/
def State.readTarget (s : State) (x : Target) (n : Nat) : List Byte :=
  match x with
  | .spad c lane a => s.spadRead c lane a n
  | .hbm pa key _ => s.hbmRead key pa n
  | .control _ => List.replicate n 0#8
  | .window w off => readBytes s.hostMem (s.hostAddr w off) n
  | .remote pa _ => readBytes s.peerMem pa n
  | .vine c off key =>
    match (s.chain c).replicas off with
    | pa :: _ => s.hbmRead key pa n
    | [] => List.replicate n 0#8

/-- The tag of the block a target lies in; a window gives 0 (R229). -/
def State.tagTarget (s : State) (x : Target) : Tag :=
  match x with
  | .spad c lane a => s.spadTag c lane a
  | .hbm pa key _ => s.hbmTag key pa
  | .remote pa _ => lookupD s.peerTags (pa / 64) 0#16
  | .vine c off key =>
    match (s.chain c).replicas off with
    | pa :: _ => s.hbmTag key pa
    | [] => 0#16
  | .control _ | .window _ _ => 0#16

/-- The cellar of a die may hold a page's lines: normal memory of the package, and vine memory on a die
that is a link (R134, R248). -/
def State.cellarMayHold (s : State) (d : Nat) (leaf : Word) (x : Target) : Bool :=
  match x with
  | .hbm _ _ _ => leaf.extractLsb' 8 2 == 0#2
  | .vine c _ _ => (s.chain c).linkDies.contains d
  | _ => false

/-- The local HBM blocks behind a target, for offsets from it: those a cellar could hold. -/
def State.cellarBlocks (s : State) (x : Target) (offs : List Nat) : List Nat :=
  match x with
  | .hbm pa _ _ => (offs.map fun o => (pa + o) / 64).eraseDups
  | .vine c off _ => (s.chain c).replicas off |>.flatMap fun pa => (offs.map fun o => (pa + o) / 64).eraseDups
  | .spad _ _ _ | .control _ | .window _ _ | .remote _ _ => []

/-- A write to the line at an offset is on its way to the tail (R247). -/
def Chain.dirty (x : Chain) (off : Nat) : Bool :=
  x.inflight.any fun w => decide (w.offset < off / 64 * 64 + 64 ∧ off / 64 * 64 < w.offset + w.bytes.length)

/-- Those that the cellar of a die takes: of a chain's lines, the ones that its own link holds clean
(R248). -/
def State.cellarLines (s : State) (d : Nat) (x : Target) (offs : List Nat) : List Nat :=
  match x with
  | .vine c off _ =>
    (s.cellarBlocks x (offs.filter fun o => !(s.chain c).dirty (off + o))).filter fun b => homeDie (64 * b) == d
  | x => s.cellarBlocks x offs

/-- A load of the issuing strand brings the lines it reads into its die's cellar (R134). -/
def State.allocate (s : State) (va : Word) (x : Target) (n : Nat) : State :=
  let d := dieOfCore s.me.core
  match s.leafAt s.me.owner.toNat (va.toNat / 65536) with
  | some e => if s.cellarMayHold d e x then s.fillCellar d (s.cellarLines d x (List.range n)) else s
  | none => s

/-- The target some bytes further on. -/
def Target.offset (x : Target) (o : Nat) : Target :=
  match x with
  | .spad c lane a => .spad c lane (a + o)
  | .hbm pa key r => .hbm (pa + o) key r
  | .control pa => .control (pa + o)
  | .window w off => .window w (off + o)
  | .remote pa g => .remote (pa + o) g
  | .vine c off key => .vine c (off + o) key

/-- Bytes, and perhaps a tag for the block, stored to a target by a strand or by an operation of
it. -/
def State.writeTarget (s : State) (n : Nat) (va : Word) (x : Target) (bytes : List Byte)
    (tag : Option Tag) (op : Option Nat) : State :=
  match x with
  | .spad c lane a =>
    let s := s.spadWrite c lane a bytes
    match tag with
    | some t => s.spadSetTag c lane a t
    | none => s
  | .hbm pa key _ =>
    let s := s.hbmWrite key pa bytes
    match tag with
    | some t => s.hbmSetTag key pa t
    | none => s
  | .control _ => s
  | .window w off =>
    if s.linkUp && s.busMaster then
      { s with hostMem := writeBytes s.hostMem (s.hostAddr w off) bytes }
    else s.remoteLost n va
  | .remote pa gen => s.remoteSend n va pa gen bytes tag
  | .vine c off _ => s.vineSend n c va off bytes tag op

/-- Before a strand reads a target, writes on the way there are applied: its own to a chain, the
package's to another (R172, R180). -/
def State.settleTarget (s : State) (n : Nat) (x : Target) : State :=
  match x with
  | .vine c _ _ => s.vineDrain c n
  | .remote _ _ => s.remoteDrain
  | .spad _ _ _ | .hbm _ _ _ | .control _ | .window _ _ => s

/-! Race-checked pages (R181 to R184). -/

/-- A record's access lies in an open region (R182): its strand's current one, or that of an operation
that has not read everything, or for a write not written everything. -/
def State.recordOpen (s : State) (e : RaceRecord) : Bool :=
  let x := s.strand e.strand
  (x.region == e.region && x.state != 0#4 && x.state != 5#4 && x.state != 6#4 && x.state != 7#4) ||
  match e.op with
  | none => false
  | some i => s.ops.any fun o => o.1 == i && (e.write || !o.2.released)

/-- Records of closed regions are freed (R184). -/
def State.sweepRaces (s : State) : State :=
  { s with races := s.races.filter s.recordOpen }

/-- An access to granules of a race-checked page: the cause it meets, or the records it adds (R183,
R184). -/
def State.raceCheck (s : State) (n r pa len : Nat) (write atomic : Bool) (op : Option Nat) :
    Except Nat State :=
  let gs := wordsTouched pa len
  if gs.any fun g => s.races.any fun e =>
      e.granule == g && e.strand != n && (e.write || write) && !(e.atomic && atomic) then
    .error cMemoryRace
  else
    let fresh := gs.filter fun g => !(s.races.any fun e => e.granule == g)
    let die := homeDie pa
    let held := ((s.races.map (·.granule)).filter fun g => homeDie g == die).eraseDups.length
    if 16384 < held + fresh.length then .error cRaceCapacity
    else .ok { s with races := (gs.map fun g =>
      ({ granule := g, strand := n, region := r, write := write, atomic := atomic
         op := op } : RaceRecord))
        ++ s.races }

/-- The race check of a target, by a strand in its open region or by an operation of it. -/
def State.raceTarget (s : State) (n r : Nat) (va : Word) (x : Target) (len : Nat)
    (write atomic : Bool) (op : Option Nat := none) : Except Stop State :=
  match x with
  | .hbm pa _ true =>
    match s.raceCheck n r pa len write atomic op with
    | .ok s => .ok s
    | .error c => .error (.trap c va)
  | _ => .ok s

/-- A strand's synchronising instruction completes: the open region closes and the next opens
(R182). -/
def State.newRegion (s : State) (n : Nat) : State :=
  let s := { s with nextRegion := s.nextRegion + 1 }
  let s := s.updStrand n fun x => { x with region := s.nextRegion }
  s.sweepRaces

/-! Poison (R257). -/

/-- The fewest die hops between dies: along the chain of compute dies, or by the hub die, which is one hop from each
(R6). -/
def dieHops (d e : Nat) : Nat :=
  if d = e then 0 else if 3 < d then 1 else min 2 (if d < e then e - d else d - e)

/-- The links nearest to a die, by number (R248). -/
def Chain.nearest (x : Chain) (d : Nat) : List Nat :=
  let hops (i : Nat) : Nat := dieHops d (x.linkDies.getD i 4)
  (List.range x.linkDies.length).filter fun i => (List.range x.linkDies.length).all fun j => decide (hops i ≤ hops j)

/-- The replica that serves a read of a chain by a requester on a die: the nearest link's, the tail's for a line
that one holds dirty (R248); the head's for an atomic, which comes from no die (R247). DESIGN CHOICE (log 81): of
links equally near, one that the spec does not name. -/
def State.servedBy (s : State) (d : Option Nat) (c off : Nat) : Option Nat :=
  let x := s.chain c
  let l := x.replicas off
  match d with
  | none => l.head?
  | some d =>
    let near := x.nearest d
    if x.dirty off then l.getLast? else l[near.getD (s.choose 12 near.length) 0]?

/-- A read of a target meets poisoned data: by a requester on a die, or an atomic at a chain's head. -/
def State.poisonedAt (s : State) (d : Option Nat) (x : Target) (n : Nat) : Bool :=
  match x with
  | .hbm pa _ _ => (List.range ((pa + n - 1) / 64 - pa / 64 + 1)).any fun i =>
      hasKey s.poison (pa / 64 + i)
  | .spad c lane a => (List.range n).any fun i =>
      (s.core c).poison.contains (spadOffset c lane (a + i) / 64)
  | .vine c off _ => (s.servedBy d c off).any fun pa => hasKey s.poison (pa / 64)
  | .control _ | .window _ _ | .remote _ _ => false

/-- A read of the issuing strand does. -/
def State.poisoned (s : State) (x : Target) (n : Nat) : Bool := s.poisonedAt (some (dieOfCore s.me.core)) x n

/-- Consuming poison that was only in a cached line drops the line, and the next read refetches it
from HBM (R257). -/
def State.dropPoison (s : State) (d : Nat) (x : Target) (n : Nat) : State :=
  match x with
  | .hbm pa _ _ =>
    { s with poison := s.poison.filter fun e =>
        !(e.2 && decide (pa / 64 ≤ e.1 ∧ e.1 ≤ (pa + n - 1) / 64)) }
  | .vine c off _ =>
    { s with poison := s.poison.filter fun e =>
        !(e.2 && (s.servedBy (some d) c off).any fun pa => pa / 64 == e.1) }
  | _ => s

end Sys2Proof.Machine
end

