-- ==== Sys2Proof/Machine/Crypto.lean ====
section
/-! DEFINITION. The algorithms of the Beryl root that the manual names: SHA-384 (R274, R280),
AES-256-GCM (R165, R270), HKDF-SHA-384 and ECDH over P-384 (R270), ECDSA over P-384 (R280). The
manual defines none of them: they are those of FIPS 180-4, FIPS 197, SP 800-38D, RFC 2104, RFC 5869,
FIPS 186-5 and SP 800-56A (PRESUMED, log 10). -/

namespace Sys2Proof.Machine

/-- The bytes of a value, most significant first, as the standards write integers. -/
def bytesBE (n v : Nat) : List Byte := (bytesOf n v).reverse

/-- The value of bytes, most significant first. -/
def natBE (l : List Byte) : Nat := natOfBytes l.reverse

/-! SHA-384. -/

def shaConstants : List Word :=
  [0x428A2F98D728AE22#64, 0x7137449123EF65CD#64, 0xB5C0FBCFEC4D3B2F#64, 0xE9B5DBA58189DBBC#64,
    0x3956C25BF348B538#64, 0x59F111F1B605D019#64, 0x923F82A4AF194F9B#64, 0xAB1C5ED5DA6D8118#64] ++
  [0xD807AA98A3030242#64, 0x12835B0145706FBE#64, 0x243185BE4EE4B28C#64, 0x550C7DC3D5FFB4E2#64,
    0x72BE5D74F27B896F#64, 0x80DEB1FE3B1696B1#64, 0x9BDC06A725C71235#64, 0xC19BF174CF692694#64] ++
  [0xE49B69C19EF14AD2#64, 0xEFBE4786384F25E3#64, 0x0FC19DC68B8CD5B5#64, 0x240CA1CC77AC9C65#64,
    0x2DE92C6F592B0275#64, 0x4A7484AA6EA6E483#64, 0x5CB0A9DCBD41FBD4#64, 0x76F988DA831153B5#64] ++
  [0x983E5152EE66DFAB#64, 0xA831C66D2DB43210#64, 0xB00327C898FB213F#64, 0xBF597FC7BEEF0EE4#64,
    0xC6E00BF33DA88FC2#64, 0xD5A79147930AA725#64, 0x06CA6351E003826F#64, 0x142929670A0E6E70#64] ++
  [0x27B70A8546D22FFC#64, 0x2E1B21385C26C926#64, 0x4D2C6DFC5AC42AED#64, 0x53380D139D95B3DF#64,
    0x650A73548BAF63DE#64, 0x766A0ABB3C77B2A8#64, 0x81C2C92E47EDAEE6#64, 0x92722C851482353B#64] ++
  [0xA2BFE8A14CF10364#64, 0xA81A664BBC423001#64, 0xC24B8B70D0F89791#64, 0xC76C51A30654BE30#64,
    0xD192E819D6EF5218#64, 0xD69906245565A910#64, 0xF40E35855771202A#64, 0x106AA07032BBD1B8#64] ++
  [0x19A4C116B8D2D0C8#64, 0x1E376C085141AB53#64, 0x2748774CDF8EEB99#64, 0x34B0BCB5E19B48A8#64,
    0x391C0CB3C5C95A63#64, 0x4ED8AA4AE3418ACB#64, 0x5B9CCA4F7763E373#64, 0x682E6FF3D6B2B8A3#64] ++
  [0x748F82EE5DEFB2FC#64, 0x78A5636F43172F60#64, 0x84C87814A1F0AB72#64, 0x8CC702081A6439EC#64,
    0x90BEFFFA23631E28#64, 0xA4506CEBDE82BDE9#64, 0xBEF9A3F7B2C67915#64, 0xC67178F2E372532B#64] ++
  [0xCA273ECEEA26619C#64, 0xD186B8C721C0C207#64, 0xEADA7DD6CDE0EB1E#64, 0xF57D4F7FEE6ED178#64,
    0x06F067AA72176FBA#64, 0x0A637DC5A2C898A6#64, 0x113F9804BEF90DAE#64, 0x1B710B35131C471B#64] ++
  [0x28DB77F523047D84#64, 0x32CAAB7B40C72493#64, 0x3C9EBE0A15C9BEBC#64, 0x431D67C49C100D4C#64,
    0x4CC5D4BECB3E42B6#64, 0x597F299CFC657E2A#64, 0x5FCB6FAB3AD6FAEC#64, 0x6C44198C4A475817#64]

/-- The eight words of a hash in progress, a to h. -/
def shaInitial : List Word :=
  [0xCBBB9D5DC1059ED8#64, 0x629A292A367CD507#64, 0x9159015A3070DD17#64, 0x152FECD8F70E5939#64,
    0x67332667FFC00B31#64, 0x8EB44A8768581511#64, 0xDB0C2E0D64F98FA7#64, 0x47B5481DBEFA4FA4#64]

/-- Three rotations, or two and a shift, combined: the four sigma functions. -/
def shaMix (x : Word) (i j : Nat) (third : Word) : Word := x.rotateRight i ^^^ x.rotateRight j ^^^ third

/-- `n` more words of the message schedule; the list runs newest first. -/
def shaSchedule : Nat → List Word → List Word
  | 0, l => l
  | n + 1, l =>
    let w (k : Nat) : Word := l.getD k 0#64
    let small1 := shaMix (w 1) 19 61 (w 1 >>> 6)
    let small0 := shaMix (w 14) 1 8 (w 14 >>> 7)
    shaSchedule n ((small1 + w 6 + small0 + w 15) :: l)

/-- One round, with its constant and schedule word. -/
def shaRound (v : List Word) (k w : Word) : List Word :=
  match v with
  | [a, b, c, d, e, f, g, h] =>
    let choose := (e &&& f) ^^^ (~~~e &&& g)
    let majority := (a &&& b) ^^^ (a &&& c) ^^^ (b &&& c)
    let t1 := h + shaMix e 14 18 (e.rotateRight 41) + choose + k + w
    let t2 := shaMix a 28 34 (a.rotateRight 39) + majority
    [t1 + t2, a, b, c, d + t1, e, f, g]
  | _ => v

/-- The hash after `n` blocks of 128 bytes. -/
def shaBlocks : Nat → List Byte → List Word → List Word
  | 0, _, v => v
  | n + 1, m, v =>
    let words := (List.range 16).map fun i => BitVec.ofNat 64 (natBE ((m.drop (8 * i)).take 8))
    let rounds := shaConstants.zip (shaSchedule 64 words.reverse).reverse
    shaBlocks n (m.drop 128)
      (v.zipWith (· + ·) (rounds.foldl (fun v e => shaRound v e.1 e.2) v))

/-- SHA-384: 48 bytes (log 10). -/
def sha384 (m : List Byte) : List Byte :=
  let padded := m ++ [0x80#8] ++ List.replicate ((239 - m.length % 128) % 128) 0#8 ++
    bytesBE 16 (8 * m.length)
  (shaBlocks (padded.length / 128) padded shaInitial).flatMap (fun w => bytesBE 8 w.toNat) |>.take 48

/-- SHA-384 as a field of 48 bytes holds it, its first byte lowest (R274, R276, log 10). -/
def digestOf (m : List Byte) : BitVec 384 := BitVec.ofNat 384 (natOfBytes (sha384 m))

/-- HMAC-SHA-384. -/
def hmac (key m : List Byte) : List Byte :=
  let k := if 128 < key.length then sha384 key else key
  let pad (x : Byte) : List Byte := (k ++ List.replicate (128 - k.length) 0#8).map (· ^^^ x)
  sha384 (pad 0x5C#8 ++ sha384 (pad 0x36#8 ++ m))

/-- The first 32 bytes of HKDF-SHA-384. -/
def hkdf (salt secret info : List Byte) : List Byte :=
  (hmac (hmac salt secret) (info ++ [1#8])).take 32

/-! AES-256, on blocks of sixteen bytes, a column of four after the other. -/

/-- Multiplication by x in the field of the cipher. -/
def aesDouble (b : Byte) : Byte := (b <<< 1) ^^^ (if b.msb then 0x1B#8 else 0#8)

/-- The substitution table, row by row from the last, the byte for 0 lowest. -/
def aesTable : BitVec 2048 :=
    0x16BB54B00F2D99416842E6BF0D89A18C#128 ++
    0xDF2855CEE9871E9B948ED9691198F8E1#128 ++
    0x9E1DC186B95735610EF6034866B53E70#128 ++
    0x8A8BBD4B1F74DDE8C6B4A61C2E2578BA#128 ++
    0x08AE7A65EAF4566CA94ED58D6D37C8E7#128 ++
    0x79E4959162ACD3C25C2406490A3A32E0#128 ++
    0xDB0B5EDE14B8EE4688902A22DC4F8160#128 ++
    0x73195D643D7EA7C41744975FEC130CCD#128 ++
    0xD2F3FF1021DAB6BCF5389D928F40A351#128 ++
    0xA89F3C507F02F94585334D43FBAAEFD0#128 ++
    0xCF584C4A39BECB6A5BB1FC20ED00D153#128 ++
    0x842FE329B3D63B52A05A6E1B1A2C8309#128 ++
    0x75B227EBE28012079A059618C323C704#128 ++
    0x1531D871F1E5A534CCF73F362693FDB7#128 ++
    0xC072A49CAFA2D4ADF04759FA7DC982CA#128 ++
    0x76ABD7FE2B670130C56F6BF27B777C63#128

/-- The substitution of a byte. -/
def aesSub (x : Byte) : Byte := aesTable.extractLsb' (8 * x.toNat) 8

def xorBytes (a b : List Byte) : List Byte := a.zipWith (· ^^^ ·) b

/-- `n` more words of the key schedule, from word `i` on; the list runs newest first. -/
def aesExpand : (n i : Nat) → List (List Byte) → List (List Byte)
  | 0, _, l => l
  | n + 1, i, l =>
    let last := l.getD 0 []
    let t := if i % 8 = 0 then
        xorBytes ((last.drop 1 ++ last.take 1).map aesSub) [1#8 <<< (i / 8 - 1), 0#8, 0#8, 0#8]
      else if i % 8 = 4 then last.map aesSub else last
    aesExpand n (i + 1) (xorBytes (l.getD 7 []) t :: l)

/-- The fifteen round keys of a key of 32 bytes. -/
def aesKeys (key : List Byte) : List (List Byte) :=
  let words := (List.range 8).map fun i => (key.drop (4 * i)).take 4
  let all := (aesExpand 52 8 words.reverse).reverse
  (List.range 15).map fun r => ((all.drop (4 * r)).take 4).flatten

/-- SubBytes and ShiftRows. -/
def aesShift (x : List Byte) : List Byte :=
  (List.range 16).map fun i => aesSub (x.getD ((i + 4 * (i % 4)) % 16) 0#8)

/-- MixColumns. -/
def aesMix (x : List Byte) : List Byte :=
  (List.range 16).map fun i =>
    let at' (k : Nat) : Byte := x.getD (i / 4 * 4 + (i + k) % 4) 0#8
    aesDouble (at' 0 ^^^ at' 1) ^^^ at' 1 ^^^ at' 2 ^^^ at' 3

/-- The rounds after the first key is added; the last mixes no columns. -/
def aesRounds : List (List Byte) → List Byte → List Byte
  | [], x => x
  | [k], x => xorBytes (aesShift x) k
  | k :: l, x => aesRounds l (xorBytes (aesMix (aesShift x)) k)

/-- A block encrypted under round keys. -/
def aesBlock (keys : List (List Byte)) (x : List Byte) : List Byte :=
  match keys with
  | [] => x
  | k :: l => aesRounds l (xorBytes x k)

/-! GCM. -/

/-- The product of two blocks, by the top `n` bits of the first. -/
def ghashMul : (n : Nat) → (x v z : BitVec 128) → BitVec 128
  | 0, _, _, z => z
  | n + 1, x, v, z =>
    ghashMul n (x <<< 1) ((v >>> 1) ^^^ (if v.getLsbD 0 then 0xE1#128 <<< 120 else 0#128))
      (if x.msb then z ^^^ v else z)

/-- The running hash over `n` blocks, the last padded with zeros. -/
def ghash (h : BitVec 128) : (n : Nat) → List Byte → BitVec 128 → BitVec 128
  | 0, _, y => y
  | n + 1, l, y =>
    let block := l.take 16 ++ List.replicate (16 - (l.take 16).length) 0#8
    ghash h n (l.drop 16) (ghashMul 128 (y ^^^ BitVec.ofNat 128 (natBE block)) h 0#128)

/-- `n` blocks combined with the key stream from counter `i` on. -/
def gcmStream (keys : List (List Byte)) (iv : List Byte) : (n i : Nat) → List Byte → List Byte
  | 0, _, _ => []
  | n + 1, i, l =>
    xorBytes (l.take 16) (aesBlock keys (iv ++ bytesBE 4 i)) ++ gcmStream keys iv n (i + 1) (l.drop 16)

/-- AES-256-GCM decryption under a key and a 96-bit vector: nothing when the tag check fails (R165,
R270). -/
def gcmOpen (key iv extra cipher tag : List Byte) : Option (List Byte) :=
  let keys := aesKeys key
  let blocks (l : List Byte) : Nat := (l.length + 15) / 16
  let h := BitVec.ofNat 128 (natBE (aesBlock keys (List.replicate 16 0#8)))
  let y := ghash h (blocks cipher) cipher (ghash h (blocks extra) extra 0#128)
  let y := ghash h 1 (bytesBE 8 (8 * extra.length) ++ bytesBE 8 (8 * cipher.length)) y
  if xorBytes (bytesBE 16 y.toNat) (aesBlock keys (iv ++ bytesBE 4 1)) = tag then
    some (gcmStream keys iv (blocks cipher) 2 cipher)
  else none

/-! P-384. A point is its coordinates; none is the point at infinity. -/

def p384Prime : Nat := 2 ^ 384 - 2 ^ 128 - 2 ^ 96 + 2 ^ 32 - 1

def p384B : Nat :=
  0xB3312FA7E23EE7E4988E056BE3F82D19181D9C6EFE8141120314088F5013875AC656398D8A2ED19D2A85C8EDD3EC2AEF

/-- The order of the base point. -/
def p384Order : Nat :=
  0xFFFFFFFFFFFFFFFFFFFFFFFFFFFFFFFFFFFFFFFFFFFFFFFFC7634D81F4372DDF581A0DB248B0A77AECEC196ACCC52973

abbrev P384 := Option (Nat × Nat)

/-- The coordinates of the base point. -/
def p384Base : Nat × Nat :=
  (0xAA87CA22BE8B05378EB1C71EF320AD746E1D3B628BA79B9859F741E082542A385502F25DBF55296C3A545E3872760AB7,
   0x3617DE4A96262C6F5D9E98BF9292DC29F8F41DBD289A147CE9DA3113B5F0B8C00A60B1CE1D7E819D7A431D7C90EA0E5F)

/-- A power, by the low `n` bits of the exponent, modulo `p`. -/
def powMod (p : Nat) : (n b e : Nat) → Nat
  | 0, _, _ => 1
  | n + 1, b, e => (if e % 2 = 1 then b else 1) * powMod p n (b * b % p) (e / 2) % p

/-- The inverse modulo a prime of at most 384 bits. -/
def invMod (p a : Nat) : Nat := powMod p 384 (a % p) (p - 2)

/-- Whether a pair of integers is a point of the curve. -/
def p384On (x y : Nat) : Bool :=
  decide (x < p384Prime ∧ y < p384Prime ∧
    y * y % p384Prime = (x * x * x + (p384Prime - 3) * x + p384B) % p384Prime)

/-- The sum of two points. -/
def p384Add (a b : P384) : P384 :=
  match a, b with
  | none, b => b
  | a, none => a
  | some (x1, y1), some (x2, y2) =>
    let p := p384Prime
    if x1 = x2 ∧ (y1 + y2) % p = 0 then none
    else
      let slope := if x1 = x2 then (3 * x1 * x1 + (p - 3)) * invMod p (2 * y1)
        else (y2 + p - y1) * invMod p (x2 + p - x1)
      let x := (slope * slope + 2 * p - x1 - x2) % p
      some (x, (slope % p * (x1 + p - x) + p - y1) % p)

/-- A point multiplied by the low `n` bits of a number. -/
def p384Mul : (n k : Nat) → P384 → P384
  | 0, _, _ => none
  | n + 1, k, a =>
    let rest := p384Mul n (k / 2) (p384Add a a)
    if k % 2 = 1 then p384Add a rest else rest

/-- The ECDSA signature of a message under a private key, with a nonce (R280). -/
def ecdsaSign (key nonce : Nat) (m : List Byte) : Nat × Nat :=
  let n := p384Order
  let r := match p384Mul 384 nonce (some p384Base) with
    | some (x, _) => x % n
    | none => 0
  (r, invMod n nonce * (natBE (sha384 m) + r * key) % n)

/-- A blob of 208 bytes unwrapped with the provisioning key for a package number: the cask key, or
nothing when the point is off the curve or the tag check fails (R270). -/
def unwrapCask (key package : Nat) (blob : List Byte) : Option (List Byte) :=
  let part (lo n : Nat) : List Byte := (blob.drop lo).take n
  let x := natOfBytes (part 0 48)
  let y := natOfBytes (part 0x30 48)
  if !p384On x y then none
  else match p384Mul 384 key (some (x, y)) with
    | none => none
    | some (shared, _) =>
      let model := part 0x60 48
      let info := [0x6D#8, 0x72#8, 0x63#8, 0x2D#8, 0x63#8, 0x61#8, 0x73#8, 0x6B#8] ++ bytesOf 2 package
      gcmOpen (hkdf model (bytesBE 48 shared) info) (part 0x90 12) model (part 0xA0 32) (part 0xC0 16)

end Sys2Proof.Machine
end

