-- ==== Sys2Proof/Machine/Work.lean ====
section
/-! DEFINITION. The work hierarchy: records, how they are allocated, counted, completed, retired and
cancelled (R80 to R85, R103 to R105), and how a strand ends (R67, R80, R148, R182, R242, R281). -/

namespace Sys2Proof.Machine

/-- The level of a work identifier (R82). -/
def workLevel (id : BitVec 32) : Nat := (id.extractLsb' 30 2).toNat
def workGen (id : BitVec 32) : Nat := (id.extractLsb' 10 20).toNat
def workIndex (id : BitVec 32) : Nat := (id.extractLsb' 0 10).toNat

/-- The record an identifier names, if its current allocation bears it (R82). -/
def State.findRecord (s : State) (t : Nat) (id : BitVec 32) : Option Record :=
  let r := s.record t (recordKey id)
  if r.ident = id ∧ workGen id ≠ 0 then some r else none

/-- The lowest free record of a level, as its key (R82). -/
def State.freeRecord (s : State) (t level : Nat) : Option Nat :=
  ((List.range (levelSize level)).map (level * 1024 + ·)).find? fun k =>
    (s.record t k).state == 0#3

/-- The generation after a record's last one; 0 is skipped (R82). -/
def nextGen (g : Nat) : Nat := if g + 1 < 2 ^ 20 then g + 1 else 1

/-- Allocate a record of a level (R82): its identifier, or nothing when none is free. -/
def State.allocRecord (s : State) (t level : Nat) (r : Record) : Option (BitVec 32 × State) :=
  match s.freeRecord t level with
  | none => none
  | some k =>
    let id := workId level (nextGen (workGen (s.record t k).ident)) (k % 1024)
    some (id, s.updRecord t k fun _ => { r with ident := id, state := 1#3 })

/-- The records that contain a record, from itself up: at most four levels (R81, R89). -/
def State.lineage (s : State) (t : Nat) : Nat → BitVec 32 → List (BitVec 32)
  | 0, _ => []
  | fuel + 1, id =>
    match s.findRecord t id with
    | none => [id]
    | some r => id :: match r.parent with
      | some p => s.lineage t fuel p
      | none => []

/-- A strand belongs to a record's work (R85, R89). -/
def State.contains (s : State) (t : Nat) (id : BitVec 32) (n : Nat) : Bool :=
  (s.strand n).owner.toNat == t && (s.lineage t 4 (s.strand n).launch).contains id

/-- The 8-byte word at a tenant's virtual address, for the engines that act for the tenant: where it
leads. -/
def State.tenantWord (s : State) (t : Nat) (va : Word) (write : Bool) : Except Stop Target :=
  s.resolve t 0 va { way := .engine, read := !write, write := write, exec := false, width := 8
                     scope := none } true

/-- What is on its way to a target arrives there. -/
def State.settleAll (s : State) : Target → State
  | .vine c _ _ => s.vineDrainAll c
  | .remote _ _ => s.remoteDrain
  | .spad _ _ _ | .hbm _ _ _ | .control _ | .window _ _ => s

/-- Bytes stored by the queue engine or the dispatcher, performed at once: a release (R103, R105). -/
def State.engineWrite (s : State) (x : Target) (bytes : List Byte) : State :=
  let s := s.settleAll x
  match x with
  | .remote pa _ => { s with peerMem := writeBytes s.peerMem pa bytes }
  | .window w off =>
    if s.linkUp && s.busMaster then { s with hostMem := writeBytes s.hostMem (s.hostAddr w off) bytes } else s
  | .vine c off key =>
    (s.vineApply c key off bytes none).updChain c fun y => { y with accepted := y.accepted + 1#64 }
  | x => s.writeTarget 0 0#64 x bytes none none

/-- The word a target holds, changed by the queue engine or the dispatcher. -/
def State.engineUpdate (s : State) (x : Target) (f : Word → Word) : State :=
  s.engineWrite x (bytesOf 8 (f (wordOfBytes ((s.settleAll x).readTarget x 8))).toNat)

/-- Load a word from a tenant's virtual address; 0 when it does not translate. DESIGN CHOICE (log 78): so is a word of
MEASNOW's code list, for which R274 lists no refusal. -/
def State.tenantLoad (s : State) (t : Nat) (va : Word) : Word :=
  match s.tenantWord t va false with
  | .ok x => wordOfBytes (s.readTarget x 8)
  | .error _ => 0#64

/-- The closed bit of a flow word set (R105). -/
def closedWord (w : Word) : Word := w ||| 0x80000000#64

/-- The dispatcher sets the closed bit of a flow word (R105): later, when the word's page is not resident or
its chain relinks (R194). -/
def State.closeFlow (s : State) (t : Nat) (nd : Option Node) : State :=
  match nd.bind Node.flow with
  | none => s
  | some a =>
    let va := a.setWidth 64
    match s.tenantWord t va true with
    | .ok x => s.engineUpdate x closedWord
    | .error (.trap _ _) => s
    | .error _ =>
      { s with nextId := s.nextId + 1, closes := s.closes ++ [{ id := s.nextId, tenant := t, va := va }] }

/-- The number of strand pages (R52). What a strand still has under way when its page is freed goes on under a
number of its own, from here up (log 80). -/
def strandMax : Nat := 65536

/-- Something of a strand is under way that does not need it resident: an engine operation, a store to another
package, a vine write, its core's matrix engine. -/
def State.underWay (s : State) (n : Nat) : Bool :=
  (s.ops.any fun e => e.2.strand == n) || (s.remote.any fun e => e.2.strand == n) ||
  (s.chains.any fun e => e.2.inflight.any fun w => w.strand == some n) ||
  s.cores.any fun e => e.2.engine.holder == some n

/-- What strands have under way bears other numbers, with the entries of the scoreboards and the race records
that stand for it. -/
def State.renumber (s : State) (f : Nat → Nat) : State :=
  { s with
    ops := mapTable s.ops fun _ o => { o with strand := f o.strand }
    remote := mapTable s.remote fun _ r => { r with strand := f r.strand }
    chains := mapTable s.chains fun _ c =>
      { c with inflight := c.inflight.map fun w => { w with strand := w.strand.map f } }
    cores := mapTable s.cores fun _ x => { x with
      engine := { x.engine with holder := x.engine.holder.map f }
      board := x.board.map fun b => { b with strand := f b.strand } }
    races := s.races.map fun r => { r with strand := f r.strand } }

/-- What remains of a strand whose page is freed: it belongs to no launch, and waits for nothing. -/
def Strand.leftOver (x : Strand) : Strand := { x with launch := 0#32, wait := .none, killing := false }

/-- Strands of a retired launch return to state 0 with reset values (R80). One that has something under way
keeps it, with its tenant and its own losses, under a number that is no page's. DEDUCED (log 80): the spec does
not say that what a freed strand left under way ends, nor that the next strand of the page takes it over. -/
def State.freeStrands (s : State) (t : Nat) (id : BitVec 32) : State :=
  let gone (x : Strand) : Bool := x.owner.toNat == t && x.launch == id && x.state != 0#4
  let beyond (n : Nat) : Nat := strandMax * (s.nextId + 1) + n
  let left := (s.strands.filter fun e => gone e.2 && s.underWay e.1).map fun e => (beyond e.1, e.2.leftOver)
  let kept := s.strands.filter fun e => !gone e.2 && (decide (e.1 < strandMax) || s.underWay e.1)
  { s.renumber (fun n => if gone (s.strand n) then beyond n else n) with
    strands := kept ++ left, nextId := if left.isEmpty then s.nextId else s.nextId + 1 }

/-- Retire a record: STATE 0, IDENT kept (R83). DESIGN CHOICE (log 56): its other fields read 0. -/
def Record.retire (r : Record) : Record := { Record.empty with ident := r.ident }

/-- Retire the records whose parent has completed (R83), and free the strands of launches. -/
def State.retireChildren (s : State) (t : Nat) (id : BitVec 32) : State :=
  let kids := (s.tenant t).records.filter fun e => e.2.parent == some id && e.2.state == 2#3
  let s := kids.foldl (fun s e => if workLevel e.2.ident = 0 then s.freeStrands t e.2.ident else s) s
  s.updTenant t fun x =>
    { x with records := x.records.map fun e =>
        if e.2.parent == some id && e.2.state == 2#3 then (e.1, e.2.retire) else e }

/-- The commands that allocated a record are complete, with its FAILED and first cause (R103). -/
def State.finishCommands (s : State) (t : Nat) (r : Record) : State :=
  { s with queues := s.queues.map fun e => (e.1, { e.2 with
      pending := e.2.pending.map fun c =>
        if c.tenant = t ∧ c.ident = r.ident ∧ c.op ≤ 3 ∧ c.ident ≠ 0#32 then
          { c with done := true, failed := BitVec.ofNat 16 (min r.failed.toNat 65535)
                   refused := r.cause }
        else c }) }

/-- A job whose command has no completion word is retired when it completes (R83, R103). -/
def State.retireSilentJob (s : State) (t : Nat) (id : BitVec 32) : State :=
  let silent := s.queues.any fun e => e.2.pending.any fun c =>
    c.tenant == t && c.ident == id && c.op == 1 && c.cpl == 0#64
  if silent then s.updRecord t (recordKey id) Record.retire else s

/-- Note a launch's outcome in its graph (R104). -/
def State.noteOutcome (s : State) (t : Nat) (r : Record) : State :=
  match r.parent, r.index with
  | some g, some i =>
    s.updRecord t (recordKey g) fun x =>
      { x with nodes := x.nodes.modify i fun n : GraphNode =>
          { n with outcome := some (if r.failed = 0#32 then 0#8 else r.cause) } }
  | _, _ => s

/-- Whether every item of a record has been counted (R81). -/
def Record.full (r : Record) : Bool := r.completed.toNat + r.failed.toNat == r.target.toNat

/-- One item counted in a record (R80, R81): the first failure stores its cause. -/
def Record.countItem (r : Record) (ok : Bool) (cause : BitVec 8) : Record :=
  if ok then { r with completed := r.completed + 1#32 }
  else { r with failed := r.failed + 1#32, cause := if r.cause = 0#8 then cause else r.cause }

/-- A completed command without a completion word is over (R103). -/
def State.dropSilent (s : State) : State :=
  { s with queues := mapTable s.queues fun _ q =>
      { q with pending := q.pending.filter fun c => !(c.done && c.cpl == 0#64) } }

/-- What follows a record's completion besides the count in its parent (R83, R103, R105). -/
def State.afterComplete (s : State) (t : Nat) (r : Record) : State :=
  let s := if workLevel r.ident = 0 then (s.closeFlow t r.node).noteOutcome t r
           else s.retireChildren t r.ident
  let s := s.finishCommands t r
  (if workLevel r.ident = 3 then s.retireSilentJob t r.ident else s).dropSilent

/-- Count an item in a record, and a completed record in its parent, level by level (R81). A record
being cancelled completes by its own step (R85). -/
def State.countIn : (fuel : Nat) → State → (t : Nat) → (id : BitVec 32) → (ok : Bool) →
    (cause : BitVec 8) → State
  | 0, s, _, _, _, _ => s
  | fuel + 1, s, t, id, ok, cause =>
    match s.findRecord t id with
    | none => s
    | some r0 =>
      let r := r0.countItem ok cause
      if r.state = 1#3 ∧ r.full then
        let r := { r with state := 2#3 }
        let s := s.updRecord t (recordKey id) fun _ => r
        let s := s.afterComplete t r
        match r.parent with
        | some p => s.countIn fuel t p (r.failed == 0#32) r.cause
        | none => s
      else s.updRecord t (recordKey id) fun _ => r

/-- Complete a record without a further item: a cancelled one (R85), or one created failed. -/
def State.completeRecord (s : State) (t : Nat) (id : BitVec 32) : State :=
  match s.findRecord t id with
  | none => s
  | some r0 =>
    let r := { r0 with state := 2#3 }
    let s := s.updRecord t (recordKey id) fun _ => r
    let s := s.afterComplete t r
    match r.parent with
    | some p => s.countIn 4 t p (r.failed == 0#32) r.cause
    | none => s

/-! How a strand ends. -/

/-- The states in which a strand has ended (R78). -/
def Strand.ended (x : Strand) : Bool := x.state == 5#4 || x.state == 6#4 || x.state == 7#4

/-- What a strand waits for when a cause stops or ends it: a STOP that met it completes on that state, once the
strand's vine writes are visible (R67, R222). -/
def Strand.stopWait (x : Strand) : Wait := if x.state = 2#4 ∨ x.wait = .stopping then .stopping else .none

/-- The page of a strand that ends (R80). `discard` zeroes the vector state and the handler's
state; otherwise both keep their last values, a claimed strand's page its interrupted state. -/
def Strand.finish (x : Strand) (state : BitVec 4) (cause : Nat) (discard : Bool) : Strand :=
  { x with
    state := state, cause := BitVec.ofNat 8 cause, vres := false, owed := false, place := none
    wait := if state = 6#4 then x.stopWait else .none
    stepping := false, reissue := false, rolled := false, cls := x.prio
    vec := if discard then VecState.zero else if x.claimed then x.saved else x.vec
    saved := if discard then VecState.zero else x.saved
    inHandler := if discard then false else x.inHandler
    claimed := if discard then false else x.claimed
    nested := if discard then false else x.nested
    claim0 := if discard then 0#64 else x.claim0
    claim1 := if discard then 0#2 else x.claim1
    barmark := if discard then none else x.barmark }

/-- Give the engine of a core up: no holder (R148). -/
def MatrixEngine.free (e : MatrixEngine) : MatrixEngine :=
  { e with holder := none, release := false, shape := 0#64, mode := 0#2, sparse := false
           active := Plane.empty, shadow := Plane.empty, queue := [] }

/-- A queued operation is a weight load, or a swap. -/
def MatOp.isLoad (q : MatOp) : Bool := q.kind matches .mldw _
def MatOp.isSwap (q : MatOp) : Bool := q.kind matches .mswap

/-- The state that the shadow plane shows: loading, from the issue of an `mldw` on (R153). -/
def MatrixEngine.shadowState (e : MatrixEngine) : BitVec 2 :=
  if e.queue.any MatOp.isLoad then 1#2 else e.shadow.state

/-- The blocks that weight loads have still to read: the one in flight, then those that wait (R153). -/
def MatrixEngine.loading (e : MatrixEngine) : List WeightSource :=
  (if e.shadow.state = 1#2 then e.shadow.srcs else []) ++ e.queue.flatMap fun q => match q.kind with
    | .mldw p => p.srcs
    | .mswap | .mmac _ | .mld _ | .mst _ | .mzero _ => []

/-- No operation of the holder is under way (R148). -/
def MatrixEngine.idle (e : MatrixEngine) : Bool := e.queue.isEmpty && e.shadow.state != 1#2

/-- The engine of a core stops: its operations are discarded, their entries retire, it has no holder (R163). DESIGN
CHOICE (log 89): the row boundary is the one before the first row of the operation under way. -/
def Core.haltEngine (x : Core) : Core :=
  { x with
    engine := x.engine.free
    board := x.board.filter fun b => !(x.engine.queue.any fun q => q.sbOp == b.op) &&
      !(b.op == x.engine.shadow.sbOp && x.engine.shadow.state == 1#2) }

/-- A strand that ends gives up its engine: at once when it is killed or fenced, else once its queue
has drained (R148, R163); it waits for no engine. -/
def Core.leave (x : Core) (n : Nat) (atOnce : Bool) : Core :=
  let x := { x with
    engine := { x.engine with waiters := x.engine.waiters.filter (· != n) }
    boardLine := x.boardLine.filter (· != n), boardHold := x.boardHold.filter (· != n) }
  if x.engine.holder ≠ some n then x
  else if atOnce || x.engine.idle then x.haltEngine
  else { x with engine := { x.engine with release := true } }

def State.leaveEngines (s : State) (n : Nat) (atOnce : Bool) : State :=
  { s with cores := mapTable s.cores fun _ x => x.leave n atOnce }

/-- An absorb of a record that is closing: its input is complete, and a kill leaves it running (R281). -/
def State.closing (s : State) (o : EngineOp) : Bool :=
  match o.kind with
  | .absorb m _ _ => (s.seal m).state == 2#3
  | _ => false

/-- An operation that a killing or a fencing ends carries the code to its completion (R139). -/
def State.endOps (s : State) (n code : Nat) : State :=
  { s with ops := mapTable s.ops fun _ o =>
      if o.strand = n ∧ (code = cFencedDie ∨ !s.closing o) then { o with ended := BitVec.ofNat 8 code }
      else o }

/-- A participant of a group matches a strand (R239). -/
def State.participates (s : State) (n : Nat) (m : Member) : Bool :=
  let x := s.strand n
  m.domain == s.domain && m.package == s.package && m.tenant == x.owner && m.launch == x.launch &&
  decide (x.index < m.count)

/-- Sequences of a group that have contributions and no result (R242). -/
def Group.pendingSeqs (g : Group) : List (BitVec 32) :=
  ((g.contribs.map (·.seq)).eraseDups).filter fun q =>
    !(g.results.any fun r => r.1 == q) && !g.lostSeqs.contains q

/-- The end of a participant loses sequences of its groups (R242): all that are pending when it
failed, those it has not contributed to when it exited. -/
def State.loseGroups (s : State) (n : Nat) (exited : Bool) : State :=
  { s with groups := s.groups.map fun e =>
      if e.2.members.any (s.participates n) then
        let lost := e.2.pendingSeqs.filter fun q => !exited ||
          !(e.2.contribs.any fun c => c.seq == q && match c.source with
            | some id => (s.ops.any fun o => o.1 == id && o.2.strand == n)
            | none => false)
        (e.1, { e.2 with ended := true, lostSeqs := lost ++ e.2.lostSeqs })
      else e }

/-- A strand that ends waits for none of its requests to the host: a load's is forgotten, an atomic's
is performed and its value discarded (R301). -/
def State.dropRequests (s : State) (n : Nat) : State :=
  { s with requests := (s.requests.filter fun r => r.strand != n || r.op.isSome).map fun r =>
      if r.strand = n then { r with live := false } else r }

/-- Records of another package are numbered from here by their address. Ours. -/
def sealsHere : Nat := 65536

/-- Absorbs of a record that are still in flight (R279). -/
def State.absorbing (s : State) (m : Nat) : Bool :=
  s.ops.any fun e => match e.2.kind with
    | .absorb r _ _ => r == m
    | _ => false

/-- STATE of a seal record as it reads (R276). -/
def SealRecord.stateWord (r : SealRecord) : Word :=
  BitVec.ofNat 64 (r.serial.toNat * 2 ^ 32 + r.result.toNat * 256 + r.state.toNat)

/-- The cask slot, tenant and strand of a record's WHO (R276). -/
def SealRecord.slot (r : SealRecord) : Nat := (r.who.extractLsb' 32 6).toNat
def SealRecord.owner (r : SealRecord) : Nat := (r.who.extractLsb' 16 8).toNat
def SealRecord.strand (r : SealRecord) : Nat := (r.who.extractLsb' 0 16).toNat

/-- The signed message of a record (R280). -/
def State.sealMessage (s : State) (r : SealRecord) : List Byte :=
  r.bytes ++ bytesOf 8 r.bytes.length ++ bytesOf 8 r.who.toNat ++ bytesOf 4 r.serial.toNat ++
  (if r.slot = 0 then List.replicate 48 0#8 else bytesOf 48 (s.key r.slot).fprint.toNat) ++
  bytesOf 48 (s.tenant r.owner).mdigest.toNat

/-- A closing record is finished, its absorbs complete: signed, or failed when the key bound at open
has gone (R280). -/
def State.sealFinish (s : State) (m : Nat) : State :=
  let r := s.seal m
  if r.state ≠ 2#3 then s
  else if r.slot ≠ 0 ∧ s.keyName r.slot ≠ r.keyId then
    s.updSeal m fun r => { r with state := 4#3, result := BitVec.ofNat 8 kAbandoned }
  else
    let r := { r with who := putBit r.who 40 (s.tenant r.owner).measured }
    let msg := s.sealMessage r
    let sig := ecdsaSign s.sealkey (1 + Config.sealNonce s.tick % (p384Order - 1)) msg
    s.updSeal m fun _ => { r with
      state := 3#3, digest := digestOf msg
      sigr := BitVec.ofNat 384 sig.1, sigs := BitVec.ofNat 384 sig.2 }

/-- A record of a strand that has ended, once its absorbs are complete: an open one fails with ABANDONED, a
closing one is finished (R281). -/
def State.abandonSeal (s : State) (m : Nat) : State :=
  if s.absorbing m then s
  else if (s.seal m).state = 1#3 then
    s.updSeal m fun r => { r with state := 4#3, result := BitVec.ofNat 8 kAbandoned }
  else s.sealFinish m

/-- All of them. -/
def State.abandonSeals (s : State) (n : Nat) : State :=
  s.seals.foldl (fun s e => if (s.seal e.1).strand ≠ n then s else s.abandonSeal e.1) s

/-- A strand that ends awaits no fault that is still held (R67, R197). -/
def State.forgetHeld (s : State) (n : Nat) : State :=
  s.updTenant (s.strand n).owner.toNat fun x => { x with
    fqHolding := x.fqHolding.map fun h => if h.who = .strand n then { h with who := .record } else h }

/-- A strand gives up what it holds and takes the page it ends with (R80): its engine, its operations, its
groups, its records, its region. One that is killed or whose die is fenced is `forced`: its operations end with
it (R139, R163). -/
def State.endPage (s : State) (n : Nat) (page : Strand) (forced : Bool) : State :=
  let s := ((if forced then s.endOps n page.cause.toNat else s).dropRequests n).forgetHeld n
  let s := s.loseGroups n (page.state == 5#4)
  let s := s.setStrand n page
  ((s.leaveEngines n forced).abandonSeals n).sweepRaces

/-- The one count of a strand in its launch (R80). -/
def State.countStrand (s : State) (n : Nat) (cause : BitVec 8) : State :=
  let x := s.strand n
  s.countIn 4 x.owner.toNat x.launch (x.state == 5#4) cause

/-- End a strand that has not ended, and count it, without following a failure through its graph (R80). -/
def State.endStrandTo (s : State) (n : Nat) (page : Strand) (forced : Bool) : State :=
  let x := s.strand n
  if x.state = 0#4 ∨ x.ended then s else (s.endPage n page forced).countStrand n page.cause

/-- The same with the page of R80, the strand not forced. -/
def State.endStrandRaw (s : State) (n : Nat) (state : BitVec 4) (cause : Nat) (discard : Bool) : State :=
  s.endStrandTo n ((s.strand n).finish state cause discard) false

/-- A strand is killed (R67, R85, R104): it is counted, with a cause, when the KILL completes. -/
def State.killRaw (s : State) (n counted : Nat) : State :=
  let x := s.strand n
  if x.state = 0#4 ∨ x.ended then s
  else s.endPage n { x.finish 7#4 cCancelled true with
    killing := true, counted := BitVec.ofNat 8 counted } true

/-- Strands of a launch that have not ended. -/
def State.launchStrands (s : State) (t : Nat) (id : BitVec 32) : List Nat :=
  (s.strands.filter fun e => e.2.owner.toNat == t && e.2.launch == id && e.2.state != 0#4 &&
    !e.2.ended).map (·.1)

/-- Nodes of a graph that have failed, as bits (R104). -/
def failedNodes (l : List GraphNode) : Word :=
  ((List.range l.length).filter fun i => match l[i]? with
    | some n => match n.outcome with
      | some c => c != 0#8
      | none => false
    | none => false).foldl (fun w i => putBit w i true) 0#64

/-- One node of a graph after failures: a node that depends on a failed one is never launched, and
the strands of one running on a failed producer's flow are killed as by KILL; both count ABANDONED (R81,
R104, R209). -/
def State.abandonNode (s : State) (t : Nat) (g : BitVec 32) (i : Nat) : State :=
  match s.findRecord t g with
  | none => s
  | some r => match r.nodes[i]? with
    | none => s
    | some nd =>
      let bad := failedNodes r.nodes
      if nd.outcome.isSome then s
      else if !nd.created then
        if (nd.node.pred ||| nd.node.stream) &&& bad = 0#64 then s
        else
          let s := { s with ready := s.ready.filter fun e =>
            !(decide (e.tenant = t) && e.graph == g && e.index == some i) }
          let s := s.updRecord t (recordKey g) fun x => { x with nodes := x.nodes.modify i fun n : GraphNode =>
            { n with outcome := some (BitVec.ofNat 8 kAbandoned), created := true } }
          s.countIn 3 t g false (BitVec.ofNat 8 kAbandoned)
      else if nd.node.stream &&& bad = 0#64 then s
      else match nd.launch with
        | none => s
        | some l => (s.launchStrands t l).foldl
            (fun s n => s.killRaw n kAbandoned) s

/-- Follow failures through a graph, node by node upward (R81, R104). -/
def State.settleGraph (s : State) (t : Nat) (g : BitVec 32) : State :=
  (List.range 64).foldl (fun s i => s.abandonNode t g i) s

/-- Nodes complete, and nodes created, as bits. -/
def nodeBits (p : GraphNode → Bool) (l : List GraphNode) : Word :=
  ((List.range l.length).filter fun i => match l[i]? with
    | some n => p n
    | none => false).foldl (fun w i => putBit w i true) 0#64

/-- Capacity of the ready pool (R107). -/
def readyMax : Nat := 8192

/-- Put the nodes of a graph that have become ready into the ready pool while it has room (R104,
R107). -/
def State.enqueueReady (s : State) (t : Nat) (g : BitVec 32) : State :=
  match s.findRecord t g with
  | none => s
  | some r =>
    if r.state ≠ 1#3 then s
    else
      let complete := nodeBits (fun n => n.outcome == some 0#8) r.nodes
      let created := nodeBits (fun n => n.created) r.nodes
      (List.range r.nodes.length).foldl (fun s i => match r.nodes[i]? with
        | none => s
        | some nd =>
          if !nd.queued && !nd.created && nd.outcome.isNone &&
              (nd.node.pred &&& ~~~complete) == 0#64 && (nd.node.stream &&& ~~~created) == 0#64 &&
              decide (s.ready.length < readyMax) then
            let s := { s with
              nextId := s.nextId + 1
              ready := s.ready ++ [({ id := s.nextId, tenant := t, node := nd.node, graph := g
                                      index := some i, launch := none, cls := nd.node.prio
                                      blocking := false } : ReadyEntry)] }
            s.updRecord t (recordKey g) fun x =>
              { x with nodes := x.nodes.modify i fun n : GraphNode => { n with queued := true } }
          else s) s

/-- The graph of a launch. -/
def State.graphOf (s : State) (t : Nat) (launch : BitVec 32) : Option (BitVec 32) :=
  match s.findRecord t launch with
  | some r => r.parent
  | none => none

/-- Room in the ready pool is offered to the nodes that wait for it (R107). -/
def State.refillReady (s : State) : State :=
  if readyMax ≤ s.ready.length then s
  else s.tenants.foldl (fun s p => ((s.tenant p.1).records.filter fun r =>
    workLevel r.2.ident == 1 && r.2.state == 1#3).foldl (fun s r => s.enqueueReady p.1 r.2.ident) s) s

/-- Whatever follows a count in a graph: failures, newly ready nodes, and the room that failed ones leave
in the ready pool (R81, R104, R107). -/
def State.afterCount (s : State) (t : Nat) (g : Option (BitVec 32)) : State :=
  match g with
  | some g => ((s.settleGraph t g).enqueueReady t g).refillReady
  | none => s

/-- A strand ends in state 5, 6 or 7 (R78, R80). -/
def State.endStrand (s : State) (n : Nat) (state : BitVec 4) (cause : Nat) (discard : Bool) : State :=
  let x := s.strand n
  let g := s.graphOf x.owner.toNat x.launch
  (s.endStrandRaw n state cause discard).afterCount x.owner.toNat g

/-- Strands end together, by an act on each, and their graphs follow afterwards. -/
def State.endTogether (s : State) (l : List Nat) (act : State → Nat → State) : State :=
  let graphs := (l.filterMap fun n =>
    let x := s.strand n
    (s.graphOf x.owner.toNat x.launch).map fun g => (x.owner.toNat, g)).eraseDups
  graphs.foldl (fun s g => s.afterCount g.1 (some g.2)) (l.foldl act s)

/-- Whether a strand has an engine operation in flight, from a number on. -/
def State.hasOps (s : State) (n : Nat) (since : Nat := 0) : Bool :=
  s.ops.any fun e => e.2.strand == n && decide (since ≤ e.1)

/-- What the KILL of a strand waits for (R67, R178): an engine operation, a store that is not yet visible. -/
def State.outstanding (s : State) (n : Nat) : Bool := s.hasOps n || s.vineOpen n

/-- The KILL of a strand completes (R67): it holds no engine operation and its stores are visible (R71). The
failure of one that it has ended is then counted at every level. -/
def State.killComplete (s : State) (n : Nat) : State :=
  let x := s.strand n
  if x.killing ∧ !s.outstanding n then
    let g := s.graphOf x.owner.toNat x.launch
    let s := s.setStrand n { x with killing := false, counted := 0#8 }
    if x.state = 7#4 then (s.countStrand n x.counted).afterCount x.owner.toNat g else s
  else s

/-! Cancelling (R85). -/

/-- Count the items of one record that have not been launched or submitted as failed, CANCELLED. DESIGN
CHOICE (log 57): a launch that waits in the ready pool is shown as R85 shows one created cancelled. -/
def State.cancelItems (s : State) (t : Nat) (id : BitVec 32) : State :=
  let code := BitVec.ofNat 8 cCancelled
  match s.findRecord t id with
  | none => s
  | some r =>
    match workLevel id with
    | 0 =>
      -- a launch still in the ready pool runs no strand
      if r.base = 0 ∧ r.count = 0 ∧ !r.full then
        let s := { s with ready := s.ready.filter fun e => !(decide (e.tenant = t) && e.launch == some id) }
        let s := s.updRecord t (recordKey id) fun x =>
          { x with failed := x.target, cause := if x.cause = 0#8 then code else x.cause }
        if r.state = 1#3 then s.completeRecord t id else s
      else s
    | 1 =>
      (List.range r.nodes.length).foldl (fun s i => match r.nodes[i]? with
        | none => s
        | some nd =>
          if nd.created || nd.outcome.isSome then s
          else
            let s := { s with ready := s.ready.filter fun e =>
              !(decide (e.tenant = t) && e.graph == id && e.index == some i) }
            let s := s.updRecord t (recordKey id) fun x => { x with nodes := x.nodes.modify i fun n : GraphNode =>
              { n with outcome := some code, created := true } }
            s.countIn 4 t id false code) s
    | _ =>
      -- phases of a job, graphs of a phase that were never submitted
      let owed := r.target.toNat - r.submitted.toNat
      let s := s.updRecord t (recordKey id) fun x => { x with submitted := x.target }
      (List.range owed).foldl (fun s _ => s.countIn 4 t id false code) s

/-- The records of a record's work, the deepest last: itself and all below it. -/
def State.workBelow (s : State) (t : Nat) (id : BitVec 32) : List (BitVec 32) :=
  ((s.tenant t).records.filter fun e =>
    (e.2.state == 1#3 || e.2.state == 3#3) && (s.lineage t 4 e.2.ident).contains id).map (·.2.ident)

/-- Cancel a record in state 1 (R85): state 3, its strands killed, then what is not launched counted failed.
It completes by its own step, once its strands' kills have and are counted (R67). -/
def State.cancelRecord (s : State) (t : Nat) (id : BitVec 32) : State :=
  match s.findRecord t id with
  | none => s
  | some r =>
    if r.state ≠ 1#3 then s
    else
      let s := s.updRecord t (recordKey id) fun x => { x with state := 3#3 }
      let below := s.workBelow t id
      let doomed := (s.strands.filter fun e => s.contains t id e.1).map (·.1)
      let s := doomed.foldl (fun s n => s.killRaw n cCancelled) s
      (below.foldl (fun s r => s.cancelItems t r) s).refillReady

/-- A record being cancelled has every item counted (R85). -/
def Record.cancelled (r : Record) : Bool := r.state == 3#3 && r.full

/-- A cancel completes (R85): the record is complete, and counted in its parent as failed. -/
def State.cancelComplete (s : State) (t : Nat) (id : BitVec 32) : State :=
  match s.findRecord t id with
  | some r => if r.cancelled then
      (s.completeRecord t id).afterCount t (if workLevel id = 0 then r.parent else none) else s
  | none => s

/-- The record of an identifier is being cancelled, or lies in a record that is (R85). -/
def State.cancelling (s : State) (t : Nat) (id : BitVec 32) : Bool :=
  (s.lineage t 4 id).any fun i => match s.findRecord t i with
    | some r => r.state == 3#3
    | none => false

end Sys2Proof.Machine
end

