-- ==== Sys2Proof/Machine/Ops.lean ====
section
/-! DEFINITION. The operations every instruction rests on: scalar registers (R15), retirement, taking
an exception (R207 to R211, R222) and returning from one (R217), fault reports (R197 to R203), strip
rollback (R27, R257), completion tags (R140, R141) and how a meaning ends. -/

namespace Sys2Proof.Machine

/-! Scalar registers (R15): `s0` reads zero and discards writes. -/

def Strand.sreg (x : Strand) (r : SReg) : Word :=
  if r = 0#5 then 0#64 else x.s.toList.getD r.toNat 0#64

def Strand.setS (x : Strand) (r : SReg) (v : Word) : Strand :=
  if r = 0#5 then x else { x with s := x.s.setIfInBounds r.toNat v }

/-- A scalar register of the strand that issues. -/
def State.sreg (s : State) (r : SReg) : Word := s.me.sreg r

def State.setS (s : State) (r : SReg) (v : Word) : State := s.updMe fun x => x.setS r v

/-! Retirement. -/

/-- The end of a stepped instruction that leaves the strand in state 1: state 3 with cause STEP
(R223). A strand that is not being stepped goes on. -/
def Strand.endStep (x : Strand) : Strand :=
  if x.stepping then
    { x with state := 3#4, cause := BitVec.ofNat 8 cStep, stepping := false, place := none
             cls := x.prio }
  else x

/-- The instruction has been performed: PC is at the address R36 gives (log 3), and the strand may still
wait for what it asked for. -/
def Strand.advance (x : Strand) (npc : Word) : Strand :=
  { x with
    pc := npc, inSequence := true, wait := .none, reissue := false, prevBatch := [], rolled := false
    resumed := false }

/-- The instruction retires. -/
def Strand.retire (x : Strand) (npc : Word) : Strand := (x.advance npc).endStep

def State.retire (s : State) : State := s.updMe fun x => x.retire s.npc

/-- The instruction retires to another address, a transfer of control (R39). -/
def State.retireTo (s : State) (target : Word) : State :=
  s.updMe fun x => { x.retire target with inSequence := false }

/-- The instruction has been performed and its strand waits (R60, R90); a step of it ends with the wait
(R223). -/
def State.await (s : State) (w : Wait) : State :=
  s.updMe fun x => { x.advance s.npc with wait := w, resumed := x.resumed }

/-- The first instruction of a strand after its creation or resumption has completed: it synchronises, and
another region opens (R178, R182). -/
def State.firstDone (s t : State) (n : Nat) : State :=
  if (s.strand n).resumed ∧ !(t.strand n).resumed ∧ !(t.strand n).ended ∧ (t.strand n).state ≠ 0#4 then
    t.newRegion n
  else t

/-- A strand that was stopping while an instruction of it waited issues nothing after it (R67, R68). -/
def State.heedStop (s : State) (n : Nat) : State :=
  if (s.strand n).state = 2#4 ∧ (s.strand n).wait = .none then s.updStrand n fun x => { x with wait := .stopping }
  else s

/-- What follows a move of a strand's own. -/
def State.issued (s t : State) (n : Nat) : State := (s.firstDone t n).heedStop n

/-- The checkpoint is no longer valid (R258). -/
def State.dropCheckpoint (s : State) : State :=
  s.updMe fun x => { x with ckpt := { x.ckpt with valid := false } }

/-! Taking an exception. -/

/-- The strand enters its handler (R210): the trap registers and the handler's address. A trap entry
ends the checkpoint (R258); a strand that was stopping stops at TRAPVEC (R222). -/
def Strand.enterHandler (x : Strand) (cause : Nat) (pc addr : Word) : Strand :=
  ({ x with
    trapcause := BitVec.ofNat 8 cause
    trappc := pc.setWidth 57
    trapaddr := addr.setWidth 57
    inHandler := true
    pc := x.trapvec.setWidth 64, inSequence := false
    ckpt := { x.ckpt with valid := false }
    state := if x.state = 2#4 then 3#4 else x.state
    cause := if x.state = 2#4 then 0#8 else x.cause
    place := if x.state = 2#4 then none else x.place
    cls := if x.state = 2#4 then x.prio else x.cls
    wait := x.stopWait, reissue := false, prevBatch := [], rolled := false } : Strand).endStep

/-- The strand stops in state 4 (R207): the trap registers set, PC at `pc`. -/
def Strand.stopTrapped (x : Strand) (cause : Nat) (pc addr : Word) : Strand :=
  { x with
    trapcause := BitVec.ofNat 8 cause
    trappc := pc.setWidth 57
    trapaddr := addr.setWidth 57
    pc := pc
    state := 4#4, cause := BitVec.ofNat 8 cause, place := none, cls := x.prio
    wait := x.stopWait, reissue := false, prevBatch := [], rolled := false, stepping := false }

/-- A handler cause inside a handler stops the strand (R211): the first trap's registers stay. -/
def Strand.stopNested (x : Strand) (cause : Nat) (pc : Word) : Strand :=
  { x with
    nested := true, pc := pc
    state := 4#4, cause := BitVec.ofNat 8 cause, place := none, cls := x.prio
    wait := x.stopWait, reissue := false, prevBatch := [], rolled := false, stepping := false }

/-- Causes that end the strand (R208). -/
def fatalCause (c : Nat) : Bool := c == cNotResident || c == cPinMiss || c == cFencedDie

/-- Consuming poison at a global address drops a line that only a cache held poisoned (R257). -/
def State.consumePoison (s : State) (n : Nat) (addr : Word) : State :=
  let x := s.strand n
  if addr = 0#64 ∨ x.space ≠ 0#2 then s
  else match s.resolve x.owner.toNat x.core addr
      { way := .vector, read := true, write := false, exec := false, width := 1, scope := none } false with
    | .ok t => s.dropPoison (dieOfCore x.core) t 1
    | .error _ => s

/-- The strand starts a strip rollback, which waits for its engine operations, or ends (R257). -/
def State.uncorrectable (s : State) (n : Nat) (addr : Word) : State :=
  let x := s.strand n
  let s := s.consumePoison n addr
  if x.ckpt.valid ∧ !x.inHandler ∧ x.rbStrip.toNat < 4 then
    s.updStrand n fun x => { x with wait := .rollback }
  else s.endStrand n 6#4 cUncorrectable false

/-- Take an exception: a strand raises a cause at an instruction (R207, R208). -/
def State.raise (s : State) (n cause : Nat) (pc addr : Word) : State :=
  let x := s.strand n
  if cause = cUncorrectable then s.uncorrectable n addr
  else if fatalCause cause then s.endStrand n 6#4 cause (cause == cFencedDie)
  else if cause = cBreakpoint then s.updStrand n fun x => x.stopTrapped cause pc addr
  else if x.inHandler then s.updStrand n fun x => x.stopNested cause pc
  else if x.trapvec = 0#57 then s.updStrand n fun x => x.stopTrapped cause pc addr
  else s.updStrand n fun x => x.enterHandler cause pc addr

/-- Return from a handler (R217): the interrupted vector state of a claimed strand is reloaded, and
the strand goes on at TRAPPC. -/
def Strand.leaveHandler (x : Strand) : Strand :=
  let y := if x.claimed then
      { x with
        vec := x.saved, vl := x.claim0.extractLsb' 32 32, vstart := x.claim0.extractLsb' 0 32
        sew := x.claim1, claimed := false, k14pc := x.savedK14pc }
    else x
  ({ y with
    inHandler := false, nested := false, pc := x.trappc.setWidth 64, inSequence := false
    wait := .none, reissue := false, prevBatch := [], rolled := false, resumed := false } : Strand).endStep

/-- The rollback of a strip (R27, R257). DESIGN CHOICE (log 76): a stepped strand stays in state 1, and the setting
instruction that runs again ends its STEP; R223 has no row for a rollback. -/
def Strand.rollBack (x : Strand) : Strand :=
  { x with
    s := x.ckpt.s.setIfInBounds 0 0#64, vl := x.ckpt.vl, sew := x.ckpt.sew, strip := x.ckpt.strip
    pc := x.ckpt.pc.setWidth 64, vstart := 0#32
    vec := { x.vec with k := x.vec.k.setIfInBounds 14 0#2048 }
    k14pc := none, reissue := false, rolled := true, wait := x.stopWait
    rbStrip := x.rbStrip + 1#4, rbTotal := satAdd x.rbTotal 1 }

/-! Interrupt messages (R224, R225). -/

/-- The MSI-X table's reset word: the second of an entry is masked. PRESUMED (log 69): the base
specification's. -/
def msixReset (word : Nat) : Word := if word % 2 = 1 then 0x100000000#64 else 0#64

/-- The host lets an entry's message through: the port may issue requests and the entry is not masked
(R224, R225). -/
def State.msixOpen (s : State) (e : Nat) : Bool :=
  s.linkUp && s.busMaster && !(lookupD s.msixTable (2 * e + 1) (msixReset (2 * e + 1))).getLsbD 32

/-- Send an MSI-X message, or hold it in the pending-bit array until the host lets it through. -/
def State.sendMsix (s : State) (e : Nat) : State :=
  if s.msixOpen e then { s with msixSent := s.msixSent ++ [e] }
  else if s.msixPending.contains e then s
  else { s with msixPending := s.msixPending ++ [e] }

/-! Fault reports. -/

/-- Unanswered entries of a tenant's fault queue (R197). -/
def Tenant.unanswered (x : Tenant) : Nat := (x.fqEntries.filter fun e => e.2.status == 0#2).length

/-- The fault queue has room for an entry (R197); one with status 3 needs only a slot. -/
def Tenant.fqRoom (x : Tenant) (pinned : Bool) : Bool :=
  decide (x.fqTail.toNat - x.fqHead.toNat < 1024) && (pinned || decide (x.unanswered < 1024))

/-- Write an entry: TAIL advances, and STALE counts (R198, R203). DESIGN CHOICE (log 75): its sequence is the 32-bit
TAIL, and both go on at 0 after `2 ^ 32` entries. -/
def State.fqWrite (s : State) (t : Nat) (e : FqEntry) : State :=
  s.updTenant t fun x => { x with
    fqEntries := insertAt x.fqEntries x.fqTail.toNat e
    fqTail := x.fqTail + 1#32
    fqStale := if e.stale = 0#16 then x.fqStale else satAdd x.fqStale 1 }

/-- F3's message, when TAIL has advanced over the entries of one report (R197). -/
def State.fqNotify (s : State) (t : Nat) (tail : BitVec 32) : State :=
  if (s.tenant t).fqTail ≠ tail ∧ s.modes.toList.getD 3 0#8 = 1#8 then s.sendMsix (256 + t) else s

/-- An unanswered entry of a page (R199). -/
def Tenant.fqFind (x : Tenant) (page : BitVec 41) : Option Nat :=
  (x.fqEntries.find? fun e => e.2.page == page && e.2.status == 0#2).map (·.1)

/-- An entry merged into an older one of its page (R199, R203). -/
def FqEntry.merge (old e : FqEntry) : FqEntry :=
  { old with
    mask := old.mask ||| e.mask, count := satAdd old.count e.count.toNat
    stale := if old.stale.toNat < e.stale.toNat then e.stale else old.stale }

/-- Merge an entry into an unanswered one of its page, else write it if there is room (R197, R199): the
sequence that stands for it. -/
def State.fqEnter (s : State) (t : Nat) (e : FqEntry) (room : Bool) : Option (BitVec 48 × State) :=
  let x := s.tenant t
  match (if e.status = 3#2 then none else x.fqFind e.page) with
  | some i => some (BitVec.ofNat 48 i, s.updTenant t fun x =>
      { x with fqEntries := insertAt x.fqEntries i ((lookupD x.fqEntries i e).merge e) })
  | none =>
    if room && x.fqRoom (e.status == 3#2) then some (BitVec.ofNat 48 x.fqTail.toNat, s.fqWrite t e)
    else none

/-- Report one page (R197): it becomes part of an entry, or is held. Answers the sequence awaited, or none
when the fault is held. -/
def State.fqReport (s : State) (t : Nat) (e : FqEntry) (who : Faulter) : Option (BitVec 48) × State :=
  match s.fqEnter t e (s.tenant t).fqHolding.isEmpty with
  | some (q, s) => (some q, s)
  | none =>
    (none, s.updTenant t fun x => { x with
      fqHeld := x.fqHeld + 1#32
      fqHolding := x.fqHolding ++ [({ entry := e, who := who } : HeldFault)] })

/-- The stale-replay count of a page met again after a batch that answered it with replay (R203). -/
def Tenant.staleCount (x : Tenant) (batch : List (BitVec 48)) (page : BitVec 41) : BitVec 16 :=
  match batch.find? fun q =>
      match x.fqEntries.find? (fun e => e.1 == q.toNat) with
      | some e => e.2.page == page && e.2.status == 1#2
      | none => false with
  | some q => match x.fqEntries.find? (fun e => e.1 == q.toNat) with
    | some e => satAdd e.2.stale 1
    | none => 0#16
  | none => 0#16

/-- A page one execution misses: the address, the level of the invalid entry, the access, and how
many accesses touched it. -/
structure PageMiss where
  va    : Word
  level : Nat
  mask  : BitVec 3
  count : Nat
  deriving DecidableEq, Repr

def PageMiss.page (m : PageMiss) : BitVec 41 := m.va.extractLsb' 16 41

def PageMiss.entry (m : PageMiss) (engine : Bool) (n : Nat) (stale : BitVec 16) (status : BitVec 2) :
    FqEntry :=
  { page := m.page, engine := engine, level := BitVec.ofNat 2 m.level, mask := m.mask
    who := BitVec.ofNat 32 n, count := BitVec.ofNat 16 (min m.count 65535), stale := stale
    status := status }

/-- The strand's batch of pages is reported, at most 16, and the strand awaits its verdicts (R197,
R200); a stepped strand stops with replay owed (R223). `reissue` stays as it is: a vector memory
instruction sets it when it faults, so that replays reissue it under k14 (R23); any other instruction
is reissued whole (R196). -/
def State.reportPages (s : State) (n : Nat) (l : List PageMiss) : State :=
  let t := (s.strand n).owner.toNat
  let batch := (s.strand n).prevBatch
  let tail := (s.tenant t).fqTail
  let (seqs, s) := (l.take 16).foldl (fun (acc : List (BitVec 48) × State) m =>
      let (q, s) := acc.2.fqReport t (m.entry false n ((acc.2.tenant t).staleCount batch m.page) 0#2) (.strand n)
      (acc.1 ++ q.toList, s)) ([], s)
  (s.fqNotify t tail).updStrand n fun x => { x with
    state := if x.stepping then 3#4 else 8#4
    cause := if x.stepping then BitVec.ofNat 8 cStep else 0#8
    owed := x.stepping
    place := if x.stepping then none else x.place
    cls := if x.stepping then x.prio else x.cls
    stepping := false
    awaitSeqs := seqs, awaitGot := 0#16, awaitDenied := false, wait := x.stopWait }

/-- The entry of a pinned miss, for the record (R194). -/
def State.recordMiss (s : State) (t : Nat) (e : FqEntry) : State :=
  if (s.tenant t).faultq = 0#40 then s
  else (s.fqReport t e .record).2.fqNotify t (s.tenant t).fqTail

/-- A pinned miss ends the strand (R194). -/
def State.pinMiss (s : State) (n : Nat) (m : PageMiss) : State :=
  (s.recordMiss (s.strand n).owner.toNat (m.entry false n 0#16 3#2)).endStrand n 6#4 cPinMiss false

/-- Whether faults of a strand are still held (R197). -/
def State.faultsHeld (s : State) (n : Nat) : Bool :=
  (s.tenant (s.strand n).owner.toNat).fqHolding.any fun h => h.who == .strand n

/-- Every awaited verdict has arrived (R202). -/
def State.verdictsIn (s : State) (n : Nat) : Bool :=
  let x := s.strand n
  !s.faultsHeld n && decide (popBelow x.awaitGot 16 = x.awaitSeqs.length)

/-- The verdicts are applied (R202): a deny ends the strand, replays reissue its instruction. -/
def State.applyVerdicts (s : State) (n : Nat) : State :=
  let x := s.strand n
  if x.awaitDenied then s.endStrand n 6#4 cNotResident false
  else
    s.updStrand n fun x => { x with
      state := 1#4, cause := 0#8, owed := false, prevBatch := x.awaitSeqs, resumed := true }

/-! Stores of the queue engine and of the dispatcher in a tenant's tables (R101, R103, R105). -/

/-- A pending command of a queue changed. -/
def State.updCommand (s : State) (q serial : Nat) (f : Command → Command) : State :=
  s.updQueue q fun x => { x with pending := x.pending.map fun c => if c.serial = serial then f c else c }

/-- An entry of the ready pool, or a flow word to be closed, changed. -/
def State.updReady (s : State) (id : Nat) (f : ReadyEntry → ReadyEntry) : State :=
  { s with ready := s.ready.map fun e => if e.id = id then f e else e }

def State.updClose (s : State) (id : Nat) (f : FlowClose → FlowClose) : State :=
  { s with closes := s.closes.map fun e => if e.id = id then f e else e }

/-- What awaits a fault that has been written learns its sequence (R197). -/
def State.awaitSeq (s : State) (seq : BitVec 48) : Faulter → State
  | .record => s
  | .strand n => s.updStrand n fun y => { y with awaitSeqs := y.awaitSeqs ++ [seq] }
  | .op id => { s with ops := mapTable s.ops fun i o =>
      if i == id then { o with awaiting := o.awaiting ++ [seq] } else o }
  | .command q k => s.updCommand q k fun c => { c with waits := .seq seq }
  | .entry id => s.updReady id fun e => { e with waits := .seq seq }
  | .closing id => s.updClose id fun e => { e with waits := .seq seq }

/-- How such a store ends: performed, not possible now, its page reported, or failed with a cause. -/
inductive Stored where
  | done (s : State)
  | later
  | reported (w : PageWait) (s : State)
  | failed (cause : Nat) (s : State)

/-- The fault queue entry of such a store (R198, log 4). -/
def State.storeEntry (s : State) (va : Word) (level : Nat) (status : BitVec 2) : FqEntry :=
  ({ va := va, level := level, mask := 2#3, count := 1 } : PageMiss).entry true
    (s.free 5).toNat 0#16 status

/-- The word at a tenant's virtual address changed: a miss is reported, and a pinned one entered for the
record (R194). DESIGN CHOICE (log 75): the entry's stale-replay count is 0, since R203 names strands and engine
operations. -/
def State.storeFor (s : State) (t : Nat) (va : Word) (f : Word → Word) (who : Faulter) : Stored :=
  match s.tenantWord t va true with
  | .ok x => .done (s.engineUpdate x f)
  | .error .wait | .error .entry | .error .conflict => .later
  | .error (.trap c _) => .failed c s
  | .error (.pinMiss va level) => .failed cPinMiss (s.recordMiss t (s.storeEntry va level 3#2))
  | .error (.miss va level) =>
    let r := s.fqReport t (s.storeEntry va level 0#2) who
    .reported (match r.1 with
      | some q => .seq q
      | none => .held) (r.2.fqNotify t (s.tenant t).fqTail)

/-- The dispatcher tries again to close a flow word (R105); one that cannot be written stays as it is. -/
def State.flowClose (s : State) (id : Nat) : State :=
  let gone (s : State) : State := { s with closes := s.closes.filter fun e => e.id != id }
  match s.closes.find? fun e => e.id == id && e.waits == .none with
  | none => s
  | some e => match s.storeFor e.tenant e.va closedWord (.closing id) with
    | .done s | .failed _ s => gone s
    | .later => s
    | .reported w s => s.updClose id fun e => { e with waits := w }

/-! Completion tags (R140, R141). -/

def Strand.pending (x : Strand) (t : Nat) : Bool := !x.tags.getLsbD t

def Strand.startTag (x : Strand) (t : Nat) : Strand :=
  { x with tags := putBit x.tags t false
           tstat := x.tstat.setIfInBounds t (putBit (x.tstat.toList.getD t 0#9) 8 false) }

/-- An operation takes a tag: it is pending. An operation whose release is complete, and which used it,
reports there no more (R140, R141). -/
def State.takeTag (s : State) (n t : Nat) : State :=
  { s with ops := mapTable s.ops fun _ o =>
      if o.strand = n ∧ o.released ∧ o.rtag.toNat = t then { o with rtag := o.atag } else o
  }.updStrand n fun x => x.startTag t

/-- A tag completes with a status. DESIGN CHOICE (log 62): an operation that fails after its release tag has
completed, and a `twait` has returned it, writes its status there again; it is then not returned. -/
def Strand.completeTag (x : Strand) (t status : Nat) : Strand :=
  { x with tags := putBit x.tags t true
           tstat := x.tstat.setIfInBounds t (BitVec.ofNat 9 (status % 256)) }

/-- A tag of a strand that has been freed is nobody's (R80). -/
def State.completeTag (s : State) (n t status : Nat) : State :=
  if hasKey s.strands n then s.updStrand n fun x => x.completeTag t status else s

/-- The entries of an operation retire. -/
def State.boardRetire (s : State) (c op : Nat) : State :=
  s.updCore c fun x => { x with board := x.board.filter fun e => e.op != op }

/-! The end of an engine operation (R139, R143, R182). -/

/-- The record that an absorb of a strand that has ended leaves to R281. -/
def State.leftRecord (s : State) (o : EngineOp) : Option Nat :=
  match o.kind with
  | .absorb m _ _ => if (s.strand o.strand).ended ∧ (s.seal m).strand = o.strand % strandMax then some m else none
  | .copy _ | .coll _ _ _ _ _ _ _ _ _ _ | .rred _ _ _ _ => none

/-- An operation is over: its entries retire, its region closes, and the record it absorbed for is finished
when its strand has ended (R281). -/
def State.dropOp (s : State) (id : Nat) (o : EngineOp) : State :=
  let s := { s with ops := removeAt s.ops id }
  let s := (s.boardRetire o.core o.sbOp).sweepRaces
  match s.leftRecord o with
  | some m => s.abandonSeal m
  | none => s

/-- It fails with a status in both of its tags (R139). -/
def State.failOp (s : State) (id : Nat) (o : EngineOp) (status : Nat) : State :=
  ((s.completeTag o.strand o.rtag.toNat status).completeTag o.strand o.atag.toNat status).dropOp id o

/-- It has delivered everything. -/
def State.doneOp (s : State) (id : Nat) (o : EngineOp) : State :=
  (s.completeTag o.strand o.atag.toNat 0).dropOp id o

def State.updOp (s : State) (id : Nat) (f : EngineOp → EngineOp) : State :=
  { s with ops := mapTable s.ops fun i o => if i = id then f o else o }

/-- An operation by number. -/
def State.findOp (s : State) (id : Nat) : Option EngineOp :=
  (s.ops.find? fun e => e.1 == id).map (·.2)

/-- A failed absorb fails its record (R279); an open record whose strand has ended, or whose absorb a kill or a
fencing ends, is left to R281. -/
def State.tornOp (s : State) (o : EngineOp) : State :=
  match o.kind with
  | .absorb m _ _ => s.updSeal m fun r =>
      if (r.state = 1#3 ∧ o.ended = 0#8 ∧ !(s.strand o.strand).ended) ∨ r.state = 2#3 then
        { r with state := 4#3, result := BitVec.ofNat 8 kTorn }
      else r
  | _ => s

/-- Every engine operation of a strand fails at once with a code: its die is fenced (R261). -/
def State.failOps (s : State) (n code : Nat) : State :=
  (s.ops.filter fun e => e.2.strand == n).foldl (fun s e =>
    let o := { e.2 with ended := BitVec.ofNat 8 code }
    (s.tornOp o).failOp e.1 o code) s

/-! The end of a meaning. -/

/-- The access mask of a report: R [0], W [1], X [2] (R198). -/
def maskOf (read write exec : Bool) : BitVec 3 :=
  BitVec.ofNat 3 ((if read then 1 else 0) + (if write then 2 else 0) + (if exec then 4 else 0))

/-- The issuing strand requests an entry of its core's scoreboard, which has none for it (R146). -/
def State.joinLine (s : State) : State := s.updCore s.me.core fun x =>
  { x with boardLine := if x.boardLine.contains s.cur then x.boardLine else x.boardLine ++ [s.cur] }

/-- It has been allocated one, and waits for older accesses (R146). -/
def State.holdEntry (s : State) : State := s.updCore s.me.core fun x =>
  { x with boardLine := x.boardLine.filter (· != s.cur)
           boardHold := if x.boardHold.contains s.cur then x.boardHold else s.cur :: x.boardHold }

/-- What stops an instruction whole acts on the strand: a cause is raised at its address, a miss is
reported, a wait changes nothing but what the strand has or wants of the scoreboard. -/
def State.stopped (s : State) (mask : BitVec 3) : Stop → State
  | .trap cause addr => s.raise s.cur cause s.me.pc addr
  | .wait => s
  | .entry => s.joinLine
  | .conflict => s.holdEntry
  | .miss va level => s.reportPages s.cur [{ va := va, level := level, mask := mask, count := 1 }]
  | .pinMiss va level => s.pinMiss s.cur { va := va, level := level, mask := mask, count := 1 }

/-- A meaning ends: the state it made, or what stopped it, on the state it began with. -/
def finish (s : State) (mask : BitVec 3) (r : Except Stop State) :
    Host.Outcome State Fault Refusal :=
  match r with
  | .ok s' => .next s'
  | .error e => .next (s.stopped mask e)

/-- A cause raised by an instruction without an address. -/
def trap (cause : Nat) : Except Stop α := .error (.trap cause 0#64)

/-- Raise a cause unless a condition holds. -/
def demand (ok : Bool) (cause : Nat) (addr : Word := 0#64) : Except Stop Unit :=
  if ok then .ok () else .error (.trap cause addr)

end Sys2Proof.Machine
end

