-- ==== Sys2Proof/Machine/Integer.lean ====
section
/-! DEFINITION. The scalar integer instructions: the integer group (R303, R304), the unary group
(R310), moves, selection and comparison (R305, R311, R333, R339). None sets a flag or raises a cause
of its own. -/

namespace Sys2Proof.Machine

/-! The functions of R304 at a width, shared with the vector unit (R112, R113). -/

def aluAdd {n : Nat} (x y : BitVec n) : BitVec n := x + y
def aluSub {n : Nat} (x y : BitVec n) : BitVec n := x - y
def aluMul {n : Nat} (x y : BitVec n) : BitVec n := x * y

/-- The upper half of the signed product (R112). -/
def aluMulh {n : Nat} (x y : BitVec n) : BitVec n := BitVec.ofInt n (x.toInt * y.toInt / 2 ^ n)

/-- The upper half of the unsigned product (R112). -/
def aluMulhu {n : Nat} (x y : BitVec n) : BitVec n := BitVec.ofNat n (x.toNat * y.toNat / 2 ^ n)

/-- Signed division toward zero: all ones for divisor 0, MIN for MIN / -1 (R113). -/
def aluDiv {n : Nat} (x y : BitVec n) : BitVec n :=
  if y = 0#n then BitVec.allOnes n else BitVec.ofInt n (x.toInt.tdiv y.toInt)

def aluDivu {n : Nat} (x y : BitVec n) : BitVec n :=
  if y = 0#n then BitVec.allOnes n else BitVec.ofNat n (x.toNat / y.toNat)

/-- The signed remainder takes the sign of the dividend; the dividend for divisor 0 (R113). -/
def aluRem {n : Nat} (x y : BitVec n) : BitVec n :=
  if y = 0#n then x else BitVec.ofInt n (x.toInt.tmod y.toInt)

def aluRemu {n : Nat} (x y : BitVec n) : BitVec n :=
  if y = 0#n then x else BitVec.ofNat n (x.toNat % y.toNat)

def aluAnd {n : Nat} (x y : BitVec n) : BitVec n := x &&& y
def aluAndn {n : Nat} (x y : BitVec n) : BitVec n := x &&& ~~~y
def aluOr {n : Nat} (x y : BitVec n) : BitVec n := x ||| y
def aluXor {n : Nat} (x y : BitVec n) : BitVec n := x ^^^ y

/-- Shifts take the amount modulo the width (R112). -/
def aluShl {n : Nat} (x y : BitVec n) : BitVec n := x <<< (y.toNat % n)
def aluShr {n : Nat} (x y : BitVec n) : BitVec n := x >>> (y.toNat % n)
def aluSra {n : Nat} (x y : BitVec n) : BitVec n := x.sshiftRight (y.toNat % n)
def aluMin {n : Nat} (x y : BitVec n) : BitVec n := if x.toInt ≤ y.toInt then x else y
def aluMax {n : Nat} (x y : BitVec n) : BitVec n := if x.toInt ≤ y.toInt then y else x
def aluMinu {n : Nat} (x y : BitVec n) : BitVec n := if x.toNat ≤ y.toNat then x else y
def aluMaxu {n : Nat} (x y : BitVec n) : BitVec n := if x.toNat ≤ y.toNat then y else x

/-- A function of the group at the width W gives: 64 bits, or the low 32 bits of each source with the
result sign-extended (R44, R304). -/
def aluAt (f64 : Word → Word → Word) (f32 : BitVec 32 → BitVec 32 → BitVec 32) (w : BitVec 2)
    (x y : Word) : Word :=
  if w = 0#2 then f64 x y else (f32 (x.setWidth 32) (y.setWidth 32)).signExtend 64

/-- A scalar result is written and the instruction retires. -/
def State.result (s : State) (rd : SReg) (v : Word) : State := (s.setS rd v).retire

/-- `add`, register form (R304). -/
def execAdd (w : BitVec 2) (rd rb rc : SReg) (s : State) : Host.Outcome State Fault Refusal :=
  .next (s.result rd (aluAt aluAdd aluAdd w (s.sreg rb) (s.sreg rc)))

/-- `sub`, register form (R304). -/
def execSub (w : BitVec 2) (rd rb rc : SReg) (s : State) : Host.Outcome State Fault Refusal :=
  .next (s.result rd (aluAt aluSub aluSub w (s.sreg rb) (s.sreg rc)))

/-- `mul`, register form (R304). -/
def execMul (w : BitVec 2) (rd rb rc : SReg) (s : State) : Host.Outcome State Fault Refusal :=
  .next (s.result rd (aluAt aluMul aluMul w (s.sreg rb) (s.sreg rc)))

/-- `mulh`, register form (R304). -/
def execMulh (w : BitVec 2) (rd rb rc : SReg) (s : State) : Host.Outcome State Fault Refusal :=
  .next (s.result rd (aluAt aluMulh aluMulh w (s.sreg rb) (s.sreg rc)))

/-- `mulhu`, register form (R304). -/
def execMulhu (w : BitVec 2) (rd rb rc : SReg) (s : State) : Host.Outcome State Fault Refusal :=
  .next (s.result rd (aluAt aluMulhu aluMulhu w (s.sreg rb) (s.sreg rc)))

/-- `div`, register form (R304). -/
def execDiv (w : BitVec 2) (rd rb rc : SReg) (s : State) : Host.Outcome State Fault Refusal :=
  .next (s.result rd (aluAt aluDiv aluDiv w (s.sreg rb) (s.sreg rc)))

/-- `divu`, register form (R304). -/
def execDivu (w : BitVec 2) (rd rb rc : SReg) (s : State) : Host.Outcome State Fault Refusal :=
  .next (s.result rd (aluAt aluDivu aluDivu w (s.sreg rb) (s.sreg rc)))

/-- `rem`, register form (R304). -/
def execRem (w : BitVec 2) (rd rb rc : SReg) (s : State) : Host.Outcome State Fault Refusal :=
  .next (s.result rd (aluAt aluRem aluRem w (s.sreg rb) (s.sreg rc)))

/-- `remu`, register form (R304). -/
def execRemu (w : BitVec 2) (rd rb rc : SReg) (s : State) : Host.Outcome State Fault Refusal :=
  .next (s.result rd (aluAt aluRemu aluRemu w (s.sreg rb) (s.sreg rc)))

/-- `and`, register form (R304). -/
def execAnd (w : BitVec 2) (rd rb rc : SReg) (s : State) : Host.Outcome State Fault Refusal :=
  .next (s.result rd (aluAt aluAnd aluAnd w (s.sreg rb) (s.sreg rc)))

/-- `andn`, register form (R304). -/
def execAndn (w : BitVec 2) (rd rb rc : SReg) (s : State) : Host.Outcome State Fault Refusal :=
  .next (s.result rd (aluAt aluAndn aluAndn w (s.sreg rb) (s.sreg rc)))

/-- `or`, register form (R304). -/
def execOr (w : BitVec 2) (rd rb rc : SReg) (s : State) : Host.Outcome State Fault Refusal :=
  .next (s.result rd (aluAt aluOr aluOr w (s.sreg rb) (s.sreg rc)))

/-- `xor`, register form (R304). -/
def execXor (w : BitVec 2) (rd rb rc : SReg) (s : State) : Host.Outcome State Fault Refusal :=
  .next (s.result rd (aluAt aluXor aluXor w (s.sreg rb) (s.sreg rc)))

/-- `shl`, register form (R304). -/
def execShl (w : BitVec 2) (rd rb rc : SReg) (s : State) : Host.Outcome State Fault Refusal :=
  .next (s.result rd (aluAt aluShl aluShl w (s.sreg rb) (s.sreg rc)))

/-- `shr`, register form (R304). -/
def execShr (w : BitVec 2) (rd rb rc : SReg) (s : State) : Host.Outcome State Fault Refusal :=
  .next (s.result rd (aluAt aluShr aluShr w (s.sreg rb) (s.sreg rc)))

/-- `sra`, register form (R304). -/
def execSra (w : BitVec 2) (rd rb rc : SReg) (s : State) : Host.Outcome State Fault Refusal :=
  .next (s.result rd (aluAt aluSra aluSra w (s.sreg rb) (s.sreg rc)))

/-- `min`, register form (R304). -/
def execMin (w : BitVec 2) (rd rb rc : SReg) (s : State) : Host.Outcome State Fault Refusal :=
  .next (s.result rd (aluAt aluMin aluMin w (s.sreg rb) (s.sreg rc)))

/-- `max`, register form (R304). -/
def execMax (w : BitVec 2) (rd rb rc : SReg) (s : State) : Host.Outcome State Fault Refusal :=
  .next (s.result rd (aluAt aluMax aluMax w (s.sreg rb) (s.sreg rc)))

/-- `minu`, register form (R304). -/
def execMinu (w : BitVec 2) (rd rb rc : SReg) (s : State) : Host.Outcome State Fault Refusal :=
  .next (s.result rd (aluAt aluMinu aluMinu w (s.sreg rb) (s.sreg rc)))

/-- `maxu`, register form (R304). -/
def execMaxu (w : BitVec 2) (rd rb rc : SReg) (s : State) : Host.Outcome State Fault Refusal :=
  .next (s.result rd (aluAt aluMaxu aluMaxu w (s.sreg rb) (s.sreg rc)))

/-- `add`, immediate form (R304). -/
def execAddImm (w : BitVec 2) (rd rb : SReg) (imm : BitVec 32) (s : State) :
    Host.Outcome State Fault Refusal :=
  .next (s.result rd (aluAt aluAdd aluAdd w (s.sreg rb) (sextImm imm)))

/-- `sub`, immediate form (R304). -/
def execSubImm (w : BitVec 2) (rd rb : SReg) (imm : BitVec 32) (s : State) :
    Host.Outcome State Fault Refusal :=
  .next (s.result rd (aluAt aluSub aluSub w (s.sreg rb) (sextImm imm)))

/-- `mul`, immediate form (R304). -/
def execMulImm (w : BitVec 2) (rd rb : SReg) (imm : BitVec 32) (s : State) :
    Host.Outcome State Fault Refusal :=
  .next (s.result rd (aluAt aluMul aluMul w (s.sreg rb) (sextImm imm)))

/-- `mulh`, immediate form (R304). -/
def execMulhImm (w : BitVec 2) (rd rb : SReg) (imm : BitVec 32) (s : State) :
    Host.Outcome State Fault Refusal :=
  .next (s.result rd (aluAt aluMulh aluMulh w (s.sreg rb) (sextImm imm)))

/-- `mulhu`, immediate form (R304). -/
def execMulhuImm (w : BitVec 2) (rd rb : SReg) (imm : BitVec 32) (s : State) :
    Host.Outcome State Fault Refusal :=
  .next (s.result rd (aluAt aluMulhu aluMulhu w (s.sreg rb) (sextImm imm)))

/-- `div`, immediate form (R304). -/
def execDivImm (w : BitVec 2) (rd rb : SReg) (imm : BitVec 32) (s : State) :
    Host.Outcome State Fault Refusal :=
  .next (s.result rd (aluAt aluDiv aluDiv w (s.sreg rb) (sextImm imm)))

/-- `divu`, immediate form (R304). -/
def execDivuImm (w : BitVec 2) (rd rb : SReg) (imm : BitVec 32) (s : State) :
    Host.Outcome State Fault Refusal :=
  .next (s.result rd (aluAt aluDivu aluDivu w (s.sreg rb) (sextImm imm)))

/-- `rem`, immediate form (R304). -/
def execRemImm (w : BitVec 2) (rd rb : SReg) (imm : BitVec 32) (s : State) :
    Host.Outcome State Fault Refusal :=
  .next (s.result rd (aluAt aluRem aluRem w (s.sreg rb) (sextImm imm)))

/-- `remu`, immediate form (R304). -/
def execRemuImm (w : BitVec 2) (rd rb : SReg) (imm : BitVec 32) (s : State) :
    Host.Outcome State Fault Refusal :=
  .next (s.result rd (aluAt aluRemu aluRemu w (s.sreg rb) (sextImm imm)))

/-- `and`, immediate form (R304). -/
def execAndImm (w : BitVec 2) (rd rb : SReg) (imm : BitVec 32) (s : State) :
    Host.Outcome State Fault Refusal :=
  .next (s.result rd (aluAt aluAnd aluAnd w (s.sreg rb) (sextImm imm)))

/-- `andn`, immediate form (R304). -/
def execAndnImm (w : BitVec 2) (rd rb : SReg) (imm : BitVec 32) (s : State) :
    Host.Outcome State Fault Refusal :=
  .next (s.result rd (aluAt aluAndn aluAndn w (s.sreg rb) (sextImm imm)))

/-- `or`, immediate form (R304). -/
def execOrImm (w : BitVec 2) (rd rb : SReg) (imm : BitVec 32) (s : State) :
    Host.Outcome State Fault Refusal :=
  .next (s.result rd (aluAt aluOr aluOr w (s.sreg rb) (sextImm imm)))

/-- `xor`, immediate form (R304). -/
def execXorImm (w : BitVec 2) (rd rb : SReg) (imm : BitVec 32) (s : State) :
    Host.Outcome State Fault Refusal :=
  .next (s.result rd (aluAt aluXor aluXor w (s.sreg rb) (sextImm imm)))

/-- `shl`, immediate form (R304). -/
def execShlImm (w : BitVec 2) (rd rb : SReg) (imm : BitVec 32) (s : State) :
    Host.Outcome State Fault Refusal :=
  .next (s.result rd (aluAt aluShl aluShl w (s.sreg rb) (sextImm imm)))

/-- `shr`, immediate form (R304). -/
def execShrImm (w : BitVec 2) (rd rb : SReg) (imm : BitVec 32) (s : State) :
    Host.Outcome State Fault Refusal :=
  .next (s.result rd (aluAt aluShr aluShr w (s.sreg rb) (sextImm imm)))

/-- `sra`, immediate form (R304). -/
def execSraImm (w : BitVec 2) (rd rb : SReg) (imm : BitVec 32) (s : State) :
    Host.Outcome State Fault Refusal :=
  .next (s.result rd (aluAt aluSra aluSra w (s.sreg rb) (sextImm imm)))

/-- `min`, immediate form (R304). -/
def execMinImm (w : BitVec 2) (rd rb : SReg) (imm : BitVec 32) (s : State) :
    Host.Outcome State Fault Refusal :=
  .next (s.result rd (aluAt aluMin aluMin w (s.sreg rb) (sextImm imm)))

/-- `max`, immediate form (R304). -/
def execMaxImm (w : BitVec 2) (rd rb : SReg) (imm : BitVec 32) (s : State) :
    Host.Outcome State Fault Refusal :=
  .next (s.result rd (aluAt aluMax aluMax w (s.sreg rb) (sextImm imm)))

/-- `minu`, immediate form (R304). -/
def execMinuImm (w : BitVec 2) (rd rb : SReg) (imm : BitVec 32) (s : State) :
    Host.Outcome State Fault Refusal :=
  .next (s.result rd (aluAt aluMinu aluMinu w (s.sreg rb) (sextImm imm)))

/-- `maxu`, immediate form (R304). -/
def execMaxuImm (w : BitVec 2) (rd rb : SReg) (imm : BitVec 32) (s : State) :
    Host.Outcome State Fault Refusal :=
  .next (s.result rd (aluAt aluMaxu aluMaxu w (s.sreg rb) (sextImm imm)))
/-! The unary group (R310). -/

/-- The operand width W of the unary group, and of scalar loads and stores, in bits (R310, R328). -/
def unaryBits (w : BitVec 2) : Nat := 8 * 2 ^ w.toNat

/-- Leading zeros of the low `w` bits, counted from bit `w` - 1 down. -/
def leadingZeros (x : Word) : (w : Nat) → Nat
  | 0 => 0
  | w + 1 => if x.getLsbD w then 0 else leadingZeros x w + 1

/-- Trailing zeros of the low bits, at most `left`, from bit `i` up. -/
def trailingZeros (x : Word) (i : Nat) : (left : Nat) → Nat
  | 0 => 0
  | left + 1 => if x.getLsbD i then 0 else trailingZeros x (i + 1) left + 1

/-- `clz` (R310). -/
def execClz (w : BitVec 2) (rd rb : SReg) (s : State) : Host.Outcome State Fault Refusal :=
  .next (s.result rd (BitVec.ofNat 64 (leadingZeros (s.sreg rb) (unaryBits w))))

/-- `ctz` (R310). -/
def execCtz (w : BitVec 2) (rd rb : SReg) (s : State) : Host.Outcome State Fault Refusal :=
  .next (s.result rd (BitVec.ofNat 64 (trailingZeros (s.sreg rb) 0 (unaryBits w))))

/-- `popc` (R310). -/
def execPopc (w : BitVec 2) (rd rb : SReg) (s : State) : Host.Outcome State Fault Refusal :=
  .next (s.result rd (BitVec.ofNat 64 (popBelow (s.sreg rb) (unaryBits w))))

/-- `sext` (R310). -/
def execSext (w : BitVec 2) (rd rb : SReg) (s : State) : Host.Outcome State Fault Refusal :=
  .next (s.result rd (sextLow (unaryBits w) (s.sreg rb)))

/-- `zext` (R310). -/
def execZext (w : BitVec 2) (rd rb : SReg) (s : State) : Host.Outcome State Fault Refusal :=
  .next (s.result rd (((s.sreg rb).setWidth (unaryBits w)).setWidth 64))

/-- `mov` (R310). -/
def execMov (rd rb : SReg) (s : State) : Host.Outcome State Fault Refusal :=
  .next (s.result rd (s.sreg rb))

/-- `movi`: the sign-extended immediate (R333). -/
def execMovi (rd : SReg) (imm : BitVec 32) (s : State) : Host.Outcome State Fault Refusal :=
  .next (s.result rd (sextImm imm))

/-- `movi.hi`: the immediate to bits [63:32], the rest kept (R333). -/
def execMoviHi (rd : SReg) (imm : BitVec 32) (s : State) : Host.Outcome State Fault Refusal :=
  .next (s.result rd (putSlice (s.sreg rd) 32 imm))

/-- `addpc` (R305). -/
def execAddpc (rd : SReg) (imm : BitVec 32) (s : State) : Host.Outcome State Fault Refusal :=
  .next (s.result rd (s.me.pc + sextImm imm))

/-- `sel` (R339). -/
def execSel (rd rb rc rs : SReg) (_hint : BitVec 2) (s : State) :
    Host.Outcome State Fault Refusal :=
  .next (s.result rd (if s.sreg rs = 0#64 then s.sreg rc else s.sreg rb))

/-- The condition of a code on two operands (R44). -/
def condHolds {n : Nat} (code : Nat) (x y : BitVec n) : Bool :=
  match code with
  | 0 => x == y
  | 1 => x != y
  | 2 => decide (x.toInt < y.toInt)
  | 3 => decide (y.toInt ≤ x.toInt)
  | 4 => decide (x.toNat < y.toNat)
  | _ => decide (y.toNat ≤ x.toNat)

/-- `cmp` (R311). -/
def execCmp (cond : BitVec 6) (rd rb rc : SReg) (s : State) : Host.Outcome State Fault Refusal :=
  .next (s.result rd (wordOfBool (condHolds cond.toNat (s.sreg rb) (s.sreg rc))))

end Sys2Proof.Machine
end

