-- ==== Sys2Proof/Machine/Branch.lean ====
section
/-! DEFINITION. Hints and transfers of control (R39, R41, R306, R307, R323, R324, R334, R337), traps,
and the step of an encoding that is no instruction (R37, R39, R214). A transfer's target is checked
when it is fetched. -/

namespace Sys2Proof.Machine

/-- `nop` (R334). -/
def execNop (s : State) : Host.Outcome State Fault Refusal := .next s.retire

/-- `hint`, format H: no effect but the PC's advance (R41). What it may ask of the instruction cache
(R323) is no effect on state. -/
def execHintH (_a : BitVec 5) (_w : BitVec 2) (s : State) : Host.Outcome State Fault Refusal :=
  .next s.retire

/-- `hint` with a 16-bit tail (R41). -/
def execHintHt1 (_a : BitVec 5) (_w : BitVec 2) (_tail : BitVec 16) (s : State) :
    Host.Outcome State Fault Refusal := .next s.retire

/-- `hint` with a 32-bit tail (R41). -/
def execHintHt2 (_a : BitVec 5) (_w : BitVec 2) (_tail : BitVec 32) (s : State) :
    Host.Outcome State Fault Refusal := .next s.retire

/-- `hint` with a 48-bit tail (R41). -/
def execHintHt3 (_a : BitVec 5) (_w : BitVec 2) (_tail : BitVec 48) (s : State) :
    Host.Outcome State Fault Refusal := .next s.retire

/-- The target of a slot offset: PC + 2 * sext(IMM) (R39). -/
def slotTarget (pc : Word) (imm : BitVec 32) : Word := pc + 2#64 * sextImm imm

/-- `b` (R306). -/
def execB (imm : BitVec 32) (s : State) : Host.Outcome State Fault Refusal :=
  .next (s.retireTo (slotTarget s.me.pc imm))

/-- `b.cond` (R306). -/
def execBCond (cond : BitVec 5) (rb rc : SReg) (imm : BitVec 32) (s : State) :
    Host.Outcome State Fault Refusal :=
  .next (if condHolds cond.toNat (s.sreg rb) (s.sreg rc) then s.retireTo (slotTarget s.me.pc imm) else s.retire)

/-- `call`: the link in s31 is the address R36 gives (R307). -/
def execCall (imm : BitVec 32) (s : State) : Host.Outcome State Fault Refusal :=
  .next ((s.setS 31#5 s.npc).retireTo (slotTarget s.me.pc imm))

/-- Jump to an address in a register: an odd one raises ALIGNMENT at the jump (R39, R324). -/
def State.jumpTo (s : State) (t : Word) : Except Stop State := do
  demand (!t.getLsbD 0) cAlignment t
  .ok (s.retireTo t)

/-- `jmp` (R324). -/
def execJmp (rb : SReg) (s : State) : Host.Outcome State Fault Refusal :=
  finish s 0#3 (s.jumpTo (s.sreg rb))

/-- `ret`: as `jmp s31` (R337). -/
def execRet (s : State) : Host.Outcome State Fault Refusal :=
  finish s 0#3 (s.jumpTo (s.sreg 31#5))

/-- An instruction completes, and then raises its cause (R214): the next address is reached in sequence. -/
def State.completed (s : State) : State := s.updMe fun x => { x with inSequence := true, resumed := false }

/-- `trap`: completes, then raises TRAP_INSTRUCTION; TRAPPC is the next instruction's address,
TRAPADDR the number (R214). A strand without a handler stops with PC there too. -/
def execTrap (n : BitVec 6) (s : State) : Host.Outcome State Fault Refusal :=
  .next (s.completed.raise s.cur cTrapInstruction s.npc (n.setWidth 64))

/-- `brk`: completes, then stops the strand with BREAKPOINT (R214). -/
def execBrk (s : State) : Host.Outcome State Fault Refusal :=
  .next (s.completed.raise s.cur cBreakpoint s.npc 0#64)

/-- An encoding that is no instruction raises ILLEGAL_ENCODING at its head (R37); `npc` carries the
address TRAPADDR takes (R306). -/
def execIllegalEncoding (s : State) : Host.Outcome State Fault Refusal :=
  .next (s.raise s.cur cIllegalEncoding s.me.pc s.npc)

end Sys2Proof.Machine
end

