-- ==== Sys2Proof/Machine/Float.lean ====
section
/-! DEFINITION. Floating-point values as exact numbers, and the one rounding of R116: formats (R114),
special values (R115), overflow and tininess (R116), saturating conversion (R119), block tags
(R121 to R123). -/

namespace Sys2Proof.Machine

/-- A floating-point format (R114). -/
structure Fmt where
  ebits : Nat
  mbits : Nat
  bias  : Nat
  /-- It has infinities; E4M3 has none. -/
  infs  : Bool
  /-- It has signalling NaNs (R115). -/
  snans : Bool
  deriving DecidableEq, Repr

def fp64 : Fmt := { ebits := 11, mbits := 52, bias := 1023, infs := true, snans := true }
def fp32 : Fmt := { ebits := 8, mbits := 23, bias := 127, infs := true, snans := true }
def fp16 : Fmt := { ebits := 5, mbits := 10, bias := 15, infs := true, snans := true }
def bf16 : Fmt := { ebits := 8, mbits := 7, bias := 127, infs := true, snans := true }
def e4m3 : Fmt := { ebits := 4, mbits := 3, bias := 7, infs := false, snans := false }
def e5m2 : Fmt := { ebits := 5, mbits := 2, bias := 15, infs := true, snans := false }

/-- The width of a format in bits. -/
def Fmt.bits (f : Fmt) : Nat := 1 + f.ebits + f.mbits

/-- The exponent of the smallest normal, and of the unit of its subnormals (R114). -/
def Fmt.emin (f : Fmt) : Int := 1 - (f.bias : Int)
def Fmt.qmin (f : Fmt) : Int := f.emin - (f.mbits : Int)

/-- The largest finite value as mantissa and exponent (R114). -/
def Fmt.maxM (f : Fmt) : Nat := if f.infs then 2 ^ (f.mbits + 1) - 1 else 2 ^ (f.mbits + 1) - 2
def Fmt.maxQ (f : Fmt) : Int :=
  (if f.infs then 2 ^ f.ebits - 2 else 2 ^ f.ebits - 1) - (f.bias : Int) - (f.mbits : Int)

/-- A value: a NaN, an infinity, or (-1)^neg * m * 2^e; m = 0 is a signed zero. -/
inductive FVal where
  | nan (signalling : Bool)
  | inf (neg : Bool)
  | fin (neg : Bool) (m : Nat) (e : Int)
  deriving DecidableEq, Repr

/-- Exception flags: NV [4], DZ [3], OF [2], UF [1], NX [0] (R24, R117). -/
abbrev Flags := BitVec 5
def fNV : Flags := 16#5
def fDZ : Flags := 8#5
def fOF : Flags := 4#5
def fUF : Flags := 2#5
def fNX : Flags := 1#5
def flagIf (b : Bool) (f : Flags) : Flags := if b then f else 0#5

/-- The value of an encoding (R114, R115). -/
def Fmt.decode (f : Fmt) (x : Nat) : FVal :=
  let neg := x / 2 ^ (f.ebits + f.mbits) % 2 == 1
  let ex := x / 2 ^ f.mbits % 2 ^ f.ebits
  let fr := x % 2 ^ f.mbits
  if ex = 2 ^ f.ebits - 1 ∧ f.infs then
    if fr = 0 then .inf neg else .nan (f.snans && decide (fr < 2 ^ (f.mbits - 1)))
  else if ex = 2 ^ f.ebits - 1 ∧ fr = 2 ^ f.mbits - 1 then .nan false
  else if ex = 0 then .fin neg fr f.qmin
  else .fin neg (2 ^ f.mbits + fr) ((ex : Int) - (f.bias : Int) - (f.mbits : Int))

def Fmt.signBit (f : Fmt) (neg : Bool) : Nat := if neg then 2 ^ (f.ebits + f.mbits) else 0

/-- The canonical NaN (R115). -/
def Fmt.nan (f : Fmt) : Nat :=
  if f.infs then (2 ^ f.ebits - 1) * 2 ^ f.mbits + 2 ^ (f.mbits - 1)
  else 2 ^ (f.ebits + f.mbits) - 1

/-- An infinity; a format without one is never asked for it. -/
def Fmt.inf (f : Fmt) (neg : Bool) : Nat := f.signBit neg + (2 ^ f.ebits - 1) * 2 ^ f.mbits

/-- The encoding of m * 2^q for a value that the format holds, m below 2^(mbits + 1). -/
def Fmt.pack (f : Fmt) (neg : Bool) (m : Nat) (q : Int) : Nat :=
  f.signBit neg +
    (if m < 2 ^ f.mbits then m
     else (q + (f.mbits : Int) + (f.bias : Int)).toNat * 2 ^ f.mbits + (m - 2 ^ f.mbits))

def Fmt.largest (f : Fmt) (neg : Bool) : Nat := f.pack neg f.maxM f.maxQ

/-- Bits needed to write a number. -/
def bitLen (m : Nat) : Nat := if m = 0 then 0 else Nat.log2 m + 1

/-- m1 * 2^e1 ≤ m2 * 2^e2. -/
def leDyadic (m1 : Nat) (e1 : Int) (m2 : Nat) (e2 : Int) : Bool :=
  if e1 ≤ e2 then decide (m1 ≤ m2 * 2 ^ (e2 - e1).toNat) else decide (m1 * 2 ^ (e1 - e2).toNat ≤ m2)

/-- Round up in magnitude: the mode, the sign, whether the quotient is odd, the remainder against
half (1 below, 2 at, 3 above; 0 exact) (R116). -/
def roundsUp (mode : Nat) (neg odd : Bool) (part : Nat) : Bool :=
  match mode with
  | 0 => part == 3 || (part == 2 && odd)
  | 1 => false
  | 2 => neg && part != 0
  | 3 => !neg && part != 0
  | _ => part == 2 || part == 3

/-- Round m * 2^e, plus a non-zero amount below its last bit when `sticky`, to a multiple of 2^q: the
multiple, and whether that was inexact. -/
def roundAt (mode : Nat) (neg : Bool) (m : Nat) (e : Int) (sticky : Bool) (q : Int) : Nat × Bool :=
  let sh := q - e
  let (k, part) : Nat × Nat :=
    if sh ≤ 0 then (m * 2 ^ (-sh).toNat, if sticky then 1 else 0)
    else
      let d := 2 ^ sh.toNat
      let r := m % d
      (m / d, if 2 * r < d then (if r = 0 ∧ !sticky then 0 else 1)
              else if 2 * r = d ∧ !sticky then 2 else 3)
  (if roundsUp mode neg (k % 2 == 1) part then k + 1 else k, part != 0)

/-- A finite non-zero value rounded to a format's precision with an unbounded exponent, and to the
format itself where it lies in its range (R116). -/
structure Rounded where
  /-- The unbounded rounding, as mantissa and exponent. -/
  um : Nat
  uq : Int
  /-- The rounding to the format's own spacing. -/
  m : Nat
  q : Int
  inexact : Bool
  tiny : Bool
  deriving DecidableEq, Repr

def Fmt.round (f : Fmt) (mode : Nat) (neg : Bool) (m : Nat) (e : Int) (sticky : Bool) : Rounded :=
  let top := e + (bitLen m : Int) - 1
  let q := top - (f.mbits : Int)
  let (um, ui) := roundAt mode neg m e sticky q
  let (um, uq) := if um = 2 ^ (f.mbits + 1) then (2 ^ f.mbits, q + 1) else (um, q)
  if q ≥ f.qmin then { um := um, uq := uq, m := um, q := uq, inexact := ui, tiny := false }
  else
    let (sm, si) := roundAt mode neg m e sticky f.qmin
    { um := um, uq := uq, m := sm, q := f.qmin, inexact := si
      tiny := !leDyadic 1 f.emin um uq }

/-- The rounded value lies beyond the largest finite one (R116, R119). -/
def Fmt.exceeds (f : Fmt) (r : Rounded) : Bool := !leDyadic r.um r.uq f.maxM f.maxQ

/-- round_to of R297: a finite non-zero exact value, to an encoding with its flags, overflow as the
table of R116. -/
def Fmt.roundFin (f : Fmt) (mode : Nat) (neg : Bool) (m : Nat) (e : Int) (sticky : Bool) :
    Nat × Flags :=
  let r := f.round mode neg m e sticky
  if f.exceeds r then
    let toInf := mode == 0 || mode == 4 || (mode == 2 && neg) || (mode == 3 && !neg)
    (if toInf && f.infs then f.inf neg else f.largest neg, fOF ||| fNX)
  else (f.pack neg r.m r.q, flagIf r.inexact fNX ||| flagIf (r.inexact && r.tiny) fUF)

/-- round_to of any exact value. -/
def Fmt.roundTo (f : Fmt) (mode : Nat) (x : FVal) : Nat × Flags :=
  match x with
  | .nan s => (f.nan, flagIf s fNV)
  | .inf neg => (if f.infs then f.inf neg else f.largest neg, 0#5)
  | .fin neg m e => if m = 0 then (f.signBit neg, 0#5) else f.roundFin mode neg m e false

/-- sat_to of R119 into a floating-point format: the encoding, whether the element saturates, the
flags. -/
def Fmt.satTo (f : Fmt) (mode : Nat) (x : FVal) : Nat × Bool × Flags :=
  match x with
  | .nan s => (f.nan, false, flagIf s fNV)
  | .inf neg => (f.largest neg, true, 0#5)
  | .fin neg m e =>
    if m = 0 then (f.signBit neg, false, 0#5)
    else
      let r := f.round mode neg m e false
      if f.exceeds r then (f.largest neg, true, fOF ||| fNX)
      else (f.pack neg r.m r.q, false, flagIf r.inexact fNX ||| flagIf (r.inexact && r.tiny) fUF)

/-- An exact value rounded to an integer (R119, R120): the integer, and whether that was inexact. -/
def roundInt (mode : Nat) (neg : Bool) (m : Nat) (e : Int) : Int × Bool :=
  let (k, i) := roundAt mode neg m e false 0
  (if neg then -(k : Int) else (k : Int), i)

/-- A conversion into an integer range (R119): the integer, whether it saturates, the flags; a NaN
gives 0. -/
def satInt (mode : Nat) (lo hi : Int) (x : FVal) : Int × Bool × Flags :=
  match x with
  | .nan _ => (0, true, fNV)
  | .inf neg => (if neg then lo else hi, true, fNV)
  | .fin neg m e =>
    let (k, i) := roundInt mode neg m e
    if k < lo then (lo, true, fNV) else if hi < k then (hi, true, fNV) else (k, false, flagIf i fNX)

/-! Exact arithmetic on finite values. -/

/-- Sum of two finite values; the sign of an exact zero is RDN's, or +0, or the common sign (R115). -/
def addFin (mode : Nat) (n1 : Bool) (m1 : Nat) (e1 : Int) (n2 : Bool) (m2 : Nat) (e2 : Int) : FVal :=
  let e := min e1 e2
  let a : Int := (m1 : Int) * 2 ^ (e1 - e).toNat
  let b : Int := (m2 : Int) * 2 ^ (e2 - e).toNat
  let x := (if n1 then -a else a) + (if n2 then -b else b)
  if x = 0 then .fin (if m1 = 0 ∧ m2 = 0 ∧ n1 = n2 then n1 else mode == 2) 0 e
  else .fin (decide (x < 0)) x.natAbs e

/-- Sum of two values and the flags of invalid operands (R115). -/
def fvAdd (mode : Nat) : FVal → FVal → FVal × Flags
  | .nan s, .nan t => (.nan false, flagIf (s || t) fNV)
  | .nan s, _ => (.nan false, flagIf s fNV)
  | _, .nan t => (.nan false, flagIf t fNV)
  | .inf a, .inf b => if a = b then (.inf a, 0#5) else (.nan false, fNV)
  | .inf a, _ => (.inf a, 0#5)
  | _, .inf b => (.inf b, 0#5)
  | .fin n1 m1 e1, .fin n2 m2 e2 => (addFin mode n1 m1 e1 n2 m2 e2, 0#5)

def fvNeg : FVal → FVal
  | .nan s => .nan s
  | .inf a => .inf (!a)
  | .fin n m e => .fin (!n) m e

def fvSub (mode : Nat) (x y : FVal) : FVal × Flags := fvAdd mode x (fvNeg y)

/-- Product, exact (R115). -/
def fvMul : FVal → FVal → FVal × Flags
  | .nan s, .nan t => (.nan false, flagIf (s || t) fNV)
  | .nan s, _ => (.nan false, flagIf s fNV)
  | _, .nan t => (.nan false, flagIf t fNV)
  | .inf a, .inf b => (.inf (a != b), 0#5)
  | .inf a, .fin n m _ => if m = 0 then (.nan false, fNV) else (.inf (a != n), 0#5)
  | .fin n m _, .inf b => if m = 0 then (.nan false, fNV) else (.inf (n != b), 0#5)
  | .fin n1 m1 e1, .fin n2 m2 e2 => (.fin (n1 != n2) (m1 * m2) (e1 + e2), 0#5)

/-- Floor of the square root, bit by bit from bit `k` - 1 down. -/
def isqrtBits (x : Nat) : (k : Nat) → (r : Nat) → Nat
  | 0, r => r
  | k + 1, r => isqrtBits x k (if (r + 2 ^ k) * (r + 2 ^ k) ≤ x then r + 2 ^ k else r)

def isqrt (x : Nat) : Nat := isqrtBits x (bitLen x / 2 + 1) 0

/-- A value rounded once from a truncated magnitude and a sticky bit. -/
def Fmt.roundCut (f : Fmt) (mode : Nat) (neg : Bool) (m : Nat) (e : Int) (sticky : Bool) :
    Nat × Flags :=
  if m = 0 then (f.signBit neg, 0#5) else f.roundFin mode neg m e sticky

/-- Quotient rounded once (R115, R116). -/
def Fmt.div (f : Fmt) (mode : Nat) (x y : FVal) : Nat × Flags :=
  match x, y with
  | .nan s, .nan t => (f.nan, flagIf (s || t) fNV)
  | .nan s, _ => (f.nan, flagIf s fNV)
  | _, .nan t => (f.nan, flagIf t fNV)
  | .inf _, .inf _ => (f.nan, fNV)
  | .inf a, .fin n _ _ => (f.inf (a != n), 0#5)
  | .fin n _ _, .inf b => (f.signBit (n != b), 0#5)
  | .fin n1 m1 e1, .fin n2 m2 e2 =>
    if m2 = 0 then (if m1 = 0 then (f.nan, fNV) else (f.inf (n1 != n2), fDZ))
    else
      let k := f.mbits + 4 + bitLen m2
      let a := m1 * 2 ^ k
      f.roundCut mode (n1 != n2) (a / m2) (e1 - e2 - (k : Int)) (a % m2 != 0)

/-- Square root rounded once (R115). -/
def Fmt.sqrt (f : Fmt) (mode : Nat) (x : FVal) : Nat × Flags :=
  match x with
  | .nan s => (f.nan, flagIf s fNV)
  | .inf neg => if neg then (f.nan, fNV) else (f.inf false, 0#5)
  | .fin neg m e =>
    if m = 0 then (f.signBit neg, 0#5)
    else if neg then (f.nan, fNV)
    else
      let (m, e) : Nat × Int := if e % 2 = 0 then (m, e) else (2 * m, e - 1)
      let k := f.mbits + 4
      let a := m * 2 ^ (2 * k)
      let r := isqrt a
      f.roundCut mode false r (e / 2 - (k : Int)) (r * r != a)

/-- Reciprocal square root rounded once (R115). -/
def Fmt.rsqrt (f : Fmt) (mode : Nat) (x : FVal) : Nat × Flags :=
  match x with
  | .nan s => (f.nan, flagIf s fNV)
  | .inf neg => if neg then (f.nan, fNV) else (f.signBit false, 0#5)
  | .fin neg m e =>
    if m = 0 then (f.inf neg, fDZ)
    else if neg then (f.nan, fNV)
    else
      let (m, e) : Nat × Int := if e % 2 = 0 then (m, e) else (2 * m, e - 1)
      let k := f.mbits + 4 + bitLen m
      let r := isqrt (2 ^ (2 * k) / m)
      f.roundCut mode false r (-(e / 2) - (k : Int)) (r * r * m != 2 ^ (2 * k))

/-- Reciprocal rounded once (R115). -/
def Fmt.recip (f : Fmt) (mode : Nat) (x : FVal) : Nat × Flags := f.div mode (.fin false 1 0) x

/-- Working precision of 2^x, in bits (log 13). -/
def expBits : Nat := 256

/-- 2^(f / 2^k) in fixed point with `expBits` bits, `root` being 2^(2^-i) of the next bit. -/
def exp2Frac (fr : Nat) : (k : Nat) → (root acc : Nat) → Nat
  | 0, _, acc => acc
  | k + 1, root, acc =>
    let root := isqrt (root * 2 ^ expBits)
    exp2Frac fr k root (if fr / 2 ^ k % 2 = 1 then acc * root / 2 ^ expBits else acc)

/-- 2^x rounded once (R115): exact when x is an integer, irrational otherwise. -/
def Fmt.exp2 (f : Fmt) (mode : Nat) (x : FVal) : Nat × Flags :=
  match x with
  | .nan s => (f.nan, flagIf s fNV)
  | .inf neg => if neg then (f.signBit false, 0#5) else (f.inf false, 0#5)
  | .fin neg m e =>
    if m = 0 then f.roundFin mode false 1 0 false
    else if e ≥ 0 then
      -- an integer; beyond 2^16 the result is far outside every format
      let n : Int := if bitLen m + e.toNat ≤ 16 then (m : Int) * 2 ^ e.toNat else 65536
      f.roundFin mode false 1 (if neg then -n else n) false
    else
      let k := (-e).toNat
      let n : Int := if neg then -((m : Int)) / 2 ^ k else (m : Int) / 2 ^ k
      let fr : Nat := ((if neg then -((m : Int)) else (m : Int)) % 2 ^ k).toNat
      if fr = 0 then f.roundFin mode false 1 (if n > 65536 then 65536 else if n < -65536 then -65536 else n) false
      else if k - bitLen m > 100 ∧ bitLen m < k then
        -- |x| below 2^-100: just above or just below 1
        if neg then f.roundFin mode false (2 ^ 200 - 1) (-200) true
        else f.roundFin mode false (2 ^ 200) (-200) true
      else if n > 65536 then f.roundFin mode false 1 65536 true
      else if n < -65536 then f.roundFin mode false 1 (-65536) true
      else
        let y := exp2Frac fr k (2 * 2 ^ expBits) (2 ^ expBits)
        f.roundFin mode false y (n - (expBits : Int)) true

/-- Sum, difference and product rounded once. -/
def Fmt.add (f : Fmt) (mode : Nat) (x y : FVal) : Nat × Flags :=
  let (v, g) := fvAdd mode x y
  let (r, h) := f.roundTo mode v
  (r, g ||| h)

def Fmt.sub (f : Fmt) (mode : Nat) (x y : FVal) : Nat × Flags :=
  let (v, g) := fvSub mode x y
  let (r, h) := f.roundTo mode v
  (r, g ||| h)

def Fmt.mul (f : Fmt) (mode : Nat) (x y : FVal) : Nat × Flags :=
  let (v, g) := fvMul x y
  let (r, h) := f.roundTo mode v
  (r, g ||| h)

/-- b * c + d, exact and rounded once (R124); 0 * infinity is invalid whatever d is (R115). -/
def Fmt.fma (f : Fmt) (mode : Nat) (b c d : FVal) : Nat × Flags :=
  let (p, g) := fvMul b c
  let (v, h) := fvAdd mode p d
  let (r, i) := f.roundTo mode v
  (r, g ||| h ||| i)

def FVal.isNan : FVal → Bool
  | .nan _ => true
  | _ => false

def FVal.isSnan : FVal → Bool
  | .nan s => s
  | _ => false

/-- Order of two values that are no NaNs, -0 below +0: x ≤ y. -/
def fvLe : FVal → FVal → Bool
  | .inf true, _ => true
  | _, .inf false => true
  | .inf false, _ => false
  | _, .inf true => false
  | .fin n1 m1 e1, .fin n2 m2 e2 =>
    match n1, n2 with
    | true, false => true
    | false, true => false
    | false, false => leDyadic m1 e1 m2 e2
    | true, true => leDyadic m2 e2 m1 e1
  | .nan _, _ => false
  | _, .nan _ => false

/-- Numeric order, where the zeros are equal: x ≤ y. -/
def fvNumLe (x y : FVal) : Bool :=
  match x, y with
  | .fin _ 0 _, .fin _ 0 _ => true
  | .fin _ 0 _, y => fvLe (.fin true 0 0) y
  | x, .fin _ 0 _ => fvLe x (.fin false 0 0)
  | x, y => fvLe x y

/-- Minimum or maximum (R115), on encodings, so that the operand itself is returned. -/
def Fmt.minMax (f : Fmt) (isMax : Bool) (x y : Nat) : Nat × Flags :=
  let a := f.decode x
  let b := f.decode y
  let g := flagIf (a.isSnan || b.isSnan) fNV
  match a.isNan, b.isNan with
  | true, true => (f.nan, g)
  | true, false => (y, g)
  | false, true => (x, g)
  | false, false => (if fvLe a b != isMax then x else y, g)

/-- Comparison codes of `fcmp` and `vfcmp`: eq 0, lt 1, le 2, unordered 3 (R115, R315, R357). -/
def fvCompare (code : Nat) (x y : FVal) : Bool × Flags :=
  let nan := x.isNan || y.isNan
  let snan := x.isSnan || y.isSnan
  match code with
  | 0 => (!nan && fvNumLe x y && fvNumLe y x, flagIf snan fNV)
  | 1 => (!nan && fvNumLe x y && !fvNumLe y x, flagIf nan fNV)
  | 2 => (!nan && fvNumLe x y, flagIf nan fNV)
  | _ => (nan, flagIf snan fNV)

/-! Block tags (R121 to R123). -/

def tagFormat (t : Tag) : Nat := (t.extractLsb' 0 8).toNat
def tagScale (t : Tag) : Nat := (t.extractLsb' 8 8).toNat
def mkTag (scale fmt : Nat) : Tag := BitVec.ofNat 16 (256 * scale + fmt)

/-- Elements per block of a format code (R121); 0 for raw and reserved codes. -/
def tagElems (f : Nat) : Nat :=
  match f with
  | 1 | 2 | 8 => 64
  | 3 => 32
  | 4 | 5 => 128
  | 6 => 16
  | 7 => 8
  | _ => 0

/-- A signed field of a number. -/
def signedField (x lo w : Nat) : Int := (BitVec.ofNat w (x / 2 ^ lo)).toInt

def fvOfInt (k : Int) : FVal := .fin (decide (k < 0)) k.natAbs 0

/-- Multiply by a power of two, exactly. -/
def fvScale (x : FVal) (k : Int) : FVal :=
  match x with
  | .fin n m e => .fin n m (e + k)
  | y => y

/-- The floating-point format of a tag code, if it is one. -/
def tagFmt (f : Nat) : Option Fmt :=
  match f with
  | 1 => some e4m3
  | 2 => some e5m2
  | 3 => some bf16
  | 6 => some fp32
  | 7 => some fp64
  | _ => none

/-- Element `i` of a block under its tag, exactly (R122). Codes that decode nothing give a NaN; every
user checks the code first. -/
def decodeElem (t : Tag) (blk : BitVec 512) (i : Nat) : FVal :=
  let s : Int := (tagScale t : Int) - 127
  let b := blk.toNat
  if tagScale t = 255 then .nan false
  else match tagFormat t with
    | 5 => fvScale (fvOfInt (signedField b (3 * i) 3)) (s + ((b / 2 ^ (384 + 4 * (i / 4)) % 16 : Nat) : Int))
    | 4 => fvScale (fvOfInt (signedField b (4 * i) 4)) s
    | 8 => fvScale (fvOfInt (signedField b (8 * i) 8)) s
    | c => match tagFmt c with
      | some f => fvScale (f.decode (b / 2 ^ (f.bits * i) % 2 ^ f.bits)) s
      | none => .nan false

/-- The largest magnitude of the finite values of a list, as a dyadic; none when there is none. -/
def largestFin : List FVal → Option (Nat × Int)
  | [] => none
  | .fin _ m e :: t => match largestFin t with
    | some (m2, e2) => if leDyadic m e m2 e2 then some (m2, e2) else some (m, e)
    | none => some (m, e)
  | _ :: t => largestFin t

/-- The smallest s from `lo` up, `n` tries, with m * 2^e ≤ limit * 2^(qlim + s). -/
def leastScale (m : Nat) (e : Int) (limit : Nat) (qlim : Int) : (n : Nat) → (s : Nat) → Option Nat
  | 0, _ => none
  | n + 1, s => if leDyadic m e limit (qlim + (s : Int)) then some s else leastScale m e limit qlim n (s + 1)

/-- The scale of a tagged block made from values (R123): steps 2 to 4. -/
def chooseScale (l : List FVal) (limit : Nat) (qlim : Int) : Nat :=
  match largestFin l with
  | none => 127
  | some (m, e) => if m = 0 then 127 else (leastScale m e limit qlim 255 0).getD 254

/-- A block made from values in a floating-point or INT8 format (R123): the bytes, the tag, which
elements saturate, and the flags, rounding under `mode`. -/
structure Packed where
  block : BitVec 512
  tag   : Tag
  sat   : List Nat
  flags : Flags
  deriving DecidableEq, Repr

/-- Convert the elements of a block one by one (R123 step 5). -/
def packElems (conv : Nat → FVal → Nat × Bool × Flags) (w : Nat) (l : List FVal) :
    BitVec 512 × List Nat × Flags :=
  ((List.range l.length).zip l).foldl (fun acc x =>
    let (r, sat, g) := conv x.1 x.2
    (acc.1 ||| BitVec.ofNat 512 (r % 2 ^ w * 2 ^ (w * x.1)),
     if sat then acc.2.1 ++ [x.1] else acc.2.1, acc.2.2 ||| g)) (0#512, [], 0#5)

/-- An element converted into a signed integer code of `w` bits (R119, R123). -/
def codeConv (w : Nat) (mode : Nat) (x : FVal) : Nat × Bool × Flags :=
  let (k, sat, g) := satInt mode (-(2 ^ (w - 1))) (2 ^ (w - 1) - 1) x
  ((BitVec.ofInt w k).toNat, sat, g)

def anySnan (l : List FVal) : Bool := l.any FVal.isSnan
def anyNan (l : List FVal) : Bool := l.any FVal.isNan

/-- A tagged block from values, by R123, into a format code of R121. DESIGN CHOICE (log 94): the sub-exponents of a W3
block that a NaN makes all zero codes are 0. -/
def packBlock (code mode : Nat) (l : List FVal) : Packed :=
  match tagFmt code with
  | some f =>
    let s := chooseScale l f.maxM (f.maxQ - 127)
    let (b, sat, g) := packElems (fun _ x => f.satTo mode (fvScale x (127 - (s : Int)))) f.bits l
    { block := b, tag := mkTag s code, sat := sat, flags := g }
  | none =>
    if code = 8 then
      let s := chooseScale l 127 (-127)
      let (b, sat, g) := packElems (fun _ x => codeConv 8 mode (fvScale x (127 - (s : Int)))) 8 l
      { block := b, tag := mkTag s 8, sat := sat, flags := g }
    else if anyNan l then
      { block := 0#512, tag := mkTag 255 code, sat := [], flags := flagIf (anySnan l) fNV }
    else if code = 4 then
      let s := chooseScale l 7 (-127)
      let (b, sat, g) := packElems (fun _ x => codeConv 4 mode (fvScale x (127 - (s : Int)))) 4 l
      { block := b, tag := mkTag s 4, sat := sat, flags := g }
    else
      let s := chooseScale l 3 (-112)
      let sub (j : Nat) : Nat := match largestFin ((l.drop (4 * j)).take 4) with
        | none => 0
        | some (m, e) => if m = 0 then 0 else (leastScale m e 3 ((s : Int) - 127) 16 0).getD 15
      let (b, sat, g) := packElems
        (fun i x => codeConv 3 mode (fvScale x (127 - (s : Int) - (sub (i / 4) : Int)))) 3 l
      let subs := (List.range ((l.length + 3) / 4)).foldl
        (fun acc j => acc ||| BitVec.ofNat 512 (sub j * 2 ^ (384 + 4 * j))) 0#512
      { block := b ||| subs, tag := mkTag s 5, sat := sat, flags := g }

end Sys2Proof.Machine
end

