-- ==== Sys2Proof/Machine/Flags.lean ====
section
/-! DEFINITION. FFLAGS (R24, R117) and the rounding mode (R116, R118): the only flags of Meruc. -/

namespace Sys2Proof.Machine

/-- Floating-point exceptions are ORed into FFLAGS and never trap (R117). -/
def Strand.orFlags (x : Strand) (g : Flags) : Strand := { x with fflags := x.fflags ||| g }

def State.orFlags (s : State) (g : Flags) : State := s.updMe fun x => x.orFlags g

/-- FRM, as an instruction reads it at issue (R118). -/
def State.rm (s : State) : Nat := s.me.frm.toNat

/-- The matrix instructions and collectives round to nearest even (R116). -/
def rne : Nat := 0

/-- A scalar floating-point result: sd, the flags, and retirement (R314, R117). -/
def State.floatResult (s : State) (rd : SReg) (z : Nat × Flags) : State :=
  (s.orFlags z.2).setS rd (BitVec.ofNat 64 z.1) |>.retire

/-- The scalar float format W gives: FP64, or FP32 (R313). -/
def scalarFmt (w : BitVec 2) : Fmt := if w = 0#2 then fp64 else fp32

/-- The low bits of a register as an encoding of a format (R314). -/
def Fmt.ofWord (f : Fmt) (x : Word) : Nat := x.toNat % 2 ^ f.bits

/-- A scalar floating-point operand (R314). -/
def State.floatOperand (s : State) (w : BitVec 2) (r : SReg) : FVal :=
  (scalarFmt w).decode ((scalarFmt w).ofWord (s.sreg r))

end Sys2Proof.Machine
end

