-- ==== Sys2Proof/Machine/Operands.lean ====
section
/-! DEFINITION. The operand forms of the vector unit: elements (R16), masks (R18), segment tags
(R20), progress (R21, R22), the replicate modifier (R29), the rules shared by the vector entries
(R343), checked mode (R255) and poisoned registers (R257). -/

namespace Sys2Proof.Machine

/-! Reading. -/

/-- The element width of a SEW code (R16). -/
def sewBits (sew : BitVec 2) : Nat := 8 * 2 ^ sew.toNat

def Strand.width (x : Strand) : Nat := sewBits x.sew

/-- A vector register's bits. -/
def Strand.vreg (x : Strand) (r : VReg) : BitVec 16384 := x.vec.v.toList.getD r.toNat 0#16384

/-- Element `e` at width `w` (R16). -/
def element (v : BitVec 16384) (w e : Nat) : BitVec w := v.extractLsb' (w * e) w

/-- A mask register by number; k0 reads all ones (R18). -/
def Strand.kreg (x : Strand) (k : Nat) : BitVec 2048 :=
  if k = 0 then BitVec.allOnes 2048 else x.vec.k.toList.getD k 0#2048

/-- The elements a mask selects; K = 0 selects all (R18). -/
def Strand.selects (x : Strand) (k : KReg) (e : Nat) : Bool := (x.kreg k.toNat).getLsbD e

/-- The active elements, ascending (R16, R297). -/
def Strand.activeElems (x : Strand) (k : KReg) : List Nat :=
  (List.range x.vl.toNat).filter fun e => decide (x.vstart.toNat ≤ e) && x.selects k e

/-- The element of operand C that element `e` reads (R29). -/
def repIndex (p : BitVec 2) (w e : Nat) : Nat :=
  match p.toNat with
  | 0 => e
  | 1 => 0
  | 2 => e % (128 / w)
  | _ => e % (512 / w)

/-- Element `e` of operand C under its replicate modifier (R29). -/
def repElement (v : BitVec 16384) (p : BitVec 2) (w e : Nat) : BitVec w := element v w (repIndex p w e)

/-- The tag of a segment of a register (R20). -/
def Strand.segTag (x : Strand) (r : VReg) (seg : Nat) : Tag :=
  (x.vec.tags.toList.getD r.toNat 0#512).extractLsb' (16 * seg) 16

/-- A 64-byte segment of a register. -/
def segment (v : BitVec 16384) (seg : Nat) : BitVec 512 := v.extractLsb' (512 * seg) 512

/-- Segments of a register of MVL bits; MVL 256 has one (R20). -/
def Strand.segments (x : Strand) : Nat := max (x.mvl.toNat / 512) 1

/-- The float element format of SEW (R343); SEW 0 has none. -/
def sewFmt (sew : BitVec 2) : Option Fmt :=
  match sew.toNat with
  | 3 => some fp64
  | 2 => some fp32
  | 1 => some bf16
  | _ => none

/-! Writing. -/

/-- A register's bits replaced; fresh data is not poisoned (R257). -/
def Strand.setV (x : Strand) (r : VReg) (v : BitVec 16384) : Strand :=
  { x with vec := { x.vec with v := x.vec.v.setIfInBounds r.toNat v }
           poisonV := x.poisonV.filter (· != r.toNat) }

/-- One element replaced. -/
def putElement {w : Nat} (v : BitVec 16384) (e : Nat) (z : BitVec w) : BitVec 16384 :=
  putSlice v (w * e) z

/-- A mask register replaced; k0 is never a destination (R18). -/
def Strand.setK (x : Strand) (k : Nat) (m : BitVec 2048) : Strand :=
  if k = 0 then x else { x with vec := { x.vec with k := x.vec.k.setIfInBounds k m } }

/-- Set bits of a mask. -/
def setBits (m : BitVec 2048) (es : List Nat) : BitVec 2048 := es.foldl (fun m e => putBit m e true) m

/-- Bits of k13, k14 or k15 set, the rest unchanged (R19). -/
def Strand.setKBits (x : Strand) (k : Nat) (es : List Nat) : Strand :=
  x.setK k (setBits (x.kreg k) es)

/-- The tag of one segment replaced. -/
def Strand.setSegTag (x : Strand) (r : VReg) (seg : Nat) (t : Tag) : Strand :=
  let l := x.vec.tags.toList.getD r.toNat 0#512
  { x with vec := { x.vec with tags := x.vec.tags.setIfInBounds r.toNat (putSlice l (16 * seg) t) } }

/-- The segments that elements of width `w` lie in. -/
def segsOf (w : Nat) (es : List Nat) : List Nat := (es.map fun e => w * e / 512).eraseDups

/-- Every segment with a written element takes a tag (R20). -/
def Strand.tagSegs (x : Strand) (r : VReg) (segs : List Nat) (t : Tag) : Strand :=
  segs.foldl (fun x g => x.setSegTag r g t) x

/-- A progress index (R21). -/
def Strand.setProg (x : Strand) (r : VReg) (n : Nat) : Strand :=
  { x with vec := { x.vec with prog := x.vec.prog.setIfInBounds r.toNat (BitVec.ofNat 32 n) } }

/-! Issue. -/

/-- What every instruction of the vector unit needs at issue: not frozen in a handler (R215), VSTART 0
unless it is restartable (R22), a register wide enough for its replicate modifier (R29). -/
def State.vectorIssue (s : State) (restartable : Bool) (p : BitVec 2 := 0#2) : Except Stop Unit := do
  let x := s.me
  demand (!(x.inHandler && !x.claimed)) cIllegalState
  demand (restartable || x.vstart == 0#32) cIllegalState
  demand (!(p == 3#2 && x.mvl == 256#16)) cIllegalState

/-- The same for the float instructions: their element format (R343). -/
def State.floatIssue (s : State) (restartable : Bool) (p : BitVec 2 := 0#2) : Except Stop Fmt := do
  s.vectorIssue restartable p
  match sewFmt s.me.sew with
  | some f => .ok f
  | none => trap cIllegalState

/-- Where an error from outside stops an instruction with the given active elements and source
registers: at the first one when a source is poisoned (R257), at the differing one in checked mode
(R255). -/
def Strand.errorAt (x : Strand) (srcs : List VReg) (es : List Nat) : Option Nat :=
  match es with
  | [] => none
  | e :: _ =>
    if srcs.any fun r => x.poisonV.contains r.toNat then some e
    else if x.checked then x.laneError.filter fun e => es.contains e
    else none

/-- A mismatch that checked mode met is counted and gone (R255). -/
def Strand.countMismatch (x : Strand) (srcs : List VReg) : Strand :=
  if srcs.any fun r => x.poisonV.contains r.toNat then x
  else { x with laneError := none, mismatches := satAdd x.mismatches 1 }

/-! The end of a vector instruction. -/

/-- It completes (R21, R22): VSTART 0, the progress index at VL. The strand holds its vector state in
a lane cluster (R65). -/
def Strand.vectorDone (x : Strand) (vd : Option VReg) : Strand :=
  let x := match vd with
    | some r => x.setProg r x.vl.toNat
    | none => x
  { x with vstart := 0#32, vres := true }

/-- It stops part-way at an element (R22). -/
def Strand.vectorStop (x : Strand) (vd : Option VReg) (e : Nat) : Strand :=
  let x := match vd with
    | some r => x.setProg r e
    | none => x
  { x with vstart := BitVec.ofNat 32 e, vres := true }

/-- A restartable instruction ends: completed, or stopped at an element by an error (R22, R255,
R257). -/
def State.vectorEnd (s : State) (vd : Option VReg) (srcs : List VReg) (err : Option Nat) : State :=
  match err with
  | none => (s.updMe fun x => x.vectorDone vd).retire
  | some e =>
    let s := s.updMe fun x => (x.vectorStop vd e).countMismatch srcs
    s.raise s.cur cUncorrectable s.me.pc 0#64

/-- An instruction that is not restartable runs whole, or writes nothing when an error meets it
(R255, R257). -/
def State.wholeOr (s : State) (srcs : List VReg) (es : List Nat) (done : State) : State :=
  match s.me.errorAt srcs es with
  | none => done
  | some _ =>
    let s := s.updMe fun x => x.countMismatch srcs
    s.raise s.cur cUncorrectable s.me.pc 0#64

/-! Elementwise instructions. -/

/-- What one element gets: its value, its flags, whether it saturates. -/
structure Lane (w : Nat) where
  value : BitVec w
  flags : Flags := 0#5
  sat   : Bool := false

/-- A function of an element of the strand's old state, written to the active elements (R16, R20,
R117, R19), `w` being the destination's width. -/
def State.elementwise (s : State) (k : KReg) (vd : VReg) (w : Nat) (tag : Tag) (srcs : List VReg)
    (f : Nat → Lane w) : State :=
  let x := s.me
  let es := x.activeElems k
  let err := x.errorAt srcs es
  let done := match err with
    | none => es
    | some e => es.filter (· < e)
  let v := done.foldl (fun v e => putElement v e (f e).value) (x.vreg vd)
  let flags := done.foldl (fun g e => g ||| (f e).flags) 0#5
  let sats := done.filter fun e => (f e).sat
  let s := if done.isEmpty then s else
    s.updMe fun x => (((x.setV vd v).tagSegs vd (segsOf w done) tag).orFlags flags).setKBits 15 sats
  s.vectorEnd (some vd) srcs err

/-- A condition of an element, written to a mask's active bits (R343). -/
def State.intoMask (s : State) (k : KReg) (kd : BitVec 5) (srcs : List VReg)
    (f : Nat → Bool × Flags) : State :=
  let x := s.me
  let es := x.activeElems k
  let err := x.errorAt srcs es
  let done := match err with
    | none => es
    | some e => es.filter (· < e)
  let m := done.foldl (fun m e => putBit m e (f e).1) (x.kreg kd.toNat)
  let flags := done.foldl (fun g e => g ||| (f e).2) 0#5
  let s := s.updMe fun x => (x.setK kd.toNat m).orFlags flags
  s.vectorEnd none srcs err

/-- A list of values written to elements of a register by an instruction that is not restartable:
tag 0, progress at VL (R20, R21). -/
def State.writeElems {w : Nat} (s : State) (vd : VReg) (l : List (Nat × BitVec w)) : State :=
  let v := l.foldl (fun v p => putElement v p.1 p.2) (s.me.vreg vd)
  s.updMe fun x => ((if l.isEmpty then x else x.setV vd v).tagSegs vd (segsOf w (l.map (·.1))) 0#16
    ).vectorDone (some vd)

end Sys2Proof.Machine
end

