-- ==== Sys2Proof/Machine/Actions.lean ====
section
/-! DEFINITION. The actions of the strand, tenant, counter and fault queue pages (R66 to R68, R74, R75,
R85, R191, R198, R201, R274, R283, R284). A refused action answers its cause. -/

namespace Sys2Proof.Machine

/-! Strands (R66). -/

/-- Element widths, spaces and modes that a resumed strand may not hold, lengths beyond its
registers, odd addresses (R31), and a SHAPE that is not the engine's grant (R150). -/
def State.resumable (s : State) (n : Nat) : Bool :=
  let x := s.strand n
  let e := (s.core x.core).engine
  let grant := if e.holder = some n then e.shape else 0#64
  decide (x.space ≠ 3#2) && decide (x.frm.toNat ≤ 4) &&
  decide (x.vl.toNat ≤ x.mvl.toNat / (8 * 2 ^ x.sew.toNat)) &&
  decide (x.vstart.toNat ≤ max x.vl.toNat (x.shape.extractLsb' 48 16).toNat) &&
  !x.pc.getLsbD 0 && !x.trapvec.getLsbD 0 && !x.ckpt.pc.getLsbD 0 && decide (x.shape = grant)

/-- The CTL action in progress (R65). -/
def Strand.ctl (x : Strand) : Nat :=
  if x.state = 2#4 ∨ x.wait = .stopping then 1 else if x.stepping then 3 else if x.killing then 4 else 0

/-- A strand waits for a slot on a core (R93). -/
def Strand.waitsOn (x : Strand) (c : Nat) : Bool := x.state == 1#4 && x.place.isNone && x.core == c

/-- A core's load, apart from a strand that is being placed (R93). -/
def State.coreLoad (s : State) (n c : Nat) : Nat :=
  (s.strands.filter fun e => e.1 != n &&
    ((e.2.place.isSome && e.2.core == c) || e.2.waitsOn c)).length

/-- The least-loaded core of a list; on equal load the previous one, else the first (R93). -/
def State.leastLoaded (s : State) (n prev : Nat) (pool : List Nat) : Option Nat :=
  let least := pool.foldl (fun m c => min m (s.coreLoad n c)) (s.coreLoad n (pool.headD 0))
  if pool.contains prev ∧ s.coreLoad n prev = least then some prev
  else pool.find? fun c => s.coreLoad n c == least

/-- A STOP (R66). One that finds the strand stopped or ended changes nothing of it, and completes once its
stores are visible (R178). -/
def State.stopStrand (s : State) (n : Nat) : State :=
  let x := s.strand n
  if x.state = 1#4 then s.updStrand n fun x => { x with state := 2#4, cause := 0#8 }
  else if x.state = 8#4 then
    s.updStrand n fun x => { x with state := 3#4, cause := 0#8, owed := true, place := none
                                    cls := x.prio, wait := .stopping }
  else if x.wait = .none ∧ s.vineOpen n then s.updStrand n fun x => { x with wait := .stopping }
  else s

/-- What keeps a stopping strand from state 3: an instruction that has been issued and has not
completed, a cause that is still to act (R67, R222). -/
def Wait.holdsStop : Wait → Bool
  | .act _ | .peerAct _ _ | .window | .cancel _ | .rollback => true
  | .none | .sealClose _ _ _ | .peerSeal _ _ _ _ | .stopping => false

/-- A STOP may complete (R67, R222): the strand's vine writes are visible (R180). -/
def State.stopReady (s : State) (n : Nat) : Bool :=
  let x := s.strand n
  (x.state == 2#4 && !x.wait.holdsStop || x.wait == .stopping) && !s.vineOpen n

/-- The STOP completes (R67): the stopping strand reaches state 3; one that a cause has stopped or ended stays in
its state (R222). -/
def State.stopComplete (s : State) (n : Nat) : State :=
  if !s.stopReady n then s
  else s.updStrand n fun x =>
    let x := if x.wait = .stopping then { x with wait := .none } else x
    if x.state = 2#4 then { x with state := 3#4, cause := 0#8, place := none, cls := x.prio } else x

/-- A RESUME (R66, R31): held verdicts are applied (R202). -/
def State.resumeStrand (s : State) (n : Nat) : Except Nat State :=
  let x := s.strand n
  if x.state = 3#4 ∨ x.state = 4#4 then
    if !s.resumable n then .error cIllegalState
    else if x.owed then
      if s.verdictsIn n then .ok (s.applyVerdicts n)
      else .ok (s.updStrand n fun x => { x with state := 8#4, cause := 0#8, owed := false })
    else .ok (s.updStrand n fun x => { x with state := 1#4, cause := 0#8, resumed := true })
  else if x.state = 1#4 ∨ x.state = 2#4 ∨ x.state = 8#4 then .ok s
  else .error cIllegalState

/-- A STEP (R66, R223). -/
def State.stepStrand (s : State) (n : Nat) : Except Nat State :=
  let x := s.strand n
  if (x.state = 3#4 ∨ x.state = 4#4) ∧ s.resumable n then
    if x.owed then
      if s.verdictsIn n then
        let s := s.applyVerdicts n
        .ok (if (s.strand n).state = 1#4 then s.updStrand n fun x => { x with stepping := true } else s)
      else .error cIllegalState
    else .ok (s.updStrand n fun x => { x with state := 1#4, cause := 0#8, stepping := true, resumed := true })
  else .error cIllegalState

/-- A KILL (R66, R67). One that finds the strand ended changes nothing of it, and completes as any other. -/
def State.killStore (s : State) (n : Nat) : State :=
  if (s.strand n).ended ∧ s.outstanding n then s.updStrand n fun x => { x with killing := true }
  else s.killRaw n cCancelled

/-! Tenants (R73 to R75). -/

/-- The local address a 40-bit frame field names. -/
def frameAddr (f : BitVec 40) : Nat := localOf (f.toNat * 65536)

/-- The package bits of such a field name this package (R53). -/
def State.frameHere (s : State) (f : BitVec 40) : Bool := decide (f.toNat / 2 ^ 28 = s.package.toNat)

/-- The dies that CORES names (R74). -/
def Tenant.diesNamed (x : Tenant) : List Nat :=
  (List.range 4).filter fun d => x.cores.toList.getD d 0#40 != 0#40

/-- An SPAD entry's die, slot, first unit and count, when it is valid (R73). -/
def spadEntry (e : Word) : Option (Nat × Nat × Nat × Nat) :=
  if e.getLsbD 63 then
    some ((e.extractLsb' 56 3).toNat, (e.extractLsb' 48 6).toNat, (e.extractLsb' 16 5).toNat,
      (e.extractLsb' 0 6).toNat)
  else none

/-- The entry names an allocated core and lies in its scratchpad (R74). -/
def Tenant.spadOk (x : Tenant) (e : Word) : Bool :=
  match spadEntry e with
  | none => true
  | some (d, c, u, n) =>
    decide (d < 4 ∧ c < 40) && (x.cores.toList.getD d 0#40).getLsbD c &&
    decide (u + n ≤ if 36 ≤ c then 4 else 32)

/-- The local addresses of a frame list's words (R73). -/
def State.frameListAddrs (s : State) (t : Nat) : List Nat :=
  let x := s.tenant t
  (List.range x.framecount.toNat).map fun i => localOf (x.framelist.toNat * 8) + 8 * i

/-- The frame list's words, read under slot 0 (R73, R271). -/
def State.frameList (s : State) (t : Nat) : List Word :=
  (s.frameListAddrs t).map fun a => wordOfBytes (s.hbmRead (s.keyName 0) a 8)

/-- The cause that a read of a frame list's word meets: a frame of kind 4 (R55), a fenced die (R261), no range of
R52 or no memory (R7). DEDUCED (log 58): a frame of kind 3, a host window and the control region are refused it, with
the causes that R55, R189 and R59 give. -/
def State.listRefuses (s : State) (a : Nat) : Option Nat :=
  if a < hbmEnd then
    if s.frameKind a = 4 then some cPermission
    else if s.frameKind a = 3 then some cCaskRead
    else if (s.die (homeDie a)).fence = 2#2 then some cFencedDie
    else none
  else if windowBase ≤ a ∧ a < windowEnd then some cPermission
  else if controlMapped a then some cControlAuthority
  else some cNoMapping

/-- The bytes of a frame list entry's size (R73). -/
def frameSize (e : Word) : Nat :=
  match (e.extractLsb' 0 2).toNat with
  | 0 => 65536
  | 1 => 2 ^ 21
  | _ => 2 ^ 33

def frameBase (e : Word) : Nat := (e.extractLsb' 16 40).toNat * 65536

/-- A frame list entry is well formed (R73). -/
def State.frameOk (s : State) (e : Word) : Bool :=
  decide (e.extractLsb' 0 2 ≠ 3#2 ∧ e.extractLsb' 2 14 = 0#14 ∧ e.extractLsb' 56 8 = 0#8) &&
  decide (frameBase e % frameSize e = 0) && decide (pkgOf (frameBase e) = s.package.toNat) &&
  decide (localOf (frameBase e) + frameSize e ≤ hbmEnd)

/-- What keeps a tenant's frame list from being used: the first word that cannot be read, or an entry that is not
well formed (R52, R73). -/
def State.frameListFault (s : State) (t : Nat) : Option Nat :=
  match (s.frameListAddrs t).findSome? s.listRefuses with
  | some c => some c
  | none => if (s.frameList t).all s.frameOk then none else some cIllegalState

/-- The frames of a list, as frame numbers. -/
def framesOf (l : List Word) : List Nat :=
  l.flatMap fun e => (List.range (frameSize e / 65536)).map fun i => localOf (frameBase e) / 65536 + i

/-- The lowest key slot that holds no active key (R74, R267). -/
def State.freeKey (s : State) : Option Nat :=
  ((List.range 63).map (· + 1)).find? fun k => (s.key k).state == 0#3

/-- A new key's name (R267, R271). -/
def State.newKeyName (s : State) : Nat × State := (s.keyNames, { s with keyNames := s.keyNames + 1 })

/-- The fault queue page at its reset values (R195). -/
def Tenant.clearFaultQueue (x : Tenant) : Tenant :=
  { x with fqHead := 0#32, fqTail := 0#32, fqReplay := 0#64, fqHeld := 0#32, fqStale := 0#32
           fqEntries := [], fqHolding := [] }

/-- A result code in a tenant's STATE (R73). -/
def State.tenantResult (s : State) (t code : Nat) : State :=
  s.updTenant t fun x => { x with result := BitVec.ofNat 8 code }

/-- A die's latch admits a tenant's strands (R266). -/
def State.latchAdmits (s : State) (t d : Nat) : Bool :=
  (s.die d).latch == 0#2 || (s.die d).world == (s.tenant t).world

/-- Strands leave the slots of dies that admit them no more (R266). DEDUCED (log 60): the spec says that they
never run there and names no moment. -/
def State.evict (s : State) (ds : List Nat) : State :=
  { s with strands := mapTable s.strands fun _ x => match x.place with
      | some p =>
        if ds.contains (dieOfCore p.core) && !s.latchAdmits x.owner.toNat (dieOfCore p.core) then
          { x with place := none, cls := x.prio, dealt := p.core } else x
      | none => x }

/-- The latch of each named die is set to the tenant's world (R74). -/
def State.latchDies (s : State) (ds : List Nat) (world : BitVec 6) : State :=
  (ds.foldl (fun s d => s.updDie d fun x => { x with latch := 1#2, world := world }) s).evict ds

/-- ACTIVATE (R74). -/
def State.activate (s : State) (t : Nat) : Except Nat State :=
  let x := s.tenant t
  let ds := x.diesNamed
  if x.state ≠ 0#3 ∨ s.frameKind (frameAddr x.root) ≠ 1 ∨ !(x.spad.toList.all x.spadOk) then
    .error cIllegalState
  else match s.frameListFault t with
  | some c => .error c
  | none =>
  if ds.any fun d => (s.die d).latch == 2#2 ||
      (x.world != 0#6 && (s.die d).latch == 1#2 && (s.die d).world != x.world) then
    .ok (s.tenantResult t kDieBusy)
  else
    let activeNow (s : State) : State := s.updTenant t fun x =>
      { x.clearFaultQueue with state := 1#3, result := 0#8 }
    if x.world = 0#6 then .ok (activeNow s)
    else match s.freeKey with
      | none => .ok (s.tenantResult t kKeysBusy)
      | some k =>
        let (id, s) := s.newKeyName
        let s := s.updKey k fun y => { KeySlot.empty with
          state := 1#3, bind := BitVec.ofNat 8 t, id := id, wrap := y.wrap }
        let s := s.updTenant t fun x => { x with keyValid := true, keySlot := BitVec.ofNat 6 k }
        .ok (activeNow (s.latchDies ds x.world))

/-- Erase a slot's key (R269): BIND and FPRINT zero, the state 0; a world key's tenant loses its
KEYSLOT. DESIGN CHOICE (log 78): the cause of a refused LOAD goes with the key; R268 names no moment. -/
def State.eraseKey (s : State) (k : Nat) : State :=
  let y := s.key k
  let t := y.bind.toNat
  let s := if (s.tenant t).keyValid ∧ (s.tenant t).keySlot.toNat = k ∧ hasKey s.tenants t then
      s.updTenant t fun x => { x with keyValid := false } else s
  let (id, s) := s.newKeyName
  s.updKey k fun y => { y with state := 0#3, result := 0#8, bind := 0#8, fprint := 0#384
                               key := 0#256, id := id, ctl := 0#2 }

/-- The slots that hold a key bound to a tenant (R283). -/
def State.boundSlots (s : State) (t : Nat) : List Nat :=
  ((List.range 63).map (· + 1)).filter fun k => (s.key k).state != 0#3 && (s.key k).bind.toNat == t

/-- Every slot bound to a tenant is zeroised (R283). -/
def State.eraseBound (s : State) (t : Nat) : State := (s.boundSlots t).foldl (fun s k => s.eraseKey k) s

/-- An access already carries a slot (R269): a weight load of its cask key; a weight load or a vine write
under the memory slot of a tenant. -/
def State.keyInUse (s : State) (k : Nat) : Bool :=
  let memory (t : Nat) : Bool := (s.tenant t).keyValid && s.memorySlot t == k
  (s.cores.any fun e => let l := e.2.engine.loading
    (l.any fun w => (w.cask.map fun c => c.1.toNat) == some k) ||
    (!l.isEmpty && e.2.engine.holder.any fun n => memory (s.strand n).owner.toNat)) ||
  s.chains.any fun e => memory e.2.owner.toNat && !e.2.inflight.isEmpty

/-- What a TEARDOWN scrubs: the frames, then the SPAD units (R75). -/
def State.scrubUnits (s : State) (t : Nat) : List ScrubUnit :=
  (framesOf (s.frameList t)).map ScrubUnit.frame ++
  ((s.tenant t).spad.toList.filterMap spadEntry).flatMap fun (d, c, u, n) =>
    (List.range n).map fun i => ScrubUnit.spad (coreKey d c) (u + i)

/-- What is still to scrub, with SCRUB (R75, R284). -/
def Tenant.setScrub (x : Tenant) (l : List ScrubUnit) : Tenant :=
  { x with scrubLeft := l, scrub := BitVec.ofNat 48 (65536 * l.length) }

/-- Every open record of a tenant is cancelled, nodes still in the ready pool are counted failed, and all
of it completes, the lowest level first (R283). -/
def State.cancelTenant (s : State) (t : Nat) : State :=
  let s := (((s.tenant t).records.filter fun e => e.2.state == 1#3).map (·.2.ident)).foldl
    (fun s id => s.cancelRecord t id) s
  [0, 1, 2, 3].foldl (fun s level =>
    (((s.tenant t).records.filter fun e => workLevel e.2.ident == level).map (·.2.ident)).foldl
      (fun s id => s.cancelComplete t id) s) s

/-- Every record of a tenant is complete or free (R283). -/
def Tenant.workDone (x : Tenant) : Bool := !(x.records.any fun e => e.2.state == 1#3 || e.2.state == 3#3)

/-- A strand that may still run (R75, R269). -/
def Strand.live (x : Strand) : Bool :=
  x.state == 1#4 || x.state == 2#4 || x.state == 3#4 || x.state == 4#4 || x.state == 8#4

/-- What TEARDOWN needs of its tenant (R75). -/
def State.teardownOk (s : State) (t : Nat) : Bool :=
  (s.tenant t).state == 1#3 && !(s.strands.any fun e => e.2.owner.toNat == t && e.2.live)

/-- TEARDOWN waits, in its first step, for the accesses that carry a slot it zeroises (R269, R283). -/
def State.teardownWaits (s : State) (t : Nat) : Bool :=
  s.teardownOk t && (s.frameListFault t).isNone && (s.boundSlots t).any s.keyInUse

/-- TEARDOWN (R75, R283). DESIGN CHOICE (log 79): a queue in state 0, which R99 does not call enabled, stays there
though its copy in force names the tenant. -/
def State.teardown (s : State) (t : Nat) : Except Nat State :=
  let x := s.tenant t
  let frames := s.frameList t
  if !s.teardownOk t then .error cIllegalState
  else match s.frameListFault t with
  | some c => .error c
  | none =>
    let units := s.scrubUnits t
    let s := s.cancelTenant t
    let s := { s with queues := mapTable s.queues fun _ q =>
      if q.state != 0#3 && q.owner == some t then
        { q with state := if q.disabling then 0#3 else 5#3, code := BitVec.ofNat 8 cCancelled
                 woken := false, current := none, disabling := false }
      else q }
    let s := s.eraseBound t
    let s := { s with frames := (framesOf frames).foldl (fun m f => insertAt m f 4#4) s.frames }
    let s := if x.world = 0#6 then s else
      x.diesNamed.foldl (fun s d =>
        let shared := s.tenants.any fun e => e.1 != t && e.2.state == 1#3 && e.2.world == x.world &&
          e.2.diesNamed.contains d
        if shared then s else s.updDie d fun y => { y with latch := 2#2 }) s
    .ok (s.updTenant t fun x => ({ x with
      state := 2#3, result := 0#8, keyValid := false, scrubAll := units } : Tenant).setScrub units)

/-- The die a unit lies on. -/
def ScrubUnit.die : ScrubUnit → Nat
  | .frame f => homeDie (f * 65536)
  | .spad c _ => dieOfCore c

/-- The dies a scrub needs live: those CORES names and those whose stacks hold its frames (R285). -/
def Tenant.scrubDies (x : Tenant) : List Nat := (x.diesNamed ++ x.scrubAll.map ScrubUnit.die).eraseDups

/-- Zero a frame under slot 0, byte and tag (R275, R284). -/
def State.zeroFrame (s : State) (f : Nat) : State :=
  let s := s.clearMeasured (65536 * f)
  let out (b : Nat) : Bool := !decide (1024 * f ≤ b ∧ b < 1024 * (f + 1))
  { s with
    mem := keepKeys (fun a => out (a / 64)) s.mem
    mtags := keepKeys out s.mtags
    mkeys := (List.range 1024).foldl (fun m i => insertAt m (1024 * f + i) (s.keyName 0))
      (keepKeys out s.mkeys)
    poison := keepKeys out s.poison
    dies := s.dies.map fun d => { d with cellar := d.cellar.filter out } }

/-- Zero a unit of a scratchpad (R284). -/
def State.zeroSpad (s : State) (c u : Nat) : State :=
  let out (a : Nat) : Bool := !decide (65536 * u ≤ a ∧ a < 65536 * (u + 1))
  s.updCore c fun x => { x with
    spad := keepKeys out x.spad, stags := keepKeys (fun b => out (64 * b)) x.stags
    poison := x.poison.filter fun b => out (64 * b) }

/-- The cores CORES names, as core keys. -/
def Tenant.coreKeys (x : Tenant) : List Nat :=
  (List.range 4).flatMap fun d => (List.range 40).filterMap fun c =>
    if (x.cores.toList.getD d 0#40).getLsbD c then some (coreKey d c) else none

/-- A scrub runs: its tenant is in state 2 and its dies are live (R284, R285). -/
def State.scrubRuns (s : State) (t : Nat) : Bool :=
  (s.tenant t).state == 2#3 && (s.tenant t).scrubDies.all fun d => (s.die d).fence == 0#2

/-- The scrub engine writes the next 64 KiB (R284). -/
def State.scrubOne (s : State) (t : Nat) : State :=
  match s.scrubRuns t, (s.tenant t).scrubLeft with
  | true, u :: l =>
    let s := match u with
      | .frame f => s.zeroFrame f
      | .spad c k => s.zeroSpad c k
    s.updTenant t fun x => x.setScrub l
  | _, _ => s

/-- A scrub goes back to its first block (R285). -/
def Tenant.scrubAgain (x : Tenant) (d : Nat) : Tenant :=
  if x.state = 2#3 ∧ x.scrubDies.contains d then x.setScrub x.scrubAll else x

/-- Another scrub of the same world runs on a die: its latch stays 2. DESIGN CHOICE (log 59): with two
tenants of one world scrubbing a die, the last to end opens the latch. -/
def State.scrubbedElsewhere (s : State) (t d : Nat) : Bool :=
  s.tenants.any fun e => e.1 != t && e.2.state == 2#3 && e.2.world == (s.tenant t).world &&
    e.2.diesNamed.contains d

/-- SCRUB has reached 0 and the tenant's work is complete (R75, R283, R284). -/
def State.scrubDone (s : State) (t : Nat) : Bool :=
  s.scrubRuns t && (s.tenant t).scrubLeft.isEmpty && (s.tenant t).workDone

/-- The teardown completes (R75, R284): the tenant is freed. -/
def State.scrubComplete (s : State) (t : Nat) : State :=
  let x := s.tenant t
  if !s.scrubDone t then s
  else
    let opens := x.diesNamed.filter fun d => (s.die d).latch == 2#2 && (s.die d).world == x.world &&
      !s.scrubbedElsewhere t d
    let s := x.coreKeys.foldl (fun s c => s.updCore c fun y => { y with
      icache := [], reserved := [], engine := { y.engine with acc := [] } }) s
    let s := { s with strands := mapTable s.strands fun _ y =>
      if y.vres ∧ x.coreKeys.contains y.core then { y with vec := VecState.zero, poisonV := [] } else y }
    let s := { s with frames := x.scrubAll.foldl (fun m (u : ScrubUnit) => match u with
      | .frame f => removeAt m f
      | .spad _ _ => m) s.frames }
    let s := opens.foldl (fun s d => s.updDie d fun y => { y with latch := 0#2, world := 0#6 }) s
    s.updTenant t fun x => { x with
      state := 0#3, scrub := 0#48, scrubAll := [], measured := false, measTaken := false
      mdigest := 0#384, measFrames := [], measPages := [] }

/-! Measurement (R273, R274). -/

/-- The virtual pages of a code list entry, ascending; none when a reserved bit is set. -/
def codePages (e : Word) : Option (List Nat) :=
  if e.extractLsb' 57 7 ≠ 0#7 ∨ e.extractLsb' 12 4 ≠ 0#4 then none
  else some ((List.range ((e.extractLsb' 0 12).toNat + 1)).map fun i =>
    (e.extractLsb' 16 41).toNat + i)

/-- The frame a virtual page is executed from, with its key (R274). DESIGN CHOICE (log 86): a page with X = 1 behind a
chain, a host window or another package is no resident frame, so MEASNOW is refused. -/
def State.codeFrame (s : State) (t page : Nat) : Option (Nat × Nat) :=
  if 2 ^ 41 ≤ page then none
  else match s.translate t (BitVec.ofNat 64 (page * 65536))
      { way := .fetch, read := false, write := false, exec := true, width := 1, scope := none } with
    | .ok (.hbm pa key _) => some (pa / 65536, key)
    | _ => none

/-- MEASNOW (R274). -/
def State.measnow (s : State) (t : Nat) : Except Nat State :=
  let x := s.tenant t
  let n := x.codecount.toNat
  if x.state ≠ 1#3 ∨ n = 0 ∨ 64 < n then .error cIllegalState
  else
    let words := (List.range n).map fun i =>
      s.tenantLoad t (BitVec.ofNat 64 (x.codelist.toNat * 8 + 8 * i))
    match words.mapM codePages with
    | none => .error cIllegalState
    | some pages =>
      let all := pages.flatten
      if 4096 < all.length then .error cIllegalState
      else match all.mapM (s.codeFrame t) with
        | none => .error cIllegalState
        | some frames =>
          let pageBytes (p : Nat) : List Byte := match s.codeFrame t p with
            | some (f, key) => s.hbmRead key (f * 65536) 65536
            | none => []
          let msg := (words.zip pages).flatMap fun e =>
            bytesOf 8 e.1.toNat ++ e.2.flatMap pageBytes
          .ok (s.updTenant t fun x => { x with
            mdigest := digestOf msg, measured := true, measTaken := true
            measFrames := (frames.map (·.1)).eraseDups, measPages := all })

/-! Counters and fault queues. -/

/-- The addresses of the entries that a walk of an address may read from given tables down, held
values included (R190, R191). -/
def State.walkAddrs (s : State) (t : Nat) (va : Word) : (level : Nat) → List Nat → List Nat
  | 0, tables => tables.map fun a => a + 8 * vaIndex va 0
  | level + 1, tables =>
    let pas := tables.map fun a => a + 8 * vaIndex va (level + 1)
    let next := pas.flatMap fun pa =>
      let now := wordOfBytes (s.hbmRead (s.keyName 0) pa 8)
      let olds := (s.stale.filter fun e => e.tenant == t && e.pa == pa).map (·.old)
      (now :: olds).filterMap fun e => s.pointerTarget e (level + 1)
    pas ++ s.walkAddrs t va level next

/-- An access of a tenant that was translated on the walk of a page, or of any, has not been performed (R191):
a weight load of the engine, a posted store, a request to the host. -/
def State.inFlightFor (s : State) (t : Nat) (page : Option Nat) : Bool :=
  -- the walks of both read the same entry of the top table, and so may share a discarded one
  let near (va : Word) : Bool := page.all fun p => va.toNat / 2 ^ 44 == p / 2 ^ 28
  let mine (n : Nat) (va : Word) : Bool := (s.strand n).owner.toNat == t && near va
  (s.tenant t).state == 1#3 &&
  ((s.cores.any fun e => e.2.engine.holder.any fun n => e.2.engine.loading.any fun w => match w.tgt with
      | .spad _ _ _ => false
      | _ => mine n w.va) ||
   (s.chains.any fun e => e.2.inflight.any fun w => w.strand.any fun n => mine n w.va) ||
   (s.requests.any fun r => r.tenant == t && near r.va) ||
   s.remote.any fun e => mine e.2.strand e.2.va)

/-- `tsync` of a tenant, for one page or all: a measured page clears the flag, whatever the tenant's state (R275);
an active tenant's held entries are discarded (R191). -/
def State.tsync (s : State) (t : Nat) (page : Option Nat) : State :=
  let x := s.tenant t
  let covers := match page with
    | none => !x.measPages.isEmpty
    | some p => x.measPages.contains p
  let s := if covers then s.updTenant t fun x => { x with measured := false } else s
  if x.state ≠ 1#3 then s
  else
    let gone (pa : Nat) : Bool := match page with
      | none => true
      | some p => (s.walkAddrs t (BitVec.ofNat 64 (p * 65536)) 3
          [localOf ((s.tenant t).root.toNat * 65536)]).contains pa
    { s with stale := s.stale.filter fun e => !(e.tenant == t && gone e.pa) }

/-- A verdict reaches a command (R101, R194): a denied SIGNAL fails, a denied completion word is not
written. -/
def Command.verdict (c : Command) (deny : Bool) : Command :=
  if !deny then { c with waits := .none }
  else if c.done then { c with waits := .none, lost := true }
  else { c with waits := .none, done := true, refused := BitVec.ofNat 8 cNotResident }

/-- A verdict of a fault queue entry (R201): recorded in the entry, in the strands that await it and
in the engine operations, queue commands and flow words that do. -/
def State.fqVerdict (s : State) (t : Nat) (seq : BitVec 48) (deny : Bool) : Except Nat State :=
  let x := s.tenant t
  if x.fqTail.toNat ≤ seq.toNat then .error cIllegalState
  else
    match x.fqEntries.find? fun e => e.1 == seq.toNat with
    | none => .ok s
    | some (i, e) =>
      if e.status ≠ 0#2 then .ok s
      else
        let s := s.updTenant t fun x => { x with
          fqEntries := insertAt x.fqEntries i { e with status := if deny then 2#2 else 1#2 } }
        let s := { s with strands := mapTable s.strands fun _ x =>
          if x.owner.toNat == t && (x.state == 8#4 || x.owed) && x.awaitSeqs.contains seq then
            let j := x.awaitSeqs.findIdx (· == seq)
            { x with awaitGot := putBit x.awaitGot j true, awaitDenied := x.awaitDenied || deny }
          else x }
        let s := { s with ops := mapTable s.ops fun _ o =>
          if o.tenant == t && o.awaiting.contains seq then
            { o with awaiting := o.awaiting.filter (· != seq)
                     answered := if deny then o.answered else seq :: o.answered
                     denied := if deny then e.page :: o.denied else o.denied }
          else o }
        let waits (k : Nat) (w : PageWait) : Bool := k == t && w == .seq seq
        let s := { s with queues := mapTable s.queues fun _ q => { q with
          pending := q.pending.map fun (c : Command) => if waits c.tenant c.waits then c.verdict deny else c } }
        let s := { s.dropSilent with
          ready := s.ready.map fun (e : ReadyEntry) =>
            if waits e.tenant e.waits then { e with waits := .none, skipFlow := deny } else e
          closes := (s.closes.filter fun (e : FlowClose) => !(deny && waits e.tenant e.waits)).map
            fun (e : FlowClose) => if waits e.tenant e.waits then { e with waits := .none } else e }
        -- a strand in state 8 with every verdict leaves it
        .ok (s.strands.foldl (fun s p =>
          let x := s.strand p.1
          if x.owner.toNat == t && x.state == 8#4 && x.awaitSeqs.contains seq && s.verdictsIn p.1 then
            s.applyVerdicts p.1
          else s) s)

/-- A held fault is merged, or written once there is room (R197, R199): what awaits it learns its
sequence. -/
def State.heldWrite (s : State) (t : Nat) : State :=
  let x := s.tenant t
  match x.fqHolding with
  | [] => s
  | h :: rest =>
    match s.fqEnter t h.entry true with
    | none => s
    | some (seq, s) =>
      ((s.updTenant t fun x => { x with fqHolding := rest, fqHeld := x.fqHeld - 1#32 }).fqNotify t
        x.fqTail).awaitSeq seq h.who

end Sys2Proof.Machine
end

