-- ==== Sys2Proof/Machine/Queue.lean ====
section
/-! DEFINITION. The queue engine's work on a ring (R97 to R103): reading PRODUCER and records, consuming a
record, refusing one, strikes, and what keeps a record from being consumed. -/

namespace Sys2Proof.Machine

/-- A word of a shadow copy. -/
def shadowWord (c : Vector Word 8) (i : Nat) : Word := c.toList.getD i 0#64

/-- SIZE of a copy (R99). -/
def ringSize (c : Vector Word 8) : Nat := ((shadowWord c 2).extractLsb' 0 4).toNat

/-- Every frame of the ring is of kind 2 (R97). -/
def State.ringOk (s : State) (c : Vector Word 8) : Bool :=
  let bytes := 64 + 64 * 2 ^ ringSize c
  (List.range ((bytes + 65535) / 65536)).all fun i => s.frameKind (ringBase c + 65536 * i) == 2

/-- The home of a ring word serves the queue engine, whose accesses bear OWNER's world (R261, R264, R265).
DESIGN CHOICE (log 66): one that is refused is not made: nothing is read, MIRROR stays, and the queue waits for
its next wake. -/
def State.ringOpen (s : State) (c : Vector Word 8) (pa : Nat) : Bool :=
  (s.dieRefuses (shadowWord c 1).toNat (homeDie pa)).isNone

/-- MIRROR, written by the queue engine under slot 0 (R97, R271). -/
def State.mirrorStore (s : State) (c : Vector Word 8) (v : Nat) : State :=
  let pa := ringBase c + 8
  if s.ringOpen c pa then s.hbmWrite (s.keyName 0) pa (bytesOf 8 v) else s

/-- One strike of a tenant (R102). -/
def Tenant.strike (x : Tenant) : Tenant :=
  let n := satAdd x.strikes 1
  { x with strikes := n
           barred := x.barred || decide (x.strikeLimit ≠ 0#16 ∧ x.strikeLimit.toNat ≤ n.toNat) }

/-- The queue stops (R97, R99). -/
def State.queueStop (s : State) (q code : Nat) : State :=
  s.updQueue q fun x => { x with state := 5#3, code := BitVec.ofNat 8 code, current := none, woken := false }

/-- The queue is off (R99). -/
def State.queueOff (s : State) (q : Nat) : State :=
  s.updQueue q fun x =>
    { x with state := 0#3, current := none, copy := none, woken := false, disabling := false }

/-- A SIGNAL of the queue awaits a verdict: it consumes nothing (R101). -/
def Queue.awaits (x : Queue) : Bool := x.pending.any fun c => !c.done && c.waits != .none

/-- The host has accepted the current record, which has been neither admitted nor refused since (R110). -/
def Queue.admitting (x : Queue) : Bool := x.assisted && x.current.isSome && x.state != 4#3

/-- The address of record `i` of a ring (R97). -/
def ringSlot (c : Vector Word 8) (i : Nat) : Nat := ringBase c + 64 + 64 * (i % 2 ^ ringSize c)

/-- Record `i` of a ring, as its words (R97). -/
def State.ringRecord (s : State) (c : Vector Word 8) (i : Nat) : Vector Word 8 :=
  Vector.ofFn fun k : Fin 8 => wordOfBytes (s.hbmRead (s.keyName 0) (ringSlot c i + 8 * k.val) 8)

/-- The operation of a record: 0 for a reserved one (R101). DESIGN CHOICE (log 92): the whole OP word is looked at, so
bits above the command make it reserved, and it is no GRAPH to be counted in a phase (R102). -/
def recordOp (r : Vector Word 8) : Nat :=
  let n := (shadowWord r 0).toNat
  if n ≤ 5 then n else 0

/-- The phase of the queue that accepts graphs, or the job that accepts phases (R101). DESIGN CHOICE: one made under
another OWNER accepts none of this one's (log 72), and one that is being or has been cancelled accepts nothing more, so
a PHASE or GRAPH for it is refused and a JOB admitted (log 79). -/
def State.accepting (s : State) (t : Nat) (id : Option (Nat × BitVec 32)) : Option Record :=
  match id with
  | none => none
  | some (o, id) => if o ≠ t then none else match s.findRecord t id with
    | some r => if r.state = 1#3 ∧ r.submitted.toNat < r.target.toNat then some r else none
    | none => none

/-- One item of a record has been submitted (R101). -/
def State.submitted (s : State) (t : Nat) (id : BitVec 32) : State :=
  s.updRecord t (recordKey id) fun r => { r with submitted := r.submitted + 1#32 }

/-- The record is consumed: CONSUMED and MIRROR advance, and the command is kept until its completion
(R97, R101). -/
def State.consumeRecord (s : State) (q : Nat) (copy : Vector Word 8) (k : Command) : State :=
  let (serial, s) := s.fresh
  let s := s.updQueue q fun x => { x with
    consumed := x.consumed + 1#32, current := none, pending := x.pending ++ [{ k with serial := serial }] }
  s.dropSilent.mirrorStore copy (s.queue q).consumed.toNat

/-- The command of a record; it takes its number as it is consumed. -/
def commandOf (t : Nat) (r : Vector Word 8) (ident : BitVec 32) : Command :=
  { tenant := t, serial := 0, op := recordOp r, ident := ident, cpl := shadowWord r 6
    refused := 0#8, done := false, failed := 0#16, address := shadowWord r 1, value := shadowWord r 2 }

/-- A record completes at once: refused with a code and a strike, or with QUEUE_BARRED while its tenant is
barred (R102), which leaves STATUS[15:8] as it was (DESIGN CHOICE, log 74). A GRAPH is counted failed in its
phase. -/
def State.failRecord (s : State) (q : Nat) (copy r : Vector Word 8) (code : Nat) : State :=
  let t := (shadowWord copy 1).toNat
  let x := s.queue q
  let barred := (s.tenant t).barred
  let code := if barred then cQueueBarred else code
  let s := if barred then s else
    (s.updQueue q fun x => { x with code := BitVec.ofNat 8 code }).updTenant t Tenant.strike
  let s := match (if recordOp r = 3 then s.accepting t x.phase else none) with
    | some p => (s.submitted t p.ident).countIn 4 t p.ident false (BitVec.ofNat 8 code)
    | none => s
  s.consumeRecord q copy { commandOf t r 0#32 with done := true, refused := BitVec.ofNat 8 code }

/-- The engine reads the next record, if PRODUCER covers one, under the copy in force (R98, R99): it completes
it when its tenant is barred (R102), waits for the host (R110), refuses a reserved operation, or parses it. A
queue that is being disabled stops here (R99). DESIGN CHOICE: a copy read after ENABLE is used as it stands, be its SIZE
outside 4 to 10 (log 74) or its OWNER no active tenant (log 79); a poisoned record is taken as its bytes are (log 79). -/
def State.loadNext : Nat → State → Nat → State
  | 0, s, _ => s
  | fuel + 1, s, q =>
    let x := s.queue q
    if x.disabling then s.queueOff q
    else match x.inForce with
    | none => s.queueStop q cIllegalState
    | some c =>
      let t := (shadowWord c 1).toNat
      let i := x.consumed.toNat
      let s := s.updQueue q fun x => { x with copy := some c }
      if !s.ringOk c then (s.queueStop q cPermission).updTenant t Tenant.strike
      else if x.consumed = x.producer ∨ !s.ringOpen c (ringSlot c i) then
        s.updQueue q fun x => { x with state := 1#3, current := none }
      else
        let r := s.ringRecord c i
        let assisted := s.modes.toList.getD 1 0#8 == 1#8
        let s := s.updQueue q fun x => { x with current := some r, state := 2#3, assisted := assisted }
        if (s.tenant t).barred ∨ (!assisted ∧ recordOp r = 0) then
          State.loadNext fuel (s.failRecord q c r cIllegalEncoding) q
        else if assisted then s.updQueue q fun x => { x with state := 4#3 }
        else s

/-- The engine goes on after a record. -/
def State.nextRecord (s : State) (q : Nat) : State := State.loadNext 1025 s q

/-- The current record is refused (R102). -/
def State.refuseRecord (s : State) (q code : Nat) : State :=
  let x := s.queue q
  match x.copy, x.current with
  | some c, some r => (s.failRecord q c r code).nextRecord q
  | _, _ => s

/-- A record that the host accepts is parsed (R110). -/
def State.parseRecord (s : State) (q : Nat) : State :=
  match (s.queue q).current with
  | none => s
  | some r =>
    let s := s.updQueue q fun x => { x with state := 2#3 }
    if recordOp r = 0 then s.refuseRecord q cIllegalEncoding else s

/-- The engine reads PRODUCER (R98): one that moves backwards, or beyond the ring, is a strike. DESIGN CHOICE
(log 67): the spec gives that read no code, and STATUS[15:8] stays; and (log 79) a poisoned line is taken as its bytes
are. -/
def State.readProducer (s : State) (q : Nat) : State :=
  let x := s.queue q
  match x.inForce with
  | none => s.queueStop q cIllegalState
  | some c =>
    let t := (shadowWord c 1).toNat
    let s := s.updQueue q fun x => { x with copy := some c }
    if !s.ringOk c then (s.queueStop q cPermission).updTenant t Tenant.strike
    else if !s.ringOpen c (ringBase c) then s.updQueue q fun x => { x with state := 1#3 }
    else
      let p : BitVec 32 := (wordOfBytes (s.hbmRead (s.keyName 0) (ringBase c) 8)).setWidth 32
      let n := (p - x.consumed).toNat
      let s := s.updQueue q fun x => { x with state := 1#3 }
      if 2 ^ ringSize c < n ∨ n < (x.producer - x.consumed).toNat then s.updTenant t Tenant.strike
      else (s.updQueue q fun x => { x with producer := p }).nextRecord q

end Sys2Proof.Machine
end

