-- ==== Sys2Proof/Machine/Package.lean ====
section
/-! DEFINITION. The actions of the queue, chain, die, key slot and hub pages and of the frame-kind
table (R55, R56, R77, R99, R110, R228, R245, R249, R252, R261, R262, R269, R270, R290, R291). A refused
action answers its cause. -/

namespace Sys2Proof.Machine

/-! Queues (R99). -/

/-- ENABLE ← 1 (R99). DESIGN CHOICE (log 67): the spec does not say what STATUS[15:8] becomes; it is cleared. -/
def State.queueEnable (s : State) (q : Nat) : Except Nat State :=
  let x := s.queue q
  if x.state ≠ 0#3 then .ok s
  else match x.inForce with
    | none => .error cIllegalState
    | some c =>
      if ringSize c < 4 ∨ 10 < ringSize c ∨ (s.tenant (shadowWord c 1).toNat).state ≠ 1#3 ∨ !s.ringOk c then
        .error cIllegalState
      else
        let s := s.updQueue q fun x => { x with
          state := 1#3, code := 0#8, consumed := 0#32, producer := 0#32, current := none
          copy := some c, woken := false }
        .ok (s.mirrorStore c 0)

/-- ENABLE ← 0: consumption stops, and it completes when no record is mid-parse (R99). DESIGN CHOICE (log 92): a record
that awaits the host is not, so the queue is off at once and the record is dropped. -/
def State.queueDisable (s : State) (q : Nat) : State :=
  if (s.queue q).state = 2#3 then s.updQueue q fun x => { x with disabling := true } else s.queueOff q

/-- A code a verdict may refuse a record with: one of R208's causes or R209's statuses; the others are
reserved (R2, R209). -/
def verdictCode (v : Word) : Bool :=
  let c := (v.extractLsb' 0 8).toNat
  (v.getLsbD 63 && c == 0) || decide ((1 ≤ c ∧ c ≤ cChainBroken) ∨ (kKeysBusy ≤ c ∧ c ≤ kDieBusy))

/-- A store to VERDICT (R99, R110): an accepted record is parsed as in hardware mode, another is refused
with the code. -/
def State.queueVerdict (s : State) (q : Nat) (v : Word) : Except Nat State :=
  if (s.queue q).state ≠ 4#3 ∨ !verdictCode v then .error cIllegalState
  else
    let s := s.updQueue q fun x => { x with verdict := v }
    .ok (if v.getLsbD 63 then s.parseRecord q else s.refuseRecord q (v.extractLsb' 0 8).toNat)

/-! Frame kinds (R55, R56). -/

def kindChangeOk (old new : Nat) : Bool :=
  old == new || (old == 0 && decide (1 ≤ new ∧ new ≤ 3)) || ((old == 1 || old == 2) && decide (new ≤ 2))

/-- A store to a word of the table: 16 kinds, all or none. -/
def State.kindStore (s : State) (pa : Nat) (v : Word) : Except Nat State :=
  let f0 := 2 * (pa - controlBase)
  let kinds := (List.range 16).map fun i => (f0 + i, (v.extractLsb' (4 * i) 4))
  let bad := kinds.any fun e =>
    let old := lookupD s.frames e.1 0#4
    !kindChangeOk old.toNat e.2.toNat || (old != e.2 && s.replicaFrame (e.1 * 65536))
  if bad then .error cIllegalState
  else .ok { s with frames := kinds.foldl (fun m e => putAt m e.1 e.2) s.frames }

/-! Chains (R244, R245, R249). -/

/-- The local base of replica `i`. -/
def Chain.baseAddr (x : Chain) (i : Nat) : Nat := frameAddr (x.base.toList.getD i 0#40)

/-- A replica base suits a die: its frames lie in a stack attached to the die, are of kind 0, and
belong to no live chain (R245). -/
def State.baseOk (s : State) (x : Chain) (base d : Nat) : Bool :=
  let n := x.size.toNat
  decide (base + 65536 * n ≤ hbmEnd) && stackOf base == stackOf (base + 65536 * n - 1) &&
  homeDie base == d && (List.range n).all fun i =>
    s.frameKind (base + 65536 * i) == 0 && !s.replicaFrame (base + 65536 * i)

/-- A write to frames from a base up clears the measured flags they hold (R275). -/
def State.clearFrames (s : State) (base frames : Nat) : State :=
  (List.range frames).foldl (fun s i => s.clearMeasured (base + 65536 * i)) s

/-- Zero a replica: bytes and tags, under the owner's memory slot (R245, R271); no cellar holds a line of it
(R248), and no poison is left (R257). -/
def State.zeroReplica (s : State) (key base frames : Nat) : State :=
  let s := s.clearFrames base frames
  let lo := base / 64
  let hi := (base + 65536 * frames) / 64
  let out (b : Nat) : Bool := !decide (lo ≤ b ∧ b < hi)
  { s with
    mem := keepKeys (fun a => out (a / 64)) s.mem
    mtags := keepKeys out s.mtags
    mkeys := (List.range (hi - lo)).foldl (fun m i => insertAt m (lo + i) key) (keepKeys out s.mkeys)
    poison := keepKeys out s.poison
    dies := s.dies.map fun d => { d with cellar := d.cellar.filter out } }

/-- START (R245). -/
def State.chainStart (s : State) (c : Nat) : Except Nat State :=
  let x := s.chain c
  let n := x.count.toNat
  let ds := x.linkDies
  let ok := decide (x.state = 0#3 ∧ 1 ≤ x.size.toNat ∧ x.size.toNat ≤ 262144 ∧ 1 ≤ n ∧ n ≤ 4) &&
    decide ds.Nodup && ds.all (fun d => decide (d < 4) && (s.die d).fence == 0#2) &&
    (s.tenant x.owner.toNat).state == 1#3 &&
    (List.range n).all fun i => s.baseOk x (x.baseAddr i) (ds.getD i 0)
  if !ok then .error cIllegalState
  else
    let key := s.keyName (s.memorySlot x.owner.toNat)
    let s := (List.range n).foldl (fun s i => s.zeroReplica key (x.baseAddr i) x.size.toNat) s
    .ok (s.updChain c fun x => { x with
      state := 2#3, gen := x.gen + 1#32, accepted := 0#64, inflight := [], append := none })

/-- RELEASE, once no write is in flight (R245). -/
def State.chainRelease (s : State) (c : Nat) : Except Nat State :=
  let x := s.chain c
  if x.state ≠ 2#3 ∧ x.state ≠ 4#3 then .error cIllegalState
  else .ok (s.updChain c fun x => { x with state := 0#3, append := none })

/-- LINKS from a list of dies (R244). -/
def linksOf (ds : List Nat) : BitVec 16 :=
  (List.range 4).foldl (fun w i => putSlice w (4 * i) (BitVec.ofNat 4 (ds.getD i 15))) 0#16

/-- The links of a chain rewritten, as dies with their bases. -/
def Chain.relink (x : Chain) (l : List (Nat × BitVec 40)) : Chain :=
  { x with
    links := linksOf (l.map (·.1)), count := BitVec.ofNat 3 l.length, gen := x.gen + 1#32
    base := Vector.ofFn fun i : Fin 4 => (l.map (·.2)).getD i.val 0#40 }

/-- The links of a chain, as dies with their bases. -/
def Chain.linkList (x : Chain) : List (Nat × BitVec 40) :=
  x.linkDies.zip x.base.toList

/-- The local base of the replica on a die, if it is a link. -/
def Chain.baseOn (x : Chain) (d : Nat) : Option Nat := (x.linkList.find? fun e => e.1 == d).map fun e => frameAddr e.2

/-- A die that is a link no more holds no line of the chain (R248). -/
def State.dropReplica (s : State) (c d : Nat) : State :=
  match (s.chain c).baseOn d with
  | none => s
  | some a => s.updDie d fun y => { y with
      cellar := y.cellar.filter fun b => !decide (a / 64 ≤ b ∧ b < (a + 65536 * (s.chain c).size.toNat) / 64) }

/-- LINKOP remove (R249): every write it holds is forwarded, so none is lost. -/
def State.linkRemove (s : State) (c : Nat) (d : Nat) (word : Word) : Except Nat State :=
  let x := s.chain c
  if x.state ≠ 2#3 ∨ !x.linkDies.contains d ∨ x.linkDies.length = 1 then .error cIllegalState
  else .ok (((s.vineDrainAll c).dropReplica c d).updChain c fun x =>
    { x.relink (x.linkList.filter fun e => e.1 != d) with linkop := word })

/-- LINKOP append (R249): the fill begins. -/
def State.linkAppend (s : State) (c : Nat) (d : Nat) (base : BitVec 40) (word : Word) :
    Except Nat State :=
  let x := s.chain c
  if x.state ≠ 2#3 ∨ 4 ≤ x.linkDies.length ∨ x.linkDies.contains d ∨ 4 ≤ d ∨ (s.die d).fence ≠ 0#2 ∨
      !s.frameHere base ∨ !s.baseOk x (frameAddr base) d then .error cIllegalState
  else .ok (s.updChain c fun x => { x with append := some (BitVec.ofNat 3 d, base), linkop := word })

/-- The filled replica joins as the new tail (R249): it holds what the tail holds. -/
def State.chainJoin (s : State) (c : Nat) : State :=
  let x := s.chain c
  match x.append with
  | none => s
  | some (d, base) =>
    let tail := x.baseAddr (x.count.toNat - 1)
    let b := frameAddr base
    let key := s.keyName (s.memorySlot x.owner.toNat)
    let n := x.size.toNat * 65536
    let s := s.zeroReplica key b x.size.toNat
    let s := s.hbmPut key b (s.hbmRead key tail n)
    let s := (List.range (n / 64)).foldl (fun s i => s.hbmSetTag key (b + 64 * i) (s.hbmTag key (tail + 64 * i))) s
    s.updChain c fun x => { x.relink (x.linkList ++ [(d.toNat, base)]) with append := none }

/-- LINKOP (R249): op 1 removes, 2 appends. -/
def State.linkOp (s : State) (c : Nat) (v : Word) : Except Nat State :=
  let d := (v.extractLsb' 56 3).toNat
  match (v.extractLsb' 62 2).toNat with
  | 1 => s.linkRemove c d v
  | 2 => s.linkAppend c d (v.extractLsb' 16 40) v
  | _ => .error cIllegalState

/-! A fenced die (R252, R261, R285). -/

/-- One lost vine write: its strand's VINE and VADDR, or the operation it belonged to. -/
def State.loseWrite (s : State) (c : Nat) (w : VineWrite) : State :=
  let s := match w.strand with
    | some n => s.updStrand n fun x => { x with
        vaddr := if x.vineLost = 0#32 then w.va.setWidth 57 else x.vaddr
        vineChain := if x.vineLost = 0#32 then BitVec.ofNat 8 c else x.vineChain
        vineLost := satAdd x.vineLost 1 }
    | none => s
  match w.op with
  | some id => { s with ops := mapTable s.ops fun i o =>
      if i = id ∧ o.status = 0#8 then { o with status := BitVec.ofNat 8 cChainBroken } else o }
  | none => s

/-- How many of the writes in flight a link on a die has applied: the head no fewer than it has forwarded, the tail
none, whose application is their acceptance (R247). DEDUCED (log 23): the spec says no more. -/
def State.linkApplied (s : State) (c d forwarded : Nat) : Nat :=
  let x := s.chain c
  let n := x.inflight.length
  let least := if x.linkDies.head? = some d then min forwarded n else 0
  if x.linkDies.getLast? = some d then 0 else least + s.choose (4096 + c) (n - least + 1)

/-- A lost link's replica keeps the writes that it has applied (R247, R262). -/
def State.keepApplied (s : State) (c d n : Nat) : State :=
  match (s.chain c).baseOn d with
  | none => s
  | some a => ((s.chain c).inflight.take n).foldl
      (fun s w => s.linkApply (s.chainKey c) (a + w.offset) w.bytes w.tag) s

/-- A chain loses its link on a fenced die (R252), or the replica being appended there (R249), whose LINKOP store
then completes (log 82, DESIGN CHOICE); `forwarded` is how many of the writes in flight the lost head had
forwarded. -/
def State.chainLosesDie (s : State) (c d forwarded : Nat) : State :=
  let x := s.chain c
  if x.state = 0#3 then s
  else if !x.linkDies.contains d then
    if x.append.any fun a => a.1.toNat == d then s.updChain c fun x => { x with append := none } else s
  else
    let kept := x.linkList.filter fun e => e.1 != d
    let head := x.linkDies.head? == some d
    let lost := if kept.isEmpty then x.inflight else if head then x.inflight.drop forwarded else []
    let rest := x.inflight.take (x.inflight.length - lost.length)
    let s := (s.keepApplied c d (s.linkApplied c d forwarded)).dropReplica c d
    let s := lost.foldl (fun s w => s.loseWrite c w) s
    s.updChain c fun x =>
      { x.relink kept with
        inflight := if kept.isEmpty then [] else rest
        lost := satAdd x.lost lost.length
        state := if kept.isEmpty then 4#3 else x.state
        append := if kept.isEmpty then none else x.append }

/-- What fencing leaves of a strand that was resident on the die (R80). DESIGN CHOICE (log 91): LAUNCH stays, the
launch's identifier that R82 gives it. -/
def Strand.wiped (x : Strand) : Strand :=
  { Strand.empty with
    state := x.state, cause := x.cause, launch := x.launch, owner := x.owner
    index := x.index, pool := x.pool, dealt := x.dealt, bound := x.bound, prio := x.prio
    checked := x.checked, region := x.region, lastColl := x.lastColl }

/-- A strand whose work lies on a die (R261): resident, bound, holding vector state or an engine
there. -/
def State.strandOn (s : State) (n d : Nat) : Bool :=
  let x := s.strand n
  x.live && dieOfCore x.core == d &&
    (x.place.isSome || x.bound.isSome || x.vres || (s.core x.core).engine.holder == some n)

/-- Pool cores on dies that are not fenced (R92). -/
def State.livePool (s : State) (pool : List Nat) : List Nat :=
  pool.filter fun c => (s.die (dieOfCore c)).fence == 0#2

/-- Pool cores on which a tenant's strand may run (R92, R266). -/
def State.openPool (s : State) (t : Nat) (pool : List Nat) : List Nat :=
  (s.livePool pool).filter fun c => s.latchAdmits t (dieOfCore c)

/-- FENCE ← 1 (R261); `forwarded` as in R252. -/
def State.dieFence (s : State) (d : Nat) (forwarded : Nat → Nat) : State :=
  if (s.die d).fence ≠ 0#2 then s
  else
    let on := (s.strands.filter fun e => s.strandOn e.1 d).map (·.1)
    let s := s.updDie d fun x => { x with fence := 2#2 }
    let s := s.endTogether on fun s n =>
      let s := s.failOps n cFencedDie
      let x := s.strand n
      let page := x.finish 6#4 cFencedDie true
      s.endStrandTo n (if x.place.isSome then page.wiped else page) true
    let s := { s with cores := mapTable s.cores fun c x => if dieOfCore c = d then x.haltEngine else x }
    let waiting := (s.strands.filter fun e => e.2.live && e.2.place.isNone &&
      dieOfCore e.2.core == d).map (·.1)
    let s := waiting.foldl (fun s n =>
      let x := s.strand n
      if x.ended || x.state == 0#4 then s
      else match s.leastLoaded n x.core (s.openPool x.owner.toNat x.pool) with
      | none => if x.state = 1#4 ∧ (s.livePool x.pool).isEmpty then s.endStrand n 6#4 cFencedDie true else s
      | some c => s.updStrand n fun x => { x with dealt := c }) s
    let s := (s.chains.map (·.1)).foldl (fun s c => s.chainLosesDie c d (forwarded c)) s
    { s with tenants := mapTable s.tenants fun _ x => x.scrubAgain d }

/-- FENCE ← 2 (R262, R294). -/
def State.dieRestore (s : State) (d : Nat) : Except Nat State :=
  match (s.die d).fence.toNat with
  | 1 => .error cIllegalState
  | 2 =>
    let s := { s with
      cores := mapTable s.cores fun c x => if dieOfCore c = d then Core.empty else x
      poison := s.poison.filter fun e => !(e.2 && homeDie (64 * e.1) == d) }
    let s := s.updDie d fun x => { x with fence := 0#2, cellar := [] }
    -- a staged image of the die may take effect when its manifest entry is satisfied
    let ok (i : FirmwareImage) : Bool := i.index == d + 1 && i.requires.all fun r =>
      decide (r.2.toNat ≤ (s.fwver.toList.getD r.1 0#32).toNat)
    match s.staged.find? ok with
    | some i => if s.choose 2 2 = 0 then .ok s
                else .ok { s with fwver := s.fwver.setIfInBounds (d + 1) i.version }
    | none => .ok s
  | _ => .ok s

/-- FENCE ← 1 by an agent that says nothing of the chains' writes in flight (R252, R260, R261). -/
def State.fenceAny (s : State) (d : Nat) : State :=
  s.dieFence d fun c => s.choose (64 + c) ((s.chain c).inflight.length + 1)

/-- A store to FENCE (R260). -/
def State.fenceStore (s : State) (d : Nat) (v : Word) : Except Nat State :=
  match v.toNat with
  | 1 => .ok (s.fenceAny d)
  | 2 => s.dieRestore d
  | _ => .error cIllegalState

/-! Islands (R290, R291). -/

/-- A cluster holds a resident or bound strand, vector state, or an engine's holder (R291). -/
def State.clusterInUse (s : State) (d i : Nat) : Bool :=
  let cores := (List.range 4).map fun j => coreKey d (4 * i + j)
  (s.strands.any fun e => e.2.live && cores.contains e.2.core &&
    (e.2.place.isSome || e.2.bound.isSome || e.2.vres)) ||
  cores.any fun c => (s.core c).engine.holder.isSome

/-- F6 slows an island: its die is above 95 °C or, for a cluster, the package draws more than PWRLIM (R292). -/
def State.slowing (s : State) (d i : Nat) : Bool :=
  decide (95 < (s.die d).temp.toNat) || (decide (i < 9) && decide (s.pwrlim.toNat < s.power.toNat))

/-- The frequency of an island that runs within a ceiling: the ceiling itself in host-assisted mode, else one that F6
chooses, no higher than a cap (R290). -/
def State.chooseFrequency (s : State) (ceiling : BitVec 12) (cap : Nat) : BitVec 12 :=
  if ceiling = 0#12 then 0#12
  else if s.modes.toList.getD 6 0#8 = 1#8 then ceiling
  else BitVec.ofNat 12 (1 + s.choose 3 (min (max 1 cap) ceiling.toNat))

/-- Island `i` of a die once its CEILING is `c` (R290 to R292): a limit that slows it stays in force; F6 does not raise
one while a limit would slow it; one that starts is clamped on a die above 105 °C and, below that, throttled while
a limit would slow it (log 47). -/
def State.ceilingSet (s : State) (d i : Nat) (y : Island) (c : BitVec 12) : Island :=
  if c = 0#12 then { state := 2#2, current := 0#12, ceiling := c }
  else if y.state = 3#2 ∨ (y.state = 2#2 ∧ 105 < (s.die d).temp.toNat) then
    { state := 3#2, current := 250#12, ceiling := c }
  else if y.state = 1#2 then { y with ceiling := c, current := if c.toNat < y.current.toNat then c else y.current }
  else if !s.slowing d i then { state := 0#2, current := s.chooseFrequency c c.toNat, ceiling := c }
  else if y.state = 2#2 then { state := 1#2, current := BitVec.ofNat 12 (1 + s.choose 3 (c.toNat - 1)), ceiling := c }
  else { state := 0#2, current := s.chooseFrequency c y.current.toNat, ceiling := c }

/-- The bits of TRIP that an island's new state sets: throttled, clamped (R293). -/
def tripBits (old new : Island) : BitVec 2 :=
  if old.state = new.state then 0#2 else if new.state = 1#2 then 1#2 else if new.state = 3#2 then 2#2 else 0#2

/-- A store to ISLAND `i` (R290, R291): only CEILING is written. -/
def State.islandStore (s : State) (d i : Nat) (v : Word) : Except Nat State :=
  let c := v.extractLsb' 0 12
  if (c ≠ 0#12 ∧ (c.toNat < 250 ∨ 1000 < c.toNat)) ∨ (c = 0#12 ∧ (9 ≤ i ∨ s.clusterInUse d i)) then
    .error cIllegalState
  else
    let x := s.die d
    let old := x.islands.toList.getD i Island.reset
    let y := s.ceilingSet d i old c
    let t := s.updDie d fun x => { x with islands := x.islands.setIfInBounds i y }
    .ok { t with trip := t.trip ||| tripBits old y }

/-! Keys (R269, R270). -/

/-- LOAD (R270): the blob is unwrapped in the Beryl root. -/
def State.keyLoad (s : State) (k : Nat) : Except Nat State :=
  let y := s.key k
  if k = 0 ∨ y.state ≠ 0#3 ∨ (s.tenant y.bind.toNat).state ≠ 1#3 then .error cIllegalState
  else if y.wrap.extractLsb' (8 * 0x9C) 32 ≠ 0#32 then
    .ok (s.updKey k fun y => { y with result := BitVec.ofNat 8 cCaskKey })
  else match unwrapCask s.provkey s.package.toNat (bytesOf 208 y.wrap.toNat) with
    | none => .ok (s.updKey k fun y => { y with result := BitVec.ofNat 8 cCaskKey })
    | some key =>
      let (id, s) := s.newKeyName
      .ok (s.updKey k fun y => { y with
        state := 3#3, result := 0#8, fprint := y.wrap.extractLsb' (8 * 0x60) 384, wrap := 0#1664
        key := BitVec.ofNat 256 (natOfBytes key), id := id })

/-- ZEROISE begins (R269). -/
def State.keyZeroise (s : State) (k : Nat) : Except Nat State :=
  let y := s.key k
  if k = 0 then .error cIllegalState
  else match y.state.toNat with
    | 0 | 4 => .ok s
    | 1 =>
      if s.strands.any fun e => e.2.owner == y.bind && e.2.live then .error cIllegalState
      else .ok (s.updKey k fun y => { y with state := 4#3, ctl := 2#2 })
    | 3 => .ok (s.updKey k fun y => { y with state := 4#3, ctl := 2#2 })
    | _ => .ok (s.updKey k fun y => { y with ctl := 2#2 })

/-- The key is erased once those accesses are done (R269). -/
def State.keyZeroiseComplete (s : State) (k : Nat) : State :=
  if (s.key k).state = 4#3 ∧ !s.keyInUse k then s.eraseKey k else s

/-! The hub (R77, R228, R293). -/

/-- Every island that no limit slows runs at its ceiling, F6 in host-assisted mode (R290). -/
def State.fullSpeed (s : State) : State :=
  { s with dies := s.dies.map fun x => { x with islands := x.islands.map fun y =>
      if y.state = 0#2 then { y with current := y.ceiling } else y } }

/-- A store to MODES (R77): byte `f` is 0 or 1, and 0 for F0. -/
def State.modesStore (s : State) (v : Word) : Except Nat State :=
  let bytes := (List.range 8).map fun f => v.extractLsb' (8 * f) 8
  if bytes.any (fun b => decide (1 < b.toNat)) ∨ bytes.head? ≠ some 0#8 then .error cIllegalState
  else
    let s := { s with modes := Vector.ofFn fun f : Fin 8 => v.extractLsb' (8 * f.val) 8 }
    .ok (if s.modes.toList.getD 6 0#8 = 1#8 then s.fullSpeed else s)

/-- F1 has not drained its work in the mode before (R77, R110): a queue still holds a record that was read in
it. -/
def State.switching (s : State) : Bool :=
  s.queues.any fun e => e.2.current.isSome && e.2.assisted != (s.modes.toList.getD 1 0#8 == 1#8)

/-- An access routed through a window has not completed (R228). -/
def State.windowInUse (s : State) (w : Nat) : Bool :=
  s.requests.any fun r => r.window == w

/-- A store to WIN `w` (R228). -/
def State.winStore (s : State) (w : Nat) (v : Word) : Except Nat State :=
  .ok { s with win := s.win.setIfInBounds w { base := v.extractLsb' 38 26, enable := v.getLsbD 0 } }

end Sys2Proof.Machine
end

