-- ==== Sys2Proof/Machine/Control.lean ====
section
/-! DEFINITION. The control pages: which page an address lies on (R52), what a load of each word reads
and what a store does (R54, R60, R62, R64 to R66, R69, R70, R73, R76, R77, R83, R99, R141, R150, R198,
R200, R212, R228, R237, R244, R252, R254, R257, R260, R268, R273, R276, R282, R290, R293). A word that
holds no field reads zero, and a store to it is refused. -/

namespace Sys2Proof.Machine

/-- A control page, with the offset in it. -/
inductive Page where
  | kinds (pa : Nat)
  | die (d off : Nat)
  | hub (off : Nat)
  | tenant (t off : Nat)
  | queue (q off : Nat)
  | strand (n off : Nat)
  | counter (t off : Nat)
  | faults (t off : Nat)
  | chain (c off : Nat)
  | key (k off : Nat)
  | seal (m off : Nat)
  deriving DecidableEq, Repr

/-- The page of a local control-region address (R52). -/
def pageOf (pa : Nat) : Option Page :=
  let at64 (base : Nat) : Nat × Nat := ((pa - base) / 65536, (pa - base) % 65536)
  if 0xF0000000000 ≤ pa ∧ pa < kindTableEnd then some (.kinds (8 * (pa / 8)))
  else if 0xF0001000000 ≤ pa ∧ pa < 0xF0001040000 then
    let (d, o) := at64 0xF0001000000; some (.die d o)
  else if 0xF0001040000 ≤ pa ∧ pa < 0xF0001050000 then some (.hub (pa - 0xF0001040000))
  else if 0xF0002000000 ≤ pa ∧ pa < 0xF0003000000 then
    let (t, o) := at64 0xF0002000000; some (.tenant t o)
  else if 0xF0010000000 ≤ pa ∧ pa < 0xF0020000000 then
    let (q, o) := at64 0xF0010000000; some (.queue q o)
  else if 0xF0100000000 ≤ pa ∧ pa < 0xF0300000000 then
    some (.strand ((pa - 0xF0100000000) / 131072) ((pa - 0xF0100000000) % 131072))
  else if 0xF0300000000 ≤ pa ∧ pa < 0xF0301000000 then
    let (t, o) := at64 0xF0300000000; some (.counter t o)
  else if 0xF0301000000 ≤ pa ∧ pa < 0xF0302000000 then
    let (t, o) := at64 0xF0301000000; some (.faults t o)
  else if 0xF0302000000 ≤ pa ∧ pa < 0xF0303000000 then
    let (c, o) := at64 0xF0302000000; some (.chain c o)
  else if 0xF0303000000 ≤ pa ∧ pa < 0xF0303400000 then
    let (k, o) := at64 0xF0303000000; some (.key k o)
  else if 0xF0304000000 ≤ pa ∧ pa < 0xF0305000000 then
    some (.seal ((pa - 0xF0304000000) / 256) ((pa - 0xF0304000000) % 256))
  else none

/-- A word made of fields: (lowest bit, value). -/
def fields (l : List (Nat × Nat)) : Word := l.foldl (fun w f => w ||| BitVec.ofNat 64 (f.2 * 2 ^ f.1)) 0#64

def bit (b : Bool) : Nat := if b then 1 else 0

/-- A word sets no bit outside given fields, as (high bit, low bit) (R54). -/
def within (v : Word) (l : List (Nat × Nat)) : Bool :=
  v &&& ~~~(l.foldl (fun m f => m ||| BitVec.ofNat 64 (2 ^ (f.1 + 1) - 2 ^ f.2)) 0#64) == 0#64

/-- A word of a long field. -/
def wordAt {n : Nat} (x : BitVec n) (i : Nat) : Word := x.extractLsb' (64 * i) 64

/-- Word `i` of a long field replaced. -/
def putWord {n : Nat} (x : BitVec n) (i : Nat) (v : Word) : BitVec n := putSlice x (64 * i) v

/-! The strand page. -/

/-- The fields of a strand page that are SNAP, or ACT (R65, R150, R200, R212, R237, R252, R254, R257):
readable in every state. -/
def strandSnap (off : Nat) : Bool :=
  [0x0, 0x8, 0x88, 0x90, 0x98, 0xA0, 0xA8, 0xB0, 0xB8, 0xC0, 0xC8, 0xD0, 0xE8, 0xF0, 0xF8, 0x1930, 0x1938,
    0x1940].contains off || decide (0x1C00 ≤ off ∧ off < 0x1C80)

/-- The offsets of the other fields: register areas (R65, R69). -/
def strandReg (off : Nat) : Bool :=
  [0x10, 0x18, 0x20, 0x28, 0x30, 0x38, 0x40, 0x48, 0x50, 0x58, 0x60, 0x68, 0x70, 0x78, 0x80, 0xD8,
    0xE0].contains off || decide (0x100 ≤ off ∧ off < 0x200) || decide (0x300 ≤ off ∧ off < 0x380) ||
  decide (0x400 ≤ off ∧ off < 0x1400) || decide (0x1808 ≤ off ∧ off < 0x1930) ||
  decide (0x1A00 ≤ off ∧ off < 0x1C00) || decide (0x2000 ≤ off ∧ off < 0x2800) ||
  decide (0x10000 ≤ off ∧ off < 0x20000)

/-- The vector areas, whose access spills the state (R70). -/
def strandVector (off : Nat) : Bool :=
  decide (0x300 ≤ off ∧ off < 0x380) || decide (0x400 ≤ off ∧ off < 0x1400) ||
  decide (0x2000 ≤ off ∧ off < 0x2800) || decide (0x10000 ≤ off ∧ off < 0x20000)

/-- MENG (R150). -/
def State.meng (s : State) (n : Nat) : Word :=
  let e := (s.core (s.strand n).core).engine
  if e.holder = some n then
    fields [(63, 1), (53, e.shadowState.toNat), (52, bit e.active.cask), (51, bit (e.active.state == 2#2)),
      (50, bit e.sparse), (48, e.mode.toNat), (40, e.shadow.cause.toNat), (0, min e.queue.length 15)]
  else 0#64

/-- PLACE (R65). -/
def State.placeWord (s : State) (n : Nat) : Word :=
  match (s.strand n).place with
  | none => 0#64
  | some p => fields [(63, 1), (40, dieOfCore p.core), (32, slotOfCore p.core), (8, s.logicalCore p.core),
      (0, p.slot)]

/-- The SNAP fields of a strand page. -/
def State.strandSnapWord (s : State) (n off : Nat) : Word :=
  let x := s.strand n
  match off with
  | 0x0 => BitVec.ofNat 64 x.ctl
  | 0x8 => fields [(0, x.state.toNat), (8, x.cause.toNat), (16, bit x.vres), (17, bit x.owed)]
  | 0x88 => x.launch.setWidth 64
  | 0x90 => s.placeWord n
  | 0x98 => x.owner.setWidth 64
  | 0xA0 => s.meng n
  | 0xA8 => fields [(63, bit x.mstopValid), (0, x.mstopAddr.toNat)]
  | 0xB0 => fields [(48, x.mchkRow.toNat), (40, x.mchkLost.toNat), (16, x.mchkFail.toNat), (0, x.mchkCount.toNat)]
  | 0xB8 => x.mfaddr.setWidth 64
  | 0xC0 => fields [(32, bit x.awaitDenied), (16, x.awaitGot.toNat), (0, x.awaitSeqs.length)]
  | 0xC8 => fields [(0, bit x.inHandler), (1, bit x.claimed), (2, bit x.nested)]
  | 0xD0 => match x.barmark with
    | none => 0#64
    | some (b, k) => fields [(63, 1), (16, k.toNat), (0, b.toNat)]
  | 0xE8 => fields [(24, bit x.rReturned), (16, x.rCause.toNat), (0, x.rCount.toNat)]
  | 0xF0 => x.raddr.setWidth 64
  | 0xF8 => fields [(16, x.mismatches.toNat), (0, bit x.checked)]
  | 0x1930 => fields [(32, x.rbStrip.toNat), (0, x.rbTotal.toNat)]
  | 0x1938 => fields [(40, x.vineChain.toNat), (0, x.vineLost.toNat)]
  | 0x1940 => x.vaddr.setWidth 64
  | off => (x.awaitSeqs.getD ((off - 0x1C00) / 8) 0#48).setWidth 64

/-- The vector state a page shows: the interrupted one of a claimed strand (R218). -/
def Strand.pageVec (x : Strand) : VecState := if x.claimed then x.saved else x.vec

def Strand.setPageVec (x : Strand) (v : VecState) : Strand :=
  if x.claimed then { x with saved := v } else { x with vec := v }

/-- The register-area fields of a strand page. -/
def Strand.regWord (x : Strand) (off : Nat) : Word :=
  match off with
  | 0x10 => (x.pc.setWidth 57).setWidth 64
  | 0x18 => x.vl.setWidth 64
  | 0x20 => x.mvl.setWidth 64
  | 0x28 => x.space.setWidth 64
  | 0x30 => x.vstart.setWidth 64
  | 0x38 => x.tags
  | 0x40 => x.trapcause.setWidth 64
  | 0x48 => x.trappc.setWidth 64
  | 0x50 => x.trapaddr.setWidth 64
  | 0x58 => x.trapvec.setWidth 64
  | 0x60 => x.strip
  | 0x68 => fields [(8, x.frm.toNat), (0, x.fflags.toNat)]
  | 0x70 => x.sew.setWidth 64
  | 0x78 => x.shape
  | 0x80 => x.cycle
  | 0xD8 => x.claim0
  | 0xE0 => x.claim1.setWidth 64
  | off =>
    if off < 0x200 then x.sreg (BitVec.ofNat 5 ((off - 0x100) / 8))
    else if off < 0x380 then
      let r := 2 * ((off - 0x300) / 8)
      let p (r : Nat) := (x.pageVec.prog.toList.getD r 0#32).toNat
      fields [(0, p r), (32, p (r + 1))]
    else if off < 0x1400 then
      let k := (off - 0x400) / 256
      if k = 0 then BitVec.allOnes 64
      else wordAt (x.pageVec.k.toList.getD k 0#2048) ((off - 0x400) % 256 / 8)
    else if off < 0x1900 then x.ckpt.s.toList.getD ((off - 0x1800) / 8) 0#64
    else if off = 0x1900 then x.ckpt.vl.setWidth 64
    else if off = 0x1908 then x.ckpt.sew.setWidth 64
    else if off = 0x1910 then x.ckpt.strip
    else if off = 0x1918 then x.ckpt.pc.setWidth 64
    else if off = 0x1920 then wordOfBool x.ckpt.valid
    else if off = 0x1928 then x.ckpt.grant
    else if off < 0x1C00 then (x.tstat.toList.getD ((off - 0x1A00) / 8) 0#9).setWidth 64
    else if off < 0x2800 then
      wordAt (x.pageVec.tags.toList.getD ((off - 0x2000) / 64) 0#512) ((off - 0x2000) % 64 / 8)
    else
      let b := (off - 0x10000) % 2048
      if x.mvl.toNat / 8 ≤ b then 0#64
      else wordAt (x.pageVec.v.toList.getD ((off - 0x10000) / 2048) 0#16384) (b / 8)

/-- A store to a vector area of a stopped strand's page. -/
def Strand.putVector (x : Strand) (off : Nat) (v : Word) : Option Strand :=
  let y := x.pageVec
  if off < 0x380 then
    let r := 2 * ((off - 0x300) / 8)
    let p := (y.prog.setIfInBounds r (v.setWidth 32)).setIfInBounds (r + 1) (v.extractLsb' 32 32)
    some (x.setPageVec { y with prog := p })
  else if off < 0x1400 then
    let k := (off - 0x400) / 256
    if k = 0 then none
    else
      let m := putWord (y.k.toList.getD k 0#2048) ((off - 0x400) % 256 / 8) v
      some (x.setPageVec { y with k := y.k.setIfInBounds k m })
  else if off < 0x2800 then
    let r := (off - 0x2000) / 64
    let i := (off - 0x2000) % 64 / 8
    let segs := max (x.mvl.toNat / 512) 1
    if v.toNat < 2 ^ (16 * (segs - 4 * i)) then
      some (x.setPageVec { y with
        tags := y.tags.setIfInBounds r (putWord (y.tags.toList.getD r 0#512) i v) })
    else none
  else
    let r := (off - 0x10000) / 2048
    let b := (off - 0x10000) % 2048
    if x.mvl.toNat / 8 ≤ b then (if v = 0#64 then some x else none)
    else some (x.setPageVec { y with
      v := y.v.setIfInBounds r (putWord (y.v.toList.getD r 0#16384) (b / 8) v) })

/-- A store to a register-area field of a stopped strand's page: refused for a field that is RD and
for bits outside the field (R30, R54). -/
def Strand.putReg (x : Strand) (off : Nat) (v : Word) : Option Strand :=
  let when (l : List (Nat × Nat)) (y : Strand) : Option Strand := if within v l then some y else none
  match off with
  | 0x10 => when [(56, 0)] { x with pc := v, inSequence := false }
  | 0x18 => when [(31, 0)] { x with vl := v.setWidth 32 }
  | 0x20 => none
  | 0x28 => when [(1, 0)] { x with space := v.setWidth 2 }
  | 0x30 => when [(31, 0)] { x with vstart := v.setWidth 32 }
  | 0x38 => none
  | 0x40 => when [(7, 0)] { x with trapcause := v.setWidth 8 }
  | 0x48 => when [(56, 0)] { x with trappc := v.setWidth 57 }
  | 0x50 => when [(56, 0)] { x with trapaddr := v.setWidth 57 }
  | 0x58 => when [(56, 0)] { x with trapvec := v.setWidth 57 }
  | 0x60 => some { x with strip := v }
  | 0x68 => when [(10, 8), (4, 0)] { x with frm := v.extractLsb' 8 3, fflags := v.setWidth 5 }
  | 0x70 => when [(1, 0)] { x with sew := v.setWidth 2 }
  | 0x78 => when [(63, 24)] { x with shape := v }
  | 0x80 => some { x with cycle := v }
  | 0xD8 => some { x with claim0 := v }
  | 0xE0 => when [(1, 0)] { x with claim1 := v.setWidth 2 }
  | 0x1900 => when [(31, 0)] { x with ckpt := { x.ckpt with vl := v.setWidth 32 } }
  | 0x1908 => when [(1, 0)] { x with ckpt := { x.ckpt with sew := v.setWidth 2 } }
  | 0x1910 => some { x with ckpt := { x.ckpt with strip := v } }
  | 0x1918 => when [(56, 0)] { x with ckpt := { x.ckpt with pc := v.setWidth 57 } }
  | 0x1920 => when [(0, 0)] { x with ckpt := { x.ckpt with valid := v.getLsbD 0 } }
  | 0x1928 => some { x with ckpt := { x.ckpt with grant := v } }
  | off =>
    if strandVector off then (x.putVector off v).map fun y => { y with vres := y.vres && y.claimed }
    else if off < 0x200 then some (x.setS (BitVec.ofNat 5 ((off - 0x100) / 8)) v)
    else if off < 0x1900 then
      some { x with ckpt := { x.ckpt with s := x.ckpt.s.setIfInBounds ((off - 0x1800) / 8) v } }
    else when [(8, 0)] { x with tstat := x.tstat.setIfInBounds ((off - 0x1A00) / 8) (v.setWidth 9) }

/-- A load of a word of a strand page (R65, R69, R70). -/
def State.strandLoad (s : State) (n off : Nat) : Except Nat (Word × State) :=
  let x := s.strand n
  if strandSnap off then .ok (s.strandSnapWord n off, s)
  else if !strandReg off then .ok (0#64, s)
  else if x.state = 1#4 ∨ x.state = 2#4 ∨ x.state = 8#4 then .error cControlBusy
  else
    let s := if strandVector off ∧ x.vres ∧ !x.claimed then s.updStrand n fun x => { x with vres := false } else s
    .ok (x.regWord off, s)

/-- A store to CTL (R66, R68). -/
def State.ctlStore (s : State) (self : Bool) (n : Nat) (v : Word) : Except Nat State :=
  match v.toNat with
  | 1 =>
    let s := s.stopStrand n
    .ok (if self then s.updStrand n fun x => { x with wait := .stopping } else s)
  | 2 => if self then .ok s else s.resumeStrand n
  | 3 => if self then .error cIllegalState else s.stepStrand n
  | 4 => .ok (s.killStore n)
  | _ => .error cIllegalState

/-- A store to a word of a strand page (R64 to R66, R69, R237). -/
def State.strandStore (s : State) (who : Option Nat) (n off : Nat) (v : Word) : Except Nat State :=
  let x := s.strand n
  let self := who == some n
  let running := x.state == 1#4 || x.state == 2#4 || x.state == 8#4
  let stopped := x.state == 3#4 || x.state == 4#4
  if off = 0 then s.ctlStore self n v
  else if self then .error cPermission
  else if off = 0xE8 ∨ off = 0xF0 ∨ strandReg off then
    if running then .error cControlBusy
    else if !stopped then .error cIllegalState
    else if off = 0xE8 then
      if within v [(24, 0)] then .ok (s.updStrand n fun x => { x with
        rReturned := v.getLsbD 24, rCause := v.extractLsb' 16 8, rCount := v.setWidth 16 })
      else .error cIllegalState
    else if off = 0xF0 then
      if within v [(56, 0)] then .ok (s.updStrand n fun x => { x with raddr := v.setWidth 57 })
      else .error cIllegalState
    else match x.putReg off v with
      | some y => .ok (s.setStrand n y)
      | none => .error cIllegalState
  else .error cIllegalState

/-! The tenant page (R73, R254, R273). -/

def State.tenantPageLoad (s : State) (t off : Nat) : Word :=
  let x := s.tenant t
  match off with
  | 0x8 => fields [(0, x.state.toNat), (8, x.result.toNat)]
  | 0x10 => fields [(16, x.root.toNat)]
  | 0x18 => x.world.setWidth 64
  | 0x20 => fields [(63, bit x.keyValid), (0, x.keySlot.toNat)]
  | 0x28 => x.cls.setWidth 64
  | 0x30 => fields [(16, x.faultq.toNat)]
  | 0x38 => fields [(0, x.strikes.toNat), (16, x.strikeLimit.toNat)]
  | 0x40 => wordOfBool x.barred
  | 0x48 => fields [(0, bit x.measured), (1, bit x.measTaken)]
  | 0x50 => fields [(3, x.framelist.toNat)]
  | 0x58 => x.framecount.setWidth 64
  | 0x68 => x.scrub.setWidth 64
  | 0x70 => wordOfBool x.checked
  | 0x80 => fields [(3, x.codelist.toNat)]
  | 0x88 => x.codecount.setWidth 64
  | off =>
    if 0x90 ≤ off ∧ off < 0xC0 then wordAt x.mdigest ((off - 0x90) / 8)
    else if 0x100 ≤ off ∧ off < 0x120 then (x.cores.toList.getD ((off - 0x100) / 8) 0#40).setWidth 64
    else if 0x140 ≤ off ∧ off < 0x1C0 then x.spad.toList.getD ((off - 0x140) / 8) 0#64
    else 0#64

/-- A store to a field of a tenant page without an action of its own. -/
def State.tenantPut (s : State) (t off : Nat) (v : Word) : Option Tenant :=
  let x := s.tenant t
  let when (ok : Bool) (l : List (Nat × Nat)) (y : Tenant) : Option Tenant :=
    if ok && within v l then some y else none
  let free := x.state == 0#3
  let frame : BitVec 40 := v.extractLsb' 16 40
  match off with
  | 0x10 => when (free && s.frameHere frame) [(55, 16)] { x with root := frame }
  | 0x18 => when free [(5, 0)] { x with world := v.setWidth 6 }
  | 0x28 => when free [(0, 0)] { x with cls := v.setWidth 1 }
  | 0x30 =>
    let own := s.fullAddr (0xF0301000000 + t * 65536)
    when (v == 0#64 || v == BitVec.ofNat 64 own) [(55, 16)] { x with faultq := frame }
  | 0x38 => when true [(31, 0)] { x with strikes := v.setWidth 16, strikeLimit := v.extractLsb' 16 16 }
  | 0x40 => when true [(0, 0)] { x with barred := v.getLsbD 0 }
  | 0x50 => when (free && decide (pkgOf v.toNat = s.package.toNat)) [(55, 3)]
      { x with framelist := v.extractLsb' 3 53 }
  | 0x58 => when free [(23, 0)] { x with framecount := v.setWidth 24 }
  | 0x70 => when true [(0, 0)] { x with checked := v.getLsbD 0 }
  | 0x80 => when (x.state != 2#3) [(56, 3)] { x with codelist := v.extractLsb' 3 54 }
  | 0x88 => when (x.state != 2#3) [(6, 0)] { x with codecount := v.setWidth 7 }
  | off =>
    if 0x100 ≤ off ∧ off < 0x120 then
      when free [(39, 0)] { x with cores := x.cores.setIfInBounds ((off - 0x100) / 8) (v.setWidth 40) }
    else if 0x140 ≤ off ∧ off < 0x1C0 then
      when free [(63, 0)] { x with spad := x.spad.setIfInBounds ((off - 0x140) / 8) v }
    else none

/-- The tenant of the agent that stores, if it is a strand. -/
def State.agentTenant (s : State) (who : Option Nat) : Option Nat :=
  who.map fun n => (s.strand n).owner.toNat

def State.tenantPageStore (s : State) (who : Option Nat) (t off : Nat) (v : Word) : Except Nat State :=
  if s.agentTenant who = some t then .error cPermission
  else match off with
    | 0x0 => if v = 1#64 then s.activate t else .error cIllegalState
    | 0x60 => if v = 1#64 then s.teardown t else .error cIllegalState
    | 0x78 => if v = 1#64 then s.measnow t else .error cIllegalState
    | off => match s.tenantPut t off v with
      | some x => .ok (s.updTenant t fun _ => x)
      | none => .error cIllegalState

/-! The die pages (R76, R260, R290). -/

/-- The physical slots of the enabled cores, ascending (R76). -/
def Die.slots (x : Die) : List Nat := (List.range 36).filter fun i => x.harvest.getLsbD i

def State.diePageLoad (s : State) (d off : Nat) : Word :=
  let x := s.die d
  match off with
  | 0x0 => x.harvest.setWidth 64
  | 0x8 => x.stewards.setWidth 64
  | 0x10 => BitVec.ofNat 64 x.slots.length
  | 0x200 => fields [(0, x.world.toNat), (8, x.latch.toNat)]
  | 0x208 => x.fence.setWidth 64
  | off =>
    if 0x100 ≤ off ∧ off ≤ 0x120 then
      wordOfBytes ((List.range 8).map fun i => BitVec.ofNat 8 (x.slots.getD (off - 0x100 + i) 0xFF))
    else if 0x400 ≤ off ∧ off < 0x460 then
      let y := x.islands.toList.getD ((off - 0x400) / 8) Island.reset
      fields [(40, y.state.toNat), (16, y.current.toNat), (0, y.ceiling.toNat)]
    else 0#64

def State.diePageStore (s : State) (d off : Nat) (v : Word) : Except Nat State :=
  if off = 0x208 then s.fenceStore d v
  else if 0x400 ≤ off ∧ off < 0x460 then s.islandStore d ((off - 0x400) / 8) v
  else .error cIllegalState

/-! The hub page (R77, R228, R282, R293). -/

def byteWord (l : List (BitVec 8)) (i : Nat) : Word := wordOfBytes ((l.drop (8 * i)).take 8)

def State.hubLoad (s : State) (off : Nat) : Word :=
  match off with
  | 0x0 => s.package.setWidth 64
  | 0x8 => BitVec.ofNat 64 ((List.range 4).map fun d => (s.die d).slots.length).sum
  | 0x10 => s.hosterr.setWidth 64
  | 0x18 => s.gen.setWidth 64
  | 0x20 => s.domain.setWidth 64
  | 0x28 => s.link.setWidth 64
  | 0x30 => wordOfBool s.atomen
  | 0x1000 => byteWord s.route.toList 0
  | 0x1008 => byteWord s.route.toList 1
  | 0x2000 => byteWord s.modes.toList 0
  | 0x4000 => fields [(0, s.bootPhase.toNat), (8, s.bootResult.toNat)]
  | 0x4008 => s.pwrlim.setWidth 64
  | 0x4010 => s.power.setWidth 64
  | 0x4018 => s.temp.setWidth 64
  | 0x4020 => s.trip.setWidth 64
  | off =>
    if 0x800 ≤ off ∧ off < 0x880 then
      let w := s.win.toList.getD ((off - 0x800) / 8) { base := 0#26, enable := false }
      fields [(38, w.base.toNat), (0, bit w.enable)]
    else if 0x3000 ≤ off ∧ off < 0x3060 then wordAt s.sealpub ((off - 0x3000) / 8)
    else if 0x3080 ≤ off ∧ off < 0x30E0 then wordAt s.provpub ((off - 0x3080) / 8)
    else if 0x4100 ≤ off ∧ off < 0x4168 then (s.fwver.toList.getD ((off - 0x4100) / 8) 0#32).setWidth 64
    else if 0x8000 ≤ off ∧ off < 0x10000 then
      let p := s.peer ((off - 0x8000) / 8)
      fields [(62, p.state.toNat), (0, p.gen.toNat)]
    else 0#64

/-- Eight ROUTE bytes; one above 2 refuses the store (R77). -/
def State.routeStore (s : State) (i : Nat) (v : Word) : Except Nat State :=
  let bytes := (List.range 8).map fun w => v.extractLsb' (8 * w) 8
  if bytes.any fun b => decide (2 < b.toNat) then .error cIllegalState
  else .ok { s with route := (List.range 8).foldl (fun r w => r.setIfInBounds (8 * i + w) (bytes.getD w 0#8)) s.route }

def State.hubStore (s : State) (off : Nat) (v : Word) : Except Nat State :=
  match off with
  | 0x10 => if within v [(31, 0)] then .ok { s with hosterr := v.setWidth 32 } else .error cIllegalState
  | 0x1000 => s.routeStore 0 v
  | 0x1008 => s.routeStore 1 v
  | 0x2000 => s.modesStore v
  | 0x4008 =>
    if 600 ≤ v.toNat ∧ v.toNat ≤ 2200 then .ok { s with pwrlim := v.setWidth 12 } else .error cIllegalState
  | off =>
    if 0x800 ≤ off ∧ off < 0x880 ∧ within v [(63, 38), (0, 0)] then s.winStore ((off - 0x800) / 8) v
    else .error cIllegalState

/-! The queue page (R99). -/

def State.queueLoad (s : State) (q off : Nat) : Word :=
  let x := s.queue q
  match off with
  | 0x0 => wordOfBool (x.state != 0#3)
  | 0x8 => fields [(0, x.state.toNat), (8, x.code.toNat)]
  | 0x10 => x.consumed.setWidth 64
  | 0x18 => x.verdict
  | off =>
    if 0x100 ≤ off ∧ off < 0x140 then x.a.toList.getD ((off - 0x100) / 8) 0#64
    else if 0x140 ≤ off ∧ off < 0x180 then x.b.toList.getD ((off - 0x140) / 8) 0#64
    else 0#64

/-- The bits of each word of a shadow copy; words 4 to 6 take any value and void the copy (R99). -/
def shadowBits (i : Nat) : List (Nat × Nat) :=
  match i with
  | 0 => [(31, 0)]
  | 1 => [(7, 0)]
  | 2 => [(55, 16), (3, 0)]
  | 3 => [(35, 0)]
  | 7 => [(31, 0)]
  | _ => [(63, 0)]

def State.queuePageStore (s : State) (q off : Nat) (v : Word) : Except Nat State :=
  match off with
  | 0x0 =>
    if v = 1#64 then s.queueEnable q
    else if v = 0#64 then .ok (s.queueDisable q)
    else .error cIllegalState
  | 0x18 => if within v [(63, 63), (7, 0)] then s.queueVerdict q v else .error cIllegalState
  | off =>
    if 0x100 ≤ off ∧ off < 0x180 then
      let i := (off - 0x100) / 8 % 8
      if !within v (shadowBits i) ∨ (i = 2 ∧ pkgOf v.toNat ≠ s.package.toNat) then .error cIllegalState
      else .ok (s.updQueue q fun x =>
        if off < 0x140 then { x with a := x.a.setIfInBounds i v } else { x with b := x.b.setIfInBounds i v })
    else .error cIllegalState

/-! The counter page (R83). -/

/-- The record at an offset of a counter page, as its key, with the offset in it. -/
def counterRecord (off : Nat) : Option (Nat × Nat) :=
  if off < 0x400 then some (3 * 1024 + off / 64, off % 64)
  else if off < 0x1400 then some (2 * 1024 + (off - 0x400) / 64, off % 64)
  else if off < 0x5400 then some (1024 + (off - 0x1400) / 64, off % 64)
  else if off < 0xD400 then some ((off - 0x5400) / 64, off % 64)
  else none

def State.counterLoad (s : State) (t off : Nat) : Word :=
  match counterRecord off with
  | none => 0#64
  | some (k, o) =>
    let r := s.record t k
    match o with
    | 0x0 => r.ident.setWidth 64
    | 0x8 => fields [(0, r.state.toNat), (8, r.cause.toNat)]
    | 0x10 => r.target.setWidth 64
    | 0x18 => r.completed.setWidth 64
    | 0x20 => r.failed.setWidth 64
    | 0x28 => match r.parent with
      | some p => fields [(63, 1), (0, p.toNat)]
      | none => 0#64
    | 0x30 => wordOfBool (r.state == 3#3)
    | _ => 0#64

def State.counterStore (s : State) (t off : Nat) (v : Word) : Except Nat State :=
  match counterRecord off with
  | some (k, 0x30) =>
    if v = 1#64 then .ok (s.cancelRecord t (s.record t k).ident) else .error cIllegalState
  | _ => .error cIllegalState

/-! The fault queue page (R198). -/

/-- The last entry written to a slot. -/
def Tenant.slotEntry (x : Tenant) (i : Nat) : Option (Nat × FqEntry) :=
  x.fqEntries.reverse.find? fun e => e.1 % 1024 == i

def State.faultLoad (s : State) (t off : Nat) : Word :=
  let x := s.tenant t
  match off with
  | 0x0 => x.fqHead.setWidth 64
  | 0x8 => x.fqTail.setWidth 64
  | 0x10 => x.fqReplay
  | 0x20 => x.fqHeld.setWidth 64
  | 0x28 => x.fqStale.setWidth 64
  | off =>
    if 0x40 ≤ off ∧ off < 0x8040 then
      match x.slotEntry ((off - 0x40) / 32) with
      | none => 0#64
      | some (q, e) =>
        match (off - 0x40) % 32 with
        | 0 => fields [(16, e.page.toNat), (5, bit e.engine), (3, e.level.toNat), (0, e.mask.toNat)]
        | 8 => fields [(0, e.who.toNat), (32, t)]
        | 16 => fields [(0, e.count.toNat), (16, e.stale.toNat)]
        | _ => fields [(62, e.status.toNat), (0, q)]
    else 0#64

/-- A store to TSYNC (R198): one page, or all. -/
def State.tsyncStore (s : State) (t : Nat) (v : Word) : Except Nat State :=
  if !within v [(56, 16), (0, 0)] then .error cIllegalState
  else if v.getLsbD 0 then
    if v = 1#64 then .ok (s.tsync t none) else .error cIllegalState
  else .ok (s.tsync t (some (v.extractLsb' 16 41).toNat))

/-- A store to REPLAY (R201). -/
def State.replayStore (s : State) (t : Nat) (v : Word) : Except Nat State :=
  if v.getLsbD 63 ∨ v.extractLsb' 48 14 ≠ 0#14 then .error cIllegalState
  else
    match s.fqVerdict t (v.setWidth 48) (v.getLsbD 62) with
    | .ok s => .ok (s.updTenant t fun x => { x with fqReplay := v })
    | .error c => .error c

def State.faultStore (s : State) (t off : Nat) (v : Word) : Except Nat State :=
  let x := s.tenant t
  match off with
  | 0x0 =>
    if x.fqHead.toNat ≤ v.toNat ∧ v.toNat ≤ x.fqTail.toNat then
      .ok (s.updTenant t fun x => { x with fqHead := v.setWidth 32 })
    else .error cIllegalState
  | 0x10 => s.replayStore t v
  | 0x18 => s.tsyncStore t v
  | _ => .error cIllegalState

/-! The chain table (R244). -/

def State.chainLoad (s : State) (c off : Nat) : Word :=
  let x := s.chain c
  match off with
  | 0x8 => x.state.setWidth 64
  | 0x10 => x.gen.setWidth 64
  | 0x18 => x.size.setWidth 64
  | 0x20 => x.owner.setWidth 64
  | 0x28 => fields [(8, x.links.toNat), (0, x.count.toNat)]
  | 0x30 => x.linkop
  | 0x38 => x.accepted
  | 0x40 => x.lost.setWidth 64
  | off =>
    if 0x100 ≤ off ∧ off < 0x120 then fields [(16, (x.base.toList.getD ((off - 0x100) / 8) 0#40).toNat)]
    else 0#64

def State.chainStore (s : State) (c off : Nat) (v : Word) : Except Nat State :=
  let x := s.chain c
  let when (l : List (Nat × Nat)) (y : Chain) : Except Nat State :=
    if x.state = 0#3 ∧ within v l then .ok (s.updChain c fun _ => y) else .error cIllegalState
  let set (l : List (Nat × Nat)) (y : Chain) : Except Nat State :=
    if within v l then .ok (s.updChain c fun _ => y) else .error cIllegalState
  match off with
  | 0x10 => set [(31, 0)] { x with gen := v.setWidth 32 }
  | 0x38 => set [(63, 0)] { x with accepted := v }
  | 0x40 => set [(31, 0)] { x with lost := v.setWidth 32 }
  | 0x0 => match v.toNat with
    | 1 => s.chainStart c
    | 2 => s.chainRelease c
    | _ => .error cIllegalState
  | 0x18 => when [(18, 0)] { x with size := v.setWidth 19 }
  | 0x20 => when [(7, 0)] { x with owner := v.setWidth 8 }
  | 0x28 => when [(23, 8), (2, 0)] { x with links := v.extractLsb' 8 16, count := v.setWidth 3 }
  | 0x30 => if within v [(63, 62), (58, 56), (55, 16)] then s.linkOp c v else .error cIllegalState
  | off =>
    if 0x100 ≤ off ∧ off < 0x120 ∧ s.frameHere (v.extractLsb' 16 40) then
      when [(55, 16)] { x with base := x.base.setIfInBounds ((off - 0x100) / 8) (v.extractLsb' 16 40) }
    else .error cIllegalState

/-! The key slot page (R268) and the seal records (R276). -/

def State.keyLoadWord (s : State) (k off : Nat) : Word :=
  let y := s.key k
  match off with
  | 0x0 => y.ctl.setWidth 64
  | 0x8 => fields [(0, y.state.toNat), (8, y.result.toNat)]
  | 0x10 => y.bind.setWidth 64
  | off =>
    if 0x40 ≤ off ∧ off < 0x70 then wordAt y.fprint ((off - 0x40) / 8)
    else if 0x100 ≤ off ∧ off < 0x1D0 then wordAt y.wrap ((off - 0x100) / 8)
    else 0#64

def State.keyStore (s : State) (k off : Nat) (v : Word) : Except Nat State :=
  let y := s.key k
  if k = 0 then .error cIllegalState
  else match off with
    | 0x0 => match v.toNat with
      | 1 => s.keyLoad k
      | 2 => s.keyZeroise k
      | _ => .error cIllegalState
    | 0x10 =>
      if y.state = 0#3 ∧ within v [(7, 0)] then .ok (s.updKey k fun y => { y with bind := v.setWidth 8 })
      else .error cIllegalState
    | off =>
      if 0x100 ≤ off ∧ off < 0x1D0 ∧ y.state = 0#3 then
        .ok (s.updKey k fun y => { y with wrap := putWord y.wrap ((off - 0x100) / 8) v })
      else .error cIllegalState

def State.sealLoad (s : State) (m off : Nat) : Word :=
  let r := s.seal m
  match off with
  | 0x0 => fields [(32, r.serial.toNat), (8, r.result.toNat), (0, r.state.toNat)]
  | 0x8 => r.who.setWidth 64
  | off =>
    if 0x10 ≤ off ∧ off < 0x40 then wordAt r.digest ((off - 0x10) / 8)
    else if 0x40 ≤ off ∧ off < 0x70 then wordAt r.sigr ((off - 0x40) / 8)
    else if 0x70 ≤ off ∧ off < 0xA0 then wordAt r.sigs ((off - 0x70) / 8)
    else 0#64

/-! Every page. -/

/-- The 16 kinds of a word of the frame-kind table (R55). -/
def State.kindsWord (s : State) (pa : Nat) : Word :=
  fields ((List.range 16).map fun i => (4 * i, (lookupD s.frames (2 * (pa - controlBase) + i) 0#4).toNat))

/-- A control load of a word (R60). -/
def State.controlLoad (s : State) (pa : Nat) : Except Nat (Word × State) :=
  match pageOf pa with
  | none => .error cNoMapping
  | some p => match p with
    | .kinds pa => .ok (s.kindsWord pa, s)
    | .die d off => .ok (s.diePageLoad d off, s)
    | .hub off => .ok (s.hubLoad off, s)
    | .tenant t off => .ok (s.tenantPageLoad t off, s)
    | .queue q off => .ok (s.queueLoad q off, s)
    | .strand n off => s.strandLoad n off
    | .counter t off => .ok (s.counterLoad t off, s)
    | .faults t off => .ok (s.faultLoad t off, s)
    | .chain c off => .ok (s.chainLoad c off, s)
    | .key k off => .ok (s.keyLoadWord k off, s)
    | .seal m off => .ok (s.sealLoad m off, s)

/-- A field whose access kind is ACT (R4): a store to it asks for an action. -/
def isAct (pa : Nat) : Bool :=
  match pageOf pa with
  | some (.kinds _) => true
  | some (.strand _ off) => decide (off = 0)
  | some (.tenant _ off) => [0x0, 0x60, 0x78].contains off
  | some (.queue _ off) => [0x0, 0x18].contains off
  | some (.die _ off) => decide (off = 0x208)
  | some (.hub off) => decide (off = 0x2000 ∨ (0x800 ≤ off ∧ off < 0x880))
  | some (.counter _ off) => decide (off % 64 = 0x30)
  | some (.faults _ off) => [0x10, 0x18].contains off
  | some (.chain _ off) => [0x0, 0x30].contains off
  | some (.key _ off) => decide (off = 0)
  | some (.seal _ off) => decide (off = 0)
  | none => false

/-- An action holds the register areas of the page of an address: loads of them are performed after it
(R60). DESIGN CHOICE (log 88): so is a load that a strand under STEP makes of its own page, and its step never ends. -/
def State.areaHeld (s : State) (pa : Nat) : Bool :=
  match pageOf pa with
  | some (.strand n off) => decide ((s.strand n).ctl ≠ 0) && !strandSnap off
  | _ => false

/-- An action holds the page of an address, for an agent other than the strand that it is taken on
(R60, R68, R77, R99, R191, R228, R245). -/
def State.pageHeld (s : State) (who : Option Nat) (pa : Nat) (v : Word) : Bool :=
  match pageOf pa with
  | some (.strand n _) => decide ((s.strand n).ctl ≠ 0) && who != some n
  | some (.counter t _) => (s.tenant t).records.any fun e => e.2.state == 3#3
  | some (.tenant t off) => decide (off = 0x60) && v == 1#64 && s.teardownWaits t
  | some (.chain c off) =>
    (s.chain c).append.isSome || (decide (off = 0) && v == 2#64 && !(s.chain c).inflight.isEmpty)
  | some (.key k _) => (s.key k).ctl != 0#2
  | some (.queue q off) => (s.queue q).disabling || (s.queue q).admitting ||
    (decide (off = 0x18) && (s.queue q).awaits)
  | some (.hub off) => s.switching ||
    (decide (0x800 ≤ off ∧ off < 0x880) && s.windowInUse ((off - 0x800) / 8))
  | some (.faults t off) => decide (off = 0x18) &&
    s.inFlightFor t (if v.getLsbD 0 then none else some (v.extractLsb' 16 41).toNat)
  | _ => false

/-- The action of a store that has been performed has not taken its whole effect (R60, R67, R77,
R85, R99, R249, R269). -/
def State.actPending (s : State) (pa : Nat) : Bool :=
  match pageOf pa with
  | some (.strand n 0) => decide ((s.strand n).ctl ≠ 0)
  | some (.counter t off) => match counterRecord off with
    | some (k, 0x30) => (s.record t k).state == 3#3
    | _ => false
  | some (.chain c 0x30) => (s.chain c).append.isSome
  | some (.key k 0) => (s.key k).ctl != 0#2
  | some (.queue q 0) => (s.queue q).disabling
  | some (.queue q 0x18) => (s.queue q).admitting
  | some (.hub 0x2000) => s.switching
  | _ => false

/-- A control word of a strand's own page. -/
def onOwnPage (n pa : Nat) : Bool :=
  match pageOf pa with
  | some (.strand k _) => k == n
  | _ => false

/-- A control store of a word by a strand, or by the host or a peer's hub (R54, R60, R62, R64). -/
def State.controlStore (s : State) (who : Option Nat) (pa : Nat) (v : Word) : Except Nat State :=
  match pageOf pa with
  | none => .error cNoMapping
  | some p => match p with
    | .kinds pa => s.kindStore pa v
    | .die d off => s.diePageStore d off v
    | .hub off => s.hubStore off v
    | .tenant t off => s.tenantPageStore who t off v
    | .queue q off => s.queuePageStore q off v
    | .strand n off => s.strandStore who n off v
    | .counter t off => s.counterStore t off v
    | .faults t off => s.faultStore t off v
    | .chain c off => s.chainStore c off v
    | .key k off => s.keyStore k off v
    | .seal _ _ => .error cIllegalState

end Sys2Proof.Machine
end

