-- ==== Sys2Proof/Machine/ScalarMem.lean ====
section
/-! DEFINITION. Scalar loads and stores, atomics and fences (R174, R176, R298 to R302, R328 to R330),
the range scoreboard's rules for them (R132, R143 to R146), what a release waits for (R174, R237) and
what it refuses (R252), and an atomic at each kind of location (R231, R232, R301). -/

namespace Sys2Proof.Machine

/-! The range scoreboard. -/

/-- An entry covers a block (R143). -/
def SbEntry.covers (e : SbEntry) (b : Nat) : Bool :=
  decide (e.first ≤ b) && (b - e.first) % e.stride == 0 && decide ((b - e.first) / e.stride < e.count)

/-- Blocks as an entry records them: the progression they form, else, and for an indexed access, the span
from the lowest to the highest (R143). -/
def entryOf (n op : Nat) (write : Bool) (blocks : List Nat) (indexed : Bool := false) : Option SbEntry :=
  let l := blocks.eraseDups.mergeSort
  match l with
  | [] => none
  | [b] => some { strand := n, write := write, first := b, count := 1, stride := 1, op := op }
  | b :: c :: r =>
    let d := c - b
    let exact := !indexed && (List.range l.length).map (fun i => b + i * d) == l
    let last := (c :: r).getLastD c
    some { strand := n, write := write, first := b, op := op
           count := if exact then l.length else last - b + 1
           stride := if exact then d else 1 }

/-- Two entries of one strand conflict (R144). -/
def SbEntry.conflicts (a b : SbEntry) : Bool :=
  a.strand == b.strand && (a.write || b.write) &&
  (List.range a.count).any fun i => b.covers (a.first + i * a.stride)

/-- An older entry of the strand conflicts with the entry of an access (R144). -/
def State.entryBlocked (s : State) (c : Nat) (e : SbEntry) : Bool := (s.core c).board.any fun o => e.conflicts o

/-- An older entry of the strand conflicts with an access of blocks (R144). -/
def State.boardBlocks (s : State) (c n : Nat) (write : Bool) (blocks : List Nat) : Bool :=
  (s.core c).board.any fun e => e.strand == n && (e.write || write) && blocks.any e.covers

/-- A strand is resident on a core. -/
def State.residentOn (s : State) (c n : Nat) : Bool := ((s.strand n).place.map (·.core)) == some c

/-- The strands of a list that may still issue on a core. -/
def State.stillOn (s : State) (c : Nat) (l : List Nat) : List Nat :=
  l.filter fun m => (s.strand m).state == 1#4 && s.residentOn c m

/-- The strands whose requests for a shared entry count, in order; those that hold an entry for an access that
waits for older ones (R146). -/
def State.boardWaiters (s : State) (c : Nat) : List Nat := s.stillOn c (s.core c).boardLine
def State.boardHolders (s : State) (c : Nat) : List Nat := s.stillOn c (s.core c).boardHold

/-- The strands that the entries of a core belong to, one for each entry. -/
def State.boardOwners (s : State) (c : Nat) : List Nat :=
  (s.core c).board.map (·.strand) ++ s.boardHolders c

/-- Entries of a strand that no other strand could take: up to 8 while it is resident (R146). -/
def State.boardOwn (s : State) (c n : Nat) : Nat :=
  if s.residentOn c n then min 8 ((s.boardOwners c).filter (· == n)).length else 0

/-- No entry is free for a strand that holds none: 8 are its own while it is resident, the rest are shared, in
order of request (R146). -/
def State.boardFull (s : State) (c n : Nat) : Bool :=
  let l := s.boardOwners c
  let shared := l.length - ((l.eraseDups).map (s.boardOwn c)).sum
  !(s.boardHolders c).contains n &&
  (decide (256 ≤ l.length) ||
   (!(decide (s.boardOwn c n < 8) && s.residentOn c n) &&
     (decide (256 - 8 * strandSlots c ≤ shared) || ((s.boardWaiters c).headD n != n))))

/-- The striped blocks that bytes of a scratchpad lie in. -/
def spadBlocks (c : Nat) (lane : Bool) (a n : Nat) : List Nat :=
  ((List.range n).map fun i => spadOffset c lane (a + i) / 64).eraseDups

/-- An instruction that takes an entry finds one, or waits in line (R146). -/
def State.boardEntry (s : State) (c n : Nat) : Except Stop Unit :=
  if s.boardFull c n then .error .entry else .ok ()

/-- A scratchpad access of a strand waits (R144, R146). -/
def State.boardWaits (s : State) (n : Nat) (x : Target) (len : Nat) (write : Bool) : Bool :=
  match x with
  | .spad c lane a => s.boardFull c n || s.boardBlocks c n write (spadBlocks c lane a len)
  | _ => false

/-- The wait of an access for the scoreboard: for an entry, then for older ones. -/
def State.boardReady (s : State) (n : Nat) (x : Target) (len : Nat) (write : Bool) : Except Stop Unit :=
  if !s.boardWaits n x len write then .ok ()
  else match x with
    | .spad c _ _ => if s.boardFull c n then .error .entry else .error .conflict
    | _ => .ok ()

/-- An instruction that names the scratchpad binds its strand to its core (R132). -/
def Strand.bindHere (x : Strand) : Strand := { x with bound := some x.core }

def State.bindSpad (s : State) : State :=
  if s.me.space = 0#2 then s else s.updMe Strand.bindHere

/-! Releases. -/

/-- An engine operation of a strand has not performed its accesses to the scratchpad: it holds an entry of a
scoreboard (R143). -/
def State.spadOpen (s : State) (n : Nat) : Bool := s.cores.any fun e => e.2.board.any fun o => o.strand == n

/-- A release of a strand at a scope waits for its earlier accesses (R174): its vine writes, what its engine
operations access in the scratchpad (R147), and its remote stores at domain or system scope (R237). -/
def State.releaseWaits (s : State) (n scope : Nat) : Bool :=
  s.vineOpen n || s.spadOpen n || (decide (3 ≤ scope) && s.remote.any fun e => e.2.strand == n)

/-- A release at package scope or wider is refused while a vine write of the strand is lost (R252). -/
def State.releaseAllowed (s : State) (release : Bool) (scope : Nat) : Except Stop Unit :=
  demand (!(release && decide (2 ≤ scope) && s.me.vineLost != 0#32)) cChainBroken
    (s.me.vaddr.setWidth 64)

/-- Wait unless a condition holds. -/
def waitUnless (ok : Bool) : Except Stop Unit := if ok then .ok () else .error .wait

/-- The release of an access: it waits, once the access has passed its checks. -/
def State.awaitRelease (s : State) (release : Bool) (scope : Nat) : Except Stop Unit :=
  waitUnless (!(release && s.releaseWaits s.cur scope))

/-- What a release or an acquire leaves: a new region (R182). -/
def State.sync (s : State) (does : Bool) : State := if does then s.newRegion s.cur else s

/-! Reading and writing. -/

/-- Where a scalar access leads (R298, checks 1 to 7). -/
def State.reach (s : State) (va : Word) (a : Access) : Except Stop Target :=
  s.resolveIn s.me.owner.toNat s.me.core s.me.space va a true

/-- A releasing store is refused so before its address is checked (R329), unless it is one to the control
region, where its suffix changes nothing (R59). -/
def State.storeReach (s : State) (rel : Bool) (scope : Nat) (va : Word) (a : Access) : Except Stop Target := do
  s.releaseAllowed (rel && !(s.me.space == 0#2 && s.meetsControl s.me.owner.toNat va)) scope
  s.reach va a

/-- Read bytes of a checked target that waits for nothing (R298, checks 8 and 9): the bytes, and the
state with its race record. -/
def State.bytesAt (s : State) (va : Word) (x : Target) (len : Nat) (write atomic : Bool) :
    Except Stop (List Byte × State) := do
  let s := s.settleTarget s.cur x
  let s ← s.raceTarget s.cur s.me.region va x len write atomic
  demand (!s.poisonedAt (if atomic then none else some (dieOfCore s.me.core)) x len) cUncorrectable va
  .ok (s.readTarget x len, s)

/-- The same for a scalar access, which waits for the scoreboard. -/
def State.readBytesAt (s : State) (va : Word) (x : Target) (len : Nat) (write atomic : Bool) :
    Except Stop (List Byte × State) := do
  s.boardReady s.cur x len write
  s.bytesAt va x len write atomic

/-- The same as a value. -/
def State.readAt (s : State) (va : Word) (x : Target) (len : Nat) : Except Stop (Word × State) := do
  let (l, s) ← s.readBytesAt va x len false false
  .ok (wordOfBytes l, s)

/-- Write a checked target: no tag changes (R131). -/
def State.writeAt (s : State) (va : Word) (x : Target) (len : Nat) (v : Word) :
    Except Stop State := do
  s.boardReady s.cur x len true
  let s ← s.raceTarget s.cur s.me.region va x len true false
  .ok (s.writeTarget s.cur va x (bytesOf len v.toNat) none none)

/-- A loaded value: the low bits, sign- or zero-extended (R329). -/
def extendTo (signed : Bool) (len : Nat) (v : Word) : Word :=
  if signed then sextLow (8 * len) v else (v.setWidth (8 * len)).setWidth 64

/-- Send a request to the host; the strand waits for its completion (R229). -/
def State.sendRequest (s : State) (r : WindowRequest) : State :=
  { s with requests := s.requests ++ [r] }.updMe fun x => { x with wait := .window }

/-- The answer a window gives an atomic within a step (R231, R232): what it raises, with ROUTE. -/
def State.windowAtomic (s : State) (e : Nat) (va : Word) (x : Target) :
    Except (Stop × State) State :=
  match x with
  | .window w _ =>
    match s.windowAnswer e x 3 with
    | 0 => .ok (if s.route.toList.getD w 0#8 = 0#8 then
        { s with route := s.route.setIfInBounds w 1#8 } else s)
    | 1 => .error (.trap cHostAtomic va, { s with route := s.route.setIfInBounds w 2#8 })
    | _ => .error (.trap cPeerGone va, s)
  | _ => .ok s

/-! Control words. -/

/-- A control load by the strand that issues: an acquire at package scope (R60). One of a register area
waits while an action holds its page. -/
def State.controlRead (s : State) (va : Word) (pa : Nat) : Except Stop (Word × State) := do
  waitUnless (!s.areaHeld pa)
  match s.controlLoad pa with
  | .ok (v, s) => .ok (v, s.newRegion s.cur)
  | .error c => .error (.trap c va)

/-- How a control store ends for its strand (R60, R68): it retires; it waits for its action, its region
open until then (R182); or the action has ended the strand, at the next instruction. A STOP of its own
leaves it retired in state 2. -/
def State.afterControl (s : State) (pa : Nat) : State :=
  if s.me.ended then
    s.dropCheckpoint.updMe fun x => { x with pc := if x.state = 7#4 then s.npc else x.pc }
  else if s.me.state = 0#4 then s
  else
    let s := s.dropCheckpoint
    if s.actPending pa ∧ !onOwnPage s.cur pa then s.await (.act pa)
    else
      let stops := s.me.wait
      ((s.newRegion s.cur).retire).updMe fun x => { x with wait := stops }

/-- A control store by the strand that issues: a release at package scope (R60), refused as such while a
vine write is lost (R252). It waits while an action holds the page. -/
def State.controlWrite (s : State) (va : Word) (pa : Nat) (v : Word) : Except Stop State := do
  s.releaseAllowed true 2
  waitUnless (!s.pageHeld (some s.cur) pa v)
  s.awaitRelease true 2
  match s.controlStore (some s.cur) pa v with
  | .ok s => .ok (s.afterControl pa)
  | .error c => .error (.trap c va)

/-- A control word of another package, as it is met from here (R61). -/
def State.peerWord (s : State) (pa : Nat) : Word := lookupD s.peerCtl pa 0#64

/-- A control store to another package (R61): a release at domain scope, performed there, or dropped and
recorded when it fails (R236, R237). A store that asks for an action completes when the action has taken
effect there. -/
def State.peerStore (s : State) (va : Word) (pa : Nat) (gen : BitVec 32) (v : Word) : Except Stop State := do
  s.releaseAllowed true 3
  s.awaitRelease true 3
  if s.peerFails pa gen then .ok ((s.remoteLost s.cur va).dropCheckpoint.newRegion s.cur).retire
  else
    let s := { s with peerCtl := insertAt s.peerCtl pa v }.dropCheckpoint
    if isAct (localOf pa) then .ok ({ s with peerActs := pa :: s.peerActs }.await (.peerAct pa va))
    else .ok (s.newRegion s.cur).retire

/-! Loads and stores (R329, R330). -/

/-- A scalar load. -/
def State.load (s : State) (signed : Bool) (w : BitVec 2) (acq : Bool) (scope : BitVec 3)
    (rd rb : SReg) (imm : BitVec 32) : Except Stop State := do
  let len := 2 ^ w.toNat
  let va := s.sreg rb + sextImm imm
  let tgt ← s.reach va { way := .scalar, read := true, write := false, exec := false, width := len
                         scope := if acq then some scope.toNat else none }
  match tgt with
  | .control pa =>
    let (v, s) ← s.controlRead va pa
    .ok (s.result rd v)
  | .window w off =>
    .ok (s.sendRequest { strand := s.cur, tenant := s.me.owner.toNat, live := true, window := w, va := va
                         host := s.hostAddr w off, width := len, op := none, operand := 0#64
                         expected := 0#64, rd := rd, signed := signed, acquire := acq, npc := s.npc })
  | .remote pa gen =>
    if inControl pa then .ok ((s.newRegion s.cur).result rd (s.peerWord pa))
    else
      let (v, s) ← s.readAt va (.remote pa gen) len
      .ok ((s.sync acq).result rd (extendTo signed len v))
  | x =>
    let (v, s) ← s.readAt va x len
    .ok (((s.allocate va x len).sync acq).result rd (extendTo signed len v))

/-- A scalar store. -/
def State.store (s : State) (w : BitVec 2) (rel : Bool) (scope : BitVec 3) (rs rb : SReg)
    (imm : BitVec 32) : Except Stop State := do
  let len := 2 ^ w.toNat
  let va := s.sreg rb + sextImm imm
  let v := s.sreg rs
  let tgt ← s.storeReach rel scope.toNat va
    { way := .scalar, read := false, write := true, exec := false, width := len
      scope := if rel then some scope.toNat else none }
  let plain (x : Target) : Except Stop State := do
    s.awaitRelease rel scope.toNat
    let s ← s.writeAt va x len v
    .ok ((if rel then s.dropCheckpoint.newRegion s.cur else s).retire)
  match tgt with
  | .control pa => s.controlWrite va pa v
  | .remote pa gen =>
    if inControl pa then s.peerStore va pa gen v else plain (.remote pa gen)
  | x => plain x

/-- `ld` (R329). -/
def execLd (w : BitVec 2) (acq : Bool) (scope : BitVec 3) (rd rb : SReg) (imm : BitVec 32)
    (s : State) : Host.Outcome State Fault Refusal :=
  let s := s.bindSpad
  finish s (maskOf true false false) (s.load true w acq scope rd rb imm)

/-- `ldu` (R329). -/
def execLdu (w : BitVec 2) (acq : Bool) (scope : BitVec 3) (rd rb : SReg) (imm : BitVec 32)
    (s : State) : Host.Outcome State Fault Refusal :=
  let s := s.bindSpad
  finish s (maskOf true false false) (s.load false w acq scope rd rb imm)

/-- `st` (R329). -/
def execSt (w : BitVec 2) (rel : Bool) (scope : BitVec 3) (rs rb : SReg) (imm : BitVec 32)
    (s : State) : Host.Outcome State Fault Refusal :=
  let s := s.bindSpad
  finish s (maskOf false true false) (s.store w rel scope rs rb imm)

/-- `fence` (R176): order 2 or 3 is a release; both orders close the region (R182). It waits for no
engine operation. -/
def execFence (order : BitVec 2) (scope : BitVec 3) (s : State) :
    Host.Outcome State Fault Refusal :=
  let rel := order == 2#2 || order == 3#2
  finish s 0#3 (do
    s.releaseAllowed rel scope.toNat
    s.awaitRelease rel scope.toNat
    .ok ((if rel then s.dropCheckpoint else s).newRegion s.cur).retire)

/-! Atomics (R300). -/

/-- The new value of an atomic's operation code, at its width (R300). -/
def atomicNew {n : Nat} (op : Nat) (old x c : BitVec n) : BitVec n :=
  match op with
  | 0 => old + x
  | 1 => old &&& x
  | 2 => old ||| x
  | 3 => old ^^^ x
  | 4 => aluMin old x
  | 5 => aluMax old x
  | 6 => x
  | _ => if old = c then x else old

/-- The same on words of `len` bytes. -/
def atomicWord (op len : Nat) (old x c : Word) : Word :=
  ((atomicNew op (old.setWidth (8 * len)) (x.setWidth (8 * len)) (c.setWidth (8 * len)) :
    BitVec (8 * len))).setWidth 64

/-- The operation writes: every one but a failing compare (R300). -/
def atomicWrites (op len : Nat) (old c : Word) : Bool :=
  decide (op ≠ 7) || old.setWidth (8 * len) == c.setWidth (8 * len)

/-- A read-modify-write of a checked target by a strand, writing where the function answers a value
(R301): a remote location's at its home, a vine location's accepted at the tail at once. A window's is
made in the host's memory; `aadd` and its like go by a request instead. -/
def State.rmwAt (s : State) (va : Word) (x : Target) (len : Nat)
    (f : Word → Except Stop (Option Word)) : Except Stop (Word × State) := do
  let s := match x with
    | .vine c _ _ => s.vineDrainAll c
    | _ => s
  let (l, s) ← s.bytesAt va x len true true
  let old := wordOfBytes l
  match ← f old with
  | none => .ok (old, s)
  | some v =>
    let bytes := bytesOf len v.toNat
    match x with
    | .remote pa _ => .ok (old, { s with peerMem := writeBytes s.peerMem pa bytes })
    | .vine c _ _ =>
      let s := s.writeTarget s.cur va x bytes none none
      .ok (old, s.vineDrainAll c)
    | x => .ok (old, s.writeTarget s.cur va x bytes none none)

/-- The same for a scalar instruction, which waits for the scoreboard. -/
def State.rmw (s : State) (va : Word) (x : Target) (len : Nat)
    (f : Word → Except Stop (Option Word)) : Except Stop (Word × State) := do
  s.boardReady s.cur x len true
  s.rmwAt va x len f

/-- The operation of an atomic, for `rmw`. -/
def atomicFn (op len : Nat) (operand expected old : Word) : Except Stop (Option Word) :=
  .ok (if atomicWrites op len old expected then some (atomicWord op len old operand expected)
       else none)

/-- The route of a host atomic allows it (R232). -/
def State.routeOpen (s : State) (w : Nat) : Bool := s.atomen && s.route.toList.getD w 0#8 != 2#8

/-- An atomic on vine memory is refused while a vine write of the strand is lost, after the last check of R298
(R300, R319, R341). -/
def State.vineWhole (s : State) (va : Word) (x : Target) (len : Nat) : Except Stop Unit :=
  match x with
  | .vine c _ _ => do
    demand (!(s.vineDrainAll c).poisonedAt none x len) cUncorrectable va
    demand (s.me.vineLost == 0#32) cChainBroken va
  | .spad _ _ _ | .hbm _ _ _ | .control _ | .window _ _ | .remote _ _ => .ok ()

/-- An atomic's access, as the checks see it (R300). -/
def amoAccess (w : BitVec 2) (scope : BitVec 3) : Access :=
  { way := .atomic, read := true, write := true, exec := false, width := if w = 3#2 then 8 else 4
    scope := some scope.toNat }

/-- An atomic: order 1 acquires, 2 releases, 3 does both. -/
def State.atomic (s : State) (op : Nat) (w order : BitVec 2) (scope : BitVec 3) (rd rb : SReg)
    (operand expected : Word) : Except Stop State := do
  let len := if w = 3#2 then 8 else 4
  let va := s.sreg rb
  let rel := order == 2#2 || order == 3#2
  s.releaseAllowed rel scope.toNat
  let tgt ← s.reach va (amoAccess w scope)
  match tgt with
  | .window w off => do
    demand (s.routeOpen w) cHostAtomic va
    s.awaitRelease rel scope.toNat
    .ok (s.sendRequest { strand := s.cur, tenant := s.me.owner.toNat, live := true, window := w, va := va
                         host := s.hostAddr w off, width := len, op := some op, operand := operand
                         expected := expected, rd := rd, signed := true, acquire := order != 0#2
                         npc := s.npc })
  | x => do
    s.vineWhole va x len
    s.awaitRelease rel scope.toNat
    let (old, s) ← s.rmw va x len (atomicFn op len operand expected)
    .ok ((s.dropCheckpoint.sync (order != 0#2)).result rd (sextLow (8 * len) old))

/-- An atomic whose peer is lost after the request has left the package may have been performed there: a free
choice (R301). One that still waits for its release has not left it. -/
def State.lostAtomic (s : State) (op : Nat) (w order : BitVec 2) (scope : BitVec 3) (rb : SReg)
    (operand expected : Word) : State :=
  let len := if w = 3#2 then 8 else 4
  let rel := order == 2#2 || order == 3#2
  if rel ∧ s.releaseWaits s.cur scope.toNat then s
  else match ({ s with failing := [] } : State).reach (s.sreg rb) (amoAccess w scope) with
  | .ok (.remote pa _) =>
    let old := wordOfBytes (readBytes s.peerMem pa len)
    if s.failing.contains (pkgOf pa) ∧ s.choose 10 2 = 1 ∧ atomicWrites op len old expected then
      { s with peerMem := writeBytes s.peerMem pa
                 (bytesOf len (atomicWord op len old operand expected).toNat) }
    else s
  | _ => s

/-- How an atomic's meaning ends: a missing page is reported for a read and a write. -/
def State.atomicOp (s : State) (op : Nat) (w order : BitVec 2) (scope : BitVec 3) (rd rb rc rx : SReg) :
    Host.Outcome State Fault Refusal :=
  let s := s.bindSpad
  let mask := maskOf true true false
  match s.atomic op w order scope rd rb (s.sreg rc) (s.sreg rx) with
  | .error (.trap c va) =>
    finish (if c = cPeerGone then s.lostAtomic op w order scope rb (s.sreg rc) (s.sreg rx) else s) mask
      (.error (.trap c va))
  | r => finish s mask r

/-- `aadd` (R300). -/
def execAadd (w order : BitVec 2) (scope : BitVec 3) (rd rb rc : SReg) (_hint : BitVec 2)
    (s : State) : Host.Outcome State Fault Refusal := s.atomicOp 0 w order scope rd rb rc 0#5

/-- `aand` (R300). -/
def execAand (w order : BitVec 2) (scope : BitVec 3) (rd rb rc : SReg) (_hint : BitVec 2)
    (s : State) : Host.Outcome State Fault Refusal := s.atomicOp 1 w order scope rd rb rc 0#5

/-- `aor` (R300). -/
def execAor (w order : BitVec 2) (scope : BitVec 3) (rd rb rc : SReg) (_hint : BitVec 2)
    (s : State) : Host.Outcome State Fault Refusal := s.atomicOp 2 w order scope rd rb rc 0#5

/-- `axor` (R300). -/
def execAxor (w order : BitVec 2) (scope : BitVec 3) (rd rb rc : SReg) (_hint : BitVec 2)
    (s : State) : Host.Outcome State Fault Refusal := s.atomicOp 3 w order scope rd rb rc 0#5

/-- `amin` (R300). -/
def execAmin (w order : BitVec 2) (scope : BitVec 3) (rd rb rc : SReg) (_hint : BitVec 2)
    (s : State) : Host.Outcome State Fault Refusal := s.atomicOp 4 w order scope rd rb rc 0#5

/-- `amax` (R300). -/
def execAmax (w order : BitVec 2) (scope : BitVec 3) (rd rb rc : SReg) (_hint : BitVec 2)
    (s : State) : Host.Outcome State Fault Refusal := s.atomicOp 5 w order scope rd rb rc 0#5

/-- `aswap` (R300). -/
def execAswap (w order : BitVec 2) (scope : BitVec 3) (rd rb rc : SReg) (_hint : BitVec 2)
    (s : State) : Host.Outcome State Fault Refusal := s.atomicOp 6 w order scope rd rb rc 0#5

/-- `acas` (R300). -/
def execAcas (w order : BitVec 2) (scope : BitVec 3) (rd rb rc rx : SReg) (_hint : BitVec 2)
    (s : State) : Host.Outcome State Fault Refusal := s.atomicOp 7 w order scope rd rb rc rx

end Sys2Proof.Machine
end

