-- ==== Sys2Proof/Machine/Strip.lean ====
section
/-! DEFINITION. Strips (R25 to R27, R340 to R342) and the special registers (R24, R320 to R322). -/

namespace Sys2Proof.Machine

/-! The checkpoint. -/

/-- Take the strip checkpoint, outside a handler (R27, R30, R215, R257). A setting instruction that a
rollback executes again keeps the count of rollbacks. `since` is the number of the next engine
operation. -/
def Strand.takeCheckpoint (x : Strand) (grant : Word) (since : Nat) : Strand :=
  if x.inHandler then x
  else
    { x with
      ckpt := { s := x.s, vl := x.vl, sew := x.sew, strip := x.strip, pc := x.pc.setWidth 57
                valid := true, grant := grant, since := since }
      rbStrip := if x.rolled then x.rbStrip else 0#4 }

/-- The most elements of a width in a strand's registers (R16). -/
def Strand.maxElems (x : Strand) (sew : BitVec 2) : Nat := x.mvl.toNat / sewBits sew

/-- What a grant sets: SEW, VL, STRIP outside a handler, VSTART (R25, R26, R215). -/
def Strand.grantVl (x : Strand) (sew : BitVec 2) (g : Nat) : Strand :=
  { x with
    sew := sew, vl := BitVec.ofNat 32 g, vstart := 0#32
    strip := if x.inHandler then x.strip else x.strip + 1#64 }

/-- `setvl` (R25, R340). -/
def execSetvl (sew : BitVec 2) (rd rb : SReg) (s : State) : Host.Outcome State Fault Refusal :=
  let g := min (s.sreg rb).toNat (s.me.maxElems sew)
  let s := s.updMe fun x => (x.takeCheckpoint 0#64 s.nextId).grantVl sew g
  .next (s.result rd (BitVec.ofNat 64 g))

/-! Flow words (R105). -/

def flowH (x : Word) : Nat := (x.extractLsb' 0 31).toNat
def flowC (x : Word) : Nat := (x.extractLsb' 32 31).toNat
def flowClosed (x : Word) : Bool := x.getLsbD 31

/-- The checkpoint grant word of a `setvlf` (R257). -/
def grantWord (pos g : Nat) : Word := BitVec.ofNat 64 (2 ^ 63 + pos * 2 ^ 32 + g)

/-- A grant is written: the checkpoint, the special registers, and both destinations (R341). -/
def State.granted (s : State) (sew : BitVec 2) (rd rp : SReg) (pos g : Nat) : State :=
  let s := s.updMe fun x => (x.takeCheckpoint (grantWord pos g) s.nextId).grantVl sew g
  ((s.setS rd (BitVec.ofNat 64 g)).setS rp (BitVec.ofNat 64 pos)).retire

/-- Where a flow word leads: ALIGNMENT first, then the checks of R298, global whatever SPACE holds
(R106, R341); a word in a host window as an atomic's (R232). -/
def State.flowAccess (s : State) (va : Word) (scope : BitVec 3) : Except Stop Target := do
  let x ← s.resolve s.me.owner.toNat s.me.core va
    { way := .atomic, read := true, write := true, exec := false, width := 8
      scope := some scope.toNat } false
  match x with
  | .window w _ => demand (s.routeOpen w) cHostAtomic va
  | x => s.vineWhole va x 8
  .ok x

/-- The host answers the access of a flow word in a window (R231, R232). -/
def State.flowAnswer (s : State) (va : Word) (x : Target) : Except Stop State :=
  match s.windowAtomic 0 va x with
  | .ok s => .ok s
  | .error (c, _) => .error c

/-- A flow instruction ends: a host that refuses its access closes the window's route (R232). -/
def finishFlow (s : State) (va : Word) (scope : BitVec 3) (r : Except Stop State) :
    Host.Outcome State Fault Refusal :=
  let mask := maskOf true true false
  match r, s.flowAccess va scope with
  | .error (.trap c a), .ok (.window w _) =>
    finish (if c = cHostAtomic then { s with route := s.route.setIfInBounds w 2#8 } else s) mask
      (.error (.trap c a))
  | r, _ => finish s mask r

/-- `setvlf` outside a rollback (R341, R342). -/
def State.setvlf (s : State) (sew : BitVec 2) (rd rb rc rp : SReg) (scope : BitVec 3) :
    Except Stop State := do
  let va := s.sreg rc
  demand (va.toNat % 8 == 0) cAlignment va
  demand (!s.meetsControl s.me.owner.toNat va) cControlAuthority va
  let tgt ← s.flowAccess va scope
  let limit := min (s.sreg rb).toNat (s.me.maxElems sew)
  let grant (x : Word) : Nat := min limit (flowH x - flowC x)
  let s ← s.flowAnswer va tgt
  let (x, s) ← s.rmw va tgt 8 fun x => do
    demand (!x.getLsbD 63 && decide (flowC x ≤ flowH x)) cIllegalState
    waitUnless (decide (flowC x < flowH x) || flowClosed x)
    .ok (if grant x = 0 then none
         else some (putSlice x 32 (BitVec.ofNat 31 (flowC x + grant x))))
  let acquires := decide (0 < grant x) || flowClosed x
  .ok ((s.sync acquires).granted sew rd rp (flowC x) (grant x))

/-- `setvlf`: the one a rollback executes again takes the recorded grant and leaves the flow word
alone (R257, R341). -/
def execSetvlf (sew : BitVec 2) (rd rb rc rp : SReg) (_hint : BitVec 2) (scope : BitVec 3)
    (s : State) : Host.Outcome State Fault Refusal :=
  let w := s.me.ckpt.grant
  if s.me.rolled ∧ w.getLsbD 63 then
    .next (s.granted sew rd rp (w.extractLsb' 32 31).toNat (w.extractLsb' 0 32).toNat)
  else finishFlow s (s.sreg rc) scope (s.setvlf sew rd rb rc rp scope)

/-! Special registers (R24). -/

/-- What `getsr` reads (R321). -/
def State.specialReg (s : State) (num : Nat) : Word :=
  let x := s.me
  match num with
  | 0 => x.vl.setWidth 64
  | 1 => x.mvl.setWidth 64
  | 2 => x.space.setWidth 64
  | 3 => x.vstart.setWidth 64
  | 4 => x.tags
  | 5 => x.frm.setWidth 64
  | 6 => x.fflags.setWidth 64
  | 7 => BitVec.ofNat 64 s.cur
  | 8 => BitVec.ofNat 64 (s.logicalCore x.core)
  | 9 => BitVec.ofNat 64 (dieOfCore x.core)
  | 10 => s.time
  | 11 => x.cycle
  | 12 => x.trapvec.setWidth 64
  | 13 => x.trapcause.setWidth 64
  | 14 => x.trappc.setWidth 64
  | 15 => x.trapaddr.setWidth 64
  | 16 => x.shape
  | 17 => x.strip
  | 18 => BitVec.ofNat 64 (s.ctxPage s.cur)
  | 19 => x.launch.setWidth 64
  | _ => x.sew.setWidth 64

/-- `getsr` (R321). -/
def execGetsr (rd : SReg) (num : BitVec 6) (s : State) : Host.Outcome State Fault Refusal :=
  .next (s.result rd (s.specialReg num.toNat))

/-- What `setsr` leaves of a strand; nothing for a read-only register or a value out of range
(R322). -/
def Strand.setSpecial (x : Strand) (num : Nat) (v : Word) : Option Strand :=
  let when (ok : Bool) (y : Strand) : Option Strand := if ok then some y else none
  match num with
  | 0 => when (decide (v.toNat ≤ x.maxElems x.sew)) { x with vl := v.setWidth 32 }
  | 2 => when (decide (v.toNat ≤ 2)) { x with space := v.setWidth 2 }
  | 3 => when (decide (v.toNat ≤ max x.vl.toNat (x.shape.extractLsb' 48 16).toNat))
      { x with vstart := v.setWidth 32 }
  | 5 => when (decide (v.toNat ≤ 4)) { x with frm := v.setWidth 3 }
  | 6 => when (decide (v.toNat < 32)) { x with fflags := v.setWidth 5 }
  | 11 => some { x with cycle := v }
  | 12 => when (v.extractLsb' 57 7 == 0#7 && !v.getLsbD 0) { x with trapvec := v.setWidth 57 }
  | 13 => when (decide (v.toNat < 256)) { x with trapcause := v.setWidth 8 }
  | 14 => when (v.extractLsb' 57 7 == 0#7) { x with trappc := v.setWidth 57 }
  | 15 => when (v.extractLsb' 57 7 == 0#7) { x with trapaddr := v.setWidth 57 }
  | 17 => some { x with strip := v }
  | 20 => when (decide (v.toNat ≤ 3) && decide (x.vl.toNat ≤ x.maxElems (v.setWidth 2)))
      { x with sew := v.setWidth 2 }
  | _ => none

/-- `setsr` (R322). -/
def execSetsr (num : BitVec 6) (rb : SReg) (s : State) : Host.Outcome State Fault Refusal :=
  finish s 0#3 (match s.me.setSpecial num.toNat (s.sreg rb) with
    | some x => .ok (s.updMe fun _ => x).retire
    | none => trap cIllegalState)

end Sys2Proof.Machine
end

