-- ==== Sys2Proof/Machine/Hierarchy.lean ====
section
/-! DEFINITION. The instructions of the work hierarchy (R86 to R90, R312), flows (R106, R319), barriers
(R221), handlers (R216, R217) and tag waits (R344 to R346). -/

namespace Sys2Proof.Machine

/-! `exit`. -/

/-- Matrix operations and loads of a strand have not completed (R86). -/
def State.matrixBusy (s : State) (n : Nat) : Bool :=
  s.cores.any fun e => e.2.engine.holder == some n && !e.2.engine.idle

/-- An engine operation of a strand has not completed (R86, R279). -/
def State.enginesBusy (s : State) (n : Nat) : Bool :=
  (s.ops.any fun e => e.2.strand == n) || s.matrixBusy n

/-- The lowest tag whose failed status no wait has returned (R86, R141). -/
def Strand.failedTag (x : Strand) : Option Nat :=
  (List.range 64).findSome? fun t =>
    let w := x.tstat.toList.getD t 0#9
    if w.extractLsb' 0 8 ≠ 0#8 ∧ w.getLsbD 8 = false then some (w.extractLsb' 0 8).toNat else none

/-- How `exit` ends a strand: nothing, or the cause of state 6 (R86, R161, R237, R252). -/
def Strand.exitCause (x : Strand) : Option Nat :=
  match x.failedTag with
  | some c => some c
  | none =>
    if x.mstopValid then some cUncorrectable
    else if x.rCount ≠ 0#16 ∧ !x.rReturned then some cPeerGone
    else if x.vineLost ≠ 0#32 then some cChainBroken
    else none

/-- `exit` (R86, R312): it waits for the strand's engine operations, vine writes and remote stores.
PC then holds the address of the next instruction (R65). -/
def execExit (s : State) : Host.Outcome State Fault Refusal :=
  if s.enginesBusy s.cur || s.releaseWaits s.cur 3 then .next s
  else
    let t := s.updMe fun x => { x with pc := s.npc }
    match s.me.exitCause with
    | none => .next (t.endStrand s.cur 5#4 0 true)
    | some c => .next (t.endStrand s.cur 6#4 c true)

/-! `bar` (R221). -/

/-- Barrier `b` has opened for the `k`-th time, among the strands of a launch. -/
def State.barrierOpen (s : State) (t launch : Nat) (b k : Nat) : Bool :=
  s.strands.all fun e =>
    !(e.2.owner.toNat == t && e.2.launch.toNat == launch && e.2.state != 0#4) || e.2.ended ||
    decide (k ≤ (e.2.arrivals.toList.getD b 0#32).toNat)

/-- The marker fires, which retires the `bar` (R258), or the strand waits on it. -/
def State.barFire (s : State) (b : BitVec 4) (k : BitVec 32) : State :=
  if s.barrierOpen s.me.owner.toNat s.me.launch.toNat b.toNat k.toNat then
    ((s.dropCheckpoint.updMe fun x => { x with barmark := none }).newRegion s.cur).retire
  else s

/-- `bar` (R221): the first execution arrives, a release at package scope. -/
def execBar (n : BitVec 4) (s : State) : Host.Outcome State Fault Refusal :=
  let arrive : Host.Outcome State Fault Refusal := finish s 0#3 (do
    s.awaitRelease true 2
    let k := s.me.arrivals.toList.getD n.toNat 0#32 + 1#32
    let s := s.newRegion s.cur
    let s := s.updMe fun x => { x with
      barmark := some (n, k), arrivals := x.arrivals.setIfInBounds n.toNat k }
    .ok (s.barFire n k))
  match s.me.barmark with
  | some (b, k) => if b = n then .next (s.barFire n k) else arrive
  | none => arrive

/-! `launch` (R87, R88, R92). -/

/-- A double of a descriptor. -/
def descWord (l : List Byte) (off : Nat) : Word := wordOfBytes ((l.drop off).take 8)

/-- A node's launch and graph fields (R87, R104). -/
def nodeOf (l : List Byte) : Node :=
  let w := descWord l 0x10
  let f := descWord l 0x28
  { entry := (descWord l 0).setWidth 57, args := (descWord l 8).setWidth 57
    count := (w.extractLsb' 0 16).toNat, mvl := (w.extractLsb' 16 3).toNat, kind := w.getLsbD 20
    prio := w.extractLsb' 24 2, dies := w.extractLsb' 32 4, pred := descWord l 0x18
    stream := descWord l 0x20
    flow := if f.getLsbD 63 then some (f.extractLsb' 0 57) else none }

/-- The cores of a launch's pool by its first four conditions (R92), in pool order. -/
def State.poolOf (s : State) (t : Nat) (nd : Node) : List Nat :=
  (List.range 4).flatMap fun d =>
    if nd.dies.getLsbD d then
      ((List.range 40).filter fun c =>
        decide (36 ≤ c) == nd.kind &&
        (if c < 36 then (s.die d).harvest.getLsbD c else (s.die d).stewards.getLsbD (c - 36)) &&
        ((s.tenant t).cores.toList.getD d 0#40).getLsbD c).map (coreKey d)
    else []

/-- The launch checks of a descriptor, its reserved bits included (R88). -/
def State.launchable (s : State) (t : Nat) (l : List Byte) : Bool :=
  let nd := nodeOf l
  within (descWord l 0) [(56, 0)] && within (descWord l 8) [(56, 0)] &&
  within (descWord l 0x10) [(15, 0), (18, 16), (20, 20), (25, 24), (35, 32)] &&
  !nd.entry.getLsbD 0 && decide (1 ≤ nd.count ∧ nd.count ≤ 16384 ∧ nd.mvl ≤ 6) &&
  !(s.poolOf t nd).isEmpty

/-- The record of a launch of a node in a graph (R81). -/
def launchRecord (nd : Node) (graph : Option (BitVec 32)) (index : Option Nat) : Record :=
  { Record.empty with
    target := BitVec.ofNat 32 nd.count, parent := graph, node := some nd, index := index }

/-- A launch that runs no strand: every strand counted failed, the record complete, the launch counted
once in its graph (R85, R88). -/
def State.failLaunch (s : State) (t : Nat) (id : BitVec 32) (cause : Nat) : State :=
  let s := s.updRecord t (recordKey id) fun r =>
    { r with failed := r.target, cause := BitVec.ofNat 8 cause }
  s.completeRecord t id

/-- The launch of a checked descriptor by the strand that issues. -/
def State.launchNode (s : State) (rd : SReg) (nd : Node) : Except Stop State := do
  let t := s.me.owner.toNat
  let g := s.graphOf t s.me.launch
  match s.allocRecord t 0 (launchRecord nd g none) with
  | none => .ok (s.dropCheckpoint.result rd 0#64)
  | some (id, s) => do
    let cancelled := s.cancelling t s.me.launch
    waitUnless (cancelled || decide (s.ready.length < readyMax))
    s.awaitRelease true 2
    let s := match g with
      | some p => s.updRecord t (recordKey p) fun r => { r with target := r.target + 1#32 }
      | none => s
    let s := if cancelled then s.failLaunch t id cCancelled
      else { s with
        nextId := s.nextId + 1
        ready := s.ready ++ [({ id := s.nextId, tenant := t, node := nd, graph := g.getD 0#32
                                index := none, launch := some id, cls := nd.prio
                                blocking := false } : ReadyEntry)] }
    .ok ((s.dropCheckpoint.newRegion s.cur).result rd (id.setWidth 64))

/-- `launch` (R88): the descriptor is global whatever SPACE holds. -/
def execLaunch (rd rb : SReg) (s : State) : Host.Outcome State Fault Refusal :=
  let va := s.sreg rb
  finish s (maskOf true false false) (do
    demand (va.toNat % 64 == 0) cAlignment va
    let x ← s.resolve s.me.owner.toNat s.me.core va
      { way := .scalar, read := true, write := false, exec := false, width := 64, scope := none } false
    let (l, s) ← s.readBytesAt va x 64 false false
    demand (s.windowAnswer 0 x 2 == 0) cPeerGone va
    let graphFree := [0x18, 0x20, 0x28, 0x30, 0x38].all fun o => descWord l o == 0#64
    demand (graphFree && s.launchable s.me.owner.toNat l) cIllegalState
    s.launchNode rd (nodeOf l))

/-! `cwait` and `cancel` (R89, R90). -/

/-- The identifier a register holds: bits above it zero, the index within its level's range. -/
def workIdOf (v : Word) : Option (BitVec 32) :=
  let id : BitVec 32 := v.setWidth 32
  if v.extractLsb' 32 32 = 0#32 ∧ workIndex id < levelSize (workLevel id) then some id else none

/-- The record contains the strand that issues (R89). -/
def State.holdsMe (s : State) (id : BitVec 32) : Bool :=
  (s.lineage s.me.owner.toNat 4 s.me.launch).contains id

/-- `cwait` (R89). -/
def execCwait (rd rb : SReg) (_scope : BitVec 3) (s : State) : Host.Outcome State Fault Refusal :=
  finish s 0#3 (match workIdOf (s.sreg rb) with
    | none => trap cIllegalState
    | some id =>
      let t := s.me.owner.toNat
      let r := s.record t (recordKey id)
      let done (v : Word) : Except Stop State := .ok ((s.newRegion s.cur).result rd v)
      if workGen id = 0 then done (BitVec.allOnes 64)
      else if s.holdsMe id then trap cIllegalState
      else if r.ident ≠ id ∨ r.state = 0#3 then done (BitVec.allOnes 64)
      else if r.state = 2#3 then done (r.failed.setWidth 64)
      else .error .wait)

/-- `cancel` (R90): it waits for the record, unless the strand is killed with the rest: then it retires as
a KILL of itself does (R68). -/
def execCancel (rb : SReg) (s : State) : Host.Outcome State Fault Refusal :=
  finish s 0#3 (match workIdOf (s.sreg rb) with
    | none => trap cIllegalState
    | some id =>
      let t := s.me.owner.toNat
      if workGen id = 0 then .ok s.dropCheckpoint.retire
      else
        let s := s.cancelRecord t id
        if s.me.ended then .ok (s.dropCheckpoint.updMe fun x => { x with pc := s.npc })
        else
          let s := s.dropCheckpoint
          match s.findRecord t id with
          | some r => .ok (if r.state = 3#3 then s.await (.cancel id) else s.retire)
          | none => .ok s.retire)

/-! `fpub` (R106, R319). -/

/-- The word after a publication: the greater H (R106). -/
def flowPublish (x : Word) (h : Nat) : Word := putSlice x 0 (BitVec.ofNat 31 (max (flowH x) h))

/-- `fpub`. DESIGN CHOICE (log 93): CHAIN_BROKEN of a release (R319) comes after the range of the index and before the
checks of R298. -/
def execFpub (rb rc : SReg) (scope : BitVec 3) (s : State) : Host.Outcome State Fault Refusal :=
  let va := s.sreg rb
  let h := (s.sreg rc).toNat
  finishFlow s va scope (do
    demand (va.toNat % 8 == 0) cAlignment va
    demand (decide (h < 2 ^ 31)) cIllegalState
    s.releaseAllowed true scope.toNat
    let x ← s.flowAccess va scope
    s.awaitRelease true scope.toNat
    let s ← s.flowAnswer va x
    let (_, s) ← s.rmw va x 8 fun f => do
      demand (!flowClosed f) cIllegalState
      .ok (some (flowPublish f h))
    .ok (s.dropCheckpoint.newRegion s.cur).retire)

/-! Handlers (R216, R217). -/

/-- `claim`. -/
def execClaim (s : State) : Host.Outcome State Fault Refusal :=
  finish s 0#3 (do
    demand s.me.inHandler cIllegalState
    if s.me.claimed then .ok s.retire
    else .ok (s.updMe fun x => { x with
      saved := x.vec, savedK14pc := x.k14pc
      claim0 := BitVec.ofNat 64 (x.vl.toNat * 2 ^ 32 + x.vstart.toNat), claim1 := x.sew
      claimed := true, vstart := 0#32 }).retire)

/-- `tret`: an odd TRAPPC raises ALIGNMENT in the handler, with the trap registers kept. -/
def execTret (s : State) : Host.Outcome State Fault Refusal :=
  finish s 0#3 (do
    demand s.me.inHandler cIllegalState
    demand (!s.me.trappc.getLsbD 0) cAlignment (s.me.trappc.setWidth 64)
    .ok (s.updMe Strand.leaveHandler))

/-! Tag waits (R345). -/

/-- The status of a tag, which a wait returns (R141). -/
def Strand.tagStatus (x : Strand) (t : Nat) : Nat :=
  ((x.tstat.toList.getD t 0#9).extractLsb' 0 8).toNat

/-- The returned bit is set. -/
def Strand.returnTag (x : Strand) (t : Nat) : Strand :=
  { x with tstat := x.tstat.setIfInBounds t (putBit (x.tstat.toList.getD t 0#9) 8 true) }

/-- `twait`. -/
def execTwait (rd : SReg) (tag : BitVec 6) (s : State) : Host.Outcome State Fault Refusal :=
  let t := tag.toNat
  finish s 0#3 (do
    waitUnless (!s.me.pending t)
    let v := BitVec.ofNat 64 (s.me.tagStatus t)
    .ok (((s.updMe fun x => x.returnTag t).newRegion s.cur).result rd v))

/-- The complete tags of a set, once there is one (R345). -/
def State.tagsIn (s : State) (m : Word) : Except Stop Word := do
  demand (m != 0#64) cIllegalState
  waitUnless (s.me.tags &&& m != 0#64)
  .ok (s.me.tags &&& m)

/-- `twany`: no returned bit is set. -/
def execTwany (rd rb : SReg) (s : State) : Host.Outcome State Fault Refusal :=
  finish s 0#3 (do
    let v ← s.tagsIn (s.sreg rb)
    .ok ((s.newRegion s.cur).result rd v))

/-- `tfirst`. -/
def execTfirst (rd rb : SReg) (s : State) : Host.Outcome State Fault Refusal :=
  finish s 0#3 (do
    let v ← s.tagsIn (s.sreg rb)
    let t := trailingZeros v 0 64
    let r := BitVec.ofNat 64 (t + 256 * s.me.tagStatus t)
    .ok (((s.updMe fun x => x.returnTag t).newRegion s.cur).result rd r))

end Sys2Proof.Machine
end

