-- ==== Sys2Proof/Machine/Maintain.lean ====
section
/-! DEFINITION. Maintenance of translations, instruction caches and cellars: `tsync` (R191), `icinv`
(R205), `cflush` and `cinv` (R309), `pref` (R336). -/

namespace Sys2Proof.Machine

/-- `tsync` (R191): a release at package scope, then the held entries are gone, and with them every access
translated through one. -/
def execTsync (rb rc : SReg) (s : State) : Host.Outcome State Fault Refusal :=
  let t := s.sreg rb
  let a := s.sreg rc
  finish s 0#3 (do
    demand (decide (t.toNat < 256) && a.extractLsb' 57 7 == 0#7 && a.extractLsb' 0 16 == 0#16)
      cIllegalState
    demand (t.toNat == s.me.owner.toNat || s.me.owner == 0#8) cPermission
    s.awaitRelease true 2
    let page := if a = 0#64 then none else some (a.toNat / 65536)
    waitUnless (!s.inFlightFor t.toNat page)
    .ok ((s.newRegion s.cur).tsync t.toNat page).retire)

/-- The range of a maintenance instruction lies below 2^57 (R205, R309, R336). -/
def rangeOk (a len : Word) : Bool :=
  a.extractLsb' 57 7 == 0#7 && decide (a.toNat + len.toNat ≤ 2 ^ 57)

/-- The cores whose instruction caches `icinv` covers. -/
def icinvCovers (own scope c : Nat) : Bool :=
  match scope with
  | 0 => c == own
  | 1 => dieOfCore c == dieOfCore own
  | _ => true

/-- Discard the lines of a tenant that hold a byte of a range, in the covered caches (R205). -/
def State.dropLines (s : State) (t own scope a len : Nat) : State :=
  { s with cores := mapTable s.cores fun c x =>
      let kept (l : CacheLine) : Bool :=
        !(l.tenant == t && decide (l.line * 64 < a + len ∧ a < l.line * 64 + 64))
      if icinvCovers own scope c then
        { x with icache := x.icache.filter kept, reserved := x.reserved.filter kept }
      else x }

/-- `icinv` (R205): a release at its scope; a length of 0 discards nothing. -/
def execIcinv (rb rc : SReg) (scope : BitVec 3) (s : State) : Host.Outcome State Fault Refusal :=
  let a := s.sreg rb
  let len := s.sreg rc
  finish s 0#3 (do
    demand (rangeOk a len) cIllegalState
    s.awaitRelease true scope.toNat
    let s := s.newRegion s.cur
    .ok (if len = 0#64 then s
         else s.dropLines s.me.owner.toNat s.me.core scope.toNat a.toNat len.toNat).retire)

/-! Walking a range page by page. -/

/-- The 64 KiB pages that touch a range, ascending. -/
def pagesOf (a len : Nat) : List Nat :=
  if len = 0 then []
  else (List.range ((a + len - 1) / 65536 - a / 65536 + 1)).map (a / 65536 + ·)

/-- A page of a maintenance instruction, as a load meets it or a fetch: its leaf and target; nothing when it is
skipped; CONTROL_AUTHORITY when its leaf reaches the control region (R309, R336). A chain that relinks only makes a load wait. -/
def State.maintPage (s : State) (exec : Bool) (p : Nat) : Except Stop (Option (Word × Target)) :=
  let va := BitVec.ofNat 64 (65536 * p)
  let t := s.me.owner.toNat
  let a : Access :=
    { way := if exec then .fetch else .cache, read := !exec, write := false, exec := exec, width := 1, scope := none }
  match s.leafAt t p with
  | none => .ok none
  | some e =>
    if leafControl e then .error (.trap cControlAuthority va)
    else match s.translate t va a with
      | .error _ => .ok none
      | .ok x => match s.homeRefuses t a va x with
        | .ok _ | .error .wait => .ok (some (e, x))
        | .error _ => .ok none

/-- The blocks of a range that lie on a page, as offsets from the page's start. -/
def blocksOn (a len p : Nat) : List Nat :=
  ((List.range 1024).map (64 * ·)).filter fun o =>
    decide (65536 * p + o < a + len ∧ a < 65536 * p + o + 64)

/-- Lines leave the cellars of dies; a poisoned line that only a cellar held is gone with it (R257). -/
def State.discardLines (s : State) (dies blocks : List Nat) : State :=
  let s := dies.foldl (fun s d => s.dropCellar d blocks) s
  { s with poison := s.poison.filter fun e =>
      !(e.2 && blocks.contains e.1 && dies.contains (homeDie (64 * e.1))) }

/-- An earlier write of the issuing strand to lines of a chain has not left the cellars of its links (R309);
every other write passes through at once. -/
def State.writesTo (s : State) (x : Target) (offs : List Nat) : Bool :=
  match x with
  | .vine c off _ => (s.chain c).inflight.any fun w => w.strand == some s.cur && w.op.isNone &&
      offs.any fun o => decide (w.offset < off + o + 64 ∧ off + o < w.offset + w.bytes.length)
  | .spad _ _ _ | .hbm _ _ _ | .control _ | .window _ _ | .remote _ _ => false

/-- `cflush` or `cinv` on one page (R309): a `cflush` waits for the strand's earlier writes to the lines. -/
def State.cellarPage (s : State) (flush : Bool) (dies : List Nat) (a len p : Nat) : Except Stop State := do
  match ← s.maintPage false p with
  | none => .ok s
  | some (_, x) => do
    let offs := blocksOn a len p
    waitUnless (!(flush && s.writesTo x offs))
    .ok (s.discardLines dies (s.cellarBlocks x offs))

/-- The pages of a range one after the other; those before the one that stops the instruction have been
done. -/
def State.pagesDone (act : State → Nat → Except Stop State) : State → List Nat → State × Except Stop Unit
  | s, [] => (s, .ok ())
  | s, p :: l => match act s p with
    | .ok s => State.pagesDone act s l
    | .error e => (s, .error e)

/-- A maintenance instruction over a range ends: what it did to the pages before a stop stays done. -/
def finishPages (r : State × Except Stop Unit) : Host.Outcome State Fault Refusal :=
  match r with
  | (s, .ok _) => .next s.retire
  | (s, .error e) => finish s 0#3 (.error e)

/-- `cflush` and `cinv` (R309): the cellars are write-through, so both discard and nothing else. -/
def State.cellarOp (s : State) (flush : Bool) (a len : Word) (scope : BitVec 3) :
    Host.Outcome State Fault Refusal :=
  let dies := if scope.toNat < 2 then [dieOfCore s.me.core] else [0, 1, 2, 3]
  if rangeOk a len then
    finishPages (State.pagesDone (fun s p => s.cellarPage flush dies a.toNat len.toNat p) s
      (pagesOf a.toNat len.toNat))
  else finish s 0#3 (trap cIllegalState)

/-- `cflush`. -/
def execCflush (rb rc : SReg) (scope : BitVec 3) (s : State) : Host.Outcome State Fault Refusal :=
  s.cellarOp true (s.sreg rb) (s.sreg rc) scope

/-- `cinv`. -/
def execCinv (rb rc : SReg) (scope : BitVec 3) (s : State) : Host.Outcome State Fault Refusal :=
  s.cellarOp false (s.sreg rb) (s.sreg rc) scope

/-- The lines of a page that `pref` requests into the cellar of its die (R134, R193, R248, R336). -/
def State.prefCellar (s : State) (a len p : Nat) : Except Stop State := do
  match ← s.maintPage false p with
  | some (e, x) =>
    let d := dieOfCore s.me.core
    if e.getLsbD 5 ∨ !s.cellarMayHold d e x then .ok s
    else .ok (s.fillCellar d (s.cellarLines d x (blocksOn a len p)))
  | none => .ok s

/-- Those that it requests into the instruction cache of its core; one that a fetch would find poisoned does not
arrive. -/
def State.prefCode (s : State) (a len p : Nat) : Except Stop State := do
  match ← s.maintPage true p with
  | some (e, x) =>
    if e.getLsbD 5 ∨ !s.cellarMayHold (dieOfCore s.me.core) e x then .ok s
    else
      let s := s.settleTarget s.cur x
      .ok ((blocksOn a len p).foldl (fun s o =>
        let y := x.offset o
        if s.poisoned y 64 then s
        else s.cacheLine s.me.core s.me.owner.toNat ((65536 * p + o) / 64)
          (BitVec.ofNat 512 (natOfBytes (s.readTarget y 64)))) s)
  | none => .ok s

/-- `pref` (R335, R336): at most the first 4 MiB. -/
def execPref (rb rc : SReg) (target : BitVec 3) (s : State) : Host.Outcome State Fault Refusal :=
  let a := s.sreg rb
  let len := s.sreg rc
  let n := min len.toNat 0x400000
  if rangeOk a len then
    finishPages (State.pagesDone (fun s p =>
      if target = 0#3 then s.prefCode a.toNat n p else s.prefCellar a.toNat n p) s (pagesOf a.toNat n))
  else finish s 0#3 (trap cIllegalState)

end Sys2Proof.Machine
end

