-- ==== Sys2Proof/Machine/ChainSeal.lean ====
section
/-! DEFINITION. Vine chain instructions (R250, R251, R253) and output seals (R277 to R281, R338). -/

namespace Sys2Proof.Machine

/-- The address a control-store instruction names leads to a control page of some package (R57, R250,
R277), translated as for a load or a store. -/
def State.controlTarget (s : State) (va : Word) (write : Bool) : Except Stop Target := do
  let x ← s.resolve s.me.owner.toNat s.me.core va
    { way := .seal, read := !write, write := write, exec := false, width := 8, scope := none } false
  demand x.isControl cControlAuthority va
  .ok x

/-- The page of a local or remote control target, by its local address. -/
def Target.page (x : Target) : Option Page :=
  match x with
  | .control pa => pageOf pa
  | .remote pa _ => pageOf (localOf pa)
  | _ => none

/-! Chains. -/

/-- `chlink`: a control store to LINKOP of the table at sB (R249, R250); an append completes when its
replica has joined. -/
def State.chlink (s : State) (op : Nat) (rd rb rc : SReg) (base : BitVec 40) : Except Stop State := do
  let va := s.sreg rb
  let d := s.sreg rc
  demand (va.toNat % 65536 == 0 && d.extractLsb' 3 61 == 0#61) cIllegalState
  let tgt ← s.controlTarget va false
  demand (tgt.page.any fun p => p matches .chain _ 0) cControlAuthority va
  let tgt ← s.controlTarget va true
  let word := fields [(62, op), (56, d.toNat), (16, base.toNat)]
  match tgt.page, tgt with
  | some (.chain c 0), .control pa => do
    s.releaseAllowed true 2
    waitUnless (!s.pageHeld (some s.cur) (pa + 0x30) word)
    s.awaitRelease true 2
    match s.linkOp c word with
    | .error e => .error (.trap e va)
    | .ok s => .ok ((s.setS rd 0#64).afterControl (pa + 0x30))
  | some (.chain _ 0), .remote pa gen => do
    let s ← s.peerStore va (pa + 0x30) gen word
    .ok (s.setS rd 0#64)
  | _, _ => .error (.trap cControlAuthority va)

/-- `chlink.rm`. -/
def execChlinkRm (rd rb rc : SReg) (_hint : BitVec 2) (s : State) :
    Host.Outcome State Fault Refusal :=
  finish s (maskOf true false false) (s.chlink 1 rd rb rc 0#40)

/-- `chlink.add`. -/
def execChlinkAdd (rd rb rc rp : SReg) (_hint : BitVec 2) (s : State) :
    Host.Outcome State Fault Refusal :=
  finish s (maskOf true false false) (s.chlink 2 rd rb rc ((s.sreg rp).extractLsb' 16 40))

/-- What `chquery` reports of a chain (R251). -/
def Chain.report (x : Chain) : Word :=
  fields [(0, x.state.toNat), (4, x.count.toNat), (8, x.links.toNat), (32, x.gen.toNat)]

/-- `chquery`: translated as for `ld`, and nothing is read (R251). -/
def execChquery (rd rb : SReg) (s : State) : Host.Outcome State Fault Refusal :=
  finish s (maskOf true false false) (do
    match ← s.translate s.me.owner.toNat (s.sreg rb)
        { way := .scalar, read := true, write := false, exec := false, width := 8, scope := none } with
    | .vine c _ _ => .ok (s.result rd (s.chain c).report)
    | _ => trap cIllegalState)

/-- `chsync`: once no vine write of the strand is in flight, its losses are read and cleared (R253). -/
def execChsync (rd : SReg) (s : State) : Host.Outcome State Fault Refusal :=
  finish s 0#3 (do
    waitUnless (!(s.chains.any fun e => e.2.inflight.any fun w => w.strand == some s.cur))
    let v := s.me.vineLost.setWidth 64
    .ok ((s.updMe fun x => { x with vineLost := 0#32, vineChain := 0#8, vaddr := 0#57 }
      ).dropCheckpoint.result rd v))

/-! Seals. -/

/-- Where a `seal` form finds its record (R277): here, by number, or in another package. -/
inductive SealAt where
  | here (m : Nat)
  | there (pa : Nat) (gen : BitVec 32)
  deriving DecidableEq, Repr

/-- A `seal` form locates its record (R277), and is a release as the control store it acts as (R60, R61,
R252). What another package refuses it with is met here (R61). -/
def State.sealRecordAt (s : State) (va : Word) : Except Stop SealAt := do
  demand (va.toNat % 256 == 0) cAlignment va
  let tgt ← s.controlTarget va true
  match tgt.page, tgt with
  | some (.seal m 0), .control _ => do
    s.releaseAllowed true 2
    s.awaitRelease true 2
    .ok (.here m)
  | some (.seal _ 0), .remote pa gen => do
    s.releaseAllowed true 3
    s.awaitRelease true 3
    .ok (.there pa gen)
  | _, _ => .error (.trap cControlAuthority va)

/-- A form has acted as a control store (R60, R258). -/
def State.sealDone (s : State) : State := s.dropCheckpoint.newRegion s.cur

/-- A form on a record of another package whose request fails is dropped and recorded, as a store is
(R236, R237). -/
def State.sealDropped (s : State) (va : Word) (pa : Nat) (gen : BitVec 32) : State :=
  if s.peerFails pa gen then s.remoteLost s.cur va else s

/-- WHO of a record that a strand opens (R276, R278). -/
def State.sealWho (s : State) (k : Nat) : BitVec 60 :=
  BitVec.ofNat 60 (s.package.toNat * 2 ^ 48 + k * 2 ^ 32 + (s.tenant s.me.owner.toNat).world.toNat * 2 ^ 24
    + s.me.owner.toNat * 2 ^ 16 + s.cur)

/-- `seal.open` (R278). -/
def execSealOpen (rd rb rc : SReg) (_hint : BitVec 2) (s : State) :
    Host.Outcome State Fault Refusal :=
  let k := (s.sreg rc).toNat
  finish s (maskOf false true false) (do
    match ← s.sealRecordAt (s.sreg rb) with
    | .there pa gen => do
      demand (decide (k ≤ 63)) cIllegalState
      .ok ((s.sealDropped (s.sreg rb) pa gen).sealDone.result rd (s.peerWord pa))
    | .here m => do
      demand (decide (k ≤ 63)) cIllegalState
      demand (decide (k = 0) || s.caskUsable s.me.owner.toNat k) cCaskKey
      demand ((s.seal m).state != 1#3 && (s.seal m).state != 2#3) cIllegalState
      let serial := s.sealSerial + 1#32
      let r := { SealRecord.empty with
        serial := serial, state := 1#3, who := s.sealWho k, keyId := s.keyName k }
      let s := { s with sealSerial := serial }.updSeal m fun _ => r
      .ok (s.sealDone.result rd r.stateWord))

/-- The strand has this record open. -/
def State.sealMine (s : State) (m : Nat) : Bool :=
  (s.seal m).state == 1#3 && (s.seal m).strand == s.cur

/-- An absorb enters the seal engine (R279). -/
def State.absorbOp (s : State) (m : Nat) (src : Word) (len tag : Nat) : State :=
  let (id, s) := s.fresh
  let op : EngineOp :=
    { kind := .absorb m src len, strand := s.cur, tenant := s.me.owner.toNat, core := s.me.core
      scope := 2#3, rtag := BitVec.ofNat 6 tag, atag := BitVec.ofNat 6 tag, released := false
      buffer := [], btags := [], written := false, status := 0#8
      failAt := 0, awaiting := [], answered := [], denied := []
      region := s.me.region, sbOp := id, ended := 0#8 }
  { s with ops := insertAt s.ops id op }

/-- `seal.absorb` (R279). -/
def execSealAbsorb (rb rc rl : SReg) (tag : BitVec 6) (_hint : BitVec 2) (s : State) :
    Host.Outcome State Fault Refusal :=
  let len := (s.sreg rl).toNat
  let t := tag.toNat
  finish s (maskOf false true false) (do
    match ← s.sealRecordAt (s.sreg rb) with
    | .there pa gen => do
      demand (decide (len ≤ 2 ^ 32)) cIllegalState
      demand (!s.me.pending t) cTagMisuse
      let s := (s.sealDropped (s.sreg rb) pa gen).takeTag s.cur t
      let s := if len = 0 ∨ s.peerFails pa gen then s.updMe fun x => x.completeTag t 0
        else s.absorbOp (sealsHere + pa) (s.sreg rc) len t
      .ok s.sealDone.retire
    | .here m => do
      demand (s.sealMine m) cIllegalState
      demand (decide (len ≤ 2 ^ 32 ∧ (s.seal m).claimed + len ≤ 2 ^ 48)) cIllegalState
      demand (!s.me.pending t) cTagMisuse
      let s := s.takeTag s.cur t
      let s := if len = 0 then s.updMe fun x => x.completeTag t 0
        else (s.absorbOp m (s.sreg rc) len t).updSeal m fun r => { r with claimed := r.claimed + len }
      .ok s.sealDone.retire)

/-- The closing strand finishes, once the record's absorbs are complete (R280). -/
def State.sealClosed (s : State) (m : Nat) (rd : SReg) (npc : Word) : State :=
  let s := (s.sealFinish m).newRegion s.cur
  (s.dropCheckpoint.setS rd (s.seal m).stateWord).updMe fun x => x.retire npc

/-- A closing strand whose record lies in another package goes on with the STATE word met there (R61). -/
def State.peerSealClosed (s : State) (pa : Nat) (rd : SReg) (npc : Word) : State :=
  ((s.newRegion s.cur).dropCheckpoint.setS rd (s.peerWord pa)).updMe fun x => x.retire npc

/-- `seal.close` (R280, R338): the record enters state 2 once; the strand then waits. -/
def execSealClose (rd rb : SReg) (_hint : BitVec 2) (s : State) :
    Host.Outcome State Fault Refusal :=
  finish s (maskOf false true false) (do
    match ← s.sealRecordAt (s.sreg rb) with
    | .there pa gen =>
      if s.peerFails pa gen then
        .ok ((s.remoteLost s.cur (s.sreg rb)).sealDone.result rd (s.peerWord pa))
      else
        .ok ({ s with peerActs := pa :: s.peerActs }.updMe fun x =>
          { x with wait := .peerSeal pa (s.sreg rb) rd s.npc })
    | .here m => do
      demand (s.sealMine m) cIllegalState
      let s := s.updSeal m fun r => { r with state := 2#3 }
      .ok (if s.absorbing m then s.updMe fun x => { x with wait := .sealClose m rd s.npc }
           else s.sealClosed m rd s.npc))

end Sys2Proof.Machine
end

