-- ==== Sys2Proof/Machine/VecMem.lean ====
section
/-! DEFINITION. Vector loads, stores and atomics (R349 to R351, R363 to R366): the classification of
R196, the elements performed, the batch of faults of R23 and R197, and fault-only-first loads (R192). -/

namespace Sys2Proof.Machine

/-! Classification. -/

/-- A part of an element: the bytes one access touches. An aligned element is one part, a misaligned one
a part for each byte (R169). -/
structure Part where
  va  : Word
  len : Nat
  tgt : Target
  deriving DecidableEq, Repr

/-- What classification says of an element (R196). -/
inductive Fate where
  | go (parts : List Part)
  | miss (va : Word) (level : Nat)
  | bad (stop : Stop)
  /-- An element of `vamo` that misses its scope (R171). -/
  | skip
  /-- The access cannot be decided yet. -/
  | wait
  deriving DecidableEq, Repr

/-- The parts of an element, each checked, in ascending order. -/
def State.partsOf (s : State) (a : Access) (aligned : Bool) : List (Word × Nat) →
    Except Stop (List Part)
  | [] => .ok []
  | (va, len) :: r => do
    let x ← s.resolveIn s.me.owner.toNat s.me.core s.me.space va { a with width := len } aligned
    let ps ← s.partsOf a aligned r
    .ok ({ va := va, len := len, tgt := x } :: ps)

/-- The bytes of an element as parts (R169). -/
def splitElem (va : Word) (n : Nat) (whole : Bool) : List (Word × Nat) :=
  if whole ∨ va.toNat % n = 0 then [(va, n)]
  else (List.range n).map fun i => (va + BitVec.ofNat 64 i, 1)

/-- Classify an element of `n` bytes at an address, which is the one that a cause of it names (R196).
`whole` marks `vamo`, whose elements must be aligned (R350). -/
def State.fate (s : State) (a : Access) (va : Word) (n : Nat) (whole : Bool) : Fate :=
  match s.partsOf a whole (splitElem va n whole) with
  | .ok ps => .go ps
  | .error .wait => .wait
  | .error (.miss v l) => .miss v l
  | .error (.trap c _) => if whole ∧ c = cScopeMiss then .skip else .bad (.trap c va)
  | .error e => .bad e

/-- The active elements of an execution: a reissue made by replay verdicts keeps to k14 (R23). -/
def Strand.memElems (x : Strand) (k : KReg) : List Nat :=
  let es := x.activeElems k
  if x.reissue ∧ x.k14pc = some x.pc then es.filter fun e => (x.kreg 14).getLsbD e else es

/-- An error from outside counts as the cause of its element (R255, R257). -/
def withError (err : Option Nat) (l : List (Nat × Fate)) : List (Nat × Fate) :=
  match err with
  | none => l
  | some e => l.map fun p => if p.1 = e then (e, .bad (.trap cUncorrectable 0#64)) else p

/-- The blocks of the core's scratchpad that the elements touch (R143). -/
def fateBlocks (l : List (Nat × Fate)) : List Nat :=
  (l.flatMap fun p => match p.2 with
    | .go ps => ps.flatMap fun q => match q.tgt with
      | .spad c lane a => spadBlocks c lane a q.len
      | _ => []
    | _ => []).eraseDups

/-- The instruction can be performed: no element waits, and the scoreboard has an entry for it and holds
none that conflicts (R143, R144, R146). -/
def State.sweepReady (s : State) (write : Bool) (l : List (Nat × Fate)) (indexed : Bool := false) :
    Except Stop Unit := do
  let c := s.me.core
  waitUnless (!(l.any fun p => p.2 == .wait))
  match entryOf s.cur 0 write (fateBlocks l) indexed with
  | none => .ok ()
  | some e => do
    s.boardEntry c s.cur
    if s.entryBlocked c e then .error .conflict else .ok ()

/-- A mismatch or a poisoned register that stops the instruction is counted (R255): not one above an element
that has missed, which the reissue meets (R196). -/
def State.noteError (s : State) (err : Option Nat) (missed : List (Nat × Word × Nat))
    (stop : Option (Nat × Stop)) (srcs : List VReg) : State :=
  if err.isSome ∧ missed.isEmpty ∧ err = stop.map (·.1) then s.updMe fun x => x.countMismatch srcs else s

/-! Performing. -/

/-- The outcome of the elements: the state, the values read, the elements that missed with their
addresses and levels, and the lowest element with a cause. -/
structure Sweep where
  state  : State
  got    : List (Nat × Nat)
  missed : List (Nat × Word × Nat)
  stop   : Option (Nat × Stop)

/-- A cause met at a part of an element names the element's address (R183, R184, R196). -/
def Stop.atElem (ps : List Part) : Stop → Stop
  | .trap c v => .trap c ((ps.head?.map (·.va)).getD v)
  | e => e

/-- Perform the elements in ascending order, up to the lowest one with a cause (R196, R168). Races and
poison show as an element is reached (R183, R257). -/
def sweep (act : State → Nat → List Part → Except Stop (Nat × State)) :
    List (Nat × Fate) → State → Sweep
  | [], s => { state := s, got := [], missed := [], stop := none }
  | (e, f) :: r, s =>
    match f with
    | .go ps =>
      match act s e ps with
      | .ok (v, s) =>
        let w := sweep act r s
        { w with got := (e, v) :: w.got }
      | .error c => { state := s, got := [], missed := [], stop := some (e, c.atElem ps) }
    | .miss va l =>
      let w := sweep act r s
      { w with missed := (e, va, l) :: w.missed }
    | .bad c => { state := s, got := [], missed := [], stop := some (e, c) }
    | .skip => sweep act r (s.updMe fun x => x.setKBits 13 [e])
    | .wait => sweep act r s

/-- Read the parts of a load's element. -/
def loadParts (e : Nat) : List Part → State → Except Stop (List Byte × State)
  | [], s => .ok ([], s)
  | p :: r, s => do
    let (l, s) ← s.bytesAt p.va p.tgt p.len false false
    demand (s.windowAnswer e p.tgt 2 == 0) cPeerGone p.va
    let (m, s) ← loadParts e r s
    .ok (l ++ m, s)

/-- A load's element: its value. -/
def loadElem (s : State) (e : Nat) (ps : List Part) : Except Stop (Nat × State) := do
  let (l, s) ← loadParts e ps s
  .ok (natOfBytes l, s)

/-- Where a part lies: its block and its place in it, whatever the address that reached it. -/
def Target.spot (x : Target) : Nat × Nat :=
  let at' (kind a : Nat) : Nat × Nat := (kind + 8 * (a / 64), a % 64)
  match x with
  | .spad c lane a => at' 0 (spadOffset c lane a)
  | .hbm pa _ _ => at' 1 pa
  | .control pa => at' 2 pa
  | .window w off => at' 3 (w * 2 ^ 38 + off)
  | .remote pa _ => at' 4 pa
  | .vine c off _ => at' 5 (c * 2 ^ 48 + off)

/-- The lowest place written in each block by the elements performed. -/
def lowSpots (l : List (Nat × Fate)) : List (Nat × Nat) :=
  let spots := l.flatMap fun p => match p.2 with
    | .go ps => ps.map fun q => q.tgt.spot
    | _ => []
  ((spots.map (·.1)).eraseDups).map fun b =>
    (b, (spots.filter fun p => p.1 == b).foldl (fun m p => min m p.2) 64)

/-- Write the parts of a store's element. A part that supplies the lowest byte of its block carries the
tag of the element's segment (R131, R365). -/
def storeParts (low : List (Nat × Nat)) (tag : Tag) : List Part → List Byte → State → Except Stop State
  | [], _, s => .ok s
  | p :: r, bytes, s => do
    let s ← s.raceTarget s.cur s.me.region p.va p.tgt p.len true false
    let t := if low.contains p.tgt.spot then some tag else none
    let s := s.writeTarget s.cur p.va p.tgt (bytes.take p.len) t none
    storeParts low tag r (bytes.drop p.len) s

/-! The end of a vector memory instruction. -/

/-- The pages of the missed elements, ascending by the lowest element, with their counts (R197, R199). -/
def missPages (mask : BitVec 3) (l : List (Nat × Word × Nat)) : List PageMiss :=
  ((l.map fun m => m.2.1.toNat / 65536).eraseDups).filterMap fun p =>
    match l.find? fun m => m.2.1.toNat / 65536 == p with
    | some m => some { va := m.2.1, level := m.2.2, mask := mask
                       count := (l.filter fun q => q.2.1.toNat / 65536 == p).length }
    | none => none

/-- It completes: k14 is cleared when the instruction at this address wrote it (R19, R23). -/
def Strand.memDone (x : Strand) (vd : Option VReg) : Strand :=
  let x := if x.k14pc = some x.pc then { x.setK 14 0#2048 with k14pc := none } else x
  x.vectorDone vd

/-- Its elements on pages that are not resident have faulted (R23, R196): k14, VSTART, the progress
index, and the reissue to come. -/
def Strand.memFault (x : Strand) (vd : Option VReg) (faulted : List Nat) (low : Nat) : Strand :=
  { (x.vectorStop vd low).setK 14 (setBits 0#2048 faulted) with k14pc := some x.pc, reissue := true }

/-- The three cases of R196, after the elements have been performed. -/
def State.memEnd (s : State) (vd : Option VReg) (mask : BitVec 3) (es : List Nat)
    (missed : List (Nat × Word × Nat)) (stop : Option (Nat × Stop)) (onDone : State → State) : State :=
  match missed, stop with
  | [], none => (onDone (s.updMe fun x => x.memDone vd)).retire
  | [], some (e, c) => (s.updMe fun x => x.vectorStop vd e).stopped mask c
  | (m, va, l) :: r, stop =>
    let above := match stop with
      | some (e, _) => es.filter fun i => decide (e ≤ i)
      | none => []
    let all := (m, va, l) :: r
    let s := s.updMe fun x => x.memFault vd (all.map (·.1) ++ above) m
    s.reportPages s.cur (missPages mask all)

/-- Values written to elements of a register, with a tag for each segment (R20, R365). -/
def State.putLoaded (s : State) (vd : VReg) (w : Nat) (got : List (Nat × Nat))
    (tagOf : Nat → Tag) : State :=
  let v := got.foldl (fun v p => putElement v p.1 (BitVec.ofNat w p.2)) (s.me.vreg vd)
  let segs := segsOf w (got.map (·.1))
  s.updMe fun x => if got.isEmpty then x
    else segs.foldl (fun x g => x.setSegTag vd g (tagOf g)) (x.setV vd v)

/-- The tag a contiguous load gives a segment: that of the block of the lowest byte read into it
(R365). -/
def State.loadTag (s : State) (w : Nat) (l : List (Nat × Fate)) (got : List (Nat × Nat)) (seg : Nat) :
    Tag :=
  match got.find? fun p => w * p.1 / 512 == seg with
  | none => 0#16
  | some (e, _) => match l.find? fun p => p.1 == e with
    | some (_, .go (p :: _)) => s.tagTarget p.tgt
    | _ => 0#16

/-! Addresses. -/

/-- An index operand at its width, replicated by P (R364, R29). -/
def indexAt (v : BitVec 16384) (p : BitVec 2) (iw e : Nat) : Word :=
  (repElement v p iw e : BitVec iw).setWidth 64

def unitAddr (base : Word) (n e : Nat) : Word := base + BitVec.ofNat 64 (e * n)
def strideAddr (base stride : Word) (e : Nat) : Word := base + BitVec.ofNat 64 e * stride

/-- The index width of a code. -/
def indexBits (iw : BitVec 2) : Nat := 8 * 2 ^ iw.toNat

/-- The indices of VL elements fit in a register (R364). -/
def State.indexFits (s : State) (iw : BitVec 2) : Except Stop Unit :=
  demand (decide (s.me.vl.toNat * indexBits iw ≤ s.me.mvl.toNat)) cIllegalState

/-- A vector access, as the checks see it (R364). -/
def vectorAccess (write : Bool) : Access :=
  { way := .vector, read := !write, write := write, exec := false, width := 1, scope := none }

/-! Loads and stores (R364). -/

/-- The lines a vector load reads enter the cellar, unless its H field says that it reads them once
(R134). -/
def State.allocateElems (s : State) (hint : BitVec 2) (l : List (Nat × Fate)) : State :=
  if hint = 1#2 then s
  else l.foldl (fun s p => match p.2 with
    | .go ps => ps.foldl (fun s q => s.allocate q.va q.tgt q.len) s
    | _ => s) s

/-- A load of the active elements at the addresses a function gives. -/
def State.vectorLoad (s : State) (vd : VReg) (k : KReg) (srcs : List VReg) (unit indexed : Bool)
    (hint : BitVec 2) (addr : Nat → Word) : Except Stop State := do
  let x := s.me
  let w := x.width
  let es := x.memElems k
  let err := x.errorAt srcs es
  let l := withError err
    (es.map fun e => (e, s.fate (vectorAccess false) (addr e) (w / 8) false))
  s.sweepReady false l indexed
  let r := sweep loadElem l s
  let s := r.state.allocateElems hint (l.filter fun p => r.got.any fun g => g.1 == p.1)
  let s := s.putLoaded vd w r.got fun g => if unit then s.loadTag w l r.got g else 0#16
  let s := s.noteError err r.missed r.stop srcs
  .ok (s.memEnd (some vd) (maskOf true false false) es r.missed r.stop id)

/-- A store of the active elements at the addresses a function gives. -/
def State.vectorStore (s : State) (vs : VReg) (k : KReg) (srcs : List VReg) (indexed : Bool)
    (addr : Nat → Word) : Except Stop State := do
  let x := s.me
  let w := x.width
  let v := x.vreg vs
  let es := x.memElems k
  let err := x.errorAt srcs es
  let l := withError err
    (es.map fun e => (e, s.fate (vectorAccess true) (addr e) (w / 8) false))
  s.sweepReady true l indexed
  let act (low : List (Nat × Nat)) (s : State) (e : Nat) (ps : List Part) :
      Except Stop (Nat × State) := do
    let bytes := bytesOf (w / 8) (element v w e : BitVec w).toNat
    let s ← storeParts low (x.segTag vs (w * e / 512)) ps bytes s
    .ok (0, s)
  -- the elements below the lowest one with a cause are those that write
  let performed := match (sweep (act []) l s).stop with
    | some (e, _) => l.takeWhile fun p => decide (p.1 < e)
    | none => l
  let r := sweep (act (lowSpots performed)) l s
  let s := r.state.noteError err r.missed r.stop srcs
  .ok (s.memEnd none (maskOf false true false) es r.missed r.stop id)

/-- How a vector load or store ends: nothing above stops it, so a stop here is at issue. -/
def State.vectorMem (s : State) (mask : BitVec 3) (f : State → Except Stop State) :
    Host.Outcome State Fault Refusal :=
  let s := s.bindSpad
  finish s mask (do
    s.vectorIssue true
    f s)

/-- `vld` (R364). -/
def execVld (vd : VReg) (rb : SReg) (k : KReg) (hint : BitVec 2) (s : State) :
    Host.Outcome State Fault Refusal :=
  s.vectorMem (maskOf true false false) fun s =>
    s.vectorLoad vd k [] true false hint (unitAddr (s.sreg rb) (s.me.width / 8))

/-- `vlds` (R364). -/
def execVlds (vd : VReg) (rb rc : SReg) (k : KReg) (hint : BitVec 2) (s : State) :
    Host.Outcome State Fault Refusal :=
  s.vectorMem (maskOf true false false) fun s =>
    s.vectorLoad vd k [] false false hint (strideAddr (s.sreg rb) (s.sreg rc))

/-- `vldx` (R364). -/
def execVldx (iw : BitVec 2) (vd : VReg) (rb : SReg) (vc : VReg) (p : BitVec 2) (k : KReg)
    (hint : BitVec 2) (s : State) : Host.Outcome State Fault Refusal :=
  s.vectorMem (maskOf true false false) fun s => do
    s.vectorIssue true p
    s.indexFits iw
    let c := s.me.vreg vc
    s.vectorLoad vd k [vc] false true hint fun e => s.sreg rb + indexAt c p (indexBits iw) e

/-- `vst` (R364). -/
def execVst (vs : VReg) (rb : SReg) (k : KReg) (_hint : BitVec 2) (s : State) :
    Host.Outcome State Fault Refusal :=
  s.vectorMem (maskOf false true false) fun s =>
    s.vectorStore vs k [vs] false (unitAddr (s.sreg rb) (s.me.width / 8))

/-- `vsts` (R364). -/
def execVsts (vs : VReg) (rb rc : SReg) (k : KReg) (_hint : BitVec 2) (s : State) :
    Host.Outcome State Fault Refusal :=
  s.vectorMem (maskOf false true false) fun s =>
    s.vectorStore vs k [vs] false (strideAddr (s.sreg rb) (s.sreg rc))

/-- `vstx` (R364). -/
def execVstx (iw : BitVec 2) (vs : VReg) (rb : SReg) (vc : VReg) (p : BitVec 2) (k : KReg)
    (_hint : BitVec 2) (s : State) : Host.Outcome State Fault Refusal :=
  s.vectorMem (maskOf false true false) fun s => do
    s.vectorIssue true p
    s.indexFits iw
    let c := s.me.vreg vc
    s.vectorStore vs k [vs, vc] true fun e => s.sreg rb + indexAt c p (indexBits iw) e

/-! Fault-only-first (R192, R366). -/

/-- An element lies on a page whose leaf has NS = 1. -/
def State.onNsPage (s : State) (ps : List Part) : Bool :=
  s.me.space == 0#2 && ps.any fun p =>
    match s.walk s.me.owner.toNat p.va with
    | .leaf e _ => e.getLsbD 5
    | _ => false

/-- Later elements of a fault-only-first load: performed until the lowest one that may not be. -/
def lateElems : List (Nat × Fate) → State → List (Nat × Nat) × Option Nat × State
  | [], s => ([], none, s)
  | (e, f) :: r, s =>
    match f with
    | .go ps =>
      if s.onNsPage ps then ([], some e, s)
      else match loadElem s e ps with
        | .ok (v, s) =>
          let (got, cut, s) := lateElems r s
          ((e, v) :: got, cut, s)
        | .error _ => ([], some e, s)
    | _ => ([], some e, s)

/-- `vldff` (R366): a mismatch of checked mode at an element stops it there as it stops `vld` (R255). -/
def execVldff (vd : VReg) (rb : SReg) (k : KReg) (hint : BitVec 2) (s : State) :
    Host.Outcome State Fault Refusal :=
  s.vectorMem (maskOf true false false) fun s => do
    let x := s.me
    let w := x.width
    let es := x.memElems k
    let err := x.errorAt [] es
    let l := withError err
      (es.map fun e =>
        (e, s.fate (vectorAccess false) (unitAddr (s.sreg rb) (w / 8) e) (w / 8) false))
    s.sweepReady false l
    let r := sweep loadElem (l.take 1) s
    let (late, cut, s) := if r.stop.isSome then ([], none, r.state) else lateElems (l.drop 1) r.state
    let got := r.got ++ late
    let s := s.putLoaded vd w got fun g => s.loadTag w l got g
    let s := s.allocateElems hint (l.filter fun p => got.any fun g => g.1 == p.1)
    let mismatch := cut.isSome && cut == err
    let stop := if mismatch then cut.map fun e => (e, Stop.trap cUncorrectable 0#64) else r.stop
    let s := match cut with
      | some e => if mismatch then s else s.updMe fun x => { x with vl := BitVec.ofNat 32 e }
      | none => s
    let s := s.noteError err r.missed stop []
    .ok (s.memEnd (some vd) (maskOf true false false) es r.missed stop id)

/-! `vamo` (R350, R351). -/

/-- The elements of a `vamo`, performed in ascending order; a window that refuses closes its route. -/
def amoSweep (op n : Nat) (x c : Nat → Word) : List (Nat × Fate) → State → Sweep
  | [], s => { state := s, got := [], missed := [], stop := none }
  | (e, f) :: r, s =>
    let stopAt (s : State) (c : Stop) : Sweep :=
      { state := s, got := [], missed := [], stop := some (e, c) }
    match f with
    | .go (p :: _) =>
      let checks : Except Stop Unit := do
        s.vineWhole p.va p.tgt n
        match p.tgt with
        | .window w _ => demand (s.routeOpen w) cHostAtomic p.va
        | _ => .ok ()
      match checks with
      | .error c => stopAt s c
      | .ok _ => match s.windowAtomic e p.va p.tgt with
        | .error (c, s) => stopAt s c
        | .ok s => match s.rmwAt p.va p.tgt n (atomicFn op n (x e) (c e)) with
          | .error c => stopAt s c
          | .ok (old, s) =>
            let w := amoSweep op n x c r s
            { w with got := (e, old.toNat) :: w.got }
    | .miss va l =>
      let w := amoSweep op n x c r s
      { w with missed := (e, va, l) :: w.missed }
    | .bad c => stopAt s c
    | .skip => amoSweep op n x c r (s.updMe fun x => x.setKBits 13 [e])
    | .go [] | .wait => amoSweep op n x c r s

/-- `vamo` (R350). -/
def execVamo (op : BitVec 4) (w order : BitVec 2) (scope : BitVec 3) (vd : VReg) (rb : SReg)
    (vc vi : VReg) (p : BitVec 2) (k : KReg) (_hint : BitVec 2) (s : State) :
    Host.Outcome State Fault Refusal :=
  let n := if w = 3#2 then 8 else 4
  let rel := order == 2#2 || order == 3#2
  s.vectorMem (maskOf true true false) fun s => do
    s.vectorIssue true p
    let x := s.me
    let ew := x.width
    demand (decide (ew = 8 * n)) cIllegalState
    s.releaseAllowed rel scope.toNat
    let b := x.vreg vc
    let d := x.vreg vi
    let old := x.vreg vd
    let srcs := if op = 7#4 then [vc, vi, vd] else [vc, vi]
    let es := x.memElems k
    let acc : Access := { way := .atomic, read := true, write := true, exec := false, width := n
                          scope := some scope.toNat }
    let err := x.errorAt srcs es
    let l := withError err (es.map fun e =>
      (e, s.fate acc (s.sreg rb + (element d ew e : BitVec ew).setWidth 64) n true))
    s.sweepReady true l true
    s.awaitRelease rel scope.toNat
    let r := amoSweep op.toNat n (fun e => (repElement b p ew e : BitVec ew).setWidth 64)
      (fun e => (element old ew e : BitVec ew).setWidth 64) l s
    let s := r.state.putLoaded vd ew r.got fun _ => 0#16
    let s := s.noteError err r.missed r.stop srcs
    .ok (s.memEnd (some vd) (maskOf true true false) es r.missed r.stop fun s =>
      s.dropCheckpoint.sync (order != 0#2))

end Sys2Proof.Machine
end

