-- ==== Sys2Proof/Machine/Matrix.lean ====
section
/-! DEFINITION. The matrix engine (R148 to R167, R331): taking and releasing it, the matrix
instructions, the operations its queue holds, weight loads with cask chunks, checksums and stops. -/

namespace Sys2Proof.Machine

/-! Modes (R152, R153, R126). -/

/-- The plane capacity in K, the most rows, the accumulator rows of an output row. -/
def planeMax (mode : Nat) : Nat := if mode = 0 then 2048 else if mode = 1 then 512 else 32
def rowsMax (mode : Nat) : Nat := if mode = 2 then 1024 else 2048
def accRows (mode : Nat) : Nat := if mode = 2 then 2 else 1

/-- Positions in one step of a sum (R126). -/
def stepLen (mode : Nat) (sparse : Bool) : Nat :=
  (if mode = 0 then 64 else if mode = 1 then 16 else 1) * (if sparse then 2 else 1)

/-- Activations in a block, and the formats accepted. -/
def actElems (mode : Nat) : Nat := if mode = 0 then 64 else if mode = 1 then 32 else 8
def actCodes (mode : Nat) : List Nat := if mode = 0 then [1, 2] else if mode = 1 then [3] else [7]

/-- Weights in a block of a class, its formats, and the modes that accept it. -/
def clsElems (cls : Nat) : Nat := if cls = 0 then 128 else if cls = 1 then 32 else 8
def clsCodes (cls : Nat) : List Nat := if cls = 0 then [4, 5] else if cls = 1 then [3] else [7]
def clsModes (cls : Nat) : List Nat := if cls = 0 then [0, 1] else if cls = 1 then [1] else [2]

/-- The format code of `mld`, and of `mst` (R158, R160). -/
def mldCode (fmt : BitVec 2) : Nat := if fmt = 0#2 then 6 else if fmt = 1#2 then 3 else 7
def mstCode (fmt : BitVec 3) : Nat :=
  match fmt.toNat with
  | 0 => 1
  | 1 => 2
  | 2 => 3
  | 3 => 6
  | _ => 7

/-- M, N and K of a SHAPE word (R152). -/
def shapeM (x : Word) : Nat := (x.extractLsb' 48 16).toNat
def shapeN (x : Word) : Nat := (x.extractLsb' 40 8).toNat
def shapeK (x : Word) : Nat := (x.extractLsb' 24 16).toNat

/-! Scoreboard entries of engine work (R143, R144). -/

/-- Record the entry of an operation. -/
def State.boardAdd (s : State) (c n op : Nat) (write : Bool) (blocks : List Nat) : State :=
  match entryOf n op write blocks with
  | none => s
  | some e => s.updCore c fun x => { x with board := x.board ++ [e] }

/-- The engine holds an operation: an entry of it that a test picks conflicts with an older one. -/
def boardHolds (op : Nat) (pick : SbEntry → Bool) : List SbEntry → List SbEntry → Bool
  | _, [] => false
  | older, e :: r =>
    (e.op == op && pick e && older.any fun o => o.op != op && e.conflicts o) ||
    boardHolds op pick (e :: older) r

def State.boardHeld (s : State) (c op : Nat) : Bool := boardHolds op (fun _ => true) [] (s.core c).board

/-- The same for the reads, or the writes, of an operation. -/
def State.boardHeldFor (s : State) (c op : Nat) (write : Bool) : Bool :=
  boardHolds op (fun e => e.write == write) [] (s.core c).board

/-! Holding the engine (R148, R149). -/

/-- The engine of the issuing strand's core. -/
def State.engine (s : State) : MatrixEngine := (s.core s.me.core).engine

def State.updEngine (s : State) (c : Nat) (f : MatrixEngine → MatrixEngine) : State :=
  s.updCore c fun x => { x with engine := f x.engine }

def State.holdsEngine (s : State) : Bool := s.engine.holder == some s.cur && !s.engine.release

/-- A steward core has no engine. -/
def State.hasEngine (s : State) : Except Stop Unit := demand (!isSteward s.me.core) cIllegalState

/-- What every matrix instruction but `mshape` and `mchk` needs. -/
def State.matrixIssue (s : State) : Except Stop Unit := do
  s.hasEngine
  demand s.holdsEngine cIllegalState

/-- A matrix instruction has completed, or is in the engine's hands: VSTART 0 (R22), no checkpoint
(R258). -/
def State.matrixDone (s : State) : State :=
  ((s.updMe fun x => { x with vstart := 0#32 }).dropCheckpoint).retire

/-- While MSTOP is valid an operation of the holder is discarded without effect and counted (R161). -/
def State.unlessStopped (s : State) (f : Except Stop State) : Except Stop State :=
  if s.me.mstopValid then
    .ok ((s.updMe fun x => { x with mchkLost := satAdd x.mchkLost 1 }).dropCheckpoint).retire
  else f

/-- A pending release takes effect once the engine is idle (R148). -/
def MatrixEngine.settle (e : MatrixEngine) : MatrixEngine :=
  if e.release && e.idle then e.free else e

/-- The holder gives the engine up (R148, R152). -/
def State.releaseEngine (s : State) : State :=
  if s.holdsEngine then
    s.updEngine s.me.core fun e => ({ e with release := true, shape := 0#64 } : MatrixEngine).settle
  else s

/-- The strands whose requests count, in their order: those that still wait in a slot of the core. -/
def State.waitersOf (s : State) (c : Nat) : List Nat :=
  (s.core c).engine.waiters.filter fun n =>
    n == s.cur || ((s.strand n).state == 1#4 && ((s.strand n).place.map (·.core)) == some c)

/-- Take the engine: its planes empty, its accumulator zero (R148). -/
def MatrixEngine.take (e : MatrixEngine) (n : Nat) : MatrixEngine :=
  { e with holder := some n, release := false, shape := 0#64, active := Plane.empty
           shadow := Plane.empty, acc := [], queue := [], waiters := e.waiters.filter (· != n) }

/-- The shape granted for a request (R152). -/
def shapeGrant (mode : Nat) (sparse : Bool) (m n k : Nat) : Word :=
  let klim := if sparse then 2 * planeMax mode else planeMax mode
  BitVec.ofNat 64 (min m (rowsMax mode) * 2 ^ 48 + min n 32 * 2 ^ 40 + min k klim * 2 ^ 24)

/-- The grant, to a strand that holds the engine. -/
def State.grantShape (s : State) (mode : BitVec 2) (sparse : Bool) (rd : SReg) (g : Word) : State :=
  let s := s.updEngine s.me.core fun e => { e with mode := mode, sparse := sparse, shape := g }
  ((s.updMe fun x => { x with shape := g }).setS rd g).matrixDone

/-- `mshape` (R152): a strand that has to wait stands in the order of requests; a stepped one asks for
nothing (R332). -/
def State.mshape (s : State) (mode : BitVec 2) (sparse : Bool) (rd : SReg) (m n k : Nat) :
    Except Stop State := do
  s.hasEngine
  if m = 0 ∧ n = 0 ∧ k = 0 then
    .ok ((s.releaseEngine.updMe fun x => { x with shape := 0#64 }).setS rd 0#64).matrixDone
  else do
    demand (decide (m ≠ 0 ∧ n ≠ 0 ∧ k ≠ 0)) cIllegalState
    demand (!(sparse && mode == 2#2)) cIllegalState
    let c := s.me.core
    let g := shapeGrant mode.toNat sparse m n k
    let ws := s.waitersOf c
    if s.holdsEngine then .ok (s.grantShape mode sparse rd g)
    else if s.engine.holder.isNone ∧ (ws.headD s.cur) = s.cur then
      .ok ((s.updEngine c fun e => ({ e with waiters := ws } : MatrixEngine).take s.cur).grantShape
        mode sparse rd g)
    else if s.me.stepping then .error .wait
    else .ok (s.updEngine c fun e =>
      { e with waiters := if ws.contains s.cur then ws else ws ++ [s.cur] })

def execMshape (mode : BitVec 2) (sparse : Bool) (rd rb rc rk : SReg) (_hint : BitVec 2) (s : State) :
    Host.Outcome State Fault Refusal :=
  let s := s.updMe Strand.bindHere
  finish s 0#3 (s.mshape mode sparse rd (s.sreg rb).toNat (s.sreg rc).toNat (s.sreg rk).toNat)

/-! Weight loads (R153 to R155, R164 to R167). -/

/-- The access of `mldw`, as the checks see it. -/
def weightAccess : Access :=
  { way := .weights, read := true, write := false, exec := false, width := 64, scope := none }

/-- What translating a page of a global source gives, short of a cause. -/
inductive PageFate where
  | here (cask : Bool)
  | badKey (va : Word)
  | gone (va : Word) (level : Nat)
  | pinned (va : Word) (level : Nat)
  deriving DecidableEq, Repr

/-- A target lies in a cask frame (R164). -/
def State.isCask (s : State) (x : Target) : Bool :=
  match x with
  | .hbm pa _ _ => s.frameKind pa == 3
  | _ => false

/-- Translate a block's page, with the causes of R298 (check 4); an address past the space has no mapping. A world
refusal and a gone peer show in the plane instead (R236, R265). -/
def State.weightPage (s : State) (va : Nat) : Except Stop PageFate :=
  let a := BitVec.ofNat 64 va
  let t := s.me.owner.toNat
  if 2 ^ 57 ≤ va then .error (.trap cNoMapping a)
  else match s.translate t a weightAccess with
    | .ok x => match s.homeRefuses t weightAccess a x with
      | .ok _ => .ok (.here (s.isCask x))
      | .error (.trap c v) =>
        if c = cWorldRefused ∨ c = cPeerGone then .ok (.here (s.isCask x)) else .error (.trap c v)
      | .error e => .error e
    | .error (.trap c v) => if c = cCaskKey then .ok (.badKey v) else .error (.trap c v)
    | .error (.miss v l) => .ok (.gone v l)
    | .error (.pinMiss v l) => .ok (.pinned v l)
    | .error .wait | .error .entry | .error .conflict => .error .wait

/-- The address of block `l` of a global source (R153). -/
def weightAddr (cask : Bool) (base l : Nat) : Nat :=
  if cask then base + 4096 * (l / 63) + 64 * (l % 63) else base + 64 * l

/-- The lowest block address on each page, with the number of blocks there, ascending. -/
def pageStarts (vas : List Nat) : List (Nat × Nat) :=
  ((vas.map (· / 65536)).eraseDups.mergeSort).map fun p =>
    let here := vas.filter fun a => a / 65536 == p
    (here.foldl min (65536 * p + 65535), here.length)

/-- One block of a global source as it was issued: where it leads, and the key of a cask block (R167). -/
def State.weightSource (s : State) (va : Nat) : Except Stop WeightSource := do
  let a := BitVec.ofNat 64 va
  let x ← s.translate s.me.owner.toNat a weightAccess
  let slot : BitVec 6 := match s.leafAt s.me.owner.toNat (va / 65536) with
    | some e => e.extractLsb' 10 6
    | none => 0#6
  .ok { va := a, tgt := x, cask := if s.isCask x then some (slot, (s.key slot.toNat).key) else none }

/-- What check 4 to 7 leave: blocks to read, or pages to report. -/
inductive WeightPlan where
  | read (l : List WeightSource)
  | report (l : List PageMiss)

/-- Checks 4 to 7 on a global source (R153). -/
def State.weightPlan (s : State) (base : Nat) (ls : List Nat) : Except Stop WeightPlan := do
  let cask ← match ← s.weightPage base with
    | .here c => .ok c
    | .badKey _ => .ok true
    | .gone v l => .error (.miss v l)
    | .pinned v l => .error (.pinMiss v l)
  demand (!cask || decide (base % 4096 = 0)) cAlignment (BitVec.ofNat 64 base)
  let vas := ls.map (weightAddr cask base)
  let pages := pageStarts vas
  let fates ← pages.mapM fun p => do
    let f ← s.weightPage p.1
    .ok (p, f)
  let kinds := cask :: fates.filterMap fun p => match p.2 with
    | .here c => some c
    | .badKey _ => some true
    | .gone _ _ | .pinned _ _ => none
  demand (kinds.all (· == cask)) cIllegalState
  match ← s.weightPage base with
  | .badKey v => .error (.trap cCaskKey v)
  | _ => .ok ()
  match fates.findSome? fun p => match p.2 with
    | .badKey v => some v
    | _ => none with
  | some v => .error (.trap cCaskKey v)
  | none => .ok ()
  match fates.findSome? fun p => match p.2 with
    | .pinned v l => some (v, l)
    | _ => none with
  | some (v, l) => .error (.pinMiss v l)
  | none => .ok ()
  match fates.filterMap fun p => match p.2 with
    | .gone v l => some ({ va := v, level := l, mask := maskOf true false false
                           count := 1 } : PageMiss)
    | _ => none with
  | [] => do
    let l ← vas.mapM s.weightSource
    .ok (.read l)
  | l => .ok (.report l)

/-- Every byte of scratchpad blocks is checked, ascending as listed (R129). -/
def State.spadBlocksOk (s : State) (addrs : List Nat) : Except Stop Unit :=
  match addrs.findSome? fun a => (List.range 64).findSome? fun i =>
      (s.spadCheck s.me.owner.toNat s.me.core false (a + i)).map fun c => (c, a + i) with
  | some (c, a) => .error (.trap c (BitVec.ofNat 64 a))
  | none => .ok ()

/-- The K mask of a sparse load, and the weights stored of a column (R155). -/
def maskBits (v : BitVec 16384) (k : Nat) : BitVec 16384 := v &&& BitVec.ofNat 16384 (2 ^ k - 1)

/-- A swap has been decided and waits in the queue for older operations (R149, R156). -/
def MatrixEngine.swapping (e : MatrixEngine) : Bool := e.queue.any MatOp.isSwap

/-- The planes as the holder's next instruction finds them, every decided swap done and every load issued: a
swap is decided only with no load under way. -/
def MatrixEngine.nextActive (e : MatrixEngine) : Plane := if e.swapping then e.shadow else e.active
def MatrixEngine.nextShadow (e : MatrixEngine) : BitVec 2 :=
  if e.queue.any MatOp.isLoad then 1#2 else if e.swapping then 0#2 else e.shadow.state

/-- A weight load starts: the blocks of the rows below its first stay as the load stopped there left them
(R161), cask weights among them (R166). -/
def MatrixEngine.startLoad (e : MatrixEngine) (p : Plane) : MatrixEngine :=
  { e with shadow := { p with
      blocks := keepKeys (fun i => decide (i < p.first)) e.shadow.blocks
      cask := p.cask || (e.shadow.cask && decide (0 < p.first)) } }

/-- A weight load is in the engine's hands: it starts at once, or in the queue behind the swap that frees its
plane or the load that has it (R149). -/
def MatrixEngine.issueLoad (e : MatrixEngine) (p : Plane) (shape : Word) : MatrixEngine :=
  if e.shadow.state != 1#2 && !e.queue.any (fun q => q.isLoad || q.isSwap) then e.startLoad p
  else { e with queue := e.queue ++
    [{ kind := .mldw p, pc := p.pc, shape := shape, mode := e.mode, sparse := e.sparse, base := 0
       addr := 0, stride := 0#64, start := 0, sbOp := p.sbOp }] }

/-- `mldw` (R153 to R155). It starts at row VSTART (R163). DEDUCED (log 63): a row of it is a group of
blocks. -/
def State.mldw (s : State) (cls space : BitVec 2) (sparse : Bool) (base stride : Nat) (vm : VReg) :
    Except Stop State := do
  let x := s.me
  let e := s.engine
  let n := shapeN x.shape
  let k := shapeK x.shape
  let mode := e.mode.toNat
  let g := clsElems cls.toNat
  demand ((clsModes cls.toNat).contains mode && sparse == e.sparse && decide (n ≤ stride)) cIllegalState
  demand (!(sparse && x.poisonV.contains vm.toNat)) cUncorrectable
  let mask := maskBits (x.vreg vm) k
  let kept := if sparse then popBelow mask k else k
  demand (!(sparse && (decide (x.mvl.toNat < k) || decide (planeMax mode < kept)))) cIllegalState
  demand (decide (base % 64 = 0)) cAlignment (BitVec.ofNat 64 base)
  let ls := ((List.range ((kept + g - 1) / g)).drop x.vstart.toNat).flatMap fun i =>
    (List.range n).map fun j => i * stride + j
  let addrs := ls.map fun l => base + 64 * l
  let plan ←
    if space = 1#2 then do
      s.spadBlocksOk addrs
      .ok (.read (addrs.map fun a => { va := BitVec.ofNat 64 a, tgt := .spad x.core false a, cask := none }))
    else s.weightPlan base ls
  match plan with
  | .report l => .ok (s.reportPages s.cur l)
  | .read srcs => do
    waitUnless (decide (e.queue.length < 8))
    if space = 1#2 then s.boardEntry x.core s.cur else .ok ()
    let (id, s) := s.fresh
    let s := if space = 1#2 then s.boardAdd x.core s.cur id false (addrs.map (· / 64)) else s
    let p : Plane := { Plane.empty with
      state := 1#2, cask := srcs.any fun w => w.cask.isSome
      sparse := sparse, mode := e.mode, k := k, n := n, mask := mask, pc := x.pc, cls := cls
      first := n * x.vstart.toNat, srcs := srcs, sbOp := id, region := x.region }
    .ok (s.updEngine x.core fun e => e.issueLoad p x.shape).matrixDone

def execMldw (cls : BitVec 2) (space : BitVec 2) (sparse : Bool) (rb rc : SReg) (vm : VReg)
    (_hint : BitVec 2) (s : State) : Host.Outcome State Fault Refusal :=
  let s := s.updMe Strand.bindHere
  finish s (maskOf true false false) (do
    s.matrixIssue
    s.unlessStopped (s.mldw cls space sparse (s.sreg rb).toNat (s.sreg rc).toNat vm))

/-- A cask chunk decrypted and checked (R165, R166): its plaintext from its local address on. -/
def State.openChunk (s : State) (key : BitVec 256) (memKey chunk : Nat) : Option (List Byte) :=
  let raw := s.hbmRead memKey chunk 4096
  let tags := (List.range 63).flatMap fun j => bytesOf 2 (s.hbmTag memKey (chunk + 64 * j)).toNat
  let field (lo n : Nat) : List Byte := (raw.drop (4032 + lo)).take n
  gcmOpen (bytesOf 32 key.toNat) (field 16 12) tags (raw.take 4032) (field 0 16)

/-- A fault of a weight load: the cause and the address (R153). -/
abbrev LoadFault := Nat × Word

/-- Read one block of a weight load. -/
def State.readWeights (s : State) (n region : Nat) (cls : Nat) (i : Nat) (w : WeightSource) :
    Except (Option LoadFault) ((BitVec 512 × Tag) × State) :=
  let t := (s.strand n).owner.toNat
  match s.homeRefuses t weightAccess w.va w.tgt with
  | .error (.trap c v) => .error (some (c, v))
  | .error _ => .error none
  | .ok _ =>
    let s := s.settleTarget n w.tgt
    match s.raceTarget n region w.va w.tgt 64 false false with
    | .error (.trap c v) => .error (some (c, v))
    | .error _ => .error none
    | .ok s =>
      let ends (l : List Byte) : Except (Option LoadFault) ((BitVec 512 × Tag) × State) :=
        let tag := s.tagTarget w.tgt
        if (clsCodes cls).contains (tagFormat tag) then
          .ok ((BitVec.ofNat 512 (natOfBytes l), tag), s)
        else .error (some (cIllegalState, w.va))
      if s.windowAnswer i w.tgt 2 ≠ 0 then .error (some (cPeerGone, w.va))
      else match w.cask, w.tgt with
        | some (_, key), .hbm pa memKey _ =>
          let chunk := pa / 4096 * 4096
          let base := w.va &&& ~~~4095#64
          match (List.range 64).find? fun j => hasKey s.poison (chunk / 64 + j) with
          | some j => .error (some (cUncorrectable, base + BitVec.ofNat 64 (64 * j)))
          | none => match s.openChunk key memKey chunk with
            | none => .error (some (cCaskKey, base))
            | some l => ends ((l.drop (pa % 4096)).take 64)
        | _, _ =>
          if s.poisonedAt (some (dieOfCore (s.strand n).core)) w.tgt 64 then .error (some (cUncorrectable, w.va))
          else ends (s.readTarget w.tgt 64)

/-- Read the blocks in order, up to the first fault: the blocks read, the state, and the fault with the number
of its block. -/
def readAllWeights (n region cls : Nat) : (i : Nat) → List WeightSource → State →
    Table (BitVec 512 × Tag) → Table (BitVec 512 × Tag) × State × Option (Nat × Option LoadFault)
  | _, [], s, acc => (acc, s, none)
  | i, w :: r, s, acc =>
    match s.readWeights n region cls i w with
    | .error f => (acc, s, some (i, f))
    | .ok (b, s) => readAllWeights n region cls (i + 1) r s (insertAt acc i b)

/-- An uncorrectable error stops an operation at a row (R161): it is recorded, and what is queued is
discarded and counted. DESIGN CHOICE (log 89): a weight load that is already in flight is not queued, and runs on. -/
def State.stopMatrix (s : State) (c : Nat) (pc : Word) (row : Nat) (lost : List MatOp) : State :=
  match (s.core c).engine.holder with
  | none => s
  | some n =>
    let s := s.updStrand n fun x => { x with
      mstopValid := true, mstopAddr := pc.setWidth 57, mchkRow := BitVec.ofNat 11 row
      mchkLost := satAdd x.mchkLost lost.length }
    let ids := (s.core c).engine.queue.map (·.sbOp)
    let s := s.updCore c fun x => { x with board := x.board.filter fun e => !ids.contains e.op }
    s.updEngine c fun e => ({ e with queue := [] } : MatrixEngine).settle

/-- The engine finishes a weight load: the shadow plane loaded, or faulted with its cause and address;
an error in the scratchpad also stops the engine's work (R153, R161). -/
def State.mldwDone (s : State) (c : Nat) : State :=
  let e := (s.core c).engine
  let p := e.shadow
  match e.holder with
  | none => s
  | some n =>
    if p.state ≠ 1#2 ∨ s.boardHeld c p.sbOp then s
    else match readAllWeights n p.region p.cls.toNat p.first p.srcs s p.blocks with
      | (_, _, some (_, none)) => s
      | (blocks, s, none) =>
        ((s.boardRetire c p.sbOp).sweepRaces).updEngine c fun e =>
          ({ e with shadow := { p with state := 2#2, blocks := blocks, srcs := [] } } :
            MatrixEngine).settle
      | (blocks, s, some (i, some (cause, va))) =>
        let s := ((s.boardRetire c p.sbOp).sweepRaces).updEngine c fun e =>
          { e with shadow := { p with state := 3#2, cause := BitVec.ofNat 8 cause, blocks := blocks, srcs := [] } }
        let s := s.updStrand n fun x => { x with mfaddr := va.setWidth 57 }
        let spad := p.srcs.any fun w => match w.tgt with
          | .spad _ _ _ => true
          | _ => false
        if spad ∧ cause = cUncorrectable then
          s.stopMatrix c p.pc (i / p.n) (s.core c).engine.queue
        else s.updEngine c MatrixEngine.settle

def execMldwLoadDone (core : Nat) (s : State) : Host.Outcome State Fault Refusal :=
  .next (s.mldwDone core)

/-! Rows in the scratchpad (R157, R158, R160). -/

/-- The addresses of the blocks of rows from `m0` up, `nb` blocks a row. -/
def rowBlocks (base stride m0 m nb : Nat) : List Nat :=
  (List.range (m - m0)).flatMap fun i => (List.range nb).map fun j =>
    base + (m0 + i) * stride + 64 * j

/-- The checks that `mmac`, `mld` and `mst` share: accumulator rows, VSTART, alignment, R129. -/
def State.rowChecks (s : State) (sa base stride nb least : Nat) : Except Stop (List Nat) := do
  let x := s.me
  let m := shapeM x.shape
  let m0 := x.vstart.toNat
  demand (decide (sa + m * accRows s.engine.mode.toNat ≤ 2048 ∧ m0 < m ∧ least ≤ stride)) cIllegalState
  demand (decide (base % 64 = 0 ∧ stride % 64 = 0)) cAlignment (BitVec.ofNat 64 base)
  let l := rowBlocks base stride m0 m nb
  s.spadBlocksOk l
  .ok l

/-- Every block read has a format of a list; the check waits until the entry of the rows conflicts with no older
one (R143, R144, R146, R157). -/
def State.rowFormats (s : State) (blocks codes : List Nat) : Except Stop Unit := do
  let c := s.me.core
  if (entryOf s.cur 0 false (blocks.map (· / 64))).any (s.entryBlocked c) then .error .conflict else .ok ()
  demand (blocks.all fun a => codes.contains (tagFormat (s.spadTag c false a))) cIllegalState

/-- The queue and the scoreboard have room (R149, R146). -/
def State.queueRoom (s : State) : Except Stop Unit := do
  waitUnless (decide (s.engine.queue.length < 8))
  s.boardEntry s.me.core s.cur

/-- An operation enters the queue, with what it captures (R149), and the instruction retires. -/
def State.enqueue (s : State) (kind : MatKind) (sa base stride : Nat) (write : Bool)
    (blocks : List Nat) : State :=
  let x := s.me
  let (id, s) := s.fresh
  let s := s.boardAdd x.core s.cur id write (blocks.map (· / 64))
  (s.updEngine x.core fun e =>
    { e with queue := e.queue ++
      [{ kind := kind, pc := x.pc, shape := x.shape, mode := e.mode, sparse := e.sparse, base := sa
         addr := base, stride := BitVec.ofNat 64 stride, start := x.vstart.toNat, sbOp := id }] }
  ).matrixDone

/-- `mswap` (R156): it is decided once the shadow plane is loaded, and done after the older operations. -/
def State.mswap (s : State) : Except Stop State := do
  let e := s.engine
  waitUnless (e.nextShadow != 1#2)
  demand (e.nextShadow != 0#2) cIllegalState
  demand (e.nextShadow != 3#2) e.shadow.cause.toNat (s.me.mfaddr.setWidth 64)
  waitUnless (decide (e.queue.length < 8))
  .ok (s.enqueue .mswap 0 0 0 false [])

def execMswap (s : State) : Host.Outcome State Fault Refusal :=
  let s := s.updMe Strand.bindHere
  finish s 0#3 (do
    s.matrixIssue
    s.unlessStopped s.mswap)

/-- The checks of `mmac` on the active plane, which are those of `mld` too (R157, R158): it is loaded and agrees
with SHAPE and the mode. -/
def State.planeChecks (s : State) : Except Stop Unit := do
  let e := s.engine
  let p := e.nextActive
  demand (p.state == 2#2) cIllegalState
  demand (p.k == shapeK s.me.shape && p.n == shapeN s.me.shape && p.mode == e.mode && p.sparse == e.sparse)
    cIllegalState

/-- `mmac` (R157). -/
def State.mmac (s : State) (zero : Bool) (sa base stride : Nat) : Except Stop State := do
  s.planeChecks
  let e := s.engine
  let k := shapeK s.me.shape
  let a := actElems e.mode.toNat
  let blocks ← s.rowChecks sa base stride ((k + a - 1) / a) 0
  s.queueRoom
  s.rowFormats blocks (actCodes e.mode.toNat)
  .ok (s.enqueue (.mmac zero) sa base stride false blocks)

def execMmac (zero : Bool) (ra rb rc : SReg) (_hint : BitVec 2) (s : State) :
    Host.Outcome State Fault Refusal :=
  let s := s.updMe Strand.bindHere
  finish s 0#3 (do
    s.matrixIssue
    s.unlessStopped (s.mmac zero (s.sreg ra).toNat (s.sreg rb).toNat (s.sreg rc).toNat))

/-- `mzero` (R158): a count of 0 does nothing. DESIGN CHOICE (log 64): so it does with a base row past 2,048,
where the rule's other sentence would raise ILLEGAL_STATE. -/
def State.mzero (s : State) (base count : Nat) : Except Stop State := do
  if count = 0 then .ok s.matrixDone
  else do
    demand (decide (base + count ≤ 2048)) cIllegalState
    waitUnless (decide (s.engine.queue.length < 8))
    .ok (s.enqueue (.mzero count) base 0 0 false [])

def execMzero (rb rc : SReg) (s : State) : Host.Outcome State Fault Refusal :=
  let s := s.updMe Strand.bindHere
  finish s 0#3 (do
    s.matrixIssue
    s.unlessStopped (s.mzero (s.sreg rb).toNat (s.sreg rc).toNat))

/-- `mld` (R158): its checks are those of `mmac`. -/
def State.mld (s : State) (fmt : BitVec 2) (sa base stride : Nat) : Except Stop State := do
  s.planeChecks
  let mode := s.engine.mode
  let code := mldCode fmt
  demand (if mode = 2#2 then code == 6 || code == 7 else code == 6 || code == 3) cIllegalState
  let g := tagElems code
  let blocks ← s.rowChecks sa base stride ((shapeN s.me.shape + g - 1) / g) 0
  s.queueRoom
  s.rowFormats blocks [code]
  .ok (s.enqueue (.mld fmt) sa base stride false blocks)

def execMld (fmt : BitVec 2) (ra rb rc : SReg) (_hint : BitVec 2) (s : State) :
    Host.Outcome State Fault Refusal :=
  let s := s.updMe Strand.bindHere
  finish s 0#3 (do
    s.matrixIssue
    s.unlessStopped (s.mld fmt (s.sreg ra).toNat (s.sreg rb).toNat (s.sreg rc).toNat))

/-- `mst` (R160). -/
def State.mst (s : State) (fmt : BitVec 3) (sa base stride : Nat) : Except Stop State := do
  let code := mstCode fmt
  demand (!(fmt == 4#3 && s.engine.mode != 2#2)) cIllegalState
  let g := tagElems code
  let nb := (shapeN s.me.shape + g - 1) / g
  let blocks ← s.rowChecks sa base stride nb (64 * nb)
  s.queueRoom
  .ok (s.enqueue (.mst fmt) sa base stride true blocks)

def execMst (fmt : BitVec 3) (ra rb rc : SReg) (_hint : BitVec 2) (s : State) :
    Host.Outcome State Fault Refusal :=
  let s := s.updMe Strand.bindHere
  finish s 0#3 (do
    s.matrixIssue
    s.unlessStopped (s.mst fmt (s.sreg ra).toNat (s.sreg rb).toNat (s.sreg rc).toNat))

/-! The engine's arithmetic (R126, R157, R158). -/

/-- The least exponent among finite values. -/
def minExp : List FVal → Int → Int
  | [], e => e
  | .fin _ _ e :: t, a => minExp t (min e a)
  | _ :: t, a => minExp t a

/-- A value as a multiple of 2 to an exponent not above its own. -/
def scaledInt (q : Int) : FVal → Int
  | .fin n m e =>
    let k : Int := (m : Int) * 2 ^ (e - q).toNat
    if n then -k else k
  | _ => 0

def FVal.isInf (neg : Bool) : FVal → Bool
  | .inf n => n == neg
  | _ => false

def FVal.isFinite : FVal → Bool
  | .fin _ _ _ => true
  | _ => false

def FVal.isZero (neg : Bool) : FVal → Bool
  | .fin n m _ => n == neg && m == 0
  | _ => false

/-- The exact sum of values, with the special cases of R126. -/
def exactSum (l : List FVal) : FVal :=
  if l.any FVal.isNan then .nan false
  else
    let pos := l.any (FVal.isInf false)
    let neg := l.any (FVal.isInf true)
    if pos && neg then .nan false
    else if pos then .inf false
    else if neg then .inf true
    else
      let q := minExp l 0
      let t := (l.map (scaledInt q)).sum
      if t = 0 then .fin (!l.isEmpty && l.all (FVal.isZero true)) 0 0
      else .fin (decide (t < 0)) t.natAbs q

/-- The format of the accumulator in a mode, and the bits of an element. -/
def accFmt (mode : Nat) : Fmt := if mode = 2 then fp64 else fp32

/-- The row and the bit offset of column `n` of output row `m` from a base row (R148). -/
def accPlace (mode base m n : Nat) : Nat × Nat :=
  if mode = 2 then (base + 2 * m + n / 16, 64 * (n % 16)) else (base + m, 32 * n)

def MatrixEngine.accBits (e : MatrixEngine) (mode base m n : Nat) : Nat :=
  let (r, o) := accPlace mode base m n
  ((lookupD e.acc r 0#1024).toNat / 2 ^ o) % 2 ^ (accFmt mode).bits

def MatrixEngine.setAcc (e : MatrixEngine) (mode base m n v : Nat) : MatrixEngine :=
  let (r, o) := accPlace mode base m n
  let old := lookupD e.acc r 0#1024
  let new := if mode = 2 then putSlice old o (BitVec.ofNat 64 v) else putSlice old o (BitVec.ofNat 32 v)
  { e with acc := putAt e.acc r new }

/-- The weight of column `j` at position `k`, if the plane holds one there (R155, R157). -/
def Plane.weight (p : Plane) (k j : Nat) : Option FVal :=
  if p.sparse ∧ p.mask.getLsbD k = false then none
  else
    let at' := if p.sparse then popBelow p.mask k else k
    let g := clsElems p.cls.toNat
    let b := lookupD p.blocks (p.n * (at' / g) + j) (0#512, 0#16)
    some (decodeElem b.2 b.1 (at' % g))

/-- The elements of scratchpad blocks, decoded; a tag not accepted decodes every element as a NaN
(R157, R158). -/
def State.decodeBlocks (s : State) (c : Nat) (codes : List Nat) (g addr nb : Nat) : List FVal :=
  (List.range nb).flatMap fun j =>
    let a := addr + 64 * j
    let tag := s.spadTag c false a
    let bits := BitVec.ofNat 512 (natOfBytes (s.spadRead c false a 64))
    if codes.contains (tagFormat tag) then (List.range g).map fun i => decodeElem tag bits i
    else List.replicate g (.nan false)

/-- The steps of a sum over K positions (R126). -/
def stepSums (f : Fmt) (len : Nat) (term : Nat → Option FVal) (k : Nat) : (steps : Nat) → (first : Nat) →
    (acc : Nat) → Nat
  | 0, _, acc => acc
  | n + 1, first, acc =>
    let terms := (List.range (min len (k - first))).filterMap fun i => term (first + i)
    stepSums f len term k n (first + len) (f.roundTo rne (exactSum (f.decode acc :: terms))).1

/-- An error that strikes a row shows in its checksums (R162): it struck a step, which the spec does not name, all
of whose activations and weights are finite. -/
def State.checkFails (s : State) (p : Plane) (acts : List FVal) (cols k len m : Nat) : Bool :=
  let steps := (k + len - 1) / len
  let first := len * s.choose (32 + m) steps
  (List.range (min len (k - first))).all fun i =>
    (acts.getD (first + i) (.nan false)).isFinite &&
    (List.range cols).all fun j => (p.weight (first + i) j).all FVal.isFinite

/-- A row's source blocks hold poison. -/
def State.rowPoisoned (s : State) (c : Nat) (op : MatOp) (m nb : Nat) : Bool :=
  (List.range nb).any fun j => (s.core c).poison.contains ((op.addr + m * op.stride.toNat) / 64 + j)

/-- The decoded activations of a row. -/
def State.rowActs (s : State) (c : Nat) (op : MatOp) (m : Nat) : List FVal :=
  let a := actElems op.mode.toNat
  s.decodeBlocks c (actCodes op.mode.toNat) a (op.addr + m * op.stride.toNat) ((shapeK op.shape + a - 1) / a)

/-- The die of a core refuses the rows that its engine reads or writes for a strand: it is latched to another world
than the strand's tenant's (R265). -/
def State.rowRefused (s : State) (c n : Nat) (op : MatOp) : Bool :=
  match op.kind with
  | .mmac _ | .mld _ | .mst _ => s.latchRefuses (s.strand n).owner.toNat (dieOfCore c)
  | .mldw _ | .mswap | .mzero _ => false

/-- A row of an `mmac` that has no poison fails its check (R162). -/
def State.rowFails (s : State) (c n : Nat) (op : MatOp) (m : Nat) : Bool :=
  let e := (s.core c).engine
  let a := actElems op.mode.toNat
  match op.kind with
  | .mmac _ => e.upset.contains m && !s.rowPoisoned c op m ((shapeK op.shape + a - 1) / a) &&
      !s.rowRefused c n op &&
      s.checkFails e.active (s.rowActs c op m) (shapeN op.shape) (shapeK op.shape)
        (stepLen op.mode.toNat op.sparse) m
  | _ => false

/-- A checksum failure of a row is counted (R162). -/
def Strand.checkFailed (x : Strand) (m : Nat) : Strand :=
  { x with
    mchkFail := if x.mchkCount = 0#16 then BitVec.ofNat 11 m else x.mchkFail
    mchkCount := satAdd x.mchkCount 1 }

/-- One row of an operation, over the state the rows before it left; nothing when poison stops it there (R161).
DESIGN CHOICE: so does the refusal of its die, for which R265 names no report (log 83); an `mst` sets the k15 that the
strand holds, a handler's after its `claim` (R19, log 87). -/
def State.matRow (s : State) (c n : Nat) (op : MatOp) (m : Nat) : Option State :=
  if s.rowRefused c n op then none else
  let e := (s.core c).engine
  let mode := op.mode.toNat
  let cols := shapeN op.shape
  let k := shapeK op.shape
  let f := accFmt mode
  let addr := op.addr + m * op.stride.toNat
  match op.kind with
  | .mldw _ | .mswap => some s
  | .mzero _ =>
    some (s.updEngine c fun e => { e with acc := removeAt e.acc (op.base + m) })
  | .mmac zero =>
    let a := actElems mode
    let nb := (k + a - 1) / a
    let bad := e.upset.contains m
    let acts := s.rowActs c op m
    let len := stepLen mode op.sparse
    let fails := s.rowFails c n op m
    if s.rowPoisoned c op m nb || (fails && (s.strand n).checked) then none
    else
      let term (j i : Nat) : Option FVal :=
        (e.active.weight i j).map fun w => (fvMul w (acts.getD i (.nan false))).1
      let out (j : Nat) : Nat :=
        let acc := if zero then 0 else e.accBits mode op.base m j
        if bad then (s.free (64 * m + j)).toNat
        else stepSums f len (term j) k ((k + len - 1) / len) 0 acc
      let s := s.updEngine c fun e =>
        (List.range cols).foldl (fun e j => e.setAcc mode op.base m j (out j)) e
      -- the two sums differ only where an error from outside has struck (R162)
      some (if fails then s.updStrand n fun x => x.checkFailed m else s)
  | .mld fmt =>
    let g := tagElems (mldCode fmt)
    let nb := (cols + g - 1) / g
    if s.rowPoisoned c op m nb then none
    else
      let vals := s.decodeBlocks c [mldCode fmt] g addr nb
      some (s.updEngine c fun e => (List.range cols).foldl (fun e j =>
        e.setAcc mode op.base m j (f.roundTo rne (vals.getD j (.nan false))).1) e)
  | .mst fmt =>
    let code := mstCode fmt
    let g := tagElems code
    let vals := (List.range cols).map fun j => f.decode (e.accBits mode op.base m j)
    let packs := (List.range ((cols + g - 1) / g)).map fun b => packBlock code rne ((vals.drop (b * g)).take g)
    let s := ((List.range packs.length).zip packs).foldl (fun s p =>
      let a := addr + 64 * p.1
      (s.spadWrite c false a (bytesOf 64 p.2.block.toNat)).spadSetTag c false a p.2.tag) s
    some (if packs.any fun p => !p.sat.isEmpty then s.updStrand n fun x => x.setKBits 15 [m] else s)

/-- The rows of an operation. -/
def MatOp.rows (op : MatOp) : Nat :=
  match op.kind with
  | .mzero count => count
  | .mldw _ | .mswap => 0
  | .mmac _ | .mld _ | .mst _ => shapeM op.shape

/-- The planes change places (R156). -/
def MatrixEngine.swap (e : MatrixEngine) : MatrixEngine :=
  { e with active := e.shadow, shadow := { e.active with state := 0#2 } }

/-- Rows from `m` up, at most `fuel` of them: the state, and the row that poison stopped at. -/
def matRows (c n : Nat) (op : MatOp) : (fuel : Nat) → (m : Nat) → State → State × Option Nat
  | 0, _, s => (s, none)
  | fuel + 1, m, s =>
    match s.matRow c n op m with
    | none => (s, some m)
    | some s => matRows c n op fuel (m + 1) s

/-- The row errors that an operation meets are over with it. -/
def State.upsetDone (s : State) (c : Nat) (op : MatOp) : State :=
  match op.kind with
  | .mmac _ => s.updEngine c fun e => { e with upset := [] }
  | .mldw _ | .mswap | .mld _ | .mst _ | .mzero _ => s

/-- An operation stops at a row, the rows below it done: a failing row counts, which stops an `mmac` in checked mode
alone (R162, R256). -/
def State.stopRow (s : State) (c n : Nat) (op : MatOp) (m : Nat) (rest : List MatOp) : State :=
  let t := s.upsetDone c op
  (if s.rowFails c n op m then t.updStrand n fun x => x.checkFailed m else t).stopMatrix c op.pc m rest

/-- The engine completes the oldest operation of its queue (R149), unless the scoreboard holds it; or
stops it at a row (R161). A weight load leaves the queue as it starts, once its plane is not loading. -/
def State.matrixComplete (s : State) (c : Nat) : State :=
  match (s.core c).engine.holder, (s.core c).engine.queue with
  | some n, op :: rest =>
    match op.kind with
    | .mldw p =>
      if (s.core c).engine.shadow.state = 1#2 then s
      else s.updEngine c fun e => { e.startLoad p with queue := rest }
    | _ =>
    if s.boardHeld c op.sbOp then s
    else
      match matRows c n op (op.rows - op.start) op.start s with
      | (t, some m) => t.stopRow c n op m rest
      | (t, none) =>
        let t := match op.kind with
          | .mswap => t.updEngine c MatrixEngine.swap
          | _ => t.upsetDone c op
        (t.boardRetire c op.sbOp).updEngine c fun e => ({ e with queue := rest } : MatrixEngine).settle
  | _, _ => s

def execMatrixOpComplete (core : Nat) (s : State) : Host.Outcome State Fault Refusal :=
  .next (s.matrixComplete core)

/-- An uncorrectable error stops the oldest operation at a row, the rows below it done (R161). -/
def State.matrixError (s : State) (c row : Nat) : State :=
  match (s.core c).engine.holder, (s.core c).engine.queue with
  | some n, op :: rest =>
    if s.boardHeld c op.sbOp ∨ row < op.start ∨ op.rows ≤ row then s
    else
      match matRows c n op (row - op.start) op.start s with
      | (t, some m) => t.stopRow c n op m rest
      | (t, none) => (t.upsetDone c op).stopMatrix c op.pc row rest
  | _, _ => s

def execMatrixErrorStop (core row : Nat) (s : State) : Host.Outcome State Fault Refusal :=
  .next (s.matrixError core row)

/-! Raw rows and the check record (R159, R162). -/

/-- What `mrd` and `mwr` check: the frozen vector unit (R215), the holder, SEW, the range, MSTOP; they
take effect after every older operation. -/
def State.rawIssue (s : State) (base : Nat) (p : BitVec 2) : Except Stop Unit := do
  s.vectorIssue true p
  s.matrixIssue
  demand (decide (2 ≤ s.me.sew.toNat)) cIllegalState
  demand (decide (128 * base + s.me.vl.toNat * s.me.width / 8 ≤ 262144)) cIllegalState
  demand (!s.me.mstopValid) cUncorrectable
  waitUnless s.engine.idle

/-- The row and bit of element `e` at width `w` from a base row. -/
def rawPlace (base w e : Nat) : Nat × Nat := (base + e * w / 1024, e * w % 1024)

/-- `mrd` (R159). -/
def State.mrd (s : State) (vd : VReg) (base : Nat) (k : KReg) : State :=
  let x := s.me
  let w := x.width
  let es := x.activeElems k
  let get (e : Nat) : BitVec w :=
    let (r, o) := rawPlace base w e
    (lookupD s.engine.acc r 0#1024).extractLsb' o w
  let v := es.foldl (fun v e => putElement v e (get e)) (x.vreg vd)
  let tag : Tag := if w = 32 then 0x7F06#16 else 0x7F07#16
  let s := if es.isEmpty then s else
    s.updMe fun x => (x.setV vd v).tagSegs vd (segsOf w es) tag
  (s.updMe fun x => x.vectorDone (some vd)).matrixDone

def execMrd (vd : VReg) (rb : SReg) (k : KReg) (_hint : BitVec 2) (s : State) :
    Host.Outcome State Fault Refusal :=
  let s := s.updMe Strand.bindHere
  finish s 0#3 (do
    s.rawIssue (s.sreg rb).toNat 0#2
    .ok (s.mrd vd (s.sreg rb).toNat k))

/-- `mwr` (R159): a poisoned source stops it at a whole row (R22, R257). -/
def State.mwr (s : State) (base : Nat) (vc : VReg) (p : BitVec 2) (k : KReg) : State :=
  let x := s.me
  let w := x.width
  let es := x.activeElems k
  let src := x.vreg vc
  let put (g : MatrixEngine) (e : Nat) : MatrixEngine :=
    let (r, o) := rawPlace base w e
    { g with acc := putAt g.acc r (putSlice (lookupD g.acc r 0#1024) o (repElement src p w e : BitVec w)) }
  match es with
  | [] => (s.updMe fun x => x.vectorDone none).matrixDone
  | e :: _ =>
    if x.poisonV.contains vc.toNat then
      let row := 1024 / w
      let s := s.updMe fun x => x.vectorStop none (max x.vstart.toNat (e / row * row))
      s.raise s.cur cUncorrectable s.me.pc 0#64
    else
      let s := s.updEngine x.core fun g => es.foldl put g
      (s.updMe fun x => x.vectorDone none).matrixDone

def execMwr (rb : SReg) (vc : VReg) (p : BitVec 2) (k : KReg) (_hint : BitVec 2) (s : State) :
    Host.Outcome State Fault Refusal :=
  let s := s.updMe Strand.bindHere
  finish s 0#3 (do
    s.rawIssue (s.sreg rb).toNat p
    .ok (s.mwr (s.sreg rb).toNat vc p k))

/-- The record `mchk` returns (R162). -/
def Strand.checkWord (x : Strand) : Word :=
  BitVec.ofNat 64 ((if x.mstopValid then 2 ^ 63 else 0) + x.mchkRow.toNat * 2 ^ 48 +
    x.mchkLost.toNat * 2 ^ 40 + x.mchkFail.toNat * 2 ^ 16 + x.mchkCount.toNat)

/-- `mchk` (R162): it waits for the strand's older operations, and keeps the checkpoint. -/
def State.mchk (s : State) (rd : SReg) : Except Stop State := do
  s.hasEngine
  waitUnless (!(s.engine.holder == some s.cur) || s.engine.idle)
  let v := s.me.checkWord
  let s := s.updMe fun x => { x with
    mstopValid := false, mstopAddr := 0#57, mchkRow := 0#11, mchkLost := 0#8, mchkFail := 0#11
    mchkCount := 0#16, vstart := 0#32 }
  .ok (s.setS rd v).retire

def execMchk (rd : SReg) (s : State) : Host.Outcome State Fault Refusal :=
  let s := s.updMe Strand.bindHere
  finish s 0#3 (s.mchk rd)

end Sys2Proof.Machine
end

