-- ==== Sys2Proof/Machine/Copy.lean ====
section
/-! DEFINITION. Copies (R135 to R140), collectives (R238 to R242), the remote reduce store (R243) and
absorbs (R279): how each is issued, and the events by which the engines carry it out. -/

namespace Sys2Proof.Machine

/-! The bytes of a copy. -/

/-- Where byte `b` of a source row goes in its destination row (R136, R138). -/
def CopyArgs.dstOff (a : CopyArgs) (b : Nat) : Nat :=
  match a.split with
  | none => b
  | some (fields, w) => b / w % fields * (a.rb / fields) + b / (fields * w) * w + b % w

/-- The addresses of a copy's bytes, destination and source, row by row. -/
def CopyArgs.pairs (a : CopyArgs) : List (Word × Word) :=
  (List.range a.rows).flatMap fun i => (List.range a.rb).map fun b =>
    (a.dst + BitVec.ofNat 64 i * a.dstr + BitVec.ofNat 64 (a.dstOff b),
     a.src + BitVec.ofNat 64 i * a.sstr + BitVec.ofNat 64 b)

/-- A block copy (R137). -/
def CopyArgs.isBlock (a : CopyArgs) : Bool :=
  a.split.isNone && a.dspace != 2#2 && a.sspace != 2#2 && decide (a.rb % 64 = 0) &&
  [a.dst, a.src, a.dstr, a.sstr].all fun w => w.extractLsb' 0 6 == 0#6

/-- The arguments of an operation, its ends as those of a copy. -/
def EngineKind.args : EngineKind → CopyArgs
  | .copy a => a
  | .coll _ _ _ fmt count dst src dsp ssp _ =>
    let w := if fmt = 0 ∨ fmt = 5 then 8 else if fmt = 1 ∨ fmt = 4 then 4 else 2
    { rows := 1, rb := count * w, dst := dst, src := src, dstr := 0#64, sstr := 0#64
      dspace := dsp, sspace := ssp, split := none }
  | .absorb _ src len =>
    { rows := 1, rb := len, dst := 0#64, src := src, dstr := 0#64, sstr := 0#64
      dspace := 0#2, sspace := 0#2, split := none }
  | .rred _ _ _ _ =>
    { rows := 0, rb := 0, dst := 0#64, src := 0#64, dstr := 0#64, sstr := 0#64
      dspace := 0#2, sspace := 0#2, split := none }

/-! Issue. -/

/-- Every byte of a scratchpad end is checked (R129). -/
def State.endOk (s : State) (space : BitVec 2) (l : List Word) : Except Stop Unit :=
  if space = 0#2 then .ok ()
  else match l.findSome? fun a =>
      (s.spadCheck s.me.owner.toNat s.me.core (space == 2#2) a.toNat).map fun c => (c, a) with
    | some (c, a) => .error (.trap c a)
    | none => .ok ()

/-- The striped blocks of a scratchpad end; none of a global one (R143). -/
def endBlocks (c : Nat) (space : BitVec 2) (l : List Word) : List Nat :=
  if space = 0#2 then [] else (l.map fun a => spadOffset c (space == 2#2) a.toNat / 64).eraseDups

/-- The two tags of an operation are distinct and complete (R140). -/
def State.tagsFree (s : State) (rtag atag : BitVec 6) : Except Stop Unit :=
  demand (rtag != atag && !s.me.pending rtag.toNat && !s.me.pending atag.toNat) cTagMisuse

/-- The entries of an operation, if the scoreboard has room for them (R143, R146). -/
def State.boardEnds (s : State) (id : Nat) (reads writes : List Nat) : Except Stop State := do
  let c := s.me.core
  if reads.isEmpty then .ok () else s.boardEntry c s.cur
  let s := s.boardAdd c s.cur id false reads
  if writes.isEmpty then .ok () else s.boardEntry c s.cur
  .ok (s.boardAdd c s.cur id true writes)

/-- An operation enters its engine. -/
def State.startOp (s : State) (id : Nat) (kind : EngineKind) (scope : BitVec 3) (rtag atag : BitVec 6) :
    State :=
  let op : EngineOp :=
    { kind := kind, strand := s.cur, tenant := s.me.owner.toNat, core := s.me.core, scope := scope
      rtag := rtag, atag := atag, released := false, buffer := [], btags := [], written := false
      status := 0#8, failAt := 0, awaiting := [], answered := [], denied := []
      region := s.me.region, sbOp := id, ended := 0#8 }
  { s with ops := insertAt s.ops id op }

/-- `cpy` and `cpyd` (R136, R138): `split` gives the fields and their width in bytes. DESIGN CHOICE (log 84): row bytes
that are no whole records raise before TAG_MISUSE, and of two scratchpad ends that fail the destination's first failing
byte gives the cause. -/
def State.copy (s : State) (split : Option (Nat × Nat)) (scope : BitVec 3) (dsp ssp : BitVec 2)
    (ra rb rc : SReg) (rtag atag : BitVec 6) : Except Stop State := do
  let q := s.sreg ra
  let z := s.sreg (ra + 1#5)
  let bytes := (q.extractLsb' 24 24).toNat
  demand (q.extractLsb' 0 24 == 0#24) cIllegalState
  demand (match split with
    | some (f, w) => decide (bytes % (f * w) = 0)
    | none => true) cIllegalState
  s.tagsFree rtag atag
  let a : CopyArgs :=
    { rows := (q.extractLsb' 48 16).toNat, rb := bytes, dst := s.sreg rb, src := s.sreg rc
      dstr := (z.extractLsb' 32 32).signExtend 64, sstr := (z.extractLsb' 0 32).signExtend 64
      dspace := dsp, sspace := ssp, split := split }
  let dsts := a.pairs.map (·.1)
  let srcs := a.pairs.map (·.2)
  s.endOk dsp dsts
  s.endOk ssp srcs
  let take (s : State) : State := (s.takeTag s.cur rtag.toNat).takeTag s.cur atag.toNat
  if a.rows = 0 ∨ a.rb = 0 then
    .ok (((take s).completeTag s.cur rtag.toNat 0).completeTag s.cur atag.toNat 0).retire
  else do
    let (id, s) := s.fresh
    let c := s.me.core
    let s ← s.boardEnds id (endBlocks c ssp srcs) (endBlocks c dsp dsts)
    .ok ((take s).startOp id (.copy a) scope rtag atag).retire

/-- An instruction with a scratchpad end binds its strand (R132). -/
def State.bindEnds (s : State) (dsp ssp : BitVec 2) : State :=
  if dsp = 0#2 ∧ ssp = 0#2 then s else s.updMe Strand.bindHere

def execCpy (scope : BitVec 3) (dsp ssp : BitVec 2) (ra rb rc : SReg) (rtag atag : BitVec 6)
    (s : State) : Host.Outcome State Fault Refusal :=
  let s := s.bindEnds dsp ssp
  finish s 0#3 (s.copy none scope dsp ssp ra rb rc rtag atag)

def execCpyd (width : BitVec 2) (fields : BitVec 3) (scope : BitVec 3) (dsp ssp : BitVec 2)
    (ra rb rc : SReg) (rtag atag : BitVec 6) (s : State) : Host.Outcome State Fault Refusal :=
  let s := s.bindEnds dsp ssp
  finish s 0#3
    (s.copy (some (fields.toNat + 1, 2 ^ width.toNat)) scope dsp ssp ra rb rc rtag atag)

/-! Collectives (R238 to R240). -/

/-- The member entries of a descriptor (R239). -/
def membersOf (l : List Byte) : List Member :=
  (List.range ((descWord l 8).toNat % 512)).map fun m =>
    let a := descWord l (0x40 + 16 * m)
    let b := descWord l (0x48 + 16 * m)
    { launch := a.extractLsb' 0 32, package := a.extractLsb' 32 12, domain := a.extractLsb' 44 3
      tenant := a.extractLsb' 48 8, count := (b.extractLsb' 0 16).toNat }

/-- The participants a descriptor counts (R239). -/
def participantsOf (l : List Byte) : Nat := ((membersOf l).map (·.count)).sum

/-- A descriptor obeys R239. -/
def descriptorOk (l : List Byte) : Bool :=
  let n := (descWord l 8).toNat
  descWord l 0 != 0#64 && decide (1 ≤ n ∧ n ≤ 256) &&
  ((List.range 6).all fun i => descWord l (0x10 + 8 * i) == 0#64) &&
  ((List.range n).all fun m =>
    let a := descWord l (0x40 + 16 * m)
    let b := descWord l (0x48 + 16 * m)
    !a.getLsbD 47 && a.extractLsb' 56 8 == 0#8 && decide (1 ≤ b.toNat ∧ b.toNat ≤ 16384)) &&
  decide (participantsOf l ≤ 32768)

/-- Read `n` words of ordinary memory in ascending order, with the faults of `ld` (R240). -/
def State.readWords (s : State) (va : Word) : (n : Nat) → Except Stop (List Byte × State)
  | 0 => .ok ([], s)
  | n + 1 => do
    let tgt ← s.resolve s.me.owner.toNat s.me.core va
      { way := .vector, read := true, write := false, exec := false, width := 8, scope := none } true
    let (l, s) ← s.bytesAt va tgt 8 false false
    demand (s.windowAnswer n tgt 2 == 0) cPeerGone va
    let (r, s) ← s.readWords (va + 8#64) n
    .ok (l ++ r, s)

/-- A group has lost a participant: one has ended, or its package is gone (R242). -/
def State.groupEnded (s : State) (key : Nat) (ms : List Member) : Bool :=
  (s.group key).ended || ms.any fun m =>
    (s.strands.any fun e => e.2.ended && s.participates e.1 m) ||
    (m.domain == s.domain && m.package != s.package && (s.peer m.package.toNat).state == 2#2)

/-- The bytes of an element of a format code (R238). -/
def collWidth (fmt : Nat) : Nat :=
  if fmt = 0 ∨ fmt = 5 then 8 else if fmt = 1 ∨ fmt = 4 then 4 else 2

/-- `coll` (R240). -/
def State.coll (s : State) (op : BitVec 3) (fmt : BitVec 4) (scope : BitVec 3) (dsp ssp : BitVec 2)
    (ra rb rc : SReg) (rtag atag : BitVec 6) : Except Stop State := do
  let q := s.sreg ra
  let gd := s.sreg (ra + 1#5)
  let count := (q.extractLsb' 0 32).toNat
  let seq := q.extractLsb' 32 32
  let dst := s.sreg rb
  let src := s.sreg rc
  let w := collWidth fmt.toNat
  demand (decide (count ≠ 0 ∧ count ≤ 2 ^ 20)) cIllegalState
  demand (decide (gd.toNat % 64 = 0)) cAlignment gd
  let (head, s) ← s.readWords gd 8
  let (body, s) ← s.readWords (gd + 64#64) (2 * ((descWord head 8).toNat % 512))
  let d := head ++ body
  let key := descWord d 0
  let ms := membersOf d
  demand (descriptorOk d && ms.any (s.participates s.cur)) cIllegalState
  demand (!hasKey s.me.lastColl key.toNat ||
    decide ((lookupD s.me.lastColl key.toNat 0#32).toNat < seq.toNat)) cIllegalState
  demand (decide (dst.toNat % w = 0)) cAlignment dst
  demand (decide (src.toNat % w = 0)) cAlignment src
  s.tagsFree rtag atag
  let kind : EngineKind := .coll key seq op.toNat fmt.toNat count dst src dsp ssp d
  let dsts := kind.args.pairs.map (·.1)
  let srcs := kind.args.pairs.map (·.2)
  s.endOk dsp dsts
  s.endOk ssp srcs
  let ended := s.groupEnded key.toNat ms
  let (id, s) := s.fresh
  let c := s.me.core
  let s ← if ended then .ok s else s.boardEnds id (endBlocks c ssp srcs) (endBlocks c dsp dsts)
  let s := (s.takeTag s.cur rtag.toNat).takeTag s.cur atag.toNat
  let s := s.updGroup key.toNat fun g => { g with members := (g.members ++ ms).eraseDups, ended := ended }
  let s := s.updMe fun x => { x with lastColl := insertAt x.lastColl key.toNat seq }
  let s := if ended then
      (s.completeTag s.cur rtag.toNat kPeerLost).completeTag s.cur atag.toNat kPeerLost
    else s.startOp id kind scope rtag atag
  .ok s.dropCheckpoint.retire

def execColl (op : BitVec 3) (fmt : BitVec 4) (scope : BitVec 3) (dsp ssp : BitVec 2)
    (ra rb rc : SReg) (rtag atag : BitVec 6) (s : State) : Host.Outcome State Fault Refusal :=
  let s := s.bindEnds dsp ssp
  finish s (maskOf true false false) (s.coll op fmt scope dsp ssp ra rb rc rtag atag)

/-! The remote reduce store (R243). -/

/-- The element width of a format code of `rred`. -/
def rredBits (fmt : BitVec 2) : Nat := if fmt = 0#2 ∨ fmt = 3#2 then 32 else 16

/-- `rred` at issue: it reads its vector then, and works in a handler that has not claimed. -/
def State.rred (s : State) (fmt : BitVec 2) (scope : BitVec 3) (rb : SReg) (vc : VReg) (rd : SReg)
    (tag : BitVec 6) (p : BitVec 2) (k : KReg) : Except Stop State := do
  let x := s.me
  let w := rredBits fmt
  let scale := (s.sreg rd).toInt
  demand (x.vstart == 0#32) cIllegalState
  demand (!(p == 3#2 && x.mvl == 256#16)) cIllegalState
  demand (decide (x.width = w)) cIllegalState
  demand (decide (-64 ≤ scale ∧ scale ≤ 63) && (fmt != 3#2 || scale == 0)) cIllegalState
  demand (decide ((s.sreg rb).toNat % (w / 8) = 0)) cAlignment (s.sreg rb)
  demand (!x.pending tag.toNat) cTagMisuse
  let es := x.activeElems k
  demand (es.isEmpty || !x.poisonV.contains vc.toNat) cUncorrectable
  let v := x.vreg vc
  let vals : Table (BitVec 32) := es.map fun e => (e, (repElement v p w e : BitVec w).setWidth 32)
  let (id, s) := s.fresh
  let s := s.takeTag s.cur tag.toNat
  let s := if vals.isEmpty then s.completeTag s.cur tag.toNat 0
    else s.startOp id (.rred fmt (s.sreg rb) scale vals) scope tag tag
  .ok s.dropCheckpoint.retire

def execRred (fmt : BitVec 2) (scope : BitVec 3) (rb : SReg) (vc : VReg) (rd : SReg) (tag : BitVec 6)
    (p : BitVec 2) (k : KReg) (_hint : BitVec 2) (s : State) : Host.Outcome State Fault Refusal :=
  finish s 0#3 (s.rred fmt scope rb vc rd tag p k)

/-! What an engine meets at the bytes of an end. -/

/-- Where a byte leads, or what stands in the way. -/
inductive ByteFate where
  | go (tgt : Target)
  | bad (cause : Nat)
  | gone (va : Word) (level : Nat)
  | pinned (va : Word) (level : Nat)
  | busy
  deriving DecidableEq, Repr

/-- The access of an engine. -/
def engineAccess (read write : Bool) (width : Nat) : Access :=
  { way := .engine, read := read, write := write, exec := false, width := width, scope := none }

/-- What becomes of a target that its home may refuse. -/
def ByteFate.home (x : Target) : Except Stop Unit → ByteFate
  | .ok _ => .go x
  | .error (.trap c _) => .bad c
  | .error _ => .busy

/-- One address of an operation's end: a scratchpad end was checked at issue, and its die may refuse it (R265);
a page that was denied is not resident (R139). -/
def State.endFate (s : State) (o : EngineOp) (space : BitVec 2) (a : Access) (va : Word) : ByteFate :=
  if space ≠ 0#2 then
    let x := Target.spad o.core (space == 2#2) va.toNat
    .home x (s.homeRefuses o.tenant a va x)
  else if o.denied.contains (va.extractLsb' 16 41) then .bad cNotResident
  else match s.resolve o.tenant o.core va a false with
    | .ok x => .go x
    | .error (.trap c _) => .bad c
    | .error (.miss v l) => .gone v l
    | .error (.pinMiss v l) => .pinned v l
    | .error .wait | .error .entry | .error .conflict => .busy

/-- The cause of the lowest-addressed failing byte (R139). -/
def lowestBad (l : List (Word × ByteFate)) : Option Nat :=
  let bad := l.filterMap fun p => match p.2 with
    | .bad c => some (p.1.toNat, c)
    | .pinned _ _ => some (p.1.toNat, cPinMiss)
    | _ => none
  match bad with
  | [] => none
  | b :: r => some (r.foldl (fun m p => if p.1 < m.1 then p else m) b).2

/-- The pages that are not resident, each once, ascending (R197). -/
def gonePages (mask : BitVec 3) (l : List (Word × ByteFate)) : List PageMiss :=
  let gone := l.filterMap fun p => match p.2 with
    | .gone v level => some (v, level)
    | _ => none
  ((gone.map fun p => p.1.toNat / 65536).eraseDups.mergeSort).filterMap fun p =>
    (gone.find? fun g => g.1.toNat / 65536 == p).map fun g =>
      { va := g.1, level := g.2, mask := mask, count := 1 }

/-- Pages reported for reading and for writing, one entry a page, which the operation has touched once
(R199). -/
def mergePages (a b : List PageMiss) : List PageMiss :=
  let both := a.map fun m => match b.find? fun n => n.page == m.page with
    | some n => { m with mask := m.mask ||| n.mask, count := max m.count n.count }
    | none => m
  (both ++ b.filter fun n => !(a.any fun m => m.page == n.page)).mergeSort
    fun m n => m.va.toNat ≤ n.va.toNat

/-- An operation reports its pages, at most 16, and pauses for their verdicts (R139, R197, R203). -/
def State.reportOp (s : State) (id : Nat) (o : EngineOp) (l : List PageMiss) : State :=
  let tail := (s.tenant o.tenant).fqTail
  let (seqs, s) := (l.take 16).foldl (fun (acc : List (BitVec 48) × State) m =>
    let stale := (acc.2.tenant o.tenant).staleCount o.answered m.page
    let (q, s) := acc.2.fqReport o.tenant (m.entry true (o.strand % strandMax) stale 0#2) (.op id)
    (acc.1 ++ q.toList, s)) ([], s)
  (s.fqNotify o.tenant tail).updOp id fun y => { y with awaiting := seqs, answered := [] }

/-- A page that a pinned tenant misses is entered for the record (R194). -/
def State.recordPinned (s : State) (o : EngineOp) (mask : BitVec 3) (l : List (Word × ByteFate)) :
    State :=
  match l.findSome? fun p => match p.2 with
    | .pinned v level => some (v, level)
    | _ => none with
  | none => s
  | some (v, level) =>
    s.recordMiss o.tenant (({ va := v, level := level, mask := mask, count := 1 } : PageMiss).entry true
      (o.strand % strandMax) 0#16 3#2)

/-- An operation is held: verdicts are awaited, or a fault of it has not been written. -/
def State.opPaused (s : State) (id : Nat) (o : EngineOp) : Bool :=
  !o.awaiting.isEmpty || (s.tenant o.tenant).fqHolding.any fun h => h.who == .op id

/-! Reading a source. -/

/-- Read bytes of checked targets one by one, each with the tag of its block, and the causes met with their
addresses (R139). -/
def State.readEnds (s : State) (id : Nat) (o : EngineOp) : List (Word × Target) →
    List (Byte × Tag) × List (Word × ByteFate) × State
  | [] => ([], [], s)
  | (va, x) :: r =>
    let s := s.settleTarget o.strand x
    let bad (s : State) (c : Nat) : List (Byte × Tag) × List (Word × ByteFate) × State :=
      let (l, f, s) := s.readEnds id o r
      (l, (va, .bad c) :: f, s)
    match s.raceTarget o.strand o.region va x 1 false false (some id) with
    | .error (.trap c _) => bad s c
    | .error _ => bad s cIllegalState
    | .ok t =>
      if t.poisonedAt (some (dieOfCore o.core)) x 1 then bad t cUncorrectable
      else if t.windowAnswer 1 x 2 ≠ 0 then bad t cPeerGone
      else
        let (l, f, t) := t.readEnds id o r
        (((t.readTarget x 1).headD 0#8, t.tagTarget x) :: l, f, t)

/-- The race checks of bytes to be written: the state with their records, and the causes met. -/
def State.raceEnds (s : State) (id : Nat) (o : EngineOp) : List (Word × Target) →
    List (Word × ByteFate) × State
  | [] => ([], s)
  | (va, x) :: r =>
    match s.raceTarget o.strand o.region va x 1 true false (some id) with
    | .error e =>
      let (f, s) := s.raceEnds id o r
      ((va, .bad (match e with
        | .trap c _ => c
        | _ => cIllegalState)) :: f, s)
    | .ok s => s.raceEnds id o r

/-- The targets of fates that all lead somewhere. -/
def goTargets (l : List (Word × ByteFate)) : List (Word × Target) :=
  l.filterMap fun p => match p.2 with
    | .go x => some (p.1, x)
    | _ => none

/-- Where an address of an end lies among blocks (R130, R131). -/
def blockPlace (c : Nat) (space : BitVec 2) (va : Word) : Nat :=
  if space = 0#2 then va.toNat else spadOffset c (space == 2#2) va.toNat

/-- A byte is the first of its block. -/
def startsBlock (c : Nat) (space : BitVec 2) (va : Word) : Bool := decide (blockPlace c space va % 64 = 0)

/-- The reads of an operation retire (R143), and its region closes for them (R182). -/
def State.boardRelease (s : State) (o : EngineOp) : State :=
  (s.updCore o.core fun x => { x with board := x.board.filter fun e =>
    !(e.op == o.sbOp && !e.write) }).sweepRaces

/-- The source has been read: the release tag completes (R142). -/
def State.releaseOp (s : State) (id : Nat) (o : EngineOp) (bytes : List Byte) (tags : List Tag) : State :=
  ((s.completeTag o.strand o.rtag.toNat 0).updOp id fun o =>
    { o with released := true, buffer := bytes, btags := tags }).boardRelease o

/-- The bytes of a source have been read: what the operation does with them. -/
def State.sourceRead (s : State) (id : Nat) (o : EngineOp) (l : List (Byte × Tag)) : State :=
  let bytes := l.map (·.1)
  match o.kind with
  | .copy a =>
    let tags := (a.pairs.zip l).filterMap fun p =>
      if startsBlock o.core a.dspace p.1.1 then some p.2.2 else none
    s.releaseOp id o bytes tags
  | .coll key seq op fmt count _ _ _ _ digest =>
    let g := s.group key.toNat
    let s := s.updGroup key.toNat fun g => { g with contribs := g.contribs ++
      [{ seq := seq, op := op, fmt := fmt, count := count, digest := digest, bytes := bytes
         source := some id }] }
    if g.lostSeqs.contains seq || (g.ended && !(g.results.any fun r => r.1 == seq)) then s.failOp id o kPeerLost
    else match g.results.find? fun r => r.1 == seq with
      | some r => s.failOp id o r.2.1.toNat
      | none => s.releaseOp id o [] []
  | .absorb m _ _ =>
    (s.updSeal m fun r => if r.state = 1#3 ∨ r.state = 2#3 then { r with bytes := r.bytes ++ bytes } else r
      ).doneOp id o
  | .rred _ _ _ _ => s

/-- The pages of fates that an operation reports: none once one of its pages has been denied. -/
def EngineOp.reports (o : EngineOp) (l : List PageMiss) : List PageMiss := if o.denied.isEmpty then l else []

/-- The status a destination fails with: the cause of its lowest-addressed failing byte, whatever check it
fails (R139). -/
def State.destCause (s : State) (id : Nat) (o : EngineOp) (dst : List (Word × ByteFate)) : Option Nat :=
  lowestBad (dst ++ (s.raceEnds id o (goTargets dst)).1)

/-- An operation notes that it reads a host window (R229). -/
def State.readsWindow (s : State) (id : Nat) (src : List (Word × ByteFate)) : State :=
  if (goTargets src).any fun p => p.2 matches .window _ _ then s.updOp id fun o => { o with windowed := true } else s

/-- A collective's result would go to the control region: its engine moves nothing (R59). -/
def State.collControl (s : State) (o : EngineOp) : Bool :=
  match o.kind with
  | .coll _ _ _ _ _ _ _ dsp _ _ =>
    dsp == 0#2 && o.kind.args.pairs.any fun p => s.meetsControl o.tenant p.1
  | .copy _ | .absorb _ _ _ | .rred _ _ _ _ => false

/-- Read the source of an operation, unless something stands in the way: an older entry, a verdict, a
chain that is being changed. A missing page of either end is reported; a copy fails for either end, a
destination first (R139). -/
def State.readSource (s : State) (id : Nat) (o : EngineOp) : State :=
  let a := o.kind.args
  if s.opPaused id o || s.boardHeldFor o.core o.sbOp false then s
  else if s.collControl o then s.failOp id o cControlAuthority
  else
    let src := (a.pairs.map (·.2)).map fun va => (va, s.endFate o a.sspace (engineAccess true false 1) va)
    let both := match o.kind with
      | .copy _ => true
      | _ => false
    let dst := if both then
        (a.pairs.map (·.1)).map fun va => (va, s.endFate o a.dspace (engineAccess false true 1) va)
      else []
    let all := dst ++ src
    if all.any fun p => p.2 == .busy then s
    else
      let r := gonePages (maskOf true false false) src
      let w := gonePages (maskOf false true false) dst
      match o.reports (mergePages r w) with
      | m :: l => s.reportOp id o (m :: l)
      | [] =>
        let (l, bad, t) := s.readEnds id o (goTargets src)
        match (s.destCause id o dst).or (lowestBad (src ++ bad)) with
        | some c =>
          ((s.recordPinned o (maskOf false true false) dst).recordPinned o (maskOf true false false) src
            ).tornOp o |>.failOp id o c
        | none => (t.readsWindow id src).sourceRead id o l

/-- Every source byte is read (R136, R240), or the operation fails or ends. -/
def State.copyRelease (s : State) (id : Nat) : State :=
  match s.findOp id with
  | none => s
  | some o =>
    let mine := match o.kind with
      | .copy _ | .coll _ _ _ _ _ _ _ _ _ _ => true
      | .rred _ _ _ _ | .absorb _ _ _ => false
    if !mine || o.released then s
    else if o.ended ≠ 0#8 then s.failOp id o o.ended.toNat
    else s.readSource id o

def execCopyReleaseComplete (id : Nat) (s : State) : Host.Outcome State Fault Refusal :=
  .next (s.copyRelease id)

/-- An absorb is hashed, after the earlier ones of its record (R279). -/
def State.absorbDone (s : State) (id : Nat) : State :=
  match s.findOp id with
  | none => s
  | some o =>
    match o.kind with
    | .absorb m _ _ =>
      let earlier := s.ops.any fun e => decide (e.1 < id) && match e.2.kind with
        | .absorb k _ _ => k == m
        | _ => false
      if o.ended ≠ 0#8 then (s.tornOp o).failOp id o o.ended.toNat
      else if earlier then s
      else s.readSource id o
    | _ => s

def execSealAbsorbComplete (id : Nat) (s : State) : Host.Outcome State Fault Refusal :=
  .next (s.absorbDone id)

/-! Writing a destination. -/

/-- Bytes that an operation writes to a target: a remote package's memory takes them after the stores posted
before (R172, R179); a vine write of a strand whose VINE is not 0 is dropped, counted, and shows in the tags
(R252). -/
def State.opWrite (s : State) (id : Nat) (o : EngineOp) (va : Word) (x : Target) (bytes : List Byte)
    (tag : Option Tag) : State :=
  match x with
  | .remote pa _ =>
    let s := s.remoteDrain
    { s with
      peerMem := writeBytes s.peerMem pa bytes
      peerTags := match tag with
        | some t => putAt s.peerTags (pa / 64) t
        | none => s.peerTags }
  | .vine c off _ =>
    let lost := (s.strand o.strand).vineLost != 0#32
    let s := s.vineSend o.strand c va off bytes tag (some id)
    if lost then s.updOp id fun o => { o with status := BitVec.ofNat 8 cChainBroken } else s
  | x => s.writeTarget o.strand va x bytes tag (some id)

/-- Write bytes to checked targets one by one, each with the tag its block takes. DESIGN CHOICE (log 73): each
byte is a vine write of its own, since R247 gives a copy's write no size. -/
def State.writeEnds (s : State) (id : Nat) (o : EngineOp) (l : List ((Word × Target) × Byte × Option Tag)) :
    State := l.foldl (fun s p => s.opWrite id o p.1.1 p.1.2 [p.2.1] p.2.2) s

/-- The tags of a copy's bytes: 0 for every block when it has read a host window (R229); a block copy's blocks carry
their sources' (R137); a `cpyd` gives a block the tag of the source of its byte 0 (R138), and one whose byte 0 it does
not write a tag that the manual does not state (log 4); every other copy gives 0. A collective's result is a byte
copy. -/
def State.copyTags (s : State) (o : EngineOp) (a : CopyArgs) (heads : List Nat) :
    List Word → List Tag → List (Option Tag)
  | [], _ => []
  | va :: r, tags =>
    let starts := startsBlock o.core a.dspace va
    let keep := a.isBlock || a.split.isSome
    let rest := s.copyTags o a heads r (if starts then tags.drop 1 else tags)
    let t := if o.windowed || !keep then some 0#16
      else if starts then some (tags.headD 0#16)
      else if a.isBlock then none
      else
        let block := blockPlace o.core a.dspace va / 64
        if heads.contains block then none
        else some ((s.free (block % 65536)).setWidth 16)
    t :: rest

/-- A vine write of an operation has not been accepted. -/
def State.opInChain (s : State) (id : Nat) : Bool :=
  s.chains.any fun e => e.2.inflight.any fun w => w.op == some id

/-- What was written is accepted everywhere: the arrival tag completes (R142, R247). -/
def State.settleOp (s : State) (id : Nat) : State :=
  match s.findOp id with
  | none => s
  | some o =>
    if !o.written || s.opInChain id then s
    else if o.status ≠ 0#8 then s.failOp id o o.status.toNat
    else s.doneOp id o

/-- Write the destination of an operation. -/
def State.writeDest (s : State) (id : Nat) (o : EngineOp) : State :=
  let a := o.kind.args
  if s.opPaused id o || s.boardHeldFor o.core o.sbOp true then s
  else
    let vas := a.pairs.map (·.1)
    let dst := vas.map fun va => (va, s.endFate o a.dspace (engineAccess false true 1) va)
    if dst.any fun p => p.2 == .busy then s
    else match o.reports (gonePages (maskOf false true false) dst) with
      | m :: l => s.reportOp id o (m :: l)
      | [] => match s.destCause id o dst with
        | some c => (s.recordPinned o (maskOf false true false) dst).failOp id o c
        | none =>
          let heads := (vas.filter (startsBlock o.core a.dspace)).map fun va => blockPlace o.core a.dspace va / 64
          let tags := s.copyTags o a heads vas o.btags
          let t := (s.raceEnds id o (goTargets dst)).2
          ((t.writeEnds id o ((goTargets dst).zip (o.buffer.zip tags))).updOp id fun o =>
            { o with written := true }).settleOp id

/-- Every destination byte is written and visible, or the operation fails or ends (R136, R240). -/
def State.copyArrival (s : State) (id : Nat) : State :=
  match s.findOp id with
  | none => s
  | some o =>
    let mine := match o.kind with
      | .copy _ | .coll _ _ _ _ _ _ _ _ _ _ => true
      | .rred _ _ _ _ | .absorb _ _ _ => false
    if !mine || !o.released || o.buffer.isEmpty then s
    else if o.ended ≠ 0#8 then s.failOp id o o.ended.toNat
    else if o.written then s.settleOp id
    else s.writeDest id o

def execCopyArrivalComplete (id : Nat) (s : State) : Host.Outcome State Fault Refusal :=
  .next (s.copyArrival id)

/-! Results of collectives (R127, R241, R242). -/

/-- The floating-point format of a format code. -/
def collFmt (fmt : Nat) : Fmt :=
  match fmt with
  | 0 => fp64
  | 1 => fp32
  | 2 => fp16
  | _ => bf16

/-- A contribution in fixed point, as a multiple of 2 to the -160 (R127). -/
def toFixed (x : FVal) : FVal :=
  match x with
  | .fin n m e =>
    if leDyadic 1 144 m e then .inf n
    else .fin n (roundAt rne n m e false (-160)).1 (-160)
  | y => y

/-- Negative zero as it was contributed. -/
def isNegZero : FVal → Bool
  | .fin n m _ => n && m == 0
  | _ => false

/-- The sum of contributions to an element (R127): a zero sum is negative only when every contribution
was a negative zero. -/
def fixedSum (f : Fmt) (l : List FVal) : Nat :=
  match exactSum (l.map toFixed) with
  | .fin _ 0 _ => f.signBit (l.all isNegZero)
  | z => (f.roundTo rne z).1

/-- One element of a result (R241). -/
def collElem (op fmt : Nat) (l : List Nat) : Nat :=
  if 4 ≤ fmt then
    let w := 8 * collWidth fmt
    let xs := l.map fun x => (BitVec.ofNat w x).toInt
    let z := match op with
      | 0 => xs.sum
      | 1 => xs.foldl min (xs.headD 0)
      | _ => xs.foldl max (xs.headD 0)
    (BitVec.ofInt w z).toNat
  else
    let f := collFmt fmt
    match op with
    | 0 => fixedSum f (l.map f.decode)
    | _ => l.foldl (fun a x => (f.minMax (op == 2) a x).1) (l.headD 0)

/-- The result of contributions of one shape. -/
def collResult (op fmt count : Nat) (cs : List Contribution) : List Byte :=
  let w := collWidth fmt
  (List.range count).flatMap fun i =>
    bytesOf w (collElem op fmt (cs.map fun c => natOfBytes ((c.bytes.drop (w * i)).take w)))

/-- The operations here that have contributed to a sequence of a key. -/
def State.collOps (s : State) (key : Word) (seq : BitVec 32) : List (Nat × EngineOp) :=
  s.ops.filter fun e => e.2.released && match e.2.kind with
    | .coll k q _ _ _ _ _ _ _ _ => k == key && q == seq
    | _ => false

/-- Every operation that has contributed fails, one that a kill ends with its own code (R139). -/
def State.failColl (s : State) (key : Word) (seq : BitVec 32) (status : Nat) : State :=
  (s.collOps key seq).foldl (fun s e =>
    s.failOp e.1 e.2 (if e.2.ended = 0#8 then status else e.2.ended.toNat)) s

/-- The root forms the result of a sequence, or finds its contributions differ (R240, R241). -/
def State.collDeliver (s : State) (key : Word) (seq : BitVec 32) : State :=
  let g := s.group key.toNat
  match g.contribs.filter fun c => c.seq == seq with
  | [] => s
  | c :: r =>
    if g.lostSeqs.contains seq || g.results.any (fun x => x.1 == seq) then s
    else
      let drop (g : Group) : Group := { g with contribs := g.contribs.filter fun c => c.seq != seq }
      let record (s : State) (st : Nat) : State := s.updGroup key.toNat fun g =>
        { drop g with results := g.results ++ [(seq, BitVec.ofNat 8 st, [])] }
      if r.any fun d => d.op != c.op || d.fmt != c.fmt || d.count != c.count || d.digest != c.digest then
        (record s cIllegalState).failColl key seq cIllegalState
      else if (c :: r).length < participantsOf c.digest then s
      else
        let out := collResult c.op c.fmt c.count (c :: r)
        let ids := (s.collOps key seq).map (·.1)
        let s := record s 0
        { s with ops := mapTable s.ops fun i o => if ids.contains i then { o with buffer := out } else o }

def execCollResultDeliver (key : Word) (seq : BitVec 32) (s : State) :
    Host.Outcome State Fault Refusal := .next (s.collDeliver key seq)

/-- The lost sequences of a key complete at every participant here that contributed (R242). -/
def State.collLost (s : State) (key : Word) : State :=
  let lost := (s.group key.toNat).lostSeqs
  let s := lost.foldl (fun s q => s.failColl key q kPeerLost) s
  s.updGroup key.toNat fun g => { g with contribs := g.contribs.filter fun c => !lost.contains c.seq }

def execCollGroupLost (key : Word) (s : State) : Host.Outcome State Fault Refusal :=
  .next (s.collLost key)

/-! Elements of `rred` (R243). -/

/-- What an element becomes. -/
def rredNew (fmt : BitVec 2) (scale : Int) (old v : Nat) : Nat :=
  if fmt = 3#2 then (old + v) % 2 ^ 32
  else
    let f := if fmt = 0#2 then fp32 else if fmt = 1#2 then bf16 else fp16
    (f.roundTo rne (exactSum [f.decode old, fvScale (f.decode v) scale])).1

/-- An element has been added, or has failed; the last one completes the tag. -/
def State.rredEnd (s : State) (id elem : Nat) (failed : Option Nat) : State :=
  let s := s.updOp id fun o =>
    let first := o.status == 0#8 || decide (elem < o.failAt)
    { o with
      kind := match o.kind with
        | .rred f d x es => .rred f d x (removeAt es elem)
        | k => k
      status := match failed with
        | some c => if first then BitVec.ofNat 8 c else o.status
        | none => o.status
      failAt := if failed.isSome ∧ first then elem else o.failAt }
  match s.findOp id with
  | some o => match o.kind with
    | .rred _ _ _ [] => s.failOp id o o.status.toNat
    | _ => s
  | none => s

/-- An element arrives at its home. -/
def State.rredAdd (s : State) (id elem : Nat) : State :=
  match s.findOp id with
  | none => s
  | some o =>
    match o.kind with
    | .rred fmt dst scale es =>
      if o.ended ≠ 0#8 then s.failOp id o o.ended.toNat
      else if s.opPaused id o || !hasKey es elem then s
      else
        let w := rredBits fmt / 8
        let at_ (e : Nat) : Word := dst + BitVec.ofNat 64 (e * w)
        let va := at_ elem
        -- an end in the control region: nothing is moved (R59)
        if es.any fun e => s.meetsControl o.tenant (at_ e.1) then s.failOp id o cControlAuthority else
        let f := s.endFate o 0#2 (engineAccess true true w) va
        match f with
        | .busy => s
        | .gone v l => s.reportOp id o [{ va := v, level := l, mask := maskOf true true false, count := 1 }]
        | .pinned _ _ =>
          (s.recordPinned o (maskOf true true false) [(va, f)]).rredEnd id elem (some cPinMiss)
        | .bad c => s.rredEnd id elem (some c)
        | .go x =>
          let s := match x with
            | .vine c _ _ => s.vineDrainAll c
            | x => s.settleTarget o.strand x
          match s.raceTarget o.strand o.region va x w true true (some id) with
          | .error (.trap c _) => s.rredEnd id elem (some c)
          | .error _ => s
          | .ok s =>
            if s.poisonedAt none x w then s.rredEnd id elem (some cUncorrectable)
            else if s.windowAnswer 1 x 2 ≠ 0 then s.rredEnd id elem (some cPeerGone)
            else
              let new := rredNew fmt scale (natOfBytes (s.readTarget x w)) (lookupD es elem 0#32).toNat
              let s := s.opWrite id o va x (bytesOf w new) none
              let s := match x with
                | .vine c _ _ => s.vineDrainAll c
                | _ => s
              s.rredEnd id elem none
    | _ => s

def execRredElementAdd (id elem : Nat) (s : State) : Host.Outcome State Fault Refusal :=
  .next (s.rredAdd id elem)

end Sys2Proof.Machine
end

