-- ==== Sys2Proof/Machine/EventsControl.lean ====
section
/-! DEFINITION. Package events that are stores to control pages by the host or a strand (R54, R60, R62,
R66, R74, R75, R77, R85, R99, R110, R198, R201, R228, R245, R249, R260, R269, R270, R274, R290), and the
steps that complete such actions (R67, R75, R85, R197, R247, R249, R269). -/

namespace Sys2Proof.Machine

/-- A strand may issue: it is running, or stopping in an instruction it has issued, and holds a slot
(R67, R78, R96). -/
def State.canIssue (s : State) (n : Nat) : Bool :=
  let x := s.strand n
  !s.halted && (x.state == 1#4 || (x.state == 2#4 && x.wait.holdsStop)) && x.place.isSome

/-- A host access that is refused (R62, R226). -/
def State.hostRefused (s : State) : State := { s with hosterr := s.hosterr + 1#32 }

/-- The host port carries an access of the host. -/
def State.hostReaches (s : State) : Bool := s.linkUp

/-- The package has booted as far as the host is concerned: phase 6, no phase failed (R288). -/
def State.booted (s : State) : Bool := s.bootPhase == 6#4 && s.bootResult == 0#8

/-- A host access waits for its page, or for the ones received before it (R60, R227). -/
def State.hostWaits (s : State) (held : Bool) : Bool := held || !s.hostQueue.isEmpty

/-- A host access joins those received before it. -/
def State.hostQueued (s : State) (a : HostAccess) : State := { s with hostQueue := s.hostQueue ++ [a] }

/-- The pages of level-0 leaves under a table, as page numbers (R186). -/
def State.pagesFrom (s : State) (t : Nat) : (level table page : Nat) → List Nat
  | 0, table, page => ((List.range 32).filter fun i => (s.readEntry t (table + 8 * i)).getLsbD 0).map (32 * page + ·)
  | l + 1, table, page =>
    let n := if l = 2 then 8192 else if l = 1 then 2048 else 4096
    (List.range n).flatMap fun i => match s.pointerTarget (s.readEntry t (table + 8 * i)) (l + 1) with
      | some p => s.pagesFrom t l p (n * page + i)
      | none => []
  termination_by structural level => level

/-- A strand's tenant maps a control word for stores (R57, R63, R64). -/
def State.mapsControl (s : State) (n pa : Nat) : Bool :=
  let t := (s.strand n).owner.toNat
  (s.pagesFrom t 3 (localOf ((s.tenant t).root.toNat * 65536)) 0).any fun p =>
    match s.translate t (BitVec.ofNat 64 (65536 * p + pa % 65536))
      { way := .scalar, read := false, write := true, exec := false, width := 8, scope := none } with
    | .ok (.control q) => q == pa
    | _ => false

/-- A strand may store to a control word now: it may issue and is in no instruction, maps the page, and its
release is allowed and waits for nothing (R60, R63, R252). -/
def State.strandStores (s : State) (n pa : Nat) : Bool :=
  s.canIssue n && (s.strand n).wait == .none && s.mapsControl n pa && (s.strand n).vineLost == 0#32 &&
  !s.releaseWaits n 2

/-- What a control store leaves of the strand that made it, PC apart (R60, R68, R258): a release; it waits for
its action, unless the action is taken on itself. -/
def State.storedBy (s : State) (n pa : Nat) : State :=
  if (s.strand n).ended || (s.strand n).state == 0#4 then s
  else
    let s := s.updStrand n fun x => { x with ckpt := { x.ckpt with valid := false } }
    if s.actPending pa ∧ !onOwnPage n pa then s.updStrand n fun x => { x with wait := .act pa }
    else s.newRegion n

/-- An agent's control store to a local address whose action is `act`: the host's is refused until boot
is over and counted when refused (R62, R288), a strand's needs a strand that may make it; it waits while
the page is held (R60), the host's in line (R227); a refused one changes nothing else. -/
def State.agentAct (s : State) (who : Agent) (pa : Nat) (v : Word) (act : State → Except Nat State) :
    State :=
  match who with
  | .host =>
    if !s.hostReaches then s
    else if !s.booted then s.hostRefused
    else if s.hostWaits (s.pageHeld none pa v) then s.hostQueued (.control (pa - controlBase) 8 (some v))
    else match act s with
      | .ok t => t
      | .error _ => s.hostRefused
  | .strand n =>
    if !s.strandStores n pa || s.pageHeld (some n) pa v then s
    else match act s with
      | .ok t => t.storedBy n pa
      | .error _ => s

/-- The strand an agent is, for the limits of R64. -/
def agentOf : Agent → Option Nat
  | .host => none
  | .strand n => some n

/-- An agent's control store of a word. -/
def State.agentStore (s : State) (who : Agent) (pa : Nat) (v : Word) : State :=
  if pa % 8 ≠ 0 then s.agentAct who pa v fun _ => .error cAlignment
  else s.agentAct who pa v fun s => s.controlStore (agentOf who) pa v

/-! Local addresses of the control pages (R52). -/
def diePage (d : Nat) : Nat := 0xF0001000000 + d * 65536
def hubPage : Nat := 0xF0001040000
def tenantPage (t : Nat) : Nat := 0xF0002000000 + t * 65536
def queuePage (q : Nat) : Nat := 0xF0010000000 + q * 65536
def strandPage (n : Nat) : Nat := 0xF0100000000 + n * 131072
def counterPage (t : Nat) : Nat := 0xF0300000000 + t * 65536
def faultPage (t : Nat) : Nat := 0xF0301000000 + t * 65536
def chainPage (c : Nat) : Nat := 0xF0302000000 + c * 65536
def keyPage (k : Nat) : Nat := 0xF0303000000 + k * 65536

/-- The offset of a work identifier's record in its counter page (R83). -/
def recordOffset (id : BitVec 32) : Nat :=
  match workLevel id with
  | 0 => 0x5400 + 64 * workIndex id
  | 1 => 0x1400 + 64 * workIndex id
  | 2 => 0x400 + 64 * workIndex id
  | _ => 64 * workIndex id

/-! Strand actions (R66, R67). -/

/-- STRAND_STOP. -/
def execStrandStop (who : Agent) (n : Nat) (s : State) : Host.Outcome State Fault Refusal :=
  .next (s.agentStore who (strandPage n) 1#64)

/-- STRAND_STOP_COMPLETE. -/
def execStrandStopComplete (n : Nat) (s : State) : Host.Outcome State Fault Refusal :=
  .next (s.stopComplete n)

/-- STRAND_RESUME. -/
def execStrandResume (who : Agent) (n : Nat) (s : State) : Host.Outcome State Fault Refusal :=
  .next (s.agentStore who (strandPage n) 2#64)

/-- STRAND_STEP. -/
def execStrandStep (who : Agent) (n : Nat) (s : State) : Host.Outcome State Fault Refusal :=
  .next (s.agentStore who (strandPage n) 3#64)

/-- STRAND_KILL. -/
def execStrandKill (who : Agent) (n : Nat) (s : State) : Host.Outcome State Fault Refusal :=
  .next (s.agentStore who (strandPage n) 4#64)

/-- STRAND_KILL_COMPLETE. -/
def execStrandKillComplete (n : Nat) (s : State) : Host.Outcome State Fault Refusal :=
  .next (s.killComplete n)

/-! Stores without an action of their own, and the frame-kind table (R54, R56). -/

/-- CONTROL_FIELD_STORE. -/
def execControlFieldStore (who : Agent) (pa : Nat) (value : Word) (s : State) :
    Host.Outcome State Fault Refusal :=
  .next (s.agentStore who pa value)

/-- FRAME_KIND_STORE: only an address of the table (R55). -/
def execFrameKindStore (who : Agent) (pa : Nat) (value : Word) (s : State) :
    Host.Outcome State Fault Refusal :=
  if controlBase ≤ pa ∧ pa < kindTableEnd then .next (s.agentStore who pa value) else .next s

/-! Tenants and counters (R74, R75, R85, R274, R284). -/

/-- ACTIVATE. -/
def execActivate (who : Agent) (t : Nat) (s : State) : Host.Outcome State Fault Refusal :=
  .next (s.agentStore who (tenantPage t) 1#64)

/-- TEARDOWN. -/
def execTeardown (who : Agent) (t : Nat) (s : State) : Host.Outcome State Fault Refusal :=
  .next (s.agentStore who (tenantPage t + 0x60) 1#64)

/-- SCRUB_COMPLETE. -/
def execScrubComplete (t : Nat) (s : State) : Host.Outcome State Fault Refusal :=
  .next (s.scrubComplete t)

/-- MEASNOW. -/
def execMeasnow (who : Agent) (t : Nat) (s : State) : Host.Outcome State Fault Refusal :=
  .next (s.agentStore who (tenantPage t + 0x78) 1#64)

/-- COUNTER_CANCEL: a stale identifier changes nothing (R85). -/
def execCounterCancel (who : Agent) (t : Nat) (id : BitVec 32) (s : State) :
    Host.Outcome State Fault Refusal :=
  let pa := counterPage t + recordOffset id + 0x30
  if (s.findRecord t id).isNone ∧ s.hostWaits (s.pageHeld none pa 1#64) then .next s
  else .next (s.agentAct who pa 1#64 fun s => .ok (s.cancelRecord t id))

/-- CANCEL_COMPLETE. -/
def execCancelComplete (t : Nat) (id : BitVec 32) (s : State) : Host.Outcome State Fault Refusal :=
  .next (s.cancelComplete t id)

/-! Queue pages and the hub's modes (R77, R99, R110). -/

/-- QUEUE_ENABLE. -/
def execQueueEnable (who : Agent) (q : Nat) (s : State) : Host.Outcome State Fault Refusal :=
  .next (s.agentStore who (queuePage q) 1#64)

/-- QUEUE_DISABLE. -/
def execQueueDisable (who : Agent) (q : Nat) (s : State) : Host.Outcome State Fault Refusal :=
  .next (s.agentStore who (queuePage q) 0#64)

/-- QUEUE_VERDICT. -/
def execQueueVerdict (who : Agent) (q : Nat) (value : Word) (s : State) :
    Host.Outcome State Fault Refusal :=
  .next (s.agentStore who (queuePage q + 0x18) value)

/-- MODES_STORE. -/
def execModesStore (who : Agent) (value : Word) (s : State) : Host.Outcome State Fault Refusal :=
  .next (s.agentStore who (hubPage + 0x2000) value)

/-! Fault queue pages (R191, R197, R198, R201). -/

/-- FQ_REPLAY. -/
def execFqReplay (who : Agent) (t : Nat) (seq : BitVec 48) (s : State) :
    Host.Outcome State Fault Refusal :=
  .next (s.agentStore who (faultPage t + 0x10) (seq.setWidth 64))

/-- FQ_DENY. -/
def execFqDeny (who : Agent) (t : Nat) (seq : BitVec 48) (s : State) :
    Host.Outcome State Fault Refusal :=
  .next (s.agentStore who (faultPage t + 0x10) (putBit (seq.setWidth 64) 62 true))

/-- FQ_TSYNC_ALL. -/
def execFqTsyncAll (who : Agent) (t : Nat) (s : State) : Host.Outcome State Fault Refusal :=
  .next (s.agentStore who (faultPage t + 0x18) 1#64)

/-- FQ_TSYNC_PAGE. -/
def execFqTsyncPage (who : Agent) (t : Nat) (page : BitVec 41) (s : State) :
    Host.Outcome State Fault Refusal :=
  .next (s.agentStore who (faultPage t + 0x18) (fields [(16, page.toNat)]))

/-- HELD_FAULT_WRITE. -/
def execHeldFaultWrite (t : Nat) (s : State) : Host.Outcome State Fault Refusal :=
  .next (s.heldWrite t)

/-! Chains (R245, R247, R249). -/

/-- CHAIN_START. -/
def execChainStart (who : Agent) (c : Nat) (s : State) : Host.Outcome State Fault Refusal :=
  .next (s.agentStore who (chainPage c) 1#64)

/-- CHAIN_RELEASE. -/
def execChainRelease (who : Agent) (c : Nat) (s : State) : Host.Outcome State Fault Refusal :=
  .next (s.agentStore who (chainPage c) 2#64)

/-- LINKOP_REMOVE. -/
def execLinkopRemove (who : Agent) (c : Nat) (die : BitVec 3) (s : State) :
    Host.Outcome State Fault Refusal :=
  .next (s.agentStore who (chainPage c + 0x30) (fields [(62, 1), (56, die.toNat)]))

/-- LINKOP_APPEND. -/
def execLinkopAppend (who : Agent) (c : Nat) (die : BitVec 3) (base : BitVec 40) (s : State) :
    Host.Outcome State Fault Refusal :=
  .next (s.agentStore who (chainPage c + 0x30) (fields [(62, 2), (56, die.toNat), (16, base.toNat)]))

/-- CHAIN_APPEND_JOIN. -/
def execChainAppendJoin (c : Nat) (s : State) : Host.Outcome State Fault Refusal :=
  .next (s.chainJoin c)

/-- VINE_WRITE_ACCEPT. -/
def execVineWriteAccept (c : Nat) (s : State) : Host.Outcome State Fault Refusal :=
  .next (s.vineAcceptOne c)

/-! Dies and islands (R260 to R262, R290). -/

/-- DIE_FENCE: `forwarded` says how many of a chain's writes in flight its lost head had forwarded. -/
def execDieFence (who : Agent) (d : Nat) (forwarded : Table Nat) (s : State) :
    Host.Outcome State Fault Refusal :=
  .next (s.agentAct who (diePage d + 0x208) 1#64 fun s =>
    if 4 ≤ d then .error cIllegalState else .ok (s.dieFence d fun c => lookupD forwarded c 0))

/-- DIE_RESTORE. -/
def execDieRestore (who : Agent) (d : Nat) (s : State) : Host.Outcome State Fault Refusal :=
  .next (s.agentAct who (diePage d + 0x208) 2#64 fun s =>
    if 4 ≤ d then .error cIllegalState else s.dieRestore d)

/-- ISLAND_STORE. -/
def execIslandStore (who : Agent) (d i : Nat) (value : Word) (s : State) :
    Host.Outcome State Fault Refusal :=
  .next (s.agentAct who (diePage d + 0x400 + 8 * i) value fun s =>
    if 4 ≤ d ∨ 12 ≤ i then .error cIllegalState else s.islandStore d i value)

/-! Key slots and windows (R228, R269, R270). -/

/-- KEY_LOAD. -/
def execKeyLoad (who : Agent) (k : Nat) (s : State) : Host.Outcome State Fault Refusal :=
  .next (s.agentStore who (keyPage k) 1#64)

/-- KEY_ZEROISE. -/
def execKeyZeroise (who : Agent) (k : Nat) (s : State) : Host.Outcome State Fault Refusal :=
  .next (s.agentStore who (keyPage k) 2#64)

/-- KEY_ZEROISE_COMPLETE. -/
def execKeyZeroiseComplete (k : Nat) (s : State) : Host.Outcome State Fault Refusal :=
  .next (s.keyZeroiseComplete k)

/-- WIN_STORE. -/
def execWinStore (who : Agent) (w : Nat) (value : Word) (s : State) : Host.Outcome State Fault Refusal :=
  .next (s.agentAct who (hubPage + 0x800 + 8 * w) value fun s =>
    if 16 ≤ w ∨ !within value [(63, 38), (0, 0)] then .error cIllegalState else s.winStore w value)

end Sys2Proof.Machine
end

