-- ==== Sys2Proof/Machine/EventsQueue.lean ====
section
/-! DEFINITION. Package events of the queues: a wake, the five commands (R101, R102), graph admission
(R104), completion words (R103), a resource that frees, and the firmware watchdog (R111). -/

namespace Sys2Proof.Machine

/-- QUEUE_WAKE (R98): the engine reads PRODUCER and the next record. A queue stopped for want of a valid
copy goes on (R99). -/
def execQueueWake (q : Nat) (s : State) : Host.Outcome State Fault Refusal :=
  let x := s.queue q
  if x.woken ∧ !x.awaits ∧
      (x.state = 1#3 ∨ (x.state = 5#3 ∧ x.code.toNat = cIllegalState)) then
    .next ((s.updQueue q fun x => { x with woken := false }).readProducer q)
  else .next s

/-- What the engine makes of a record: refused with a code, waiting, or consumed. -/
inductive Parse where
  | refuse (code : Nat)
  /-- The record waits for something to become free; or only for a chain to relink. -/
  | hold
  | later
  | accept (s : State) (k : Command)

/-- The record a queue parses, with the copy it was read under: in state 2, with this operation, and no SIGNAL
awaiting a verdict. -/
def State.parsing (s : State) (q op : Nat) : Option (Vector Word 8 × Vector Word 8) :=
  let x := s.queue q
  match x.copy, x.current with
  | some c, some r => if x.state = 2#3 ∧ recordOp r = op ∧ !x.awaits then some (c, r) else none
  | _, _ => none

/-- A command is parsed, its tenant not barred (R102): what follows from the parse. A queue that is being
disabled does not wait (R99). -/
def State.runCommand (s : State) (q op : Nat) (parse : (t : Nat) → (copy r : Vector Word 8) → Parse) :
    State :=
  match s.parsing q op with
  | none => s
  | some (c, r) =>
    let t := (shadowWord c 1).toNat
    if (s.tenant t).barred then (s.failRecord q c r cQueueBarred).nextRecord q
    else match parse t c r with
      | .refuse code => (s.failRecord q c r code).nextRecord q
      | .hold => if (s.queue q).disabling then s.queueOff q else s.updQueue q fun x => { x with state := 3#3 }
      | .later => s
      | .accept s k => (s.consumeRecord q c k).nextRecord q

/-- The words a command does not use are zero (R101). -/
def unusedZero (r : Vector Word 8) (arg1 : Bool) : Bool :=
  (arg1 || shadowWord r 2 == 0#64) && [3, 4, 5, 7].all fun i => shadowWord r i == 0#64

/-- A completion word's address is 0, or aligned and translates (R101, R102): the code it meets. Another cause
fails the store itself, when it is made. -/
def State.wordCode (s : State) (t : Nat) (va : Word) (optional : Bool) : Option Nat :=
  if optional ∧ va = 0#64 then none
  else if va.toNat % 8 ≠ 0 then some cAlignment
  else match s.tenantWord t va true with
    | .error (.miss _ _) | .error (.pinMiss _ _) => some cNoMapping
    | .error (.trap c _) => if c = cNoMapping then some cNoMapping else none
    | .ok _ | .error .wait | .error .entry | .error .conflict => none

/-- The checks common to the commands, in the order of R102's table: the unused words, the command's own,
then CPL. -/
def State.commandChecks (s : State) (t : Nat) (r : Vector Word 8) (arg1 : Bool) (own : Option Nat) :
    Option Nat :=
  if !unusedZero r arg1 then some cIllegalEncoding
  else match own with
    | some c => some c
    | none => s.wordCode t (shadowWord r 6) true

/-- CMD_JOB (R101). -/
def execCmdJob (q : Nat) (s : State) : Host.Outcome State Fault Refusal :=
  .next (s.runCommand q 1 fun t _ r =>
    let n := (shadowWord r 1).toNat
    let busy := (s.accepting t (s.queue q).job).isSome
    match s.commandChecks t r false (if n < 1 ∨ 64 < n ∨ busy then some cIllegalState else none) with
    | some code => .refuse code
    | none => match s.allocRecord t 3 { Record.empty with target := BitVec.ofNat 32 n } with
      | none => .hold
      | some (id, s') =>
        .accept (s'.updQueue q fun x => { x with job := some (t, id) }) (commandOf t r id))

/-- A phase of a job is not complete (R101). -/
def State.phaseOpen (s : State) (t : Nat) (job : BitVec 32) : Bool :=
  (s.tenant t).records.any fun e => e.2.parent == some job && (e.2.state == 1#3 || e.2.state == 3#3)

/-- CMD_PHASE (R101). DESIGN CHOICE (log 67): one that arrives while an earlier phase of the queue still accepts
graphs, and for which it would not wait, is out of sequence. -/
def execCmdPhase (q : Nat) (s : State) : Host.Outcome State Fault Refusal :=
  .next (s.runCommand q 2 fun t _ r =>
    let n := (shadowWord r 1).toNat
    match s.accepting t (s.queue q).job with
    | none => .refuse ((s.commandChecks t r false (some cIllegalState)).getD cIllegalState)
    | some job =>
      let waits := s.phaseOpen t job.ident
      let out := decide (n < 1 ∨ 256 < n) || (!waits && (s.accepting t (s.queue q).phase).isSome)
      match s.commandChecks t r false (if out then some cIllegalState else none) with
      | some code => .refuse code
      | none =>
        if waits then .hold
        else match s.allocRecord t 2
            { Record.empty with target := BitVec.ofNat 32 n, parent := some job.ident } with
          | none => .hold
          | some (id, s') =>
            .accept ((s'.submitted t job.ident).updQueue q fun x => { x with phase := some (t, id) })
              (commandOf t r id))

/-! Graphs (R104). -/

/-- 64 bytes of a descriptor in OWNER's tables, read as a load reads them (R104), the `j`-th of a record's, or
what becomes of its record. DESIGN CHOICE (log 68): a cause that R102 does not list refuses it with that cause. -/
def State.tenantBytes (s : State) (t j : Nat) (va : Word) : Except Parse (List Byte) :=
  match s.resolve t 0 va { way := .vector, read := true, write := false, exec := false, width := 64
                           scope := none } false with
  | .ok x =>
    let s := s.settleAll x
    if s.poisonedAt (some 4) x 64 then .error (.refuse cUncorrectable)
    else if s.windowAnswer j x 2 ≠ 0 then .error (.refuse cPeerGone)
    else .ok (s.readTarget x 64)
  | .error .wait | .error .entry | .error .conflict => .error .later
  | .error (.miss _ _) | .error (.pinMiss _ _) => .error (.refuse cNoMapping)
  | .error (.trap c _) => .error (.refuse c)

/-- The bits of a node's graph fields that are not reserved are its only ones (R104); the low bits of a FLOW
that is valid are its alignment. -/
def graphFieldsOk (l : List Byte) : Bool :=
  within (descWord l 0x28) [(63, 63), (56, if (descWord l 0x28).getLsbD 63 then 0 else 3)] &&
  within (descWord l 0x30) [(63, 60), (56, 6)] &&
  descWord l 0x38 == 0#64

/-- Node `j` of a graph against the copy in force: the code it breaks (R88, R102, R104). -/
def State.nodeCode (s : State) (t : Nat) (copy : Vector Word 8) (j : Nat) (l : List Byte) : Option Nat :=
  let nd := nodeOf l
  let limits := shadowWord copy 3
  let below : Word := BitVec.ofNat 64 (2 ^ j - 1)
  let kindBit := if nd.kind then 17 else 16
  if !s.launchable t l || !graphFieldsOk l || (nd.pred ||| nd.stream) &&& ~~~below != 0#64 ||
      nd.pred &&& nd.stream != 0#64 then some cIllegalState
  else if nd.flow.any fun a => a.extractLsb' 0 3 != 0#3 then some cAlignment
  else if (limits.extractLsb' 0 2).toNat < nd.prio.toNat ||
      nd.dies &&& ~~~(limits.extractLsb' 8 4) != 0#4 || !limits.getLsbD kindBit ||
      decide ((limits.extractLsb' 20 16).toNat < nd.count) then some cPermission
  else none

/-- The nodes of a graph descriptor, or what becomes of its record. -/
def State.graphNodes (s : State) (t : Nat) (copy : Vector Word 8) (va : Word) : Except Parse (List Node) := do
  if va.toNat % 64 ≠ 0 then .error (.refuse cAlignment) else
  let h ← s.tenantBytes t 0 va
  let n := (descWord h 0).toNat
  if n < 1 ∨ 64 < n ∨ (h.drop 8).any (· != 0#8) then .error (.refuse cIllegalState) else
  let l ← (List.range n).mapM fun j => s.tenantBytes t (j + 1) (va + BitVec.ofNat 64 (64 * (j + 1)))
  match (List.range n).findSome? fun j => s.nodeCode t copy j (l.getD j []) with
  | some code => .error (.refuse code)
  | none => .ok (l.map nodeOf)

/-- A graph's record as it is admitted. -/
def graphRecord (phase : BitVec 32) (nodes : List Node) : Record :=
  { Record.empty with
    target := BitVec.ofNat 32 nodes.length, parent := some phase
    nodes := nodes.map fun n =>
      { node := n, queued := false, created := false, launch := none, outcome := none } }

/-- CMD_GRAPH (R101, R104). -/
def execCmdGraph (q : Nat) (s : State) : Host.Outcome State Fault Refusal :=
  .next (s.runCommand q 3 fun t copy r =>
    match s.accepting t (s.queue q).phase with
    | none => .refuse ((s.commandChecks t r false (some cIllegalState)).getD cIllegalState)
    | some phase =>
      match s.commandChecks t r false none with
      | some code => .refuse code
      | none => match s.graphNodes t copy (shadowWord r 1) with
        | .error p => p
        | .ok nodes =>
          if readyMax ≤ s.ready.length then .hold
          else match s.allocRecord t 1 (graphRecord phase.ident nodes) with
            | none => .hold
            | some (id, s') =>
              .accept ((s'.submitted t phase.ident).enqueueReady t id) (commandOf t r id))

/-- A WAIT's record is complete, retired or reallocated (R101). -/
def State.waitOver (s : State) (t : Nat) (id : BitVec 32) : Bool :=
  match s.findRecord t id with
  | none => true
  | some r => r.state == 0#3 || r.state == 2#3

/-- CMD_WAIT (R101). DESIGN CHOICE (log 74): the record is consumed when its wait ends, and until then stands in
state 3. -/
def execCmdWait (q : Nat) (s : State) : Host.Outcome State Fault Refusal :=
  .next (s.runCommand q 4 fun t _ r =>
    let id := workIdOf (shadowWord r 1)
    match s.commandChecks t r false (if id.isNone then some cIllegalState else none) with
    | some code => .refuse code
    | none =>
      if id.all fun i => s.waitOver t i then
        .accept s { commandOf t r 0#32 with done := true }
      else .hold)

/-- The SIGNAL whose store is next: every earlier command of the queue has completed (R101). DESIGN CHOICE (log 92):
their completion words need not have been written. -/
def Queue.nextSignal (x : Queue) : Option Command :=
  match x.pending.find? fun c => !c.done with
  | some c => if c.op = 5 ∧ c.waits = .none then some c else none
  | none => none

/-- The store of a SIGNAL (R101): a miss waits for its page's verdict, another failure completes it. -/
def State.signalStore (s : State) (q : Nat) (c : Command) : State :=
  let ends (s : State) (code : Nat) : State :=
    (s.updCommand q c.serial fun c => { c with done := true, refused := BitVec.ofNat 8 code }).dropSilent
  match s.storeFor c.tenant c.address (fun _ => c.value) (.command q c.serial) with
  | .done s => ends s 0
  | .failed code s => ends s code
  | .later => s
  | .reported w s => s.updCommand q c.serial fun c => { c with waits := w }

/-- CMD_SIGNAL (R101): a SIGNAL whose turn has come is stored, else the current record is admitted. -/
def execCmdSignal (q : Nat) (s : State) : Host.Outcome State Fault Refusal :=
  match (s.queue q).nextSignal with
  | some c => .next (s.signalStore q c)
  | none =>
    .next (s.runCommand q 5 fun t _ r =>
      match s.commandChecks t r true (s.wordCode t (shadowWord r 1) false) with
      | some code => .refuse code
      | none => .accept s (commandOf t r 0#32))

/-- The completion word of a command (R103). -/
def Command.word (c : Command) : Word :=
  fields [(63, 1), (40, c.failed.toNat), (32, c.refused.toNat), (0, c.ident.toNat)]

/-- A completed command is over: a JOB's record is retired with it (R83, R103). -/
def State.commandOver (s : State) (q : Nat) (c : Command) : State :=
  let s := if c.op = 1 ∧ c.ident ≠ 0#32 then
      s.updRecord c.tenant (recordKey c.ident) Record.retire else s
  s.updQueue q fun x => { x with pending := x.pending.filter fun k => k.serial != c.serial }

/-- COMPLETION_WORD_WRITE (R103, R194): a miss waits for its page's verdict. DESIGN CHOICE (log 68): a word that
cannot be written is not, and its command is over. -/
def execCompletionWordWrite (q index : Nat) (s : State) : Host.Outcome State Fault Refusal :=
  match (s.queue q).pending.find? fun c => c.serial == index && c.done && c.waits == .none with
  | none => .next s
  | some c =>
    if c.cpl = 0#64 ∨ c.lost then .next (s.commandOver q c)
    else .next (match s.storeFor c.tenant c.cpl (fun _ => c.word) (.command q index) with
      | .done s | .failed _ s => s.commandOver q c
      | .later => s
      | .reported w s => s.updCommand q index fun c => { c with waits := w })

/-- What a queue in state 3 waits for has come (R101). -/
def State.queueFree (s : State) (q : Nat) : Bool :=
  let x := s.queue q
  match x.copy, x.current with
  | some c, some r =>
    let t := (shadowWord c 1).toNat
    (s.tenant t).barred || match recordOp r with
    | 1 => (s.freeRecord t 3).isSome
    | 2 => (s.freeRecord t 2).isSome && !(x.job.any fun j => j.1 == t && s.phaseOpen t j.2)
    | 3 => (s.freeRecord t 1).isSome && decide (s.ready.length < readyMax)
    | 4 => (workIdOf (shadowWord r 1)).all fun i => s.waitOver t i
    | _ => true
  | _, _ => true

/-- A record awaits the host's verdict, and its tenant has been barred meanwhile (R102). -/
def State.barredAwaiting (s : State) (q : Nat) : Bool :=
  let x := s.queue q
  x.state == 4#3 && !x.awaits && x.copy.any fun c => (s.tenant (shadowWord c 1).toNat).barred

/-- QUEUE_RESOURCE_FREE (R101): a queue in state 3 goes on. A record that awaits a verdict when its tenant is
barred completes (R102). -/
def execQueueResourceFree (q : Nat) (s : State) : Host.Outcome State Fault Refusal :=
  if (s.queue q).state = 3#3 ∧ s.queueFree q then
    .next (s.updQueue q fun x => { x with state := 2#3 })
  else if s.barredAwaiting q then .next (s.refuseRecord q cQueueBarred)
  else .next s

/-- The parse of a queue's current record starts again (R111): the record is read again, unless the host has
accepted it, its queue is being disabled, or a SIGNAL of the queue awaits a verdict. -/
def State.parseAgain (s : State) (q : Nat) : State :=
  let x := s.queue q
  if x.state = 2#3 ∧ !x.assisted ∧ !x.disabling ∧ !x.awaits then s.nextRecord q else s

/-- FIRMWARE_WATCHDOG (R111): the function restarts with its mode, the pages and admitted work unchanged;
a restart of F1 parses the current record of each queue in state 2 from its start. -/
def execFirmwareWatchdog (f : Nat) (s : State) : Host.Outcome State Fault Refusal :=
  if f = 1 then .next (s.queues.foldl (fun s e => s.parseAgain e.1) s) else .next s

end Sys2Proof.Machine
end

