-- ==== Sys2Proof/Machine/EventsDispatch.lean ====
section
/-! DEFINITION. Package events of the dispatcher and of residency: creating a launch (R79, R92, R93, R107,
R266), ageing (R107, R108), a strand becoming resident (R93 to R95, R291), and pre-emption (R96, R219). -/

namespace Sys2Proof.Machine

/-! Pools (R92, R266, R291). -/

/-- A core's cluster is on; a steward core runs with its die's fabric (R289, R291). -/
def State.clusterOn (s : State) (c : Nat) : Bool :=
  isSteward c || ((s.die (dieOfCore c)).islands.toList.getD (slotOfCore c / 4) Island.reset).state != 2#2

/-- What the dispatcher makes of an entry's pool as it leaves the ready pool. -/
inductive Pool where
  | cores (l : List Nat)
  | wait
  | failed (cause : Nat)
  deriving DecidableEq, Repr

/-- The pool of a node (R88, R92, R266, R291). -/
def State.takePool (s : State) (t : Nat) (nd : Node) : Pool :=
  let all := s.poolOf t nd
  let live := s.livePool all
  match live.filter fun c => s.latchAdmits t (dieOfCore c) with
  | [] => .failed (if live.length = all.length then cWorldRefused else cFencedDie)
  | open_ => match open_.filter s.clusterOn with
    | [] => .wait
    | l => .cores l

/-! Creating a launch (R79). -/

/-- The lowest run of consecutive free strand numbers (R79). -/
def State.freeRun (s : State) (n : Nat) : Option Nat :=
  let used := (s.strands.filter fun e => e.2.state != 0#4).map (·.1)
  (0 :: used.map (· + 1)).find? fun b =>
    decide (b + n ≤ strandMax) && used.all fun u => decide (u < b ∨ b + n ≤ u)

/-- The page of strand `i` of a launch (R15, R79, R93, R254). -/
def State.newStrand (s : State) (t : Nat) (id : BitVec 32) (nd : Node) (pool : List Nat) (i : Nat) :
    Strand :=
  { Strand.empty with
    state := 1#4, pc := nd.entry.setWidth 64, mvl := BitVec.ofNat 16 (256 * 2 ^ nd.mvl)
    launch := id, owner := BitVec.ofNat 8 t, tags := BitVec.allOnes 64
    s := ((Strand.empty.s.setIfInBounds 1 (BitVec.ofNat 64 i)).setIfInBounds 2
      (nd.args.setWidth 64)).setIfInBounds 3 (BitVec.ofNat 64 nd.count)
    checked := (s.tenant t).checked, index := i, pool := pool
    dealt := pool.getD (i % pool.length) 0, prio := nd.prio, cls := nd.prio
    region := s.nextRegion + 1, resumed := true }

/-- The strands of a launch, all together, its flow word opened first (R79, R105). -/
def State.createStrands (s : State) (t : Nat) (id : BitVec 32) (nd : Node) (pool : List Nat) (base : Nat) :
    State :=
  let s := (List.range nd.count).foldl (fun s' i => s'.setStrand (base + i) (s.newStrand t id nd pool i)) s
  ({ s with nextRegion := s.nextRegion + 1 }).updRecord t (recordKey id) fun r =>
    { r with base := base, count := nd.count }

/-- The flow word of a node that is created holds 0, before any of its strands runs (R105); its entry waits
while that store does (R194). DESIGN CHOICE (log 68): a word that cannot be written stays as it is. -/
def State.openFlow (s : State) (e : ReadyEntry) : Stored :=
  match e.node.flow with
  | some a => if e.skipFlow then .done s else s.storeFor e.tenant (a.setWidth 64) (fun _ => 0#64) (.entry e.id)
  | none => .done s

/-- A graph notes that one of its nodes has been created (R104). -/
def State.noteCreated (s : State) (t : Nat) (e : ReadyEntry) (id : BitVec 32) : State :=
  match e.index with
  | some i => s.updRecord t (recordKey e.graph) fun r =>
      { r with nodes := r.nodes.modify i fun n : GraphNode => { n with created := true, launch := some id } }
  | none => s

/-- The launch record of an entry: the one `launch` allocated, or a new one (R104). -/
def State.entryRecord (s : State) (e : ReadyEntry) : Option (BitVec 32 × State) :=
  match e.launch with
  | some id => some (id, s)
  | none => s.allocRecord e.tenant 0 (launchRecord e.node (some e.graph) e.index)

/-- An entry leaves the ready pool with its launch's record, its flow word open. -/
def State.takeEntry (s : State) (e : ReadyEntry) (id : BitVec 32) : State :=
  ({ s with ready := s.ready.filter fun x => x.id != e.id }).noteCreated e.tenant e id

/-- The entry's node is created, or counted failed, once its flow word is open; none when it is passed over. -/
def State.launchEntry (s : State) (e : ReadyEntry) (act : State → BitVec 32 → State) : Option State :=
  match s.openFlow e with
  | .done s | .failed _ s => (s.entryRecord e).map fun r => (act (r.2.takeEntry e r.1) r.1).refillReady
  | .later => none
  | .reported w s => some (s.updReady e.id fun e => { e with waits := w })

/-- An entry leaves the ready pool, its node created or counted failed; none when it is passed over. DESIGN CHOICE (log
92): so is a graph's node for which no launch record is free, which R107 does not name. -/
def State.createEntry (s : State) (e : ReadyEntry) : Option State :=
  let t := e.tenant
  let g := if e.graph = 0#32 then none else some e.graph
  if e.waits ≠ .none ∨ (s.entryRecord e).isNone then none
  else match s.takePool t e.node with
  | .wait => none
  | .failed cause => s.launchEntry e fun s id => (s.failLaunch t id cause).afterCount t g
  | .cores pool => match s.freeRun e.node.count with
    | none => none
    | some base => s.launchEntry e fun s id =>
      let s := s.createStrands t id e.node pool base
      match g with
      | some g => s.enqueueReady t g
      | none => s

/-- An entry that a blocking one keeps back: a later one of equal or lower class (R107). -/
def State.blockedEntry (s : State) (e : ReadyEntry) : Bool :=
  s.ready.any fun b => b.blocking && decide (b.id < e.id ∧ e.cls.toNat ≤ b.cls.toNat)

/-- The entries in the order in which the dispatcher tries them: by class, the oldest first (R107). -/
def State.readyOrder (s : State) : List ReadyEntry :=
  [3, 2, 1, 0].flatMap fun k => s.ready.filter fun e => e.cls.toNat == k

/-- DISPATCH_CREATE (R79, R88, R92, R107). -/
def execDispatchCreate (s : State) : Host.Outcome State Fault Refusal :=
  .next (((s.readyOrder.filter fun e => !s.blockedEntry e).findSome? s.createEntry).getD s)

/-- READY_ENTRY_AGE (R107): one class up, to class 3. -/
def execReadyEntryAge (id : Nat) (s : State) : Host.Outcome State Fault Refusal :=
  .next { s with ready := s.ready.map fun e =>
    if e.id = id then { e with cls := if e.cls = 3#2 then 3#2 else e.cls + 1#2 } else e }

/-- READY_ENTRY_BLOCKING (R107). -/
def execReadyEntryBlocking (id : Nat) (s : State) : Host.Outcome State Fault Refusal :=
  .next { s with ready := s.ready.map fun e => if e.id = id then { e with blocking := true } else e }

/-- STRAND_WAIT_AGE (R108). -/
def execStrandWaitAge (n : Nat) (s : State) : Host.Outcome State Fault Refusal :=
  let x := s.strand n
  if x.state = 1#4 ∧ x.place.isNone then
    .next (s.updStrand n fun x => { x with cls := if x.cls = 3#2 then 3#2 else x.cls + 1#2 })
  else .next s

/-! Residency (R93 to R95). -/

/-- Bytes of a strand's vector registers (R94). -/
def Strand.vecBytes (x : Strand) : Nat := 4 * x.mvl.toNat

/-- The vector states that a core's clusters hold besides a strand's own: cluster and bytes. A cluster is
0 to 3 packed, 4 and 5 for the pairs, 6 for the whole group (R94). -/
def State.heldStates (s : State) (c n : Nat) : List (Nat × Nat) :=
  (s.strands.filter fun e => e.1 != n && e.2.vres && e.2.core == c).map fun e =>
    (e.2.cluster, e.2.vecBytes)

/-- The clusters a code stands for. -/
def clustersOf (k : Nat) : List Nat :=
  if k < 4 then [k] else if k = 4 then [0, 1] else if k = 5 then [2, 3] else [0, 1, 2, 3]

/-- Room in a cluster, pair or group that already holds states in its mode (R94). -/
def roomIn (held : List (Nat × Nat)) (size k : Nat) : Bool :=
  let l := held.filter fun h => h.1 == k
  let share := (clustersOf k).length
  !l.isEmpty && decide (((l.map (·.2)).sum + size) / share ≤ 131072)

/-- All the clusters of a code are empty. -/
def emptyIn (held : List (Nat × Nat)) (k : Nat) : Bool :=
  !(held.any fun h => (clustersOf h.1).any fun c => (clustersOf k).contains c)

/-- The cluster a strand's state takes on a core, if there is room (R94). -/
def State.clusterFor (s : State) (c n : Nat) : Option Nat :=
  let x := s.strand n
  let held := s.heldStates c n
  if isSteward c then
    if (held.map (·.2)).sum + x.vecBytes ≤ 131072 then some 0 else none
  else
    let codes := if x.mvl.toNat ≤ 4096 then [0, 1, 2, 3] else if x.mvl.toNat ≤ 8192 then [4, 5] else [6]
    match codes.find? (roomIn held x.vecBytes) with
    | some k => some k
    | none => codes.find? (emptyIn held)

/-- The state that is spilled first: that of the strand longest not resident on the core (R95), a claimed
one never (R218). -/
def State.spillNext (s : State) (c n : Nat) : Option Nat :=
  let l := s.strands.filter fun e =>
    e.1 != n && e.2.vres && !e.2.claimed && e.2.place.isNone && e.2.core == c
  let oldest := l.foldl (fun m e => min m e.2.left.toNat) (2 ^ 64)
  (l.find? fun e => e.2.left.toNat == oldest).map (·.1)

/-- Make room for a strand's vector state, spilling others' as needed (R95, R220). -/
def State.makeRoom : Nat → State → Nat → Nat → Option (Nat × State)
  | fuel, s, c, n =>
    match s.clusterFor c n, fuel with
    | some k, _ => some (k, s)
    | none, 0 => none
    | none, fuel + 1 => match s.spillNext c n with
      | none => none
      | some m => State.makeRoom fuel (s.updStrand m fun x => { x with vres := false }) c n

/-- The lowest free strand slot of a core. -/
def State.freeSlot (s : State) (c : Nat) : Option Nat :=
  (List.range (strandSlots c)).find? fun k =>
    !(s.strands.any fun e => e.2.place == some { core := c, slot := k })

/-- Room for the vector state of a strand on a core, spilling others' as needed: the state with it, when
there is room (R94, R95, R220). -/
def State.takeRoom (s : State) (n c : Nat) : Option State :=
  match State.makeRoom s.strands.length s c n with
  | none => none
  | some (cl, s) => some (s.updStrand n fun x => { x with cluster := cl, vres := true })

/-- A strand that takes a slot again has its requests and entries on its core's scoreboard yet to make. -/
def State.seated (s : State) (n c : Nat) : State :=
  if (s.core c).boardLine.contains n || (s.core c).boardHold.contains n then
    s.updCore c fun x => { x with
      boardLine := x.boardLine.filter (· != n), boardHold := x.boardHold.filter (· != n) }
  else s

/-- Seat a strand on a core. The first time it takes a slot and room (R95). Later it takes a slot: a state
the core still holds is used in place, any other is spilled and takes room when an instruction needs it
(R93, R220). -/
def State.seat (s : State) (n c : Nat) : Option State :=
  let x := s.strand n
  match s.freeSlot c with
  | none => none
  | some k =>
    let held := x.vres && x.core == c
    match (if x.seated || held then some (s.updStrand n fun x => { x with vres := held }) else s.takeRoom n c) with
    | none => none
    | some s => some ((s.updStrand n fun x => { x with
        place := some { core := c, slot := k }, dealt := c, seated := true }).seated n c)

/-- The core a strand takes when it becomes resident: its bound core, or the one that holds its vector state
while it has claimed the unit; its dealt core the first time; else, or when that core is off, the
least-loaded of its pool (R93, R132, R218, R266, R291). -/
def State.seatCore (s : State) (n : Nat) : Option Nat :=
  let x := s.strand n
  match x.bound.or (if x.claimed ∧ x.vres then some x.core else none) with
  | some c => if s.latchAdmits x.owner.toNat (dieOfCore c) then some c else none
  | none =>
    let pool := (s.openPool x.owner.toNat x.pool).filter s.clusterOn
    if !x.seated && pool.contains x.dealt then some x.dealt else s.leastLoaded n x.dealt pool

/-- A strand waits for a slot. -/
def Strand.unseated (x : Strand) : Bool := x.state == 1#4 && x.place.isNone

/-- STRAND_RESIDENT (R95): strands become resident on a core in ascending number, as room allows. A
barrier marker fires when the strand issues its `bar` again (R221). -/
def execStrandResident (n : Nat) (s : State) : Host.Outcome State Fault Refusal :=
  if !(s.strand n).unseated then .next s
  else match s.seatCore n with
    | none => .next s
    | some c =>
      let first := !(s.strands.any fun e => decide (e.1 < n) && e.2.unseated &&
        s.seatCore e.1 == some c && (s.seat e.1 c).isSome)
      .next (if first then (s.seat n c).getD s else s)

/-- The element of least key, the first of equals. -/
def leastBy {α : Type} (key : α → Nat) : List α → Option α
  | [] => none
  | a :: l => match leastBy key l with
    | some b => some (if key a ≤ key b then a else b)
    | none => some a

/-- A strand that waits so may be pre-empted (R219, R280). -/
def Wait.atBoundary : Wait → Bool
  | .none | .sealClose _ _ _ | .peerSeal _ _ _ _ | .stopping => true
  | .act _ | .peerAct _ _ | .window | .cancel _ | .rollback => false

/-- A strand leaves its slot (R96, R108, R220). -/
def State.unseat (s : State) (n : Nat) : State :=
  s.updStrand n fun x => { x with place := none, cls := x.prio, left := s.time }

/-- The strand that a core pre-empts, and the one for whom it does (R96, R219): `heldLong` lists the strands that
have held their slot at least 50 µs, the longest first. One in the middle of an instruction that completes first
is not taken; a `seal.close` that waits goes on when its strand is resident again. -/
def State.preemptPair (s : State) (core : Nat) (heldLong : List Nat) : Option (Nat × Nat) :=
  let waits := (s.strands.filter fun e => e.2.waitsOn core).map (·.1)
  let seated := heldLong.filter fun n =>
    let x := s.strand n
    (x.place.map (·.core)) == some core && (x.state == 1#4 || x.state == 8#4) && x.wait.atBoundary
  match leastBy (fun n => (s.strand n).cls.toNat) seated, leastBy (fun n => 3 - (s.strand n).cls.toNat) waits with
  | some v, some w => some (v, w)
  | _, _ => none

/-- The waiting strand takes the slot of the other, if the core has room for it. -/
def State.preempt (s : State) (core v w : Nat) : Option State := (s.unseat v).seat w core

/-- PREEMPT (R96, R108, R219), at an instruction boundary. -/
def execPreempt (core : Nat) (heldLong : List Nat) (s : State) : Host.Outcome State Fault Refusal :=
  match s.preemptPair core heldLong with
  | some (v, w) => .next ((s.preempt core v w).getD s)
  | none => .next s

end Sys2Proof.Machine
end

