-- ==== Sys2Proof/Machine/EventsHost.lean ====
section
/-! DEFINITION. Package events of the host port (R62, R224 to R232), of reset, boot and firmware (R287,
R288, R294, R295), of the Trellis fabric (R234 to R237) and of power and heat (R292). -/

namespace Sys2Proof.Machine

/-! Completions of window requests (R229 to R232). -/

/-- The oldest request of a strand, with the others (R229). -/
def State.takeRequest (s : State) (n : Nat) : Option (WindowRequest × State) :=
  match s.requests.find? fun r => r.strand == n with
  | none => none
  | some r =>
    some (r, { s with requests := s.requests.eraseIdx (s.requests.findIdx fun r => r.strand == n) })

/-- A request that is answered with data retires its instruction (R229, R301). -/
def State.requestDone (s : State) (r : WindowRequest) (v : Word) : State :=
  if !r.live then s
  else
    let t := if r.acquire then s.newRegion r.strand else s
    let t := t.updStrand r.strand fun x =>
      { x with ckpt := if r.op.isSome then { x.ckpt with valid := false } else x.ckpt }
    s.issued (t.updStrand r.strand fun x => (x.setS r.rd v).retire r.npc) r.strand

/-- A request that fails raises a cause at its instruction, with its address (R229). -/
def State.requestFails (s : State) (r : WindowRequest) (cause : Nat) : State :=
  if !r.live then s
  else
    let s := s.updStrand r.strand fun x => { x with wait := .none }
    s.raise r.strand cause (s.strand r.strand).pc r.va

/-- A host atomic performed in the host's memory (R231, R300): the old value. -/
def State.hostAtomic (s : State) (r : WindowRequest) (op : Nat) : Word × State :=
  let old := wordOfBytes (readBytes s.hostMem r.host r.width)
  (old, if atomicWrites op r.width old r.expected then
      let new := bytesOf r.width (atomicWord op r.width old r.operand r.expected).toNat
      { s with hostMem := writeBytes s.hostMem r.host new }
    else s)

/-- A window's ROUTE byte (R232). -/
def State.setRoute (s : State) (w : Nat) (v : BitVec 8) : State :=
  { s with route := s.route.setIfInBounds w v }

/-- WINDOW_COMPLETION (R229, R231, R232). -/
def execWindowCompletion (n : Nat) (answer : Completion) (s : State) :
    Host.Outcome State Fault Refusal :=
  match s.takeRequest n with
  | none => .next s
  | some (r, s) => match r.op, answer with
    | none, .success =>
      .next (s.requestDone r (extendTo r.signed r.width
        (wordOfBytes (readBytes s.hostMem r.host r.width))))
    | none, .refusal => .next (s.requestFails r cPeerGone)
    | some op, .success =>
      let (old, s) := s.hostAtomic r op
      let s := if s.route.toList.getD r.window 0#8 = 0#8 then s.setRoute r.window 1#8 else s
      .next (s.requestDone r (sextLow (8 * r.width) old))
    | some _, .refusal => .next ((s.setRoute r.window 2#8).requestFails r cHostAtomic)

/-- A request ends without a completion (R229, R301): the host may have performed an atomic or not, by a free
choice. -/
def State.requestLost (s : State) (r : WindowRequest) (i : Nat) : State :=
  let s := match r.op with
    | some op => if s.choose i 2 = 0 then s else (s.hostAtomic r op).2
    | none => s
  s.requestFails r cPeerGone

/-- COMPLETION_TIMEOUT (R229, R232). -/
def execCompletionTimeout (n : Nat) (s : State) : Host.Outcome State Fault Refusal :=
  match s.takeRequest n with
  | none => .next s
  | some (r, s) => .next (s.requestLost r 4)

/-! Host accesses (R62, R224, R226). -/

/-- The BAR 0 offset of BOOT (R293). -/
def bootOffset : Nat := 0x1044000

/-- The host's answer to a read. -/
def State.hostAnswers (s : State) (l : List Byte) : State := { s with hostAnswer := .data l [] }

/-- A host read that is refused returns all ones (R62, R226). -/
def State.hostOnes (s : State) (size : Nat) : State :=
  s.hostRefused.hostAnswers (List.replicate size 0xFF#8)

/-- A host access through BAR 0 (R62, R288); none while its page is held (R60). -/
def State.hostControl (s : State) (offset size : Nat) (data : Option Word) : Option State :=
  let pa := controlBase + offset
  let ok := decide (size = 8 ∧ offset % 8 = 0 ∧ offset < 2 ^ 34)
  match data with
  | some v =>
    if !ok ∨ !s.booted then some s.hostRefused
    else if s.pageHeld none pa v then none
    else some (match s.controlStore none pa v with
      | .ok t => t
      | .error _ => s.hostRefused)
  | none =>
    if !ok ∨ (!s.booted ∧ offset ≠ bootOffset) then some (s.hostOnes size)
    else if s.areaHeld pa then none
    else some (match s.controlLoad pa with
      | .ok (v, t) => t.hostAnswers (bytesOf 8 v.toNat)
      | .error _ => s.hostOnes size)

/-- The cause that an access of world 0 with no leaf meets at a local HBM address (R55, R226, R234, R245, R261,
R265): the first of its frame's kind, a chain's replica, its die's latch and fence. -/
def State.plainCause (s : State) (pa : Nat) (write copy : Bool) : Option Nat :=
  let kind := s.frameKind pa
  let d := s.die (homeDie pa)
  if hbmEnd ≤ pa then some cNoMapping
  else if 4 ≤ kind ∨ s.replicaFrame pa then some cPermission
  else if kind = 3 ∧ !write then some (if copy then cCaskCopy else cCaskRead)
  else if d.latch ≠ 0#2 ∧ d.world ≠ 0#6 then some cWorldRefused
  else if d.fence = 2#2 then some cFencedDie
  else none

/-- The same for a span, at the first of its 64 KiB frames that meets one. -/
def State.spanCause (s : State) (pa len : Nat) (write copy : Bool) : Option Nat :=
  (List.range ((pa % 65536 + len + 65535) / 65536)).findSome? fun i =>
    s.plainCause (if i = 0 then pa else (pa / 65536 + i) * 65536) write copy

/-- A host access through BAR 2 (R226, R288): tags are left, and key slot 0 is used. -/
def State.hostBytes (s : State) (offset size : Nat) (data : Option (List Byte)) : State :=
  let refused := !s.booted || (s.spanCause offset size data.isSome false).isSome
  match data with
  | none =>
    if refused then s.hostOnes size else s.hostAnswers (s.hbmRead (s.keyName 0) offset size)
  | some l => if refused then s.hostRefused else s.hbmWrite (s.keyName 0) offset (l.take size)

/-- A host access is performed; none while its page is held. -/
def State.hostPerform (s : State) : HostAccess → Option State
  | .control offset size data => s.hostControl offset size data
  | .memory offset size data => some (s.hostBytes offset size data)

/-- A host access arrives: it is performed after those before it (R227). -/
def State.hostAccess (s : State) (a : HostAccess) : State :=
  if !s.hostReaches then s
  else match (if s.hostQueue.isEmpty then s.hostPerform a else none) with
    | some t => t
    | none => s.hostQueued a

/-- The oldest host access that waits is performed, if it may be. -/
def State.hostNext (s : State) : State :=
  match s.hostQueue with
  | [] => s
  | a :: r => (({ s with hostQueue := r } : State).hostPerform a).getD s

/-- HOST_BAR0_ACCESS (R62, R227, R288): `data` is what a write stores. -/
def execHostBar0Access (offset size : Nat) (data : Option Word) (s : State) :
    Host.Outcome State Fault Refusal := .next (s.hostAccess (.control offset size data))

/-- HOST_BAR2_ACCESS (R226, R227, R288). -/
def execHostBar2Access (offset size : Nat) (data : Option (List Byte)) (s : State) :
    Host.Outcome State Fault Refusal := .next (s.hostAccess (.memory offset size data))

/-- The host's access to a word of BAR 4: the MSI-X table, then at `0x8000` the pending bits, which it only
reads (R224). DESIGN CHOICE (log 86): elsewhere in the BAR a read answers 0 and a write is ignored. After a failed boot
phase the port answers only BOOT reads (R288). -/
def State.hostBar4 (s : State) (word : Nat) (data : Option Word) : State :=
  if !s.hostReaches ∨ s.bootResult ≠ 0#8 ∨ 8192 ≤ word then s
  else match data with
    | some v => if word < 1024 then { s with msixTable := insertAt s.msixTable word v } else s
    | none =>
      let v : Word := if word < 1024 then lookupD s.msixTable word (msixReset word)
        else if word < 4096 ∨ 4104 ≤ word then 0#64
        else (List.range 64).foldl (fun w i =>
          putBit w i (s.msixPending.contains (64 * (word - 4096) + i))) 0#64
      s.hostAnswers (bytesOf 8 v.toNat)

/-- The host's writes to its BARs and to Device Control 2, whose bit 6 is AtomicOp Requester Enable (R224, R225,
R228, log 69). -/
def State.hostBar (s : State) (i : Nat) (base : Word) : State :=
  if s.hostReaches then { s with bars := s.bars.setIfInBounds i base } else s

def State.hostDevCtl2 (s : State) (v : BitVec 16) : State :=
  if s.hostReaches then { s with devctl2 := v, atomen := v.getLsbD 6 } else s

/-- HOST_ATOMICOP (R224): an Unsupported Request completion, counted in HOSTERR. -/
def execHostAtomicop (s : State) : Host.Outcome State Fault Refusal :=
  .next (if s.hostReaches then { s.hostRefused with hostAnswer := .unsupported } else s)

/-! Reset and boot (R225, R287, R288, R294). -/

/-- The versions that run once a staged set takes effect (R294). -/
def State.stagedVersions (s : State) : Vector (BitVec 32) 13 :=
  s.staged.foldl (fun v i => v.setIfInBounds i.index i.version) s.fwver

/-- A package reset (R287): what it keeps is HBM, the fuses, the generation, the image versions, the heat of the
junctions (log 46), and the world outside the package. The set that ran is the previous one when another takes effect (R288, R294). -/
def State.resetPackage (s : State) : State :=
  { State.reset with
    agenda := s.agenda, tick := s.tick, nextId := s.nextId, gen := s.gen
    sealpub := s.sealpub, provpub := s.provpub, sealkey := s.sealkey, provkey := s.provkey
    fwver := s.stagedVersions, fuses := s.fuses
    fwprev := if s.staged.isEmpty then s.fwprev else s.fwver
    keyNames := s.keyNames + 1, keys := [(0, KeySlot.opened s.keyNames)]
    dies := s.dies.map fun d => { Die.reset with harvest := d.harvest, stewards := d.stewards, temp := d.temp }
    hubTemp := s.hubTemp, baseTemps := s.baseTemps
    mem := s.mem, mtags := s.mtags, mkeys := s.mkeys
    poison := s.poison.filter fun e => !e.2
    hostMem := s.hostMem, peerMem := s.peerMem, peerTags := s.peerTags, peerCtl := s.peerCtl
    peerRefuse := s.peerRefuse, peerCtlRefuse := s.peerCtlRefuse, peerGens := s.peerGens }

/-- The package-reset state that F0 applies in phase 2 (R287, R288): what phase 1 and the port have made
stays, and what the sensors measure. -/
def State.applyReset (s : State) : State :=
  let t := s.resetPackage
  { t with
    cur := s.cur, npc := s.npc, time := s.time, hosterr := s.hosterr
    fwver := s.fwver, fwprev := s.fwprev, staged := s.staged
    bootPhase := s.bootPhase, bootResult := s.bootResult, bootRetried := s.bootRetried
    linkUp := s.linkUp, busMaster := s.busMaster, link := s.link, atomen := s.atomen
    msixPending := s.msixPending, msixSent := s.msixSent, msixTable := s.msixTable
    bars := s.bars, devctl2 := s.devctl2, hostQueue := s.hostQueue, hostAnswer := s.hostAnswer
    temp := s.temp, power := s.power }

/-- PACKAGE_RESET. -/
def execPackageReset (s : State) : Host.Outcome State Fault Refusal := .next s.resetPackage

/-- Islands as F6 writes them in phase 5 (R288, R290): each starts, under the limits of R292, with TRIP for them. -/
def State.startIslands (s : State) : State :=
  let start (d i : Nat) : Island := s.ceilingSet d i Island.reset 1000#12
  { s with
    trip := (List.range 4).foldl (fun b d => (List.range 12).foldl
      (fun b i => b ||| tripBits Island.reset (start d i)) b) s.trip
    dies := Vector.ofFn fun d : Fin 4 => { s.die d.val with islands := Vector.ofFn fun i : Fin 12 => start d.val i.val } }

/-- The work of a boot phase (R288). -/
def State.bootWork (s : State) : State :=
  match s.bootPhase.toNat with
  | 1 =>
    let (id, s) := s.newKeyName
    { s with keys := insertAt s.keys 0 (KeySlot.opened id) }
  | 2 => { s.applyReset with gen := s.gen + 1#32 }
  | 3 => { s with modes := Vector.replicate 8 0#8 }
  | 4 => { s with package := (s.free 6).setWidth 12, domain := (s.free 7).setWidth 3 }
  | 5 => s.startIslands
  | 6 => { s with identity := true }
  | _ => s

/-- BOOT_PHASE (R288): the phase's work when it succeeds, the last one presenting the identity chain; a failure
is recorded, the previous image set is booted once from phase 0, and a second failure halts the package. -/
def execBootPhase (how : PhaseEnd) (s : State) : Host.Outcome State Fault Refusal :=
  if s.halted ∨ s.identity then .next s
  else if s.bootResult ≠ 0#8 then
    .next { s with bootPhase := 0#4, bootResult := 0#8, fwver := s.fwprev }
  else match how with
    | .success => let p := s.bootPhase
      .next { s.bootWork with bootPhase := if p = 6#4 then 6#4 else p + 1#4 }
    | .failure code =>
      if code = 0#8 then .next s
      else .next { s with bootResult := code, bootRetried := true, halted := s.bootRetried }

/-- The requests in flight to the host end without a completion (R225). -/
def State.failRequests (s : State) : State :=
  s.requests.zipIdx.foldl (fun s e => s.requestLost e.1 (8192 + e.2)) { s with requests := [] }

/-- HOT_RESET (R225): the function's PCIe state returns to its reset values; the package's is unchanged. A host
access that was waiting is not performed at all. -/
def execHotReset (s : State) : Host.Outcome State Fault Refusal :=
  .next ({ s with
    linkUp := false, busMaster := false, atomen := false, link := 0#16
    msixTable := [], bars := Vector.replicate 3 0#64, devctl2 := 0#16, hostQueue := [] } : State).failRequests

/-- BUS_MASTER_DISABLE (R225). -/
def execBusMasterDisable (s : State) : Host.Outcome State Fault Refusal :=
  .next { s with busMaster := false }

/-- MSIX_PENDING_SEND (R225). -/
def execMsixPendingSend (s : State) : Host.Outcome State Fault Refusal :=
  .next { s with
    msixSent := s.msixSent ++ s.msixPending.filter s.msixOpen
    msixPending := s.msixPending.filter fun e => !s.msixOpen e }

/-- PCIE_LINK_UP (R225, R228). -/
def execPcieLinkUp (status : BitVec 16) (s : State) : Host.Outcome State Fault Refusal :=
  .next { s with linkUp := true, link := status }

/-- BUS_MASTER_ENABLE_SET (R225): the host's configuration write needs the link. -/
def execBusMasterEnableSet (s : State) : Host.Outcome State Fault Refusal :=
  .next { s with busMaster := s.linkUp }

/-- ATOMICOP_REQUESTER_ENABLE (R225, R228). -/
def execAtomicopRequesterEnable (s : State) : Host.Outcome State Fault Refusal :=
  .next (s.hostDevCtl2 (s.devctl2 ||| 0x40#16))

/-- The images of a set satisfy each other's lowest versions. -/
def manifestOk (images : List FirmwareImage) : Bool :=
  images.all fun i => i.requires.all fun r => images.any fun j =>
    j.index == r.1 && decide (r.2.toNat ≤ j.version.toNat)

/-- A set holds one image for each chiplet (R294). -/
def wholeSet (images : List FirmwareImage) : Bool :=
  decide ((images.map (·.index)).Perm (List.range 13))

/-- An image is signed and no older than its fuse (R294). -/
def State.imageOk (s : State) (i : FirmwareImage) : Bool :=
  i.verified && decide ((s.fuses.toList.getD i.index 0#32).toNat ≤ i.version.toNat)

/-- MCTP reaches the hub die (R288, R295). -/
def State.managed (s : State) : Bool := s.hostReaches && s.bootResult == 0#8

/-- FIRMWARE_STAGE (R294, R295): the whole set is refused, and the staged one kept, on any failed check. -/
def execFirmwareStage (images : List FirmwareImage) (s : State) : Host.Outcome State Fault Refusal :=
  if s.managed && wholeSet images && images.all s.imageOk && manifestOk images then
    .next { s with staged := images }
  else .next s

/-- A die's junction: compute dies 0 to 3, the hub die 4, base dies 5 to 12 (R292, R293, R295). -/
def State.junction (s : State) (d : Nat) : BitVec 8 :=
  if d < 4 then (s.die d).temp else if d = 4 then s.hubTemp else s.baseTemps.toList.getD (d - 5) 0#8

/-- What a sensor shows (R295). -/
def State.sensor (s : State) : Sensor → Nat
  | .power => s.power.toNat
  | .temp => s.temp.toNat
  | .die d => (s.junction d).toNat

/-- PLDM_SENSOR_READ (R295). -/
def execPldmSensorRead (which : Sensor) (s : State) : Host.Outcome State Fault Refusal :=
  .next (if s.managed then s.hostAnswers (bytesOf 8 (s.sensor which)) else s)

/-! Other packages (R234 to R237, R242). -/

/-- Remote stores in flight that a test picks are lost; one already performed there is only never
acknowledged (R236, R237). -/
def State.loseRemote (s : State) (p : RemoteStore → Bool) : State :=
  (s.remote.filter fun e => p e.2).foldl (fun s e =>
    let s := { s with remote := removeAt s.remote e.1 }
    if e.2.bytes.isEmpty then s else s.remoteLost e.2.strand e.2.va) s

/-- The control stores to a package that wait for their action there fail (R61, R236): recorded as failed stores
(R237), and their strands wait no more. -/
def State.losePeerActs (s : State) (p : Nat) : State :=
  let t := s.strands.foldl (fun t e => match e.2.wait with
    | .peerAct pa va | .peerSeal pa va _ _ => if pkgOf pa = p then t.remoteLost e.1 va else t
    | .none | .act _ | .window | .cancel _ | .sealClose _ _ _ | .rollback | .stopping => t) s
  { t with peerActs := t.peerActs.filter fun pa => pkgOf pa != p }

/-- A table entry is a leaf for a frame of a package (R186, R234). -/
def leafNames (e : Word) (p : Nat) : Bool :=
  e.getLsbD 0 && e.extractLsb' 1 3 != 0#3 && e.extractLsb' 8 2 != 2#2 &&
  decide ((e.extractLsb' 16 40).toNat / 2 ^ 28 = p)

/-- PEER `p` changes: every entry that a holder has kept and that names the package is discarded (R235). -/
def State.setPeer (s : State) (p : Nat) (x : Peer) : State :=
  { s with
    peers := insertAt s.peers p x
    stale := if s.peer p = x then s.stale else s.stale.filter fun e => !leafNames e.old p }

/-- The groups with a participant in a package lose what they have not produced (R242). -/
def State.losePeerGroups (s : State) (p : Nat) : State :=
  { s with groups := mapTable s.groups fun _ g =>
    if g.members.any fun m => m.domain == s.domain && m.package.toNat == p then
      { g with ended := true, lostSeqs := g.pendingSeqs ++ g.lostSeqs } else g }

/-- PEER_UP (R235): an access under another generation fails (R236). -/
def execPeerUp (p : Nat) (gen : BitVec 32) (s : State) : Host.Outcome State Fault Refusal :=
  let t := s.setPeer p { state := 1#2, gen := gen }
  .next ((if (s.peer p).gen = gen then t else t.losePeerActs p).loseRemote fun r =>
    pkgOf r.pa == p && r.gen != gen)

/-- PEER_STATE_GONE (R235, R236, R242). -/
def execPeerStateGone (p : Nat) (s : State) : Host.Outcome State Fault Refusal :=
  let s := s.setPeer p { state := 2#2, gen := (s.peer p).gen }
  .next (((s.losePeerActs p).loseRemote fun r => pkgOf r.pa == p).losePeerGroups p)

/-- TRELLIS_LINK_FAIL (R236): the accesses in flight on the link fail: stores that are not acknowledged, and
what engines and strands ask of the package until the next instruction is over. -/
def execTrellisLinkFail (p : Nat) (s : State) : Host.Outcome State Fault Refusal :=
  .next ((({ s with failing := p :: s.failing } : State).losePeerActs p).loseRemote fun r => pkgOf r.pa == p)

/-- The remote stores up to one reach their target, the oldest first (R172). -/
def State.remotePerform (s : State) (id : Nat) : State :=
  let t := s.remoteReach (s.remote.filter fun e => decide (e.1 ≤ id))
  { t with remote := mapTable s.remote fun i r =>
      if i ≤ id then { r with bytes := [], tag := none } else r }

/-- REMOTE_STORE_ACK (R237): the target has performed the store, or it has failed there (R236). -/
def execRemoteStoreAck (id : Nat) (taken : Bool) (s : State) : Host.Outcome State Fault Refusal :=
  match s.remote.find? fun e => e.1 == id with
  | none => .next s
  | some (_, r) =>
    if taken then
      let s := s.remotePerform id
      .next { s with remote := removeAt s.remote id }
    else if r.bytes.isEmpty then .next s
    else .next ((({ s with remote := removeAt s.remote id })).remoteLost r.strand r.va)

/-- The answer to another package. -/
def State.answerPeer (s : State) (a : Answer) : State := { s with peerAnswer := a }

/-- A remote agent's read-modify-write of HBM (R234, R300). -/
def State.serveAtomic (s : State) (op len pa : Nat) (operand expected : Word) : State :=
  let old := wordOfBytes (s.hbmRead (s.keyName 0) pa len)
  let t := if atomicWrites op len old expected then
      s.hbmWrite (s.keyName 0) pa (bytesOf len (atomicWord op len old operand expected).toNat)
    else s
  t.answerPeer (.data (bytesOf len old.toNat) [])

/-- A request of another package's strand or engine, performed with slot 0 and world 0 (R61, R234, R264, R271);
none while its control page is held (R60). -/
def State.serve (s : State) (request : RemoteRequest) : Option State :=
  let refuse (c : Nat) : State := s.answerPeer (.refused (BitVec.ofNat 8 c))
  let plain (pa len : Nat) (write copy : Bool) (act : State) : Option State :=
    some (match s.spanCause pa len write copy with
      | some c => refuse c
      | none => act)
  match request with
  | .read pa len copy => plain pa len false copy (s.answerPeer (.data (s.hbmRead (s.keyName 0) pa len)
      ((wordsTouched pa len).filterMap fun a => if a % 64 = 0 then some (s.hbmTag (s.keyName 0) a) else none)))
  | .write pa bytes tags => plain pa bytes.length true false
      ((tags.foldl (fun s e => s.hbmSetTag (s.keyName 0) (64 * e.1) e.2)
        (s.hbmWrite (s.keyName 0) pa bytes)).answerPeer .done)
  | .atomic op wide pa operand expected =>
    let len := if wide then 8 else 4
    if pa % len ≠ 0 then some (refuse cAlignment)
    else plain pa len false false (s.serveAtomic op.toNat len pa operand expected)
  | .controlLoad pa =>
    if s.areaHeld pa then none
    else some (match s.controlLoad pa with
      | .ok (v, t) => t.answerPeer (.data (bytesOf 8 v.toNat) [])
      | .error c => refuse c)
  | .controlStore pa value =>
    if s.pageHeld none pa value then none
    else some (match s.controlStore none pa value with
      | .ok t => if t.actPending pa then { t with peerAnswer := .none, serving := pa :: t.serving }
                 else t.answerPeer .done
      | .error c => refuse c)

/-- A control store of another package completes, once its action has taken its whole effect here (R61). -/
def State.serveDone (s : State) (pa : Nat) : State :=
  if s.serving.contains pa && !s.actPending pa then { s with serving := s.serving.erase pa }.answerPeer .done
  else s

/-- REMOTE_ACCESS_SERVE (R61, R234 to R236, R264, R265): a request under another generation, or one that
this package refuses, changes nothing here; one whose control page is held comes again later. -/
def execRemoteAccessServe (gen : BitVec 32) (request : RemoteRequest) (s : State) :
    Host.Outcome State Fault Refusal :=
  .next (if gen ≠ s.gen ∨ s.bootPhase.toNat < 5 ∨ s.bootResult ≠ 0#8 then
      s.answerPeer (.refused (BitVec.ofNat 8 cPeerGone))
    else (s.serve request).getD { s with agenda := s.agenda ++ [.event (.remoteAccessServe gen request)] })

/-! Power and heat (R292). -/

/-- An island of a die changed. -/
def State.updIsland (s : State) (d i : Nat) (f : Island → Island) : State :=
  s.updDie d fun x =>
    { x with islands := x.islands.setIfInBounds i (f (x.islands.toList.getD i Island.reset)) }

def State.island (s : State) (d i : Nat) : Island := (s.die d).islands.toList.getD i Island.reset

/-- No cluster island that can be lowered runs faster: one that is off, or clamped, stays as it is (R292: highest
first). -/
def State.highestCluster (s : State) (d i : Nat) : Bool :=
  (List.range 4).all fun e => (List.range 9).all fun j =>
    let y := s.island e j
    y.state == 2#2 || y.state == 3#2 || decide (y.current.toNat ≤ (s.island d i).current.toNat)

/-- An island may be slowed to a frequency: it runs, faster, and is not clamped (R292). -/
def Island.lowers (x : Island) (mhz : BitVec 12) : Bool :=
  x.state != 2#2 && x.state != 3#2 && decide (mhz.toNat < x.current.toNat) && mhz != 0#12

/-- An island throttled to a frequency below its own. -/
def Island.throttle (x : Island) (mhz : BitVec 12) : Island :=
  if x.lowers mhz then { x with current := mhz, state := 1#2 } else x

/-- POWER_THROTTLE: F6 lowers the fastest cluster island. -/
def execPowerThrottle (d i : Nat) (mhz : BitVec 12) (s : State) : Host.Outcome State Fault Refusal :=
  if s.pwrlim.toNat < s.power.toNat ∧ i < 9 ∧ s.highestCluster d i ∧ (s.island d i).lowers mhz then
    .next { (s.updIsland d i fun x => x.throttle mhz) with trip := s.trip ||| 1#2 }
  else .next s

/-- THERMAL_THROTTLE: F6 lowers a die's islands. -/
def execThermalThrottle (d : Nat) (mhz : BitVec 12) (s : State) : Host.Outcome State Fault Refusal :=
  if 95 < (s.die d).temp.toNat ∧ (s.die d).islands.toList.any fun y => y.lowers mhz then
    .next { (s.updDie d fun x => { x with islands := x.islands.map fun y => y.throttle mhz }) with
      trip := s.trip ||| 1#2 }
  else .next s

/-- THERMAL_CLAMP: every island of the die at 250 MHz; an off cluster stays off. -/
def execThermalClamp (d : Nat) (s : State) : Host.Outcome State Fault Refusal :=
  if 105 < (s.die d).temp.toNat ∧ (s.die d).islands.toList.any fun y => y.state != 2#2 then
    .next { (s.updDie d fun x => { x with islands := x.islands.map fun y =>
        if y.state = 2#2 then y else { y with current := 250#12, state := 3#2 } }) with
      trip := s.trip ||| 2#2 }
  else .next s

/-- THERMAL_POWER_DOWN: any junction above 115 °C, after which nothing moves until the next package reset. -/
def execThermalPowerDown (s : State) : Host.Outcome State Fault Refusal :=
  if (List.range 13).any fun d => decide (115 < (s.junction d).toNat) then
    .next ({ s with halted := true, linkUp := false, busMaster := false }).failRequests
  else .next s

/-- The condition that slowed an island has cleared. -/
def State.limitOver (s : State) (d i : Nat) : Bool :=
  let x := s.island d i
  (x.state == 3#2 && decide ((s.die d).temp.toNat ≤ 105)) || (x.state == 1#2 && !s.slowing d i)

/-- LIMIT_CLEAR: the island runs again, at a frequency within its ceiling; one whose clamp ends while F6 would slow it
is throttled instead, at the frequency it has (R292, log 47). -/
def execLimitClear (d i : Nat) (s : State) : Host.Outcome State Fault Refusal :=
  if !s.limitOver d i then .next s
  else if s.slowing d i then
    .next { (s.updIsland d i fun x => { x with state := 1#2 }) with trip := s.trip ||| 1#2 }
  else .next (s.updIsland d i fun x => { x with state := 0#2, current := s.chooseFrequency x.ceiling x.ceiling.toNat })

/-- A junction's temperature changes, with the hottest in TEMP (R293). -/
def State.heat (s : State) (d : Nat) (t : BitVec 8) : State :=
  let s := if d < 4 then s.updDie d fun x => { x with temp := t }
    else if d = 4 then { s with hubTemp := t }
    else { s with baseTemps := s.baseTemps.setIfInBounds (d - 5) t }
  { s with temp := (List.range 13).foldl (fun m d => if m.toNat < (s.junction d).toNat then s.junction d else m) 0#8 }

/-- F6 in hardware mode chooses the frequency of an island that no limit slows or would slow again (R290, R292). -/
def State.frequency (s : State) (d i : Nat) (mhz : BitVec 12) : State :=
  let x := s.island d i
  if s.modes.toList.getD 6 0#8 = 0#8 ∧ x.state = 0#2 ∧ !s.slowing d i ∧ 1 ≤ mhz.toNat ∧ mhz.toNat ≤ x.ceiling.toNat then
    s.updIsland d i fun x => { x with current := mhz }
  else s

/-- A die's links, fabric or error rate fail (R260): F4 fences it, or in host-assisted mode reports it on MSI-X
entry 0. -/
def State.dieFails (s : State) (d : Nat) : State :=
  if !s.booted ∨ 4 ≤ d then s
  else if s.modes.toList.getD 4 0#8 = 0#8 then s.fenceAny d
  else s.sendMsix 0

/-- F7 reports telemetry on MSI-X entry 1, in either mode (R1, R110, R224, R295). -/
def State.telemetry (s : State) : State := if s.booted then s.sendMsix 1 else s

end Sys2Proof.Machine
end

