-- ==== Sys2Proof/Machine/Mask.lean ====
section
/-! DEFINITION. The mask instructions (R325 to R327): none sets a flag or touches memory, and checked mode
does not repeat them (R255). -/

namespace Sys2Proof.Machine

/-- A mask-group instruction: bits 0 to MVL / w - 1 of kd from a function of the bit (R326). -/
def State.maskGroup (s : State) (kd : BitVec 5) (f : Nat → Bool) :
    Host.Outcome State Fault Refusal :=
  finish s 0#3 (do
    s.vectorIssue false
    let n := s.me.mvl.toNat / s.me.width
    let m := (List.range n).foldl (fun m e => putBit m e (f e)) (s.me.kreg kd.toNat)
    .ok (s.updMe fun x => (x.setK kd.toNat m).vectorDone none).retire)

/-- A bit of a mask source; k0 reads ones (R325). -/
def State.kbit (s : State) (k : BitVec 5) (e : Nat) : Bool := (s.me.kreg k.toNat).getLsbD e

/-- `kand` (R326). -/
def execKand (kd kb kc : BitVec 5) (s : State) : Host.Outcome State Fault Refusal :=
  s.maskGroup kd fun e => s.kbit kb e && s.kbit kc e

/-- `kor` (R326). -/
def execKor (kd kb kc : BitVec 5) (s : State) : Host.Outcome State Fault Refusal :=
  s.maskGroup kd fun e => s.kbit kb e || s.kbit kc e

/-- `kxor` (R326). -/
def execKxor (kd kb kc : BitVec 5) (s : State) : Host.Outcome State Fault Refusal :=
  s.maskGroup kd fun e => s.kbit kb e != s.kbit kc e

/-- `knot` (R326). -/
def execKnot (kd kb : BitVec 5) (s : State) : Host.Outcome State Fault Refusal :=
  s.maskGroup kd fun e => !s.kbit kb e

/-- `kmv` (R326). -/
def execKmv (kd kb : BitVec 5) (s : State) : Host.Outcome State Fault Refusal :=
  s.maskGroup kd fun e => s.kbit kb e

/-- `kset` (R326): the first sB bits. -/
def execKset (kd : BitVec 5) (rb : SReg) (s : State) : Host.Outcome State Fault Refusal :=
  s.maskGroup kd fun e => decide (e < (s.sreg rb).toNat)

/-- The set bits of a mask below VL, ascending (R327). -/
def State.kset (s : State) (k : BitVec 5) : List Nat :=
  (List.range s.me.vl.toNat).filter fun e => s.kbit k e

/-- A scalar result of a mask. -/
def State.maskScalar (s : State) (rd : SReg) (v : Word) : Host.Outcome State Fault Refusal :=
  finish s 0#3 (do
    s.vectorIssue false
    .ok ((s.setS rd v).updMe fun x => x.vectorDone none).retire)

/-- `kpopc` (R327). -/
def execKpopc (rd : SReg) (kb : BitVec 5) (s : State) : Host.Outcome State Fault Refusal :=
  s.maskScalar rd (BitVec.ofNat 64 (s.kset kb).length)

/-- `kfirst` (R327): all ones when there is none. -/
def execKfirst (rd : SReg) (kb : BitVec 5) (s : State) : Host.Outcome State Fault Refusal :=
  s.maskScalar rd (match s.kset kb with
    | [] => BitVec.allOnes 64
    | e :: _ => BitVec.ofNat 64 e)

end Sys2Proof.Machine
end

