-- ==== Sys2Proof/Machine/ScalarFloat.lean ====
section
/-! DEFINITION. The scalar floating-point instructions (R313 to R318): one rounding under FRM (R124),
special values by R115, flags ORed into FFLAGS (R117). None raises a cause of its own. -/

namespace Sys2Proof.Machine

/-- A two-operand instruction of the scalar float group (R314). -/
def State.floatBinary (s : State) (op : Fmt → Nat → FVal → FVal → Nat × Flags) (w : BitVec 2)
    (rd rb rc : SReg) : State :=
  s.floatResult rd (op (scalarFmt w) s.rm (s.floatOperand w rb) (s.floatOperand w rc))

/-- `fadd` (R314). -/
def execFadd (w : BitVec 2) (rd rb rc : SReg) (s : State) : Host.Outcome State Fault Refusal :=
  .next (s.floatBinary Fmt.add w rd rb rc)

/-- `fsub` (R314). -/
def execFsub (w : BitVec 2) (rd rb rc : SReg) (s : State) : Host.Outcome State Fault Refusal :=
  .next (s.floatBinary Fmt.sub w rd rb rc)

/-- `fmul` (R314). -/
def execFmul (w : BitVec 2) (rd rb rc : SReg) (s : State) : Host.Outcome State Fault Refusal :=
  .next (s.floatBinary Fmt.mul w rd rb rc)

/-- `fdiv` (R314). -/
def execFdiv (w : BitVec 2) (rd rb rc : SReg) (s : State) : Host.Outcome State Fault Refusal :=
  .next (s.floatBinary Fmt.div w rd rb rc)

/-- `fsqrt` (R314). -/
def execFsqrt (w : BitVec 2) (rd rb : SReg) (s : State) : Host.Outcome State Fault Refusal :=
  .next (s.floatResult rd ((scalarFmt w).sqrt s.rm (s.floatOperand w rb)))

/-- The operand itself is returned, with no rounding (R115, R314). -/
def State.floatPick (s : State) (isMax : Bool) (w : BitVec 2) (rd rb rc : SReg) : State :=
  let f := scalarFmt w
  s.floatResult rd (f.minMax isMax (f.ofWord (s.sreg rb)) (f.ofWord (s.sreg rc)))

/-- `fmin` (R115, R314). -/
def execFmin (w : BitVec 2) (rd rb rc : SReg) (s : State) : Host.Outcome State Fault Refusal :=
  .next (s.floatPick false w rd rb rc)

/-- `fmax` (R115, R314). -/
def execFmax (w : BitVec 2) (rd rb rc : SReg) (s : State) : Host.Outcome State Fault Refusal :=
  .next (s.floatPick true w rd rb rc)

/-- `fma`: sB * sC + sD, exact and rounded once (R318). -/
def execFma (w : BitVec 2) (rd rb rc ra : SReg) (_hint : BitVec 2) (s : State) :
    Host.Outcome State Fault Refusal :=
  .next (s.floatResult rd ((scalarFmt w).fma s.rm (s.floatOperand w rb) (s.floatOperand w rc)
    (s.floatOperand w ra)))

/-- `fcmp` (R315). -/
def execFcmp (w : BitVec 2) (cond : BitVec 6) (rd rb rc : SReg) (s : State) :
    Host.Outcome State Fault Refusal :=
  let (b, g) := fvCompare cond.toNat (s.floatOperand w rb) (s.floatOperand w rc)
  .next (s.floatResult rd (if b then 1 else 0, g))

/-! Conversion. -/

/-- The floating-point formats of R45's codes. -/
def convFmt (code : Nat) : Option Fmt :=
  match code with
  | 3 => some fp64
  | 4 => some fp32
  | 5 => some fp16
  | 6 => some bf16
  | _ => none

/-- The range of an integer code of R45: INT64, UINT64, INT32. -/
def convRange (code : Nat) : Int × Int :=
  match code with
  | 0 => (-(2 ^ 63), 2 ^ 63 - 1)
  | 1 => (0, 2 ^ 64 - 1)
  | _ => (-(2 ^ 31), 2 ^ 31 - 1)

/-- The source of a conversion, exactly (R316). -/
def convSource (code : Nat) (x : Word) : FVal :=
  match convFmt code with
  | some f => f.decode (f.ofWord x)
  | none =>
    match code with
    | 0 => fvOfInt x.toInt
    | 1 => fvOfInt (x.toNat : Int)
    | _ => fvOfInt (x.setWidth 32).toInt

/-- `fcvt` of a word: sd and the flags (R317). -/
def convert (mode dst src : Nat) (x : Word) : Word × Flags :=
  let v := convSource src x
  match convFmt dst with
  | some f =>
    let (r, g) :=
      match v with
      | .inf neg => (f.inf neg, 0#5)
      | v => f.roundTo mode v
    (BitVec.ofNat 64 r, g)
  | none =>
    let (lo, hi) := convRange dst
    let (k, _, g) := satInt mode lo hi v
    (BitVec.ofInt 64 k, g)

/-- `fcvt` (R316, R317). -/
def execFcvt (dst src : BitVec 3) (rd rb : SReg) (s : State) : Host.Outcome State Fault Refusal :=
  let (z, g) := convert s.rm dst.toNat src.toNat (s.sreg rb)
  .next ((s.orFlags g).setS rd z).retire

end Sys2Proof.Machine
end

