-- ==== Sys2Proof/Machine/VecFloat.lean ====
section
/-! DEFINITION. The vector float instructions (R355 to R357, R360, R361), conversions (R358, R359) and
tagged blocks (R368, R369, R375), over the number formats of Float.lean. -/

namespace Sys2Proof.Machine

/-- An elementwise float function of vB and operand C, on encodings (R356). -/
def State.floatwise (s : State) (vd vb vc : VReg) (p : BitVec 2) (k : KReg)
    (f : Fmt → Nat → Nat → Nat → Nat × Flags) : Host.Outcome State Fault Refusal :=
  finish s 0#3 (do
    let fmt ← s.floatIssue true p
    let x := s.me
    let w := x.width
    let b := x.vreg vb
    let c := x.vreg vc
    .ok (s.elementwise k vd w 0#16 [vb, vc] fun e =>
      let z := f fmt s.rm (element b w e).toNat (repElement c p w e).toNat
      { value := BitVec.ofNat w z.1, flags := z.2 }))

/-- An elementwise float function of vB alone. -/
def State.floatUnary (s : State) (vd vb : VReg) (k : KReg) (f : Fmt → Nat → FVal → Nat × Flags) :
    Host.Outcome State Fault Refusal :=
  finish s 0#3 (do
    let fmt ← s.floatIssue true
    let x := s.me
    let w := x.width
    let b := x.vreg vb
    .ok (s.elementwise k vd w 0#16 [vb] fun e =>
      let z := f fmt s.rm (fmt.decode (element b w e).toNat)
      { value := BitVec.ofNat w z.1, flags := z.2 }))

/-- `vfadd` (R356). -/
def execVfadd (vd vb vc : VReg) (p : BitVec 2) (k : KReg) (_hint : BitVec 2) (s : State) :
    Host.Outcome State Fault Refusal :=
  s.floatwise vd vb vc p k fun f rm x y => f.add rm (f.decode x) (f.decode y)

/-- `vfsub` (R356). -/
def execVfsub (vd vb vc : VReg) (p : BitVec 2) (k : KReg) (_hint : BitVec 2) (s : State) :
    Host.Outcome State Fault Refusal :=
  s.floatwise vd vb vc p k fun f rm x y => f.sub rm (f.decode x) (f.decode y)

/-- `vfmul` (R356). -/
def execVfmul (vd vb vc : VReg) (p : BitVec 2) (k : KReg) (_hint : BitVec 2) (s : State) :
    Host.Outcome State Fault Refusal :=
  s.floatwise vd vb vc p k fun f rm x y => f.mul rm (f.decode x) (f.decode y)

/-- `vfdiv` (R356). -/
def execVfdiv (vd vb vc : VReg) (p : BitVec 2) (k : KReg) (_hint : BitVec 2) (s : State) :
    Host.Outcome State Fault Refusal :=
  s.floatwise vd vb vc p k fun f rm x y => f.div rm (f.decode x) (f.decode y)

/-- `vfmin` (R356, R115). -/
def execVfmin (vd vb vc : VReg) (p : BitVec 2) (k : KReg) (_hint : BitVec 2) (s : State) :
    Host.Outcome State Fault Refusal :=
  s.floatwise vd vb vc p k fun f _ x y => f.minMax false x y

/-- `vfmax` (R356, R115). -/
def execVfmax (vd vb vc : VReg) (p : BitVec 2) (k : KReg) (_hint : BitVec 2) (s : State) :
    Host.Outcome State Fault Refusal :=
  s.floatwise vd vb vc p k fun f _ x y => f.minMax true x y

/-- `vfsqrt` (R356). -/
def execVfsqrt (vd vb : VReg) (k : KReg) (_hint : BitVec 2) (s : State) :
    Host.Outcome State Fault Refusal :=
  s.floatUnary vd vb k fun f rm x => f.sqrt rm x

/-- `vfrec` (R356). -/
def execVfrec (vd vb : VReg) (k : KReg) (_hint : BitVec 2) (s : State) :
    Host.Outcome State Fault Refusal :=
  s.floatUnary vd vb k fun f rm x => f.recip rm x

/-- `vfrsqrt` (R356). -/
def execVfrsqrt (vd vb : VReg) (k : KReg) (_hint : BitVec 2) (s : State) :
    Host.Outcome State Fault Refusal :=
  s.floatUnary vd vb k fun f rm x => f.rsqrt rm x

/-- `vfexp2` (R356). -/
def execVfexp2 (vd vb : VReg) (k : KReg) (_hint : BitVec 2) (s : State) :
    Host.Outcome State Fault Refusal :=
  s.floatUnary vd vb k fun f rm x => f.exp2 rm x

/-- `vfma`: vB * C + vD, one rounding (R360). -/
def execVfma (vd vb vc va : VReg) (p : BitVec 2) (k : KReg) (_hint : BitVec 2) (s : State) :
    Host.Outcome State Fault Refusal :=
  finish s 0#3 (do
    let f ← s.floatIssue true p
    let x := s.me
    let w := x.width
    let b := x.vreg vb
    let c := x.vreg vc
    let a := x.vreg va
    .ok (s.elementwise k vd w 0#16 [vb, vc, va] fun e =>
      let z := f.fma s.rm (f.decode (element b w e).toNat) (f.decode (repElement c p w e).toNat)
        (f.decode (element a w e).toNat)
      { value := BitVec.ofNat w z.1, flags := z.2 }))

/-- `vfcmp` (R357). -/
def execVfcmp (cond : BitVec 9) (kd : BitVec 5) (vb vc : VReg) (p : BitVec 2) (k : KReg)
    (_hint : BitVec 2) (s : State) : Host.Outcome State Fault Refusal :=
  finish s 0#3 (do
    let f ← s.floatIssue true p
    let w := s.me.width
    let b := s.me.vreg vb
    let c := s.me.vreg vc
    .ok (s.intoMask k kd [vb, vc] fun e =>
      fvCompare cond.toNat (f.decode (element b w e).toNat) (f.decode (repElement c p w e).toNat)))

/-! The reduction tree (R125). -/

/-- Two entries of a level: the absent one gives way. -/
def combine (add : Nat → Nat → Nat × Flags) (x y : Option Nat) : Option Nat × Flags :=
  match x, y with
  | some a, some b => let z := add a b; (some z.1, z.2)
  | some a, none => (some a, 0#5)
  | none, y => (y, 0#5)

/-- One level of the tree: neighbours are combined, a last odd one stays. -/
def treeLevel (add : Nat → Nat → Nat × Flags) : List (Option Nat) → List (Option Nat) × Flags
  | x :: y :: t =>
    let z := combine add x y
    let r := treeLevel add t
    (z.1 :: r.1, z.2 ||| r.2)
  | l => (l, 0#5)

/-- `n` levels of the tree. -/
def treeSum (add : Nat → Nat → Nat × Flags) : Nat → List (Option Nat) → Option Nat × Flags
  | 0, l => (l.head?.join, 0#5)
  | n + 1, l =>
    let r := treeLevel add l
    let z := treeSum add n r.1
    (z.1, r.2 ||| z.2)

/-- The whole reduction: the tree over the elements, the accumulate operand last (R125, R361). VL is at
most 2,048. -/
def treeReduce (add : Nat → Nat → Nat × Flags) (l : List (Option Nat)) (init : Nat) : Nat × Flags :=
  match treeSum add 12 l with
  | (none, g) => (init, g)
  | (some t, g) => let z := add init t; (z.1, g ||| z.2)

/-- The operation of `vfred` on encodings (R361). -/
def fredOp (f : Fmt) (rm op : Nat) (x y : Nat) : Nat × Flags :=
  match op with
  | 0 => f.add rm (f.decode x) (f.decode y)
  | 1 => f.minMax false x y
  | _ => f.minMax true x y

/-- `vfred` (R361). -/
def execVfred (op : BitVec 2) (rd : SReg) (vb : VReg) (rc : SReg) (k : KReg) (_hint : BitVec 2)
    (s : State) : Host.Outcome State Fault Refusal :=
  finish s 0#3 (do
    let f ← s.floatIssue false
    let x := s.me
    let w := x.width
    let b := x.vreg vb
    let es := x.activeElems k
    let l := (List.range x.vl.toNat).map fun e =>
      if es.contains e then some (element b w e).toNat else none
    let z := treeReduce (fredOp f s.rm op.toNat) l (f.ofWord (s.sreg rc))
    .ok (s.wholeOr [vb] es ((((s.orFlags z.2).setS rd (BitVec.ofNat 64 z.1)).updMe fun x =>
      x.vectorDone none).retire)))

/-! Conversions (R358, R359). -/

/-- The width of a code of R358. -/
def cvtWidth (code : Nat) : Nat :=
  match code with
  | 0 | 8 | 9 => 8
  | 1 | 6 | 7 => 16
  | 2 | 5 => 32
  | _ => 64

/-- The floating-point format of a code of R358, if it is one. -/
def cvtFmt (code : Nat) : Option Fmt :=
  match code with
  | 4 => some fp64
  | 5 => some fp32
  | 6 => some fp16
  | 7 => some bf16
  | 8 => some e4m3
  | 9 => some e5m2
  | _ => none

/-- The tag of a destination segment (R358). -/
def cvtTag (code : Nat) : Tag :=
  match code with
  | 0 => 0x7F08#16
  | 4 => 0x7F07#16
  | 5 => 0x7F06#16
  | 7 => 0x7F03#16
  | 8 => 0x7F01#16
  | 9 => 0x7F02#16
  | _ => 0#16

/-- A source element as an exact value. -/
def cvtSource (code : Nat) {w : Nat} (x : BitVec w) : FVal :=
  match cvtFmt code with
  | some f => f.decode x.toNat
  | none => fvOfInt x.toInt

/-- A value converted into a destination code (R119, R359). -/
def cvtLane (rm dst : Nat) (x : FVal) : Lane (cvtWidth dst) :=
  match cvtFmt dst with
  | some f =>
    let z := f.satTo rm x
    { value := BitVec.ofNat _ z.1, flags := z.2.2, sat := z.2.1 }
  | none =>
    let w := cvtWidth dst
    let z := satInt rm (-(2 ^ (w - 1))) (2 ^ (w - 1) - 1) x
    { value := BitVec.ofInt _ z.1, flags := z.2.2, sat := z.2.1 }

/-- `vfcvt` from the tagged blocks of a register: the accepted formats and lengths (R359). -/
def State.taggedOk (s : State) (vb : VReg) (f dst : Nat) : Bool :=
  let x := s.me
  let g := tagElems f
  let vl := x.vl.toNat
  g != 0 && decide (512 ≤ x.mvl.toNat) && decide (vl ≤ g * (x.mvl.toNat / 512)) &&
  decide (vl * cvtWidth dst ≤ x.mvl.toNat) &&
  (List.range vl).all fun e =>
    decide (e < x.vstart.toNat) || tagFormat (x.segTag vb (e / g)) == f

/-- `vfcvt` (R359). -/
def execVfcvt (dst src : BitVec 4) (vd vb : VReg) (k : KReg) (_hint : BitVec 2) (s : State) :
    Host.Outcome State Fault Refusal :=
  let d := dst.toNat
  finish s 0#3 (do
    s.vectorIssue true
    let x := s.me
    let b := x.vreg vb
    if src = 10#4 then do
      let f := tagFormat (x.segTag vb 0)
      let g := tagElems f
      demand (s.taggedOk vb f d) cIllegalState
      .ok (s.elementwise k vd (cvtWidth d) (cvtTag d) [vb] fun e =>
        cvtLane s.rm d (decodeElem (x.segTag vb (e / g)) (segment b (e / g)) (e % g)))
    else do
      let w := cvtWidth src.toNat
      demand (decide (x.vl.toNat * max w (cvtWidth d) ≤ x.mvl.toNat)) cIllegalState
      .ok (s.elementwise k vd (cvtWidth d) (cvtTag d) [vb] fun e =>
        cvtLane s.rm d (cvtSource src.toNat (element b w e : BitVec w))))

/-! Tagged blocks. -/

/-- One segment of `vpack`: its block, its tag, the elements that saturate, the flags (R123, R368). -/
def Strand.packSegment (x : Strand) (f : Fmt) (code rm : Nat) (b : BitVec 16384) (es : List Nat)
    (seg : Nat) : Packed :=
  let g := tagElems code
  let n := min x.vl.toNat ((seg + 1) * g) - seg * g
  let l := (List.range n).map fun i =>
    let e := seg * g + i
    if es.contains e then f.decode (element b x.width e : BitVec x.width).toNat else .fin false 0 0
  packBlock code rm l

/-- `vpack` (R368, R369). -/
def execVpack (fmt : BitVec 4) (vd vb : VReg) (k : KReg) (_hint : BitVec 2) (s : State) :
    Host.Outcome State Fault Refusal :=
  finish s 0#3 (do
    let f ← s.floatIssue false
    let x := s.me
    let g := tagElems fmt.toNat
    let nseg := (x.vl.toNat + g - 1) / g
    demand (decide (512 ≤ x.mvl.toNat ∧ nseg ≤ x.mvl.toNat / 512)) cIllegalState
    let es := x.activeElems k
    let segs := (List.range nseg).map fun i => (i, x.packSegment f fmt.toNat s.rm (x.vreg vb) es i)
    let v := segs.foldl (fun v e => putSlice v (512 * e.1) e.2.block) (x.vreg vd)
    let sats := segs.flatMap fun e => e.2.sat.map fun i => e.1 * g + i
    let flags := segs.foldl (fun a e => a ||| e.2.flags) 0#5
    let s' := s.updMe fun x =>
      let x := if nseg = 0 then x else x.setV vd v
      let x := segs.foldl (fun x e => x.setSegTag vd e.1 e.2.tag) x
      ((x.orFlags flags).setKBits 15 sats).vectorDone (some vd)
    .ok (s.wholeOr [vb] es s'.retire))

/-- The tag of a float element format (R375). -/
def floatTag (sew : BitVec 2) : Tag :=
  if sew = 3#2 then 0x7F07#16 else if sew = 2#2 then 0x7F06#16 else 0x7F03#16

/-- `vunpack` (R375). -/
def execVunpack (vd vb : VReg) (rc : SReg) (k : KReg) (_hint : BitVec 2) (s : State) :
    Host.Outcome State Fault Refusal :=
  finish s 0#3 (do
    let fmt ← s.floatIssue false
    let x := s.me
    let w := x.width
    let b := x.vreg vb
    let f := tagFormat (x.segTag vb 0)
    let g := tagElems f
    let i := (s.sreg rc).toNat
    demand (decide (512 ≤ x.mvl.toNat) && g != 0 &&
      decide (((i : Int) + x.vl.toNat - 1) / (g : Int) < (x.mvl.toNat / 512 : Nat))) cIllegalState
    let es := x.activeElems k
    demand (es.all fun e => tagFormat (x.segTag vb ((i + e) / g)) == f) cIllegalState
    .ok (s.wholeOr [vb] es (s.elementwise k vd w (floatTag x.sew) [vb] fun e =>
      let j := i + e
      let z := fmt.satTo s.rm (decodeElem (x.segTag vb (j / g)) (segment b (j / g)) (j % g))
      { value := BitVec.ofNat w z.1, flags := z.2.2, sat := z.2.1 })))

end Sys2Proof.Machine
end

