-- ==== Sys2Proof/Machine/VecInt.lean ====
section
/-! DEFINITION. The vector integer instructions: the integer group (R347, R348), comparison (R352),
selection and moves (R367, R373, R362), reductions and scans (R371, R372), permutations (R353, R354,
R370, R374). -/

namespace Sys2Proof.Machine

/-- An elementwise function of vB and operand C (R348). -/
def State.lanewise (s : State) (vd vb vc : VReg) (p : BitVec 2) (k : KReg)
    (f : (w : Nat) → BitVec w → BitVec w → BitVec w) : Host.Outcome State Fault Refusal :=
  finish s 0#3 (do
    s.vectorIssue true p
    let x := s.me
    let w := x.width
    let b := x.vreg vb
    let c := x.vreg vc
    .ok (s.elementwise k vd w 0#16 [vb, vc] fun e =>
      { value := f w (element b w e) (repElement c p w e) }))

/-- `vadd` (R348). -/
def execVadd (vd vb vc : VReg) (p : BitVec 2) (k : KReg) (_hint : BitVec 2) (s : State) :
    Host.Outcome State Fault Refusal :=
  s.lanewise vd vb vc p k fun _ x y => aluAdd x y

/-- `vsub` (R348). -/
def execVsub (vd vb vc : VReg) (p : BitVec 2) (k : KReg) (_hint : BitVec 2) (s : State) :
    Host.Outcome State Fault Refusal :=
  s.lanewise vd vb vc p k fun _ x y => aluSub x y

/-- `vmul` (R348). -/
def execVmul (vd vb vc : VReg) (p : BitVec 2) (k : KReg) (_hint : BitVec 2) (s : State) :
    Host.Outcome State Fault Refusal :=
  s.lanewise vd vb vc p k fun _ x y => aluMul x y

/-- `vmulh`, signed or with `.u` (R348). -/
def execVmulh (u : Bool) (vd vb vc : VReg) (p : BitVec 2) (k : KReg) (_hint : BitVec 2) (s : State) :
    Host.Outcome State Fault Refusal :=
  s.lanewise vd vb vc p k fun _ x y => if u then aluMulhu x y else aluMulh x y

/-- `vmin`, signed or with `.u` (R348). -/
def execVmin (u : Bool) (vd vb vc : VReg) (p : BitVec 2) (k : KReg) (_hint : BitVec 2) (s : State) :
    Host.Outcome State Fault Refusal :=
  s.lanewise vd vb vc p k fun _ x y => if u then aluMinu x y else aluMin x y

/-- `vmax`, signed or with `.u` (R348). -/
def execVmax (u : Bool) (vd vb vc : VReg) (p : BitVec 2) (k : KReg) (_hint : BitVec 2) (s : State) :
    Host.Outcome State Fault Refusal :=
  s.lanewise vd vb vc p k fun _ x y => if u then aluMaxu x y else aluMax x y

/-- `vand` (R348). -/
def execVand (vd vb vc : VReg) (p : BitVec 2) (k : KReg) (_hint : BitVec 2) (s : State) :
    Host.Outcome State Fault Refusal :=
  s.lanewise vd vb vc p k fun _ x y => aluAnd x y

/-- `vor` (R348). -/
def execVor (vd vb vc : VReg) (p : BitVec 2) (k : KReg) (_hint : BitVec 2) (s : State) :
    Host.Outcome State Fault Refusal :=
  s.lanewise vd vb vc p k fun _ x y => aluOr x y

/-- `vxor` (R348). -/
def execVxor (vd vb vc : VReg) (p : BitVec 2) (k : KReg) (_hint : BitVec 2) (s : State) :
    Host.Outcome State Fault Refusal :=
  s.lanewise vd vb vc p k fun _ x y => aluXor x y

/-- `vshl` (R348). -/
def execVshl (vd vb vc : VReg) (p : BitVec 2) (k : KReg) (_hint : BitVec 2) (s : State) :
    Host.Outcome State Fault Refusal :=
  s.lanewise vd vb vc p k fun _ x y => aluShl x y

/-- `vshr` (R348). -/
def execVshr (vd vb vc : VReg) (p : BitVec 2) (k : KReg) (_hint : BitVec 2) (s : State) :
    Host.Outcome State Fault Refusal :=
  s.lanewise vd vb vc p k fun _ x y => aluShr x y

/-- `vsra` (R348). -/
def execVsra (vd vb vc : VReg) (p : BitVec 2) (k : KReg) (_hint : BitVec 2) (s : State) :
    Host.Outcome State Fault Refusal :=
  s.lanewise vd vb vc p k fun _ x y => aluSra x y

/-- `vcmp` (R352). -/
def execVcmp (cond : BitVec 9) (kd : BitVec 5) (vb vc : VReg) (p : BitVec 2) (k : KReg)
    (_hint : BitVec 2) (s : State) : Host.Outcome State Fault Refusal :=
  finish s 0#3 (do
    s.vectorIssue true p
    let w := s.me.width
    let b := s.me.vreg vb
    let c := s.me.vreg vc
    .ok (s.intoMask k kd [vb, vc] fun e =>
      (condHolds cond.toNat (element b w e) (repElement c p w e), 0#5)))

/-- `vsel` (R373): K selects, and every element from VSTART is written. -/
def execVsel (vd vb vc : VReg) (p : BitVec 2) (k : KReg) (_hint : BitVec 2) (s : State) :
    Host.Outcome State Fault Refusal :=
  finish s 0#3 (do
    s.vectorIssue true p
    let x := s.me
    let w := x.width
    let b := x.vreg vb
    let c := x.vreg vc
    .ok (s.elementwise 0#4 vd w 0#16 [vb, vc] fun e =>
      { value := if x.selects k e then element b w e else repElement c p w e }))

/-- `vmv` of a vector (R367). -/
def execVmv (vd vb : VReg) (k : KReg) (_hint : BitVec 2) (s : State) :
    Host.Outcome State Fault Refusal :=
  finish s 0#3 (do
    s.vectorIssue true
    let w := s.me.width
    let b := s.me.vreg vb
    .ok (s.elementwise k vd w 0#16 [vb] fun e => { value := element b w e }))

/-- `vmv` of a scalar (R367). -/
def execVmvScalar (vd : VReg) (rb : SReg) (k : KReg) (_hint : BitVec 2) (s : State) :
    Host.Outcome State Fault Refusal :=
  finish s 0#3 (do
    s.vectorIssue true
    let w := s.me.width
    let v := (s.sreg rb).setWidth w
    .ok (s.elementwise k vd w 0#16 [] fun _ => { value := v }))

/-- `vid` (R362). -/
def execVid (vd : VReg) (rb : SReg) (k : KReg) (_hint : BitVec 2) (s : State) :
    Host.Outcome State Fault Refusal :=
  finish s 0#3 (do
    s.vectorIssue true
    let w := s.me.width
    let v := (s.sreg rb).setWidth w
    .ok (s.elementwise k vd w 0#16 [] fun e => { value := v + BitVec.ofNat w e }))

/-! Reductions and scans. -/

/-- The operation of a reduction at a width (R371, R372). -/
def redOp {n : Nat} (op : Nat) (x y : BitVec n) : BitVec n :=
  match op with
  | 0 => x + y
  | 1 => aluMin x y
  | 2 => aluMax x y
  | 3 => aluMinu x y
  | 4 => aluMaxu x y
  | 5 => x &&& y
  | 6 => x ||| y
  | _ => x ^^^ y

/-- `vred` (R372). -/
def execVred (op : BitVec 3) (rd : SReg) (vb : VReg) (rc : SReg) (k : KReg) (_hint : BitVec 2)
    (s : State) : Host.Outcome State Fault Refusal :=
  finish s 0#3 (do
    s.vectorIssue false
    let x := s.me
    let w := x.width
    let b := x.vreg vb
    let es := x.activeElems k
    let r := es.foldl (fun r e => redOp op.toNat r (element b w e)) ((s.sreg rc).setWidth w)
    let v : Word := if op = 3#3 ∨ op = 4#3 then r.setWidth 64 else r.signExtend 64
    .ok (s.wholeOr [vb] es (((s.setS rd v).updMe fun x => x.vectorDone none).retire)))

/-- The values of a scan, element by element (R372). -/
def scanList {w : Nat} (op : Nat) (excl : Bool) (b : BitVec 16384) (r : BitVec w) :
    List Nat → List (Nat × BitVec w)
  | [] => []
  | e :: t =>
    let r' := redOp op r (element b w e)
    (e, if excl then r else r') :: scanList op excl b r' t

/-- `vscan` (R372). -/
def execVscan (op : BitVec 3) (excl : Bool) (vd vb : VReg) (rc : SReg) (k : KReg)
    (_hint : BitVec 2) (s : State) : Host.Outcome State Fault Refusal :=
  finish s 0#3 (do
    s.vectorIssue false
    let x := s.me
    let es := x.activeElems k
    let l := scanList op.toNat excl (x.vreg vb) ((s.sreg rc).setWidth x.width) es
    .ok (s.wholeOr [vb] es (s.writeElems vd l).retire))

/-! Permutations. -/

/-- `vperm` (R370). -/
def execVperm (vd vb vc : VReg) (p : BitVec 2) (k : KReg) (_hint : BitVec 2) (s : State) :
    Host.Outcome State Fault Refusal :=
  finish s 0#3 (do
    s.vectorIssue false p
    let x := s.me
    let w := x.width
    let b := x.vreg vb
    let c := x.vreg vc
    let es := x.activeElems k
    let l := es.map fun e =>
      let i := (repElement c p w e).toNat
      (e, if i < x.vl.toNat then element b w i else 0#w)
    .ok (s.wholeOr [vb, vc] es (s.writeElems vd l).retire))

/-- `vslide.up` (R374). -/
def execVslideUp (vd vb : VReg) (rc rf : SReg) (k : KReg) (_hint : BitVec 2) (s : State) :
    Host.Outcome State Fault Refusal :=
  finish s 0#3 (do
    s.vectorIssue false
    let x := s.me
    let w := x.width
    let b := x.vreg vb
    let c := (s.sreg rc).toNat
    let es := x.activeElems k
    let l := es.map fun e => (e, if c ≤ e then element b w (e - c) else (s.sreg rf).setWidth w)
    .ok (s.wholeOr [vb] es (s.writeElems vd l).retire))

/-- `vslide.down` (R374). -/
def execVslideDown (vd vb : VReg) (rc rf : SReg) (k : KReg) (_hint : BitVec 2) (s : State) :
    Host.Outcome State Fault Refusal :=
  finish s 0#3 (do
    s.vectorIssue false
    let x := s.me
    let w := x.width
    let b := x.vreg vb
    let c := (s.sreg rc).toNat
    let es := x.activeElems k
    let l := es.map fun e =>
      (e, if e + c < x.vl.toNat then element b w (e + c) else (s.sreg rf).setWidth w)
    .ok (s.wholeOr [vb] es (s.writeElems vd l).retire))

/-- The elements a mask picks among the first VL, ascending (R353). -/
def Strand.picked (x : Strand) (k : KReg) : List Nat :=
  (List.range x.vl.toNat).filter fun e => x.selects k e

/-- `vcompress` (R353). -/
def execVcompress (vd vb : VReg) (k : KReg) (_hint : BitVec 2) (s : State) :
    Host.Outcome State Fault Refusal :=
  finish s 0#3 (do
    s.vectorIssue false
    let x := s.me
    let w := x.width
    let b := x.vreg vb
    let es := x.picked k
    let l := (List.range es.length).zip (es.map fun e => (element b w e : BitVec w))
    .ok (s.wholeOr [vb] es (s.writeElems vd l).retire))

/-- `vexpand` (R353). -/
def execVexpand (vd vb : VReg) (k : KReg) (_hint : BitVec 2) (s : State) :
    Host.Outcome State Fault Refusal :=
  finish s 0#3 (do
    s.vectorIssue false
    let x := s.me
    let w := x.width
    let b := x.vreg vb
    let es := x.picked k
    let l := es.zip ((List.range es.length).map fun j => (element b w j : BitVec w))
    .ok (s.wholeOr [vb] es (s.writeElems vd l).retire))

/-- `vext` (R354): the index is bounded by MVL, not by VL. -/
def execVext (u : Bool) (rd : SReg) (vb : VReg) (rc : SReg) (_hint : BitVec 2) (s : State) :
    Host.Outcome State Fault Refusal :=
  finish s 0#3 (do
    s.vectorIssue false
    let w := s.me.width
    let i := (s.sreg rc).toNat
    demand (decide (i < s.me.mvl.toNat / w)) cIllegalState
    let b : BitVec w := element (s.me.vreg vb) w i
    let v : Word := if u then b.setWidth 64 else b.signExtend 64
    .ok (s.wholeOr [vb] [i] (((s.setS rd v).updMe fun x => x.vectorDone none).retire)))

/-- `vins` (R354). -/
def execVins (vd : VReg) (rb rc : SReg) (_hint : BitVec 2) (s : State) :
    Host.Outcome State Fault Refusal :=
  finish s 0#3 (do
    s.vectorIssue false
    let w := s.me.width
    let i := (s.sreg rc).toNat
    demand (decide (i < s.me.mvl.toNat / w)) cIllegalState
    .ok (s.wholeOr [] [i] (s.writeElems vd [(i, (s.sreg rb).setWidth w)]).retire))

end Sys2Proof.Machine
end

