-- ==== Sys2Proof/Machine/Dispatch.lean ====
section
/-! DEFINITION. The dispatcher: one arm per step of the package, each a direct call of its meaning. -/

namespace Sys2Proof.Machine

def exec (i : Instr) (s : State) : Host.Outcome State Fault Refusal :=
  match i with
  | .nop => Sys2Proof.Machine.execNop s
  | .hintH a w => Sys2Proof.Machine.execHintH a w s
  | .hintHt1 a w tail => Sys2Proof.Machine.execHintHt1 a w tail s
  | .hintHt2 a w tail => Sys2Proof.Machine.execHintHt2 a w tail s
  | .hintHt3 a w tail => Sys2Proof.Machine.execHintHt3 a w tail s
  | .b imm => Sys2Proof.Machine.execB imm s
  | .bCond cond rb rc imm => Sys2Proof.Machine.execBCond cond rb rc imm s
  | .call imm => Sys2Proof.Machine.execCall imm s
  | .jmp rb => Sys2Proof.Machine.execJmp rb s
  | .ret => Sys2Proof.Machine.execRet s
  | .setvl sew rd rb => Sys2Proof.Machine.execSetvl sew rd rb s
  | .setvlf sew rd rb rc rp hint scope => Sys2Proof.Machine.execSetvlf sew rd rb rc rp hint scope s
  | .trap n => Sys2Proof.Machine.execTrap n s
  | .brk => Sys2Proof.Machine.execBrk s
  | .exit => Sys2Proof.Machine.execExit s
  | .bar n => Sys2Proof.Machine.execBar n s
  | .cwait rd rb scope => Sys2Proof.Machine.execCwait rd rb scope s
  | .launch rd rb => Sys2Proof.Machine.execLaunch rd rb s
  | .cancel rb => Sys2Proof.Machine.execCancel rb s
  | .fpub rb rc scope => Sys2Proof.Machine.execFpub rb rc scope s
  | .claim => Sys2Proof.Machine.execClaim s
  | .tsync rb rc => Sys2Proof.Machine.execTsync rb rc s
  | .icinv rb rc scope => Sys2Proof.Machine.execIcinv rb rc scope s
  | .cflush rb rc scope => Sys2Proof.Machine.execCflush rb rc scope s
  | .cinv rb rc scope => Sys2Proof.Machine.execCinv rb rc scope s
  | .pref rb rc target => Sys2Proof.Machine.execPref rb rc target s
  | .getsr rd num => Sys2Proof.Machine.execGetsr rd num s
  | .setsr num rb => Sys2Proof.Machine.execSetsr num rb s
  | .sealOpen rd rb rc hint => Sys2Proof.Machine.execSealOpen rd rb rc hint s
  | .sealAbsorb rb rc rl tag hint => Sys2Proof.Machine.execSealAbsorb rb rc rl tag hint s
  | .sealClose rd rb hint => Sys2Proof.Machine.execSealClose rd rb hint s
  | .chlinkRm rd rb rc hint => Sys2Proof.Machine.execChlinkRm rd rb rc hint s
  | .chlinkAdd rd rb rc rp hint => Sys2Proof.Machine.execChlinkAdd rd rb rc rp hint s
  | .chquery rd rb => Sys2Proof.Machine.execChquery rd rb s
  | .chsync rd => Sys2Proof.Machine.execChsync rd s
  | .tret => Sys2Proof.Machine.execTret s
  | .add w rd rb rc => Sys2Proof.Machine.execAdd w rd rb rc s
  | .sub w rd rb rc => Sys2Proof.Machine.execSub w rd rb rc s
  | .mul w rd rb rc => Sys2Proof.Machine.execMul w rd rb rc s
  | .mulh w rd rb rc => Sys2Proof.Machine.execMulh w rd rb rc s
  | .mulhu w rd rb rc => Sys2Proof.Machine.execMulhu w rd rb rc s
  | .div w rd rb rc => Sys2Proof.Machine.execDiv w rd rb rc s
  | .divu w rd rb rc => Sys2Proof.Machine.execDivu w rd rb rc s
  | .rem w rd rb rc => Sys2Proof.Machine.execRem w rd rb rc s
  | .remu w rd rb rc => Sys2Proof.Machine.execRemu w rd rb rc s
  | .and w rd rb rc => Sys2Proof.Machine.execAnd w rd rb rc s
  | .andn w rd rb rc => Sys2Proof.Machine.execAndn w rd rb rc s
  | .or w rd rb rc => Sys2Proof.Machine.execOr w rd rb rc s
  | .xor w rd rb rc => Sys2Proof.Machine.execXor w rd rb rc s
  | .shl w rd rb rc => Sys2Proof.Machine.execShl w rd rb rc s
  | .shr w rd rb rc => Sys2Proof.Machine.execShr w rd rb rc s
  | .sra w rd rb rc => Sys2Proof.Machine.execSra w rd rb rc s
  | .min w rd rb rc => Sys2Proof.Machine.execMin w rd rb rc s
  | .max w rd rb rc => Sys2Proof.Machine.execMax w rd rb rc s
  | .minu w rd rb rc => Sys2Proof.Machine.execMinu w rd rb rc s
  | .maxu w rd rb rc => Sys2Proof.Machine.execMaxu w rd rb rc s
  | .addImm w rd rb imm => Sys2Proof.Machine.execAddImm w rd rb imm s
  | .subImm w rd rb imm => Sys2Proof.Machine.execSubImm w rd rb imm s
  | .mulImm w rd rb imm => Sys2Proof.Machine.execMulImm w rd rb imm s
  | .mulhImm w rd rb imm => Sys2Proof.Machine.execMulhImm w rd rb imm s
  | .mulhuImm w rd rb imm => Sys2Proof.Machine.execMulhuImm w rd rb imm s
  | .divImm w rd rb imm => Sys2Proof.Machine.execDivImm w rd rb imm s
  | .divuImm w rd rb imm => Sys2Proof.Machine.execDivuImm w rd rb imm s
  | .remImm w rd rb imm => Sys2Proof.Machine.execRemImm w rd rb imm s
  | .remuImm w rd rb imm => Sys2Proof.Machine.execRemuImm w rd rb imm s
  | .andImm w rd rb imm => Sys2Proof.Machine.execAndImm w rd rb imm s
  | .andnImm w rd rb imm => Sys2Proof.Machine.execAndnImm w rd rb imm s
  | .orImm w rd rb imm => Sys2Proof.Machine.execOrImm w rd rb imm s
  | .xorImm w rd rb imm => Sys2Proof.Machine.execXorImm w rd rb imm s
  | .shlImm w rd rb imm => Sys2Proof.Machine.execShlImm w rd rb imm s
  | .shrImm w rd rb imm => Sys2Proof.Machine.execShrImm w rd rb imm s
  | .sraImm w rd rb imm => Sys2Proof.Machine.execSraImm w rd rb imm s
  | .minImm w rd rb imm => Sys2Proof.Machine.execMinImm w rd rb imm s
  | .maxImm w rd rb imm => Sys2Proof.Machine.execMaxImm w rd rb imm s
  | .minuImm w rd rb imm => Sys2Proof.Machine.execMinuImm w rd rb imm s
  | .maxuImm w rd rb imm => Sys2Proof.Machine.execMaxuImm w rd rb imm s
  | .clz w rd rb => Sys2Proof.Machine.execClz w rd rb s
  | .ctz w rd rb => Sys2Proof.Machine.execCtz w rd rb s
  | .popc w rd rb => Sys2Proof.Machine.execPopc w rd rb s
  | .sext w rd rb => Sys2Proof.Machine.execSext w rd rb s
  | .zext w rd rb => Sys2Proof.Machine.execZext w rd rb s
  | .mov rd rb => Sys2Proof.Machine.execMov rd rb s
  | .movi rd imm => Sys2Proof.Machine.execMovi rd imm s
  | .moviHi rd imm => Sys2Proof.Machine.execMoviHi rd imm s
  | .addpc rd imm => Sys2Proof.Machine.execAddpc rd imm s
  | .sel rd rb rc rs hint => Sys2Proof.Machine.execSel rd rb rc rs hint s
  | .cmp cond rd rb rc => Sys2Proof.Machine.execCmp cond rd rb rc s
  | .fadd w rd rb rc => Sys2Proof.Machine.execFadd w rd rb rc s
  | .fsub w rd rb rc => Sys2Proof.Machine.execFsub w rd rb rc s
  | .fmul w rd rb rc => Sys2Proof.Machine.execFmul w rd rb rc s
  | .fdiv w rd rb rc => Sys2Proof.Machine.execFdiv w rd rb rc s
  | .fsqrt w rd rb => Sys2Proof.Machine.execFsqrt w rd rb s
  | .fmin w rd rb rc => Sys2Proof.Machine.execFmin w rd rb rc s
  | .fmax w rd rb rc => Sys2Proof.Machine.execFmax w rd rb rc s
  | .fma w rd rb rc ra hint => Sys2Proof.Machine.execFma w rd rb rc ra hint s
  | .fcmp w cond rd rb rc => Sys2Proof.Machine.execFcmp w cond rd rb rc s
  | .fcvt dst src rd rb => Sys2Proof.Machine.execFcvt dst src rd rb s
  | .ld w acq scope rd rb imm => Sys2Proof.Machine.execLd w acq scope rd rb imm s
  | .ldu w acq scope rd rb imm => Sys2Proof.Machine.execLdu w acq scope rd rb imm s
  | .st w rel scope rs rb imm => Sys2Proof.Machine.execSt w rel scope rs rb imm s
  | .fence order scope => Sys2Proof.Machine.execFence order scope s
  | .aadd w order scope rd rb rc hint => Sys2Proof.Machine.execAadd w order scope rd rb rc hint s
  | .aand w order scope rd rb rc hint => Sys2Proof.Machine.execAand w order scope rd rb rc hint s
  | .aor w order scope rd rb rc hint => Sys2Proof.Machine.execAor w order scope rd rb rc hint s
  | .axor w order scope rd rb rc hint => Sys2Proof.Machine.execAxor w order scope rd rb rc hint s
  | .amin w order scope rd rb rc hint => Sys2Proof.Machine.execAmin w order scope rd rb rc hint s
  | .amax w order scope rd rb rc hint => Sys2Proof.Machine.execAmax w order scope rd rb rc hint s
  | .aswap w order scope rd rb rc hint => Sys2Proof.Machine.execAswap w order scope rd rb rc hint s
  | .acas w order scope rd rb rc rx hint => Sys2Proof.Machine.execAcas w order scope rd rb rc rx hint s
  | .vld vd rb k hint => Sys2Proof.Machine.execVld vd rb k hint s
  | .vlds vd rb rc k hint => Sys2Proof.Machine.execVlds vd rb rc k hint s
  | .vldx iw vd rb vc p k hint => Sys2Proof.Machine.execVldx iw vd rb vc p k hint s
  | .vldff vd rb k hint => Sys2Proof.Machine.execVldff vd rb k hint s
  | .vst vs rb k hint => Sys2Proof.Machine.execVst vs rb k hint s
  | .vsts vs rb rc k hint => Sys2Proof.Machine.execVsts vs rb rc k hint s
  | .vstx iw vs rb vc p k hint => Sys2Proof.Machine.execVstx iw vs rb vc p k hint s
  | .vamo op w order scope vd rb vc vi p k hint => Sys2Proof.Machine.execVamo op w order scope vd rb vc vi p k hint s
  | .vadd vd vb vc p k hint => Sys2Proof.Machine.execVadd vd vb vc p k hint s
  | .vsub vd vb vc p k hint => Sys2Proof.Machine.execVsub vd vb vc p k hint s
  | .vmul vd vb vc p k hint => Sys2Proof.Machine.execVmul vd vb vc p k hint s
  | .vmulh u vd vb vc p k hint => Sys2Proof.Machine.execVmulh u vd vb vc p k hint s
  | .vmin u vd vb vc p k hint => Sys2Proof.Machine.execVmin u vd vb vc p k hint s
  | .vmax u vd vb vc p k hint => Sys2Proof.Machine.execVmax u vd vb vc p k hint s
  | .vand vd vb vc p k hint => Sys2Proof.Machine.execVand vd vb vc p k hint s
  | .vor vd vb vc p k hint => Sys2Proof.Machine.execVor vd vb vc p k hint s
  | .vxor vd vb vc p k hint => Sys2Proof.Machine.execVxor vd vb vc p k hint s
  | .vshl vd vb vc p k hint => Sys2Proof.Machine.execVshl vd vb vc p k hint s
  | .vshr vd vb vc p k hint => Sys2Proof.Machine.execVshr vd vb vc p k hint s
  | .vsra vd vb vc p k hint => Sys2Proof.Machine.execVsra vd vb vc p k hint s
  | .vcmp cond kd vb vc p k hint => Sys2Proof.Machine.execVcmp cond kd vb vc p k hint s
  | .vsel vd vb vc p k hint => Sys2Proof.Machine.execVsel vd vb vc p k hint s
  | .vmv vd vb k hint => Sys2Proof.Machine.execVmv vd vb k hint s
  | .vmvScalar vd rb k hint => Sys2Proof.Machine.execVmvScalar vd rb k hint s
  | .vid vd rb k hint => Sys2Proof.Machine.execVid vd rb k hint s
  | .vred op rd vb rc k hint => Sys2Proof.Machine.execVred op rd vb rc k hint s
  | .vscan op excl vd vb rc k hint => Sys2Proof.Machine.execVscan op excl vd vb rc k hint s
  | .vperm vd vb vc p k hint => Sys2Proof.Machine.execVperm vd vb vc p k hint s
  | .vslideUp vd vb rc rf k hint => Sys2Proof.Machine.execVslideUp vd vb rc rf k hint s
  | .vslideDown vd vb rc rf k hint => Sys2Proof.Machine.execVslideDown vd vb rc rf k hint s
  | .vcompress vd vb k hint => Sys2Proof.Machine.execVcompress vd vb k hint s
  | .vexpand vd vb k hint => Sys2Proof.Machine.execVexpand vd vb k hint s
  | .vext u rd vb rc hint => Sys2Proof.Machine.execVext u rd vb rc hint s
  | .vins vd rb rc hint => Sys2Proof.Machine.execVins vd rb rc hint s
  | .vfadd vd vb vc p k hint => Sys2Proof.Machine.execVfadd vd vb vc p k hint s
  | .vfsub vd vb vc p k hint => Sys2Proof.Machine.execVfsub vd vb vc p k hint s
  | .vfmul vd vb vc p k hint => Sys2Proof.Machine.execVfmul vd vb vc p k hint s
  | .vfdiv vd vb vc p k hint => Sys2Proof.Machine.execVfdiv vd vb vc p k hint s
  | .vfsqrt vd vb k hint => Sys2Proof.Machine.execVfsqrt vd vb k hint s
  | .vfrec vd vb k hint => Sys2Proof.Machine.execVfrec vd vb k hint s
  | .vfrsqrt vd vb k hint => Sys2Proof.Machine.execVfrsqrt vd vb k hint s
  | .vfexp2 vd vb k hint => Sys2Proof.Machine.execVfexp2 vd vb k hint s
  | .vfmin vd vb vc p k hint => Sys2Proof.Machine.execVfmin vd vb vc p k hint s
  | .vfmax vd vb vc p k hint => Sys2Proof.Machine.execVfmax vd vb vc p k hint s
  | .vfma vd vb vc va p k hint => Sys2Proof.Machine.execVfma vd vb vc va p k hint s
  | .vfcmp cond kd vb vc p k hint => Sys2Proof.Machine.execVfcmp cond kd vb vc p k hint s
  | .vfcvt dst src vd vb k hint => Sys2Proof.Machine.execVfcvt dst src vd vb k hint s
  | .vfred op rd vb rc k hint => Sys2Proof.Machine.execVfred op rd vb rc k hint s
  | .vpack fmt vd vb k hint => Sys2Proof.Machine.execVpack fmt vd vb k hint s
  | .vunpack vd vb rc k hint => Sys2Proof.Machine.execVunpack vd vb rc k hint s
  | .kand kd kb kc => Sys2Proof.Machine.execKand kd kb kc s
  | .kor kd kb kc => Sys2Proof.Machine.execKor kd kb kc s
  | .kxor kd kb kc => Sys2Proof.Machine.execKxor kd kb kc s
  | .knot kd kb => Sys2Proof.Machine.execKnot kd kb s
  | .kmv kd kb => Sys2Proof.Machine.execKmv kd kb s
  | .kset kd rb => Sys2Proof.Machine.execKset kd rb s
  | .kpopc rd kb => Sys2Proof.Machine.execKpopc rd kb s
  | .kfirst rd kb => Sys2Proof.Machine.execKfirst rd kb s
  | .mshape mode sparse rd rb rc rk hint => Sys2Proof.Machine.execMshape mode sparse rd rb rc rk hint s
  | .mldw cls space sparse rb rc vm hint => Sys2Proof.Machine.execMldw cls space sparse rb rc vm hint s
  | .mswap => Sys2Proof.Machine.execMswap s
  | .mmac zero ra rb rc hint => Sys2Proof.Machine.execMmac zero ra rb rc hint s
  | .mzero rb rc => Sys2Proof.Machine.execMzero rb rc s
  | .mld fmt ra rb rc hint => Sys2Proof.Machine.execMld fmt ra rb rc hint s
  | .mst fmt ra rb rc hint => Sys2Proof.Machine.execMst fmt ra rb rc hint s
  | .mrd vd rb k hint => Sys2Proof.Machine.execMrd vd rb k hint s
  | .mwr rb vc p k hint => Sys2Proof.Machine.execMwr rb vc p k hint s
  | .mchk rd => Sys2Proof.Machine.execMchk rd s
  | .cpy scope dsp ssp ra rb rc rtag atag => Sys2Proof.Machine.execCpy scope dsp ssp ra rb rc rtag atag s
  | .cpyd width fields scope dsp ssp ra rb rc rtag atag => Sys2Proof.Machine.execCpyd width fields scope dsp ssp ra rb rc rtag atag s
  | .coll op fmt scope dsp ssp ra rb rc rtag atag => Sys2Proof.Machine.execColl op fmt scope dsp ssp ra rb rc rtag atag s
  | .rred fmt scope rb vc rd tag p k hint => Sys2Proof.Machine.execRred fmt scope rb vc rd tag p k hint s
  | .twait rd tag => Sys2Proof.Machine.execTwait rd tag s
  | .twany rd rb => Sys2Proof.Machine.execTwany rd rb s
  | .tfirst rd rb => Sys2Proof.Machine.execTfirst rd rb s
  | .strandStop who n => Sys2Proof.Machine.execStrandStop who n s
  | .strandStopComplete n => Sys2Proof.Machine.execStrandStopComplete n s
  | .strandResume who n => Sys2Proof.Machine.execStrandResume who n s
  | .strandStep who n => Sys2Proof.Machine.execStrandStep who n s
  | .strandKill who n => Sys2Proof.Machine.execStrandKill who n s
  | .strandKillComplete n => Sys2Proof.Machine.execStrandKillComplete n s
  | .controlFieldStore who pa value => Sys2Proof.Machine.execControlFieldStore who pa value s
  | .frameKindStore who pa value => Sys2Proof.Machine.execFrameKindStore who pa value s
  | .activate who t => Sys2Proof.Machine.execActivate who t s
  | .teardown who t => Sys2Proof.Machine.execTeardown who t s
  | .scrubComplete t => Sys2Proof.Machine.execScrubComplete t s
  | .measnow who t => Sys2Proof.Machine.execMeasnow who t s
  | .counterCancel who t id => Sys2Proof.Machine.execCounterCancel who t id s
  | .cancelComplete t id => Sys2Proof.Machine.execCancelComplete t id s
  | .queueEnable who q => Sys2Proof.Machine.execQueueEnable who q s
  | .queueDisable who q => Sys2Proof.Machine.execQueueDisable who q s
  | .queueVerdict who q value => Sys2Proof.Machine.execQueueVerdict who q value s
  | .queueWake q => Sys2Proof.Machine.execQueueWake q s
  | .cmdJob q => Sys2Proof.Machine.execCmdJob q s
  | .cmdPhase q => Sys2Proof.Machine.execCmdPhase q s
  | .cmdGraph q => Sys2Proof.Machine.execCmdGraph q s
  | .cmdWait q => Sys2Proof.Machine.execCmdWait q s
  | .cmdSignal q => Sys2Proof.Machine.execCmdSignal q s
  | .completionWordWrite q index => Sys2Proof.Machine.execCompletionWordWrite q index s
  | .queueResourceFree q => Sys2Proof.Machine.execQueueResourceFree q s
  | .dispatchCreate => Sys2Proof.Machine.execDispatchCreate s
  | .readyEntryAge id => Sys2Proof.Machine.execReadyEntryAge id s
  | .readyEntryBlocking id => Sys2Proof.Machine.execReadyEntryBlocking id s
  | .strandWaitAge n => Sys2Proof.Machine.execStrandWaitAge n s
  | .strandResident n => Sys2Proof.Machine.execStrandResident n s
  | .preempt core heldLong => Sys2Proof.Machine.execPreempt core heldLong s
  | .firmwareWatchdog f => Sys2Proof.Machine.execFirmwareWatchdog f s
  | .modesStore who value => Sys2Proof.Machine.execModesStore who value s
  | .fqReplay who t seq => Sys2Proof.Machine.execFqReplay who t seq s
  | .fqDeny who t seq => Sys2Proof.Machine.execFqDeny who t seq s
  | .fqTsyncAll who t => Sys2Proof.Machine.execFqTsyncAll who t s
  | .fqTsyncPage who t page => Sys2Proof.Machine.execFqTsyncPage who t page s
  | .heldFaultWrite t => Sys2Proof.Machine.execHeldFaultWrite t s
  | .copyReleaseComplete id => Sys2Proof.Machine.execCopyReleaseComplete id s
  | .copyArrivalComplete id => Sys2Proof.Machine.execCopyArrivalComplete id s
  | .mldwLoadDone core => Sys2Proof.Machine.execMldwLoadDone core s
  | .matrixOpComplete core => Sys2Proof.Machine.execMatrixOpComplete core s
  | .matrixErrorStop core row => Sys2Proof.Machine.execMatrixErrorStop core row s
  | .collResultDeliver key seq => Sys2Proof.Machine.execCollResultDeliver key seq s
  | .collGroupLost key => Sys2Proof.Machine.execCollGroupLost key s
  | .rredElementAdd id elem => Sys2Proof.Machine.execRredElementAdd id elem s
  | .sealAbsorbComplete id => Sys2Proof.Machine.execSealAbsorbComplete id s
  | .chainStart who c => Sys2Proof.Machine.execChainStart who c s
  | .chainRelease who c => Sys2Proof.Machine.execChainRelease who c s
  | .linkopRemove who c die => Sys2Proof.Machine.execLinkopRemove who c die s
  | .linkopAppend who c die base => Sys2Proof.Machine.execLinkopAppend who c die base s
  | .chainAppendJoin c => Sys2Proof.Machine.execChainAppendJoin c s
  | .vineWriteAccept c => Sys2Proof.Machine.execVineWriteAccept c s
  | .dieFence who d forwarded => Sys2Proof.Machine.execDieFence who d forwarded s
  | .dieRestore who d => Sys2Proof.Machine.execDieRestore who d s
  | .islandStore who d k value => Sys2Proof.Machine.execIslandStore who d k value s
  | .bootPhase how => Sys2Proof.Machine.execBootPhase how s
  | .remoteStoreAck id taken => Sys2Proof.Machine.execRemoteStoreAck id taken s
  | .keyZeroiseComplete k => Sys2Proof.Machine.execKeyZeroiseComplete k s
  | .keyLoad who k => Sys2Proof.Machine.execKeyLoad who k s
  | .keyZeroise who k => Sys2Proof.Machine.execKeyZeroise who k s
  | .winStore who w value => Sys2Proof.Machine.execWinStore who w value s
  | .windowCompletion n answer => Sys2Proof.Machine.execWindowCompletion n answer s
  | .hostBar0Access offset size data => Sys2Proof.Machine.execHostBar0Access offset size data s
  | .hostBar2Access offset size data => Sys2Proof.Machine.execHostBar2Access offset size data s
  | .hostAtomicop => Sys2Proof.Machine.execHostAtomicop s
  | .packageReset => Sys2Proof.Machine.execPackageReset s
  | .hotReset => Sys2Proof.Machine.execHotReset s
  | .busMasterDisable => Sys2Proof.Machine.execBusMasterDisable s
  | .msixPendingSend => Sys2Proof.Machine.execMsixPendingSend s
  | .peerUp p gen => Sys2Proof.Machine.execPeerUp p gen s
  | .peerStateGone p => Sys2Proof.Machine.execPeerStateGone p s
  | .remoteAccessServe gen request => Sys2Proof.Machine.execRemoteAccessServe gen request s
  | .powerThrottle d k mhz => Sys2Proof.Machine.execPowerThrottle d k mhz s
  | .thermalThrottle d mhz => Sys2Proof.Machine.execThermalThrottle d mhz s
  | .thermalClamp d => Sys2Proof.Machine.execThermalClamp d s
  | .thermalPowerDown => Sys2Proof.Machine.execThermalPowerDown s
  | .limitClear d k => Sys2Proof.Machine.execLimitClear d k s
  | .firmwareStage images => Sys2Proof.Machine.execFirmwareStage images s
  | .pldmSensorRead which => Sys2Proof.Machine.execPldmSensorRead which s
  | .illegalEncoding => Sys2Proof.Machine.execIllegalEncoding s
  | .completionTimeout n => Sys2Proof.Machine.execCompletionTimeout n s
  | .trellisLinkFail p => Sys2Proof.Machine.execTrellisLinkFail p s
  | .pcieLinkUp status => Sys2Proof.Machine.execPcieLinkUp status s
  | .busMasterEnableSet => Sys2Proof.Machine.execBusMasterEnableSet s
  | .atomicopRequesterEnable => Sys2Proof.Machine.execAtomicopRequesterEnable s

end Sys2Proof.Machine
end

