-- ==== Sys2Proof/Machine/Fetch.lean ====
section
/-! DEFINITION. Issuing one instruction of a strand: fetching its line (R32, R185, R205, R206,
R275), decoding it (R35 to R39), and running it; and the state in which a given instruction stands
where the next step fetches. -/

namespace Sys2Proof.Machine

/-- The same target, `k` bytes lower. -/
def Target.down (x : Target) (k : Nat) : Target :=
  match x with
  | .spad c lane a => .spad c lane (a - k)
  | .hbm pa key r => .hbm (pa - k) key r
  | .control pa => .control (pa - k)
  | .window w off => .window w (off - k)
  | .remote pa g => .remote (pa - k) g
  | .vine c off key => .vine c (off - k) key

/-- An instruction fetch. -/
def fetchAccess : Access :=
  { way := .fetch, read := false, write := false, exec := true, width := 2, scope := none }

/-- A line of 64 bytes as bits (R32). -/
def lineBits (l : List Byte) : BitVec 512 := BitVec.ofNat 512 (natOfBytes l)

/-- The line the strand executes: the one memory holds, or one its core's instruction cache still
holds from an earlier fetch or prefetch, until an `icinv` discards it (R104, R205, R206). -/
def State.lineFor (s : State) (c t line : Nat) (fetched : BitVec 512) : BitVec 512 :=
  let held := ((s.core c).icache ++ (s.core c).reserved).filter fun l => l.tenant == t && l.line == line
  match held.map (·.bits) with
  | [] => fetched
  | l => (fetched :: l).getD (s.choose 0 (l.length + 1)) fetched

/-- A fetch from a frame outside the measured set clears the measured flag (R275). -/
def State.measureFetch (s : State) (t : Nat) (x : Target) : State :=
  let y := s.tenant t
  let inside := match x with
    | .hbm pa _ _ => y.measFrames.contains (pa / 65536)
    | _ => false
  if y.measured && !inside then s.updTenant t fun y => { y with measured := false } else s

/-- What a fetch of a core meets beyond its translation: a closed port (R225), poison (R257). -/
def State.fetchRefuses (s : State) (c : Nat) (pc : Word) : Target → Except Stop Unit
  | .window _ _ => demand (s.linkUp && s.busMaster) cPeerGone pc
  | x => demand (!s.poisonedAt (some (dieOfCore c)) x 2) cUncorrectable pc

/-- Fetch the line of the issuing strand's PC: its bits, and the state after the fetch, which sees the strand's own
writes (R206). DESIGN CHOICE (log 85): each
instruction is fetched as it issues, so none shows the bytes from before an `icinv` that R206 allows one fetched
earlier. -/
def State.fetchLine (s : State) : Except Stop (BitVec 512 × State) := do
  let x := s.me
  let t := x.owner.toNat
  let c := x.core
  let tgt ← s.resolve t c x.pc fetchAccess false
  let s := s.settleTarget s.cur tgt
  s.fetchRefuses c x.pc tgt
  let off := x.pc.toNat % 64
  let bits := lineBits (s.readTarget (tgt.down off) 64)
  let line := x.pc.toNat / 64
  let used := s.lineFor c t line bits
  .ok (used, (s.measureFetch t tgt).cacheLine c t line used)

/-- The instructions that a STEP leaves unperformed when they would wait (R223). -/
def stepsWhenWaiting : Instr → Bool
  | .cwait _ _ _ | .twait _ _ | .twany _ _ | .tfirst _ _ | .setvlf _ _ _ _ _ _ _
  | .mshape _ _ _ _ _ _ _ => true
  | _ => false

/-- A stepped `bar` ends its step once it has arrived (R221, R223). -/
def Strand.arrivedAt (x : Strand) : Instr → Bool
  | .bar n => x.barmark.any fun m => m.1 == n
  | _ => false

/-- A stepped strand whose instruction waits stops in state 3 with nothing more performed (R223). -/
def State.stepWait (s : State) (i : Instr) : State :=
  if (stepsWhenWaiting i || s.me.arrivedAt i) && s.me.state == 1#4 then s.updMe Strand.endStep else s

/-- The vector, mask, `mrd` and `mwr` instructions: their strand's vector state must be in a lane cluster
(R220). -/
def usesVectorUnit : Instr → Bool
  | .vld _ _ _ _ | .vlds _ _ _ _ _ | .vldx _ _ _ _ _ _ _ | .vldff _ _ _ _ | .vst _ _ _ _ | .vsts _ _ _ _ _
  | .vstx _ _ _ _ _ _ _ | .vamo _ _ _ _ _ _ _ _ _ _ _
  | .vadd _ _ _ _ _ _ | .vsub _ _ _ _ _ _ | .vmul _ _ _ _ _ _ | .vmulh _ _ _ _ _ _ _
  | .vmin _ _ _ _ _ _ _ | .vmax _ _ _ _ _ _ _ | .vand _ _ _ _ _ _ | .vor _ _ _ _ _ _ | .vxor _ _ _ _ _ _
  | .vshl _ _ _ _ _ _ | .vshr _ _ _ _ _ _ | .vsra _ _ _ _ _ _ | .vcmp _ _ _ _ _ _ _ | .vsel _ _ _ _ _ _
  | .vmv _ _ _ _ | .vmvScalar _ _ _ _ | .vid _ _ _ _ | .vred _ _ _ _ _ _ | .vscan _ _ _ _ _ _ _
  | .vperm _ _ _ _ _ _ | .vslideUp _ _ _ _ _ _ | .vslideDown _ _ _ _ _ _ | .vcompress _ _ _ _
  | .vexpand _ _ _ _ | .vext _ _ _ _ _ | .vins _ _ _ _
  | .vfadd _ _ _ _ _ _ | .vfsub _ _ _ _ _ _ | .vfmul _ _ _ _ _ _ | .vfdiv _ _ _ _ _ _ | .vfsqrt _ _ _ _
  | .vfrec _ _ _ _ | .vfrsqrt _ _ _ _ | .vfexp2 _ _ _ _ | .vfmin _ _ _ _ _ _ | .vfmax _ _ _ _ _ _
  | .vfma _ _ _ _ _ _ _ | .vfcmp _ _ _ _ _ _ _ | .vfcvt _ _ _ _ _ _ | .vfred _ _ _ _ _ _
  | .vpack _ _ _ _ _ | .vunpack _ _ _ _ _
  | .kand _ _ _ | .kor _ _ _ | .kxor _ _ _ | .knot _ _ | .kmv _ _ | .kset _ _ | .kpopc _ _ | .kfirst _ _
  | .mrd _ _ _ _ | .mwr _ _ _ _ _ => true
  | _ => false

/-- The mask registers an instruction names. -/
def masksOf : Instr → List Nat
  | .vld _ _ k _ | .vlds _ _ _ k _ | .vldx _ _ _ _ _ k _ | .vldff _ _ k _ | .vst _ _ k _ | .vsts _ _ _ k _
  | .vstx _ _ _ _ _ k _ | .vamo _ _ _ _ _ _ _ _ _ k _
  | .vadd _ _ _ _ k _ | .vsub _ _ _ _ k _ | .vmul _ _ _ _ k _ | .vmulh _ _ _ _ _ k _
  | .vmin _ _ _ _ _ k _ | .vmax _ _ _ _ _ k _ | .vand _ _ _ _ k _ | .vor _ _ _ _ k _ | .vxor _ _ _ _ k _
  | .vshl _ _ _ _ k _ | .vshr _ _ _ _ k _ | .vsra _ _ _ _ k _ | .vsel _ _ _ _ k _
  | .vmv _ _ k _ | .vmvScalar _ _ k _ | .vid _ _ k _ | .vred _ _ _ _ k _ | .vscan _ _ _ _ _ k _
  | .vperm _ _ _ _ k _ | .vslideUp _ _ _ _ k _ | .vslideDown _ _ _ _ k _ | .vcompress _ _ k _
  | .vexpand _ _ k _
  | .vfadd _ _ _ _ k _ | .vfsub _ _ _ _ k _ | .vfmul _ _ _ _ k _ | .vfdiv _ _ _ _ k _ | .vfsqrt _ _ k _
  | .vfrec _ _ k _ | .vfrsqrt _ _ k _ | .vfexp2 _ _ k _ | .vfmin _ _ _ _ k _ | .vfmax _ _ _ _ k _
  | .vfma _ _ _ _ _ k _ | .vfcvt _ _ _ _ k _ | .vfred _ _ _ _ k _ | .vpack _ _ _ k _ | .vunpack _ _ _ k _
  | .mrd _ _ k _ | .mwr _ _ _ k _ | .rred _ _ _ _ _ _ _ k _ => [k.toNat]
  | .vcmp _ kd _ _ _ k _ | .vfcmp _ kd _ _ _ k _ => [kd.toNat, k.toNat]
  | .kand a b c | .kor a b c | .kxor a b c => [a.toNat, b.toNat, c.toNat]
  | .knot a b | .kmv a b => [a.toNat, b.toNat]
  | .kset a _ | .kpopc _ a | .kfirst _ a => [a.toNat]
  | _ => []

/-- An instruction names k15 while an older `mst` of the strand has yet to write it: it waits (R326, R327). -/
def State.awaitsK15 (s : State) (i : Instr) : Bool :=
  let e := (s.core s.me.core).engine
  (masksOf i).contains 15 && e.holder == some s.cur && e.queue.any fun q => q.kind matches .mst _

/-- The issuing strand as an instruction finds it: its vector state in a cluster when the instruction needs
it there; none when there is no room (R220), or k15 is still to be written, and it waits. A handler that has
not claimed the unit is refused it (R215). -/
def State.withRoom (s : State) (i : Instr) : Option State :=
  if s.awaitsK15 i then none
  else if !usesVectorUnit i || s.me.vres || (s.me.inHandler && !s.me.claimed) then some s
  else s.takeRoom s.cur s.me.core

/-- An instruction that takes two entries of the scoreboard: both its ends lie in the scratchpad (R143). -/
def takesTwo : Instr → Bool
  | .cpy _ d c _ _ _ _ _ | .cpyd _ _ _ d c _ _ _ _ _ | .coll _ _ _ d c _ _ _ _ _ => d != 0#2 && c != 0#2
  | _ => false

/-- The scoreboard of a core has no entry for a strand, or only the first of the two that its instruction takes
(R146). DESIGN CHOICE (log 90): an instruction that takes two takes both or neither, and stands in the line until both
are free. -/
def State.boardLacks (s : State) (i : Instr) (c n : Nat) : Bool :=
  s.boardFull c n || (takesTwo i && (s.boardAdd c n 0 false [0]).boardFull c n)

/-- A strand that waits no more for an entry of the scoreboard leaves the line, and one whose access has been
performed gives its entry up (R146). -/
def State.leaveLine (s : State) (i : Instr) (n : Nat) (pc : Word) : State :=
  let x := s.strand n
  let y := s.core x.core
  let waits := x.pc == pc && x.state == 1#4
  let s := if y.boardLine.contains n && !(waits && s.boardLacks i x.core n) then
      s.updCore x.core fun y => { y with boardLine := y.boardLine.filter (· != n) } else s
  if y.boardHold.contains n && !waits then
    s.updCore x.core fun y => { y with boardHold := y.boardHold.filter (· != n) } else s

/-- Apply a function to a next state. -/
def onNext (f : State → State) : Host.Outcome State Fault Refusal →
    Host.Outcome State Fault Refusal
  | .next s => .next (f s)
  | .fault r => .fault r
  | .refused r => .refused r

/-- What the fetched line holds at the issuing strand's PC is run (R36 to R39). An end marker in slot 0 that
is reached in sequence leads to the next line (R36). An encoding that is
no instruction runs as the step ILLEGAL_ENCODING; its npc carries the address TRAPADDR takes: the
target of a transfer to what is no head slot, an end marker whatever follows it among them (R35, R306), 0 otherwise
(log 12). -/
def State.runLine (s : State) (line : BitVec 512) : Host.Outcome State Fault Refusal :=
  let pc := s.me.pc
  let base := pc &&& ~~~63#64
  match fetchFrom line base (pc.toNat % 64) with
  | .instr i next => match s.withRoom i with
    | none => .next s
    | some s => onNext (fun t => (t.stepWait i).leaveLine i s.cur pc) (exec i { s with npc := next })
  | .illegal =>
    let marker := slotAt line (pc.toNat % 64 / 2) == .endMarker false
    exec .illegalEncoding { s with npc := if marker && !s.me.inSequence then pc else 0#64 }
  | .notHead =>
    if s.me.inSequence ∧ pc = base ∧ slotAt line 0 = .endMarker true then
      .next (s.updMe fun x => { x with pc := base + 64#64 })
    else exec .illegalEncoding { s with npc := pc }

/-- The issuing strand fetches and runs an instruction. -/
def State.runNext (s : State) : Host.Outcome State Fault Refusal :=
  match s.fetchLine with
  | .error e => .next (s.stopped (maskOf false false true) e)
  | .ok (line, s') => s'.runLine line

/-- A wait of the issuing strand is over, its PC already that of the next instruction. -/
def State.waitDone (s : State) : State :=
  s.updMe fun x => ({ x with wait := .none, resumed := false } : Strand).endStep

/-- One step of a strand: what it waits for inside an instruction (R60, R90, R229, R257, R280), or an
instruction. A strand that may not issue does nothing. -/
def State.issue (s : State) (n : Nat) : Host.Outcome State Fault Refusal :=
  if !s.canIssue n then .next s
  else
    let s := { s with cur := n }
    onNext (fun t => s.issued t n) <| match s.me.wait with
    | .none => s.runNext
    | .stopping => .next s
    | .rollback => .next (if s.hasOps n s.me.ckpt.since then s else s.updMe Strand.rollBack)
    | .act pa => .next (if s.actPending pa then s else (s.newRegion n).waitDone)
    | .peerAct pa _ => .next (if s.peerActs.contains pa then s else (s.newRegion n).waitDone)
    | .peerSeal pa _ rd npc => .next (if s.peerActs.contains pa then s else s.peerSealClosed pa rd npc)
    | .cancel id => .next (match s.findRecord s.me.owner.toNat id with
      | some r => if r.state = 3#3 then s else s.waitDone
      | none => s.waitDone)
    | .window => .next s
    | .sealClose m rd npc => .next (if s.absorbing m then s else s.sealClosed m rd npc)

/-! Stopping part-way (R22, R159, R219). -/

/-- The restartable instructions, with the vector register each writes (R22). -/
def partDest : Instr → Option (Option VReg)
  | .vld v _ _ _ | .vlds v _ _ _ _ | .vldx _ v _ _ _ _ _ | .vldff v _ _ _ => some (some v)
  | .vst _ _ _ _ | .vsts _ _ _ _ _ | .vstx _ _ _ _ _ _ _ | .mwr _ _ _ _ _ => some none
  | .vamo _ _ _ _ v _ _ _ _ _ _ => some (some v)
  | .vadd v _ _ _ _ _ | .vsub v _ _ _ _ _ | .vmul v _ _ _ _ _ | .vmulh _ v _ _ _ _ _
  | .vmin _ v _ _ _ _ _ | .vmax _ v _ _ _ _ _ | .vand v _ _ _ _ _ | .vor v _ _ _ _ _ | .vxor v _ _ _ _ _
  | .vshl v _ _ _ _ _ | .vshr v _ _ _ _ _ | .vsra v _ _ _ _ _ | .vsel v _ _ _ _ _
  | .vmv v _ _ _ | .vmvScalar v _ _ _ | .vid v _ _ _
  | .vfadd v _ _ _ _ _ | .vfsub v _ _ _ _ _ | .vfmul v _ _ _ _ _ | .vfdiv v _ _ _ _ _ | .vfsqrt v _ _ _
  | .vfrec v _ _ _ | .vfrsqrt v _ _ _ | .vfexp2 v _ _ _ | .vfmin v _ _ _ _ _ | .vfmax v _ _ _ _ _
  | .vfma v _ _ _ _ _ _ | .vfcvt _ _ v _ _ _ | .mrd v _ _ _ => some (some v)
  | .vcmp _ _ _ _ _ _ _ | .vfcmp _ _ _ _ _ _ _ => some none
  | _ => none

/-- Where an instruction may stop: at an element, `mrd` and `mwr` at a whole row (R159). -/
def Strand.cutStep (x : Strand) : Instr → Nat
  | .mrd _ _ _ _ | .mwr _ _ _ _ _ => 1024 / x.width
  | _ => 1

/-- An elementwise comparison: its result is the mask register it names, k14 like any other. -/
def writesMask : Instr → Bool
  | .vcmp _ _ _ _ _ _ _ | .vfcmp _ _ _ _ _ _ _ => true
  | _ => false

/-- The issuing strand with the part of an instruction below an element performed, PC still at it (R22): what
its completion would have changed is as it was, k14 with it where the instruction names k14 by itself (R19). -/
def Strand.cutAt (x old : Strand) (i : Instr) (vd : Option VReg) (e : Nat) : Strand :=
  let y := x.vectorStop vd e
  { (if writesMask i then y else y.setK 14 (old.kreg 14)) with
    pc := old.pc, vl := old.vl, inSequence := old.inSequence, reissue := old.reissue
    prevBatch := old.prevBatch, rolled := old.rolled, k14pc := old.k14pc, resumed := old.resumed
    ckpt := old.ckpt }

/-- What is performed of an instruction that stops part-way: a `vamo` acquires only as it completes (R350). -/
def partOf : Instr → Instr
  | .vamo op w _ sc vd rb vc vi p k h => .vamo op w 0#2 sc vd rb vc vi p k h
  | i => i

/-- An instruction has completed, and has not entered a handler that stands where the next one does. -/
def State.goesOn (s t : State) : Bool :=
  t.me.pc == s.npc && t.me.state == s.me.state && t.me.inHandler == s.me.inHandler && t.me.vstart == 0#32

/-- The whole instruction passes its checks at issue, its release done: it completes, or stops at an element no
lower than a given one. -/
def State.passes (s : State) (i : Instr) (cut : Nat) : Bool :=
  match exec i s with
  | .next t => s.goesOn t || decide (cut ≤ t.me.vstart.toNat)
  | _ => false

/-- An instruction performed below an element that the spec does not name: none when it does not get that
far, or when performing the rest would not give what the whole gives (R14). -/
def State.execPart (s : State) (i : Instr) : Option State := do
  let vd ← partDest i
  let x := s.me
  let step := x.cutStep i
  let first := x.vstart.toNat / step + 1
  let n := (x.vl.toNat + step - 1) / step - first
  let cut := step * (first + s.choose 9 n)
  if n = 0 ∨ !s.passes i cut then none
  else match exec (partOf i) { s.updMe fun x => { x with vl := BitVec.ofNat 32 cut } with npc := s.npc } with
    | .next t =>
      if s.goesOn t ∧ t.me.vl.toNat = cut then
        let part := t.updMe fun y => y.cutAt x i vd cut
        match exec i part, exec i s with
        | .next a, .next b => if a.me.vec = b.me.vec then some part else none
        | _, _ => none
      else none
    | _ => none

/-- A strand in a slot has nothing outstanding and no step to end. -/
def State.atRest (s : State) (n : Nat) : Bool :=
  let x := s.strand n
  !s.halted && x.place.isSome && x.wait == .none && !x.stepping

/-- The next instruction of a strand, performed part-way (R22); none when it cannot stop so. -/
def State.cutNext (s : State) (n : Nat) : Option State :=
  match ({ s with cur := n } : State).fetchLine with
  | .error _ => none
  | .ok (line, t) =>
    let pc := t.me.pc
    match fetchFrom line (pc &&& ~~~63#64) (pc.toNat % 64) with
    | .instr i next => (t.withRoom i).bind fun t => ({ t with npc := next } : State).execPart i
    | _ => none

/-- A strand is stopping, and the instruction at its PC had been issued before (R22, R67). -/
def State.mayCut (s : State) (n : Nat) : Bool := s.atRest n && (s.strand n).state == 2#4

/-- It stops part-way. -/
def State.partWay (s : State) (n : Nat) : State := if s.mayCut n then (s.cutNext n).getD s else s

/-- A core pre-empts a strand in the middle of an instruction (R96, R219): the strand and the one that takes its
slot are those of PREEMPT. -/
def State.preemptPartWay (s : State) (core : Nat) (heldLong : List Nat) : State :=
  match s.preemptPair core heldLong with
  | some (v, w) =>
    if s.atRest v ∧ (s.strand v).state = 1#4 then
      ((s.cutNext v).bind fun t => t.preempt core v w).getD s
    else s
  | none => s

/-! Prefetch (R8, R104). -/

/-- The lines of 16 KiB from an address, as far as a fetch of each meets nothing, and none behind a leaf with
NS = 1 (R193). -/
def State.prefetchLines (s : State) (c t : Nat) (va : Word) : Nat → List CacheLine
  | 0 => []
  | n + 1 => match s.resolve t c va fetchAccess false with
    | .ok tgt =>
      if (s.leafAt t (va.toNat / 65536)).any fun e => e.getLsbD 5 then []
      else match s.fetchRefuses c va tgt with
        | .ok _ => { line := va.toNat / 64, tenant := t, bits := lineBits (s.readTarget tgt 64) } ::
            s.prefetchLines c t (va + 64#64) n
        | .error _ => []
    | .error _ => []

/-- The reserved way of each compute core of an entry's pool holds the start of its kernel (R104); faults
are ignored. Stores on the way to other packages arrive first (R206). -/
def State.prefetch (s : State) (id : Nat) : State :=
  match s.ready.find? fun e => e.id == id with
  | none => s
  | some e =>
    let s := s.remoteDrain
    ((s.poolOf e.tenant e.node).filter fun c => !isSteward c).foldl (fun s c =>
      let l := s.prefetchLines c e.tenant ((e.node.entry.setWidth 64) &&& ~~~63#64) 256
      s.updCore c fun x => { x with reserved := l }) s

/-! The state whose next step runs a given instruction (log 2). -/

/-- The virtual address, and the local frames of the code, of the tables. -/
def placeVa : Nat := 0x6000000
def placeCode : Nat := 0x300000
def placeTables : Nat := 0x340000

/-- The pointers and the leaf that map `placeVa` to `placeCode`, executable (R186 to R188), in two
table frames: the L3 table fills the first, the L0, L2 and L1 tables stand in the second. -/
def placeEntries : List (Nat × Nat) :=
  [ (placeTables, placeTables + 0x14000 + 1)
  , (placeTables + 0x14000, placeTables + 0x18000 + 1)
  , (placeTables + 0x18000 + 8 * 48, placeTables + 0x10000 + 1)
  , (placeTables + 0x10000, placeCode + 0x9) ]

/-- Tenant 1 active with those tables, strand 0 of it running in slot 0 of core 0, its PC at the
code line, which holds the instruction in its slot 0; the agenda lets that strand issue next. -/
def State.placed (s : State) (line : BitVec 512) : State :=
  { s with
    agenda := [.issue 0]
    tenants := insertAt s.tenants 1
      { s.tenant 1 with state := 1#3, root := BitVec.ofNat 40 (placeTables / 65536) }
    frames := insertAt (insertAt s.frames (placeTables / 65536) 1#4) (placeTables / 65536 + 1) 1#4
    mem := writeBytes
      (placeEntries.foldl (fun m e => writeBytes m e.1 (bytesOf 8 e.2)) s.mem)
      placeCode (bytesOf 64 line.toNat)
    strands := insertAt s.strands 0
      { s.strand 0 with
        state := 1#4, owner := 1#8, place := some { core := 0, slot := 0 }, vres := true, seated := true
        pc := BitVec.ofNat 64 placeVa } }

end Sys2Proof.Machine
end

