-- ==== Sys2Proof/Machine/Sched.lean ====
section
/-! DEFINITION. Which agent moves next (log 2): the agenda's first action, else what is enabled. -/

namespace Sys2Proof.Machine

/-- The steps that are package events, not instructions of a strand. -/
def isEvent : Instr → Bool
  | .strandStop _ _ | .strandStopComplete _ | .strandResume _ _ | .strandStep _ _
  | .strandKill _ _ | .strandKillComplete _ | .controlFieldStore _ _ _ | .frameKindStore _ _ _
  | .activate _ _ | .teardown _ _ | .scrubComplete _ | .measnow _ _ | .counterCancel _ _ _
  | .cancelComplete _ _ | .queueEnable _ _ | .queueDisable _ _ | .queueVerdict _ _ _
  | .queueWake _ | .cmdJob _ | .cmdPhase _ | .cmdGraph _ | .cmdWait _ | .cmdSignal _
  | .completionWordWrite _ _ | .queueResourceFree _ | .dispatchCreate | .readyEntryAge _
  | .readyEntryBlocking _ | .strandWaitAge _ | .strandResident _ | .preempt _ _
  | .firmwareWatchdog _ | .modesStore _ _ | .fqReplay _ _ _ | .fqDeny _ _ _ | .fqTsyncAll _ _
  | .fqTsyncPage _ _ _ | .heldFaultWrite _ | .copyReleaseComplete _ | .copyArrivalComplete _
  | .mldwLoadDone _ | .matrixOpComplete _ | .matrixErrorStop _ _ | .collResultDeliver _ _
  | .collGroupLost _ | .rredElementAdd _ _ | .sealAbsorbComplete _ | .chainStart _ _
  | .chainRelease _ _ | .linkopRemove _ _ _ | .linkopAppend _ _ _ _ | .chainAppendJoin _
  | .vineWriteAccept _ | .dieFence _ _ _ | .dieRestore _ _ | .islandStore _ _ _ _
  | .keyLoad _ _ | .keyZeroise _ _ | .keyZeroiseComplete _ | .winStore _ _ _
  | .windowCompletion _ _ | .hostBar0Access _ _ _ | .hostBar2Access _ _ _ | .hostAtomicop
  | .packageReset | .bootPhase _ | .hotReset | .busMasterDisable | .msixPendingSend
  | .peerUp _ _ | .peerStateGone _ | .remoteAccessServe _ _ | .powerThrottle _ _ _
  | .thermalThrottle _ _ | .thermalClamp _ | .thermalPowerDown | .limitClear _ _
  | .firmwareStage _ | .pldmSensorRead _ | .completionTimeout _ | .remoteStoreAck _ _
  | .trellisLinkFail _ | .pcieLinkUp _ | .busMasterEnableSet | .atomicopRequesterEnable => true
  | _ => false

/-- Time passes with every step: TIME for the package, which never runs back, CYCLE for the strands in a
slot (R24, log 8); the counter of the free values advances (log 4). -/
def State.elapse (s : State) : State :=
  let ns := Config.elapsed s.tick
  let now := satAdd s.time ns
  { s with
    tick := s.tick + 1
    time := now
    strands := mapTable s.strands fun _ x =>
      if x.place.isSome then { x with cycle := x.cycle + BitVec.ofNat 64 ns, left := now } else x }

/-- A package event of the agenda: one that is well formed; a package that is halted takes none but a
reset and what the host port still answers (R288, R292). -/
def State.event (s : State) (i : Instr) : Host.Outcome State Fault Refusal :=
  let answered := match i with
    | .packageReset | .hostBar0Access _ _ _ | .hostBar2Access _ _ _ | .hostAtomicop => true
    | _ => !s.halted
  if isEvent i && i.wf && answered then exec i s else .next s

/-- A participant in another package has ended: its group loses what it has not produced (R242). -/
def Group.loses (g : Group) : Group := { g with ended := true, lostSeqs := g.pendingSeqs ++ g.lostSeqs }

/-- Moves of the package's own parts, which one that is halted or powered down does not make (R288, R292). -/
def Action.own : Action → Bool
  | .issue _ | .partWay _ | .preemptPartWay _ _ | .hostNext | .serveDone _ | .contribution _ _ | .scrub _
  | .prefetch _ | .flowClose _ | .dieFails _ | .telemetry | .frequency _ _ _ => true
  | .event _ | .hostMemory _ _ | .peerMemory _ _ | .peerControl _ _ | .peerRefuses _ _ | .peerCtlRefuses _ _
  | .peerGeneration _ _ | .peerActDone _ | .hostBar4 _ _ | .hostBar _ _ | .hostDevCtl2 _ | .poisonHbm _ _
  | .poisonSpad _ _ | .poisonVector _ _ | .laneError _ _ | .matrixUpset _ _ | .participantEnded _
  | .temperature _ _ | .power _ => false

/-- One action of the agenda. -/
def State.perform (s : State) (a : Action) : Host.Outcome State Fault Refusal :=
  if s.halted && a.own then .next s
  else match a with
  | .issue n => onNext (fun t => { t with failing := [] }) (s.issue n)
  | .event i => s.event i
  | .hostMemory addr bytes => .next { s with hostMem := writeBytes s.hostMem addr bytes }
  | .peerMemory pa bytes => .next { s with peerMem := writeBytes s.peerMem pa bytes }
  | .peerControl pa v => .next { s with peerCtl := insertAt s.peerCtl pa v }
  | .peerRefuses f c => .next { s with peerRefuse := putAt s.peerRefuse f c }
  | .peerCtlRefuses pa c => .next { s with peerCtlRefuse := putAt s.peerCtlRefuse pa c }
  | .peerGeneration p g => .next { s with peerGens := insertAt s.peerGens p g }
  | .peerActDone pa => .next { s with peerActs := s.peerActs.filter (· != pa) }
  | .serveDone pa => .next (s.serveDone pa)
  | .hostNext => .next s.hostNext
  | .hostBar4 w data => .next (s.hostBar4 w data)
  | .hostBar i base => .next (s.hostBar i base)
  | .hostDevCtl2 v => .next (s.hostDevCtl2 v)
  | .partWay n => .next (s.partWay n)
  | .preemptPartWay core heldLong => .next (s.preemptPartWay core heldLong)
  | .poisonHbm b tr => .next { s with poison := insertAt s.poison b tr }
  | .poisonSpad c b => .next (s.updCore c fun x => { x with poison := b :: x.poison })
  | .poisonVector n r => .next (s.updStrand n fun x => { x with poisonV := r :: x.poisonV })
  | .laneError n e => .next (s.updStrand n fun x => { x with laneError := some e })
  | .matrixUpset c row => .next (s.updCore c fun x =>
      { x with engine := { x.engine with upset := row :: x.engine.upset } })
  | .contribution k c =>
    .next (s.updGroup k.toNat fun g => { g with contribs := g.contribs ++ [c] })
  | .participantEnded k => .next (s.updGroup k.toNat Group.loses)
  | .scrub t => .next (s.scrubOne t)
  | .prefetch id => .next (s.prefetch id)
  | .flowClose id => .next (s.flowClose id)
  | .dieFails d => .next (s.dieFails d)
  | .telemetry => .next s.telemetry
  | .frequency d i mhz => .next (s.frequency d i mhz)
  | .temperature d t => .next (s.heat d t)
  | .power w => .next { s with power := w }

/-- The strands that may issue. -/
def State.issuable (s : State) : List Nat :=
  (s.strands.filter fun e => s.canIssue e.1).map (·.1)

/-! The events that may happen by themselves, part by part. -/

/-- An event when a condition holds. -/
def eventIf (b : Bool) (i : Instr) : List Instr := if b then [i] else []

def State.strandEvents (s : State) (n : Nat) : List Instr :=
  let x := s.strand n
  eventIf (s.stopReady n) (.strandStopComplete n) ++
  eventIf (x.killing && !s.outstanding n) (.strandKillComplete n) ++
  eventIf x.unseated (.strandResident n)

def State.tenantEvents (s : State) (t : Nat) : List Instr :=
  let x := s.tenant t
  eventIf (s.scrubDone t) (.scrubComplete t) ++
  eventIf (!x.fqHolding.isEmpty) (.heldFaultWrite t) ++
  (x.records.filter fun e => e.2.cancelled).map fun e => .cancelComplete t e.2.ident

def State.queueEvents (s : State) (q : Nat) : List Instr :=
  let x := s.queue q
  let op := match x.current with
    | some r => if x.state = 2#3 then recordOp r else 0
    | none => 0
  eventIf x.woken (.queueWake q) ++ eventIf (op == 1) (.cmdJob q) ++ eventIf (op == 2) (.cmdPhase q) ++
  eventIf (op == 3) (.cmdGraph q) ++ eventIf (op == 4) (.cmdWait q) ++
  eventIf (op == 5 || x.nextSignal.isSome) (.cmdSignal q) ++
  eventIf (x.state == 3#3 && s.queueFree q || s.barredAwaiting q) (.queueResourceFree q) ++
  (x.pending.filter fun c => c.done && c.waits == .none).map fun c => .completionWordWrite q c.serial

def EngineOp.events (id : Nat) (o : EngineOp) : List Instr :=
  match o.kind with
  | .copy _ => eventIf (!o.released) (.copyReleaseComplete id) ++ eventIf o.released (.copyArrivalComplete id)
  | .coll _ _ _ _ _ _ _ _ _ _ => eventIf (!o.released) (.copyReleaseComplete id) ++
    eventIf (o.released && !o.buffer.isEmpty) (.copyArrivalComplete id)
  | .rred _ _ _ elems => elems.map fun e => .rredElementAdd id e.1
  | .absorb _ _ _ => [.sealAbsorbComplete id]

def Core.events (c : Nat) (x : Core) : List Instr :=
  eventIf (x.engine.shadow.state == 1#2) (.mldwLoadDone c) ++
  eventIf (!x.engine.queue.isEmpty) (.matrixOpComplete c)

def Group.events (k : Nat) (g : Group) : List Instr :=
  g.pendingSeqs.map (fun q => .collResultDeliver (BitVec.ofNat 64 k) q) ++
  eventIf (!g.lostSeqs.isEmpty) (.collGroupLost (BitVec.ofNat 64 k))

def Chain.events (c : Nat) (x : Chain) : List Instr :=
  eventIf x.append.isSome (.chainAppendJoin c) ++ eventIf (!x.inflight.isEmpty) (.vineWriteAccept c)

/-- The limits of a die's islands that its junction and the package's power set or clear (R292), with a
frequency F6 chooses. -/
def State.limitEvents (s : State) (d : Nat) : List Instr :=
  let t := (s.die d).temp.toNat
  let l := (s.die d).islands.toList
  let mhz := BitVec.ofNat 12 (1 + s.choose (512 + d) 999)
  eventIf (decide (105 < t) && l.any fun y => y.state != 2#2 && (y.state != 3#2 || y.current != 250#12))
    (.thermalClamp d) ++
  eventIf (decide (95 < t) && l.any fun y => y.lowers mhz) (.thermalThrottle d mhz) ++
  ((List.range 12).filter fun i => s.limitOver d i).map (.limitClear d) ++
  if s.pwrlim.toNat < s.power.toNat then
    ((List.range 9).filter fun i => s.highestCluster d i && (s.island d i).lowers mhz).map (.powerThrottle d · mhz)
  else []

/-- The package's own events that may happen. -/
def State.enabled (s : State) : List Instr :=
  if s.halted then []
  else
    eventIf (!s.identity) (.bootPhase .success) ++
    s.strands.flatMap (fun e => s.strandEvents e.1) ++ s.tenants.flatMap (fun e => s.tenantEvents e.1) ++
    s.queues.flatMap (fun e => s.queueEvents e.1) ++ eventIf (!s.ready.isEmpty) .dispatchCreate ++
    s.ops.flatMap (fun e => EngineOp.events e.1 e.2) ++ s.cores.flatMap (fun e => Core.events e.1 e.2) ++
    s.groups.flatMap (fun e => Group.events e.1 e.2) ++ s.chains.flatMap (fun e => Chain.events e.1 e.2) ++
    (s.keys.filter fun e => e.2.state == 4#3).map (fun e => .keyZeroiseComplete e.1) ++
    eventIf (s.msixPending.any s.msixOpen) .msixPendingSend ++
    eventIf ((List.range 13).any fun d => decide (115 < (s.junction d).toNat)) .thermalPowerDown ++
    (List.range 4).flatMap s.limitEvents ++ s.remote.map fun e => .remoteStoreAck e.1 true

/-- What the package's agents may do besides. -/
def State.works (s : State) : List Action :=
  if s.halted then []
  else
    ((s.strands.filter fun e => s.mayCut e.1).map fun e => .partWay e.1) ++
    ((s.tenants.filter fun e => s.scrubRuns e.1 && !e.2.scrubLeft.isEmpty).map fun e => .scrub e.1) ++
    (s.ready.map fun e => .prefetch e.id) ++
    ((s.closes.filter fun e => e.waits == .none).map fun e => .flowClose e.id) ++
    (s.peerActs.map .peerActDone) ++ ((s.serving.filter fun pa => !s.actPending pa).map .serveDone) ++
    if s.hostQueue.isEmpty then [] else [.hostNext]

/-- What may move by itself: a strand, or an agent of the package. -/
def State.candidates (s : State) : List Action := s.issuable.map .issue ++ s.enabled.map .event ++ s.works

/-- The next move: the agenda's, the only candidate, one chosen among several, or none. -/
def State.move (s : State) : Host.Outcome State Fault Refusal :=
  match s.agenda with
  | a :: r => onNext State.elapse ({ s with agenda := r }.perform a)
  | [] =>
    match s.candidates with
    | [] => if s.halted then .fault .halted else .next s.elapse
    | [a] => onNext State.elapse (s.perform a)
    | a :: b :: r =>
      let l := a :: b :: r
      onNext State.elapse (s.perform (l.getD (s.choose 1 l.length) a))

end Sys2Proof.Machine
end

