-- ==== Sys2Proof/Machine/Step.lean ====
section
/-! DEFINITION. One step of the package. -/

namespace Sys2Proof.Machine

/-- One step: one row of spec/opcode_table.json, or an input of the outside world (log 1, log 2). -/
def step (s : State) : Host.Outcome State Fault Refusal := s.move

/-- `s` with an instruction, given as the opcode table numbers its bits, where the next step fetches
(log 2, log 11); `s` itself when the bits are no head and tail. -/
def State.withFetchWord (s : State) (nbits w : Nat) : State :=
  match tableLine nbits w with
  | some line => s.placed line
  | none => s

end Sys2Proof.Machine
end

