-- ==== Sys2Proof/Safety.lean ====
section
/-! DEFINITION. The terms claims are made in: what counts as a safe run, how an instruction retires,
what it leaves unchanged, and the exact arithmetic results are compared with. -/

namespace Sys2Proof.Machine

/-- A step is safe when it answers a next state. -/
def Safe (s : State) : Prop := ∃ t, step s = .next t

/-- `k` steps answer a state. -/
def SafeFor (s : State) : Nat → Prop
  | 0 => True
  | k + 1 => ∃ t, step s = .next t ∧ SafeFor t k

/-- A step of the table completes at `s`, and the state it leaves satisfies `P`. -/
def Completes (i : Instr) (s : State) (P : State → Prop) : Prop := ∃ t, exec i s = .next t ∧ P t

/-- What a control store leaves once its action is taken: of the strand that made it, if one did (R60, R258). -/
def State.storedFor (s : State) (who : Agent) (pa : Nat) : State :=
  match who with
  | .host => s
  | .strand n => s.storedBy n pa

/-- An agent's store to a control word completes at `s`: its action leaves a state that satisfies `P`. -/
def Stores (i : Instr) (s : State) (who : Agent) (pa : Nat) (P : State → Prop) : Prop :=
  ∃ t : State, exec i s = .next (t.storedFor who pa) ∧ P t

/-! Frames. -/

/-- Nothing but the strand that issues has changed: every other strand, all memory, every tag and
every register of the package are as before. -/
structure OnlyMe (s t : State) : Prop where
  rest   : { t with strands := s.strands } = s
  others : ∀ n, n ≠ s.cur → t.strand n = s.strand n

/-- The issuing strand's instruction has retired to an address: it goes on there, or, when it is being
stepped, stops there in state 3 with cause STEP (R36, R223). -/
structure RetiredAt (s t : State) (pc : Word) : Prop where
  pc      : t.me.pc = pc
  running : s.me.stepping = false →
    t.me.state = s.me.state ∧ t.me.cause = s.me.cause ∧ t.me.place = s.me.place
  stepped : s.me.stepping = true →
    t.me.state = 3#4 ∧ t.me.cause = 0x17#8 ∧ t.me.place = none ∧ t.me.stepping = false

/-- A strand with the fields that retirement writes put aside: what an instruction's frame compares. -/
def Strand.settled (x : Strand) : Strand :=
  { x with
    pc := 0#64, inSequence := false, resumed := false, wait := .none, reissue := false, prevBatch := []
    rolled := false
    stepping := false, state := 0#4, cause := 0#8, place := none, cls := 0#2 }

/-- The instruction writes `v` to a scalar register and retires; `s0` reads zero and discards what is
written (R15). Nothing else changes: no other register, no flag, no special register, no byte. -/
structure ScalarResult (s t : State) (rd : SReg) (v : Word) : Prop where
  only    : OnlyMe s t
  retired : RetiredAt s t s.npc
  regs    : ∀ r, t.sreg r = if r = 0#5 then 0#64 else if r = rd then v else s.sreg r
  frame   : t.me.settled = { s.me.settled with s := t.me.s }

/-- The same for a floating-point result: the flags are ORed into FFLAGS, and no other flag bit or
register changes (R117). -/
structure FloatResult (s t : State) (rd : SReg) (v : Word) (g : Flags) : Prop where
  only    : OnlyMe s t
  retired : RetiredAt s t s.npc
  regs    : ∀ r, t.sreg r = if r = 0#5 then 0#64 else if r = rd then v else s.sreg r
  flags   : t.me.fflags = s.me.fflags ||| g
  frame   : t.me.settled = { s.me.settled with s := t.me.s, fflags := t.me.fflags }

/-- The instruction only retires to an address (R36, R39). -/
structure OnlyRetires (s t : State) (pc : Word) : Prop where
  only    : OnlyMe s t
  retired : RetiredAt s t pc
  frame   : t.me.settled = s.me.settled

/-! Exact arithmetic (R112, R113, R304). -/

/-- The operand width of the integer group (R303). -/
def groupBits (w : BitVec 2) : Nat := if w = 0#2 then 64 else 32

/-- A source as a signed and as an unsigned number at that width (R44). -/
def signedAt (w : BitVec 2) (x : Word) : Int := if w = 0#2 then x.toInt else (x.setWidth 32).toInt
def unsignedAt (w : BitVec 2) (x : Word) : Nat := x.toNat % 2 ^ groupBits w

/-- An exact result narrowed to the width, and sign-extended to 64 bits (R44, R304). -/
def narrowed (w : BitVec 2) (z : Int) : Word :=
  if w = 0#2 then BitVec.ofInt 64 z else (BitVec.ofInt 32 z).signExtend 64

/-- Number `k` is that of the leading zeros of the low `n` bits of a word. -/
def IsLeadingZeros (x : Word) (n k : Nat) : Prop :=
  k ≤ n ∧ (∀ i, n - k ≤ i → i < n → x.getLsbD i = false) ∧ (k < n → x.getLsbD (n - 1 - k) = true)

/-- Number `k` is that of the trailing zeros of the low `n` bits of a word. -/
def IsTrailingZeros (x : Word) (n k : Nat) : Prop :=
  k ≤ n ∧ (∀ i, i < k → x.getLsbD i = false) ∧ (k < n → x.getLsbD k = true)

/-- A condition code of R44 on two words: signed and unsigned comparison of whole registers. -/
def conditionMet (code : Nat) (x y : Word) : Prop :=
  (code = 0 ∧ x = y) ∨ (code = 1 ∧ x ≠ y) ∨ (code = 2 ∧ x.toInt < y.toInt) ∨
  (code = 3 ∧ y.toInt ≤ x.toInt) ∨ (code = 4 ∧ x.toNat < y.toNat) ∨ (code = 5 ∧ y.toNat ≤ x.toNat)

/-! Taking an exception (R207, R210, R211, R214). -/

/-- The strand has entered its handler (R210): the trap registers, the handler's address, no valid
checkpoint (R258). A stepped strand stops there with STEP, a stopping one in state 3 (R222, R223). -/
structure EntersHandler (s t : State) (cause : Nat) (pc addr : Word) : Prop where
  only      : OnlyMe s t
  trapcause : t.me.trapcause = BitVec.ofNat 8 cause
  trappc    : t.me.trappc = pc.setWidth 57
  trapaddr  : t.me.trapaddr = addr.setWidth 57
  inside    : t.me.inHandler = true
  target    : t.me.pc = s.me.trapvec.setWidth 64
  ckpt      : t.me.ckpt = { s.me.ckpt with valid := false }
  running   : s.me.stepping = false → s.me.state ≠ 2#4 →
    t.me.state = s.me.state ∧ t.me.place = s.me.place
  stopping  : s.me.stepping = false → s.me.state = 2#4 → t.me.state = 3#4 ∧ t.me.place = none
  stepped   : s.me.stepping = true →
    t.me.state = 3#4 ∧ t.me.cause = 0x17#8 ∧ t.me.place = none ∧ t.me.stepping = false
  frame     : t.me.settled = { s.me.settled with
    trapcause := t.me.trapcause, trappc := t.me.trappc, trapaddr := t.me.trapaddr
    inHandler := true, ckpt := t.me.ckpt }

/-- The strand has stopped in state 4 with a cause, its trap registers set, PC at an address (R207). -/
structure StopsTrapped (s t : State) (cause : Nat) (pc addr : Word) : Prop where
  only      : OnlyMe s t
  trapcause : t.me.trapcause = BitVec.ofNat 8 cause
  trappc    : t.me.trappc = pc.setWidth 57
  trapaddr  : t.me.trapaddr = addr.setWidth 57
  status    : t.me.state = 4#4 ∧ t.me.cause = BitVec.ofNat 8 cause ∧ t.me.place = none
  pc        : t.me.pc = pc
  frame     : t.me.settled = { s.me.settled with
    trapcause := t.me.trapcause, trappc := t.me.trappc, trapaddr := t.me.trapaddr }

/-- The strand has stopped inside its handler (R211): TRAPSTATE.nested is set, and the trap registers
keep the values of the first trap. -/
structure StopsNested (s t : State) (cause : Nat) (pc : Word) : Prop where
  only   : OnlyMe s t
  nested : t.me.nested = true
  status : t.me.state = 4#4 ∧ t.me.cause = BitVec.ofNat 8 cause ∧ t.me.place = none
  pc     : t.me.pc = pc
  frame  : t.me.settled = { s.me.settled with nested := true }

/-- A cause of the handler disposition is raised by the issuing strand (R207). -/
structure Raises (s t : State) (cause : Nat) (pc addr : Word) : Prop where
  handler : s.me.inHandler = false → s.me.trapvec ≠ 0#57 → EntersHandler s t cause pc addr
  stop    : s.me.inHandler = false → s.me.trapvec = 0#57 → StopsTrapped s t cause pc addr
  nested  : s.me.inHandler = true → StopsNested s t cause pc

/-! Floating-point encodings (R114, R115), apart from the model's own decoding. -/

/-- Exponent and fraction fields of an encoding of a format. -/
def expField (f : Fmt) (x : Nat) : Nat := x / 2 ^ f.mbits % 2 ^ f.ebits
def fracField (f : Fmt) (x : Nat) : Nat := x % 2 ^ f.mbits
def negative (f : Fmt) (x : Nat) : Prop := x / 2 ^ (f.ebits + f.mbits) % 2 = 1

/-- Classes of encodings of the formats with infinities. -/
def IsFinite (f : Fmt) (x : Nat) : Prop := expField f x ≠ 2 ^ f.ebits - 1
def IsZero (f : Fmt) (x : Nat) : Prop := expField f x = 0 ∧ fracField f x = 0
def IsInf (f : Fmt) (x : Nat) : Prop := expField f x = 2 ^ f.ebits - 1 ∧ fracField f x = 0
def IsNan (f : Fmt) (x : Nat) : Prop := expField f x = 2 ^ f.ebits - 1 ∧ fracField f x ≠ 0
def IsSnan (f : Fmt) (x : Nat) : Prop := IsNan f x ∧ fracField f x < 2 ^ (f.mbits - 1)

/-- The number a finite encoding stands for (R114). -/
def numberOf (f : Fmt) (x : Nat) : ℚ :=
  (if x / 2 ^ (f.ebits + f.mbits) % 2 = 1 then -1 else 1) *
    (if expField f x = 0 then (fracField f x : ℚ) * 2 ^ (1 - (f.bias : Int) - (f.mbits : Int))
     else ((2 ^ f.mbits + fracField f x : Nat) : ℚ) *
       2 ^ ((expField f x : Int) - (f.bias : Int) - (f.mbits : Int)))

/-- A number rounded to an integer in a mode of R116. -/
def toInteger (mode : Nat) (v : ℚ) : Int :=
  match mode with
  | 0 =>
    if v - ⌊v⌋ < 1 / 2 then ⌊v⌋ else if 1 / 2 < v - ⌊v⌋ then ⌊v⌋ + 1
    else if ⌊v⌋ % 2 = 0 then ⌊v⌋ else ⌊v⌋ + 1
  | 1 => if v < 0 then ⌈v⌉ else ⌊v⌋
  | 2 => ⌊v⌋
  | 3 => ⌈v⌉
  | _ => if v < 0 then ⌈v - 1 / 2⌉ else ⌊v + 1 / 2⌋

/-! Synchronisation and memory. -/

/-- Nothing but the issuing strand has changed, and its next synchronisation region is open: the records
of the region that closed are gone (R182). -/
structure OnlyMeSync (s t : State) : Prop where
  rest   : { t with strands := s.strands, nextRegion := s.nextRegion, races := s.races } = s
  others : ∀ n, n ≠ s.cur → t.strand n = s.strand n
  region : t.nextRegion = s.nextRegion + 1 ∧ t.me.region = s.nextRegion + 1
  races  : ∀ e ∈ t.races, e ∈ s.races ∧
    (e.strand = s.cur → e.op = none → e.region = s.nextRegion + 1)

/-- A scalar result of an instruction that synchronises. -/
structure SyncResult (s t : State) (rd : SReg) (v : Word) : Prop where
  only    : OnlyMeSync s t
  retired : RetiredAt s t s.npc
  regs    : ∀ r, t.sreg r = if r = 0#5 then 0#64 else if r = rd then v else s.sreg r
  frame   : t.me.settled = { s.me.settled with s := t.me.s, region := t.me.region }

/-- Where an access needs nothing that is under way elsewhere: an unraced page of HBM, a scratchpad, the
memory of another package to which no store is in flight, a chain with no write in flight. -/
def State.quiet (s : State) : Target → Prop
  | .hbm _ _ raced => raced = false
  | .spad _ _ _ => True
  | .remote pa _ => s.remote = [] ∧ inControl pa = false
  | .vine c _ _ => (s.chain c).inflight = []
  | .control _ | .window _ _ => False

/-- The issuing strand's own entries of its core's scoreboard have room for `k` more (R146). -/
def State.boardRoom (s : State) (k : Nat) : Prop :=
  s.residentOn s.me.core s.cur = true ∧ s.boardOwn s.me.core s.cur + k ≤ 8 ∧
  (s.boardOwners s.me.core).length + k ≤ 256

/-- The 64 bytes of a block that a weight load of a strand reads, when nothing fails there: of a cask's block, those of its
chunk's plaintext (R153, R166). -/
def State.weightBytes (s : State) (n : Nat) (w : WeightSource) : Option (List Byte) :=
  match w.cask, w.tgt with
  | some (_, key), .hbm pa memKey _ =>
    if (List.range 64).any fun j => hasKey s.poison (pa / 4096 * 64 + j) then none
    else (s.openChunk key memKey (pa / 4096 * 4096)).map fun l => (l.drop (pa % 4096)).take 64
  | _, x => if s.poisonedAt (some (dieOfCore (s.strand n).core)) x 64 then none else some (s.readTarget x 64)

/-- A scalar access as R298 checks it. -/
def scalarAccess (write : Bool) (n : Nat) (scope : Option Nat) : Access :=
  { way := .scalar, read := !write, write := write, exec := false, width := n, scope := scope }

def atomicAccess (n scope : Nat) : Access :=
  { way := .atomic, read := true, write := true, exec := false, width := n, scope := some scope }

/-- The address of a scalar access, and where it leads for the issuing strand. -/
def State.dataAddr (s : State) (rb : SReg) (imm : BitVec 32) : Word :=
  s.sreg rb + BitVec.ofInt 64 imm.toInt

def State.leads (s : State) (va : Word) (a : Access) (x : Target) : Prop :=
  s.resolveIn s.me.owner.toNat s.me.core s.me.space va a true = .ok x

/-- Bytes stored to HBM: under the writer's key they read back, every other byte and every tag reads as
before; blocks the store does not touch read as before under every key (R131, R271). -/
structure HbmStored (s t : State) (key pa : Nat) (bytes : List Byte) : Prop where
  inside  : ∀ i, (h : i < bytes.length) → t.hbmByte key (pa + i) = bytes[i]
  outside : ∀ a, a < pa ∨ pa + bytes.length ≤ a → t.hbmByte key a = s.hbmByte key a
  tags    : ∀ a, t.hbmTag key a = s.hbmTag key a
  blocks  : ∀ k a, a / 64 < pa / 64 ∨ (pa + bytes.length - 1) / 64 < a / 64 →
    t.hbmByte k a = s.hbmByte k a ∧ t.hbmTag k a = s.hbmTag k a

/-- Nothing has changed but the issuing strand, HBM, and what follows a write to it: held table entries
(R190), measured flags (R275), watched queues (R98), and the strand's region (R182). -/
structure OnlyHbm (s t : State) : Prop where
  rest    : { t with
    strands := s.strands, mem := s.mem, mtags := s.mtags, mkeys := s.mkeys, stale := s.stale
    tenants := s.tenants, queues := s.queues, nextRegion := s.nextRegion, races := s.races } = s
  others  : ∀ n, n ≠ s.cur → t.strand n = s.strand n
  tenants : ∀ n, { t.tenant n with measured := (s.tenant n).measured } = s.tenant n
  queues  : ∀ n, { t.queue n with woken := (s.queue n).woken } = s.queue n

/-- Bytes stored to a core's scratchpad in a view: they read back there, every other byte of it and its
tags are as before, and nothing else has changed but the issuing strand and its region (R130, R131). -/
structure SpadStored (s t : State) (c : Nat) (lane : Bool) (a : Nat) (bytes : List Byte) : Prop where
  rest    : { t with
    strands := s.strands, cores := s.cores, nextRegion := s.nextRegion, races := s.races } = s
  others  : ∀ n, n ≠ s.cur → t.strand n = s.strand n
  cores   : ∀ k, k ≠ c → t.core k = s.core k
  core    : t.core c = { s.core c with spad := (t.core c).spad }
  inside  : ∀ i, (h : i < bytes.length) → readByte (t.core c).spad (spadOffset c lane (a + i)) = bytes[i]
  outside : ∀ o, (∀ i, i < bytes.length → o ≠ spadOffset c lane (a + i)) →
    readByte (t.core c).spad o = readByte (s.core c).spad o

/-- What a release or acquire leaves of the strand: the next region, and for a release no valid checkpoint
(R182, R258); a plain access leaves both. -/
def Synced (s t : State) (sync drop : Bool) : Prop :=
  (sync = true → t.nextRegion = s.nextRegion + 1 ∧ t.me.region = s.nextRegion + 1) ∧
  (sync = false → t.nextRegion = s.nextRegion ∧ t.me.region = s.me.region ∧ t.races = s.races) ∧
  (drop = true → t.me.ckpt = { s.me.ckpt with valid := false }) ∧
  (drop = false → t.me.ckpt = s.me.ckpt)

/-- The release of an instruction may go ahead (R174, R252). -/
def State.mayRelease (s : State) (scope : Nat) : Prop :=
  s.releaseWaits s.cur scope = false ∧ (2 ≤ scope → s.me.vineLost = 0#32)

/-! The vector unit. -/

/-- The vector unit takes an instruction (R215, R22, R29): it is not frozen in a handler, VSTART is 0
unless the instruction is restartable, and its register is wide enough for its replicate modifier. -/
def State.mayVector (s : State) (restartable : Bool) (p : BitVec 2) : Prop :=
  (s.me.inHandler = true → s.me.claimed = true) ∧
  (restartable = false → s.me.vstart = 0#32) ∧ (p = 3#2 → s.me.mvl ≠ 256#16)

/-- No error from outside meets an instruction with these sources (R255, R257). -/
def State.clean (s : State) (srcs : List VReg) : Prop :=
  (∀ r ∈ srcs, r.toNat ∉ s.me.poisonV) ∧ (s.me.checked = false ∨ s.me.laneError = none)

/-- Element `e` is active under a mask (R16, R18). -/
def State.active (s : State) (k : KReg) (e : Nat) : Prop :=
  s.me.vstart.toNat ≤ e ∧ e < s.me.vl.toNat ∧ s.me.selects k e = true

/-- The element of operand C that element `e` reads (R29). -/
def replica (p : BitVec 2) (w e : Nat) : Nat :=
  if p = 0#2 then e else if p = 1#2 then 0 else if p = 2#2 then e % (128 / w) else e % (512 / w)

/-- A vector instruction has written elements of width `w` of `vd`, its tags and its progress index, ORed
flags into FFLAGS and saturation bits into k15, set VSTART to 0 and retired. No other register, mask,
flag or byte has changed (R16 to R22, R117). -/
structure VectorResult (s t : State) (vd : VReg) (w : Nat) (on : Nat → Prop) (value : Nat → BitVec w)
    (tag : Nat → Tag) (g : Nat → Flags) (sat : Nat → Prop) : Prop where
  only     : OnlyMe s t
  retired  : RetiredAt s t s.npc
  written  : ∀ e, (e + 1) * w ≤ 16384 →
    (on e → element (t.me.vreg vd) w e = value e) ∧
    (¬ on e → (element (t.me.vreg vd) w e : BitVec w) = element (s.me.vreg vd) w e)
  tags     : ∀ n, n < 32 → ((∃ e, on e ∧ w * e / 512 = n) → t.me.segTag vd n = tag n) ∧
    ((∀ e, on e → w * e / 512 ≠ n) → t.me.segTag vd n = s.me.segTag vd n)
  others   : ∀ r, r ≠ vd → t.me.vreg r = s.me.vreg r ∧ (∀ n, t.me.segTag r n = s.me.segTag r n) ∧
    t.me.vec.prog.toList.getD r.toNat 0#32 = s.me.vec.prog.toList.getD r.toNat 0#32
  progress : t.me.vec.prog.toList.getD vd.toNat 0#32 = s.me.vl
  masks    : ∀ k, k ≠ 15 → t.me.kreg k = s.me.kreg k
  k15      : ∀ e, e < 2048 →
    ((t.me.kreg 15).getLsbD e = true ↔ (s.me.kreg 15).getLsbD e = true ∨ (on e ∧ sat e))
  flags    : ∀ i, t.me.fflags.getLsbD i = true ↔
    s.me.fflags.getLsbD i = true ∨ ∃ e, on e ∧ (g e).getLsbD i = true
  done     : t.me.vstart = 0#32 ∧ t.me.vres = true
  frame    : { t.me.settled with
    vec := s.me.vec, poisonV := s.me.poisonV, vstart := s.me.vstart, vres := s.me.vres
    fflags := s.me.fflags } = s.me.settled

/-- The same for a mask destination: its active bits are written, and no vector register changes. -/
structure MaskResult (s t : State) (kd : Nat) (on : Nat → Prop) (yes : Nat → Prop) (g : Nat → Flags) :
    Prop where
  only    : OnlyMe s t
  retired : RetiredAt s t s.npc
  written : ∀ e, e < 2048 → (on e → ((t.me.kreg kd).getLsbD e = true ↔ yes e)) ∧
    (¬ on e → (t.me.kreg kd).getLsbD e = (s.me.kreg kd).getLsbD e)
  masks   : ∀ k, k ≠ kd → t.me.kreg k = s.me.kreg k
  flags   : ∀ i, t.me.fflags.getLsbD i = true ↔
    s.me.fflags.getLsbD i = true ∨ ∃ e, on e ∧ (g e).getLsbD i = true
  done    : t.me.vstart = 0#32 ∧ t.me.vres = true
  frame   : { t.me.settled with
    vec := { t.me.vec with k := s.me.vec.k }, vstart := s.me.vstart, vres := s.me.vres
    fflags := s.me.fflags } = s.me.settled

/-- The same for a scalar destination. -/
structure VectorScalar (s t : State) (rd : SReg) (v : Word) (g : Flags) : Prop where
  only    : OnlyMe s t
  retired : RetiredAt s t s.npc
  regs    : ∀ r, t.sreg r = if r = 0#5 then 0#64 else if r = rd then v else s.sreg r
  flags   : t.me.fflags = s.me.fflags ||| g
  done    : t.me.vstart = 0#32 ∧ t.me.vres = true
  frame   : { t.me.settled with
    s := s.me.s, vstart := s.me.vstart, vres := s.me.vres, fflags := s.me.fflags } = s.me.settled

/-- The active elements below VL, ascending. -/
def State.actives (s : State) (k : KReg) : List Nat :=
  (List.range s.me.vl.toNat).filter fun e => decide (s.me.vstart.toNat ≤ e) && s.me.selects k e

/-- The exact operation of a reduction code on the elements of a width (R372). -/
def exactOp (op w : Nat) (x y : BitVec w) : BitVec w :=
  if op = 0 then BitVec.ofInt w (x.toInt + y.toInt)
  else if op = 1 then BitVec.ofInt w (min x.toInt y.toInt)
  else if op = 2 then BitVec.ofInt w (max x.toInt y.toInt)
  else if op = 3 then BitVec.ofNat w (min x.toNat y.toNat)
  else if op = 4 then BitVec.ofNat w (max x.toNat y.toNat)
  else if op = 5 then x &&& y else if op = 6 then x ||| y else x ^^^ y

/-! Package events. -/

/-- An agent's store to a local control address is carried and meets a free page (R60, R62, R288): the host
needs its port, a booted package and no access of its own that still waits (R227); a strand the right to issue,
a leaf of its tenant, and a release that is allowed and waits for nothing (R63, R252). -/
def State.admits (s : State) (who : Agent) (pa : Nat) (v : Word) : Prop :=
  s.pageHeld (agentOf who) pa v = false ∧
  match who with
  | .host => s.linkUp = true ∧ s.booted = true ∧ s.hostQueue = []
  | .strand n => s.strandStores n pa = true

/-- No strand of a page's launch is left under its number: the page has been freed, its work retired (R80). -/
def State.freed (t : State) (n : Nat) (x : Strand) : Prop :=
  ∀ e ∈ t.strands, e.1 = n → e.2.owner = x.owner → e.2.launch = x.launch → e.2.state = 0#4

/-- Only one strand of the package has changed. -/
def OnlyStrand (s t : State) (n : Nat) : Prop :=
  { t with strands := s.strands } = s ∧ ∀ k, k ≠ n → t.strand k = s.strand k

/-- Only one tenant's page has changed. -/
def OnlyTenant (s t : State) (n : Nat) : Prop :=
  { t with tenants := s.tenants } = s ∧ ∀ k, k ≠ n → t.tenant k = s.tenant k

/-- The queue parses its last covered record, which holds an operation that its tenant may run (R97 to R102):
`c` is the copy in force, under which `r`, the record, was read; the queue is not being disabled. -/
def State.parses (s : State) (q op : Nat) (c r : Vector Word 8) : Prop :=
  (s.queue q).copy = some c ∧ (s.queue q).inForce = some c ∧ (s.queue q).current = some r ∧
  (s.queue q).state = 2#3 ∧ (s.queue q).disabling = false ∧
  (s.queue q).awaits = false ∧ recordOp r = op ∧ s.ringOk c = true ∧
  (s.tenant (shadowWord c 1).toNat).barred = false ∧
  (s.queue q).producer = (s.queue q).consumed + 1#32

/-- The words of a record that its command does not use are zero (R101). -/
def wordsUnused (r : Vector Word 8) (l : List Nat) : Prop := ∀ i ∈ l, shadowWord r i = 0#64

/-- An address of a word for a tenant is aligned and leads somewhere (R101, R102). -/
def State.wordTaken (s : State) (t : Nat) (va : Word) : Prop :=
  va.toNat % 8 = 0 ∧ ∃ x, s.tenantWord t va true = .ok x

/-- The record is consumed: CONSUMED counts it, and MIRROR where its home serves the queue engine (log 66), and
the queue is idle again (R97, R98). -/
structure QueueConsumes (s t : State) (q : Nat) (c : Vector Word 8) : Prop where
  consumed : (t.queue q).consumed = (s.queue q).consumed + 1#32
  idle     : (t.queue q).state = 1#3 ∧ (t.queue q).current = none
  mirror   : s.ringOpen c (ringBase c + 8) = true →
    wordOfBytes (t.hbmRead (t.keyName 0) (ringBase c + 8) 8) = (t.queue q).consumed.setWidth 64
  strands  : t.strands = s.strands

/-- Every memory is in its canonical form: HBM's bytes and block tags, each core's scratchpad bytes and
tags, and the memories outside. -/
def State.memoryWf (s : State) : Prop :=
  Memory.wf s.mem = true ∧ canonical s.mtags = true ∧ Memory.wf s.hostMem = true ∧
  Memory.wf s.peerMem = true ∧ canonical s.peerTags = true ∧
  ∀ e ∈ s.cores, Memory.wf e.2.spad = true ∧ canonical e.2.stags = true

end Sys2Proof.Machine
end

