-- ==== Sys2Proof/Certificates/Slice0/Obligations.lean ====
section
/-! DEFINITION. The statements for the provers: each is what a rule of the manual, or a choice named in
its docstring, says a step of the table or the whole machine does. -/

open Sys2Proof Sys2Proof.Machine

/-! Scalar instructions. -/

/-- R304, R112, R113, register forms: every function of the integer group writes the exact integer
result, narrowed to the width W gives, and changes nothing else. Division by zero gives all ones, a
remainder by zero the dividend.
R304, immediate forms: the same functions with the sign-extended immediate as second source. -/
def Obligations.IntegerGroupResults : Prop :=
  (∀ (s : State) (w : BitVec 2) (rd rb rc : SReg), w.toNat < 2 →
     let x := signedAt w (s.sreg rb)
     let y := signedAt w (s.sreg rc)
     let ux : Int := unsignedAt w (s.sreg rb)
     let uy : Int := unsignedAt w (s.sreg rc)
     let n := groupBits w
     let sh := unsignedAt w (s.sreg rc) % n
     let gives (i : Instr) (z : Int) : Prop :=
       Completes i s fun t => ScalarResult s t rd (narrowed w z)
     gives (.add w rd rb rc) (x + y) ∧ gives (.sub w rd rb rc) (x - y) ∧
     gives (.mul w rd rb rc) (x * y) ∧ gives (.mulh w rd rb rc) (x * y / 2 ^ n) ∧
     gives (.mulhu w rd rb rc) (ux * uy / 2 ^ n) ∧
     gives (.div w rd rb rc) (if y = 0 then -1 else x.tdiv y) ∧
     gives (.divu w rd rb rc) (if uy = 0 then -1 else ux / uy) ∧
     gives (.rem w rd rb rc) (if y = 0 then x else x.tmod y) ∧
     gives (.remu w rd rb rc) (if uy = 0 then ux else ux % uy) ∧
     gives (.and w rd rb rc) (s.sreg rb &&& s.sreg rc).toInt ∧
     gives (.andn w rd rb rc) (s.sreg rb &&& ~~~ s.sreg rc).toInt ∧
     gives (.or w rd rb rc) (s.sreg rb ||| s.sreg rc).toInt ∧
     gives (.xor w rd rb rc) (s.sreg rb ^^^ s.sreg rc).toInt ∧
     gives (.shl w rd rb rc) (x * 2 ^ sh) ∧ gives (.shr w rd rb rc) (ux / 2 ^ sh) ∧
     gives (.sra w rd rb rc) (x / 2 ^ sh) ∧ gives (.min w rd rb rc) (min x y) ∧
     gives (.max w rd rb rc) (max x y) ∧ gives (.minu w rd rb rc) (min ux uy) ∧
     gives (.maxu w rd rb rc) (max ux uy)) ∧
  (∀ (s : State) (w : BitVec 2) (rd rb : SReg) (imm : BitVec 32), w.toNat < 2 →
     let c : Word := BitVec.ofInt 64 imm.toInt
     let x := signedAt w (s.sreg rb)
     let y := signedAt w c
     let ux : Int := unsignedAt w (s.sreg rb)
     let uy : Int := unsignedAt w c
     let n := groupBits w
     let sh := unsignedAt w c % n
     let gives (i : Instr) (z : Int) : Prop :=
       Completes i s fun t => ScalarResult s t rd (narrowed w z)
     gives (.addImm w rd rb imm) (x + y) ∧ gives (.subImm w rd rb imm) (x - y) ∧
     gives (.mulImm w rd rb imm) (x * y) ∧ gives (.mulhImm w rd rb imm) (x * y / 2 ^ n) ∧
     gives (.mulhuImm w rd rb imm) (ux * uy / 2 ^ n) ∧
     gives (.divImm w rd rb imm) (if y = 0 then -1 else x.tdiv y) ∧
     gives (.divuImm w rd rb imm) (if uy = 0 then -1 else ux / uy) ∧
     gives (.remImm w rd rb imm) (if y = 0 then x else x.tmod y) ∧
     gives (.remuImm w rd rb imm) (if uy = 0 then ux else ux % uy) ∧
     gives (.andImm w rd rb imm) (s.sreg rb &&& c).toInt ∧
     gives (.andnImm w rd rb imm) (s.sreg rb &&& ~~~ c).toInt ∧
     gives (.orImm w rd rb imm) (s.sreg rb ||| c).toInt ∧
     gives (.xorImm w rd rb imm) (s.sreg rb ^^^ c).toInt ∧
     gives (.shlImm w rd rb imm) (x * 2 ^ sh) ∧ gives (.shrImm w rd rb imm) (ux / 2 ^ sh) ∧
     gives (.sraImm w rd rb imm) (x / 2 ^ sh) ∧ gives (.minImm w rd rb imm) (min x y) ∧
     gives (.maxImm w rd rb imm) (max x y) ∧ gives (.minuImm w rd rb imm) (min ux uy) ∧
     gives (.maxuImm w rd rb imm) (max ux uy))

/-- R310: the unary group counts or extends the low 8, 16, 32 or 64 bits W selects, and changes nothing
else.
R305, R311, R333, R339: moves, the PC-relative address, selection and comparison. -/
def Obligations.UnaryMoveSelectCompareResults : Prop :=
  (∀ (s : State) (w : BitVec 2) (rd rb : SReg),
     let n := 8 * 2 ^ w.toNat
     let x := s.sreg rb
     (∃ k, IsLeadingZeros x n k ∧
       Completes (.clz w rd rb) s fun t => ScalarResult s t rd (BitVec.ofNat 64 k)) ∧
     (∃ k, IsTrailingZeros x n k ∧
       Completes (.ctz w rd rb) s fun t => ScalarResult s t rd (BitVec.ofNat 64 k)) ∧
     Completes (.popc w rd rb) s (fun t =>
       ScalarResult s t rd (BitVec.ofNat 64 ((List.range n).countP fun i => x.getLsbD i))) ∧
     Completes (.sext w rd rb) s (fun t =>
       ScalarResult s t rd (BitVec.ofInt 64 (BitVec.ofNat n x.toNat).toInt)) ∧
     Completes (.zext w rd rb) s (fun t => ScalarResult s t rd (BitVec.ofNat 64 (x.toNat % 2 ^ n))) ∧
     Completes (.mov rd rb) s (fun t => ScalarResult s t rd x)) ∧
  (∀ (s : State) (rd rb rc rs : SReg) (imm : BitVec 32) (hint : BitVec 2),
     Completes (.movi rd imm) s (fun t => ScalarResult s t rd (BitVec.ofInt 64 imm.toInt)) ∧
     Completes (.moviHi rd imm) s (fun t =>
       ScalarResult s t rd (BitVec.ofNat 64 (imm.toNat * 2 ^ 32 + (s.sreg rd).toNat % 2 ^ 32))) ∧
     Completes (.addpc rd imm) s (fun t =>
       ScalarResult s t rd (BitVec.ofInt 64 (s.me.pc.toNat + imm.toInt))) ∧
     Completes (.sel rd rb rc rs hint) s (fun t =>
       ScalarResult s t rd (if s.sreg rs ≠ 0#64 then s.sreg rb else s.sreg rc)) ∧
     ∀ cond : BitVec 6, cond.toNat < 6 →
       (conditionMet cond.toNat (s.sreg rb) (s.sreg rc) →
         Completes (.cmp cond rd rb rc) s fun t => ScalarResult s t rd 1#64) ∧
       (¬ conditionMet cond.toNat (s.sreg rb) (s.sreg rc) →
         Completes (.cmp cond rd rb rc) s fun t => ScalarResult s t rd 0#64))

/-- R41, R334: `nop` and every form of `hint` only move the PC to the next instruction.
R39, R306, R307, R324, R337: transfers of control go to PC + 2 * sext(IMM), or to an even address in a
register; `call` leaves the next instruction's address in s31.
R39, R324, R337: a jump to an odd address raises ALIGNMENT at the jump, with the target in TRAPADDR.
R37, R306: an encoding that is no instruction raises ILLEGAL_ENCODING at its head; TRAPADDR takes the
address that the fetch hands on (log 12). -/
def Obligations.HintsTransfersAndIllegalEncodings : Prop :=
  (∀ (s : State) (a : BitVec 5) (w : BitVec 2) (t1 : BitVec 16) (t2 : BitVec 32) (t3 : BitVec 48),
     ∀ i ∈ [Instr.nop, .hintH a w, .hintHt1 a w t1, .hintHt2 a w t2, .hintHt3 a w t3],
       Completes i s fun t => OnlyRetires s t s.npc) ∧
  (∀ (s : State) (rb rc : SReg) (imm : BitVec 32),
     let target : Word := BitVec.ofInt 64 (s.me.pc.toNat + 2 * imm.toInt)
     Completes (.b imm) s (fun t => OnlyRetires s t target) ∧
     (∀ cond : BitVec 5, cond.toNat < 6 →
       (conditionMet cond.toNat (s.sreg rb) (s.sreg rc) →
         Completes (.bCond cond rb rc imm) s fun t => OnlyRetires s t target) ∧
       (¬ conditionMet cond.toNat (s.sreg rb) (s.sreg rc) →
         Completes (.bCond cond rb rc imm) s fun t => OnlyRetires s t s.npc)) ∧
     Completes (.call imm) s (fun t => OnlyMe s t ∧ RetiredAt s t target ∧
       (∀ r, t.sreg r = if r = 31#5 then s.npc else s.sreg r) ∧
       t.me.settled = { s.me.settled with s := t.me.s }) ∧
     ((s.sreg rb).getLsbD 0 = false →
       Completes (.jmp rb) s fun t => OnlyRetires s t (s.sreg rb)) ∧
     ((s.sreg 31#5).getLsbD 0 = false →
       Completes .ret s fun t => OnlyRetires s t (s.sreg 31#5))) ∧
  (∀ (s : State) (rb : SReg),
     ((s.sreg rb).getLsbD 0 = true →
       Completes (.jmp rb) s fun t => Raises s t 0x03 s.me.pc (s.sreg rb)) ∧
     ((s.sreg 31#5).getLsbD 0 = true →
       Completes .ret s fun t => Raises s t 0x03 s.me.pc (s.sreg 31#5))) ∧
  (∀ s : State, Completes .illegalEncoding s fun t => Raises s t 0x01 s.me.pc s.npc)

/-! Scalar floating point. -/

/-- R314, R318, R117: the scalar float group writes the result of its function, rounded under FRM, ORs
that function's flags into FFLAGS, and changes nothing else.
R115: invalid operations give the canonical NaN with NV, and a finite non-zero number over zero gives
an infinity with DZ. -/
def Obligations.ScalarFloatResults : Prop :=
  (∀ (s : State) (w : BitVec 2) (rd rb rc ra : SReg) (hint : BitVec 2), w.toNat < 2 →
     let f := if w = 0#2 then fp64 else fp32
     let enc (r : SReg) : Nat := (s.sreg r).toNat % 2 ^ f.bits
     let x := f.decode (enc rb)
     let y := f.decode (enc rc)
     let z := f.decode (enc ra)
     let rm := s.me.frm.toNat
     let gives (i : Instr) (r : Nat × Flags) : Prop :=
       Completes i s fun t => FloatResult s t rd (BitVec.ofNat 64 r.1) r.2
     gives (.fadd w rd rb rc) (f.add rm x y) ∧ gives (.fsub w rd rb rc) (f.sub rm x y) ∧
     gives (.fmul w rd rb rc) (f.mul rm x y) ∧ gives (.fdiv w rd rb rc) (f.div rm x y) ∧
     gives (.fsqrt w rd rb) (f.sqrt rm x) ∧ gives (.fma w rd rb rc ra hint) (f.fma rm x y z) ∧
     gives (.fmin w rd rb rc) (f.minMax false (enc rb) (enc rc)) ∧
     gives (.fmax w rd rb rc) (f.minMax true (enc rb) (enc rc))) ∧
  (∀ (s : State) (w : BitVec 2) (rd rb rc ra : SReg) (hint : BitVec 2), w.toNat < 2 →
     let f := if w = 0#2 then fp64 else fp32
     let x := (s.sreg rb).toNat % 2 ^ f.bits
     let y := (s.sreg rc).toNat % 2 ^ f.bits
     let z := (s.sreg ra).toNat % 2 ^ f.bits
     let canonical : Word := if w = 0#2 then 0x7FF8000000000000#64 else 0x7FC00000#64
     let infinity (neg : Bool) : Word :=
       if w = 0#2 then (if neg then 0xFFF0000000000000#64 else 0x7FF0000000000000#64)
       else (if neg then 0xFF800000#64 else 0x7F800000#64)
     let invalid (i : Instr) : Prop :=
       Completes i s fun t => FloatResult s t rd canonical 0b10000#5
     (IsInf f x → IsInf f y → (negative f x ↔ ¬ negative f y) → invalid (.fadd w rd rb rc)) ∧
     (IsInf f x → IsInf f y → (negative f x ↔ negative f y) → invalid (.fsub w rd rb rc)) ∧
     ((IsZero f x ∧ IsInf f y) ∨ (IsInf f x ∧ IsZero f y) →
       invalid (.fmul w rd rb rc) ∧ invalid (.fma w rd rb rc ra hint)) ∧
     ((IsZero f x ∧ IsZero f y) ∨ (IsInf f x ∧ IsInf f y) → invalid (.fdiv w rd rb rc)) ∧
     (negative f x → ¬ IsZero f x → ¬ IsNan f x → invalid (.fsqrt w rd rb)) ∧
     (IsSnan f x ∨ IsSnan f y → invalid (.fadd w rd rb rc) ∧ invalid (.fsub w rd rb rc) ∧
       invalid (.fmul w rd rb rc) ∧ invalid (.fdiv w rd rb rc)) ∧
     (IsSnan f x → invalid (.fsqrt w rd rb)) ∧
     (IsSnan f x ∨ IsSnan f y ∨ IsSnan f z → invalid (.fma w rd rb rc ra hint)) ∧
     (IsFinite f x → ¬ IsZero f x → IsZero f y → Completes (.fdiv w rd rb rc) s fun t =>
       ∃ neg : Bool, (neg = true ↔ ¬ (negative f x ↔ negative f y)) ∧
         FloatResult s t rd (infinity neg) 0b01000#5))

/-- R115, R315: comparisons of numbers are exact and set no flag; a NaN makes eq, lt and le false and
unordered true, and sets NV for lt and le, and for the others only when it is signalling.
R115: `fmin` and `fmax` return the smaller or the larger operand, -0 below +0, and the other operand
when one is a NaN. -/
def Obligations.FloatComparisonsAndExtrema : Prop :=
  (∀ (s : State) (w : BitVec 2) (rd rb rc : SReg), w.toNat < 2 →
     let f := if w = 0#2 then fp64 else fp32
     let x := (s.sreg rb).toNat % 2 ^ f.bits
     let y := (s.sreg rc).toNat % 2 ^ f.bits
     let answers (cond : BitVec 6) (yes : Bool) (g : Flags) : Prop :=
       Completes (.fcmp w cond rd rb rc) s fun t => FloatResult s t rd (if yes then 1#64 else 0#64) g
     (IsFinite f x → IsFinite f y →
       answers 0#6 (decide (numberOf f x = numberOf f y)) 0#5 ∧
       answers 1#6 (decide (numberOf f x < numberOf f y)) 0#5 ∧
       answers 2#6 (decide (numberOf f x ≤ numberOf f y)) 0#5 ∧ answers 3#6 false 0#5) ∧
     (IsNan f x ∨ IsNan f y →
       answers 1#6 false 0b10000#5 ∧ answers 2#6 false 0b10000#5 ∧
       (IsSnan f x ∨ IsSnan f y → answers 0#6 false 0b10000#5 ∧ answers 3#6 true 0b10000#5) ∧
       (¬ IsSnan f x → ¬ IsSnan f y → answers 0#6 false 0#5 ∧ answers 3#6 true 0#5))) ∧
  (∀ (s : State) (w : BitVec 2) (rd rb rc : SReg), w.toNat < 2 →
     let f := if w = 0#2 then fp64 else fp32
     let x := (s.sreg rb).toNat % 2 ^ f.bits
     let y := (s.sreg rc).toNat % 2 ^ f.bits
     let gives (i : Instr) (r : Nat) (g : Flags) : Prop :=
       Completes i s fun t => FloatResult s t rd (BitVec.ofNat 64 r) g
     let below (a b : Nat) : Prop :=
       numberOf f a < numberOf f b ∨
         (numberOf f a = numberOf f b ∧ (negative f a ∨ ¬ negative f b))
     (IsFinite f x → IsFinite f y → below x y →
       gives (.fmin w rd rb rc) x 0#5 ∧ gives (.fmax w rd rb rc) y 0#5 ∧
       gives (.fmin w rd rc rb) x 0#5 ∧ gives (.fmax w rd rc rb) y 0#5) ∧
     (IsNan f x → ¬ IsNan f y →
       let g := if fracField f x < 2 ^ (f.mbits - 1) then 0b10000#5 else 0#5
       gives (.fmin w rd rb rc) y g ∧ gives (.fmax w rd rb rc) y g ∧
       gives (.fmin w rd rc rb) y g ∧ gives (.fmax w rd rc rb) y g) ∧
     (IsNan f x → IsNan f y →
       let g := if fracField f x < 2 ^ (f.mbits - 1) ∨ fracField f y < 2 ^ (f.mbits - 1)
         then 0b10000#5 else 0#5
       gives (.fmin w rd rb rc) (if w = 0#2 then 0x7FF8000000000000 else 0x7FC00000) g ∧
       gives (.fmax w rd rb rc) (if w = 0#2 then 0x7FF8000000000000 else 0x7FC00000) g))

/-- R120, R116: `fcvt` from a finite FP64 or FP32 number to INT64, UINT64 or INT32 writes the number
rounded to an integer in FRM's mode, or the nearer end of the range with NV. FRM holds 0 to 4.
R120, R316, R317: every `fcvt` completes with the value and the flags that its two formats and FRM give,
and changes nothing else; R114: one that widens a format keeps a finite number exactly and sets no flag. -/
def Obligations.FloatConversions : Prop :=
  (∀ (s : State) (dst src : BitVec 3) (rd rb : SReg), dst.toNat < 3 → src.toNat = 3 ∨ src.toNat = 4 →
     let f := if src.toNat = 3 then fp64 else fp32
     let x := (s.sreg rb).toNat % 2 ^ f.bits
     let lo : Int := if dst.toNat = 0 then -2 ^ 63 else if dst.toNat = 1 then 0 else -2 ^ 31
     let hi : Int := if dst.toNat = 0 then 2 ^ 63 - 1 else if dst.toNat = 1 then 2 ^ 64 - 1 else 2 ^ 31 - 1
     let k := toInteger s.me.frm.toNat (numberOf f x)
     let gives (r : Int) (g : Flags) : Prop :=
       Completes (.fcvt dst src rd rb) s fun t => FloatResult s t rd (BitVec.ofInt 64 r) g
     IsFinite f x →
       (lo ≤ k → k ≤ hi → gives k (if (k : ℚ) = numberOf f x then 0#5 else 0b00001#5)) ∧
       (k < lo → gives lo 0b10000#5) ∧ (hi < k → gives hi 0b10000#5)) ∧
  (∀ (s : State) (dst src : BitVec 3) (rd rb : SReg),
     let z := convert s.me.frm.toNat dst.toNat src.toNat (s.sreg rb)
     (Completes (.fcvt dst src rd rb) s fun t => FloatResult s t rd z.1 z.2) ∧
     ∀ f g : Fmt, (src = 4#3 ∧ f = fp32 ∧ dst = 3#3 ∧ g = fp64) ∨
       (src = 5#3 ∧ f = fp16 ∧ (dst = 3#3 ∧ g = fp64 ∨ dst = 4#3 ∧ g = fp32)) ∨
       (src = 6#3 ∧ f = bf16 ∧ (dst = 3#3 ∧ g = fp64 ∨ dst = 4#3 ∧ g = fp32)) →
       IsFinite f ((s.sreg rb).toNat % 2 ^ f.bits) →
         Completes (.fcvt dst src rd rb) s fun t => ∃ r : Nat, r < 2 ^ g.bits ∧ IsFinite g r ∧
           numberOf g r = numberOf f ((s.sreg rb).toNat % 2 ^ f.bits) ∧
           FloatResult s t rd (BitVec.ofNat 64 r) 0#5)

/-! Exceptions and special registers. -/

/-- R214, R213: `trap n` completes and then raises TRAP_INSTRUCTION with TRAPPC at the next instruction
and the number in TRAPADDR; `brk` completes and stops the strand there with BREAKPOINT. -/
def Obligations.TrapAndBreakpoint : Prop :=
  ∀ (s : State) (n : BitVec 6),
    Completes (.trap n) s (fun t => Raises s t 0x15 s.npc (n.setWidth 64)) ∧
    Completes .brk s (fun t => StopsTrapped s t 0x16 s.npc 0#64)

/-- R216: `claim` in a handler saves the vector state, VL, VSTART and SEW once, and sets VSTART to 0;
outside a handler it raises ILLEGAL_STATE.
R217: `tret` leaves the handler for TRAPPC, and restores what `claim` saved; an odd TRAPPC or a
strand outside a handler raises instead. -/
def Obligations.ClaimSavesAndTretRestores : Prop :=
  (∀ s : State,
     (s.me.inHandler = false → Completes .claim s fun t => Raises s t 0x02 s.me.pc 0#64) ∧
     (s.me.inHandler = true → s.me.claimed = true →
       Completes .claim s fun t => OnlyRetires s t s.npc) ∧
     (s.me.inHandler = true → s.me.claimed = false →
       Completes .claim s fun t => OnlyMe s t ∧ RetiredAt s t s.npc ∧
         t.me.saved = s.me.vec ∧ t.me.claimed = true ∧ t.me.vstart = 0#32 ∧
         t.me.claim0.toNat = s.me.vl.toNat * 2 ^ 32 + s.me.vstart.toNat ∧ t.me.claim1 = s.me.sew ∧
         t.me.savedK14pc = s.me.k14pc ∧
         t.me.settled = { s.me.settled with
           saved := t.me.saved, claimed := true, vstart := 0#32, claim0 := t.me.claim0
           claim1 := t.me.claim1, savedK14pc := t.me.savedK14pc })) ∧
  (∀ s : State,
     (s.me.inHandler = false → Completes .tret s fun t => Raises s t 0x02 s.me.pc 0#64) ∧
     (s.me.inHandler = true → s.me.trappc.getLsbD 0 = true →
       Completes .tret s fun t => StopsNested s t 0x03 s.me.pc) ∧
     (s.me.inHandler = true → s.me.trappc.getLsbD 0 = false →
       Completes .tret s fun t => OnlyMe s t ∧ RetiredAt s t (s.me.trappc.setWidth 64) ∧
         t.me.inHandler = false ∧ t.me.nested = false ∧ t.me.claimed = false ∧
         (s.me.claimed = true → t.me.vec = s.me.saved ∧
           t.me.vl.toNat = s.me.claim0.toNat / 2 ^ 32 ∧
           t.me.vstart.toNat = s.me.claim0.toNat % 2 ^ 32 ∧ t.me.sew = s.me.claim1 ∧
           t.me.k14pc = s.me.savedK14pc) ∧
         (s.me.claimed = false → t.me.vec = s.me.vec ∧ t.me.vl = s.me.vl ∧
           t.me.vstart = s.me.vstart ∧ t.me.sew = s.me.sew ∧ t.me.k14pc = s.me.k14pc) ∧
         t.me.settled = { s.me.settled with
           inHandler := false, nested := false, claimed := false, vec := t.me.vec, vl := t.me.vl
           vstart := t.me.vstart, sew := t.me.sew, k14pc := t.me.k14pc }))

/-- R24, R321: `getsr` reads each of the 21 special registers and changes nothing but its destination.
R24, R322: `setsr` writes a register that may be written with a value in its range, and nothing else;
a read-only register, or a value out of range, raises ILLEGAL_STATE and nothing is written. -/
def Obligations.SpecialRegisters : Prop :=
  (∀ (s : State) (rd : SReg) (n : BitVec 6) (v : Word),
     (n, v) ∈ [(0#6, s.me.vl.setWidth 64), (1#6, s.me.mvl.setWidth 64), (2#6, s.me.space.setWidth 64),
       (3#6, s.me.vstart.setWidth 64), (4#6, s.me.tags), (5#6, s.me.frm.setWidth 64),
       (6#6, s.me.fflags.setWidth 64), (7#6, BitVec.ofNat 64 s.cur),
       (8#6, BitVec.ofNat 64 (s.logicalCore s.me.core)), (9#6, BitVec.ofNat 64 (s.me.core / 64)),
       (10#6, s.time), (11#6, s.me.cycle), (12#6, s.me.trapvec.setWidth 64),
       (13#6, s.me.trapcause.setWidth 64), (14#6, s.me.trappc.setWidth 64),
       (15#6, s.me.trapaddr.setWidth 64), (16#6, s.me.shape), (17#6, s.me.strip),
       (18#6, BitVec.ofNat 64 (s.package.toNat * 2 ^ 44 + 0xF0100000000 + s.cur * 0x20000)),
       (19#6, s.me.launch.setWidth 64), (20#6, s.me.sew.setWidth 64)] →
     Completes (.getsr rd n) s fun t => ScalarResult s t rd v) ∧
  (∀ (s : State) (n : BitVec 6) (rb : SReg), n.toNat < 21 →
     let v := s.sreg rb
     let x := s.me
     let takes (ok : Prop) (y : Strand) : Prop :=
       (ok → Completes (.setsr n rb) s fun t =>
         OnlyMe s t ∧ RetiredAt s t s.npc ∧ t.me.settled = y.settled) ∧
       (¬ ok → Completes (.setsr n rb) s fun t => Raises s t 0x02 s.me.pc 0#64)
     let per (sew : Nat) : Nat := x.mvl.toNat / (8 * 2 ^ sew)
     (n = 0#6 → takes (v.toNat ≤ per x.sew.toNat) { x with vl := v.setWidth 32 }) ∧
     (n = 2#6 → takes (v.toNat ≤ 2) { x with space := v.setWidth 2 }) ∧
     (n = 3#6 → takes (v.toNat ≤ max x.vl.toNat (x.shape.toNat / 2 ^ 48)) { x with vstart := v.setWidth 32 }) ∧
     (n = 5#6 → takes (v.toNat ≤ 4) { x with frm := v.setWidth 3 }) ∧
     (n = 6#6 → takes (v.toNat < 2 ^ 5) { x with fflags := v.setWidth 5 }) ∧
     (n = 11#6 → takes True { x with cycle := v }) ∧
     (n = 12#6 → takes (v.toNat < 2 ^ 57 ∧ v.toNat % 2 = 0) { x with trapvec := v.setWidth 57 }) ∧
     (n = 13#6 → takes (v.toNat < 2 ^ 8) { x with trapcause := v.setWidth 8 }) ∧
     (n = 14#6 → takes (v.toNat < 2 ^ 57) { x with trappc := v.setWidth 57 }) ∧
     (n = 15#6 → takes (v.toNat < 2 ^ 57) { x with trapaddr := v.setWidth 57 }) ∧
     (n = 17#6 → takes True { x with strip := v }) ∧
     (n = 20#6 → takes (v.toNat ≤ 3 ∧ x.vl.toNat ≤ per v.toNat) { x with sew := v.setWidth 2 }) ∧
     (n ∈ [1#6, 4#6, 7#6, 8#6, 9#6, 10#6, 16#6, 18#6, 19#6] → takes False x))

/-- R25 to R27, R340: `setvl` grants the smaller of the request and MVL over the width, outside a handler
takes the checkpoint and counts the strip, and writes the grant to its destination. -/
def Obligations.SetvlGrants : Prop :=
  ∀ (s : State) (sew : BitVec 2) (rd rb : SReg),
    let g := min (s.sreg rb).toNat (s.me.mvl.toNat / (8 * 2 ^ sew.toNat))
    Completes (.setvl sew rd rb) s fun t =>
      OnlyMe s t ∧ RetiredAt s t s.npc ∧
      (∀ r, t.sreg r = if r = 0#5 then 0#64 else if r = rd then BitVec.ofNat 64 g else s.sreg r) ∧
      t.me.vl.toNat = g ∧ t.me.sew = sew ∧ t.me.vstart = 0#32 ∧
      (s.me.inHandler = true → t.me.ckpt = s.me.ckpt ∧ t.me.strip = s.me.strip ∧
        t.me.rbStrip = s.me.rbStrip) ∧
      (s.me.inHandler = false → t.me.strip = s.me.strip + 1#64 ∧
        t.me.ckpt = { s := s.me.s, vl := s.me.vl, sew := s.me.sew, strip := s.me.strip
                      pc := s.me.pc.setWidth 57, valid := true, grant := 0#64, since := s.nextId } ∧
        (s.me.rolled = false → t.me.rbStrip = 0#4) ∧
        (s.me.rolled = true → t.me.rbStrip = s.me.rbStrip)) ∧
      t.me.settled = { s.me.settled with
        s := t.me.s, vl := t.me.vl, sew := sew, vstart := 0#32, ckpt := t.me.ckpt
        strip := t.me.strip, rbStrip := t.me.rbStrip }

/-! Scalar memory. -/

/-- R329, R298, R3, R134: a load that passes its checks writes the little-endian value of the bytes it
reads, sign-extended by `ld` and zero-extended by `ldu`; the lines it reads enter its die's cellar; an acquire
opens the next region. Which lines a cellar holds, the oldest leaving a full one, is the model's choice (log 48,
DESIGN CHOICE, unsafe). Left out: a page with a race check, and a load of another package's memory or of a chain while
stores to it are in flight.
R60, R61, R229: a load of a control word is an acquire and takes the word as its page gives it, once no action
holds its area; one of another package takes the word met there; a load of a host window sends one request,
and the strand waits with nothing else changed. -/
def Obligations.ScalarLoadResults : Prop :=
  (∀ (s : State) (w : BitVec 2) (scope : BitVec 3) (rd rb : SReg) (imm : BitVec 32) (acq : Bool)
     (x : Target),
     let s0 := s.bindSpad
     let n := 2 ^ w.toNat
     s0.leads (s.dataAddr rb imm) (scalarAccess false n (if acq then some scope.toNat else none)) x →
     s0.quiet x → s0.poisoned x n = false → s0.boardWaits s.cur x n false = false →
     let m := natOfBytes (s0.readTarget x n)
     let s1 := s0.allocate (s.dataAddr rb imm) x n
     let sign : Word := BitVec.ofInt 64 (BitVec.ofNat (8 * n) m).toInt
     let zero : Word := BitVec.ofNat 64 m
     (acq = false →
       Completes (.ld w acq scope rd rb imm) s (fun t => ScalarResult s1 t rd sign) ∧
       Completes (.ldu w acq scope rd rb imm) s (fun t => ScalarResult s1 t rd zero)) ∧
     (acq = true →
       Completes (.ld w acq scope rd rb imm) s (fun t => SyncResult s1 t rd sign) ∧
       Completes (.ldu w acq scope rd rb imm) s (fun t => SyncResult s1 t rd zero))) ∧
  (∀ (s : State) (signed : Bool) (w : BitVec 2) (scope : BitVec 3) (rd rb : SReg) (imm : BitVec 32)
     (acq : Bool) (x : Target),
     let s0 := s.bindSpad
     let n := 2 ^ w.toNat
     let va := s.dataAddr rb imm
     let i : Instr := if signed then .ld w acq scope rd rb imm else .ldu w acq scope rd rb imm
     s0.leads va (scalarAccess false n (if acq then some scope.toNat else none)) x →
     (∀ pa v, x = .control pa → s0.areaHeld pa = false → s0.controlLoad pa = .ok (v, s0) →
       Completes i s fun t => SyncResult s0 t rd v) ∧
     (∀ pa c, x = .control pa → s0.areaHeld pa = false → s0.controlLoad pa = .error c →
       fatalCause c = false → c ≠ 0x13 → c ≠ 0x16 → Completes i s fun t => Raises s0 t c s.me.pc va) ∧
     (∀ pa, x = .control pa → s0.areaHeld pa = true → exec i s = .next s0) ∧
     (∀ pa gen, x = .remote pa gen → inControl pa = true →
       Completes i s fun t => SyncResult s0 t rd (s0.peerWord pa)) ∧
     (∀ k off, x = .window k off → Completes i s fun t =>
       t.requests = s.requests ++ [{ strand := s.cur, tenant := s.me.owner.toNat, live := true, window := k, va := va
                                     host := s.hostAddr k off, width := n, op := none
                                     operand := 0#64, expected := 0#64, rd := rd, signed := signed
                                     acquire := acq, npc := s.npc }] ∧
       t.me = { s0.me with wait := .window } ∧ OnlyMe s0 { t with requests := s.requests }))

/-- R329, R131, R271: a store to HBM or to a scratchpad writes the low bytes of its register, little-endian,
changes no other byte and no tag, and retires; a release also opens a region and ends the checkpoint.
R229, R237, R247: a plain store to an open host window writes the host's memory; one to another
package is posted to it; one to a chain enters the chain, and the head's cellar drops its lines (R248). That a chain
store changes no byte of the head's replica yet is the model's choice (log 23, DEDUCED, unsafe: R247 has the head apply
it first), and so is that the lines leave the head's cellar at once (log 48, DESIGN CHOICE). Left out: a page
with a race check, and a release to a window, another package or a chain. -/
def Obligations.ScalarStoreResults : Prop :=
  (∀ (s : State) (w : BitVec 2) (rel : Bool) (scope : BitVec 3) (rs rb : SReg) (imm : BitVec 32)
     (x : Target),
     let s0 := s.bindSpad
     let n := 2 ^ w.toNat
     let va := s.dataAddr rb imm
     let bytes := (List.range n).map fun i => (s.sreg rs).extractLsb' (8 * i) 8
     s0.leads va (scalarAccess true n (if rel then some scope.toNat else none)) x →
     s0.boardWaits s.cur x n true = false → (rel = true → s0.mayRelease scope.toNat) →
     (∀ pa key, x = .hbm pa key false → Completes (.st w rel scope rs rb imm) s fun t =>
       HbmStored s0 t key pa bytes ∧ OnlyHbm s0 t ∧ RetiredAt s0 t s.npc ∧ Synced s0 t rel rel ∧
       t.me.settled = { s0.me.settled with region := t.me.region, ckpt := t.me.ckpt }) ∧
     (∀ c lane a, x = .spad c lane a → Completes (.st w rel scope rs rb imm) s fun t =>
       SpadStored s0 t c lane a bytes ∧ RetiredAt s0 t s.npc ∧ Synced s0 t rel rel ∧
       t.me.settled = { s0.me.settled with region := t.me.region, ckpt := t.me.ckpt })) ∧
  (∀ (s : State) (w : BitVec 2) (scope : BitVec 3) (rs rb : SReg) (imm : BitVec 32) (x : Target),
     let s0 := s.bindSpad
     let n := 2 ^ w.toNat
     let va := s.dataAddr rb imm
     let bytes := (List.range n).map fun i => (s.sreg rs).extractLsb' (8 * i) 8
     let i : Instr := .st w false scope rs rb imm
     s0.leads va (scalarAccess true n none) x →
     (∀ k off, x = .window k off → s.linkUp = true → s.busMaster = true → Completes i s fun t =>
       OnlyMe s0 { t with hostMem := s.hostMem } ∧ RetiredAt s0 t s.npc ∧
       t.me.settled = s0.me.settled ∧
       ∀ a, readByte t.hostMem a = if s.hostAddr k off ≤ a ∧ a < s.hostAddr k off + n
         then bytes.getD (a - s.hostAddr k off) 0#8 else readByte s.hostMem a) ∧
     (∀ pa gen, x = .remote pa gen → inControl pa = false → s.peerFails pa gen = false →
       Completes i s fun t =>
         OnlyMe s0 { t with remote := s.remote, nextId := s.nextId } ∧ RetiredAt s0 t s.npc ∧
         t.me.settled = s0.me.settled ∧
         t.remote = insertAt s.remote s.nextId
           { strand := s.cur, va := va, pa := pa, bytes := bytes, tag := none, gen := gen }) ∧
     (∀ c off key, x = .vine c off key → s.me.vineLost = 0#32 → Completes i s fun t =>
       OnlyMe s0 { t with chains := s.chains, dies := s.dies } ∧ RetiredAt s0 t s.npc ∧
       t.me.settled = s0.me.settled ∧ (∀ k, k ≠ c → t.chain k = s.chain k) ∧
       t.chain c = { s.chain c with inflight := (s.chain c).inflight ++
         [{ strand := some s.cur, va := va, offset := off, bytes := bytes, tag := none, op := none }] } ∧
       ∀ d, { t.die d with cellar := (s.die d).cellar } = s.die d ∧
         ∀ b, b ∈ (t.die d).cellar ↔ b ∈ (s.die d).cellar ∧
           ¬ ∃ pa i, ((s.chain c).replicas off).head? = some pa ∧ d = homeDie pa ∧ i < n ∧ b = (pa + i) / 64))

/-- R298 checks 1 and 2: an access outside the virtual address space raises NO_MAPPING, a misaligned one
ALIGNMENT, each at the instruction with the data address in TRAPADDR; nothing is read or written.
R329, R252: a releasing store at package scope or wider raises CHAIN_BROKEN before these checks while a
vine write of the strand is lost, with VADDR in TRAPADDR, unless its address meets the control region. -/
def Obligations.ScalarAccessChecks : Prop :=
  ∀ (s : State) (w : BitVec 2) (rel : Bool) (scope : BitVec 3) (rd rb : SReg) (imm : BitVec 32),
    let va := s.dataAddr rb imm
    let st : Instr := .st w rel scope rd rb imm
    let checked (i : Instr) : Prop :=
      (2 ^ 57 ≤ va.toNat → Completes i s fun t => Raises s t 0x04 s.me.pc va) ∧
      (va.toNat < 2 ^ 57 → va.toNat % 2 ^ w.toNat ≠ 0 →
        Completes i s fun t => Raises s t 0x03 s.me.pc va)
    s.me.space = 0#2 →
    checked (.ld w rel scope rd rb imm) ∧ checked (.ldu w rel scope rd rb imm) ∧
    ((rel = true → scope.toNat < 2 ∨ s.me.vineLost = 0#32) → checked st) ∧
    (rel = true → 2 ≤ scope.toNat → s.me.vineLost ≠ 0#32 →
      s.meetsControl s.me.owner.toNat va = false →
      Completes st s fun t => Raises s t 0x1B s.me.pc (s.me.vaddr.setWidth 64))

/-- R300, R301, R302: an atomic on HBM returns the sign-extended old value and writes the new one, which a
failing compare leaves out; order 1 acquires, 2 releases, 3 does both; it ends the checkpoint. -/
def Obligations.AtomicResults : Prop :=
  ∀ (s : State) (w order : BitVec 2) (scope : BitVec 3) (rd rb rc rx : SReg) (hint : BitVec 2)
    (pa key : Nat), w = 2#2 ∨ w = 3#2 →
    let s0 := s.bindSpad
    let n := if w = 3#2 then 8 else 4
    let old : BitVec (8 * n) := BitVec.ofNat (8 * n) (natOfBytes (s0.hbmRead key pa n))
    let x : BitVec (8 * n) := (s.sreg rc).setWidth (8 * n)
    let c : BitVec (8 * n) := (s.sreg rx).setWidth (8 * n)
    s0.leads (s.sreg rb) (atomicAccess n scope.toNat) (.hbm pa key false) →
    s0.poisoned (.hbm pa key false) n = false →
    ((order = 2#2 ∨ order = 3#2) → s0.mayRelease scope.toNat) →
    let gives (i : Instr) (new : Option (BitVec (8 * n))) : Prop :=
      Completes i s fun t =>
        (∀ z, new = some z →
          HbmStored s0 t key pa ((List.range n).map fun j => z.extractLsb' (8 * j) 8)) ∧
        (new = none → ∀ k a, t.hbmByte k a = s0.hbmByte k a ∧ t.hbmTag k a = s0.hbmTag k a) ∧
        OnlyHbm s0 t ∧ RetiredAt s0 t s.npc ∧ Synced s0 t (order != 0#2) true ∧
        (∀ r, t.sreg r = if r = 0#5 then 0#64 else if r = rd then BitVec.ofInt 64 old.toInt
          else s.sreg r) ∧
        t.me.settled = { s0.me.settled with s := t.me.s, region := t.me.region, ckpt := t.me.ckpt }
    gives (.aadd w order scope rd rb rc hint) (some (old + x)) ∧
    gives (.aand w order scope rd rb rc hint) (some (old &&& x)) ∧
    gives (.aor w order scope rd rb rc hint) (some (old ||| x)) ∧
    gives (.axor w order scope rd rb rc hint) (some (old ^^^ x)) ∧
    gives (.amin w order scope rd rb rc hint) (some (if x.toInt < old.toInt then x else old)) ∧
    gives (.amax w order scope rd rb rc hint) (some (if old.toInt < x.toInt then x else old)) ∧
    gives (.aswap w order scope rd rb rc hint) (some x) ∧
    gives (.acas w order scope rd rb rc rx hint) (if old = c then some x else none)

/-- R176, R182: a fence that may release, or releases nothing, opens the next region and retires; a release
ends the checkpoint. R174, R147: one that releases waits while an engine operation of the strand has still to access
the scratchpad.
R105, R106, R319: `fpub` raises the H of an open flow word in HBM to at least its operand, leaves the
word's other bits and every other byte, and acts as a release at package scope or wider.
R341, R342, R257: outside a rollback `setvlf` takes what a flow word in HBM offers, up to VL's limit,
advances C by the grant, and writes the grant and the old C; a rollback takes the recorded grant again. -/
def Obligations.FencesAndFlowWords : Prop :=
  (∀ (s : State) (order : BitVec 2) (scope : BitVec 3),
     let rel := order == 2#2 || order == 3#2
     (rel = true → s.mayRelease scope.toNat) →
     Completes (.fence order scope) s fun t =>
       OnlyMeSync s t ∧ RetiredAt s t s.npc ∧ Synced s t true rel ∧
       t.me.settled = { s.me.settled with region := t.me.region, ckpt := t.me.ckpt }) ∧
  (∀ (s : State) (order : BitVec 2) (scope : BitVec 3) (c : Nat × Core) (e : SbEntry),
     order = 2#2 ∨ order = 3#2 → s.me.vineLost = 0#32 → c ∈ s.cores → e ∈ c.2.board → e.strand = s.cur →
     exec (.fence order scope) s = .next s) ∧
  (∀ (s : State) (rb rc : SReg) (scope : BitVec 3) (pa key : Nat),
     let old : Word := BitVec.ofNat 64 (natOfBytes (s.hbmRead key pa 8))
     let h := (s.sreg rc).toNat
     let new : Word := BitVec.ofNat 64
       (old.toNat / 2 ^ 31 * 2 ^ 31 + max (old.toNat % 2 ^ 31) h)
     (s.sreg rb).toNat % 8 = 0 → h < 2 ^ 31 → s.mayRelease scope.toNat →
     s.flowAccess (s.sreg rb) scope = .ok (.hbm pa key false) →
     s.poisoned (.hbm pa key false) 8 = false → old.getLsbD 31 = false →
     Completes (.fpub rb rc scope) s fun t =>
       HbmStored s t key pa ((List.range 8).map fun i => new.extractLsb' (8 * i) 8) ∧ OnlyHbm s t ∧
       RetiredAt s t s.npc ∧ Synced s t true true ∧
       t.me.settled = { s.me.settled with region := t.me.region, ckpt := t.me.ckpt }) ∧
  (∀ (s : State) (sew : BitVec 2) (rd rb rc rp : SReg) (hint : BitVec 2) (scope : BitVec 3),
     let i : Instr := .setvlf sew rd rb rc rp hint scope
     let granted (t : State) (pos g : Nat) : Prop :=
       RetiredAt s t s.npc ∧ t.me.vl.toNat = g % 2 ^ 32 ∧ t.me.sew = sew ∧ t.me.vstart = 0#32 ∧
       (∀ r, t.sreg r = if r = 0#5 then 0#64 else if r = rp then BitVec.ofNat 64 pos
         else if r = rd then BitVec.ofNat 64 g else s.sreg r) ∧
       (s.me.inHandler = false → t.me.strip = s.me.strip + 1#64 ∧
         t.me.ckpt = { s := s.me.s, vl := s.me.vl, sew := s.me.sew, strip := s.me.strip
                       pc := s.me.pc.setWidth 57, valid := true
                       grant := BitVec.ofNat 64 (2 ^ 63 + pos * 2 ^ 32 + g), since := s.nextId }) ∧
       (s.me.inHandler = true → t.me.strip = s.me.strip ∧ t.me.ckpt = s.me.ckpt) ∧
       t.me.settled = { s.me.settled with
         s := t.me.s, vl := t.me.vl, sew := sew, vstart := 0#32, ckpt := t.me.ckpt
         strip := t.me.strip, rbStrip := t.me.rbStrip, region := t.me.region }
     (s.me.rolled = true → s.me.ckpt.grant.getLsbD 63 = true →
       Completes i s fun t => OnlyMe s t ∧
         granted t (s.me.ckpt.grant.toNat / 2 ^ 32 % 2 ^ 31) (s.me.ckpt.grant.toNat % 2 ^ 32)) ∧
     ∀ pa key : Nat,
       let old : Word := BitVec.ofNat 64 (natOfBytes (s.hbmRead key pa 8))
       let h := old.toNat % 2 ^ 31
       let c := old.toNat / 2 ^ 32 % 2 ^ 31
       let g := min (min (s.sreg rb).toNat (s.me.mvl.toNat / (8 * 2 ^ sew.toNat))) (h - c)
       ¬ (s.me.rolled = true ∧ s.me.ckpt.grant.getLsbD 63 = true) →
       (s.sreg rc).toNat % 8 = 0 → s.flowAccess (s.sreg rc) scope = .ok (.hbm pa key false) →
       s.poisoned (.hbm pa key false) 8 = false → old.getLsbD 63 = false →
       (c < h ∨ (c = h ∧ old.getLsbD 31 = true)) →
       Completes i s fun t => granted t c g ∧ OnlyHbm s t ∧
         (0 < g → HbmStored s t key pa
           ((List.range 8).map fun j => (BitVec.ofNat 64 (old.toNat + g * 2 ^ 32)).extractLsb' (8 * j) 8)) ∧
         (g = 0 → ∀ k a, t.hbmByte k a = s.hbmByte k a ∧ t.hbmTag k a = s.hbmTag k a))

/-! Waits, barriers and the work hierarchy. -/

/-- R345, R141: `twait` returns a complete tag's status and sets its returned bit; `twany` returns the
complete tags of a set; `tfirst` the lowest of them with its status, whose returned bit it sets. Each is an
acquire; with none complete nothing changes, and an empty set raises ILLEGAL_STATE. -/
def Obligations.TagWaitResults : Prop :=
  ∀ (s : State) (rd rb : SReg) (tag : BitVec 6),
    let m := s.sreg rb
    let word (x : State) (j : Nat) : BitVec 9 := x.me.tstat.toList.getD j 0#9
    let done := s.me.tags &&& m
    let returned (t : State) (j : Nat) : Prop :=
      (∀ i, i ≠ j → word t i = word s i) ∧ word t j = word s j ||| 0x100#9
    let gives (i : Instr) (v : Word) (P : State → Prop) : Prop :=
      Completes i s fun t => OnlyMeSync s t ∧ RetiredAt s t s.npc ∧ P t ∧
        (∀ r, t.sreg r = if r = 0#5 then 0#64 else if r = rd then v else s.sreg r) ∧
        t.me.settled = { s.me.settled with s := t.me.s, region := t.me.region, tstat := t.me.tstat }
    (s.me.tags.getLsbD tag.toNat = true → gives (.twait rd tag)
      (BitVec.ofNat 64 ((word s tag.toNat).toNat % 256)) fun t => returned t tag.toNat) ∧
    (s.me.tags.getLsbD tag.toNat = false → exec (.twait rd tag) s = .next s) ∧
    (done ≠ 0#64 → gives (.twany rd rb) done fun t => t.me.tstat = s.me.tstat) ∧
    (∀ j, done.getLsbD j = true → (∀ i, i < j → done.getLsbD i = false) →
      gives (.tfirst rd rb) (BitVec.ofNat 64 (j + 256 * ((word s j).toNat % 256))) fun t => returned t j) ∧
    (m ≠ 0#64 → done = 0#64 →
      exec (.twany rd rb) s = .next s ∧ exec (.tfirst rd rb) s = .next s) ∧
    (m = 0#64 → ∀ i ∈ [Instr.twany rd rb, .tfirst rd rb],
      Completes i s fun t => Raises s t 0x02 s.me.pc 0#64)

/-- R221: a first `bar` is an arrival and a release; the strand retires if its barrier has opened for that
arrival, and otherwise stays at the instruction with its marker. A marked `bar` arrives no second time.
R258: the `bar` that retires ends the checkpoint; one that waits keeps it. -/
def Obligations.BarrierArrivals : Prop :=
  ∀ (s : State) (n : BitVec 4),
    let count (x : State) (b : Nat) : BitVec 32 := x.me.arrivals.toList.getD b 0#32
    let stands (u t : State) (k : BitVec 32) : Prop :=
      (u.barrierOpen s.me.owner.toNat s.me.launch.toNat n.toNat k.toNat = true →
        RetiredAt s t s.npc ∧ t.me.barmark = none ∧ t.me.ckpt = { s.me.ckpt with valid := false }) ∧
      (u.barrierOpen s.me.owner.toNat s.me.launch.toNat n.toNat k.toNat = false →
        t.me.pc = s.me.pc ∧ t.me.barmark = some (n, k) ∧ t.me.ckpt = s.me.ckpt)
    let frame (t : State) : Prop := t.me.settled = { s.me.settled with
      arrivals := t.me.arrivals, barmark := t.me.barmark, region := t.me.region, ckpt := t.me.ckpt }
    ((∀ k, s.me.barmark ≠ some (n, k)) → s.releaseWaits s.cur 2 = false →
      Completes (.bar n) s fun t =>
        count t n.toNat = count s n.toNat + 1#32 ∧
        (∀ b, b ≠ n.toNat → count t b = count s b) ∧
        frame t ∧ stands t t (count t n.toNat)) ∧
    (∀ k, s.me.barmark = some (n, k) →
      Completes (.bar n) s fun t => t.me.arrivals = s.me.arrivals ∧ frame t ∧ stands s t k)

/-- R89: `cwait` returns the FAILED count of a complete record, all ones for an identifier that names none,
waits for an open one, and raises ILLEGAL_STATE for one that contains the strand.
R90, R85, R82: `cancel` of an identifier that names no open record changes no record and retires, its
checkpoint over; a word that is no identifier raises ILLEGAL_STATE. `cancel` of an open record begins its
cancel: a launch that has no strand yet leaves the ready pool, every strand of it counted failed, CANCELLED
(what its words show until it completes is log 57), and the strand waits; a launch that runs has its strands
killed, the issuing one among them, which retires as a KILL of itself does (R68). -/
def Obligations.WorkWaitAndCancel : Prop :=
  (∀ (s : State) (rd rb : SReg) (scope : BitVec 3) (id : BitVec 32),
     let i : Instr := .cwait rd rb scope
     let t0 := s.me.owner.toNat
     let r := s.record t0 (recordKey id)
     s.sreg rb = id.setWidth 64 → workIndex id < levelSize (workLevel id) →
     (workGen id = 0 → Completes i s fun t => SyncResult s t rd (BitVec.allOnes 64)) ∧
     (workGen id ≠ 0 → s.holdsMe id = true → Completes i s fun t => Raises s t 0x02 s.me.pc 0#64) ∧
     (workGen id ≠ 0 → s.holdsMe id = false →
       (r.ident ≠ id ∨ r.state = 0#3 → Completes i s fun t => SyncResult s t rd (BitVec.allOnes 64)) ∧
       (r.ident = id → r.state = 2#3 → Completes i s fun t => SyncResult s t rd (r.failed.setWidth 64)) ∧
       (r.ident = id → r.state = 1#3 ∨ r.state = 3#3 → exec i s = .next s))) ∧
  (∀ (s : State) (rb : SReg) (id : BitVec 32),
     let r := s.record s.me.owner.toNat (recordKey id)
     (s.sreg rb = id.setWidth 64 → workIndex id < levelSize (workLevel id) → s.me.ended = false →
       (workGen id = 0 ∨ r.ident ≠ id ∨ (r.state ≠ 1#3 ∧ r.state ≠ 3#3)) →
       Completes (.cancel rb) s fun t => OnlyMe s t ∧ RetiredAt s t s.npc ∧
         t.me.ckpt = { s.me.ckpt with valid := false } ∧
         t.me.settled = { s.me.settled with ckpt := t.me.ckpt }) ∧
     (s.sreg rb = id.setWidth 64 → workIndex id < levelSize (workLevel id) → s.me.ended = false →
       workGen id ≠ 0 → r.ident = id → r.state = 3#3 →
       Completes (.cancel rb) s fun t => OnlyMe s t ∧ t.me.pc = s.npc ∧ t.me.wait = .cancel id) ∧
     (2 ^ 32 ≤ (s.sreg rb).toNat → Completes (.cancel rb) s fun t => Raises s t 0x02 s.me.pc 0#64)) ∧
  ∀ (s : State) (rb : SReg) (id : BitVec 32),
    let o := s.me.owner.toNat
    let r := s.record o (recordKey id)
    let childless : Prop := ∀ e ∈ (s.tenant o).records, e.2.ident ≠ id →
      (s.lineage o 4 e.2.ident).contains id = false
    let dropped (t : State) : Prop := t.me.ckpt = { s.me.ckpt with valid := false }
    s.sreg rb = id.setWidth 64 → workIndex id < levelSize (workLevel id) → s.me.ended = false →
    workGen id ≠ 0 → r.ident = id → r.state = 1#3 →
    (Completes (.cancel rb) s fun t =>
      (t.record o (recordKey id)).ident = id ∧ (t.record o (recordKey id)).state = 3#3 ∧
      (t.me.wait = .cancel id ∨ (t.me.state = 7#4 ∧ t.me.cause = 0x18#8))) ∧
    (workLevel id = 0 → r.base = 0 → r.count = 0 → r.full = false → childless →
      (∀ n, s.contains o id n = false) → Completes (.cancel rb) s fun t =>
        t.record o (recordKey id) = { r with
          state := 3#3, failed := r.target, cause := if r.cause = 0#8 then 0x18#8 else r.cause } ∧
        (∀ e ∈ t.ready, e.tenant = o → e.launch ≠ some id) ∧
        t.me.pc = s.npc ∧ t.me.wait = .cancel id ∧ dropped t ∧
        (∀ n, n ≠ s.cur → t.strand n = s.strand n) ∧ t.mem = s.mem ∧
        t.me.settled = { s.me.settled with ckpt := t.me.ckpt }) ∧
    (workLevel id = 0 → r.base ≠ 0 ∨ r.count ≠ 0 → childless → s.me.launch = id → s.me.state ≠ 0#4 →
      Completes (.cancel rb) s fun t =>
        t.record o (recordKey id) = { r with state := 3#3 } ∧
        t.me.state = 7#4 ∧ t.me.cause = 0x18#8 ∧ t.me.killing = true ∧ t.me.place = none ∧
        t.me.pc = s.npc ∧ dropped t ∧ (∀ j, t.sreg j = s.sreg j) ∧ t.mem = s.mem ∧
        ∀ n, n ≠ s.cur →
          (s.contains o id n = true → (s.strand n).state ≠ 0#4 → (s.strand n).ended = false →
            (t.strand n).state = 7#4 ∧ (t.strand n).cause = 0x18#8 ∧ (t.strand n).killing = true ∧
            (t.strand n).place = none) ∧
          (s.contains o id n = false → t.strand n = s.strand n))

/-- R86, R65: every `exit` with nothing under way completes: the strand has left its slot, in state 5, or in
state 6 when a tag, a matrix stop or a lost store has failed, PC the next instruction's address; or it is free
again, its work retired (R80). One with something under way changes nothing and waits.
R86, R80: state 6 takes the cause found first, the vector and handler state are discarded, and the launch's
record counts the strand. (For an open launch outside a graph whose other strands are still to end.)
Neither rule says which cause is found first when several hold (a tag, then the matrix stop, then RSTAT, then
VINE: log 27), nor where PC stands after an exit (log 14): both are the model's reading. -/
def Obligations.ExitEndsAndCounts : Prop :=
  (∀ s : State, s.me.state ≠ 0#4 → s.me.ended = false →
    let word (j : Nat) : BitVec 9 := s.me.tstat.toList.getD j 0#9
    let fails : Prop := (∃ j, j < 64 ∧ (word j).toNat % 256 ≠ 0 ∧ (word j).getLsbD 8 = false) ∨
      s.me.mstopValid = true ∨ (s.me.rCount ≠ 0#16 ∧ s.me.rReturned = false) ∨ s.me.vineLost ≠ 0#32
    let ends (P : Strand → Prop) : Prop := Completes .exit s fun t =>
      t.freed s.cur s.me ∨ (P t.me ∧ t.me.pc = s.npc ∧ t.me.place = none)
    (s.enginesBusy s.cur = false → s.releaseWaits s.cur 3 = false →
      (¬ fails → ends fun x => x.state = 5#4 ∧ x.cause = 0#8) ∧
      (fails → ends fun x => x.state = 6#4 ∧ x.cause ≠ 0#8)) ∧
    (s.enginesBusy s.cur = true ∨ s.releaseWaits s.cur 3 = true → exec .exit s = .next s)) ∧
  ∀ (s : State) (r : Record),
    let x := s.me
    let o := x.owner.toNat
    let word (j : Nat) : BitVec 9 := x.tstat.toList.getD j 0#9
    let failed (j : Nat) : Prop := (word j).toNat % 256 ≠ 0 ∧ (word j).getLsbD 8 = false
    s.enginesBusy s.cur = false → s.releaseWaits s.cur 3 = false →
    x.state ≠ 0#4 → x.ended = false →
    s.findRecord o x.launch = some r → r.state = 1#3 → r.parent = none →
    r.completed.toNat + r.failed.toNat + 1 < r.target.toNat →
    let ends (state : BitVec 4) (cause : BitVec 8) : Prop :=
      Completes .exit s fun t =>
        t.me.state = state ∧ t.me.cause = cause ∧ t.me.pc = s.npc ∧ t.me.place = none ∧
        t.me.vec = VecState.zero ∧ t.me.inHandler = false ∧ t.me.claimed = false ∧
        t.me.barmark = none ∧ (∀ j, t.sreg j = s.sreg j) ∧
        (∀ n, n ≠ s.cur → t.strand n = s.strand n) ∧
        t.record o (recordKey x.launch) =
          (if state = 5#4 then { r with completed := r.completed + 1#32 }
           else { r with failed := r.failed + 1#32, cause := if r.cause = 0#8 then cause else r.cause }) ∧
        { t with strands := s.strands, tenants := s.tenants, requests := s.requests, groups := s.groups
                 cores := s.cores, seals := s.seals, races := s.races } = s
    ((∀ j, j < 64 → ¬ failed j) → x.mstopValid = false → (x.rCount = 0#16 ∨ x.rReturned = true) →
      x.vineLost = 0#32 → ends 5#4 0#8) ∧
    (∀ j, j < 64 → failed j → (∀ i, i < j → ¬ failed i) → ends 6#4 ((word j).extractLsb' 0 8)) ∧
    ((∀ j, j < 64 → ¬ failed j) → x.mstopValid = true → ends 6#4 0x13#8) ∧
    ((∀ j, j < 64 → ¬ failed j) → x.mstopValid = false → x.rCount ≠ 0#16 → x.rReturned = false →
      ends 6#4 0x11#8) ∧
    ((∀ j, j < 64 → ¬ failed j) → x.mstopValid = false → (x.rCount = 0#16 ∨ x.rReturned = true) →
      x.vineLost ≠ 0#32 → ends 6#4 0x1B#8)

/-- R87, R88, R82: `launch` of a well-formed descriptor in HBM allocates the lowest free launch record,
enters the node in the ready pool under it and writes its identifier, a release at package scope; with no
record free it writes 0. R85, R88: a launch by a strand of a graph counts in the graph; one in work that is
being cancelled enters no pool and completes all the same, its record complete at once: TARGET the count,
COMPLETED 0, FAILED the target, first cause CANCELLED, STATE 2 (where the graph it counts in does not complete
with it, which would retire it). -/
def Obligations.LaunchAllocates : Prop :=
  ∀ (s : State) (rd rb : SReg) (pa key : Nat),
    let o := s.me.owner.toNat
    let l := s.hbmRead key pa 64
    let nd := nodeOf l
    let i : Instr := .launch rd rb
    (s.sreg rb).toNat % 64 = 0 →
    s.resolve o s.me.core (s.sreg rb) (scalarAccess false 64 none) false = .ok (.hbm pa key false) →
    s.poisoned (.hbm pa key false) 64 = false → (∀ j, 24 ≤ j → j < 64 → l.getD j 0#8 = 0#8) →
    s.launchable o l = true →
    (s.freeRecord o 0 = none → Completes i s fun t => OnlyMe s t ∧ RetiredAt s t s.npc ∧
      (∀ r, t.sreg r = if r = 0#5 ∨ r = rd then 0#64 else s.sreg r)) ∧
    (∀ k, s.freeRecord o 0 = some k → s.cancelling o s.me.launch = false → s.ready.length < 8192 →
      s.releaseWaits s.cur 2 = false → s.graphOf o s.me.launch = none →
      Completes i s fun t => ∃ id : BitVec 32, recordKey id = k ∧ workGen id ≠ 0 ∧
        (t.record o k).ident = id ∧ (t.record o k).state = 1#3 ∧
        (t.record o k).target.toNat = nd.count ∧ (t.record o k).node = some nd ∧
        (∀ j, j ≠ k → t.record o j = s.record o j) ∧
        t.ready = s.ready ++ [{ id := s.nextId, tenant := o, node := nd, graph := 0#32, index := none
                                launch := some id, cls := nd.prio, blocking := false }] ∧
        (∀ n, n ≠ s.cur → t.strand n = s.strand n) ∧ RetiredAt s t s.npc ∧ t.mem = s.mem ∧
        (∀ r, t.sreg r = if r = 0#5 then 0#64 else if r = rd then id.setWidth 64 else s.sreg r) ∧
        t.me.settled = { s.me.settled with s := t.me.s, region := t.me.region, ckpt := t.me.ckpt }) ∧
    (∀ k g, s.freeRecord o 0 = some k → s.cancelling o s.me.launch = false → s.ready.length < 8192 →
      s.releaseWaits s.cur 2 = false → s.graphOf o s.me.launch = some g → workLevel g = 1 →
      Completes i s fun t => ∃ id : BitVec 32, recordKey id = k ∧
        (t.record o (recordKey g)).target = (s.record o (recordKey g)).target + 1#32 ∧
        t.ready = s.ready ++ [{ id := s.nextId, tenant := o, node := nd, graph := g, index := none
                                launch := some id, cls := nd.prio, blocking := false }] ∧
        RetiredAt s t s.npc ∧
        (∀ r, t.sreg r = if r = 0#5 then 0#64 else if r = rd then id.setWidth 64 else s.sreg r)) ∧
    (∀ k, s.freeRecord o 0 = some k → s.cancelling o s.me.launch = true →
      s.releaseWaits s.cur 2 = false → Completes i s fun t => ∃ id : BitVec 32, recordKey id = k ∧
        t.ready = s.ready ∧ t.me.pc = s.npc ∧ (rd ≠ 0#5 → t.sreg rd = id.setWidth 64)) ∧
    (∀ k, s.freeRecord o 0 = some k → s.cancelling o s.me.launch = true → s.releaseWaits s.cur 2 = false →
      (∀ g, s.graphOf o s.me.launch = some g → workLevel g = 1 ∧
        ((s.record o (recordKey g)).state ≠ 1#3 ∨
         ((s.record o (recordKey g)).completed.toNat + (s.record o (recordKey g)).failed.toNat <
            (s.record o (recordKey g)).target.toNat ∧
          (s.record o (recordKey g)).target.toNat < 2 ^ 32 - 1))) →
      Completes i s fun t => ∃ id : BitVec 32, recordKey id = k ∧ workGen id ≠ 0 ∧
        t.record o k = { Record.empty with
          ident := id, state := 2#3, target := BitVec.ofNat 32 nd.count, failed := BitVec.ofNat 32 nd.count
          cause := 0x18#8, parent := s.graphOf o s.me.launch, node := some nd } ∧
        t.ready = s.ready ∧ RetiredAt s t s.npc ∧
        (∀ r, t.sreg r = if r = 0#5 then 0#64 else if r = rd then id.setWidth 64 else s.sreg r))

/-! Maintenance, chains and seals. -/

/-- R191, R205, R309, R335: `tsync`, once no access translated through a discarded entry is in flight, and
`icinv` open a region and discard held table entries or cached lines; a `tsync` that covers a page of the measured set
clears the flag, whatever the tenant's state (R275);
`cflush`, once no vine write of the strand is in flight, `cinv` and `pref` on one page change cellars and
instruction caches. None writes a byte of memory
or a register. -/
def Obligations.MaintenanceChangesNoData : Prop :=
  ∀ (s : State) (rb rc : SReg) (scope : BitVec 3),
    let a := s.sreg rb
    let c := s.sreg rc
    let keeps (t : State) : Prop := RetiredAt s t s.npc ∧
      t.me.settled = { s.me.settled with region := t.me.region } ∧
      (∀ n, n ≠ s.cur → t.strand n = s.strand n) ∧
      { t with
        strands := s.strands, tenants := s.tenants, cores := s.cores, dies := s.dies, stale := s.stale
        poison := s.poison, nextRegion := s.nextRegion, races := s.races } = s ∧
      (∀ n, { t.tenant n with measured := (s.tenant n).measured } = s.tenant n) ∧
      (∀ k, { t.core k with icache := (s.core k).icache, reserved := (s.core k).reserved } = s.core k) ∧
      (∀ d, { t.die d with cellar := (s.die d).cellar } = s.die d)
    let here (len : Nat) : Prop := a.toNat + c.toNat ≤ 2 ^ 57 ∧ a.toNat < 2 ^ 57 ∧
      (len = 0 ∨ a.toNat / 65536 = (a.toNat + len - 1) / 65536)
    let p := a.toNat / 65536
    (a.toNat < 256 → c.toNat < 2 ^ 57 → c.toNat % 65536 = 0 →
      (a.toNat = s.me.owner.toNat ∨ s.me.owner = 0#8) → s.releaseWaits s.cur 2 = false →
      s.inFlightFor a.toNat (if c = 0#64 then none else some (c.toNat / 65536)) = false →
      Completes (.tsync rb rc) s fun t => keeps t ∧ Synced s t true false ∧
        (c = 0#64 → (s.tenant a.toNat).state = 1#3 → ∀ e ∈ t.stale, e.tenant ≠ a.toNat) ∧
        ((if c = 0#64 then (s.tenant a.toNat).measPages ≠ [] else c.toNat / 65536 ∈ (s.tenant a.toNat).measPages) →
          (t.tenant a.toNat).measured = false) ∧
        (∀ e ∈ s.stale, e.tenant ≠ a.toNat → e ∈ t.stale)) ∧
    (here 0 → s.releaseWaits s.cur scope.toNat = false →
      Completes (.icinv rb rc scope) s fun t => keeps t ∧ Synced s t true false ∧
        ∀ l ∈ (t.core s.me.core).icache ++ (t.core s.me.core).reserved,
          l ∈ (s.core s.me.core).icache ++ (s.core s.me.core).reserved ∧ (l.tenant = s.me.owner.toNat → c ≠ 0#64 →
            l.line * 64 + 64 ≤ a.toNat ∨ a.toNat + c.toNat ≤ l.line * 64)) ∧
    (here c.toNat → (c = 0#64 ∨ ∃ x, s.maintPage false p = .ok x) →
      ∀ i ∈ [Instr.cflush rb rc scope, .cinv rb rc scope],
        (i = .cflush rb rc scope → s.vineOpen s.cur = false) → Completes i s fun t =>
          keeps t ∧ ∀ d, ∀ b ∈ (t.die d).cellar, b ∈ (s.die d).cellar) ∧
    (here (min c.toNat 0x400000) → (c = 0#64 ∨ ∃ x, s.maintPage (scope == 0#3) p = .ok x) →
      Completes (.pref rb rc scope) s fun t => keeps t ∧ t.poison = s.poison ∧
        ∀ d, (t.die d).cellar.length < 655360 → ∀ b ∈ (s.die d).cellar, b ∈ (t.die d).cellar)

/-- R251, R253: `chquery` reports the chain behind a vine address; `chsync`, once no vine write of the strand
is in flight, returns the count of lost writes and clears VINE.
R249, R250: `chlink.rm` takes a link out of a chain in state 2 that has another, and raises GEN;
`chlink.add` begins the append of a replica, which the strand then waits for, its region open until it
completes (R182). R248: the die that is a link no more holds no line of the chain. Both write 0 to their destination and act as control stores. That a strand waits for an
append with its PC already at the next instruction is the model's reading (log 37). -/
def Obligations.ChainQueriesAndLinkActions : Prop :=
  (∀ (s : State) (rd rb : SReg),
     (∀ c off key, s.translate s.me.owner.toNat (s.sreg rb) (scalarAccess false 8 none) =
         .ok (.vine c off key) →
       Completes (.chquery rd rb) s fun t => ScalarResult s t rd (BitVec.ofNat 64
         ((s.chain c).state.toNat + 2 ^ 4 * (s.chain c).count.toNat + 2 ^ 8 * (s.chain c).links.toNat +
          2 ^ 32 * (s.chain c).gen.toNat))) ∧
     ((∀ e ∈ s.chains, ∀ w ∈ e.2.inflight, w.strand ≠ some s.cur) →
       Completes (.chsync rd) s fun t => OnlyMe s t ∧ RetiredAt s t s.npc ∧
         (∀ r, t.sreg r = if r = 0#5 then 0#64 else if r = rd then s.me.vineLost.setWidth 64 else s.sreg r) ∧
         t.me.vineLost = 0#32 ∧ t.me.vineChain = 0#8 ∧ t.me.vaddr = 0#57 ∧
         t.me.settled = { s.me.settled with
           s := t.me.s, vineLost := 0#32, vineChain := 0#8, vaddr := 0#57, ckpt := t.me.ckpt })) ∧
  (∀ (s : State) (rd rb rc rp : SReg) (hint : BitVec 2) (c pa : Nat),
     let d := (s.sreg rc).toNat
     let x := s.chain c
     let base := (s.sreg rp).extractLsb' 16 40
     let acts (t : State) : Prop := t.me.pc = s.npc ∧
       (∀ r, t.sreg r = if r = 0#5 ∨ r = rd then 0#64 else s.sreg r) ∧
       t.me.ckpt = { s.me.ckpt with valid := false } ∧ (∀ k, k ≠ c → t.chain k = s.chain k) ∧
       t.me.settled = { s.me.settled with s := t.me.s, region := t.me.region, ckpt := t.me.ckpt }
     (s.sreg rb).toNat % 65536 = 0 → d < 8 → s.controlTarget (s.sreg rb) false = .ok (.control pa) →
     s.controlTarget (s.sreg rb) true = .ok (.control pa) →
     pageOf pa = some (.chain c 0) → s.mayRelease 2 → s.me.ended = false →
     s.me.state ≠ 0#4 → x.state = 2#3 → x.append = none → x.inflight = [] →
     (2 ≤ x.linkDies.length → d ∈ x.linkDies → Completes (.chlinkRm rd rb rc hint) s fun t => acts t ∧
       OnlyMeSync s { t with chains := s.chains, dies := s.dies } ∧
       (∀ j, j < 4 → t.die j = if j = d then { s.die d with cellar := (s.die d).cellar.filter (fun b =>
           (x.baseOn d).all (fun a => !decide (a / 64 ≤ b ∧ b < (a + 65536 * x.size.toNat) / 64))) }
         else s.die j) ∧
       (t.chain c).linkDies = x.linkDies.filter (· != d) ∧ (t.chain c).gen = x.gen + 1#32 ∧
       (t.chain c).state = 2#3 ∧ t.me.wait = .none) ∧
     (x.linkDies.length < 4 → d ∉ x.linkDies → d < 4 → (s.die d).fence = 0#2 →
       s.frameHere base = true → s.baseOk x (frameAddr base) d = true →
       Completes (.chlinkAdd rd rb rc rp hint) s fun t => acts t ∧
         OnlyMe s { t with chains := s.chains } ∧ t.me.region = s.me.region ∧
         (t.chain c).append = some (BitVec.ofNat 3 d, base) ∧ (t.chain c).linkDies = x.linkDies ∧
         (t.chain c).gen = x.gen ∧ t.me.wait = .act (pa + 0x30)))

/-- R277 to R280, R338: `seal.open` of a free record gives it the next serial and state 1; `seal.absorb` on
the opener's record takes a free tag and counts the bytes it claims; `seal.close` signs the record once its
absorbs are complete, and until then the strand waits in it: STATE 3 with the digest of the message R280 gives
and a signature of it under the sealing key, or STATE 4 with ABANDONED when the key slot bound at open has
changed. Each acts as a control store.
R61, R236: on a record of another package each form does the same there: `seal.open` and `seal.close` take the
STATE word met there, and a request that fails on its way is dropped and recorded; how those forms are met from
here is the model's reading (logs 36 and 15). The algorithms, and the byte order of the message, are log 10. -/
def Obligations.SealForms : Prop :=
  ∀ (s : State) (rd rb rc rl : SReg) (tag : BitVec 6) (hint : BitVec 2),
    let done (t : State) : Prop := RetiredAt s t s.npc ∧ t.me.ckpt = { s.me.ckpt with valid := false } ∧
      t.me.region = s.nextRegion + 1 ∧ (∀ n, n ≠ s.cur → t.strand n = s.strand n) ∧ t.mem = s.mem
    let waits (t : State) (w : Wait) : Prop :=
      t.me.wait = w ∧ t.me.pc = s.me.pc ∧ t.me.ckpt = s.me.ckpt ∧ t.mem = s.mem
    let writes (t : State) (v : Word) : Prop :=
      ∀ j, t.sreg j = if j = 0#5 then 0#64 else if j = rd then v else s.sreg j
    let len := (s.sreg rl).toNat
    let tagged (t : State) (m : Nat) : Prop :=
      (len = 0 → t.me.tags.getLsbD tag.toNat = true) ∧
      (len ≠ 0 → t.me.tags.getLsbD tag.toNat = false ∧
        ∃ o, (s.nextId, o) ∈ t.ops ∧ o.strand = s.cur ∧ o.kind = .absorb m (s.sreg rc) len)
    (∀ m, s.sealRecordAt (s.sreg rb) = .ok (.here m) →
      let r := s.seal m
      let rest (t : State) : Prop := ∀ k, k ≠ m → t.seal k = s.seal k
      ((s.sreg rc).toNat ≤ 63 →
        ((s.sreg rc).toNat = 0 ∨ s.caskUsable s.me.owner.toNat (s.sreg rc).toNat = true) →
        r.state ≠ 1#3 → r.state ≠ 2#3 → Completes (.sealOpen rd rb rc hint) s fun t => done t ∧ rest t ∧
          t.sealSerial = s.sealSerial + 1#32 ∧ (t.seal m).serial = t.sealSerial ∧
          (t.seal m).state = 1#3 ∧ (t.seal m).strand = s.cur % 2 ^ 16 ∧ (t.seal m).bytes = [] ∧
          writes t (t.seal m).stateWord) ∧
      (r.state = 1#3 → r.strand = s.cur →
        (len ≤ 2 ^ 32 → r.claimed + len ≤ 2 ^ 48 → s.me.tags.getLsbD tag.toNat = true →
          Completes (.sealAbsorb rb rc rl tag hint) s fun t => done t ∧ rest t ∧
            t.seal m = { r with claimed := r.claimed + len } ∧ tagged t m) ∧
        (s.absorbing m = false → Completes (.sealClose rd rb hint) s fun t => done t ∧ rest t ∧
          writes t (t.seal m).stateWord ∧
          (r.slot ≠ 0 ∧ s.keyName r.slot ≠ r.keyId →
            t.seal m = { r with state := 4#3, result := 0x43#8 }) ∧
          (r.slot = 0 ∨ s.keyName r.slot = r.keyId →
            let who := putBit r.who 40 (s.tenant r.owner).measured
            let msg := r.bytes ++ bytesOf 8 r.bytes.length ++ bytesOf 8 who.toNat ++ bytesOf 4 r.serial.toNat ++
              (if r.slot = 0 then List.replicate 48 0#8 else bytesOf 48 (s.key r.slot).fprint.toNat) ++
              bytesOf 48 (s.tenant r.owner).mdigest.toNat
            ∃ k, 1 ≤ k ∧ k < p384Order ∧ t.seal m = { r with
              who := who, state := 3#3, digest := digestOf msg
              sigr := BitVec.ofNat 384 (ecdsaSign s.sealkey k msg).1
              sigs := BitVec.ofNat 384 (ecdsaSign s.sealkey k msg).2 })) ∧
        (s.absorbing m = true → Completes (.sealClose rd rb hint) s fun t =>
          waits t (.sealClose m rd s.npc) ∧ rest t ∧ t.seal m = { r with state := 2#3 }))) ∧
    (∀ pa gen, s.sealRecordAt (s.sreg rb) = .ok (.there pa gen) →
      let same (t : State) : Prop := ∀ k, t.seal k = s.seal k
      ((s.sreg rc).toNat ≤ 63 → Completes (.sealOpen rd rb rc hint) s fun t =>
        done t ∧ same t ∧ writes t (s.peerWord pa)) ∧
      (len ≤ 2 ^ 32 → s.me.tags.getLsbD tag.toNat = true →
        Completes (.sealAbsorb rb rc rl tag hint) s fun t => done t ∧ same t ∧
          (s.peerFails pa gen = false → tagged t (sealsHere + pa)) ∧
          (s.peerFails pa gen = true → t.me.tags.getLsbD tag.toNat = true ∧
            t.me.rCount = satAdd s.me.rCount 1)) ∧
      (s.peerFails pa gen = false → Completes (.sealClose rd rb hint) s fun t =>
        waits t (.peerSeal pa (s.sreg rb) rd s.npc) ∧ same t) ∧
      (s.peerFails pa gen = true → Completes (.sealClose rd rb hint) s fun t =>
        done t ∧ same t ∧ writes t (s.peerWord pa)))

/-! The vector unit. -/

/-- R348, R112, R113, R16, R20, R21, R29: the elementwise integer instructions write the exact result,
narrowed to the element, to each active element, tag 0 to its segments, and change nothing else. -/
def Obligations.VectorIntegerResults : Prop :=
  ∀ (s : State) (vd vb vc : VReg) (p : BitVec 2) (k : KReg) (hint : BitVec 2),
    let w := 8 * 2 ^ s.me.sew.toNat
    s.mayVector true p → s.clean [vb, vc] →
    let gives (i : Instr) (f : BitVec w → BitVec w → BitVec w) : Prop :=
      Completes i s fun t => VectorResult s t vd w (s.active k)
        (fun e => f (element (s.me.vreg vb) w e) (element (s.me.vreg vc) w (replica p w e)))
        (fun _ => 0#16) (fun _ => 0#5) (fun _ => False)
    gives (.vadd vd vb vc p k hint) (fun x y => BitVec.ofInt w (x.toInt + y.toInt)) ∧
    gives (.vsub vd vb vc p k hint) (fun x y => BitVec.ofInt w (x.toInt - y.toInt)) ∧
    gives (.vmul vd vb vc p k hint) (fun x y => BitVec.ofInt w (x.toInt * y.toInt)) ∧
    gives (.vmulh false vd vb vc p k hint) (fun x y => BitVec.ofInt w (x.toInt * y.toInt / 2 ^ w)) ∧
    gives (.vmulh true vd vb vc p k hint) (fun x y => BitVec.ofNat w (x.toNat * y.toNat / 2 ^ w)) ∧
    gives (.vmin false vd vb vc p k hint) (fun x y => BitVec.ofInt w (min x.toInt y.toInt)) ∧
    gives (.vmin true vd vb vc p k hint) (fun x y => BitVec.ofNat w (min x.toNat y.toNat)) ∧
    gives (.vmax false vd vb vc p k hint) (fun x y => BitVec.ofInt w (max x.toInt y.toInt)) ∧
    gives (.vmax true vd vb vc p k hint) (fun x y => BitVec.ofNat w (max x.toNat y.toNat)) ∧
    gives (.vand vd vb vc p k hint) (fun x y => x &&& y) ∧
    gives (.vor vd vb vc p k hint) (fun x y => x ||| y) ∧
    gives (.vxor vd vb vc p k hint) (fun x y => x ^^^ y) ∧
    gives (.vshl vd vb vc p k hint) (fun x y => BitVec.ofNat w (x.toNat * 2 ^ (y.toNat % w))) ∧
    gives (.vshr vd vb vc p k hint) (fun x y => BitVec.ofNat w (x.toNat / 2 ^ (y.toNat % w))) ∧
    gives (.vsra vd vb vc p k hint) (fun x y => BitVec.ofInt w (x.toInt / 2 ^ (y.toNat % w)))

/-- R373, R367, R362: `vsel` writes every element from VSTART to VL, from vB where the mask selects and from
operand C elsewhere; `vmv` and `vid` write their active elements. -/
def Obligations.VectorMoveResults : Prop :=
  ∀ (s : State) (vd vb vc : VReg) (rb : SReg) (p : BitVec 2) (k : KReg) (hint : BitVec 2),
    let w := 8 * 2 ^ s.me.sew.toNat
    let gives (i : Instr) (on : Nat → Prop) (f : Nat → BitVec w) : Prop :=
      Completes i s fun t =>
        VectorResult s t vd w on f (fun _ => 0#16) (fun _ => 0#5) (fun _ => False)
    (s.mayVector true p → s.clean [vb, vc] → gives (.vsel vd vb vc p k hint) (s.active 0#4) fun e =>
      if s.me.selects k e then element (s.me.vreg vb) w e
      else element (s.me.vreg vc) w (replica p w e)) ∧
    (s.mayVector true 0#2 → s.clean [vb] →
      gives (.vmv vd vb k hint) (s.active k) (element (s.me.vreg vb) w)) ∧
    (s.mayVector true 0#2 → s.clean [] →
      gives (.vmvScalar vd rb k hint) (s.active k) (fun _ => BitVec.ofNat w (s.sreg rb).toNat) ∧
      gives (.vid vd rb k hint) (s.active k) (fun e => BitVec.ofNat w ((s.sreg rb).toNat + e)))

/-- R352, R357, R115: comparisons write the condition of each active element to the same bit of their mask
and leave every other bit; a float comparison ORs in the flags of its active elements. -/
def Obligations.VectorCompareResults : Prop :=
  ∀ (s : State) (cond : BitVec 9) (kd : BitVec 5) (vb vc : VReg) (p : BitVec 2) (k : KReg)
    (hint : BitVec 2),
    let w := 8 * 2 ^ s.me.sew.toNat
    let x (e : Nat) : BitVec w := element (s.me.vreg vb) w e
    let y (e : Nat) : BitVec w := element (s.me.vreg vc) w (replica p w e)
    0 < kd.toNat → kd.toNat < 16 → s.mayVector true p → s.clean [vb, vc] →
    let gives (i : Instr) (yes : Nat → Prop) (g : Nat → Flags) : Prop :=
      Completes i s fun t => MaskResult s t kd.toNat (s.active k) yes g
    (cond.toNat < 6 → gives (.vcmp cond kd vb vc p k hint) (fun e =>
      (cond.toNat = 0 ∧ x e = y e) ∨ (cond.toNat = 1 ∧ x e ≠ y e) ∨
      (cond.toNat = 2 ∧ (x e).toInt < (y e).toInt) ∨ (cond.toNat = 3 ∧ (y e).toInt ≤ (x e).toInt) ∨
      (cond.toNat = 4 ∧ (x e).toNat < (y e).toNat) ∨ (cond.toNat = 5 ∧ (y e).toNat ≤ (x e).toNat))
      (fun _ => 0#5)) ∧
    (∀ f, sewFmt s.me.sew = some f → cond.toNat < 4 →
      let c (e : Nat) := fvCompare cond.toNat (f.decode (x e).toNat) (f.decode (y e).toNat)
      gives (.vfcmp cond kd vb vc p k hint) (fun e => (c e).1 = true) (fun e => (c e).2))

/-- R371, R372: `vred` folds the active elements in ascending order into the accumulate operand, and
`vscan` writes each active element the fold up to it, itself included or, with `excl`, left out. -/
def Obligations.VectorFoldResults : Prop :=
  ∀ (s : State) (op : BitVec 3) (excl : Bool) (rd : SReg) (vd vb : VReg) (rc : SReg) (k : KReg)
    (hint : BitVec 2),
    let w := 8 * 2 ^ s.me.sew.toNat
    let init : BitVec w := BitVec.ofNat w (s.sreg rc).toNat
    let fold (l : List Nat) : BitVec w :=
      l.foldl (fun r e => exactOp op.toNat w r (element (s.me.vreg vb) w e)) init
    let r := fold (s.actives k)
    s.mayVector false 0#2 → s.clean [vb] →
    (Completes (.vred op rd vb rc k hint) s fun t => VectorScalar s t rd
      (if op.toNat = 3 ∨ op.toNat = 4 then BitVec.ofNat 64 r.toNat else BitVec.ofInt 64 r.toInt) 0#5) ∧
    (Completes (.vscan op excl vd vb rc k hint) s fun t =>
      VectorResult s t vd w (s.active k)
        (fun e => fold ((s.actives k).filter fun i => if excl then decide (i < e) else decide (i ≤ e)))
        (fun _ => 0#16) (fun _ => 0#5) (fun _ => False))

/-- R370, R374, R353, R354: permutations write elements of vB chosen by an index, a distance or a mask;
`vext` reads one element into a scalar register and `vins` writes one. -/
def Obligations.VectorPermutationResults : Prop :=
  ∀ (s : State) (vd vb vc : VReg) (rd rb rc rf : SReg) (p : BitVec 2) (k : KReg) (hint : BitVec 2),
    let w := 8 * 2 ^ s.me.sew.toNat
    let b (e : Nat) : BitVec w := element (s.me.vreg vb) w e
    let n := (s.sreg rc).toNat
    let gives (i : Instr) (on : Nat → Prop) (f : Nat → BitVec w) : Prop :=
      Completes i s fun t =>
        VectorResult s t vd w on f (fun _ => 0#16) (fun _ => 0#5) (fun _ => False)
    (s.mayVector false p → s.clean [vb, vc] → gives (.vperm vd vb vc p k hint) (s.active k) fun e =>
      let i := (element (s.me.vreg vc) w (replica p w e) : BitVec w).toNat
      if i < s.me.vl.toNat then b i else 0#w) ∧
    (s.mayVector false 0#2 → s.clean [vb] →
      gives (.vslideUp vd vb rc rf k hint) (s.active k) (fun e =>
        if n ≤ e then b (e - n) else BitVec.ofNat w (s.sreg rf).toNat) ∧
      gives (.vslideDown vd vb rc rf k hint) (s.active k) (fun e =>
        if e + n < s.me.vl.toNat then b (e + n) else BitVec.ofNat w (s.sreg rf).toNat) ∧
      gives (.vcompress vd vb k hint) (fun e => e < (s.actives k).length)
        (fun e => b ((s.actives k).getD e 0)) ∧
      gives (.vexpand vd vb k hint) (s.active k)
        (fun e => b ((s.actives k).countP fun i => decide (i < e))) ∧
      (n < s.me.mvl.toNat / w →
        (Completes (.vext true rd vb rc hint) s fun t =>
          VectorScalar s t rd (BitVec.ofNat 64 (b n).toNat) 0#5) ∧
        (Completes (.vext false rd vb rc hint) s fun t =>
          VectorScalar s t rd (BitVec.ofInt 64 (b n).toInt) 0#5))) ∧
    (s.mayVector false 0#2 → s.clean [] → n < s.me.mvl.toNat / w →
      gives (.vins vd rb rc hint) (fun e => e = n) fun _ => BitVec.ofNat w (s.sreg rb).toNat)

/-- R356, R360, R117: the elementwise float instructions write each active element the result of their
function rounded under FRM, OR the flags of the active elements into FFLAGS, and change nothing else. The result of
`vfexp2` is the model's: it rounds a value of 2 to the power x worked out to 256 fractional bits, a working precision
that no rule gives (log 13, DESIGN CHOICE). -/
def Obligations.VectorFloatResults : Prop :=
  ∀ (s : State) (vd vb vc va : VReg) (p : BitVec 2) (k : KReg) (hint : BitVec 2) (f : Fmt),
    (s.me.sew = 3#2 ∧ f = fp64) ∨ (s.me.sew = 2#2 ∧ f = fp32) ∨ (s.me.sew = 1#2 ∧ f = bf16) →
    let w := 8 * 2 ^ s.me.sew.toNat
    let rm := s.me.frm.toNat
    let x (e : Nat) : Nat := (element (s.me.vreg vb) w e).toNat
    let y (e : Nat) : Nat := (element (s.me.vreg vc) w (replica p w e)).toNat
    let z (e : Nat) : Nat := (element (s.me.vreg va) w e).toNat
    let gives (i : Instr) (r : Nat → Nat × Flags) : Prop :=
      Completes i s fun t => VectorResult s t vd w (s.active k) (fun e => BitVec.ofNat w (r e).1)
        (fun _ => 0#16) (fun e => (r e).2) (fun _ => False)
    (s.mayVector true p → s.clean [vb, vc] →
      gives (.vfadd vd vb vc p k hint) (fun e => f.add rm (f.decode (x e)) (f.decode (y e))) ∧
      gives (.vfsub vd vb vc p k hint) (fun e => f.sub rm (f.decode (x e)) (f.decode (y e))) ∧
      gives (.vfmul vd vb vc p k hint) (fun e => f.mul rm (f.decode (x e)) (f.decode (y e))) ∧
      gives (.vfdiv vd vb vc p k hint) (fun e => f.div rm (f.decode (x e)) (f.decode (y e))) ∧
      gives (.vfmin vd vb vc p k hint) (fun e => f.minMax false (x e) (y e)) ∧
      gives (.vfmax vd vb vc p k hint) (fun e => f.minMax true (x e) (y e))) ∧
    (s.mayVector true 0#2 → s.clean [vb] →
      gives (.vfsqrt vd vb k hint) (fun e => f.sqrt rm (f.decode (x e))) ∧
      gives (.vfrec vd vb k hint) (fun e => f.recip rm (f.decode (x e))) ∧
      gives (.vfrsqrt vd vb k hint) (fun e => f.rsqrt rm (f.decode (x e))) ∧
      gives (.vfexp2 vd vb k hint) (fun e => f.exp2 rm (f.decode (x e)))) ∧
    (s.mayVector true p → s.clean [vb, vc, va] →
      gives (.vfma vd vb vc va p k hint) (fun e =>
        f.fma rm (f.decode (x e)) (f.decode (y e)) (f.decode (z e))))

/-- R358, R359, R119: `vfcvt` converts each active element with saturation, sets the k15 bits of those that
saturate, and tags its segments with the format it wrote. -/
def Obligations.VectorConversionResults : Prop :=
  ∀ (s : State) (dst src : BitVec 4) (vd vb : VReg) (k : KReg) (hint : BitVec 2),
    (Instr.vfcvt dst src vd vb k hint).wf = true → s.mayVector true 0#2 → s.clean [vb] →
    let w := cvtWidth dst.toNat
    let tag : Tag := if dst = 0#4 then 0x7F08#16 else if dst = 4#4 then 0x7F07#16
      else if dst = 5#4 then 0x7F06#16 else if dst = 7#4 then 0x7F03#16
      else if dst = 8#4 then 0x7F01#16 else if dst = 9#4 then 0x7F02#16 else 0#16
    let gives (x : Nat → FVal) : Prop :=
      Completes (.vfcvt dst src vd vb k hint) s fun t =>
        VectorResult s t vd w (s.active k)
          (fun e => (cvtLane s.me.frm.toNat dst.toNat (x e)).value) (fun _ => tag)
          (fun e => (cvtLane s.me.frm.toNat dst.toNat (x e)).flags)
          (fun e => (cvtLane s.me.frm.toNat dst.toNat (x e)).sat = true)
    (src ≠ 10#4 → s.me.vl.toNat * max (cvtWidth src.toNat) w ≤ s.me.mvl.toNat →
      gives fun e => cvtSource src.toNat
        (element (s.me.vreg vb) (cvtWidth src.toNat) e : BitVec (cvtWidth src.toNat))) ∧
    (src = 10#4 → s.taggedOk vb (tagFormat (s.me.segTag vb 0)) dst.toNat = true →
      let n := tagElems (tagFormat (s.me.segTag vb 0))
      gives fun e => decodeElem (s.me.segTag vb (e / n)) (segment (s.me.vreg vb) (e / n)) (e % n))

/-- R368, R369, R123, R375, R361, R125: `vpack` writes one tagged block per segment from the elements,
`vunpack` decodes the active elements from tagged blocks, `vfred` reduces by the tree. -/
def Obligations.VectorBlockResults : Prop :=
  ∀ (s : State) (fmt : BitVec 4) (op : BitVec 2) (rd : SReg) (vd vb : VReg) (rc : SReg) (k : KReg)
    (hint : BitVec 2) (f : Fmt),
    sewFmt s.me.sew = some f → s.mayVector false 0#2 → s.clean [vb] →
    let w := 8 * 2 ^ s.me.sew.toNat
    let g := tagElems fmt.toNat
    let n := (s.me.vl.toNat + g - 1) / g
    let b (i : Nat) : Packed :=
      s.me.packSegment f fmt.toNat s.me.frm.toNat (s.me.vreg vb) (s.actives k) i
    (0 < g → 512 ≤ s.me.mvl.toNat → n ≤ s.me.mvl.toNat / 512 →
      Completes (.vpack fmt vd vb k hint) s fun t => OnlyMe s t ∧ RetiredAt s t s.npc ∧
        (∀ i, i < 32 → segment (t.me.vreg vd) i =
          if i < n then (b i).block else segment (s.me.vreg vd) i) ∧
        (∀ i, i < 32 → t.me.segTag vd i = if i < n then (b i).tag else s.me.segTag vd i) ∧
        (∀ r, r ≠ vd → t.me.vreg r = s.me.vreg r ∧ ∀ i, t.me.segTag r i = s.me.segTag r i) ∧
        (∀ j, j < 2048 → ((t.me.kreg 15).getLsbD j = true ↔ (s.me.kreg 15).getLsbD j = true ∨
          ∃ i, i < n ∧ ∃ q ∈ (b i).sat, j = i * g + q)) ∧
        (∀ j, j ≠ 15 → t.me.kreg j = s.me.kreg j) ∧ t.me.vstart = 0#32 ∧
        { t.me.settled with
          vec := s.me.vec, poisonV := s.me.poisonV, vstart := s.me.vstart, vres := s.me.vres
          fflags := s.me.fflags } = s.me.settled) ∧
    (let j := (s.sreg rc).toNat
     let u := tagElems (tagFormat (s.me.segTag vb 0))
     512 ≤ s.me.mvl.toNat → 0 < u →
     (j + s.me.vl.toNat - 1) / u < s.me.mvl.toNat / 512 →
     (∀ e, s.active k e → tagFormat (s.me.segTag vb ((j + e) / u)) = tagFormat (s.me.segTag vb 0)) →
     Completes (.vunpack vd vb rc k hint) s fun t =>
       let z (e : Nat) := f.satTo s.me.frm.toNat
         (decodeElem (s.me.segTag vb ((j + e) / u)) (segment (s.me.vreg vb) ((j + e) / u)) ((j + e) % u))
       VectorResult s t vd w (s.active k) (fun e => BitVec.ofNat w (z e).1)
         (fun _ =>
           if s.me.sew = 3#2 then 0x7F07#16 else if s.me.sew = 2#2 then 0x7F06#16 else 0x7F03#16)
         (fun e => (z e).2.2) (fun e => (z e).2.1 = true)) ∧
    (Completes (.vfred op rd vb rc k hint) s fun t =>
      let r := treeReduce (fredOp f s.me.frm.toNat op.toNat)
        ((List.range s.me.vl.toNat).map fun e =>
          if (s.actives k).contains e then some (element (s.me.vreg vb) w e).toNat else none)
        ((s.sreg rc).toNat % 2 ^ f.bits)
      VectorScalar s t rd (BitVec.ofNat 64 r.1) r.2)

/-- R325 to R327: mask instructions write the first MVL / w bits of their mask, `k0` reading as ones;
`kpopc` counts and `kfirst` finds the set bits below VL. -/
def Obligations.MaskInstructionResults : Prop :=
  ∀ (s : State) (kd kb kc : BitVec 5) (rd rb : SReg), s.mayVector false 0#2 →
    let n := s.me.mvl.toNat / (8 * 2 ^ s.me.sew.toNat)
    let x (e : Nat) : Prop := (s.me.kreg kb.toNat).getLsbD e = true
    let y (e : Nat) : Prop := (s.me.kreg kc.toNat).getLsbD e = true
    let gives (i : Instr) (f : Nat → Prop) : Prop := 0 < kd.toNat → kd.toNat < 16 →
      Completes i s fun t => MaskResult s t kd.toNat (fun e => e < n) f fun _ => 0#5
    gives (.kand kd kb kc) (fun e => x e ∧ y e) ∧ gives (.kor kd kb kc) (fun e => x e ∨ y e) ∧
    gives (.kxor kd kb kc) (fun e => ¬ (x e ↔ y e)) ∧ gives (.knot kd kb) (fun e => ¬ x e) ∧
    gives (.kmv kd kb) x ∧ gives (.kset kd rb) (fun e => e < (s.sreg rb).toNat) ∧
    (Completes (.kpopc rd kb) s fun t => VectorScalar s t rd (BitVec.ofNat 64
      ((List.range s.me.vl.toNat).countP fun e => (s.me.kreg kb.toNat).getLsbD e)) 0#5) ∧
    (∀ e, e < s.me.vl.toNat → x e → (∀ i, i < e → ¬ x i) →
      Completes (.kfirst rd kb) s fun t => VectorScalar s t rd (BitVec.ofNat 64 e) 0#5) ∧
    ((∀ e, e < s.me.vl.toNat → ¬ x e) →
      Completes (.kfirst rd kb) s fun t => VectorScalar s t rd (BitVec.allOnes 64) 0#5)

/-- R215, R22, R343, R211: in a handler that has not claimed the vector unit, every vector and mask
instruction raises ILLEGAL_STATE and stops the strand; so do one that is not restartable with VSTART not 0,
and a float instruction at SEW 0, in or out of a handler.
R350: a `vamo` whose SEW is not its width raises ILLEGAL_STATE; one with VSTART not 0 begins at that element,
as the statement of its results says, since it is restartable.
R148, R151, R161: a matrix instruction of a strand that does not hold the engine, or on a steward core,
raises ILLEGAL_STATE; while MSTOP is valid an operation is discarded and counted, and changes nothing else, and
`mrd` and `mwr` raise UNCORRECTABLE: a rollback when the checkpoint is valid, else state 6. That the discard comes before
every check of the operation's operands and leaves VSTART is the model's reading (log 28, DEDUCED).
R257, R22: an elementwise instruction that meets a poisoned source at its first active element writes
nothing, leaves VSTART there, and starts a rollback of the strip when its checkpoint is valid; that poison is of a whole
vector register is the model's choice (log 22, DESIGN CHOICE). -/
def Obligations.VectorAndMatrixIssueRules : Prop :=
  (∀ (s : State) (vd vb vc va : VReg) (rd rb rc : SReg) (kd kb kc : BitVec 5) (p : BitVec 2) (k : KReg)
     (hint : BitVec 2) (op3 scope : BitVec 3) (op2 iw order : BitVec 2) (b : Bool) (c : BitVec 9)
     (fmt src : BitVec 4),
     let whole : List Instr := [.vred op3 rd vb rc k hint, .vscan op3 b vd vb rc k hint,
       .vperm vd vb vc p k hint, .vslideUp vd vb rc rb k hint, .vslideDown vd vb rc rb k hint,
       .vcompress vd vb k hint, .vexpand vd vb k hint, .vext b rd vb rc hint, .vins vd rb rc hint,
       .kand kd kb kc, .kor kd kb kc, .kxor kd kb kc, .knot kd kb, .kmv kd kb, .kset kd rb,
       .kpopc rd kb, .kfirst rd kb, .vfred op2 rd vb rc k hint, .vpack fmt vd vb k hint,
       .vunpack vd vb rc k hint]
     let floats : List Instr := [.vfadd vd vb vc p k hint, .vfsub vd vb vc p k hint,
       .vfmul vd vb vc p k hint, .vfdiv vd vb vc p k hint, .vfsqrt vd vb k hint, .vfrec vd vb k hint,
       .vfrsqrt vd vb k hint, .vfexp2 vd vb k hint, .vfmin vd vb vc p k hint, .vfmax vd vb vc p k hint,
       .vfma vd vb vc va p k hint, .vfcmp c kd vb vc p k hint, .vfred op2 rd vb rc k hint,
       .vpack fmt vd vb k hint, .vunpack vd vb rc k hint]
     let plain : List Instr := [.vadd vd vb vc p k hint, .vsub vd vb vc p k hint,
       .vmul vd vb vc p k hint, .vmulh b vd vb vc p k hint, .vmin b vd vb vc p k hint,
       .vmax b vd vb vc p k hint, .vand vd vb vc p k hint, .vor vd vb vc p k hint,
       .vxor vd vb vc p k hint, .vshl vd vb vc p k hint, .vshr vd vb vc p k hint,
       .vsra vd vb vc p k hint, .vcmp c kd vb vc p k hint, .vsel vd vb vc p k hint, .vmv vd vb k hint,
       .vmvScalar vd rb k hint, .vid vd rb k hint, .vfcvt fmt src vd vb k hint]
     let memory : List Instr := [.vld vd rb k hint, .vlds vd rb rc k hint, .vldx iw vd rb vc p k hint,
       .vldff vd rb k hint, .vst vd rb k hint, .vsts vd rb rc k hint, .vstx iw vd rb vc p k hint,
       .vamo fmt iw order scope vd rb vc va p k hint]
     (s.me.inHandler = true → s.me.claimed = false → ∀ i ∈ whole ++ floats ++ plain,
       Completes i s fun t => StopsNested s t 0x02 s.me.pc) ∧
     (s.me.inHandler = true → s.me.claimed = false →
       (∀ i ∈ memory, Completes i s fun t => StopsNested s.bindSpad t 0x02 s.me.pc) ∧
       ∀ i ∈ [Instr.mrd vd rb k hint, .mwr rb vc p k hint],
         Completes i s fun t => StopsNested (s.updMe Strand.bindHere) t 0x02 s.me.pc) ∧
     (8 * 2 ^ s.me.sew.toNat ≠ (if iw = 3#2 then 64 else 32) →
       Completes (.vamo fmt iw order scope vd rb vc va p k hint) s fun t =>
         Raises s.bindSpad t 0x02 s.me.pc 0#64) ∧
     (s.me.vstart ≠ 0#32 → ∀ i ∈ whole, Completes i s fun t => Raises s t 0x02 s.me.pc 0#64) ∧
     (s.me.sew = 0#2 → ∀ i ∈ floats, Completes i s fun t => Raises s t 0x02 s.me.pc 0#64)) ∧
  (∀ (s : State) (cls space mode fmt2 : BitVec 2) (sparse zero : Bool) (fmt3 : BitVec 3)
     (rd ra rb rc rk : SReg) (vm : VReg) (hint : BitVec 2),
     let s0 := s.updMe Strand.bindHere
     let c := s.me.core
     let e := (s.core c).engine
     let ops : List Instr := [.mldw cls space sparse rb rc vm hint, .mswap, .mmac zero ra rb rc hint,
       .mzero rb rc, .mld fmt2 ra rb rc hint, .mst fmt3 ra rb rc hint]
     (36 ≤ c % 64 → ∀ i ∈ ops ++ [.mshape mode sparse rd rb rc rk hint, .mchk rd],
       Completes i s fun t => Raises s0 t 0x02 s.me.pc 0#64) ∧
     ((e.holder ≠ some s.cur ∨ e.release = true) → ∀ i ∈ ops,
       Completes i s fun t => Raises s0 t 0x02 s.me.pc 0#64) ∧
     (c % 64 < 36 → e.holder = some s.cur → e.release = false → s.me.mstopValid = true → ∀ i ∈ ops,
       Completes i s fun t => OnlyMe s0 t ∧ RetiredAt s t s.npc ∧
         t.me.mchkLost = satAdd s.me.mchkLost 1 ∧
         t.me.settled = { s0.me.settled with
           mchkLost := t.me.mchkLost, ckpt := { s.me.ckpt with valid := false } })) ∧
  (∀ (s : State) (vd vc : VReg) (rb : SReg) (p : BitVec 2) (k : KReg) (hint : BitVec 2),
     let s0 := s.updMe Strand.bindHere
     let c := s.me.core
     let e := (s.core c).engine
     let rolls : Prop := s.me.ckpt.valid = true ∧ s.me.inHandler = false ∧ s.me.rbStrip.toNat < 4
     c % 64 < 36 → e.holder = some s.cur → e.release = false → s.me.mstopValid = true → 2 ≤ s.me.sew.toNat →
     128 * (s.sreg rb).toNat + s.me.vl.toNat * (8 * 2 ^ s.me.sew.toNat) / 8 ≤ 262144 →
     s.mayVector true p → s.mayVector true 0#2 →
     ∀ i ∈ [Instr.mrd vd rb k hint, .mwr rb vc p k hint],
       (rolls → Completes i s fun t => OnlyMe s0 t ∧ t.me = { s0.me with wait := .rollback }) ∧
       (¬ rolls → s.me.state ≠ 0#4 → s.me.ended = false → Completes i s fun t =>
         t.freed s.cur s.me ∨ (t.me.state = 6#4 ∧ t.me.cause = 0x13#8 ∧ t.me.place = none))) ∧
  (∀ (s : State) (vd vb vc : VReg) (p : BitVec 2) (k : KReg) (hint : BitVec 2) (e : Nat),
     s.mayVector true p → vb.toNat ∈ s.me.poisonV ∨ vc.toNat ∈ s.me.poisonV →
     (s.actives k).head? = some e → s.me.ckpt.valid = true → s.me.inHandler = false →
     s.me.rbStrip.toNat < 4 →
     ∀ i ∈ [Instr.vadd vd vb vc p k hint, .vmul vd vb vc p k hint, .vxor vd vb vc p k hint],
       Completes i s fun t => OnlyMe s t ∧ t.me.wait = .rollback ∧ t.me.pc = s.me.pc ∧
         t.me.vstart.toNat = e ∧ (∀ r, t.me.vreg r = s.me.vreg r) ∧
         (∀ r n, t.me.segTag r n = s.me.segTag r n) ∧ t.me.s = s.me.s ∧ t.me.ckpt = s.me.ckpt)

/-! Vector memory. -/

/-- R364, R365, R366, R196, R20: a vector load whose active elements all pass their checks writes each the
little-endian value it reads, tags its segments, and changes nothing else but the lines that the cellars hold
(R134), and with H = 1 not those. A contiguous load's segment takes the tag of the block of its lowest byte; the
others write tag 0. R192, R366: a fault-only-first load treats its first active element so, and is cut at the lowest
later one that would raise a cause, meets a page that is not resident or poison, or lies on a page with NS = 1: VL
becomes that element's number, the elements below it are loaded, and nothing is raised. The statement is of aligned
elements, each on a page that no race check guards, in a scratchpad, in a chain with no write in flight, or in another
package's memory. -/
def Obligations.VectorLoadResults : Prop :=
  ∀ (s : State) (iw : BitVec 2) (vd vc : VReg) (rb rc : SReg) (p : BitVec 2) (k : KReg) (hint : BitVec 2)
    (x : Nat → Target),
    let s0 := s.bindSpad
    let w := 8 * 2 ^ s.me.sew.toNat
    let n := 2 ^ s.me.sew.toNat
    let leads (va : Word) : Except Stop Target := s0.resolveIn s0.me.owner.toNat s0.me.core s0.me.space va
      { way := .vector, read := true, write := false, exec := false, width := n, scope := none } false
    let passes (addr : Nat → Word) (e : Nat) : Prop :=
      (addr e).toNat % n = 0 ∧ s0.quiet (x e) ∧ s0.poisoned (x e) n = false ∧ leads (addr e) = .ok (x e)
    let reads (addr : Nat → Word) : Prop := ∀ e, s.active k e → passes addr e
    let later (e : Nat) : Prop := s.active k e ∧ ∃ i, i < e ∧ s.active k i
    let unit (e : Nat) : Word := s.sreg rb + BitVec.ofNat 64 (e * n)
    let gives (i : Instr) (tag : Nat → Tag) : Prop :=
      Completes i s fun t => VectorResult s0 { t with dies := s.dies } vd w (s.active k)
        (fun e => BitVec.ofNat w (natOfBytes (s0.readTarget (x e) n))) tag (fun _ => 0#5) (fun _ => False) ∧
        (∀ d, { t.die d with cellar := (s.die d).cellar } = s.die d) ∧ (hint = 1#2 → t.dies = s.dies)
    let blockTag (g : Nat) : Tag := match (s.actives k).find? fun e => w * e / 512 == g with
      | some e => s0.tagTarget (x e)
      | none => 0#16
    s.boardRoom 1 → (∀ o ∈ (s.core s.me.core).board, o.strand = s.cur → o.write = false) →
    s.me.k14pc ≠ some s.me.pc →
    (s.mayVector true 0#2 → s.clean [] →
      (reads unit → gives (.vld vd rb k hint) blockTag) ∧
      (reads unit → (∀ e, later e → s0.onNsPage [{ va := unit e, len := n, tgt := x e }] = false) →
        gives (.vldff vd rb k hint) blockTag) ∧
      (∀ c, later c → (unit c).toNat % n = 0 → (∀ e, s.active k e → leads (unit e) ≠ .error .wait) →
        (∀ e, s.active k e → e < c → passes unit e) →
        (∀ e, later e → e < c → s0.onNsPage [{ va := unit e, len := n, tgt := x e }] = false) →
        (∃ stop, leads (unit c) = .error stop) ∨ (∃ y, leads (unit c) = .ok y ∧
          (s0.onNsPage [{ va := unit c, len := n, tgt := y }] = true ∨ (s0.quiet y ∧ s0.poisoned y n = true))) →
        Completes (.vldff vd rb k hint) s fun t =>
          VectorResult (s0.updMe fun y => { y with vl := BitVec.ofNat 32 c }) { t with dies := s.dies } vd w
            (fun e => s.active k e ∧ e < c) (fun e => BitVec.ofNat w (natOfBytes (s0.readTarget (x e) n))) blockTag
            (fun _ => 0#5) (fun _ => False) ∧
          (∀ d, { t.die d with cellar := (s.die d).cellar } = s.die d) ∧ (hint = 1#2 → t.dies = s.dies)) ∧
      (reads (fun e => s.sreg rb + BitVec.ofNat 64 e * s.sreg rc) →
        gives (.vlds vd rb rc k hint) fun _ => 0#16)) ∧
    (s.mayVector true p → s.clean [vc] → s.me.vl.toNat * (8 * 2 ^ iw.toNat) ≤ s.me.mvl.toNat →
      reads (fun e => s.sreg rb + BitVec.ofNat 64
        (element (s.me.vreg vc) (8 * 2 ^ iw.toNat) (replica p (8 * 2 ^ iw.toNat) e) :
          BitVec (8 * 2 ^ iw.toNat)).toNat) →
      gives (.vldx iw vd rb vc p k hint) fun _ => 0#16)

/-- R364, R365, R131, R168: a vector store whose active elements all pass their checks writes each element's
bytes, the highest of those that share an address last; a block takes the tag of the segment that supplies
its lowest written byte. Every byte outside the elements, and every register, is as before.
R350, R351, R300: an elementwise atomic returns the old value of each active element's location and
writes the new one; the other elements, registers and bytes are as before. (Over locations that are all
different.) -/
def Obligations.VectorStoreAndAtomicResults : Prop :=
  (∀ (s : State) (iw : BitVec 2) (vs vc : VReg) (rb rc : SReg) (p : BitVec 2) (k : KReg) (hint : BitVec 2)
     (pa : Nat → Nat) (key : Nat),
     let w := 8 * 2 ^ s.me.sew.toNat
     let n := 2 ^ s.me.sew.toNat
     let on := s.active k
     let writes (addr : Nat → Word) : Prop := ∀ e, on e → (addr e).toNat % n = 0 ∧ pa e % n = 0 ∧
       s.resolveIn s.me.owner.toNat s.me.core 0#2 (addr e)
         { way := .vector, read := false, write := true, exec := false, width := n, scope := none } false =
         .ok (.hbm (pa e) key false)
     let last (e : Nat) : Prop := on e ∧ ∀ i, on i → pa i = pa e → i ≤ e
     let gives (i : Instr) : Prop := Completes i s fun t =>
       OnlyHbm s t ∧ RetiredAt s t s.npc ∧ Synced s t false false ∧
       (∀ e, last e → ∀ j, j < n → t.hbmByte key (pa e + j) =
         (element (s.me.vreg vs) w e : BitVec w).extractLsb' (8 * j) 8) ∧
       (∀ a, (∀ e, on e → ¬ (pa e ≤ a ∧ a < pa e + n)) → t.hbmByte key a = s.hbmByte key a) ∧
       (∀ j a, (∀ e, on e → pa e / 64 ≠ a / 64) →
         t.hbmByte j a = s.hbmByte j a ∧ t.hbmTag j a = s.hbmTag j a) ∧
       (∀ e, last e → (∀ i, on i → pa i / 64 = pa e / 64 → pa e ≤ pa i) →
         t.hbmTag key (pa e) = s.me.segTag vs (w * e / 512)) ∧
       t.me.settled = { s.me.settled with vstart := 0#32, vres := true }
     s.me.space = 0#2 → s.me.k14pc ≠ some s.me.pc →
     (s.mayVector true 0#2 → s.clean [vs] →
       (writes (fun e => s.sreg rb + BitVec.ofNat 64 (e * n)) → gives (.vst vs rb k hint)) ∧
       (writes (fun e => s.sreg rb + BitVec.ofNat 64 e * s.sreg rc) → gives (.vsts vs rb rc k hint))) ∧
     (s.mayVector true p → s.clean [vs, vc] → s.me.vl.toNat * (8 * 2 ^ iw.toNat) ≤ s.me.mvl.toNat →
       writes (fun e => s.sreg rb + BitVec.ofNat 64
         (element (s.me.vreg vc) (8 * 2 ^ iw.toNat) (replica p (8 * 2 ^ iw.toNat) e) :
           BitVec (8 * 2 ^ iw.toNat)).toNat) →
       gives (.vstx iw vs rb vc p k hint))) ∧
  (∀ (s : State) (op : BitVec 4) (w order : BitVec 2) (scope : BitVec 3) (vd : VReg) (rb : SReg)
     (vc vi : VReg) (p : BitVec 2) (k : KReg) (hint : BitVec 2) (pa : Nat → Nat) (key : Nat),
     let n := if w = 3#2 then 8 else 4
     let on := s.active k
     let addr (e : Nat) : Word := s.sreg rb +
       BitVec.ofNat 64 (element (s.me.vreg vi) (8 * n) e : BitVec (8 * n)).toNat
     let old (e : Nat) : BitVec (8 * n) := BitVec.ofNat (8 * n) (natOfBytes (s.hbmRead key (pa e) n))
     let x (e : Nat) : BitVec (8 * n) := element (s.me.vreg vc) (8 * n) (replica p (8 * n) e)
     let c (e : Nat) : BitVec (8 * n) := element (s.me.vreg vd) (8 * n) e
     let new (e : Nat) : BitVec (8 * n) :=
       if op = 0#4 then old e + x e else if op = 1#4 then old e &&& x e
       else if op = 2#4 then old e ||| x e else if op = 3#4 then old e ^^^ x e
       else if op = 4#4 then (if (x e).toInt < (old e).toInt then x e else old e)
       else if op = 5#4 then (if (old e).toInt < (x e).toInt then x e else old e)
       else if op = 6#4 then x e else if old e = c e then x e else old e
     (w = 2#2 ∨ w = 3#2) → op.toNat < 8 → 2 ^ s.me.sew.toNat = n → s.me.space = 0#2 →
     s.me.k14pc ≠ some s.me.pc → s.mayVector true p →
     s.clean (if op = 7#4 then [vc, vi, vd] else [vc, vi]) →
     ((order = 2#2 ∨ order = 3#2) → s.mayRelease scope.toNat) →
     (∀ e, on e → s.leads (addr e) (atomicAccess n scope.toNat) (.hbm (pa e) key false) ∧
       s.poisoned (.hbm (pa e) key false) n = false ∧ pa e % n = 0) →
     (∀ e i, on e → on i → pa e = pa i → e = i) →
     Completes (.vamo op w order scope vd rb vc vi p k hint) s fun t =>
       OnlyHbm s t ∧ RetiredAt s t s.npc ∧ Synced s t (order != 0#2) true ∧
       (∀ e, on e → ∀ j, j < n → t.hbmByte key (pa e + j) = (new e).extractLsb' (8 * j) 8) ∧
       (∀ a, (∀ e, on e → ¬ (pa e ≤ a ∧ a < pa e + n)) → t.hbmByte key a = s.hbmByte key a) ∧
       (∀ a, t.hbmTag key a = s.hbmTag key a) ∧
       (∀ e, (e + 1) * (8 * n) ≤ 16384 →
         (on e → element (t.me.vreg vd) (8 * n) e = old e) ∧
         (¬ on e → element (t.me.vreg vd) (8 * n) e = c e)) ∧
       (∀ r, r ≠ vd → t.me.vreg r = s.me.vreg r) ∧ (∀ j, t.me.kreg j = s.me.kreg j) ∧
       t.me.vec.prog.toList.getD vd.toNat 0#32 = s.me.vl ∧ t.me.vstart = 0#32 ∧
       { t.me.settled with vec := s.me.vec, poisonV := s.me.poisonV, vstart := s.me.vstart
                           vres := s.me.vres, region := s.me.region, ckpt := s.me.ckpt } = s.me.settled)

/-- R196, R23, R197: a contiguous load or store whose lowest active element is on a page that is not resident
writes no element of a register below it, reports the page and leaves the strand in state 8 with VSTART at
that element and k14 marking it, all when no other element is active. -/
def Obligations.VectorPageMiss : Prop :=
  ∀ (s : State) (v : VReg) (rb : SReg) (k : KReg) (hint : BitVec 2) (e level : Nat),
    let n := 2 ^ s.me.sew.toNat
    let va := s.sreg rb + BitVec.ofNat 64 (e * n)
    let o := s.me.owner.toNat
    s.me.space = 0#2 → s.me.k14pc ≠ some s.me.pc → s.mayVector true 0#2 → s.clean [v] →
    s.actives k = [e] → e < 2048 → va.toNat % n = 0 → s.me.stepping = false →
    s.me.prevBatch = [] → (s.tenant o).fqHolding = [] →
    (s.tenant o).fqTail.toNat - (s.tenant o).fqHead.toNat < 1024 →
    (∀ q ∈ (s.tenant o).fqEntries, q.2.status ≠ 0#2) →
    ∀ write : Bool,
      s.resolveIn o s.me.core 0#2 va
        { way := .vector, read := !write, write := write, exec := false, width := n, scope := none } false =
        .error (.miss va level) →
      Completes (if write then .vst v rb k hint else .vld v rb k hint) s fun t =>
        t.me.state = 8#4 ∧ t.me.pc = s.me.pc ∧ t.me.vstart.toNat = e ∧
        (∀ j, j < 2048 → ((t.me.kreg 14).getLsbD j = true ↔ j = e)) ∧
        t.me.awaitSeqs = [BitVec.ofNat 48 (s.tenant o).fqTail.toNat] ∧
        (t.tenant o).fqTail = (s.tenant o).fqTail + 1#32 ∧
        (lookupD (t.tenant o).fqEntries (s.tenant o).fqTail.toNat
          (PageMiss.entry { va := va, level := level, mask := 0#3, count := 0 } true 0 0#16 3#2)) =
          { page := va.extractLsb' 16 41, engine := false, level := BitVec.ofNat 2 level
            mask := if write then 2#3 else 1#3, who := BitVec.ofNat 32 s.cur, count := 1#16
            stale := 0#16, status := 0#2 } ∧
        (∀ r, t.me.vreg r = s.me.vreg r) ∧ t.mem = s.mem

/-! The matrix engine. -/

/-- R148, R152: `mshape` grants the holder, or the first strand to ask for a free engine, the request limited
to the mode; a request of zeros gives an idle engine up; a request for a held engine waits in order. -/
def Obligations.MatrixShapeGrants : Prop :=
  ∀ (s : State) (mode : BitVec 2) (sparse : Bool) (rd rb rc rk : SReg) (hint : BitVec 2),
    let c := s.me.core
    let e := (s.core c).engine
    let i : Instr := .mshape mode sparse rd rb rc rk hint
    let m := (s.sreg rb).toNat
    let n := (s.sreg rc).toNat
    let k := (s.sreg rk).toNat
    let most (dense : Nat) : Nat := if sparse then 2 * dense else dense
    let g : Word := BitVec.ofNat 64
      (min m (if mode = 2#2 then 1024 else 2048) * 2 ^ 48 + min n 32 * 2 ^ 40 +
       min k (most (if mode = 0#2 then 2048 else if mode = 1#2 then 512 else 32)) * 2 ^ 24)
    let retires (t : State) (v : Word) : Prop := RetiredAt s t s.npc ∧
      (∀ r, t.sreg r = if r = 0#5 then 0#64 else if r = rd then v else s.sreg r) ∧
      t.me.shape = v ∧ t.me.vstart = 0#32 ∧ t.me.ckpt = { s.me.ckpt with valid := false } ∧
      { t with strands := s.strands, cores := s.cores } = s ∧
      (∀ j, j ≠ s.cur → t.strand j = s.strand j) ∧
      (∀ j, t.core j = if j = c then { s.core c with engine := (t.core c).engine } else s.core j)
    c % 64 < 36 → mode.toNat < 3 →
    (m ≠ 0 → n ≠ 0 → k ≠ 0 → ¬ (sparse = true ∧ mode = 2#2) →
      (e.holder = some s.cur → e.release = false → Completes i s fun t => retires t g ∧
        (t.core c).engine = { e with mode := mode, sparse := sparse, shape := g }) ∧
      (e.holder = none → e.waiters = [] → Completes i s fun t => retires t g ∧
        (t.core c).engine.holder = some s.cur ∧ (t.core c).engine.mode = mode ∧
        (t.core c).engine.sparse = sparse ∧ (t.core c).engine.shape = g ∧
        (t.core c).engine.active = Plane.empty ∧ (t.core c).engine.shadow = Plane.empty ∧
        (t.core c).engine.acc = [] ∧ (t.core c).engine.queue = []) ∧
      (∀ h, e.holder = some h → h ≠ s.cur → e.waiters = [] → s.me.stepping = false →
        Completes i s fun t => t.me = { s.me with bound := some c } ∧
          (t.core c).engine = { e with waiters := [s.cur] })) ∧
    (m = 0 → n = 0 → k = 0 → e.holder = some s.cur → e.release = false → e.queue = [] →
      e.shadow.state ≠ 1#2 → Completes i s fun t => retires t 0#64 ∧ (t.core c).engine.holder = none) ∧
    ((m = 0 ∨ n = 0 ∨ k = 0) → (m ≠ 0 ∨ n ≠ 0 ∨ k ≠ 0) →
      Completes i s fun t => Raises (s.updMe Strand.bindHere) t 0x02 s.me.pc 0#64)

/-- R149, R153, R154, R156, R163: `mldw` starts a load into a shadow plane that is not loading, from scratchpad
blocks or from the blocks its plan gives, at group VSTART (log 63), and retires; behind a load under way, or a
swap or load that waits, it enters the queue instead. R166: a plane holds cask weights when a block read
is one, or one that it keeps was. R257: a sparse `mldw` whose mask vector is poisoned reads nothing: the strip rolls
back when its checkpoint is valid, else the strand ends. `mswap` of a loaded shadow plane enters the queue behind the
older operations and retires; it waits for a load, and raises a faulted plane's cause. The model's choices (log 28,
DEDUCED, unsafe): that a load queues behind a load or a swap, and that a second swap behind a swap that waits
raises ILLEGAL_STATE.
R153, R166: the engine finishes a weight load whose blocks are of the class's formats and meet nothing, the plane
then loaded with them, or with their plaintext; its scoreboard entries retire (R143). -/
def Obligations.MatrixWeightLoads : Prop :=
  (∀ (s : State) (cls space : BitVec 2) (sparse : Bool) (rb rc : SReg) (vm : VReg) (hint : BitVec 2),
    let s0 := s.updMe Strand.bindHere
    let c := s.me.core
    let e := (s.core c).engine
    let n := (s.me.shape.toNat / 2 ^ 40) % 2 ^ 8
    let k := (s.me.shape.toNat / 2 ^ 24) % 2 ^ 16
    let base := (s.sreg rb).toNat
    let stride := (s.sreg rc).toNat
    let g := if cls = 0#2 then 128 else if cls = 1#2 then 32 else 8
    let kept := if sparse then popBelow (maskBits (s.me.vreg vm) k) k else k
    let m0 := s.me.vstart.toNat
    let ls := ((List.range ((kept + g - 1) / g)).drop m0).flatMap fun i =>
      (List.range n).map fun j => i * stride + j
    let retires (t : State) : Prop := RetiredAt s t s.npc ∧ t.me.vstart = 0#32 ∧
      t.me.ckpt = { s.me.ckpt with valid := false } ∧ (∀ r, t.sreg r = s.sreg r) ∧
      (∀ r, t.me.vreg r = s.me.vreg r)
    let started (srcs : List WeightSource) : Prop :=
      Completes (.mldw cls space sparse rb rc vm hint) s fun t => retires t ∧
        (t.core c).engine = { e with shadow := (t.core c).engine.shadow } ∧
        (t.core c).engine.shadow.state = 1#2 ∧ (t.core c).engine.shadow.srcs = srcs ∧
        (t.core c).engine.shadow.first = n * m0 ∧
        (t.core c).engine.shadow.cask = (srcs.any (fun x => x.cask.isSome) || (e.shadow.cask && decide (0 < n * m0))) ∧
        (∀ i, i < n * m0 → lookupD (t.core c).engine.shadow.blocks i (0#512, 0#16) =
          lookupD e.shadow.blocks i (0#512, 0#16)) ∧
        (t.core c).engine.shadow.k = k ∧ (t.core c).engine.shadow.n = n ∧
        (t.core c).engine.shadow.mode = e.mode ∧ (t.core c).engine.shadow.sparse = sparse ∧
        (t.core c).engine.shadow.mask = maskBits (s.me.vreg vm) k
    let queued (srcs : List WeightSource) : Prop :=
      Completes (.mldw cls space sparse rb rc vm hint) s fun t => retires t ∧
        ∃ p : Plane, (t.core c).engine = { e with queue := e.queue ++
            [{ kind := .mldw p, pc := s.me.pc, shape := s.me.shape, mode := e.mode, sparse := e.sparse
               base := 0, addr := 0, stride := 0#64, start := 0, sbOp := p.sbOp }] } ∧
          p.state = 1#2 ∧ p.srcs = srcs ∧ p.first = n * m0 ∧ p.k = k ∧ p.n = n ∧ p.mode = e.mode ∧
          p.sparse = sparse ∧ p.mask = maskBits (s.me.vreg vm) k ∧ p.cls = cls ∧
          p.cask = srcs.any (fun x => x.cask.isSome)
    let follows (srcs : List WeightSource) : Prop :=
      (e.shadow.state ≠ 1#2 → e.swapping = false → e.queue.any MatOp.isLoad = false → started srcs) ∧
      (e.shadow.state = 1#2 ∨ e.swapping = true ∨ e.queue.any MatOp.isLoad = true → queued srcs)
    c % 64 < 36 → e.holder = some s.cur → e.release = false → s.me.mstopValid = false →
    (e.sparse = sparse → n ≤ stride → base % 64 = 0 →
      e.queue.length < 8 → s.boardRoom 1 →
      ((cls = 0#2 ∧ (e.mode = 0#2 ∨ e.mode = 1#2)) ∨ (cls = 1#2 ∧ e.mode = 1#2) ∨
        (cls = 2#2 ∧ e.mode = 2#2)) →
      (sparse = true → vm.toNat ∉ s.me.poisonV ∧ k ≤ s.me.mvl.toNat ∧ kept ≤ planeMax e.mode.toNat) →
      (space = 1#2 → (∀ l ∈ ls, ∀ j, j < 64 →
          s.spadCheck s.me.owner.toNat c false (base + 64 * l + j) = none) →
        follows (ls.map fun l => { va := BitVec.ofNat 64 (base + 64 * l)
                                   tgt := .spad c false (base + 64 * l), cask := none })) ∧
      (space = 0#2 → ∀ srcs, s0.weightPlan base ls = .ok (.read srcs) → follows srcs)) ∧
    (e.sparse = sparse → n ≤ stride →
      ((cls = 0#2 ∧ (e.mode = 0#2 ∨ e.mode = 1#2)) ∨ (cls = 1#2 ∧ e.mode = 1#2) ∨
        (cls = 2#2 ∧ e.mode = 2#2)) →
      sparse = true → vm.toNat ∈ s.me.poisonV →
      let rolls : Prop := s.me.ckpt.valid = true ∧ s.me.inHandler = false ∧ s.me.rbStrip.toNat < 4
      (rolls → Completes (.mldw cls space sparse rb rc vm hint) s fun t =>
        OnlyMe s0 t ∧ t.me = { s0.me with wait := .rollback }) ∧
      (¬ rolls → s.me.state ≠ 0#4 → s.me.ended = false → Completes (.mldw cls space sparse rb rc vm hint) s fun t =>
        t.freed s.cur s.me ∨ (t.me.state = 6#4 ∧ t.me.cause = 0x13#8 ∧ t.me.place = none))) ∧
    (e.queue.any MatOp.isLoad = true ∨ (e.swapping = false ∧ e.shadow.state = 1#2) →
      exec .mswap s = .next s0) ∧
    (e.queue.any MatOp.isLoad = false →
    (e.shadow.state = 2#2 → e.swapping = false → e.queue.length < 8 → Completes .mswap s fun t =>
      retires t ∧ ∃ id, (t.core c).engine = { e with queue := e.queue ++
        [{ kind := .mswap, pc := s.me.pc, shape := s.me.shape, mode := e.mode, sparse := e.sparse, base := 0
           addr := 0, stride := 0#64, start := m0, sbOp := id }] }) ∧
    (e.shadow.state = 3#2 → e.swapping = false → fatalCause e.shadow.cause.toNat = false → e.shadow.cause.toNat ≠ 0x13 →
      e.shadow.cause.toNat ≠ 0x16 → Completes .mswap s fun t =>
        Raises s0 t e.shadow.cause.toNat s.me.pc (s.me.mfaddr.setWidth 64)) ∧
    (e.shadow.state = 0#2 ∨ (e.shadow.state ≠ 1#2 ∧ e.swapping = true) →
      Completes .mswap s fun t => Raises s0 t 0x02 s.me.pc 0#64))) ∧
  (∀ (s : State) (c n : Nat),
     let e := (s.core c).engine
     let p := e.shadow
     e.holder = some n → e.release = false → s.boardHeld c p.sbOp = false → p.state = 1#2 →
     (∀ w ∈ p.srcs, s.quiet w.tgt ∧ (s.weightBytes n w).isSome ∧
       s.homeRefuses (s.strand n).owner.toNat weightAccess w.va w.tgt = .ok () ∧
       tagFormat (s.tagTarget w.tgt) ∈ clsCodes p.cls.toNat) →
     Completes (.mldwLoadDone c) s fun t =>
       (t.core c).engine = { e with shadow := (t.core c).engine.shadow } ∧
       (t.core c).engine.shadow = { p with state := 2#2, srcs := []
                                           blocks := (t.core c).engine.shadow.blocks } ∧
       (∀ i, i < p.first → lookupD (t.core c).engine.shadow.blocks i (0#512, 0#16) =
         lookupD p.blocks i (0#512, 0#16)) ∧
       (∀ i, (h : i < p.srcs.length) → lookupD (t.core c).engine.shadow.blocks (p.first + i) (0#512, 0#16) =
         (BitVec.ofNat 512 (natOfBytes ((s.weightBytes n p.srcs[i]).getD [])), s.tagTarget (p.srcs[i]).tgt)) ∧
       (t.core c).board = ((s.core c).board.filter fun x => x.op != p.sbOp) ∧
       t.strands = s.strands ∧ t.mem = s.mem ∧ (t.core c).spad = (s.core c).spad)

/-- R149, R157, R158, R160: `mmac`, `mld`, `mst` and `mzero` that pass their checks enter the engine's queue
with what they capture at issue (shape, mode, bases, stride, VSTART), and retire with VSTART 0; the
accumulator and memory change only when the engine completes them. `mmac` and `mld` ask for an active plane that
is loaded and agrees with SHAPE (R157, R158), and raise ILLEGAL_STATE without one. That the addresses of rows do
not wrap, and that `mld` raises first for the plane and then for its format, are the model's (log 30, log 64).
`mmac` and `mld` check formats once no older write entry of the strand meets the entry of their rows, which is a span when
the rows form no progression (R143, R144). -/
def Obligations.MatrixOperationsQueue : Prop :=
  ∀ (s : State) (zero : Bool) (fmt2 : BitVec 2) (fmt3 : BitVec 3) (ra rb rc : SReg) (hint : BitVec 2),
    let c := s.me.core
    let e := (s.core c).engine
    let shape := s.me.shape
    let m := shape.toNat / 2 ^ 48
    let n := (shape.toNat / 2 ^ 40) % 2 ^ 8
    let k := (shape.toNat / 2 ^ 24) % 2 ^ 16
    let m0 := s.me.vstart.toNat
    let blocks (stride base nb : Nat) : List Nat := (List.range (m - m0)).flatMap fun i =>
      (List.range nb).map fun j => base + (m0 + i) * stride + 64 * j
    let queued (i : Instr) (kind : MatKind) (sa base stride : Nat) : Prop :=
      Completes i s fun t => RetiredAt s t s.npc ∧ t.me.vstart = 0#32 ∧
        t.me.ckpt = { s.me.ckpt with valid := false } ∧ (∀ r, t.sreg r = s.sreg r) ∧
        t.mem = s.mem ∧ (t.core c).spad = (s.core c).spad ∧ (t.core c).stags = (s.core c).stags ∧
        ∃ id, (t.core c).engine = { e with queue := e.queue ++
          [{ kind := kind, pc := s.me.pc, shape := shape, mode := e.mode, sparse := e.sparse, base := sa
             addr := base, stride := BitVec.ofNat 64 stride, start := m0, sbOp := id }] }
    let a := (s.sreg ra).toNat
    let b := (s.sreg rb).toNat
    let d := (s.sreg rc).toNat
    let per := if e.mode = 2#2 then 2 else 1
    let may (nb : Nat) (formats : List Nat) : Prop :=
      a + m * per ≤ 2048 ∧ m0 < m ∧ b % 64 = 0 ∧ d % 64 = 0 ∧
      (∀ x ∈ blocks d b nb, (∀ j, j < 64 → s.spadCheck s.me.owner.toNat c false (x + j) = none) ∧
        (formats ≠ [] → tagFormat (s.spadTag c false x) ∈ formats)) ∧
      (formats ≠ [] → ∀ g, entryOf s.cur 0 false ((blocks d b nb).map (· / 64)) = some g → ∀ o ∈ (s.core c).board,
        o.strand = s.cur → o.write = true → ∀ j, j < g.count → o.covers (g.first + j * g.stride) = false)
    let p := e.nextActive
    let plane : Prop := p.state = 2#2 ∧ p.k = k ∧ p.n = n ∧ p.mode = e.mode ∧ p.sparse = e.sparse
    c % 64 < 36 → e.holder = some s.cur → e.release = false → s.me.mstopValid = false →
    e.queue.length < 8 → s.boardRoom 1 →
    (plane → (let acts := if e.mode = 0#2 then 64 else if e.mode = 1#2 then 32 else 8
       may ((k + acts - 1) / acts) (if e.mode = 0#2 then [1, 2] else if e.mode = 1#2 then [3] else [7])) →
      queued (.mmac zero ra rb rc hint) (.mmac zero) a b d) ∧
    (¬ plane → ∀ i ∈ [Instr.mmac zero ra rb rc hint, .mld fmt2 ra rb rc hint],
      Completes i s fun t => Raises (s.updMe Strand.bindHere) t 0x02 s.me.pc 0#64) ∧
    (let code := if fmt2 = 0#2 then 6 else if fmt2 = 1#2 then 3 else 7
     plane → (if e.mode = 2#2 then code = 6 ∨ code = 7 else code = 6 ∨ code = 3) →
      may ((n + tagElems code - 1) / tagElems code) [code] →
      queued (.mld fmt2 ra rb rc hint) (.mld fmt2) a b d) ∧
    (let code := if fmt3 = 0#3 then 1 else if fmt3 = 1#3 then 2 else if fmt3 = 2#3 then 3
       else if fmt3 = 3#3 then 6 else 7
     (fmt3 = 4#3 → e.mode = 2#2) → 64 * ((n + tagElems code - 1) / tagElems code) ≤ d →
      may ((n + tagElems code - 1) / tagElems code) [] →
      queued (.mst fmt3 ra rb rc hint) (.mst fmt3) a b d) ∧
    ((s.sreg rc).toNat ≠ 0 → (s.sreg rb).toNat + (s.sreg rc).toNat ≤ 2048 →
      queued (.mzero rb rc) (.mzero (s.sreg rc).toNat) (s.sreg rb).toNat 0 0)

/-- R159: `mrd` reads the accumulator's raw elements into a register with the tag of their width, and `mwr`
writes active elements there and leaves every other bit of it; each waits while older operations of the engine
are under way. R162: `mchk` returns the check record and clears it, and MSTOP with it; it waits for the strand's
own older operations alone.
R161: an error that meets the oldest operation at a row, no earlier row having met one, records MSTOP, MCHK's row
and the operations it discards, whose scoreboard entries go, and at its first row changes no accumulator row. -/
def Obligations.MatrixRawRowsAndCheck : Prop :=
  (∀ (s : State) (vd vc : VReg) (rd rb : SReg) (p : BitVec 2) (k : KReg) (hint : BitVec 2),
    let s0 := s.updMe Strand.bindHere
    let c := s.me.core
    let e := (s.core c).engine
    let w := 8 * 2 ^ s.me.sew.toNat
    let base := (s.sreg rb).toNat
    let raw (g : MatrixEngine) (i : Nat) : BitVec w :=
      (lookupD g.acc (base + i * w / 1024) 0#1024).extractLsb' (i * w % 1024) w
    c % 64 < 36 →
    (e.holder = some s.cur → e.release = false → 2 ≤ s.me.sew.toNat →
      128 * base + s.me.vl.toNat * w / 8 ≤ 262144 → s.me.mstopValid = false → e.queue = [] →
      e.shadow.state ≠ 1#2 →
      (s.mayVector true 0#2 → Completes (.mrd vd rb k hint) s fun t =>
        VectorResult s0.dropCheckpoint t vd w (s.active k) (raw e)
          (fun _ => if w = 32 then 0x7F06#16 else 0x7F07#16) (fun _ => 0#5) fun _ => False) ∧
      (s.mayVector true p → vc.toNat ∉ s.me.poisonV → Completes (.mwr rb vc p k hint) s fun t =>
        RetiredAt s t s.npc ∧ t.me.vstart = 0#32 ∧ t.me.ckpt = { s.me.ckpt with valid := false } ∧
        (∀ r, t.me.vreg r = s.me.vreg r) ∧ (t.core c).engine = { e with acc := (t.core c).engine.acc } ∧
        (∀ i, s.active k i → raw (t.core c).engine i = element (s.me.vreg vc) w (replica p w i)) ∧
        (∀ i, ¬ s.active k i → raw (t.core c).engine i = raw e i) ∧
        (∀ r, r < base → lookupD (t.core c).engine.acc r 0#1024 = lookupD e.acc r 0#1024))) ∧
    (e.holder = some s.cur → e.release = false → 2 ≤ s.me.sew.toNat →
      128 * base + s.me.vl.toNat * w / 8 ≤ 262144 → s.me.mstopValid = false → e.idle = false →
      s.mayVector true p → s.mayVector true 0#2 →
      exec (.mrd vd rb k hint) s = .next s0 ∧ exec (.mwr rb vc p k hint) s = .next s0) ∧
    (e.holder = some s.cur → e.idle = false → exec (.mchk rd) s = .next s0) ∧
    (e.holder ≠ some s.cur ∨ (e.queue = [] ∧ e.shadow.state ≠ 1#2) →
      Completes (.mchk rd) s fun t => OnlyMe s0 t ∧ RetiredAt s t s.npc ∧
        (∀ r, t.sreg r = if r = 0#5 then 0#64 else if r = rd then
          BitVec.ofNat 64 ((if s.me.mstopValid then 2 ^ 63 else 0) + s.me.mchkRow.toNat * 2 ^ 48 +
            s.me.mchkLost.toNat * 2 ^ 40 + s.me.mchkFail.toNat * 2 ^ 16 + s.me.mchkCount.toNat)
          else s.sreg r) ∧
        t.me.mstopValid = false ∧ t.me.mchkLost = 0#8 ∧ t.me.mchkCount = 0#16 ∧
        t.me.ckpt = s.me.ckpt)) ∧
  (∀ (s : State) (c n : Nat) (op : MatOp) (rest : List MatOp),
     let e := (s.core c).engine
     let acts := actElems op.mode.toNat
     let nb := match op.kind with
       | .mmac _ => (shapeK op.shape + acts - 1) / acts
       | .mld fmt => (shapeN op.shape + tagElems (mldCode fmt) - 1) / tagElems (mldCode fmt)
       | .mldw _ | .mzero _ | .mst _ | .mswap => 0
     let clear (m : Nat) : Prop := m ∉ e.upset ∧
       ((∃ count, op.kind = .mzero count) ∨ s.latchRefuses (s.strand n).owner.toNat (dieOfCore c) = false) ∧
       ∀ j, j < nb → (op.addr + m * op.stride.toNat) / 64 + j ∉ (s.core c).poison
     let left := (s.core c).board.filter fun x => !((op :: rest).map (·.sbOp)).contains x.op
     e.holder = some n → e.queue = op :: rest → e.release = false → s.boardHeld c op.sbOp = false →
     (∀ r, op.start ≤ r → r < op.rows → (∀ m, op.start ≤ m → m < r → clear m) →
       Completes (.matrixErrorStop c r) s fun t =>
         (t.core c).engine.queue = [] ∧ (t.core c).board = left ∧ (t.strand n).mstopValid = true ∧
         (t.strand n).mstopAddr = op.pc.setWidth 57 ∧ (t.strand n).mchkRow = BitVec.ofNat 11 r ∧
         (t.strand n).mchkLost = satAdd (s.strand n).mchkLost rest.length ∧ t.mem = s.mem) ∧
     (op.start < op.rows → Completes (.matrixErrorStop c op.start) s fun t =>
       t.core c = { s.core c with board := left, engine := { e with
         queue := [], upset := if (∃ zero, op.kind = .mmac zero) then [] else e.upset } } ∧
       OnlyStrand s { t with cores := s.cores } n ∧
       t.strand n = { s.strand n with
         mstopValid := true, mstopAddr := op.pc.setWidth 57, mchkRow := BitVec.ofNat 11 op.start
         mchkLost := satAdd (s.strand n).mchkLost rest.length } ∧
       ∀ k, k ≠ c → t.core k = s.core k))

/-- R149, R126, R156 to R158, R160, R163: when the engine completes the oldest operation, an `mswap` exchanges
the planes, an `mzero` leaves its rows from VSTART on zero, an `mld` loads them rounded to the accumulator's
format, an `mst` stores each of its rows as blocks of its format, with their tags, at the row's address in the
scratchpad, sets bit m of k15 for a row m that saturates, and changes no accumulator row, no other byte and no
flag, and an `mmac` leaves each accumulator element the sum taken step by step in ascending K, each step rounded
once; every other accumulator row is as before, the queue is one shorter, and the operation's scoreboard entries
retire (R143). That holds where no older entry conflicts with them (R144) and no row meets an error. R153: a weight load that waited
starts, once the shadow plane is not loading. R265: the rows of a strand whose die is latched to another world are
neither read nor written; that the operation then stops at its first row as R161 says is the model's choice (log 83).
The engine reads a block's tag again when it reads the row, and the addresses of rows do not wrap: the second is the
model's (log 30). -/
def Obligations.MatrixOperationsComplete : Prop :=
  ∀ (s : State) (c n : Nat) (op : MatOp) (rest : List MatOp),
     let e := (s.core c).engine
     e.holder = some n → e.queue = op :: rest → s.boardHeld c op.sbOp = false → e.release = false →
     let left := (s.core c).board.filter fun x => x.op != op.sbOp
     let clear (nb : Nat) : Prop := ∀ r, op.start ≤ r → r < shapeM op.shape → ∀ j, j < nb →
       (op.addr + r * op.stride.toNat) / 64 + j ∉ (s.core c).poison
     let i : Instr := .matrixOpComplete c
     let row (g : MatrixEngine) (r : Nat) : BitVec 1024 := lookupD g.acc r 0#1024
     let latched : Prop := s.latchRefuses (s.strand n).owner.toNat (dieOfCore c) = true
     let frame (t : State) (upset : List Nat) : Prop :=
       t.core c = { s.core c with
         engine := { e with queue := rest, acc := (t.core c).engine.acc, upset := upset }, board := left } ∧
       { t with cores := s.cores } = s ∧ ∀ j, j ≠ c → t.core j = s.core j
     (latched → op.start < shapeM op.shape →
       (∃ f, op.kind = .mld f) ∨ (∃ f, op.kind = .mst f) ∨ (∃ z, op.kind = .mmac z) →
       Completes i s fun t => OnlyStrand s { t with cores := s.cores } n ∧
         t.core c = { s.core c with
           engine := { e with queue := [], upset := if (∃ z, op.kind = .mmac z) then [] else e.upset }
           board := (s.core c).board.filter fun x => !(e.queue.map (·.sbOp)).contains x.op } ∧
         t.strand n = { s.strand n with
           mstopValid := true, mstopAddr := op.pc.setWidth 57, mchkRow := BitVec.ofNat 11 op.start
           mchkLost := satAdd (s.strand n).mchkLost rest.length } ∧
         ∀ j, j ≠ c → t.core j = s.core j) ∧
     (∀ count, op.kind = .mzero count → Completes i s fun t => frame t e.upset ∧
       ∀ r, row (t.core c).engine r =
         if op.base + op.start ≤ r ∧ r < op.base + count then 0#1024 else row e r) ∧
     (∀ fmt, op.kind = .mld fmt →
       let mode := op.mode.toNat
       let m := shapeM op.shape
       let f := accFmt mode
       let per := if mode = 2 then 2 else 1
       let code := mldCode fmt
       let g := tagElems code
       let value (r j : Nat) : FVal := (s.decodeBlocks c [code] g (op.addr + r * op.stride.toNat)
         ((shapeN op.shape + g - 1) / g)).getD j (.nan false)
       ¬ latched → mode < 3 → shapeN op.shape ≤ 32 → clear ((shapeN op.shape + g - 1) / g) →
       Completes i s fun t => frame t e.upset ∧
         (∀ r j, op.start ≤ r → r < m → j < shapeN op.shape →
           (t.core c).engine.accBits mode op.base r j = (f.roundTo rne (value r j)).1 % 2 ^ f.bits) ∧
         (∀ r, (r < op.base + per * op.start ∨ op.base + per * m ≤ r) →
           row (t.core c).engine r = row e r)) ∧
     (∀ fmt, op.kind = .mst fmt →
       let m := shapeM op.shape
       let code := mstCode fmt
       let g := tagElems code
       let nb := (shapeN op.shape + g - 1) / g
       let stride := op.stride.toNat
       let pack (r b : Nat) : Packed := packBlock code rne ((((List.range (shapeN op.shape)).map fun j =>
         (accFmt op.mode.toNat).decode (e.accBits op.mode.toNat op.base r j)).drop (b * g)).take g)
       let stored (r b : Nat) : Prop := op.start ≤ r ∧ r < m ∧ b < nb
       ¬ latched → op.addr % 64 = 0 → stride % 64 = 0 → 64 * nb ≤ stride → Completes i s fun t =>
         t.core c = { s.core c with
           engine := { e with queue := rest }, board := left
           spad := (t.core c).spad, stags := (t.core c).stags, poison := (t.core c).poison } ∧
         (∀ x, x ∈ (t.core c).poison ↔ x ∈ (s.core c).poison ∧
           ∀ r b, stored r b → (op.addr + r * stride + 64 * b) / 64 ≠ x) ∧
         (∀ r b, stored r b → ∀ j, j < 64 →
           readByte (t.core c).spad (op.addr + r * stride + 64 * b + j) = (pack r b).block.extractLsb' (8 * j) 8) ∧
         (∀ r b, stored r b → t.spadTag c false (op.addr + r * stride + 64 * b) = (pack r b).tag) ∧
         (∀ a, (∀ r b, stored r b → (op.addr + r * stride + 64 * b) / 64 ≠ a / 64) →
           readByte (t.core c).spad a = readByte (s.core c).spad a ∧ t.spadTag c false a = s.spadTag c false a) ∧
         t.strand n = { s.strand n with vec := { (s.strand n).vec with k := (t.strand n).vec.k } } ∧
         (∀ j, j ≠ 15 → (t.strand n).kreg j = (s.strand n).kreg j) ∧
         (∀ j, j < 2048 → (((t.strand n).kreg 15).getLsbD j = true ↔
           ((s.strand n).kreg 15).getLsbD j = true ∨ ∃ b, stored j b ∧ (pack j b).sat ≠ [])) ∧
         OnlyStrand s { t with cores := s.cores } n ∧ ∀ j, j ≠ c → t.core j = s.core j) ∧
     (∀ p, op.kind = .mldw p →
       (e.shadow.state = 1#2 → exec i s = .next s) ∧
       (e.shadow.state ≠ 1#2 → Completes i s fun t => ∃ sh : Plane,
         (t.core c).engine = { e with queue := rest, shadow := sh } ∧
         sh = { p with blocks := sh.blocks, cask := p.cask || (e.shadow.cask && decide (0 < p.first)) } ∧
         (∀ j, lookupD sh.blocks j (0#512, 0#16) =
           if j < p.first then lookupD e.shadow.blocks j (0#512, 0#16) else (0#512, 0#16)) ∧
         { t with cores := s.cores } = s ∧ ∀ j, j ≠ c → t.core j = s.core j)) ∧
     (op.kind = .mswap → Completes i s fun t =>
       t.core c = { s.core c with board := left, engine := { e with
         queue := rest, active := e.shadow, shadow := { e.active with state := 0#2 } } } ∧
       { t with cores := s.cores } = s ∧ ∀ j, j ≠ c → t.core j = s.core j) ∧
     (∀ zero, op.kind = .mmac zero →
       let mode := op.mode.toNat
       let m := shapeM op.shape
       let k := shapeK op.shape
       let f := accFmt mode
       let per := if mode = 2 then 2 else 1
       let len := stepLen mode op.sparse
       let a := actElems mode
       let act (r x : Nat) : FVal := (s.decodeBlocks c (actCodes mode) a (op.addr + r * op.stride.toNat)
         ((k + a - 1) / a)).getD x (.nan false)
       ¬ latched → mode < 3 → shapeN op.shape ≤ 32 → clear ((k + a - 1) / a) →
       (∀ r, op.start ≤ r → r < m → r ∉ e.upset) → Completes i s fun t => frame t [] ∧
         (∀ r j, op.start ≤ r → r < m → j < shapeN op.shape →
           (t.core c).engine.accBits mode op.base r j =
             stepSums f len (fun x => (e.active.weight x j).map fun w => (fvMul w (act r x)).1) k
               ((k + len - 1) / len) 0 (if zero then 0 else e.accBits mode op.base r j) % 2 ^ f.bits) ∧
         (∀ r, (r < op.base + per * op.start ∨ op.base + per * m ≤ r) →
           row (t.core c).engine r = row e r))

/-! Copies, collectives and remote reductions. -/

/-- R136, R138, R140, R142: `cpy` and `cpyd` that pass their checks take their two tags and enter the copy
engine with the rows, strides and addresses of their operands; a copy of no bytes completes both tags at
once with status 0. No byte of memory changes at issue.
R240, R243: `coll` of a well-formed group the strand takes part in, with a sequence above its last one,
and `rred` of active elements, take their tags and enter their engines; `rred` with no active element
completes its tag at once. Both are releases of no byte: memory is as before. -/
def Obligations.CopiesCollectivesAndReductionsStart : Prop :=
  (∀ (s : State) (width : BitVec 2) (fields scope : BitVec 3) (dsp ssp : BitVec 2) (ra rb rc : SReg)
     (rtag atag : BitVec 6),
     let q := (s.sreg ra).toNat
     let z := s.sreg (ra + 1#5)
     let n := q / 2 ^ 24 % 2 ^ 24
     let args (split : Option (Nat × Nat)) : CopyArgs :=
       { rows := q / 2 ^ 48, rb := n, dst := s.sreg rb, src := s.sreg rc
         dstr := BitVec.ofInt 64 (z.extractLsb' 32 32).toInt
         sstr := BitVec.ofInt 64 (z.extractLsb' 0 32).toInt
         dspace := dsp, sspace := ssp, split := split }
     let frame (t : State) : Prop := RetiredAt s t s.npc ∧ (∀ r, t.sreg r = s.sreg r) ∧
       (∀ i, i ≠ rtag.toNat → i ≠ atag.toNat → t.me.tags.getLsbD i = s.me.tags.getLsbD i) ∧
       t.me.settled = { s.me.settled with
         tags := t.me.tags, tstat := t.me.tstat, bound := t.me.bound } ∧
       (∀ k, k ≠ s.cur → t.strand k = s.strand k) ∧
       t.mem = s.mem ∧ t.mtags = s.mtags ∧ (∀ c, (t.core c).spad = (s.core c).spad)
     q % 2 ^ 24 = 0 → rtag ≠ atag → s.me.tags.getLsbD rtag.toNat = true →
     s.me.tags.getLsbD atag.toNat = true → s.boardRoom 2 →
     ∀ i split,
       (i = .cpy scope dsp ssp ra rb rc rtag atag ∧ split = none) ∨
       (i = .cpyd width fields scope dsp ssp ra rb rc rtag atag ∧
         split = some (fields.toNat + 1, 2 ^ width.toNat) ∧
         n % ((fields.toNat + 1) * 2 ^ width.toNat) = 0) →
       (∀ p ∈ (args split).pairs,
         (dsp ≠ 0#2 → s.spadCheck s.me.owner.toNat s.me.core (dsp == 2#2) p.1.toNat = none) ∧
         (ssp ≠ 0#2 → s.spadCheck s.me.owner.toNat s.me.core (ssp == 2#2) p.2.toNat = none)) →
       (q / 2 ^ 48 = 0 ∨ n = 0 → Completes i s fun t => frame t ∧ t.me.tags = s.me.tags ∧
         t.me.tstat.toList.getD rtag.toNat 0#9 = 0#9 ∧ t.me.tstat.toList.getD atag.toNat 0#9 = 0#9) ∧
       (q / 2 ^ 48 ≠ 0 → n ≠ 0 → Completes i s fun t => frame t ∧
         t.me.tags.getLsbD rtag.toNat = false ∧ t.me.tags.getLsbD atag.toNat = false ∧
         ∃ o, t.findOp s.nextId = some o ∧ o.kind = .copy (args split) ∧ o.strand = s.cur ∧
           o.tenant = s.me.owner.toNat ∧ o.core = s.me.core ∧ o.scope = scope ∧ o.rtag = rtag ∧
           o.atag = atag ∧ o.released = false ∧ o.buffer = [])) ∧
  (∀ (s : State) (op scope : BitVec 3) (fmt : BitVec 4) (fmt2 dsp ssp p hint : BitVec 2)
     (ra rb rc rd : SReg) (vc : VReg) (rtag atag : BitVec 6) (k : KReg),
     let q := (s.sreg ra).toNat
     let gd := s.sreg (ra + 1#5)
     let done (t : State) : Prop := RetiredAt s t s.npc ∧ (∀ r, t.sreg r = s.sreg r) ∧
       (∀ r, t.me.vreg r = s.me.vreg r) ∧ t.me.ckpt = { s.me.ckpt with valid := false } ∧
       t.mem = s.mem ∧ t.mtags = s.mtags ∧ (∀ n, n ≠ s.cur → t.strand n = s.strand n) ∧
       t.me.settled = { s.me.settled with
         tags := t.me.tags, tstat := t.me.tstat, ckpt := t.me.ckpt, bound := t.me.bound
         lastColl := t.me.lastColl }
     (∀ head body : List Byte,
       let s0 := s.bindEnds dsp ssp
       let d := head ++ body
       let key := descWord d 0
       let kind : EngineKind := .coll key (BitVec.ofNat 32 (q / 2 ^ 32)) op.toNat fmt.toNat (q % 2 ^ 32)
         (s.sreg rb) (s.sreg rc) dsp ssp d
       let w := collWidth fmt.toNat
       1 ≤ q % 2 ^ 32 → q % 2 ^ 32 ≤ 2 ^ 20 → gd.toNat % 64 = 0 →
       s0.readWords gd 8 = .ok (head, s0) →
       s0.readWords (gd + 64#64) (2 * ((descWord head 8).toNat % 512)) = .ok (body, s0) →
       descriptorOk d = true → (∃ m ∈ membersOf d, s.participates s.cur m = true) →
       (hasKey s.me.lastColl key.toNat = true →
         (lookupD s.me.lastColl key.toNat 0#32).toNat < q / 2 ^ 32) →
       (s.sreg rb).toNat % w = 0 → (s.sreg rc).toNat % w = 0 → rtag ≠ atag →
       s.me.tags.getLsbD rtag.toNat = true → s.me.tags.getLsbD atag.toNat = true →
       (∀ x ∈ kind.args.pairs,
         (dsp ≠ 0#2 → s.spadCheck s.me.owner.toNat s.me.core (dsp == 2#2) x.1.toNat = none) ∧
         (ssp ≠ 0#2 → s.spadCheck s.me.owner.toNat s.me.core (ssp == 2#2) x.2.toNat = none)) →
       s.boardRoom 2 → s0.groupEnded key.toNat (membersOf d) = false →
       Completes (.coll op fmt scope dsp ssp ra rb rc rtag atag) s fun t => done t ∧
         t.me.tags.getLsbD rtag.toNat = false ∧ t.me.tags.getLsbD atag.toNat = false ∧
         lookupD t.me.lastColl key.toNat 0#32 = BitVec.ofNat 32 (q / 2 ^ 32) ∧
         ∃ o, t.findOp s.nextId = some o ∧ o.kind = kind ∧ o.strand = s.cur ∧ o.rtag = rtag ∧
           o.atag = atag ∧ o.released = false) ∧
     (let w := if fmt2 = 0#2 ∨ fmt2 = 3#2 then 32 else 16
      let scale := (s.sreg rd).toInt
      s.me.vstart = 0#32 → (p = 3#2 → s.me.mvl ≠ 256#16) → 8 * 2 ^ s.me.sew.toNat = w →
      -64 ≤ scale → scale ≤ 63 → (fmt2 = 3#2 → scale = 0) → (s.sreg rb).toNat % (w / 8) = 0 →
      s.me.tags.getLsbD atag.toNat = true → vc.toNat ∉ s.me.poisonV →
      let i : Instr := .rred fmt2 scope rb vc rd atag p k hint
      (s.actives k = [] → Completes i s fun t => done t ∧ t.me.tags = s.me.tags ∧
        t.me.tstat.toList.getD atag.toNat 0#9 = 0#9) ∧
      (s.actives k ≠ [] → Completes i s fun t => done t ∧ t.me.tags.getLsbD atag.toNat = false ∧
        ∃ o, t.findOp s.nextId = some o ∧ o.strand = s.cur ∧ o.atag = atag ∧
          o.kind = .rred fmt2 (s.sreg rb) scale ((s.actives k).map fun e =>
            (e, ((element (s.me.vreg vc) w (replica p w e) : BitVec w)).setWidth 32)))))

/-! The engines' own events. -/

/-- R136, R139, R142, R241 to R243, R279: an engine that meets nothing in its way reads a copy's source and
completes the release tag, writes its destination and completes the arrival tag, adds an element of an
`rred` in memory, delivers a collective's result, loses a lost sequence with PEER_LOST, and hashes an
absorb into its open record. The model's choices: a source is read whole at the release event, and the
destination takes those bytes at the arrival event (log 32, DEDUCED, unsafe); a result is kept for participants
that contribute late (log 33). -/
def Obligations.EngineEvents : Prop :=
  ∀ (s : State) (id : Nat) (o : EngineOp),
    let w := s.strand o.strand
    let tag (t : State) (i status : Nat) : Prop := (t.strand o.strand).tags.getLsbD i = true ∧
      (t.strand o.strand).tstat.toList.getD i 0#9 = BitVec.ofNat 9 status
    let free : Prop := s.opPaused id o = false ∧ o.ended = 0#8 ∧ o.denied = [] ∧ o.status = 0#8 ∧
      s.boardHeldFor o.core o.sbOp false = false ∧ s.boardHeldFor o.core o.sbOp true = false ∧
      s.opInChain id = false ∧ w.ended = false ∧
      hasKey s.strands o.strand = true
    s.findOp id = some o → free →
    (∀ (a : CopyArgs) (lead : Word → Target), o.kind = .copy a → o.released = false →
      (∀ p ∈ a.pairs, s.quiet (lead p.2) ∧ s.poisonedAt (some (dieOfCore o.core)) (lead p.2) 1 = false ∧
        s.endFate o a.sspace (engineAccess true false 1) p.2 = .go (lead p.2) ∧
        ∃ x, s.endFate o a.dspace (engineAccess false true 1) p.1 = .go x ∧ ∀ pa key, x ≠ .hbm pa key true) →
      Completes (.copyReleaseComplete id) s fun t => tag t o.rtag.toNat 0 ∧ t.mem = s.mem ∧
        (∀ c, (t.core c).spad = (s.core c).spad) ∧ ∃ u, t.findOp id = some u ∧ u.released = true ∧
          u.kind = o.kind ∧ u.buffer = a.pairs.map fun p => (s.readTarget (lead p.2) 1).headD 0#8) ∧
    (∀ (a : CopyArgs), o.kind = .copy a → o.released = true → o.written = false → o.buffer ≠ [] →
      o.buffer.length = a.pairs.length →
      (a.dspace = 1#2 → (a.pairs.map fun p => p.1.toNat).Nodup →
        (∀ p ∈ a.pairs, s.endFate o 1#2 (engineAccess false true 1) p.1 = .go (.spad o.core false p.1.toNat)) →
        Completes (.copyArrivalComplete id) s fun t => tag t o.atag.toNat 0 ∧ t.findOp id = none ∧
          t.mem = s.mem ∧
          (∀ i, (h : i < a.pairs.length) →
            readByte (t.core o.core).spad (a.pairs[i]).1.toNat = o.buffer.getD i 0#8) ∧
          ∀ x, (∀ p ∈ a.pairs, p.1.toNat ≠ x) →
            readByte (t.core o.core).spad x = readByte (s.core o.core).spad x) ∧
      (∀ (pa : Nat → Nat) (key : Nat), a.dspace = 0#2 → ((List.range a.pairs.length).map pa).Nodup →
        (∀ i, (h : i < a.pairs.length) →
          s.endFate o 0#2 (engineAccess false true 1) (a.pairs[i]).1 = .go (.hbm (pa i) key false)) →
        Completes (.copyArrivalComplete id) s fun t => tag t o.atag.toNat 0 ∧ t.findOp id = none ∧
          (∀ c, (t.core c).spad = (s.core c).spad) ∧
          (∀ i, i < a.pairs.length → t.hbmByte key (pa i) = o.buffer.getD i 0#8) ∧
          ∀ x, (∀ i, i < a.pairs.length → pa i ≠ x) → t.hbmByte key x = s.hbmByte key x)) ∧
    (∀ (fmt : BitVec 2) (dst : Word) (scale : Int) (es : Table (BitVec 32)) (e pa key : Nat),
      o.kind = .rred fmt dst scale es → hasKey es e = true →
      let v := lookupD es e 0#32
      let n := if fmt = 0#2 ∨ fmt = 3#2 then 4 else 2
      s.endFate o 0#2 (engineAccess true true n) (dst + BitVec.ofNat 64 (e * n)) =
        .go (.hbm pa key false) →
      s.poisonedAt (some (dieOfCore o.core)) (.hbm pa key false) n = false →
      (∀ i ∈ es, s.meetsControl o.tenant (dst + BitVec.ofNat 64 (i.1 * n)) = false) →
      let old := natOfBytes (s.hbmRead key pa n)
      let stored (t : State) : Prop := HbmStored s t key pa (bytesOf n
        (if fmt = 3#2 then (old + v.toNat) % 2 ^ 32 else rredNew fmt scale old v.toNat))
      (removeAt es e = [] → Completes (.rredElementAdd id e) s fun t => stored t ∧
        tag t o.rtag.toNat 0 ∧ tag t o.atag.toNat 0 ∧ t.findOp id = none) ∧
      (removeAt es e ≠ [] → Completes (.rredElementAdd id e) s fun t => stored t ∧
        ∃ u, t.findOp id = some u ∧ u.kind = .rred fmt dst scale (removeAt es e) ∧ u.status = 0#8)) ∧
    (∀ (m : Nat) (src : Word) (n : Nat) (lead : Word → Target), o.kind = .absorb m src n →
      (s.seal m).state = 1#3 → (∀ e ∈ s.ops, e.1 < id → ∀ x y, e.2.kind ≠ .absorb m x y) →
      (∀ p ∈ o.kind.args.pairs, s.quiet (lead p.2) ∧
        s.poisonedAt (some (dieOfCore o.core)) (lead p.2) 1 = false ∧
        s.endFate o 0#2 (engineAccess true false 1) p.2 = .go (lead p.2)) →
      Completes (.sealAbsorbComplete id) s fun t => tag t o.atag.toNat 0 ∧ t.findOp id = none ∧
        t.mem = s.mem ∧ t.seal m = { s.seal m with bytes := (s.seal m).bytes ++
          (o.kind.args.pairs.map fun p => (s.readTarget (lead p.2) 1).headD 0#8) }) ∧
    (∀ (key : Word) (seq : BitVec 32) (c : Contribution) (r : List Contribution),
      let g := s.group key.toNat
      g.contribs.filter (fun x => x.seq == seq) = c :: r → seq ∉ g.lostSeqs →
      (∀ x ∈ g.results, x.1 ≠ seq) → participantsOf c.digest ≤ r.length + 1 →
      (∀ x ∈ r, x.op = c.op ∧ x.fmt = c.fmt ∧ x.count = c.count ∧ x.digest = c.digest) →
      Completes (.collResultDeliver key seq) s fun t =>
        (t.group key.toNat).results = g.results ++ [(seq, 0#8, [])] ∧
        (∀ x ∈ (t.group key.toNat).contribs, x.seq ≠ seq) ∧ t.strands = s.strands ∧ t.mem = s.mem ∧
        (o.released = true → (∃ fm cn ds sr dp sp dg op, o.kind = .coll key seq op fm cn ds sr dp sp dg) →
          ∃ u, t.findOp id = some u ∧
            u.buffer = collResult c.op c.fmt c.count (c :: r) ∧
            (c.op = 0 → c.fmt = 4 → ∀ j, j < c.count →
              natOfBytes ((u.buffer.drop (4 * j)).take 4) =
                ((c :: r).map fun x => natOfBytes ((x.bytes.drop (4 * j)).take 4)).sum % 2 ^ 32))) ∧
    (∀ key : Word, Completes (.collGroupLost key) s fun t => t.mem = s.mem ∧
      ∀ seq ∈ (s.group key.toNat).lostSeqs, (∀ p ∈ s.collOps key seq, t.findOp p.1 = none) ∧
        ∀ x ∈ (t.group key.toNat).contribs, x.seq ≠ seq) ∧
    (∀ (key : Word) (seq : BitVec 32), (s.group key.toNat).lostSeqs = [seq] →
      s.collOps key seq = [(id, o)] → Completes (.collGroupLost key) s fun t =>
        tag t o.rtag.toNat 0x41 ∧ tag t o.atag.toNat 0x41 ∧ t.findOp id = none ∧ t.mem = s.mem ∧
        ∀ x ∈ (t.group key.toNat).contribs, x.seq ≠ seq)

/-! Control stores by the host or a strand. -/

/-- R66, R67, R31, R80, R60, R258: the CTL actions on another strand. STOP takes a running strand to state 2, and
one that awaits verdicts to state 3 with its replay owed, and
completes once its vine writes are accepted; RESUME and STEP take a stopped strand whose registers are legal to
state 1; KILL ends a strand in state 7 with CANCELLED, its vector state gone, and its launch counts it when the
KILL completes: its engine operations over and its vine writes accepted. R67, R178: a STOP or KILL that finds the
strand stopped or ended leaves it so, and waits for the same. A strand that makes a control store
has no valid checkpoint after it, and waits for an action that is not over; else its next region opens. The
model's choices: a refused STEP by a strand changes nothing else (log 41, DEDUCED); how the launch and its graph
follow the count (log 27, DEDUCED). -/
def Obligations.StrandControlActions : Prop :=
  ∀ (s : State) (who : Agent) (n : Nat), n < 65536 → agentOf who ≠ some n →
    let x := s.strand n
    let may (v : Word) : Prop := s.admits who (strandPage n) v
    let stopped : Prop := x.state = 3#4 ∨ x.state = 4#4
    let gives (i : Instr) (y : Strand) : Prop :=
      exec i s = .next ((s.setStrand n y).storedFor who (strandPage n))
    (may 1#64 → x.state = 1#4 → gives (.strandStop who n) { x with state := 2#4, cause := 0#8 }) ∧
    (may 1#64 → x.state = 8#4 → gives (.strandStop who n)
      { x with state := 3#4, cause := 0#8, owed := true, place := none, cls := x.prio, wait := .stopping }) ∧
    (may 1#64 → stopped ∨ x.ended = true → x.wait = .none →
      (s.vineOpen n = true → gives (.strandStop who n) { x with wait := .stopping }) ∧
      (s.vineOpen n = false → exec (.strandStop who n) s = .next (s.storedFor who (strandPage n)))) ∧
    (x.state = 2#4 → x.wait.holdsStop = false → s.vineOpen n = false →
      exec (.strandStopComplete n) s = .next (s.setStrand n { x with
        state := 3#4, cause := 0#8, place := none, cls := x.prio
        wait := if x.wait = .stopping then .none else x.wait })) ∧
    (x.state ≠ 2#4 → x.wait = .stopping → s.vineOpen n = false →
      exec (.strandStopComplete n) s = .next (s.setStrand n { x with wait := .none })) ∧
    (s.vineOpen n = true → exec (.strandStopComplete n) s = .next s) ∧
    (may 2#64 → stopped → s.resumable n = true → x.owed = false →
      gives (.strandResume who n) { x with state := 1#4, cause := 0#8, resumed := true }) ∧
    (may 3#64 → stopped → s.resumable n = true → x.owed = false →
      gives (.strandStep who n) { x with state := 1#4, cause := 0#8, stepping := true, resumed := true }) ∧
    (may 3#64 → ¬ stopped → exec (.strandStep who n) s =
      .next (if who = .host then { s with hosterr := s.hosterr + 1#32 } else s)) ∧
    (may 4#64 → x.state ≠ 0#4 → x.ended = false → Stores (.strandKill who n) s who (strandPage n) fun t =>
      (t.strand n).state = 7#4 ∧ (t.strand n).cause = 0x18#8 ∧ (t.strand n).place = none ∧
      (t.strand n).vec = VecState.zero ∧ (t.strand n).pc = x.pc ∧ (t.strand n).s = x.s ∧
      (t.strand n).killing = true ∧ (t.strand n).counted = 0x18#8 ∧
      (∀ k, k ≠ n → t.strand k = s.strand k) ∧ t.mem = s.mem ∧ ∀ a k, t.record a k = s.record a k) ∧
    (may 4#64 → x.ended = true →
      ((∃ e ∈ s.ops, e.2.strand = n) ∨ s.vineOpen n = true →
        gives (.strandKill who n) { x with killing := true }) ∧
      ((∀ e ∈ s.ops, e.2.strand ≠ n) → s.vineOpen n = false →
        exec (.strandKill who n) s = .next (s.storedFor who (strandPage n)))) ∧
    (x.killing = true → (∃ e ∈ s.ops, e.2.strand = n) ∨ s.vineOpen n = true →
      exec (.strandKillComplete n) s = .next s) ∧
    (x.killing = true → (∀ e ∈ s.ops, e.2.strand ≠ n) → s.vineOpen n = false →
      let done : State := s.setStrand n { x with killing := false, counted := 0#8 }
      (s.findRecord x.owner.toNat x.launch = none → exec (.strandKillComplete n) s = .next done) ∧
      (∀ r, s.findRecord x.owner.toNat x.launch = some r → x.state = 7#4 → r.state = 1#3 → r.parent = none →
        r.completed.toNat + r.failed.toNat + 1 < r.target.toNat →
        Completes (.strandKillComplete n) s fun t => { t with tenants := s.tenants } = done ∧
          t.record x.owner.toNat (recordKey x.launch) = { r with
            failed := r.failed + 1#32, cause := if r.cause = 0#8 then x.counted else r.cause } ∧
          ∀ a k, ¬ (a = x.owner.toNat ∧ k = recordKey x.launch) → t.record a k = s.record a k)) ∧
    (∀ (t : State) (m pa : Nat), who = .strand m → (t.strand m).ended = false → (t.strand m).state ≠ 0#4 →
      let u := t.storedFor who pa
      let waits : Bool := t.actPending pa && !onOwnPage m pa
      (u.strand m).ckpt = { (t.strand m).ckpt with valid := false } ∧
      (u.strand m).wait = (if waits then .act pa else (t.strand m).wait) ∧
      (u.strand m).region = (if waits then (t.strand m).region else t.nextRegion + 1) ∧
      (∀ k, k ≠ m → u.strand k = t.strand k) ∧
      { u with strands := t.strands, nextRegion := t.nextRegion, races := t.races } = t)

/-- R54 to R56, R62, R69, R77, R228, R245, R290 to R293: control stores. A stopped strand's scalar register takes
the word (`s0` none of it); PWRLIM, MODES, a WIN word, an island's CEILING and 16 frame kinds take a legal word,
but not a chain's replica frames; an
island that a limit slows stays slowed under a new CEILING, and runs at its CEILING with F6 in host-assisted
mode; in hardware mode it is not raised while a limit of R292 would slow it; a store to a word that the page gives no
store, or at an odd address, is refused and counted for the
host. The model's choices: a refused store by a strand changes nothing else (log 41, DEDUCED); what a CEILING
store does to an island that a limit slows, or that is off while one would slow it (log 47, DEDUCED). -/
def Obligations.ControlStores : Prop :=
  ∀ (s : State) (who : Agent) (v : Word),
    let refused (i : Instr) : Prop :=
      exec i s = .next (if who = .host then { s with hosterr := s.hosterr + 1#32 } else s)
    (∀ n r, n < 65536 → r < 32 → agentOf who ≠ some n →
      (s.strand n).state = 3#4 ∨ (s.strand n).state = 4#4 →
      s.admits who (strandPage n + 0x100 + 8 * r) v →
      Stores (.controlFieldStore who (strandPage n + 0x100 + 8 * r) v) s who (strandPage n + 0x100 + 8 * r)
        fun t => OnlyStrand s t n ∧
        t.strand n = { s.strand n with s := (t.strand n).s } ∧
        ∀ k : SReg, (t.strand n).sreg k =
          if k = 0#5 then 0#64 else if k.toNat = r then v else (s.strand n).sreg k) ∧
    (s.admits who (hubPage + 0x4008) v → 600 ≤ v.toNat → v.toNat ≤ 2200 →
      exec (.controlFieldStore who (hubPage + 0x4008) v) s =
        .next (({ s with pwrlim := v.setWidth 12 } : State).storedFor who (hubPage + 0x4008))) ∧
    (∀ k, k < 256 → s.admits who (tenantPage k + 8) v → refused (.controlFieldStore who (tenantPage k + 8) v)) ∧
    (∀ pa, pa % 8 ≠ 0 → s.admits who pa v → refused (.controlFieldStore who pa v)) ∧
    (∀ pa, controlBase ≤ pa → pa < kindTableEnd → pa % 8 = 0 → s.admits who pa v →
      let f0 := 2 * (pa - controlBase)
      let old (i : Nat) : BitVec 4 := lookupD s.frames (f0 + i) 0#4
      let new (i : Nat) : BitVec 4 := v.extractLsb' (4 * i) 4
      let legal (i : Nat) : Prop := old i = new i ∨ (s.replicaFrame ((f0 + i) * 65536) = false ∧
        ((old i = 0#4 ∧ new i ∈ [1#4, 2#4, 3#4]) ∨
          (old i ∈ [1#4, 2#4] ∧ new i ∈ [0#4, 1#4, 2#4])))
      ((∀ i, i < 16 → legal i) → Stores (.frameKindStore who pa v) s who pa fun t =>
        { t with frames := s.frames } = s ∧ (∀ i, i < 16 → lookupD t.frames (f0 + i) 0#4 = new i) ∧
        ∀ f, f < f0 ∨ f0 + 16 ≤ f → lookupD t.frames f 0#4 = lookupD s.frames f 0#4) ∧
      ((∃ i, i < 16 ∧ ¬ legal i) → refused (.frameKindStore who pa v))) ∧
    (s.admits who (hubPage + 0x2000) v →
      let byte (f : Nat) : BitVec 8 := v.extractLsb' (8 * f) 8
      ((∀ f, f < 8 → (byte f).toNat ≤ 1) → byte 0 = 0#8 →
        Stores (.modesStore who v) s who (hubPage + 0x2000) fun t =>
        { t with modes := s.modes, dies := s.dies } = s ∧
        (∀ f, f < 8 → t.modes.toList.getD f 0#8 = byte f) ∧
        (byte 6 = 0#8 → t.dies = s.dies) ∧
        (byte 6 = 1#8 → ∀ d, d < 4 → { t.die d with islands := (s.die d).islands } = s.die d ∧
          ∀ i, i < 12 → t.island d i = if (s.island d i).state = 0#2 then
            { s.island d i with current := (s.island d i).ceiling } else s.island d i)) ∧
      ((∃ f, f < 8 ∧ 1 < (byte f).toNat) ∨ byte 0 ≠ 0#8 → refused (.modesStore who v))) ∧
    (∀ w, w < 16 → s.admits who (hubPage + 0x800 + 8 * w) v → v.extractLsb' 1 37 = 0#37 →
      Stores (.winStore who w v) s who (hubPage + 0x800 + 8 * w) fun t => { t with win := s.win } = s ∧
        ∀ k, t.win.toList.getD k { base := 0#26, enable := false } =
          if k = w then { base := v.extractLsb' 38 26, enable := v.getLsbD 0 }
          else s.win.toList.getD k { base := 0#26, enable := false }) ∧
    (∀ d i, d < 4 → i < 12 → s.admits who (diePage d + 0x400 + 8 * i) v →
      let c := (v.extractLsb' 0 12).toNat
      let y := s.island d i
      let clamped : Prop := y.state = 3#2 ∨ (y.state = 2#2 ∧ 105 < (s.die d).temp.toNat)
      let slows : Prop := 95 < (s.die d).temp.toNat ∨ (i < 9 ∧ s.pwrlim.toNat < s.power.toNat)
      let assisted : Prop := s.modes.toList.getD 6 0#8 = 1#8
      250 ≤ c → c ≤ 1000 → Stores (.islandStore who d i v) s who (diePage d + 0x400 + 8 * i) fun t =>
        let z := t.island d i
        { t with dies := s.dies, trip := s.trip } = s ∧ z.ceiling.toNat = c ∧
        t.trip = (if y.state = 2#2 ∧ 105 < (s.die d).temp.toNat then s.trip ||| 2#2
          else if y.state = 2#2 ∧ slows then s.trip ||| 1#2 else s.trip) ∧
        (clamped → z.state = 3#2 ∧ z.current = 250#12) ∧
        (y.state = 1#2 → z.state = 1#2 ∧ z.current.toNat = min y.current.toNat c) ∧
        (¬ clamped → y.state = 2#2 → slows → z.state = 1#2 ∧ 1 ≤ z.current.toNat ∧ z.current.toNat < c) ∧
        (¬ clamped → y.state ≠ 1#2 → (y.state = 2#2 → ¬ slows) → z.state = 0#2 ∧ 1 ≤ z.current.toNat ∧
          z.current.toNat ≤ c ∧ (assisted → z.current.toNat = c) ∧
          (¬ assisted → slows → 1 ≤ y.current.toNat → z.current.toNat ≤ y.current.toNat)) ∧
        (∀ e, e < 4 → { t.die e with islands := (s.die e).islands } = s.die e) ∧
        ∀ e j, e < 4 → j < 12 → ¬ (e = d ∧ j = i) → t.island e j = s.island e j)

/-- R74, R75, R85, R266, R274, R283, R284: a tenant is activated, in a world with a fresh memory key, its dies
latched and strands of other worlds off their slots; torn down, its frames left at kind 4 and the bytes to
scrub counted; scrubbed 64 KiB at a time; freed once they are zero, the vector state of every strand on its
cores zero too; measured; and a counter's record is
cancelled and completes. The model's choices: a refused action of a strand changes nothing else (log 41, DEDUCED);
strands leave the dies of a new world in the ACTIVATE step (log 60, DEDUCED); a scrub step writes 64 KiB (log 52);
how the record of a cancelled launch that was not created shows (log 57, DESIGN CHOICE); the causes with which a frame
list in a frame of kind 3, a host window or the control region is refused (log 58, DEDUCED; R52, R55 and R261 give the
others); a word of a code list that does
not translate reads as 0, so MEASNOW goes on (log 78, DESIGN CHOICE); the digest's algorithm and byte orders (log 10,
PRESUMED). -/
def Obligations.TenantAndCounterActions : Prop :=
  ∀ (s : State) (who : Agent) (n : Nat), n < 256 → s.agentTenant (agentOf who) ≠ some n →
    let x := s.tenant n
    let frames := framesOf (s.frameList n)
    let word (i : Nat) : Nat := (x.framelist.toNat * 8) % 2 ^ 44 + 8 * i
    let readable (a : Nat) : Prop := a < 0x07C00000000 ∧ s.frameKind a ≠ 3 ∧ s.frameKind a ≠ 4 ∧
      (s.die (homeDie a)).fence ≠ 2#2
    let listed : Prop := ∀ i, i < x.framecount.toNat → readable (word i)
    let refused (i : Instr) : Prop :=
      exec i s = .next (if who = .host then { s with hosterr := s.hosterr + 1#32 } else s)
    (s.admits who (tenantPage n) 1#64 → x.state = 0#3 → s.frameKind (frameAddr x.root) = 1 →
      (∀ e ∈ x.spad.toList, x.spadOk e = true) → ¬ listed → refused (.activate who n)) ∧
    (s.admits who (tenantPage n + 0x60) 1#64 → x.state = 1#3 → ¬ listed → refused (.teardown who n)) ∧
    (x.state = 0#3 → s.frameKind (frameAddr x.root) = 1 → (∀ e ∈ x.spad.toList, x.spadOk e = true) →
      ∀ i, i < x.framecount.toNat → (∀ j, j < i → readable (word j)) → 0x07C00000000 ≤ word i →
        word i < 0x80000000000 → s.controlStore (agentOf who) (tenantPage n) 1#64 = .error cNoMapping) ∧
    (s.admits who (tenantPage n) 1#64 → x.state = 0#3 → s.frameKind (frameAddr x.root) = 1 →
      (∀ e ∈ x.spad.toList, x.spadOk e = true) → listed → (∀ e ∈ s.frameList n, s.frameOk e = true) →
      (∀ d ∈ x.diesNamed, (s.die d).latch ≠ 2#2 ∧
        (x.world ≠ 0#6 → (s.die d).latch = 1#2 → (s.die d).world = x.world)) →
      (x.world = 0#6 → Stores (.activate who n) s who (tenantPage n) fun t => OnlyTenant s t n ∧
        t.tenant n = { x.clearFaultQueue with state := 1#3, result := 0#8 }) ∧
      (∀ k, x.world ≠ 0#6 → 1 ≤ k → k < 64 → (s.key k).state = 0#3 →
        (∀ j, 1 ≤ j → j < k → (s.key j).state ≠ 0#3) →
        Stores (.activate who n) s who (tenantPage n) fun t =>
          t.tenant n = { x.clearFaultQueue with
            state := 1#3, result := 0#8, keyValid := true, keySlot := BitVec.ofNat 6 k } ∧
          (t.key k).state = 1#3 ∧ (t.key k).bind = BitVec.ofNat 8 n ∧ (t.key k).id = s.keyNames ∧
          (∀ j, j ≠ k → t.key j = s.key j) ∧
          (∀ d ∈ x.diesNamed, (t.die d).latch = 1#2 ∧ (t.die d).world = x.world) ∧
          (∀ m, let y := s.strand m
            t.strand m = match y.place with
              | some p => if dieOfCore p.core ∈ x.diesNamed ∧ (s.tenant y.owner.toNat).world ≠ x.world then
                  { y with place := none, cls := y.prio, dealt := p.core } else y
              | none => y) ∧
          OnlyTenant s { t with
            keys := s.keys, keyNames := s.keyNames, dies := s.dies, strands := s.strands } n) ∧
      (x.world ≠ 0#6 → (∀ k, 1 ≤ k → k < 64 → (s.key k).state ≠ 0#3) →
        exec (.activate who n) s =
          .next ((s.updTenant n fun y => { y with result := 0x40#8 }).storedFor who (tenantPage n)))) ∧
    (s.admits who (tenantPage n) 1#64 → x.state ≠ 0#3 → refused (.activate who n)) ∧
    (s.admits who (tenantPage n + 0x60) 1#64 → x.state = 1#3 →
      (∀ e ∈ s.strands, e.2.owner.toNat = n → e.2.live = false) → listed →
      (∀ e ∈ s.frameList n, s.frameOk e = true) → (∀ e ∈ x.records, e.2.state ≠ 1#3 ∧ e.2.state ≠ 3#3) →
      Stores (.teardown who n) s who (tenantPage n + 0x60) fun t =>
        (t.tenant n).state = 2#3 ∧ (t.tenant n).keyValid = false ∧
        (t.tenant n).scrubLeft = s.scrubUnits n ∧ (t.tenant n).scrubAll = s.scrubUnits n ∧
        (t.tenant n).scrub = BitVec.ofNat 48 (65536 * (s.scrubUnits n).length) ∧
        (∀ f ∈ frames, lookupD t.frames f 0#4 = 4#4) ∧
        (∀ f, f ∉ frames → lookupD t.frames f 0#4 = lookupD s.frames f 0#4) ∧
        (∀ k, 1 ≤ k → k < 64 → (s.key k).bind.toNat = n → (t.key k).state = 0#3) ∧
        t.mem = s.mem ∧ t.strands = s.strands) ∧
    (x.state = 2#3 → (∀ d ∈ x.scrubDies, (s.die d).fence = 0#2) →
      (∀ u l, x.scrubLeft = u :: l →
        let t := s.scrubOne n
        (t.tenant n).scrubLeft = l ∧ (t.tenant n).scrub = BitVec.ofNat 48 (65536 * l.length) ∧
        exec (.scrubComplete n) s = .next s ∧
        ∀ f, u = .frame f → (∀ j, j < 65536 → readByte t.mem (65536 * f + j) = 0#8) ∧
          ∀ a, a / 65536 ≠ f → readByte t.mem a = readByte s.mem a) ∧
      (x.scrubLeft = [] → Completes (.scrubComplete n) s fun t =>
        (t.tenant n).state = 0#3 ∧ (t.tenant n).scrub = 0#48 ∧ (t.tenant n).measured = false ∧
        (∀ f, .frame f ∈ x.scrubAll → lookupD t.frames f 0#4 = 0#4) ∧
        (∀ f, .frame f ∉ x.scrubAll → lookupD t.frames f 0#4 = lookupD s.frames f 0#4) ∧
        (∀ d ∈ x.diesNamed, (s.die d).latch = 2#2 → (s.die d).world = x.world →
          s.scrubbedElsewhere n d = false → (t.die d).latch = 0#2) ∧
        (∀ m, t.strand m = if (s.strand m).vres = true ∧ (s.strand m).core ∈ x.coreKeys then
          { s.strand m with vec := VecState.zero, poisonV := [] } else s.strand m) ∧
        t.mem = s.mem)) ∧
    (∀ pages : List (List Nat), s.admits who (tenantPage n + 0x78) 1#64 → x.state = 1#3 →
      1 ≤ x.codecount.toNat → x.codecount.toNat ≤ 64 →
      let words := (List.range x.codecount.toNat).map fun i =>
        s.tenantLoad n (BitVec.ofNat 64 (x.codelist.toNat * 8 + 8 * i))
      words.mapM codePages = some pages →
      pages.flatten.length ≤ 4096 → (∀ p ∈ pages.flatten, (s.codeFrame n p).isSome = true) →
      Stores (.measnow who n) s who (tenantPage n + 0x78) fun t => OnlyTenant s t n ∧
        t.tenant n = { x with
          measured := true, measTaken := true, measPages := pages.flatten
          mdigest := digestOf ((words.zip pages).flatMap fun e => bytesOf 8 e.1.toNat ++
            e.2.flatMap fun p => match s.codeFrame n p with
              | some (f, key) => s.hbmRead key (f * 65536) 65536
              | none => [])
          measFrames := (t.tenant n).measFrames } ∧
        ∀ p ∈ pages.flatten, ∀ f, s.codeFrame n p = some f → f.1 ∈ (t.tenant n).measFrames) ∧
    (∀ (id : BitVec 32) (r : Record),
      let pa := counterPage n + recordOffset id + 0x30
      s.admits who pa 1#64 →
      workIndex id < levelSize (workLevel id) →
      (s.findRecord n id = none ∨ (s.findRecord n id = some r ∧ r.state ≠ 1#3) →
        exec (.counterCancel who n id) s = .next (s.storedFor who pa)) ∧
      (s.findRecord n id = some r → r.state = 1#3 → workLevel id = 0 → r.base = 0 → r.count = 0 →
        r.completed = 0#32 → r.failed = 0#32 → r.target ≠ 0#32 →
        (∀ m, s.contains n id m = false) → (∀ e ∈ x.records, e.2.parent ≠ some id) →
        Stores (.counterCancel who n id) s who pa fun t =>
          t.record n (recordKey id) = { r with
            state := 3#3, failed := r.target, cause := if r.cause = 0#8 then 0x18#8 else r.cause } ∧
          (∃ more, t.ready = (s.ready.filter fun e => !(e.tenant == n && e.launch == some id)) ++ more ∧
            ∀ e ∈ more, e.launch = none) ∧
          t.strands = s.strands ∧ t.mem = s.mem)) ∧
    (∀ (id : BitVec 32) (r : Record), s.findRecord n id = some r → r.state = 3#3 →
      r.completed.toNat + r.failed.toNat = r.target.toNat → workLevel id = 0 → r.parent = none →
      Completes (.cancelComplete n id) s fun t =>
        t.record n (recordKey id) = { r with state := 2#3 } ∧ t.strands = s.strands ∧
        ∀ k, k ≠ recordKey id → t.record n k = s.record n k)

/-- R97 to R103, R110, R111: the queue engine. ENABLE and DISABLE, a wake that covers a record, a verdict that
accepts, refuses, or gives a reserved code; a JOB, PHASE, GRAPH and WAIT that pass the checks of R102 and are the
last record covered; a SIGNAL's store; a completion word; a resource that frees, and a tenant barred while its
record awaits a verdict; a watchdog restart. The model's choices: ENABLE clears the code (log 67, DESIGN CHOICE);
a retired record keeps IDENT alone (log 56, DESIGN CHOICE); DISABLE keeps the job and the phase and waits in state 2
(log 35, DEDUCED); a job or phase accepts under its OWNER (log 72, DESIGN CHOICE); a WAIT is consumed when its wait
ends, and QUEUE_BARRED leaves the code (log 74, DESIGN CHOICE). -/
def Obligations.QueueCommands : Prop :=
  ∀ (s : State) (who : Agent) (q : Nat) (c r : Vector Word 8), q < 4096 →
    let x := s.queue q
    let o := (shadowWord c 1).toNat
    let n := (shadowWord r 1).toNat
    let cpl : Prop := shadowWord r 6 = 0#64 ∨ s.wordTaken o (shadowWord r 6)
    let fresh (level k : Nat) : BitVec 32 :=
      workId level (nextGen (workGen (s.record o k).ident)) (k % 1024)
    let apart : Prop := recordOp r ≠ 3 ∨ s.accepting o x.phase = none
    (s.admits who (queuePage q) 1#64 → x.state = 0#3 → x.inForce = some c → 4 ≤ ringSize c →
      ringSize c ≤ 10 → (s.tenant o).state = 1#3 → s.ringOk c = true →
      Stores (.queueEnable who q) s who (queuePage q) fun t =>
        (t.queue q).state = 1#3 ∧ (t.queue q).code = 0#8 ∧ (t.queue q).consumed = 0#32 ∧
        (t.queue q).producer = 0#32 ∧ (t.queue q).woken = false ∧
        (t.queue q).current = none ∧ (t.queue q).copy = some c ∧
        (s.ringOpen c (ringBase c + 8) = true →
          wordOfBytes (t.hbmRead (t.keyName 0) (ringBase c + 8) 8) = 0#64) ∧ t.strands = s.strands) ∧
    (s.admits who (queuePage q) 0#64 →
      (x.state ≠ 2#3 → exec (.queueDisable who q) s = .next ((s.updQueue q fun y =>
        { y with state := 0#3, current := none, copy := none, woken := false, disabling := false }).storedFor
          who (queuePage q))) ∧
      (x.state = 2#3 → exec (.queueDisable who q) s =
        .next ((s.updQueue q fun y => { y with disabling := true }).storedFor who (queuePage q)))) ∧
    (∀ v : Word, s.admits who (queuePage q + 0x18) v →
      let code := (v.extractLsb' 0 8).toNat
      let known : Prop := (1 ≤ code ∧ code ≤ 0x1B) ∨ (0x40 ≤ code ∧ code ≤ 0x44)
      (x.state = 4#3 → x.current = some r → recordOp r ≠ 0 → v.getLsbD 63 = true → v.extractLsb' 8 55 = 0#55 →
        code = 0 ∨ known → exec (.queueVerdict who q v) s =
          .next ((s.updQueue q fun y => { y with verdict := v, state := 2#3 }).storedFor who (queuePage q + 0x18))) ∧
      (x.state = 4#3 → x.current = some r → x.copy = some c → x.inForce = some c → x.disabling = false →
        x.producer = x.consumed + 1#32 → s.ringOk c = true → (s.tenant o).barred = false → apart →
        v.getLsbD 63 = false → v.extractLsb' 8 55 = 0#55 → known →
        Stores (.queueVerdict who q v) s who (queuePage q + 0x18) fun t => QueueConsumes s t q c ∧
          (t.queue q).code = v.extractLsb' 0 8 ∧ (t.queue q).verdict = v ∧
          (t.tenant o).strikes = satAdd (s.tenant o).strikes 1 ∧
          (shadowWord r 6 ≠ 0#64 → ∃ k ∈ (t.queue q).pending, k.done = true ∧ k.op = recordOp r ∧
            k.refused = v.extractLsb' 0 8 ∧ k.cpl = shadowWord r 6)) ∧
      (x.state ≠ 4#3 ∨ v.extractLsb' 8 55 ≠ 0#55 ∨ (¬ known ∧ ¬ (v.getLsbD 63 = true ∧ code = 0)) →
        exec (.queueVerdict who q v) s =
          .next (if who = .host then { s with hosterr := s.hosterr + 1#32 } else s))) ∧
    (x.state = 4#3 → x.awaits = false → x.current = some r → x.copy = some c → x.inForce = some c →
      x.disabling = false → x.producer = x.consumed + 1#32 → s.ringOk c = true → (s.tenant o).barred = true →
      apart → Completes (.queueResourceFree q) s fun t => QueueConsumes s t q c ∧ (t.queue q).code = x.code ∧
        (t.tenant o).strikes = (s.tenant o).strikes ∧
        (shadowWord r 6 ≠ 0#64 → ∃ k ∈ (t.queue q).pending, k.done = true ∧ k.op = recordOp r ∧
          k.refused = 0x19#8 ∧ k.cpl = shadowWord r 6)) ∧
    (∀ p : BitVec 32, x.woken = true → x.awaits = false → x.state = 1#3 → x.inForce = some c →
      x.disabling = false → s.ringOk c = true → s.ringOpen c (ringBase c) = true →
      s.ringOpen c (ringSlot c x.consumed.toNat) = true → (s.tenant o).barred = false →
      (wordOfBytes (s.hbmRead (s.keyName 0) (ringBase c) 8)).setWidth 32 = p →
      (p - x.consumed).toNat ≤ 2 ^ ringSize c → (x.producer - x.consumed).toNat ≤ (p - x.consumed).toNat →
      p ≠ x.consumed → s.modes.toList.getD 1 0#8 = 0#8 →
      recordOp (s.ringRecord c x.consumed.toNat) ≠ 0 →
      Completes (.queueWake q) s fun t => { t with queues := s.queues } = s ∧
        t.queue q = { x with state := 2#3, producer := p, woken := false, copy := some c, assisted := false
                             current := some (s.ringRecord c x.consumed.toNat) } ∧
        ∀ k, k ≠ q → t.queue k = s.queue k) ∧
    (s.parses q 1 c r → wordsUnused r [2, 3, 4, 5, 7] → cpl → s.accepting o x.job = none →
      (∀ k, 1 ≤ n → n ≤ 64 → s.freeRecord o 3 = some k → Completes (.cmdJob q) s fun t =>
        QueueConsumes s t q c ∧ (t.queue q).job = some (o, fresh 3 k) ∧
        t.record o k = { Record.empty with
          ident := fresh 3 k, state := 1#3, target := BitVec.ofNat 32 n } ∧
        ∀ j, j ≠ k → t.record o j = s.record o j) ∧
      (1 ≤ n → n ≤ 64 → s.freeRecord o 3 = none →
        exec (.cmdJob q) s = .next (s.updQueue q fun y => { y with state := 3#3 })) ∧
      (n < 1 ∨ 64 < n → Completes (.cmdJob q) s fun t => QueueConsumes s t q c ∧
        (t.queue q).code = 0x02#8 ∧ (t.tenant o).strikes = satAdd (s.tenant o).strikes 1 ∧
        ∀ j, t.record o j = s.record o j)) ∧
    (∀ (j : Record) (k : Nat), s.parses q 2 c r → wordsUnused r [2, 3, 4, 5, 7] → cpl →
      s.accepting o x.job = some j → s.phaseOpen o j.ident = false → s.accepting o x.phase = none →
      1 ≤ n → n ≤ 256 → s.freeRecord o 2 = some k → Completes (.cmdPhase q) s fun t =>
        QueueConsumes s t q c ∧ (t.queue q).phase = some (o, fresh 2 k) ∧
        t.record o k = { Record.empty with
          ident := fresh 2 k, state := 1#3, target := BitVec.ofNat 32 n, parent := some j.ident } ∧
        t.record o (recordKey j.ident) = { j with submitted := j.submitted + 1#32 }) ∧
    (∀ (p : Record) (nodes : List Node) (k : Nat), s.parses q 3 c r → wordsUnused r [2, 3, 4, 5, 7] → cpl →
      s.accepting o x.phase = some p → s.graphNodes o c (shadowWord r 1) = .ok nodes →
      s.freeRecord o 1 = some k → s.ready.length + nodes.length ≤ 8192 → s.ready.length < 8192 →
      Completes (.cmdGraph q) s fun t => QueueConsumes s t q c ∧
        (t.record o k).ident = fresh 1 k ∧ (t.record o k).state = 1#3 ∧
        (t.record o k).target = BitVec.ofNat 32 nodes.length ∧ (t.record o k).parent = some p.ident ∧
        (t.record o k).nodes.map (fun g => g.node) = nodes ∧
        t.record o (recordKey p.ident) = { p with submitted := p.submitted + 1#32 } ∧
        ∀ i nd, nodes[i]? = some nd → nd.pred = 0#64 → nd.stream = 0#64 →
          ∃ e ∈ t.ready, e.tenant = o ∧ e.graph = fresh 1 k ∧ e.index = some i ∧ e.node = nd) ∧
    (∀ id : BitVec 32, s.parses q 4 c r → wordsUnused r [2, 3, 4, 5, 7] → cpl →
      workIdOf (shadowWord r 1) = some id →
      (s.waitOver o id = true → Completes (.cmdWait q) s fun t => QueueConsumes s t q c ∧
        ∀ j, t.record o j = s.record o j) ∧
      (s.waitOver o id = false →
        exec (.cmdWait q) s = .next (s.updQueue q fun y => { y with state := 3#3 }))) ∧
    (s.parses q 5 c r → wordsUnused r [3, 4, 5, 7] → cpl → s.wordTaken o (shadowWord r 1) →
      x.nextSignal = none → Completes (.cmdSignal q) s fun t => QueueConsumes s t q c ∧
        ∃ k ∈ (t.queue q).pending, k.op = 5 ∧ k.done = false ∧ k.address = shadowWord r 1 ∧
          k.value = shadowWord r 2) ∧
    (∀ (k : Command) (pa key : Nat) (raced : Bool), x.nextSignal = some k →
      s.tenantWord k.tenant k.address true = .ok (.hbm pa key raced) →
      Completes (.cmdSignal q) s fun t => HbmStored s t key pa (bytesOf 8 k.value.toNat) ∧
        t.strands = s.strands) ∧
    (∀ (k : Command) (pa key : Nat) (raced : Bool),
      x.pending.find? (fun k' => k'.serial == k.serial && k'.done && k'.waits == .none) = some k →
      k.cpl ≠ 0#64 → k.lost = false → s.tenantWord k.tenant k.cpl true = .ok (.hbm pa key raced) →
      Completes (.completionWordWrite q k.serial) s fun t =>
        HbmStored s t key pa (bytesOf 8 (2 ^ 63 + k.failed.toNat * 2 ^ 40 + k.refused.toNat * 2 ^ 32 +
          k.ident.toNat)) ∧
        (t.queue q).pending = (x.pending.filter fun k' => k'.serial != k.serial) ∧
        (k.op = 1 → k.ident ≠ 0#32 → t.record k.tenant (recordKey k.ident) =
          { Record.empty with ident := (s.record k.tenant (recordKey k.ident)).ident }) ∧
        t.strands = s.strands) ∧
    (x.state = 3#3 → s.queueFree q = true → exec (.queueResourceFree q) s =
      .next (s.updQueue q fun y => { y with state := 2#3 })) ∧
    (∀ f, f ≠ 1 ∨ (∀ e ∈ s.queues, e.2.state ≠ 2#3) → exec (.firmwareWatchdog f) s = .next s)

/-- R79, R92 to R96, R107, R108, R15: the dispatcher creates the strands of the oldest entry of the highest
class that nothing blocks, a `launch`'s or a graph's, each with its index, arguments and count in s1 to s3; entries
and waiting strands age by a class up to 3; a waiting strand takes a slot and a cluster of its core; a pre-empted
one gives its slot up. The model's choices: the dealt core is the one a strand is placed on, and which slot and
cluster it takes there (log 39, DEDUCED); which of the strands that may be pre-empted is (log 40, DEDUCED). -/
def Obligations.DispatchAndResidency : Prop :=
  ∀ (s : State),
    (∀ (e : ReadyEntry) (pool : List Nat) (base : Nat),
      (s.readyOrder.filter fun e => !s.blockedEntry e).head? = some e → e.waits = .none →
      e.launch.isSome = true ∨ (s.freeRecord e.tenant 0).isSome = true → e.node.flow = none →
      s.takePool e.tenant e.node = .cores pool → s.freeRun e.node.count = some base →
      Completes .dispatchCreate s fun t => t.mem = s.mem ∧
        (∀ i, i < e.node.count →
          let x := t.strand (base + i)
          x.state = 1#4 ∧ x.pc = e.node.entry.setWidth 64 ∧ x.owner = BitVec.ofNat 8 e.tenant ∧
          x.sreg 1#5 = BitVec.ofNat 64 i ∧ x.sreg 2#5 = e.node.args.setWidth 64 ∧
          x.sreg 3#5 = BitVec.ofNat 64 e.node.count) ∧
        ∀ n, n < base ∨ base + e.node.count ≤ n → t.strand n = s.strand n) ∧
    (∀ (e : ReadyEntry) (id : BitVec 32) (pool : List Nat) (base : Nat), s.ready = [e] →
      e.launch = some id → e.graph = 0#32 → e.waits = .none → e.node.flow = none →
      s.takePool e.tenant e.node = .cores pool → s.freeRun e.node.count = some base →
      Completes .dispatchCreate s fun t =>
        (∀ i, i < e.node.count →
          let x := t.strand (base + i)
          x.state = 1#4 ∧ x.pc = e.node.entry.setWidth 64 ∧ x.launch = id ∧
          x.owner = BitVec.ofNat 8 e.tenant ∧ x.mvl = BitVec.ofNat 16 (256 * 2 ^ e.node.mvl) ∧
          x.sreg 1#5 = BitVec.ofNat 64 i ∧ x.sreg 2#5 = e.node.args.setWidth 64 ∧
          x.sreg 3#5 = BitVec.ofNat 64 e.node.count ∧
          (∀ r : SReg, 4 ≤ r.toNat → x.sreg r = 0#64) ∧ x.tags = BitVec.allOnes 64 ∧
          x.place = none ∧ x.pool = pool ∧ x.dealt = pool.getD (i % pool.length) 0 ∧
          x.vec = VecState.zero ∧ x.checked = (s.tenant e.tenant).checked) ∧
        (∀ n, n < base ∨ base + e.node.count ≤ n → t.strand n = s.strand n) ∧
        (t.record e.tenant (recordKey id)).base = base ∧
        (t.record e.tenant (recordKey id)).count = e.node.count ∧ t.mem = s.mem) ∧
    (∀ id, Completes (.readyEntryAge id) s fun t => { t with ready := s.ready } = s ∧
      t.ready.length = s.ready.length ∧ ∀ i, (h : i < s.ready.length) →
        t.ready[i]? = some (if (s.ready[i]).id = id then
          { s.ready[i] with cls := BitVec.ofNat 2 (min ((s.ready[i]).cls.toNat + 1) 3) }
          else s.ready[i])) ∧
    (∀ id, Completes (.readyEntryBlocking id) s fun t => { t with ready := s.ready } = s ∧
      t.ready.length = s.ready.length ∧ ∀ i, (h : i < s.ready.length) →
        t.ready[i]? = some (if (s.ready[i]).id = id then { s.ready[i] with blocking := true }
          else s.ready[i])) ∧
    (∀ n, (s.strand n).state = 1#4 → (s.strand n).place = none →
      exec (.strandWaitAge n) s = .next (s.setStrand n { s.strand n with
        cls := BitVec.ofNat 2 (min ((s.strand n).cls.toNat + 1) 3) })) ∧
    (∀ n c k cl, (s.strand n).unseated = true → s.seatCore n = some c →
      (∀ e ∈ s.strands, e.1 < n → e.2.unseated = false) → s.freeSlot c = some k →
      let x := s.strand n
      let sits (t : State) (x : Strand) : Prop := { t with cores := s.cores } = s.setStrand n { x with
          place := some { core := c, slot := k }, dealt := c, seated := true } ∧
        t.core c = { s.core c with
          boardLine := (s.core c).boardLine.filter (· != n), boardHold := (s.core c).boardHold.filter (· != n) } ∧
        ∀ j, j ≠ c → t.core j = s.core j
      (x.seated = false → x.vres = false → s.clusterFor c n = some cl →
        Completes (.strandResident n) s fun t => sits t { x with cluster := cl, vres := true }) ∧
      (x.seated = true ∨ (x.vres = true ∧ x.core = c) →
        Completes (.strandResident n) s fun t => sits t { x with vres := x.vres && x.core == c })) ∧
    (∀ c v w held, v ≠ w → (∀ e ∈ s.strands, e.2.waitsOn c = true → e.1 = w) →
      (∃ e ∈ s.strands, e.2.waitsOn c = true) →
      let may (n : Nat) : Prop := ((s.strand n).place.map fun p => p.core) = some c ∧
        ((s.strand n).state = 1#4 ∨ (s.strand n).state = 8#4) ∧ (s.strand n).wait.atBoundary = true
      may v → v ∈ held → (∀ n ∈ held, may n → n ≠ v → (s.strand v).cls.toNat < (s.strand n).cls.toNat) →
      ((s.setStrand v { s.strand v with
        place := none, cls := (s.strand v).prio, left := s.time }).seat w c).isSome = true →
      Completes (.preempt c held) s fun t => (t.strand v).place = none ∧ (t.strand v).left = s.time ∧
        (t.strand v).cls = (s.strand v).prio ∧ (t.strand v).pc = (s.strand v).pc ∧
        (t.strand v).s = (s.strand v).s ∧ (t.strand v).vec = (s.strand v).vec ∧
        (t.strand v).state = (s.strand v).state ∧ (∃ k, (t.strand w).place = some { core := c, slot := k }) ∧
        t.mem = s.mem)

/-- R191, R197, R199 to R202: an FQ_REPLAY verdict that a strand awaited alone returns it to state 1, an
FQ_DENY ends it with NOT_RESIDENT; FQ_TSYNC discards the held table entries of its tenant that it covers;
a held fault is merged into an unanswered entry of its page, or written at TAIL once there is room. -/
def Obligations.FaultQueueActions : Prop :=
  ∀ (s : State) (who : Agent) (k n : Nat) (seq : BitVec 48) (e : FqEntry), k < 256 →
    let y := s.tenant k
    let x := s.strand n
    let answered (t : State) (status : BitVec 2) : Prop :=
      (t.tenant k).fqEntries.find? (fun p => p.1 == seq.toNat) =
        some (seq.toNat, { e with status := status })
    let awaits : Prop := seq.toNat < y.fqTail.toNat ∧ seq.toNat < 2 ^ 48 ∧
      y.fqEntries.find? (fun p => p.1 == seq.toNat) = some (seq.toNat, e) ∧ e.status = 0#2 ∧
      x.owner.toNat = k ∧ x.state = 8#4 ∧ x.awaitSeqs = [seq] ∧ x.awaitGot = 0#16 ∧
      x.awaitDenied = false ∧ s.faultsHeld n = false ∧
      ∀ p ∈ s.strands, p.1 ≠ n → seq ∉ p.2.awaitSeqs
    (seq.toNat < y.fqTail.toNat → y.fqEntries.find? (fun p => p.1 == seq.toNat) = some (seq.toNat, e) →
      e.status = 0#2 →
      (s.admits who (faultPage k + 0x10) (seq.setWidth 64) →
        Stores (.fqReplay who k seq) s who (faultPage k + 0x10) fun t => answered t 1#2 ∧
          (t.tenant k).fqReplay = seq.setWidth 64) ∧
      (s.admits who (faultPage k + 0x10) (seq.setWidth 64 ||| 0x4000000000000000#64) →
        Stores (.fqDeny who k seq) s who (faultPage k + 0x10) fun t => answered t 2#2)) ∧
    (awaits → s.admits who (faultPage k + 0x10) (seq.setWidth 64) →
      Stores (.fqReplay who k seq) s who (faultPage k + 0x10) fun t => answered t 1#2 ∧ (t.strand n).state = 1#4 ∧
        (t.strand n).prevBatch = [seq] ∧ (t.strand n).pc = x.pc ∧ (t.strand n).s = x.s ∧
        (t.tenant k).fqReplay = seq.setWidth 64 ∧ t.mem = s.mem) ∧
    (∀ r, awaits → s.admits who (faultPage k + 0x10) (seq.setWidth 64 ||| 0x4000000000000000#64) →
      s.strands.countP (fun p => p.1 == n) = 1 →
      s.findRecord k x.launch = some r → r.state = 1#3 → r.parent = none →
      r.completed.toNat + r.failed.toNat + 1 < r.target.toNat →
      Stores (.fqDeny who k seq) s who (faultPage k + 0x10) fun t => answered t 2#2 ∧ (t.strand n).state = 6#4 ∧
        (t.strand n).cause = 0x08#8 ∧ (t.strand n).place = none) ∧
    (s.admits who (faultPage k + 0x18) 1#64 → y.state = 1#3 →
      Stores (.fqTsyncAll who k) s who (faultPage k + 0x18) fun t =>
        t.stale = (s.stale.filter fun p => !(p.tenant == k)) ∧
        (y.measPages ≠ [] → (t.tenant k).measured = false) ∧
        (y.measPages = [] → (t.tenant k).measured = y.measured) ∧ t.strands = s.strands ∧
        t.mem = s.mem) ∧
    (∀ page : BitVec 41, s.admits who (faultPage k + 0x18) (page.setWidth 64 <<< 16) → y.state = 1#3 →
      Stores (.fqTsyncPage who k page) s who (faultPage k + 0x18) fun t =>
        t.stale = (s.stale.filter fun p => !(p.tenant == k &&
          (s.walkAddrs k (page.setWidth 64 <<< 16) 3 [localOf (y.root.toNat * 65536)]).contains p.pa)) ∧
        (page.toNat ∈ y.measPages → (t.tenant k).measured = false) ∧
        (page.toNat ∉ y.measPages → (t.tenant k).measured = y.measured) ∧ t.strands = s.strands ∧
        t.mem = s.mem) ∧
    (∀ (h : HeldFault) (rest : List HeldFault), y.fqHolding = h :: rest → h.who = .strand n →
      h.entry.status = 0#2 →
      let learns (t : State) (i : Nat) : Prop :=
        (t.strand n).awaitSeqs = x.awaitSeqs ++ [BitVec.ofNat 48 i] ∧ (t.tenant k).fqHolding = rest ∧
        (t.tenant k).fqHeld = y.fqHeld - 1#32 ∧ t.mem = s.mem
      (y.fqFind h.entry.page = none → y.fqTail.toNat - y.fqHead.toNat < 1024 → y.unanswered < 1024 →
        Completes (.heldFaultWrite k) s fun t => learns t y.fqTail.toNat ∧
          (t.tenant k).fqTail = y.fqTail + 1#32 ∧
          lookupD (t.tenant k).fqEntries y.fqTail.toNat e = h.entry) ∧
      (∀ i, y.fqFind h.entry.page = some i → Completes (.heldFaultWrite k) s fun t => learns t i ∧
        (t.tenant k).fqTail = y.fqTail ∧
        (lookupD (t.tenant k).fqEntries i e).count =
          satAdd (lookupD y.fqEntries i h.entry).count h.entry.count.toNat))

/-- R245, R247 to R249, R252, R257, R261, R262: a chain starts with replicas that are zero and hold no poison, is
released, loses a link, whose die then holds no line of it, gains one with the tail's bytes, and accepts its
oldest write in every replica; a die is fenced and restored. The model's choices: acceptance writes every replica
at once, the head's among them, and the writes still in flight stand in none of them (log 23, DEDUCED, unsafe, where
R247 has the head apply a write first); an append to a die that is fenced is dropped (log 82, DESIGN CHOICE). -/
def Obligations.ChainAndDieActions : Prop :=
  ∀ (s : State) (who : Agent) (c : Nat) (d : BitVec 3) (base : BitVec 40), c < 256 →
    let x := s.chain c
    let key := s.chainKey c
    let len := 65536 * x.size.toNat
    let rmWord : Word := 0x4000000000000000#64 ||| (d.setWidth 64 <<< 56)
    let addWord : Word := 0x8000000000000000#64 ||| (d.setWidth 64 <<< 56) ||| (base.setWidth 64 <<< 16)
    let only (t : State) : Prop := { t with chains := s.chains } = s ∧ ∀ j, j ≠ c → t.chain j = s.chain j
    (s.admits who (chainPage c) 1#64 → x.state = 0#3 → 1 ≤ x.size.toNat → x.size.toNat ≤ 262144 →
      1 ≤ x.count.toNat → x.count.toNat ≤ 4 → x.linkDies.Nodup →
      (∀ e ∈ x.linkDies, e < 4 ∧ (s.die e).fence = 0#2) → (s.tenant x.owner.toNat).state = 1#3 →
      (∀ i, i < x.count.toNat → s.baseOk x (x.baseAddr i) (x.linkDies.getD i 0) = true) →
      Stores (.chainStart who c) s who (chainPage c) fun t =>
        t.chain c = { x with state := 2#3, gen := x.gen + 1#32, accepted := 0#64
                             inflight := [], append := none } ∧
        (∀ i a, i < x.count.toNat → x.baseAddr i ≤ a → a < x.baseAddr i + len →
          t.hbmByte key a = 0#8 ∧ t.hbmTag key a = 0#16 ∧ hasKey t.poison (a / 64) = false) ∧
        t.strands = s.strands) ∧
    (s.admits who (chainPage c) 2#64 → x.state = 2#3 ∨ x.state = 4#3 →
      Stores (.chainRelease who c) s who (chainPage c) fun t => only t ∧
        t.chain c = { x with state := 0#3, append := none }) ∧
    (s.admits who (chainPage c + 0x30) rmWord → x.state = 2#3 → d.toNat ∈ x.linkDies →
      2 ≤ x.linkDies.length → x.inflight = [] →
      Stores (.linkopRemove who c d) s who (chainPage c + 0x30) fun t => only { t with dies := s.dies } ∧
        (∀ j, j < 4 → t.die j = if j = d.toNat then { s.die j with cellar := (s.die j).cellar.filter (fun b =>
            (x.baseOn j).all (fun a => !decide (a / 64 ≤ b ∧ b < (a + len) / 64))) }
          else s.die j) ∧
        (t.chain c).linkDies = x.linkDies.filter (· != d.toNat) ∧ (t.chain c).gen = x.gen + 1#32 ∧
        (t.chain c).state = 2#3 ∧ (t.chain c).linkop = rmWord) ∧
    (s.admits who (chainPage c + 0x30) addWord → x.state = 2#3 → x.linkDies.length < 4 →
      d.toNat ∉ x.linkDies → d.toNat < 4 → (s.die d.toNat).fence = 0#2 → s.frameHere base = true →
      s.baseOk x (frameAddr base) d.toNat = true →
      Stores (.linkopAppend who c d base) s who (chainPage c + 0x30) fun t => only t ∧
        t.chain c = { x with append := some (d, base), linkop := addWord }) ∧
    (x.append = some (d, base) → 1 ≤ x.count.toNat → x.count.toNat < 4 →
      let tail := x.baseAddr (x.count.toNat - 1)
      let b := frameAddr base
      (b + len ≤ tail ∨ tail + len ≤ b) → Completes (.chainAppendJoin c) s fun t =>
        (t.chain c).linkDies = x.linkDies ++ [d.toNat] ∧ (t.chain c).gen = x.gen + 1#32 ∧
        (t.chain c).append = none ∧ (∀ j, j ≠ c → t.chain j = s.chain j) ∧
        (∀ i, i < len → t.hbmByte key (b + i) = s.hbmByte key (tail + i)) ∧
        (∀ k a, a / 64 < b / 64 ∨ (b + len) / 64 ≤ a / 64 → t.hbmByte k a = s.hbmByte k a) ∧
        t.strands = s.strands) ∧
    (∀ (w : VineWrite) (rest : List VineWrite), x.inflight = w :: rest →
      Completes (.vineWriteAccept c) s fun t => t.strands = s.strands ∧
        t.chain c = { x with inflight := rest, accepted := x.accepted + 1#64 }) ∧
    (∀ (w : VineWrite) (rest : List VineWrite), x.inflight = w :: rest → w.bytes ≠ [] →
      (x.replicas w.offset).Pairwise (fun p p' => p + w.bytes.length ≤ p' ∨ p' + w.bytes.length ≤ p) →
      Completes (.vineWriteAccept c) s fun t =>
        t.chain c = { x with inflight := rest, accepted := x.accepted + 1#64 } ∧
        (∀ pa ∈ x.replicas w.offset, ∀ i, (h : i < w.bytes.length) →
          t.hbmByte key (pa + i) = w.bytes[i]) ∧
        (∀ a, (∀ pa ∈ x.replicas w.offset, a < pa ∨ pa + w.bytes.length ≤ a) →
          t.hbmByte key a = s.hbmByte key a) ∧ t.strands = s.strands) ∧
    (∀ (f : Table Nat), let e := d.toNat
      e < 4 → s.admits who (diePage e + 0x208) 1#64 → (s.die e).fence = 0#2 →
      Stores (.dieFence who e f) s who (diePage e + 0x208) fun t => (t.die e).fence = 2#2 ∧
        (x.state ≠ 0#3 → e ∉ x.linkDies → x.append = some (d, base) → (t.chain c).append = none ∧
          (t.chain c).links = x.links ∧ (t.chain c).state = x.state) ∧
        (∀ j, j < 4 → j ≠ e → (t.die j).fence = (s.die j).fence) ∧
        ∀ n, s.strandOn n e = true → (t.strand n).ended = true ∨ t.freed n (s.strand n)) ∧
    (∀ (f : Table Nat), let e := d.toNat
      e < 4 → s.admits who (diePage e + 0x208) 1#64 → (s.die e).fence = 0#2 →
      (∀ p ∈ s.strands, p.2.live = false) → s.chains = [] →
      Stores (.dieFence who e f) s who (diePage e + 0x208) fun t => (t.die e).fence = 2#2 ∧ t.strands = s.strands ∧
        (∀ j, j < 4 → j ≠ e → t.die j = s.die j) ∧ t.mem = s.mem) ∧
    (let e := d.toNat
     e < 4 → s.admits who (diePage e + 0x208) 2#64 → (s.die e).fence = 2#2 →
      Stores (.dieRestore who e) s who (diePage e + 0x208) fun t => (t.die e).fence = 0#2 ∧ (t.die e).cellar = [] ∧
        (∀ j, dieOfCore j = e → t.core j = Core.empty) ∧
        (∀ j, dieOfCore j ≠ e → t.core j = s.core j) ∧ t.strands = s.strands ∧ t.mem = s.mem)

/-- R228 to R232, R269, R270, R300, R301: a key slot is loaded, zeroised and erased; a window request that is
answered with data retires its instruction, and one that fails or times out raises its cause at it; an
atomic is performed in the host's memory when the host answers it. The model's choice: the algorithms and byte
orders by which a wrapped key is opened (log 10, PRESUMED). -/
def Obligations.KeyAndWindowEvents : Prop :=
  ∀ (s : State) (who : Agent) (k n : Nat) (r : WindowRequest) (rest : List WindowRequest),
    let y := s.key k
    let x := s.strand n
    let only (t : State) : Prop := { t with keys := s.keys, keyNames := s.keyNames } = s ∧
      ∀ j, j ≠ k → t.key j = s.key j
    let old := wordOfBytes (readBytes s.hostMem r.host r.width)
    let retires (t : State) (v : Word) : Prop := (t.strand n).pc = r.npc ∧
      (t.strand n).wait = (if x.state = 2#4 then .stopping else .none) ∧
      (t.strand n).state = x.state ∧ t.requests = rest ∧
      ∀ j, (t.strand n).sreg j = if j = 0#5 then 0#64 else if j = r.rd then v else x.sreg j
    let raises (t : State) (cause : Nat) : Prop := (t.strand n).trapcause = BitVec.ofNat 8 cause ∧
      (t.strand n).trappc = x.pc.setWidth 57 ∧ (t.strand n).trapaddr = r.va.setWidth 57 ∧
      (t.strand n).pc = x.trapvec.setWidth 64 ∧ (t.strand n).inHandler = true ∧
      (t.strand n).s = x.s ∧ t.requests = rest
    let handles : Prop := x.inHandler = false ∧ x.trapvec ≠ 0#57
    let stored (t : State) (v : Word) : Prop :=
      (∀ i, i < r.width → readByte t.hostMem (r.host + i) = v.extractLsb' (8 * i) 8) ∧
      ∀ a, a < r.host ∨ r.host + r.width ≤ a → readByte t.hostMem a = readByte s.hostMem a
    1 ≤ k → k < 64 →
    (s.admits who (keyPage k) 1#64 → y.state = 0#3 → (s.tenant y.bind.toNat).state = 1#3 →
      y.wrap.extractLsb' (8 * 0x9C) 32 = 0#32 →
      let key := unwrapCask s.provkey s.package.toNat (bytesOf 208 y.wrap.toNat)
      (key = none → Stores (.keyLoad who k) s who (keyPage k) fun t => only t ∧ t.key k = { y with result := 0x0C#8 }) ∧
      (∀ bytes, key = some bytes →
        Stores (.keyLoad who k) s who (keyPage k) fun t => only t ∧ t.keyNames = s.keyNames + 1 ∧
          t.key k = { y with
            state := 3#3, result := 0#8, key := BitVec.ofNat 256 (natOfBytes bytes), wrap := 0#1664, id := s.keyNames
            fprint := y.wrap.extractLsb' (8 * 0x60) 384 })) ∧
    (s.admits who (keyPage k) 2#64 → y.state = 3#3 → Stores (.keyZeroise who k) s who (keyPage k) fun t => only t ∧
      t.key k = { y with state := 4#3, ctl := 2#2 }) ∧
    (y.state = 4#3 → s.keyInUse k = false → Completes (.keyZeroiseComplete k) s fun t =>
      (t.key k).state = 0#3 ∧ (t.key k).bind = 0#8 ∧ (t.key k).fprint = 0#384 ∧
      (t.key k).key = 0#256 ∧ (t.key k).ctl = 0#2 ∧ (t.key k).id = s.keyNames ∧
      (∀ j, j ≠ k → t.key j = s.key j) ∧ t.strands = s.strands ∧ t.mem = s.mem) ∧
    (s.requests = r :: rest → r.strand = n → r.live = true → x.stepping = false →
      r.width ∈ [1, 2, 4, 8] →
      (r.op = none →
        Completes (.windowCompletion n .success) s (fun t => t.hostMem = s.hostMem ∧ retires t
          (if r.signed then BitVec.ofInt 64 (BitVec.ofNat (8 * r.width) old.toNat).toInt else old)) ∧
        (handles → x.state ≠ 2#4 →
          Completes (.windowCompletion n .refusal) s (fun t => raises t 0x11 ∧ t.hostMem = s.hostMem) ∧
          Completes (.completionTimeout n) s fun t => raises t 0x11 ∧ t.hostMem = s.hostMem)) ∧
      (∀ op, r.op = some op → r.width ∈ [4, 8] →
        (atomicWrites op r.width old r.expected = true →
          Completes (.windowCompletion n .success) s fun t =>
            stored t (atomicWord op r.width old r.operand r.expected) ∧
            retires t (BitVec.ofInt 64 (BitVec.ofNat (8 * r.width) old.toNat).toInt)) ∧
        (handles → x.state ≠ 2#4 →
          Completes (.windowCompletion n .refusal) s (fun t => raises t 0x10 ∧ t.hostMem = s.hostMem ∧
            (r.window < 16 → t.route.toList.getD r.window 0#8 = 2#8)) ∧
          Completes (.completionTimeout n) s fun t => raises t 0x11 ∧
            (t.hostMem = s.hostMem ∨ stored t (atomicWord op r.width old r.operand r.expected)))))

/-- R62, R224 to R228, R288: what the host does at its port. A BAR 0 access of 8 aligned bytes is a control
access and any other is refused and counted, a refused read returning all ones; before boot is over only BOOT is
read; a BAR 2 access reads or stores bytes under key slot 0; an access waits for those before it and for its
page; an AtomicOp request completes as an Unsupported Request and is counted; configuration writes, the link, a hot
reset and held MSI-X messages act on the port. The model's choices: which bit of Device Control 2 enables AtomicOps,
the mask bit of an MSI-X entry and the BARs' reset values (log 69, PRESUMED); a hot reset takes the link down and
drops the accesses that wait, and HOSTERR wraps (log 42, DEDUCED). -/
def Obligations.HostPortEvents : Prop :=
  ∀ (s : State) (offset size : Nat) (v : Word) (l : List Byte) (link : BitVec 16),
    let counted (i : Instr) : Prop := exec i s = .next { s with hosterr := s.hosterr + 1#32 }
    let answers (i : Instr) (t : State) (l : List Byte) : Prop :=
      exec i s = .next { t with hostAnswer := .data l [] }
    let ones (i : Instr) : Prop :=
      answers i { s with hosterr := s.hosterr + 1#32 } (List.replicate size 0xFF#8)
    let pa := controlBase + offset
    (s.linkUp = true →
      (s.hostQueue = [] →
        (size ≠ 8 ∨ offset % 8 ≠ 0 ∨ 2 ^ 34 ≤ offset →
          ones (.hostBar0Access offset size none) ∧ counted (.hostBar0Access offset size (some v))) ∧
        (size = 8 → offset % 8 = 0 → offset < 2 ^ 34 →
          (s.booted = false → counted (.hostBar0Access offset 8 (some v)) ∧
            (offset ≠ 0x1044000 → ones (.hostBar0Access offset 8 none))) ∧
          (s.booted = true →
            (s.pageHeld none pa v = false →
              (∀ t, s.controlStore none pa v = .ok t → exec (.hostBar0Access offset 8 (some v)) s = .next t) ∧
              (∀ c, s.controlStore none pa v = .error c → counted (.hostBar0Access offset 8 (some v)))) ∧
            (s.areaHeld pa = false →
              (∀ w t, s.controlLoad pa = .ok (w, t) →
                answers (.hostBar0Access offset 8 none) t (bytesOf 8 w.toNat)) ∧
              (∀ c, s.controlLoad pa = .error c → ones (.hostBar0Access offset 8 none))) ∧
            (s.pageHeld none pa v = true → exec (.hostBar0Access offset 8 (some v)) s =
              .next { s with hostQueue := [.control offset 8 (some v)] }))) ∧
        answers (.hostBar0Access 0x1044000 8 none) s
          (bytesOf 8 (s.bootPhase.toNat + 256 * s.bootResult.toNat)) ∧
        (s.booted = true → s.spanCause offset size true false = none → l.length = size →
          Completes (.hostBar2Access offset size (some l)) s fun t =>
            HbmStored s t (s.keyName 0) offset l ∧ t.strands = s.strands) ∧
        (s.booted = true → s.spanCause offset size false false = none →
          answers (.hostBar2Access offset size none) s (s.hbmRead (s.keyName 0) offset size)) ∧
        (s.booted = false ∨ (s.spanCause offset size true false).isSome = true →
          counted (.hostBar2Access offset size (some l))) ∧
        (s.booted = false ∨ (s.spanCause offset size false false).isSome = true →
          ones (.hostBar2Access offset size none))) ∧
      (s.hostQueue ≠ [] →
        (∀ d, exec (.hostBar0Access offset size d) s =
          .next { s with hostQueue := s.hostQueue ++ [.control offset size d] }) ∧
        ∀ d, exec (.hostBar2Access offset size d) s =
          .next { s with hostQueue := s.hostQueue ++ [.memory offset size d] }) ∧
      exec .hostAtomicop s = .next { s with hosterr := s.hosterr + 1#32, hostAnswer := .unsupported } ∧
      exec .busMasterEnableSet s = .next { s with busMaster := true } ∧
      exec .atomicopRequesterEnable s =
        .next { s with devctl2 := s.devctl2 ||| 0x40#16, atomen := true } ∧
      (s.busMaster = true → (∀ e ∈ s.msixPending,
          (lookupD s.msixTable (2 * e + 1) (msixReset (2 * e + 1))).getLsbD 32 = false) →
        exec .msixPendingSend s =
          .next { s with msixSent := s.msixSent ++ s.msixPending, msixPending := [] })) ∧
    (s.linkUp = false → (∀ d, exec (.hostBar0Access offset size d) s = .next s) ∧
      ∀ d, exec (.hostBar2Access offset size d) s = .next s) ∧
    (s.busMaster = false → exec .msixPendingSend s = .next s) ∧
    exec .busMasterDisable s = .next { s with busMaster := false } ∧
    exec (.pcieLinkUp link) s = .next { s with linkUp := true, link := link } ∧
    (s.requests = [] → exec .hotReset s = .next
      { s with
        linkUp := false, busMaster := false, atomen := false, link := 0#16, msixTable := []
        bars := Vector.replicate 3 0#64, devctl2 := 0#16, hostQueue := [] })

/-- R287, R288, R294, R295: a package reset keeps HBM, the fuses, GEN, the root keys and, when nothing is staged, the
image versions, where a staged set takes effect and the set that ran becomes the previous one; it
leaves the rest at its reset values; each boot phase does its work and advances BOOT, the last presenting the
identity chain; a failed one is recorded, and the previous image set boots; a set of images is staged when it
holds one for each chiplet, each signed and no older than its fuse, and satisfies its manifest; a sensor read
answers the sensor's value. The model's choices (log 46, DEDUCED): the second attempt starts at phase 0 with the
versions before, code 0 is no failure, a set that is not whole is refused, none is staged after a failed boot, the
junctions stay as hot as they are over a reset; the islands that a limit would slow start slowed (log 47, DEDUCED). -/
def Obligations.ResetBootAndFirmware : Prop :=
  ∀ (s : State) (code : BitVec 8) (images : List FirmwareImage) (d : Nat),
    Completes .packageReset s (fun t =>
      t.strands = [] ∧ t.tenants = [] ∧ t.queues = [] ∧ t.chains = [] ∧ t.seals = [] ∧ t.ops = [] ∧
      t.frames = [] ∧ t.ready = [] ∧ t.cores = [] ∧ t.bootPhase = 0#4 ∧ t.bootResult = 0#8 ∧
      t.halted = false ∧ t.linkUp = false ∧ t.pwrlim = 2200#12 ∧ t.trip = 0#2 ∧ t.hosterr = 0#32 ∧
      t.sealSerial = 0#32 ∧ (∀ k, k ≠ 0 → t.key k = KeySlot.empty) ∧ (t.key 0).state = 1#3 ∧
      (∀ d, d < 4 → (t.die d).fence = 0#2 ∧ (t.die d).latch = 0#2 ∧
        (t.die d).harvest = (s.die d).harvest ∧ (t.die d).stewards = (s.die d).stewards) ∧
      t.mem = s.mem ∧ t.mtags = s.mtags ∧ t.mkeys = s.mkeys ∧ t.gen = s.gen ∧ t.fuses = s.fuses ∧
      t.sealkey = s.sealkey ∧ t.provkey = s.provkey ∧ t.staged = [] ∧
      (s.staged = [] → t.fwver = s.fwver ∧ t.fwprev = s.fwprev) ∧
      (s.staged ≠ [] → t.fwprev = s.fwver ∧ ∀ k, k < 13 →
        ((∀ i ∈ s.staged, i.index ≠ k) → t.fwver.toList.getD k 0#32 = s.fwver.toList.getD k 0#32) ∧
        ((s.staged.map (·.index)).Nodup → ∀ i ∈ s.staged, i.index = k →
          t.fwver.toList.getD k 0#32 = i.version)) ∧
      (∀ k, k < 13 → t.junction k = s.junction k) ∧
      t.sealpub = s.sealpub ∧ t.provpub = s.provpub ∧ t.hostMem = s.hostMem) ∧
    (s.halted = false → s.identity = false → s.bootResult = 0#8 →
      (s.bootPhase.toNat < 6 → Completes (.bootPhase .success) s (fun t => t.bootPhase = s.bootPhase + 1#4 ∧
        t.bootResult = 0#8 ∧ t.gen = (if s.bootPhase = 2#4 then s.gen + 1#32 else s.gen) ∧
        (s.bootPhase = 2#4 → t.strands = [] ∧ t.tenants = [] ∧ t.frames = [] ∧ t.ops = []) ∧
        (s.bootPhase ≠ 2#4 → t.strands = s.strands) ∧
        (s.bootPhase = 3#4 → ∀ f, t.modes.toList.getD f 0#8 = 0#8) ∧
        (s.bootPhase = 5#4 → ∀ d i, d < 4 → i < 12 → (t.island d i).ceiling = 1000#12 ∧
          let slows : Prop := 95 < (s.die d).temp.toNat ∨ (i < 9 ∧ s.pwrlim.toNat < s.power.toNat)
          1 ≤ (t.island d i).current.toNat ∧
          (¬ slows → (t.island d i).state = 0#2 ∧ (t.island d i).current.toNat ≤ 1000) ∧
          (slows → (s.die d).temp.toNat ≤ 105 → (t.island d i).state = 1#2 ∧ (t.island d i).current.toNat < 1000 ∧
            t.trip.getLsbD 0 = true) ∧
          (105 < (s.die d).temp.toNat → (t.island d i).state = 3#2 ∧ (t.island d i).current = 250#12 ∧
            t.trip.getLsbD 1 = true)) ∧
        t.mem = s.mem)) ∧
      (s.bootPhase = 6#4 → exec (.bootPhase .success) s = .next { s with identity := true }) ∧
      (code ≠ 0#8 → exec (.bootPhase (.failure code)) s =
        .next { s with bootResult := code, bootRetried := true, halted := s.bootRetried })) ∧
    (s.halted = false → s.identity = false → s.bootResult ≠ 0#8 →
      exec (.bootPhase .success) s =
        .next { s with bootPhase := 0#4, bootResult := 0#8, fwver := s.fwprev }) ∧
    (s.halted = true ∨ s.identity = true → exec (.bootPhase .success) s = .next s) ∧
    (s.linkUp = true → s.bootResult = 0#8 →
      let whole : Prop := (images.map fun i => i.index).Perm (List.range 13)
      let sound (i : FirmwareImage) : Prop := i.verified = true ∧
        (s.fuses.toList.getD i.index 0#32).toNat ≤ i.version.toNat ∧
        ∀ r ∈ i.requires, ∃ j ∈ images, j.index = r.1 ∧ r.2.toNat ≤ j.version.toNat
      (whole → (∀ i ∈ images, sound i) → exec (.firmwareStage images) s = .next { s with staged := images }) ∧
      (¬ whole ∨ (∃ i ∈ images, ¬ sound i) → exec (.firmwareStage images) s = .next s) ∧
      let reads (which : Sensor) (v : Nat) : Prop :=
        exec (.pldmSensorRead which) s = .next { s with hostAnswer := .data (bytesOf 8 v) [] }
      reads .power s.power.toNat ∧ reads .temp s.temp.toNat ∧
      reads (.die d) (if d < 4 then (s.die d).temp.toNat else if d = 4 then s.hubTemp.toNat
        else (s.baseTemps.toList.getD (d - 5) 0#8).toNat)) ∧
    (s.linkUp = false ∨ s.bootResult ≠ 0#8 → exec (.firmwareStage images) s = .next s)

/-- R61, R234 to R237, R242: a peer comes up with a generation, or goes: the held table entries that name it are
discarded, and with it or with its link every store
in flight to it is lost and counted at its strand, a control store that waits for its action there among them; a
request of another package is served under key slot 0
when it bears this package's generation, and answered, a control store when its action is over; an acknowledged
store has been performed. The model's choices (log 45, DEDUCED): a request is refused before boot phase 5 and after
a failed boot, and served under the open key. -/
def Obligations.FabricEvents : Prop :=
  ∀ (s : State) (p pa id : Nat) (gen : BitVec 32) (bytes : List Byte) (r : RemoteStore),
    let lost (t : State) : Prop := t.remote = [] ∧ t.peerMem = s.peerMem ∧
      (t.strand r.strand).rCount = satAdd (s.strand r.strand).rCount 1 ∧
      (t.strand r.strand).rCause = 0x11#8 ∧
      ((s.strand r.strand).rCount = 0#16 → (t.strand r.strand).raddr = r.va.setWidth 57) ∧
      ∀ k, k ≠ r.strand → t.strand k = s.strand k
    let flight : Prop := s.remote = [(id, r)] ∧ r.bytes ≠ []
    let waits (x : Strand) (pa : Nat) (va : Word) : Prop := pkgOf pa = p ∧
      (x.wait = .peerAct pa va ∨ ∃ rd npc, x.wait = .peerSeal pa va rd npc)
    let idle : Prop := ∀ e ∈ s.strands, ∀ pa va, ¬ waits e.2 pa va
    let forgotten (t : State) (x : Peer) : Prop := t.peer p = x ∧ (∀ k, k ≠ p → t.peer k = s.peer k) ∧
      t.stale = if s.peer p = x then s.stale else s.stale.filter fun e => !leafNames e.old p
    ((∀ e ∈ s.remote, pkgOf e.2.pa = p → e.2.gen = gen) → (s.peer p).gen = gen ∨ idle →
      Completes (.peerUp p gen) s fun t => forgotten t { state := 1#2, gen := gen } ∧
        { t with peers := s.peers, stale := s.stale, peerActs := s.peerActs } = s) ∧
    (Completes (.peerStateGone p) s fun t => forgotten t { state := 2#2, gen := (s.peer p).gen } ∧
      ∀ pa ∈ t.peerActs, pkgOf pa ≠ p) ∧
    (∀ n a va, s.strands.countP (fun e => e.1 == n) = 1 → waits (s.strand n) a va →
      (∀ e ∈ s.strands, e.1 ≠ n → ∀ pa va, ¬ waits e.2 pa va) → s.remote = [] →
      let fails (t : State) : Prop := OnlyStrand { s with
          peers := t.peers, stale := t.stale, peerActs := t.peerActs, failing := t.failing, groups := t.groups } t n ∧
        t.strand n = { s.strand n with
          rCount := satAdd (s.strand n).rCount 1, rCause := 0x11#8
          raddr := if (s.strand n).rCount = 0#16 then va.setWidth 57 else (s.strand n).raddr } ∧
        a ∉ t.peerActs
      ((s.peer p).gen ≠ gen → Completes (.peerUp p gen) s fails) ∧
      Completes (.peerStateGone p) s fails ∧ Completes (.trellisLinkFail p) s fails) ∧
    (flight → pkgOf r.pa = p → idle →
      (r.gen ≠ gen → Completes (.peerUp p gen) s fun t => lost t ∧ (t.peer p).gen = gen) ∧
      Completes (.peerStateGone p) s (fun t => lost t ∧
        t.peer p = { state := 2#2, gen := (s.peer p).gen }) ∧
      Completes (.trellisLinkFail p) s fun t => lost t ∧ t.peers = s.peers ∧ p ∈ t.failing) ∧
    (gen ≠ s.gen ∨ s.bootPhase.toNat < 5 ∨ s.bootResult ≠ 0#8 →
      ∀ q, exec (.remoteAccessServe gen q) s = .next { s with peerAnswer := .refused 0x11#8 }) ∧
    (gen = s.gen → 5 ≤ s.bootPhase.toNat → s.bootResult = 0#8 →
      let refused (q : RemoteRequest) (c : Nat) : Prop :=
        exec (.remoteAccessServe gen q) s = .next { s with peerAnswer := .refused (BitVec.ofNat 8 c) }
      (∀ n copy,
        (s.spanCause pa n false copy = none → Completes (.remoteAccessServe gen (.read pa n copy)) s fun t =>
          { t with peerAnswer := s.peerAnswer } = s ∧
          ∃ tags, t.peerAnswer = .data (s.hbmRead (s.keyName 0) pa n) tags) ∧
        (∀ c, s.spanCause pa n false copy = some c → refused (.read pa n copy) c)) ∧
      (s.spanCause pa bytes.length true false = none →
        Completes (.remoteAccessServe gen (.write pa bytes [])) s fun t =>
          HbmStored s t (s.keyName 0) pa bytes ∧ t.peerAnswer = .done ∧ t.strands = s.strands) ∧
      (∀ c tags, s.spanCause pa bytes.length true false = some c → refused (.write pa bytes tags) c) ∧
      (∀ (op : BitVec 4) (wide : Bool) (v w : Word),
        let n := if wide then 8 else 4
        let old := wordOfBytes (s.hbmRead (s.keyName 0) pa n)
        (s.spanCause pa n false false = none → pa % n = 0 → atomicWrites op.toNat n old w = true →
          Completes (.remoteAccessServe gen (.atomic op wide pa v w)) s fun t =>
            HbmStored s t (s.keyName 0) pa (bytesOf n (atomicWord op.toNat n old v w).toNat) ∧
            t.peerAnswer = .data (bytesOf n old.toNat) [] ∧ t.strands = s.strands) ∧
        (pa % n ≠ 0 → refused (.atomic op wide pa v w) 0x03)) ∧
      (∀ v : Word, s.pageHeld none pa v = false →
        (∀ t, s.controlStore none pa v = .ok t →
          (t.actPending pa = false →
            exec (.remoteAccessServe gen (.controlStore pa v)) s = .next { t with peerAnswer := .done }) ∧
          (t.actPending pa = true → exec (.remoteAccessServe gen (.controlStore pa v)) s =
            .next { t with peerAnswer := .none, serving := pa :: t.serving })) ∧
        (∀ c, s.controlStore none pa v = .error c → refused (.controlStore pa v) c))) ∧
    (flight → Completes (.remoteStoreAck id true) s (fun t => t.remote = [] ∧
        (∀ i, (h : i < r.bytes.length) → readByte t.peerMem (r.pa + i) = r.bytes[i]) ∧
        (∀ a, a < r.pa ∨ r.pa + r.bytes.length ≤ a → readByte t.peerMem a = readByte s.peerMem a) ∧
        t.strands = s.strands) ∧
      Completes (.remoteStoreAck id false) s fun t => lost t)

/-- R292: above the power limit F6 slows the fastest cluster island; above 95 °C it slows a die's islands,
above 105 °C it clamps them at 250 MHz, where they stay while it lasts; above 115 °C at any junction it powers the
package down; and a limit that
is over lets the island run within its ceiling, or leaves it throttled when a clamp ends while F6 would slow it. TRIP
records an event that slows an island. The model's choices
(log 47, DEDUCED): a throttle that names no lower frequency leaves the island and TRIP as they are; the frequency
after a limit is over is any within the ceiling; a clamp that ends so leaves 250 MHz; a power-down takes the host's link
down. -/
def Obligations.PowerAndHeatEvents : Prop :=
  ∀ (s : State) (d i : Nat) (mhz : BitVec 12), d < 4 → i < 12 → mhz ≠ 0#12 →
    let x := s.island d i
    let temp := (s.die d).temp.toNat
    let faster (y : Island) : Prop := y.state ≠ 2#2 ∧ y.state ≠ 3#2 ∧ mhz.toNat < y.current.toNat
    let slowed (y z : Island) : Prop :=
      (faster y → z = { y with current := mhz, state := 1#2 }) ∧
      (¬ faster y → z = y)
    let others (t : State) : Prop := { t with dies := s.dies, trip := s.trip } = s ∧
      ∀ e j, e < 4 → j < 12 → ¬ e = d → t.island e j = s.island e j
    (s.pwrlim.toNat < s.power.toNat → i < 9 →
      (∀ e j, e < 4 → j < 9 → (s.island e j).state ≠ 2#2 → (s.island e j).state ≠ 3#2 →
        (s.island e j).current.toNat ≤ x.current.toNat) → faster x →
      Completes (.powerThrottle d i mhz) s fun t => others t ∧ t.trip = s.trip ||| 1#2 ∧
        slowed x (t.island d i) ∧ ∀ j, j < 12 → j ≠ i → t.island d j = s.island d j) ∧
    (s.power.toNat ≤ s.pwrlim.toNat ∨ ¬ faster x → exec (.powerThrottle d i mhz) s = .next s) ∧
    (95 < temp → (∃ j, j < 12 ∧ faster (s.island d j)) →
      Completes (.thermalThrottle d mhz) s fun t => others t ∧ t.trip = s.trip ||| 1#2 ∧
        ∀ j, j < 12 → slowed (s.island d j) (t.island d j)) ∧
    (temp ≤ 95 ∨ (∀ j, j < 12 → ¬ faster (s.island d j)) → exec (.thermalThrottle d mhz) s = .next s) ∧
    (105 < temp → (∃ j, j < 12 ∧ (s.island d j).state ≠ 2#2) →
      Completes (.thermalClamp d) s fun t => others t ∧ t.trip = s.trip ||| 2#2 ∧
        ∀ j, j < 12 → t.island d j = if (s.island d j).state = 2#2 then s.island d j
          else { s.island d j with current := 250#12, state := 3#2 }) ∧
    (temp ≤ 105 ∨ (∀ j, j < 12 → (s.island d j).state = 2#2) → exec (.thermalClamp d) s = .next s) ∧
    (∀ k, k < 13 → 115 < (s.junction k).toNat → s.requests = [] → exec .thermalPowerDown s =
      .next { s with halted := true, linkUp := false, busMaster := false }) ∧
    ((∀ k, k < 13 → (s.junction k).toNat ≤ 115) → exec .thermalPowerDown s = .next s) ∧
    (let slows : Prop := 95 < temp ∨ (i < 9 ∧ s.pwrlim.toNat < s.power.toNat)
     let only (t : State) : Prop := { t with dies := s.dies, trip := s.trip } = s ∧
       ∀ e j, e < 4 → j < 12 → ¬ (e = d ∧ j = i) → t.island e j = s.island e j
     (x.state = 1#2 ∨ (x.state = 3#2 ∧ temp ≤ 105) → ¬ slows → 1 ≤ x.ceiling.toNat →
       Completes (.limitClear d i) s fun t => only t ∧ t.trip = s.trip ∧
         (t.island d i).state = 0#2 ∧ (t.island d i).ceiling = x.ceiling ∧
         1 ≤ (t.island d i).current.toNat ∧ (t.island d i).current.toNat ≤ x.ceiling.toNat) ∧
     (x.state = 3#2 → temp ≤ 105 → slows → Completes (.limitClear d i) s fun t => only t ∧
       t.trip = s.trip ||| 1#2 ∧ t.island d i = { x with state := 1#2 }) ∧
     (x.state = 0#2 ∨ x.state = 2#2 ∨ (x.state = 1#2 ∧ slows) ∨ (x.state = 3#2 ∧ 105 < temp) →
       exec (.limitClear d i) s = .next s))

/-! The whole machine. -/

/-- R287, R65, R55, R73, R99, R267, R292, with the values the model names in log 5, and the bytes of memory that
nothing has written read as zero (log 6, DESIGN CHOICE, unsafe): the package right after
reset. Every strand page, tenant page, queue, chain, seal record and key slot but the open one is free and
zero, every frame is of kind 0, the dies are live and unlatched, boot is at phase 0, PWRLIM is 2,200, and
every memory is in its canonical form. -/
def Obligations.ResetLeavesThePackageFree : Prop :=
  (∀ n, State.reset.strand n = Strand.empty ∧ State.reset.tenant n = Tenant.empty ∧
    State.reset.queue n = Queue.empty ∧ State.reset.chain n = Chain.empty ∧
    State.reset.seal n = SealRecord.empty ∧ State.reset.frameKind n = 0 ∧
    State.reset.core n = Core.empty ∧ readByte State.reset.mem n = 0#8) ∧
  (State.reset.key 0).state = 1#3 ∧ (∀ k, k ≠ 0 → (State.reset.key k).state = 0#3) ∧
  (∀ d, (State.reset.die d).fence = 0#2 ∧ (State.reset.die d).latch = 0#2 ∧
    (State.reset.die d).world = 0#6) ∧
  State.reset.bootPhase = 0#4 ∧ State.reset.bootResult = 0#8 ∧ State.reset.halted = false ∧
  State.reset.pwrlim = 2200#12 ∧ State.reset.trip = 0#2 ∧ State.reset.hosterr = 0#32 ∧
  State.reset.sealSerial = 0#32 ∧ State.reset.memoryWf

/-- R32, R36 to R39, R220: when the schedule lets strand `n` issue, the step fetches the line of its PC, and runs
the instruction it holds there with the address R36 gives after it, once the lane clusters have room for the
vector state it needs; an encoding that is none runs as the step ILLEGAL_ENCODING, which names the target of a transfer
to what is no head slot, an end marker among them (R306, log 12), and an end marker in slot 0
that is reached in sequence leads to the next line. The first instruction of a strand after its creation or its
resumption opens its next region as it completes (R178, R182), and one that meets a STOP of its own or while it waits
issues nothing after it (R67, R68). An instruction that names k15 waits for an older
`mst` of the strand (R326). A well-formed package event of the schedule runs as itself. Time passes with each
(log 8). -/
def Obligations.StepRunsDecoded : Prop :=
  ∀ (s : State) (rest : List Action),
    (∀ n, s.agenda = .issue n :: rest → s.canIssue n = true → (s.strand n).wait = .none →
      let u : State := { s with agenda := rest, cur := n }
      let pc := u.me.pc
      let after (r : Host.Outcome State Fault Refusal) : Host.Outcome State Fault Refusal :=
        onNext State.elapse (onNext (fun v : State => { v with failing := [] }) (onNext (fun v => u.issued v n) r))
      (∀ (line : BitVec 512) (s1 : State), u.fetchLine = .ok (line, s1) →
        (∀ i next, fetchFrom line (pc &&& ~~~63#64) (pc.toNat % 64) = .instr i next →
          (∀ s2, s1.withRoom i = some s2 → step s = after (onNext (fun v => (v.stepWait i).leaveLine i n s1.me.pc)
            (exec i { s2 with npc := next }))) ∧
          (s1.withRoom i = none → step s = after (.next s1)) ∧
          (s1.awaitsK15 i = true → s1.withRoom i = none) ∧
          (s1.awaitsK15 i = false → usesVectorUnit i = false ∨ s1.me.vres = true → s1.withRoom i = some s1)) ∧
        (fetchFrom line (pc &&& ~~~63#64) (pc.toNat % 64) = .illegal →
          (slotAt line (pc.toNat % 64 / 2) ≠ .endMarker false ∨ s1.me.inSequence = true →
            step s = after (exec .illegalEncoding { s1 with npc := 0#64 })) ∧
          (slotAt line (pc.toNat % 64 / 2) = .endMarker false → s1.me.inSequence = false →
            step s = after (exec .illegalEncoding { s1 with npc := pc }))) ∧
        (fetchFrom line (pc &&& ~~~63#64) (pc.toNat % 64) = .notHead →
          (slotAt line 0 ≠ .endMarker true ∨ pc.toNat % 64 ≠ 0 ∨ s1.me.inSequence = false →
            step s = after (exec .illegalEncoding { s1 with npc := pc })) ∧
          (slotAt line 0 = .endMarker true → pc.toNat % 64 = 0 → s1.me.inSequence = true →
            step s = after (.next (s1.updMe fun x => { x with pc := pc + 64#64 }))))) ∧
      (∀ pa key raced, u.resolve u.me.owner.toNat u.me.core pc fetchAccess false =
          .ok (.hbm pa key raced) → s.frameKind pa ≠ 3 → s.poisoned (.hbm pa key raced) 2 = false →
        (u.core u.me.core).icache = [] → (u.core u.me.core).reserved = [] →
        ∃ s1, u.fetchLine = .ok (lineBits (s.hbmRead key (pa - pc.toNat % 64) 64), s1) ∧
          s1.strands = s.strands ∧ s1.mem = s.mem ∧ s1.cur = n)) ∧
    (∀ i, s.agenda = .event i :: rest → isEvent i = true → i.wf = true → s.halted = false →
      step s = onNext State.elapse (exec i { s with agenda := rest }))

/-- R88, R174, R302, R306, R318, R348, R356, R151, R135, R277: words of the manual's examples, those of the line
worked to the byte in spec/03_code_lines_and_assembly.md among them, with the codes of R43 and R46: they decode to the
instructions the examples give them for. -/
def Obligations.DecodesWrittenWords : Prop :=
  decode 0x0600#16 0#48 = .ok .exit ∧
  decode 0x5010#16 0x2140#48 = .ok (.add 0#2 4#5 4#5 5#5) ∧
  decode 0xD098#16 0x3000FFFFFFFF#48 = .ok (.addImm 0#2 6#5 6#5 0xFFFFFFFF#32) ∧
  decode 0xC184#16 0x3000FFFFFFFE#48 = .ok (.bCond 1#5 6#5 0#5 0xFFFFFFFE#32) ∧
  decode 0xD822#16 0xA00500000004#48 = .ok (.ld 2#2 true 2#3 8#5 20#5 4#32) ∧
  decode 0x9A23#16 0x4A800110#48 = .ok (.aadd 3#2 1#2 4#3 8#5 9#5 10#5 0#2) ∧
  decode 0x9491#16 0x298E0000#48 = .ok (.fma 1#2 4#5 5#5 6#5 7#5 0#2) ∧
  decode 0xA404#16 0x10C00000#48 = .ok (.vadd 1#5 2#5 3#5 0#2 0#4 0#2) ∧
  decode 0xAC10#16 0x29804802#48 = .ok (.vfmul 4#5 5#5 6#5 1#2 2#4 0#2) ∧
  decode 0xB5E0#16 0xAE400001#48 = .ok (.mmac true 24#5 21#5 25#5 0#2) ∧
  decode 0xFA20#16 0x530100000103#48 = .ok (.cpy 0#3 1#2 0#2 8#5 10#5 12#5 3#6 4#6) ∧
  decode 0x8D10#16 0xA1400000#48 = .ok (.sealOpen 4#5 20#5 5#5 0#2)

/-- R33 to R37, R43 to R46: for every well-formed instruction, with every operand at every value its encoding
admits, the decoder reads from the encoder's head and tail the instruction itself. -/
def Obligations.DecodeReadsWhatEncodeWrites : Prop :=
  ∀ i : Instr, i.wf = true → isEvent i = false → i ≠ .illegalEncoding →
    ∃ h t, encode i = some (h, t) ∧ decode h t = .ok i ∧ h ≠ 0#16

/-- Every step keeps the canonical form of every memory: HBM's and the scratchpads' bytes and
tags, the host's memory, the other packages' bytes and tags (R131; the form is the model's own, log 6). -/
def Obligations.StepKeepsMemoryCanonical : Prop :=
  ∀ s t : State, s.memoryWf → step s = .next t → t.memoryWf
end

