-- ==== Sys2Proof/Laws/Tables.lean ====
section
/-! SUPPORT. The tables and memories of the state: reading after writing, the canonical form, and what
a write leaves alone. -/

namespace Sys2Proof.Machine

/-! Reading after writing. -/

theorem lookupD_insertAt {α : Type} (t : Table α) (k m : Nat) (v d : α) :
    lookupD (insertAt t k v) m d = if m = k then v else lookupD t m d := by
  induction t with
  | nil => simp [insertAt, lookupD, eq_comm]
  | cons e r ih =>
    obtain ⟨j, u⟩ := e
    by_cases h1 : k < j
    · simp [insertAt, lookupD, h1, eq_comm]
    · by_cases h2 : j = k
      · subst h2; by_cases h : m = j <;> simp [insertAt, lookupD, h, eq_comm]
      · by_cases h : j = m
        · subst h; simp [insertAt, lookupD, h1, h2]
        · simp [insertAt, lookupD, h1, h2, h, ih]

@[simp] theorem lookupD_insertAt_self {α : Type} (t : Table α) (k : Nat) (v d : α) :
    lookupD (insertAt t k v) k d = v := by simp [lookupD_insertAt]

theorem lookupD_insertAt_other {α : Type} (t : Table α) {k m : Nat} (v d : α) (h : m ≠ k) :
    lookupD (insertAt t k v) m d = lookupD t m d := by simp [lookupD_insertAt, h]

/-- The last of two writes of an entry is the one that stays. -/
theorem insertAt_insertAt {α : Type} (t : Table α) (k : Nat) (u v : α) :
    insertAt (insertAt t k u) k v = insertAt t k v := by
  induction t with
  | nil => simp [insertAt]
  | cons e r ih =>
    obtain ⟨j, w⟩ := e
    by_cases h1 : k < j
    · simp [insertAt, h1]
    · by_cases h2 : j = k
      · simp [insertAt, h2]
      · simp [insertAt, h1, h2, ih]

theorem lookupD_removeAt {α : Type} (t : Table α) (k m : Nat) (d : α) :
    lookupD (removeAt t k) m d = if m = k then d else lookupD t m d := by
  induction t with
  | nil => simp [removeAt, lookupD]
  | cons e r ih =>
    obtain ⟨j, u⟩ := e
    by_cases h1 : j = k
    · by_cases h : m = k
      · subst h
        simpa [removeAt, h1] using ih
      · simp [removeAt, lookupD, h1, ih, h, Ne.symm h]
    · by_cases h : j = m
      · simp [removeAt, lookupD, h, h ▸ h1]
      · simp [removeAt, lookupD, h1, h, ih]

theorem lookupD_putAt {n : Nat} (t : Table (BitVec n)) (k m : Nat) (v : BitVec n) :
    lookupD (putAt t k v) m 0#n = if m = k then v else lookupD t m 0#n := by
  unfold putAt
  split
  · next h => by_cases hm : m = k <;> simp [lookupD_removeAt, hm, h]
  · exact lookupD_insertAt t k m v 0#n

@[simp] theorem readByte_writeByte (m : List (Nat × Byte)) (a b : Nat) (v : Byte) :
    readByte (writeByte m a v) b = if b = a then v else readByte m b :=
  lookupD_putAt m a b v

/-- A write of several bytes leaves every address outside them alone. -/
theorem readByte_writeBytes_outside (l : List Byte) (m : List (Nat × Byte)) (a b : Nat)
    (h : b < a ∨ a + l.length ≤ b) : readByte (writeBytes m a l) b = readByte m b := by
  induction l generalizing m a with
  | nil => rfl
  | cons v r ih =>
    simp only [List.length_cons] at h
    rw [writeBytes, ih _ _ (by omega), readByte_writeByte, if_neg (by omega)]

/-- Inside them, the byte written is read. -/
theorem readByte_writeBytes_inside (l : List Byte) (m : List (Nat × Byte)) (a i : Nat)
    (h : i < l.length) : readByte (writeBytes m a l) (a + i) = l.getD i 0#8 := by
  induction l generalizing m a i with
  | nil => simp at h
  | cons v r ih =>
    cases i with
    | zero =>
      rw [writeBytes, readByte_writeBytes_outside _ _ _ _ (by omega)]
      simp
    | succ j =>
      have hj : j < r.length := by simpa using h
      have := ih (writeByte m a v) (a + 1) j hj
      rw [writeBytes, show a + (j + 1) = a + 1 + j by omega, this]
      simp

/-! The canonical form. -/

/-- The keys of a table all pass a bound. -/
def keysAbove {α : Type} (lo : Nat) (t : Table α) : Prop := ∀ e ∈ t, lo < e.1

theorem canonical_cons {n : Nat} (j : Nat) (v : BitVec n) (r : Table (BitVec n)) :
    canonical ((j, v) :: r) = true ↔ v ≠ 0#n ∧ keysAbove j r ∧ canonical r = true := by
  induction r generalizing j v with
  | nil => simp [canonical, keysAbove]
  | cons e r ih =>
    obtain ⟨k, u⟩ := e
    simp only [canonical, Bool.and_eq_true, decide_eq_true_eq, bne_iff_ne, ne_eq, keysAbove,
      List.mem_cons, forall_eq_or_imp]
    constructor
    · rintro ⟨⟨hk, hv⟩, hc⟩
      have := ((ih k u).1 hc).2.1
      exact ⟨hv, ⟨hk, fun e he => lt_trans hk (this e he)⟩, hc⟩
    · rintro ⟨hv, ⟨hk, _⟩, hc⟩
      exact ⟨⟨hk, hv⟩, hc⟩

theorem canonical_filter {n : Nat} (p : Nat × BitVec n → Bool) (t : Table (BitVec n))
    (h : canonical t = true) : canonical (t.filter p) = true := by
  induction t with
  | nil => exact h
  | cons e r ih =>
    obtain ⟨j, v⟩ := e
    rw [canonical_cons] at h
    by_cases hp : p (j, v) = true
    · rw [List.filter_cons_of_pos hp, canonical_cons]
      exact ⟨h.1, fun e he => h.2.1 e (List.mem_of_mem_filter he), ih h.2.2⟩
    · rw [List.filter_cons_of_neg hp]
      exact ih h.2.2

theorem removeAt_eq_filter {α : Type} (t : Table α) (k : Nat) :
    removeAt t k = t.filter fun e => e.1 != k := by
  induction t with
  | nil => rfl
  | cons e r ih =>
    obtain ⟨j, v⟩ := e
    by_cases h : j = k <;> simp [removeAt, h, ih, bne]

theorem mem_insertAt {α : Type} (t : Table α) (k : Nat) (v : α) (e : Nat × α)
    (h : e ∈ insertAt t k v) : e = (k, v) ∨ e ∈ t := by
  induction t with
  | nil => simpa [insertAt] using h
  | cons a r ih =>
    obtain ⟨j, u⟩ := a
    unfold insertAt at h
    split at h
    · simpa [List.mem_cons] using h
    · split at h
      · rcases List.mem_cons.1 h with h | h
        · exact .inl h
        · exact .inr (List.mem_cons_of_mem _ h)
      · rcases List.mem_cons.1 h with h | h
        · exact .inr (h ▸ List.mem_cons_self)
        · exact (ih h).imp id (List.mem_cons_of_mem _)

theorem canonical_insertAt {n : Nat} (t : Table (BitVec n)) (k : Nat) (v : BitVec n) (hv : v ≠ 0#n)
    (h : canonical t = true) : canonical (insertAt t k v) = true := by
  induction t with
  | nil => simpa [insertAt, canonical] using hv
  | cons e r ih =>
    obtain ⟨j, u⟩ := e
    have hc := (canonical_cons j u r).1 h
    by_cases h1 : k < j
    · simp only [insertAt, h1, if_true]
      rw [canonical_cons]
      refine ⟨hv, fun e he => ?_, h⟩
      rcases List.mem_cons.1 he with rfl | he
      · exact h1
      · exact lt_trans h1 (hc.2.1 e he)
    · by_cases h2 : j = k
      · subst h2
        simp only [insertAt, h1, if_false, if_true]
        rw [canonical_cons]
        exact ⟨hv, hc.2.1, hc.2.2⟩
      · simp only [insertAt, h1, h2, if_false]
        rw [canonical_cons]
        refine ⟨hc.1, fun e he => ?_, ih hc.2.2⟩
        rcases mem_insertAt _ _ _ _ he with rfl | he
        · simp only; omega
        · exact hc.2.1 e he

/-- Setting an entry keeps the canonical form. -/
theorem canonical_putAt {n : Nat} (t : Table (BitVec n)) (k : Nat) (v : BitVec n)
    (h : canonical t = true) : canonical (putAt t k v) = true := by
  unfold putAt
  split
  · rw [removeAt_eq_filter]; exact canonical_filter _ _ h
  · next hv => exact canonical_insertAt t k v hv h

/-- Writing a byte keeps the canonical form. -/
theorem writeByte_wf (m : List (Nat × Byte)) (a : Nat) (b : Byte) (h : Memory.wf m = true) :
    Memory.wf (writeByte m a b) = true := canonical_putAt m a b h

/-- Writing bytes keeps the canonical form. -/
theorem writeBytes_wf (l : List Byte) (m : List (Nat × Byte)) (a : Nat) (h : Memory.wf m = true) :
    Memory.wf (writeBytes m a l) = true := by
  induction l generalizing m a with
  | nil => exact h
  | cons b r ih => exact ih _ _ (writeByte_wf m a b h)

/-- Dropping a range of addresses keeps the canonical form. -/
theorem keepKeys_wf {n : Nat} (p : Nat → Bool) (t : Table (BitVec n)) (h : canonical t = true) :
    canonical (keepKeys p t) = true := canonical_filter _ t h

/-- Two memories in canonical form that read alike are the same data. -/
theorem canonical_ext {n : Nat} (t u : Table (BitVec n)) (ht : canonical t = true)
    (hu : canonical u = true) (h : ∀ k, lookupD t k 0#n = lookupD u k 0#n) : t = u := by
  have above : ∀ (j : Nat) (r : Table (BitVec n)), keysAbove j r → ∀ m, m ≤ j → lookupD r m 0#n = 0#n := by
    intro j r
    induction r with
    | nil => intros; rfl
    | cons e r ih =>
      intro hk m hm
      have h1 : j < e.1 := hk e List.mem_cons_self
      rw [lookupD, if_neg (by omega)]
      exact ih (fun e he => hk e (List.mem_cons_of_mem _ he)) m hm
  induction t generalizing u with
  | nil =>
    cases u with
    | nil => rfl
    | cons e r =>
      have := (canonical_cons e.1 e.2 r).1 hu
      have h0 := h e.1
      simp [lookupD] at h0
      exact absurd h0.symm this.1
  | cons e r ih =>
    have hc := (canonical_cons e.1 e.2 r).1 ht
    cases u with
    | nil =>
      have h0 := h e.1
      simp [lookupD] at h0
      exact absurd h0 hc.1
    | cons f q =>
      obtain ⟨j, v⟩ := e
      obtain ⟨k, w⟩ := f
      have hd := (canonical_cons k w q).1 hu
      have hjk : j = k := by
        rcases lt_trichotomy j k with hlt | heq | hgt
        · have h0 := h j
          simp only [lookupD, if_true] at h0
          rw [if_neg (by omega), above k q hd.2.1 j (by omega)] at h0
          exact absurd h0 hc.1
        · exact heq
        · have h0 := h k
          simp only [lookupD, if_true] at h0
          rw [if_neg (by omega), above j r hc.2.1 k (by omega)] at h0
          exact absurd h0.symm hd.1
      subst hjk
      have hvw : v = w := by simpa [lookupD] using h j
      subst hvw
      congr 1
      refine ih q hc.2.2 hd.2.2 fun m => ?_
      have hm := h m
      by_cases hmj : j = m
      · subst hmj
        rw [above j r hc.2.1 j le_rfl, above j q hd.2.1 j le_rfl]
      · simpa [lookupD, hmj] using hm

end Sys2Proof.Machine
end

