-- ==== Sys2Proof/Laws/State.lean ====
section
/-! SUPPORT. The fields of the state under each update: one lemma per field and update, and what reading
a part gives after it is replaced. -/

namespace Sys2Proof.Machine

variable (s : State)

/-! `State.setStrand` changes `strands` alone. -/

@[simp] theorem State.setStrand_agenda (n : Nat) (x : Strand) : (s.setStrand n x).agenda = s.agenda := rfl
@[simp] theorem State.setStrand_cur (n : Nat) (x : Strand) : (s.setStrand n x).cur = s.cur := rfl
@[simp] theorem State.setStrand_npc (n : Nat) (x : Strand) : (s.setStrand n x).npc = s.npc := rfl
@[simp] theorem State.setStrand_tick (n : Nat) (x : Strand) : (s.setStrand n x).tick = s.tick := rfl
@[simp] theorem State.setStrand_nextId (n : Nat) (x : Strand) : (s.setStrand n x).nextId = s.nextId := rfl
@[simp] theorem State.setStrand_time (n : Nat) (x : Strand) : (s.setStrand n x).time = s.time := rfl
@[simp] theorem State.setStrand_package (n : Nat) (x : Strand) : (s.setStrand n x).package = s.package := rfl
@[simp] theorem State.setStrand_hosterr (n : Nat) (x : Strand) : (s.setStrand n x).hosterr = s.hosterr := rfl
@[simp] theorem State.setStrand_gen (n : Nat) (x : Strand) : (s.setStrand n x).gen = s.gen := rfl
@[simp] theorem State.setStrand_domain (n : Nat) (x : Strand) : (s.setStrand n x).domain = s.domain := rfl
@[simp] theorem State.setStrand_link (n : Nat) (x : Strand) : (s.setStrand n x).link = s.link := rfl
@[simp] theorem State.setStrand_atomen (n : Nat) (x : Strand) : (s.setStrand n x).atomen = s.atomen := rfl
@[simp] theorem State.setStrand_win (n : Nat) (x : Strand) : (s.setStrand n x).win = s.win := rfl
@[simp] theorem State.setStrand_route (n : Nat) (x : Strand) : (s.setStrand n x).route = s.route := rfl
@[simp] theorem State.setStrand_modes (n : Nat) (x : Strand) : (s.setStrand n x).modes = s.modes := rfl
@[simp] theorem State.setStrand_sealpub (n : Nat) (x : Strand) : (s.setStrand n x).sealpub = s.sealpub := rfl
@[simp] theorem State.setStrand_provpub (n : Nat) (x : Strand) : (s.setStrand n x).provpub = s.provpub := rfl
@[simp] theorem State.setStrand_sealkey (n : Nat) (x : Strand) : (s.setStrand n x).sealkey = s.sealkey := rfl
@[simp] theorem State.setStrand_provkey (n : Nat) (x : Strand) : (s.setStrand n x).provkey = s.provkey := rfl
@[simp] theorem State.setStrand_bootPhase (n : Nat) (x : Strand) : (s.setStrand n x).bootPhase = s.bootPhase := rfl
@[simp] theorem State.setStrand_bootResult (n : Nat) (x : Strand) : (s.setStrand n x).bootResult = s.bootResult := rfl
@[simp] theorem State.setStrand_bootRetried (n : Nat) (x : Strand) : (s.setStrand n x).bootRetried = s.bootRetried := rfl
@[simp] theorem State.setStrand_identity (n : Nat) (x : Strand) : (s.setStrand n x).identity = s.identity := rfl
@[simp] theorem State.setStrand_halted (n : Nat) (x : Strand) : (s.setStrand n x).halted = s.halted := rfl
@[simp] theorem State.setStrand_pwrlim (n : Nat) (x : Strand) : (s.setStrand n x).pwrlim = s.pwrlim := rfl
@[simp] theorem State.setStrand_power (n : Nat) (x : Strand) : (s.setStrand n x).power = s.power := rfl
@[simp] theorem State.setStrand_temp (n : Nat) (x : Strand) : (s.setStrand n x).temp = s.temp := rfl
@[simp] theorem State.setStrand_trip (n : Nat) (x : Strand) : (s.setStrand n x).trip = s.trip := rfl
@[simp] theorem State.setStrand_fwver (n : Nat) (x : Strand) : (s.setStrand n x).fwver = s.fwver := rfl
@[simp] theorem State.setStrand_staged (n : Nat) (x : Strand) : (s.setStrand n x).staged = s.staged := rfl
@[simp] theorem State.setStrand_fwprev (n : Nat) (x : Strand) : (s.setStrand n x).fwprev = s.fwprev := rfl
@[simp] theorem State.setStrand_fuses (n : Nat) (x : Strand) : (s.setStrand n x).fuses = s.fuses := rfl
@[simp] theorem State.setStrand_hubTemp (n : Nat) (x : Strand) : (s.setStrand n x).hubTemp = s.hubTemp := rfl
@[simp] theorem State.setStrand_baseTemps (n : Nat) (x : Strand) : (s.setStrand n x).baseTemps = s.baseTemps := rfl
@[simp] theorem State.setStrand_peers (n : Nat) (x : Strand) : (s.setStrand n x).peers = s.peers := rfl
@[simp] theorem State.setStrand_linkUp (n : Nat) (x : Strand) : (s.setStrand n x).linkUp = s.linkUp := rfl
@[simp] theorem State.setStrand_busMaster (n : Nat) (x : Strand) : (s.setStrand n x).busMaster = s.busMaster := rfl
@[simp] theorem State.setStrand_msixPending (n : Nat) (x : Strand) : (s.setStrand n x).msixPending = s.msixPending := rfl
@[simp] theorem State.setStrand_msixSent (n : Nat) (x : Strand) : (s.setStrand n x).msixSent = s.msixSent := rfl
@[simp] theorem State.setStrand_msixTable (n : Nat) (x : Strand) : (s.setStrand n x).msixTable = s.msixTable := rfl
@[simp] theorem State.setStrand_bars (n : Nat) (x : Strand) : (s.setStrand n x).bars = s.bars := rfl
@[simp] theorem State.setStrand_devctl2 (n : Nat) (x : Strand) : (s.setStrand n x).devctl2 = s.devctl2 := rfl
@[simp] theorem State.setStrand_hostQueue (n : Nat) (x : Strand) : (s.setStrand n x).hostQueue = s.hostQueue := rfl
@[simp] theorem State.setStrand_hostAnswer (n : Nat) (x : Strand) : (s.setStrand n x).hostAnswer = s.hostAnswer := rfl
@[simp] theorem State.setStrand_peerAnswer (n : Nat) (x : Strand) : (s.setStrand n x).peerAnswer = s.peerAnswer := rfl
@[simp] theorem State.setStrand_sealSerial (n : Nat) (x : Strand) : (s.setStrand n x).sealSerial = s.sealSerial := rfl
@[simp] theorem State.setStrand_keyNames (n : Nat) (x : Strand) : (s.setStrand n x).keyNames = s.keyNames := rfl
@[simp] theorem State.setStrand_dies (n : Nat) (x : Strand) : (s.setStrand n x).dies = s.dies := rfl
@[simp] theorem State.setStrand_cores (n : Nat) (x : Strand) : (s.setStrand n x).cores = s.cores := rfl
@[simp] theorem State.setStrand_tenants (n : Nat) (x : Strand) : (s.setStrand n x).tenants = s.tenants := rfl
@[simp] theorem State.setStrand_queues (n : Nat) (x : Strand) : (s.setStrand n x).queues = s.queues := rfl
@[simp] theorem State.setStrand_chains (n : Nat) (x : Strand) : (s.setStrand n x).chains = s.chains := rfl
@[simp] theorem State.setStrand_keys (n : Nat) (x : Strand) : (s.setStrand n x).keys = s.keys := rfl
@[simp] theorem State.setStrand_seals (n : Nat) (x : Strand) : (s.setStrand n x).seals = s.seals := rfl
@[simp] theorem State.setStrand_groups (n : Nat) (x : Strand) : (s.setStrand n x).groups = s.groups := rfl
@[simp] theorem State.setStrand_ready (n : Nat) (x : Strand) : (s.setStrand n x).ready = s.ready := rfl
@[simp] theorem State.setStrand_closes (n : Nat) (x : Strand) : (s.setStrand n x).closes = s.closes := rfl
@[simp] theorem State.setStrand_frames (n : Nat) (x : Strand) : (s.setStrand n x).frames = s.frames := rfl
@[simp] theorem State.setStrand_mem (n : Nat) (x : Strand) : (s.setStrand n x).mem = s.mem := rfl
@[simp] theorem State.setStrand_mtags (n : Nat) (x : Strand) : (s.setStrand n x).mtags = s.mtags := rfl
@[simp] theorem State.setStrand_mkeys (n : Nat) (x : Strand) : (s.setStrand n x).mkeys = s.mkeys := rfl
@[simp] theorem State.setStrand_poison (n : Nat) (x : Strand) : (s.setStrand n x).poison = s.poison := rfl
@[simp] theorem State.setStrand_stale (n : Nat) (x : Strand) : (s.setStrand n x).stale = s.stale := rfl
@[simp] theorem State.setStrand_races (n : Nat) (x : Strand) : (s.setStrand n x).races = s.races := rfl
@[simp] theorem State.setStrand_nextRegion (n : Nat) (x : Strand) : (s.setStrand n x).nextRegion = s.nextRegion := rfl
@[simp] theorem State.setStrand_ops (n : Nat) (x : Strand) : (s.setStrand n x).ops = s.ops := rfl
@[simp] theorem State.setStrand_requests (n : Nat) (x : Strand) : (s.setStrand n x).requests = s.requests := rfl
@[simp] theorem State.setStrand_remote (n : Nat) (x : Strand) : (s.setStrand n x).remote = s.remote := rfl
@[simp] theorem State.setStrand_hostMem (n : Nat) (x : Strand) : (s.setStrand n x).hostMem = s.hostMem := rfl
@[simp] theorem State.setStrand_peerMem (n : Nat) (x : Strand) : (s.setStrand n x).peerMem = s.peerMem := rfl
@[simp] theorem State.setStrand_peerTags (n : Nat) (x : Strand) : (s.setStrand n x).peerTags = s.peerTags := rfl
@[simp] theorem State.setStrand_peerCtl (n : Nat) (x : Strand) : (s.setStrand n x).peerCtl = s.peerCtl := rfl
@[simp] theorem State.setStrand_peerRefuse (n : Nat) (x : Strand) : (s.setStrand n x).peerRefuse = s.peerRefuse := rfl
@[simp] theorem State.setStrand_peerCtlRefuse (n : Nat) (x : Strand) : (s.setStrand n x).peerCtlRefuse = s.peerCtlRefuse := rfl
@[simp] theorem State.setStrand_peerGens (n : Nat) (x : Strand) : (s.setStrand n x).peerGens = s.peerGens := rfl
@[simp] theorem State.setStrand_peerActs (n : Nat) (x : Strand) : (s.setStrand n x).peerActs = s.peerActs := rfl
@[simp] theorem State.setStrand_serving (n : Nat) (x : Strand) : (s.setStrand n x).serving = s.serving := rfl
@[simp] theorem State.setStrand_failing (n : Nat) (x : Strand) : (s.setStrand n x).failing = s.failing := rfl

/-! `State.updStrand` changes `strands` alone. -/

@[simp] theorem State.updStrand_agenda (n : Nat) (f : Strand → Strand) : (s.updStrand n f).agenda = s.agenda := rfl
@[simp] theorem State.updStrand_cur (n : Nat) (f : Strand → Strand) : (s.updStrand n f).cur = s.cur := rfl
@[simp] theorem State.updStrand_npc (n : Nat) (f : Strand → Strand) : (s.updStrand n f).npc = s.npc := rfl
@[simp] theorem State.updStrand_tick (n : Nat) (f : Strand → Strand) : (s.updStrand n f).tick = s.tick := rfl
@[simp] theorem State.updStrand_nextId (n : Nat) (f : Strand → Strand) : (s.updStrand n f).nextId = s.nextId := rfl
@[simp] theorem State.updStrand_time (n : Nat) (f : Strand → Strand) : (s.updStrand n f).time = s.time := rfl
@[simp] theorem State.updStrand_package (n : Nat) (f : Strand → Strand) : (s.updStrand n f).package = s.package := rfl
@[simp] theorem State.updStrand_hosterr (n : Nat) (f : Strand → Strand) : (s.updStrand n f).hosterr = s.hosterr := rfl
@[simp] theorem State.updStrand_gen (n : Nat) (f : Strand → Strand) : (s.updStrand n f).gen = s.gen := rfl
@[simp] theorem State.updStrand_domain (n : Nat) (f : Strand → Strand) : (s.updStrand n f).domain = s.domain := rfl
@[simp] theorem State.updStrand_link (n : Nat) (f : Strand → Strand) : (s.updStrand n f).link = s.link := rfl
@[simp] theorem State.updStrand_atomen (n : Nat) (f : Strand → Strand) : (s.updStrand n f).atomen = s.atomen := rfl
@[simp] theorem State.updStrand_win (n : Nat) (f : Strand → Strand) : (s.updStrand n f).win = s.win := rfl
@[simp] theorem State.updStrand_route (n : Nat) (f : Strand → Strand) : (s.updStrand n f).route = s.route := rfl
@[simp] theorem State.updStrand_modes (n : Nat) (f : Strand → Strand) : (s.updStrand n f).modes = s.modes := rfl
@[simp] theorem State.updStrand_sealpub (n : Nat) (f : Strand → Strand) : (s.updStrand n f).sealpub = s.sealpub := rfl
@[simp] theorem State.updStrand_provpub (n : Nat) (f : Strand → Strand) : (s.updStrand n f).provpub = s.provpub := rfl
@[simp] theorem State.updStrand_sealkey (n : Nat) (f : Strand → Strand) : (s.updStrand n f).sealkey = s.sealkey := rfl
@[simp] theorem State.updStrand_provkey (n : Nat) (f : Strand → Strand) : (s.updStrand n f).provkey = s.provkey := rfl
@[simp] theorem State.updStrand_bootPhase (n : Nat) (f : Strand → Strand) : (s.updStrand n f).bootPhase = s.bootPhase := rfl
@[simp] theorem State.updStrand_bootResult (n : Nat) (f : Strand → Strand) : (s.updStrand n f).bootResult = s.bootResult := rfl
@[simp] theorem State.updStrand_bootRetried (n : Nat) (f : Strand → Strand) : (s.updStrand n f).bootRetried = s.bootRetried := rfl
@[simp] theorem State.updStrand_identity (n : Nat) (f : Strand → Strand) : (s.updStrand n f).identity = s.identity := rfl
@[simp] theorem State.updStrand_halted (n : Nat) (f : Strand → Strand) : (s.updStrand n f).halted = s.halted := rfl
@[simp] theorem State.updStrand_pwrlim (n : Nat) (f : Strand → Strand) : (s.updStrand n f).pwrlim = s.pwrlim := rfl
@[simp] theorem State.updStrand_power (n : Nat) (f : Strand → Strand) : (s.updStrand n f).power = s.power := rfl
@[simp] theorem State.updStrand_temp (n : Nat) (f : Strand → Strand) : (s.updStrand n f).temp = s.temp := rfl
@[simp] theorem State.updStrand_trip (n : Nat) (f : Strand → Strand) : (s.updStrand n f).trip = s.trip := rfl
@[simp] theorem State.updStrand_fwver (n : Nat) (f : Strand → Strand) : (s.updStrand n f).fwver = s.fwver := rfl
@[simp] theorem State.updStrand_staged (n : Nat) (f : Strand → Strand) : (s.updStrand n f).staged = s.staged := rfl
@[simp] theorem State.updStrand_fwprev (n : Nat) (f : Strand → Strand) : (s.updStrand n f).fwprev = s.fwprev := rfl
@[simp] theorem State.updStrand_fuses (n : Nat) (f : Strand → Strand) : (s.updStrand n f).fuses = s.fuses := rfl
@[simp] theorem State.updStrand_hubTemp (n : Nat) (f : Strand → Strand) : (s.updStrand n f).hubTemp = s.hubTemp := rfl
@[simp] theorem State.updStrand_baseTemps (n : Nat) (f : Strand → Strand) : (s.updStrand n f).baseTemps = s.baseTemps := rfl
@[simp] theorem State.updStrand_peers (n : Nat) (f : Strand → Strand) : (s.updStrand n f).peers = s.peers := rfl
@[simp] theorem State.updStrand_linkUp (n : Nat) (f : Strand → Strand) : (s.updStrand n f).linkUp = s.linkUp := rfl
@[simp] theorem State.updStrand_busMaster (n : Nat) (f : Strand → Strand) : (s.updStrand n f).busMaster = s.busMaster := rfl
@[simp] theorem State.updStrand_msixPending (n : Nat) (f : Strand → Strand) : (s.updStrand n f).msixPending = s.msixPending := rfl
@[simp] theorem State.updStrand_msixSent (n : Nat) (f : Strand → Strand) : (s.updStrand n f).msixSent = s.msixSent := rfl
@[simp] theorem State.updStrand_msixTable (n : Nat) (f : Strand → Strand) : (s.updStrand n f).msixTable = s.msixTable := rfl
@[simp] theorem State.updStrand_bars (n : Nat) (f : Strand → Strand) : (s.updStrand n f).bars = s.bars := rfl
@[simp] theorem State.updStrand_devctl2 (n : Nat) (f : Strand → Strand) : (s.updStrand n f).devctl2 = s.devctl2 := rfl
@[simp] theorem State.updStrand_hostQueue (n : Nat) (f : Strand → Strand) : (s.updStrand n f).hostQueue = s.hostQueue := rfl
@[simp] theorem State.updStrand_hostAnswer (n : Nat) (f : Strand → Strand) : (s.updStrand n f).hostAnswer = s.hostAnswer := rfl
@[simp] theorem State.updStrand_peerAnswer (n : Nat) (f : Strand → Strand) : (s.updStrand n f).peerAnswer = s.peerAnswer := rfl
@[simp] theorem State.updStrand_sealSerial (n : Nat) (f : Strand → Strand) : (s.updStrand n f).sealSerial = s.sealSerial := rfl
@[simp] theorem State.updStrand_keyNames (n : Nat) (f : Strand → Strand) : (s.updStrand n f).keyNames = s.keyNames := rfl
@[simp] theorem State.updStrand_dies (n : Nat) (f : Strand → Strand) : (s.updStrand n f).dies = s.dies := rfl
@[simp] theorem State.updStrand_cores (n : Nat) (f : Strand → Strand) : (s.updStrand n f).cores = s.cores := rfl
@[simp] theorem State.updStrand_tenants (n : Nat) (f : Strand → Strand) : (s.updStrand n f).tenants = s.tenants := rfl
@[simp] theorem State.updStrand_queues (n : Nat) (f : Strand → Strand) : (s.updStrand n f).queues = s.queues := rfl
@[simp] theorem State.updStrand_chains (n : Nat) (f : Strand → Strand) : (s.updStrand n f).chains = s.chains := rfl
@[simp] theorem State.updStrand_keys (n : Nat) (f : Strand → Strand) : (s.updStrand n f).keys = s.keys := rfl
@[simp] theorem State.updStrand_seals (n : Nat) (f : Strand → Strand) : (s.updStrand n f).seals = s.seals := rfl
@[simp] theorem State.updStrand_groups (n : Nat) (f : Strand → Strand) : (s.updStrand n f).groups = s.groups := rfl
@[simp] theorem State.updStrand_ready (n : Nat) (f : Strand → Strand) : (s.updStrand n f).ready = s.ready := rfl
@[simp] theorem State.updStrand_closes (n : Nat) (f : Strand → Strand) : (s.updStrand n f).closes = s.closes := rfl
@[simp] theorem State.updStrand_frames (n : Nat) (f : Strand → Strand) : (s.updStrand n f).frames = s.frames := rfl
@[simp] theorem State.updStrand_mem (n : Nat) (f : Strand → Strand) : (s.updStrand n f).mem = s.mem := rfl
@[simp] theorem State.updStrand_mtags (n : Nat) (f : Strand → Strand) : (s.updStrand n f).mtags = s.mtags := rfl
@[simp] theorem State.updStrand_mkeys (n : Nat) (f : Strand → Strand) : (s.updStrand n f).mkeys = s.mkeys := rfl
@[simp] theorem State.updStrand_poison (n : Nat) (f : Strand → Strand) : (s.updStrand n f).poison = s.poison := rfl
@[simp] theorem State.updStrand_stale (n : Nat) (f : Strand → Strand) : (s.updStrand n f).stale = s.stale := rfl
@[simp] theorem State.updStrand_races (n : Nat) (f : Strand → Strand) : (s.updStrand n f).races = s.races := rfl
@[simp] theorem State.updStrand_nextRegion (n : Nat) (f : Strand → Strand) : (s.updStrand n f).nextRegion = s.nextRegion := rfl
@[simp] theorem State.updStrand_ops (n : Nat) (f : Strand → Strand) : (s.updStrand n f).ops = s.ops := rfl
@[simp] theorem State.updStrand_requests (n : Nat) (f : Strand → Strand) : (s.updStrand n f).requests = s.requests := rfl
@[simp] theorem State.updStrand_remote (n : Nat) (f : Strand → Strand) : (s.updStrand n f).remote = s.remote := rfl
@[simp] theorem State.updStrand_hostMem (n : Nat) (f : Strand → Strand) : (s.updStrand n f).hostMem = s.hostMem := rfl
@[simp] theorem State.updStrand_peerMem (n : Nat) (f : Strand → Strand) : (s.updStrand n f).peerMem = s.peerMem := rfl
@[simp] theorem State.updStrand_peerTags (n : Nat) (f : Strand → Strand) : (s.updStrand n f).peerTags = s.peerTags := rfl
@[simp] theorem State.updStrand_peerCtl (n : Nat) (f : Strand → Strand) : (s.updStrand n f).peerCtl = s.peerCtl := rfl
@[simp] theorem State.updStrand_peerRefuse (n : Nat) (f : Strand → Strand) : (s.updStrand n f).peerRefuse = s.peerRefuse := rfl
@[simp] theorem State.updStrand_peerCtlRefuse (n : Nat) (f : Strand → Strand) : (s.updStrand n f).peerCtlRefuse = s.peerCtlRefuse := rfl
@[simp] theorem State.updStrand_peerGens (n : Nat) (f : Strand → Strand) : (s.updStrand n f).peerGens = s.peerGens := rfl
@[simp] theorem State.updStrand_peerActs (n : Nat) (f : Strand → Strand) : (s.updStrand n f).peerActs = s.peerActs := rfl
@[simp] theorem State.updStrand_serving (n : Nat) (f : Strand → Strand) : (s.updStrand n f).serving = s.serving := rfl
@[simp] theorem State.updStrand_failing (n : Nat) (f : Strand → Strand) : (s.updStrand n f).failing = s.failing := rfl

/-! `State.updMe` changes `strands` alone. -/

@[simp] theorem State.updMe_agenda (f : Strand → Strand) : (s.updMe f).agenda = s.agenda := rfl
@[simp] theorem State.updMe_cur (f : Strand → Strand) : (s.updMe f).cur = s.cur := rfl
@[simp] theorem State.updMe_npc (f : Strand → Strand) : (s.updMe f).npc = s.npc := rfl
@[simp] theorem State.updMe_tick (f : Strand → Strand) : (s.updMe f).tick = s.tick := rfl
@[simp] theorem State.updMe_nextId (f : Strand → Strand) : (s.updMe f).nextId = s.nextId := rfl
@[simp] theorem State.updMe_time (f : Strand → Strand) : (s.updMe f).time = s.time := rfl
@[simp] theorem State.updMe_package (f : Strand → Strand) : (s.updMe f).package = s.package := rfl
@[simp] theorem State.updMe_hosterr (f : Strand → Strand) : (s.updMe f).hosterr = s.hosterr := rfl
@[simp] theorem State.updMe_gen (f : Strand → Strand) : (s.updMe f).gen = s.gen := rfl
@[simp] theorem State.updMe_domain (f : Strand → Strand) : (s.updMe f).domain = s.domain := rfl
@[simp] theorem State.updMe_link (f : Strand → Strand) : (s.updMe f).link = s.link := rfl
@[simp] theorem State.updMe_atomen (f : Strand → Strand) : (s.updMe f).atomen = s.atomen := rfl
@[simp] theorem State.updMe_win (f : Strand → Strand) : (s.updMe f).win = s.win := rfl
@[simp] theorem State.updMe_route (f : Strand → Strand) : (s.updMe f).route = s.route := rfl
@[simp] theorem State.updMe_modes (f : Strand → Strand) : (s.updMe f).modes = s.modes := rfl
@[simp] theorem State.updMe_sealpub (f : Strand → Strand) : (s.updMe f).sealpub = s.sealpub := rfl
@[simp] theorem State.updMe_provpub (f : Strand → Strand) : (s.updMe f).provpub = s.provpub := rfl
@[simp] theorem State.updMe_sealkey (f : Strand → Strand) : (s.updMe f).sealkey = s.sealkey := rfl
@[simp] theorem State.updMe_provkey (f : Strand → Strand) : (s.updMe f).provkey = s.provkey := rfl
@[simp] theorem State.updMe_bootPhase (f : Strand → Strand) : (s.updMe f).bootPhase = s.bootPhase := rfl
@[simp] theorem State.updMe_bootResult (f : Strand → Strand) : (s.updMe f).bootResult = s.bootResult := rfl
@[simp] theorem State.updMe_bootRetried (f : Strand → Strand) : (s.updMe f).bootRetried = s.bootRetried := rfl
@[simp] theorem State.updMe_identity (f : Strand → Strand) : (s.updMe f).identity = s.identity := rfl
@[simp] theorem State.updMe_halted (f : Strand → Strand) : (s.updMe f).halted = s.halted := rfl
@[simp] theorem State.updMe_pwrlim (f : Strand → Strand) : (s.updMe f).pwrlim = s.pwrlim := rfl
@[simp] theorem State.updMe_power (f : Strand → Strand) : (s.updMe f).power = s.power := rfl
@[simp] theorem State.updMe_temp (f : Strand → Strand) : (s.updMe f).temp = s.temp := rfl
@[simp] theorem State.updMe_trip (f : Strand → Strand) : (s.updMe f).trip = s.trip := rfl
@[simp] theorem State.updMe_fwver (f : Strand → Strand) : (s.updMe f).fwver = s.fwver := rfl
@[simp] theorem State.updMe_staged (f : Strand → Strand) : (s.updMe f).staged = s.staged := rfl
@[simp] theorem State.updMe_fwprev (f : Strand → Strand) : (s.updMe f).fwprev = s.fwprev := rfl
@[simp] theorem State.updMe_fuses (f : Strand → Strand) : (s.updMe f).fuses = s.fuses := rfl
@[simp] theorem State.updMe_hubTemp (f : Strand → Strand) : (s.updMe f).hubTemp = s.hubTemp := rfl
@[simp] theorem State.updMe_baseTemps (f : Strand → Strand) : (s.updMe f).baseTemps = s.baseTemps := rfl
@[simp] theorem State.updMe_peers (f : Strand → Strand) : (s.updMe f).peers = s.peers := rfl
@[simp] theorem State.updMe_linkUp (f : Strand → Strand) : (s.updMe f).linkUp = s.linkUp := rfl
@[simp] theorem State.updMe_busMaster (f : Strand → Strand) : (s.updMe f).busMaster = s.busMaster := rfl
@[simp] theorem State.updMe_msixPending (f : Strand → Strand) : (s.updMe f).msixPending = s.msixPending := rfl
@[simp] theorem State.updMe_msixSent (f : Strand → Strand) : (s.updMe f).msixSent = s.msixSent := rfl
@[simp] theorem State.updMe_msixTable (f : Strand → Strand) : (s.updMe f).msixTable = s.msixTable := rfl
@[simp] theorem State.updMe_bars (f : Strand → Strand) : (s.updMe f).bars = s.bars := rfl
@[simp] theorem State.updMe_devctl2 (f : Strand → Strand) : (s.updMe f).devctl2 = s.devctl2 := rfl
@[simp] theorem State.updMe_hostQueue (f : Strand → Strand) : (s.updMe f).hostQueue = s.hostQueue := rfl
@[simp] theorem State.updMe_hostAnswer (f : Strand → Strand) : (s.updMe f).hostAnswer = s.hostAnswer := rfl
@[simp] theorem State.updMe_peerAnswer (f : Strand → Strand) : (s.updMe f).peerAnswer = s.peerAnswer := rfl
@[simp] theorem State.updMe_sealSerial (f : Strand → Strand) : (s.updMe f).sealSerial = s.sealSerial := rfl
@[simp] theorem State.updMe_keyNames (f : Strand → Strand) : (s.updMe f).keyNames = s.keyNames := rfl
@[simp] theorem State.updMe_dies (f : Strand → Strand) : (s.updMe f).dies = s.dies := rfl
@[simp] theorem State.updMe_cores (f : Strand → Strand) : (s.updMe f).cores = s.cores := rfl
@[simp] theorem State.updMe_tenants (f : Strand → Strand) : (s.updMe f).tenants = s.tenants := rfl
@[simp] theorem State.updMe_queues (f : Strand → Strand) : (s.updMe f).queues = s.queues := rfl
@[simp] theorem State.updMe_chains (f : Strand → Strand) : (s.updMe f).chains = s.chains := rfl
@[simp] theorem State.updMe_keys (f : Strand → Strand) : (s.updMe f).keys = s.keys := rfl
@[simp] theorem State.updMe_seals (f : Strand → Strand) : (s.updMe f).seals = s.seals := rfl
@[simp] theorem State.updMe_groups (f : Strand → Strand) : (s.updMe f).groups = s.groups := rfl
@[simp] theorem State.updMe_ready (f : Strand → Strand) : (s.updMe f).ready = s.ready := rfl
@[simp] theorem State.updMe_closes (f : Strand → Strand) : (s.updMe f).closes = s.closes := rfl
@[simp] theorem State.updMe_frames (f : Strand → Strand) : (s.updMe f).frames = s.frames := rfl
@[simp] theorem State.updMe_mem (f : Strand → Strand) : (s.updMe f).mem = s.mem := rfl
@[simp] theorem State.updMe_mtags (f : Strand → Strand) : (s.updMe f).mtags = s.mtags := rfl
@[simp] theorem State.updMe_mkeys (f : Strand → Strand) : (s.updMe f).mkeys = s.mkeys := rfl
@[simp] theorem State.updMe_poison (f : Strand → Strand) : (s.updMe f).poison = s.poison := rfl
@[simp] theorem State.updMe_stale (f : Strand → Strand) : (s.updMe f).stale = s.stale := rfl
@[simp] theorem State.updMe_races (f : Strand → Strand) : (s.updMe f).races = s.races := rfl
@[simp] theorem State.updMe_nextRegion (f : Strand → Strand) : (s.updMe f).nextRegion = s.nextRegion := rfl
@[simp] theorem State.updMe_ops (f : Strand → Strand) : (s.updMe f).ops = s.ops := rfl
@[simp] theorem State.updMe_requests (f : Strand → Strand) : (s.updMe f).requests = s.requests := rfl
@[simp] theorem State.updMe_remote (f : Strand → Strand) : (s.updMe f).remote = s.remote := rfl
@[simp] theorem State.updMe_hostMem (f : Strand → Strand) : (s.updMe f).hostMem = s.hostMem := rfl
@[simp] theorem State.updMe_peerMem (f : Strand → Strand) : (s.updMe f).peerMem = s.peerMem := rfl
@[simp] theorem State.updMe_peerTags (f : Strand → Strand) : (s.updMe f).peerTags = s.peerTags := rfl
@[simp] theorem State.updMe_peerCtl (f : Strand → Strand) : (s.updMe f).peerCtl = s.peerCtl := rfl
@[simp] theorem State.updMe_peerRefuse (f : Strand → Strand) : (s.updMe f).peerRefuse = s.peerRefuse := rfl
@[simp] theorem State.updMe_peerCtlRefuse (f : Strand → Strand) : (s.updMe f).peerCtlRefuse = s.peerCtlRefuse := rfl
@[simp] theorem State.updMe_peerGens (f : Strand → Strand) : (s.updMe f).peerGens = s.peerGens := rfl
@[simp] theorem State.updMe_peerActs (f : Strand → Strand) : (s.updMe f).peerActs = s.peerActs := rfl
@[simp] theorem State.updMe_serving (f : Strand → Strand) : (s.updMe f).serving = s.serving := rfl
@[simp] theorem State.updMe_failing (f : Strand → Strand) : (s.updMe f).failing = s.failing := rfl

/-! `State.setS` changes `strands` alone. -/

@[simp] theorem State.setS_agenda (r : SReg) (v : Word) : (s.setS r v).agenda = s.agenda := rfl
@[simp] theorem State.setS_cur (r : SReg) (v : Word) : (s.setS r v).cur = s.cur := rfl
@[simp] theorem State.setS_npc (r : SReg) (v : Word) : (s.setS r v).npc = s.npc := rfl
@[simp] theorem State.setS_tick (r : SReg) (v : Word) : (s.setS r v).tick = s.tick := rfl
@[simp] theorem State.setS_nextId (r : SReg) (v : Word) : (s.setS r v).nextId = s.nextId := rfl
@[simp] theorem State.setS_time (r : SReg) (v : Word) : (s.setS r v).time = s.time := rfl
@[simp] theorem State.setS_package (r : SReg) (v : Word) : (s.setS r v).package = s.package := rfl
@[simp] theorem State.setS_hosterr (r : SReg) (v : Word) : (s.setS r v).hosterr = s.hosterr := rfl
@[simp] theorem State.setS_gen (r : SReg) (v : Word) : (s.setS r v).gen = s.gen := rfl
@[simp] theorem State.setS_domain (r : SReg) (v : Word) : (s.setS r v).domain = s.domain := rfl
@[simp] theorem State.setS_link (r : SReg) (v : Word) : (s.setS r v).link = s.link := rfl
@[simp] theorem State.setS_atomen (r : SReg) (v : Word) : (s.setS r v).atomen = s.atomen := rfl
@[simp] theorem State.setS_win (r : SReg) (v : Word) : (s.setS r v).win = s.win := rfl
@[simp] theorem State.setS_route (r : SReg) (v : Word) : (s.setS r v).route = s.route := rfl
@[simp] theorem State.setS_modes (r : SReg) (v : Word) : (s.setS r v).modes = s.modes := rfl
@[simp] theorem State.setS_sealpub (r : SReg) (v : Word) : (s.setS r v).sealpub = s.sealpub := rfl
@[simp] theorem State.setS_provpub (r : SReg) (v : Word) : (s.setS r v).provpub = s.provpub := rfl
@[simp] theorem State.setS_sealkey (r : SReg) (v : Word) : (s.setS r v).sealkey = s.sealkey := rfl
@[simp] theorem State.setS_provkey (r : SReg) (v : Word) : (s.setS r v).provkey = s.provkey := rfl
@[simp] theorem State.setS_bootPhase (r : SReg) (v : Word) : (s.setS r v).bootPhase = s.bootPhase := rfl
@[simp] theorem State.setS_bootResult (r : SReg) (v : Word) : (s.setS r v).bootResult = s.bootResult := rfl
@[simp] theorem State.setS_bootRetried (r : SReg) (v : Word) : (s.setS r v).bootRetried = s.bootRetried := rfl
@[simp] theorem State.setS_identity (r : SReg) (v : Word) : (s.setS r v).identity = s.identity := rfl
@[simp] theorem State.setS_halted (r : SReg) (v : Word) : (s.setS r v).halted = s.halted := rfl
@[simp] theorem State.setS_pwrlim (r : SReg) (v : Word) : (s.setS r v).pwrlim = s.pwrlim := rfl
@[simp] theorem State.setS_power (r : SReg) (v : Word) : (s.setS r v).power = s.power := rfl
@[simp] theorem State.setS_temp (r : SReg) (v : Word) : (s.setS r v).temp = s.temp := rfl
@[simp] theorem State.setS_trip (r : SReg) (v : Word) : (s.setS r v).trip = s.trip := rfl
@[simp] theorem State.setS_fwver (r : SReg) (v : Word) : (s.setS r v).fwver = s.fwver := rfl
@[simp] theorem State.setS_staged (r : SReg) (v : Word) : (s.setS r v).staged = s.staged := rfl
@[simp] theorem State.setS_fwprev (r : SReg) (v : Word) : (s.setS r v).fwprev = s.fwprev := rfl
@[simp] theorem State.setS_fuses (r : SReg) (v : Word) : (s.setS r v).fuses = s.fuses := rfl
@[simp] theorem State.setS_hubTemp (r : SReg) (v : Word) : (s.setS r v).hubTemp = s.hubTemp := rfl
@[simp] theorem State.setS_baseTemps (r : SReg) (v : Word) : (s.setS r v).baseTemps = s.baseTemps := rfl
@[simp] theorem State.setS_peers (r : SReg) (v : Word) : (s.setS r v).peers = s.peers := rfl
@[simp] theorem State.setS_linkUp (r : SReg) (v : Word) : (s.setS r v).linkUp = s.linkUp := rfl
@[simp] theorem State.setS_busMaster (r : SReg) (v : Word) : (s.setS r v).busMaster = s.busMaster := rfl
@[simp] theorem State.setS_msixPending (r : SReg) (v : Word) : (s.setS r v).msixPending = s.msixPending := rfl
@[simp] theorem State.setS_msixSent (r : SReg) (v : Word) : (s.setS r v).msixSent = s.msixSent := rfl
@[simp] theorem State.setS_msixTable (r : SReg) (v : Word) : (s.setS r v).msixTable = s.msixTable := rfl
@[simp] theorem State.setS_bars (r : SReg) (v : Word) : (s.setS r v).bars = s.bars := rfl
@[simp] theorem State.setS_devctl2 (r : SReg) (v : Word) : (s.setS r v).devctl2 = s.devctl2 := rfl
@[simp] theorem State.setS_hostQueue (r : SReg) (v : Word) : (s.setS r v).hostQueue = s.hostQueue := rfl
@[simp] theorem State.setS_hostAnswer (r : SReg) (v : Word) : (s.setS r v).hostAnswer = s.hostAnswer := rfl
@[simp] theorem State.setS_peerAnswer (r : SReg) (v : Word) : (s.setS r v).peerAnswer = s.peerAnswer := rfl
@[simp] theorem State.setS_sealSerial (r : SReg) (v : Word) : (s.setS r v).sealSerial = s.sealSerial := rfl
@[simp] theorem State.setS_keyNames (r : SReg) (v : Word) : (s.setS r v).keyNames = s.keyNames := rfl
@[simp] theorem State.setS_dies (r : SReg) (v : Word) : (s.setS r v).dies = s.dies := rfl
@[simp] theorem State.setS_cores (r : SReg) (v : Word) : (s.setS r v).cores = s.cores := rfl
@[simp] theorem State.setS_tenants (r : SReg) (v : Word) : (s.setS r v).tenants = s.tenants := rfl
@[simp] theorem State.setS_queues (r : SReg) (v : Word) : (s.setS r v).queues = s.queues := rfl
@[simp] theorem State.setS_chains (r : SReg) (v : Word) : (s.setS r v).chains = s.chains := rfl
@[simp] theorem State.setS_keys (r : SReg) (v : Word) : (s.setS r v).keys = s.keys := rfl
@[simp] theorem State.setS_seals (r : SReg) (v : Word) : (s.setS r v).seals = s.seals := rfl
@[simp] theorem State.setS_groups (r : SReg) (v : Word) : (s.setS r v).groups = s.groups := rfl
@[simp] theorem State.setS_ready (r : SReg) (v : Word) : (s.setS r v).ready = s.ready := rfl
@[simp] theorem State.setS_closes (r : SReg) (v : Word) : (s.setS r v).closes = s.closes := rfl
@[simp] theorem State.setS_frames (r : SReg) (v : Word) : (s.setS r v).frames = s.frames := rfl
@[simp] theorem State.setS_mem (r : SReg) (v : Word) : (s.setS r v).mem = s.mem := rfl
@[simp] theorem State.setS_mtags (r : SReg) (v : Word) : (s.setS r v).mtags = s.mtags := rfl
@[simp] theorem State.setS_mkeys (r : SReg) (v : Word) : (s.setS r v).mkeys = s.mkeys := rfl
@[simp] theorem State.setS_poison (r : SReg) (v : Word) : (s.setS r v).poison = s.poison := rfl
@[simp] theorem State.setS_stale (r : SReg) (v : Word) : (s.setS r v).stale = s.stale := rfl
@[simp] theorem State.setS_races (r : SReg) (v : Word) : (s.setS r v).races = s.races := rfl
@[simp] theorem State.setS_nextRegion (r : SReg) (v : Word) : (s.setS r v).nextRegion = s.nextRegion := rfl
@[simp] theorem State.setS_ops (r : SReg) (v : Word) : (s.setS r v).ops = s.ops := rfl
@[simp] theorem State.setS_requests (r : SReg) (v : Word) : (s.setS r v).requests = s.requests := rfl
@[simp] theorem State.setS_remote (r : SReg) (v : Word) : (s.setS r v).remote = s.remote := rfl
@[simp] theorem State.setS_hostMem (r : SReg) (v : Word) : (s.setS r v).hostMem = s.hostMem := rfl
@[simp] theorem State.setS_peerMem (r : SReg) (v : Word) : (s.setS r v).peerMem = s.peerMem := rfl
@[simp] theorem State.setS_peerTags (r : SReg) (v : Word) : (s.setS r v).peerTags = s.peerTags := rfl
@[simp] theorem State.setS_peerCtl (r : SReg) (v : Word) : (s.setS r v).peerCtl = s.peerCtl := rfl
@[simp] theorem State.setS_peerRefuse (r : SReg) (v : Word) : (s.setS r v).peerRefuse = s.peerRefuse := rfl
@[simp] theorem State.setS_peerCtlRefuse (r : SReg) (v : Word) : (s.setS r v).peerCtlRefuse = s.peerCtlRefuse := rfl
@[simp] theorem State.setS_peerGens (r : SReg) (v : Word) : (s.setS r v).peerGens = s.peerGens := rfl
@[simp] theorem State.setS_peerActs (r : SReg) (v : Word) : (s.setS r v).peerActs = s.peerActs := rfl
@[simp] theorem State.setS_serving (r : SReg) (v : Word) : (s.setS r v).serving = s.serving := rfl
@[simp] theorem State.setS_failing (r : SReg) (v : Word) : (s.setS r v).failing = s.failing := rfl

/-! `State.updCore` changes `cores` alone. -/

@[simp] theorem State.updCore_agenda (c : Nat) (f : Core → Core) : (s.updCore c f).agenda = s.agenda := rfl
@[simp] theorem State.updCore_cur (c : Nat) (f : Core → Core) : (s.updCore c f).cur = s.cur := rfl
@[simp] theorem State.updCore_npc (c : Nat) (f : Core → Core) : (s.updCore c f).npc = s.npc := rfl
@[simp] theorem State.updCore_tick (c : Nat) (f : Core → Core) : (s.updCore c f).tick = s.tick := rfl
@[simp] theorem State.updCore_nextId (c : Nat) (f : Core → Core) : (s.updCore c f).nextId = s.nextId := rfl
@[simp] theorem State.updCore_time (c : Nat) (f : Core → Core) : (s.updCore c f).time = s.time := rfl
@[simp] theorem State.updCore_package (c : Nat) (f : Core → Core) : (s.updCore c f).package = s.package := rfl
@[simp] theorem State.updCore_hosterr (c : Nat) (f : Core → Core) : (s.updCore c f).hosterr = s.hosterr := rfl
@[simp] theorem State.updCore_gen (c : Nat) (f : Core → Core) : (s.updCore c f).gen = s.gen := rfl
@[simp] theorem State.updCore_domain (c : Nat) (f : Core → Core) : (s.updCore c f).domain = s.domain := rfl
@[simp] theorem State.updCore_link (c : Nat) (f : Core → Core) : (s.updCore c f).link = s.link := rfl
@[simp] theorem State.updCore_atomen (c : Nat) (f : Core → Core) : (s.updCore c f).atomen = s.atomen := rfl
@[simp] theorem State.updCore_win (c : Nat) (f : Core → Core) : (s.updCore c f).win = s.win := rfl
@[simp] theorem State.updCore_route (c : Nat) (f : Core → Core) : (s.updCore c f).route = s.route := rfl
@[simp] theorem State.updCore_modes (c : Nat) (f : Core → Core) : (s.updCore c f).modes = s.modes := rfl
@[simp] theorem State.updCore_sealpub (c : Nat) (f : Core → Core) : (s.updCore c f).sealpub = s.sealpub := rfl
@[simp] theorem State.updCore_provpub (c : Nat) (f : Core → Core) : (s.updCore c f).provpub = s.provpub := rfl
@[simp] theorem State.updCore_sealkey (c : Nat) (f : Core → Core) : (s.updCore c f).sealkey = s.sealkey := rfl
@[simp] theorem State.updCore_provkey (c : Nat) (f : Core → Core) : (s.updCore c f).provkey = s.provkey := rfl
@[simp] theorem State.updCore_bootPhase (c : Nat) (f : Core → Core) : (s.updCore c f).bootPhase = s.bootPhase := rfl
@[simp] theorem State.updCore_bootResult (c : Nat) (f : Core → Core) : (s.updCore c f).bootResult = s.bootResult := rfl
@[simp] theorem State.updCore_bootRetried (c : Nat) (f : Core → Core) : (s.updCore c f).bootRetried = s.bootRetried := rfl
@[simp] theorem State.updCore_identity (c : Nat) (f : Core → Core) : (s.updCore c f).identity = s.identity := rfl
@[simp] theorem State.updCore_halted (c : Nat) (f : Core → Core) : (s.updCore c f).halted = s.halted := rfl
@[simp] theorem State.updCore_pwrlim (c : Nat) (f : Core → Core) : (s.updCore c f).pwrlim = s.pwrlim := rfl
@[simp] theorem State.updCore_power (c : Nat) (f : Core → Core) : (s.updCore c f).power = s.power := rfl
@[simp] theorem State.updCore_temp (c : Nat) (f : Core → Core) : (s.updCore c f).temp = s.temp := rfl
@[simp] theorem State.updCore_trip (c : Nat) (f : Core → Core) : (s.updCore c f).trip = s.trip := rfl
@[simp] theorem State.updCore_fwver (c : Nat) (f : Core → Core) : (s.updCore c f).fwver = s.fwver := rfl
@[simp] theorem State.updCore_staged (c : Nat) (f : Core → Core) : (s.updCore c f).staged = s.staged := rfl
@[simp] theorem State.updCore_fwprev (c : Nat) (f : Core → Core) : (s.updCore c f).fwprev = s.fwprev := rfl
@[simp] theorem State.updCore_fuses (c : Nat) (f : Core → Core) : (s.updCore c f).fuses = s.fuses := rfl
@[simp] theorem State.updCore_hubTemp (c : Nat) (f : Core → Core) : (s.updCore c f).hubTemp = s.hubTemp := rfl
@[simp] theorem State.updCore_baseTemps (c : Nat) (f : Core → Core) : (s.updCore c f).baseTemps = s.baseTemps := rfl
@[simp] theorem State.updCore_peers (c : Nat) (f : Core → Core) : (s.updCore c f).peers = s.peers := rfl
@[simp] theorem State.updCore_linkUp (c : Nat) (f : Core → Core) : (s.updCore c f).linkUp = s.linkUp := rfl
@[simp] theorem State.updCore_busMaster (c : Nat) (f : Core → Core) : (s.updCore c f).busMaster = s.busMaster := rfl
@[simp] theorem State.updCore_msixPending (c : Nat) (f : Core → Core) : (s.updCore c f).msixPending = s.msixPending := rfl
@[simp] theorem State.updCore_msixSent (c : Nat) (f : Core → Core) : (s.updCore c f).msixSent = s.msixSent := rfl
@[simp] theorem State.updCore_msixTable (c : Nat) (f : Core → Core) : (s.updCore c f).msixTable = s.msixTable := rfl
@[simp] theorem State.updCore_bars (c : Nat) (f : Core → Core) : (s.updCore c f).bars = s.bars := rfl
@[simp] theorem State.updCore_devctl2 (c : Nat) (f : Core → Core) : (s.updCore c f).devctl2 = s.devctl2 := rfl
@[simp] theorem State.updCore_hostQueue (c : Nat) (f : Core → Core) : (s.updCore c f).hostQueue = s.hostQueue := rfl
@[simp] theorem State.updCore_hostAnswer (c : Nat) (f : Core → Core) : (s.updCore c f).hostAnswer = s.hostAnswer := rfl
@[simp] theorem State.updCore_peerAnswer (c : Nat) (f : Core → Core) : (s.updCore c f).peerAnswer = s.peerAnswer := rfl
@[simp] theorem State.updCore_sealSerial (c : Nat) (f : Core → Core) : (s.updCore c f).sealSerial = s.sealSerial := rfl
@[simp] theorem State.updCore_keyNames (c : Nat) (f : Core → Core) : (s.updCore c f).keyNames = s.keyNames := rfl
@[simp] theorem State.updCore_dies (c : Nat) (f : Core → Core) : (s.updCore c f).dies = s.dies := rfl
@[simp] theorem State.updCore_tenants (c : Nat) (f : Core → Core) : (s.updCore c f).tenants = s.tenants := rfl
@[simp] theorem State.updCore_queues (c : Nat) (f : Core → Core) : (s.updCore c f).queues = s.queues := rfl
@[simp] theorem State.updCore_strands (c : Nat) (f : Core → Core) : (s.updCore c f).strands = s.strands := rfl
@[simp] theorem State.updCore_chains (c : Nat) (f : Core → Core) : (s.updCore c f).chains = s.chains := rfl
@[simp] theorem State.updCore_keys (c : Nat) (f : Core → Core) : (s.updCore c f).keys = s.keys := rfl
@[simp] theorem State.updCore_seals (c : Nat) (f : Core → Core) : (s.updCore c f).seals = s.seals := rfl
@[simp] theorem State.updCore_groups (c : Nat) (f : Core → Core) : (s.updCore c f).groups = s.groups := rfl
@[simp] theorem State.updCore_ready (c : Nat) (f : Core → Core) : (s.updCore c f).ready = s.ready := rfl
@[simp] theorem State.updCore_closes (c : Nat) (f : Core → Core) : (s.updCore c f).closes = s.closes := rfl
@[simp] theorem State.updCore_frames (c : Nat) (f : Core → Core) : (s.updCore c f).frames = s.frames := rfl
@[simp] theorem State.updCore_mem (c : Nat) (f : Core → Core) : (s.updCore c f).mem = s.mem := rfl
@[simp] theorem State.updCore_mtags (c : Nat) (f : Core → Core) : (s.updCore c f).mtags = s.mtags := rfl
@[simp] theorem State.updCore_mkeys (c : Nat) (f : Core → Core) : (s.updCore c f).mkeys = s.mkeys := rfl
@[simp] theorem State.updCore_poison (c : Nat) (f : Core → Core) : (s.updCore c f).poison = s.poison := rfl
@[simp] theorem State.updCore_stale (c : Nat) (f : Core → Core) : (s.updCore c f).stale = s.stale := rfl
@[simp] theorem State.updCore_races (c : Nat) (f : Core → Core) : (s.updCore c f).races = s.races := rfl
@[simp] theorem State.updCore_nextRegion (c : Nat) (f : Core → Core) : (s.updCore c f).nextRegion = s.nextRegion := rfl
@[simp] theorem State.updCore_ops (c : Nat) (f : Core → Core) : (s.updCore c f).ops = s.ops := rfl
@[simp] theorem State.updCore_requests (c : Nat) (f : Core → Core) : (s.updCore c f).requests = s.requests := rfl
@[simp] theorem State.updCore_remote (c : Nat) (f : Core → Core) : (s.updCore c f).remote = s.remote := rfl
@[simp] theorem State.updCore_hostMem (c : Nat) (f : Core → Core) : (s.updCore c f).hostMem = s.hostMem := rfl
@[simp] theorem State.updCore_peerMem (c : Nat) (f : Core → Core) : (s.updCore c f).peerMem = s.peerMem := rfl
@[simp] theorem State.updCore_peerTags (c : Nat) (f : Core → Core) : (s.updCore c f).peerTags = s.peerTags := rfl
@[simp] theorem State.updCore_peerCtl (c : Nat) (f : Core → Core) : (s.updCore c f).peerCtl = s.peerCtl := rfl
@[simp] theorem State.updCore_peerRefuse (c : Nat) (f : Core → Core) : (s.updCore c f).peerRefuse = s.peerRefuse := rfl
@[simp] theorem State.updCore_peerCtlRefuse (c : Nat) (f : Core → Core) : (s.updCore c f).peerCtlRefuse = s.peerCtlRefuse := rfl
@[simp] theorem State.updCore_peerGens (c : Nat) (f : Core → Core) : (s.updCore c f).peerGens = s.peerGens := rfl
@[simp] theorem State.updCore_peerActs (c : Nat) (f : Core → Core) : (s.updCore c f).peerActs = s.peerActs := rfl
@[simp] theorem State.updCore_serving (c : Nat) (f : Core → Core) : (s.updCore c f).serving = s.serving := rfl
@[simp] theorem State.updCore_failing (c : Nat) (f : Core → Core) : (s.updCore c f).failing = s.failing := rfl

/-! `State.updTenant` changes `tenants` alone. -/

@[simp] theorem State.updTenant_agenda (n : Nat) (f : Tenant → Tenant) : (s.updTenant n f).agenda = s.agenda := rfl
@[simp] theorem State.updTenant_cur (n : Nat) (f : Tenant → Tenant) : (s.updTenant n f).cur = s.cur := rfl
@[simp] theorem State.updTenant_npc (n : Nat) (f : Tenant → Tenant) : (s.updTenant n f).npc = s.npc := rfl
@[simp] theorem State.updTenant_tick (n : Nat) (f : Tenant → Tenant) : (s.updTenant n f).tick = s.tick := rfl
@[simp] theorem State.updTenant_nextId (n : Nat) (f : Tenant → Tenant) : (s.updTenant n f).nextId = s.nextId := rfl
@[simp] theorem State.updTenant_time (n : Nat) (f : Tenant → Tenant) : (s.updTenant n f).time = s.time := rfl
@[simp] theorem State.updTenant_package (n : Nat) (f : Tenant → Tenant) : (s.updTenant n f).package = s.package := rfl
@[simp] theorem State.updTenant_hosterr (n : Nat) (f : Tenant → Tenant) : (s.updTenant n f).hosterr = s.hosterr := rfl
@[simp] theorem State.updTenant_gen (n : Nat) (f : Tenant → Tenant) : (s.updTenant n f).gen = s.gen := rfl
@[simp] theorem State.updTenant_domain (n : Nat) (f : Tenant → Tenant) : (s.updTenant n f).domain = s.domain := rfl
@[simp] theorem State.updTenant_link (n : Nat) (f : Tenant → Tenant) : (s.updTenant n f).link = s.link := rfl
@[simp] theorem State.updTenant_atomen (n : Nat) (f : Tenant → Tenant) : (s.updTenant n f).atomen = s.atomen := rfl
@[simp] theorem State.updTenant_win (n : Nat) (f : Tenant → Tenant) : (s.updTenant n f).win = s.win := rfl
@[simp] theorem State.updTenant_route (n : Nat) (f : Tenant → Tenant) : (s.updTenant n f).route = s.route := rfl
@[simp] theorem State.updTenant_modes (n : Nat) (f : Tenant → Tenant) : (s.updTenant n f).modes = s.modes := rfl
@[simp] theorem State.updTenant_sealpub (n : Nat) (f : Tenant → Tenant) : (s.updTenant n f).sealpub = s.sealpub := rfl
@[simp] theorem State.updTenant_provpub (n : Nat) (f : Tenant → Tenant) : (s.updTenant n f).provpub = s.provpub := rfl
@[simp] theorem State.updTenant_sealkey (n : Nat) (f : Tenant → Tenant) : (s.updTenant n f).sealkey = s.sealkey := rfl
@[simp] theorem State.updTenant_provkey (n : Nat) (f : Tenant → Tenant) : (s.updTenant n f).provkey = s.provkey := rfl
@[simp] theorem State.updTenant_bootPhase (n : Nat) (f : Tenant → Tenant) : (s.updTenant n f).bootPhase = s.bootPhase := rfl
@[simp] theorem State.updTenant_bootResult (n : Nat) (f : Tenant → Tenant) : (s.updTenant n f).bootResult = s.bootResult := rfl
@[simp] theorem State.updTenant_bootRetried (n : Nat) (f : Tenant → Tenant) : (s.updTenant n f).bootRetried = s.bootRetried := rfl
@[simp] theorem State.updTenant_identity (n : Nat) (f : Tenant → Tenant) : (s.updTenant n f).identity = s.identity := rfl
@[simp] theorem State.updTenant_halted (n : Nat) (f : Tenant → Tenant) : (s.updTenant n f).halted = s.halted := rfl
@[simp] theorem State.updTenant_pwrlim (n : Nat) (f : Tenant → Tenant) : (s.updTenant n f).pwrlim = s.pwrlim := rfl
@[simp] theorem State.updTenant_power (n : Nat) (f : Tenant → Tenant) : (s.updTenant n f).power = s.power := rfl
@[simp] theorem State.updTenant_temp (n : Nat) (f : Tenant → Tenant) : (s.updTenant n f).temp = s.temp := rfl
@[simp] theorem State.updTenant_trip (n : Nat) (f : Tenant → Tenant) : (s.updTenant n f).trip = s.trip := rfl
@[simp] theorem State.updTenant_fwver (n : Nat) (f : Tenant → Tenant) : (s.updTenant n f).fwver = s.fwver := rfl
@[simp] theorem State.updTenant_staged (n : Nat) (f : Tenant → Tenant) : (s.updTenant n f).staged = s.staged := rfl
@[simp] theorem State.updTenant_fwprev (n : Nat) (f : Tenant → Tenant) : (s.updTenant n f).fwprev = s.fwprev := rfl
@[simp] theorem State.updTenant_fuses (n : Nat) (f : Tenant → Tenant) : (s.updTenant n f).fuses = s.fuses := rfl
@[simp] theorem State.updTenant_hubTemp (n : Nat) (f : Tenant → Tenant) : (s.updTenant n f).hubTemp = s.hubTemp := rfl
@[simp] theorem State.updTenant_baseTemps (n : Nat) (f : Tenant → Tenant) : (s.updTenant n f).baseTemps = s.baseTemps := rfl
@[simp] theorem State.updTenant_peers (n : Nat) (f : Tenant → Tenant) : (s.updTenant n f).peers = s.peers := rfl
@[simp] theorem State.updTenant_linkUp (n : Nat) (f : Tenant → Tenant) : (s.updTenant n f).linkUp = s.linkUp := rfl
@[simp] theorem State.updTenant_busMaster (n : Nat) (f : Tenant → Tenant) : (s.updTenant n f).busMaster = s.busMaster := rfl
@[simp] theorem State.updTenant_msixPending (n : Nat) (f : Tenant → Tenant) : (s.updTenant n f).msixPending = s.msixPending := rfl
@[simp] theorem State.updTenant_msixSent (n : Nat) (f : Tenant → Tenant) : (s.updTenant n f).msixSent = s.msixSent := rfl
@[simp] theorem State.updTenant_msixTable (n : Nat) (f : Tenant → Tenant) : (s.updTenant n f).msixTable = s.msixTable := rfl
@[simp] theorem State.updTenant_bars (n : Nat) (f : Tenant → Tenant) : (s.updTenant n f).bars = s.bars := rfl
@[simp] theorem State.updTenant_devctl2 (n : Nat) (f : Tenant → Tenant) : (s.updTenant n f).devctl2 = s.devctl2 := rfl
@[simp] theorem State.updTenant_hostQueue (n : Nat) (f : Tenant → Tenant) : (s.updTenant n f).hostQueue = s.hostQueue := rfl
@[simp] theorem State.updTenant_hostAnswer (n : Nat) (f : Tenant → Tenant) : (s.updTenant n f).hostAnswer = s.hostAnswer := rfl
@[simp] theorem State.updTenant_peerAnswer (n : Nat) (f : Tenant → Tenant) : (s.updTenant n f).peerAnswer = s.peerAnswer := rfl
@[simp] theorem State.updTenant_sealSerial (n : Nat) (f : Tenant → Tenant) : (s.updTenant n f).sealSerial = s.sealSerial := rfl
@[simp] theorem State.updTenant_keyNames (n : Nat) (f : Tenant → Tenant) : (s.updTenant n f).keyNames = s.keyNames := rfl
@[simp] theorem State.updTenant_dies (n : Nat) (f : Tenant → Tenant) : (s.updTenant n f).dies = s.dies := rfl
@[simp] theorem State.updTenant_cores (n : Nat) (f : Tenant → Tenant) : (s.updTenant n f).cores = s.cores := rfl
@[simp] theorem State.updTenant_queues (n : Nat) (f : Tenant → Tenant) : (s.updTenant n f).queues = s.queues := rfl
@[simp] theorem State.updTenant_strands (n : Nat) (f : Tenant → Tenant) : (s.updTenant n f).strands = s.strands := rfl
@[simp] theorem State.updTenant_chains (n : Nat) (f : Tenant → Tenant) : (s.updTenant n f).chains = s.chains := rfl
@[simp] theorem State.updTenant_keys (n : Nat) (f : Tenant → Tenant) : (s.updTenant n f).keys = s.keys := rfl
@[simp] theorem State.updTenant_seals (n : Nat) (f : Tenant → Tenant) : (s.updTenant n f).seals = s.seals := rfl
@[simp] theorem State.updTenant_groups (n : Nat) (f : Tenant → Tenant) : (s.updTenant n f).groups = s.groups := rfl
@[simp] theorem State.updTenant_ready (n : Nat) (f : Tenant → Tenant) : (s.updTenant n f).ready = s.ready := rfl
@[simp] theorem State.updTenant_closes (n : Nat) (f : Tenant → Tenant) : (s.updTenant n f).closes = s.closes := rfl
@[simp] theorem State.updTenant_frames (n : Nat) (f : Tenant → Tenant) : (s.updTenant n f).frames = s.frames := rfl
@[simp] theorem State.updTenant_mem (n : Nat) (f : Tenant → Tenant) : (s.updTenant n f).mem = s.mem := rfl
@[simp] theorem State.updTenant_mtags (n : Nat) (f : Tenant → Tenant) : (s.updTenant n f).mtags = s.mtags := rfl
@[simp] theorem State.updTenant_mkeys (n : Nat) (f : Tenant → Tenant) : (s.updTenant n f).mkeys = s.mkeys := rfl
@[simp] theorem State.updTenant_poison (n : Nat) (f : Tenant → Tenant) : (s.updTenant n f).poison = s.poison := rfl
@[simp] theorem State.updTenant_stale (n : Nat) (f : Tenant → Tenant) : (s.updTenant n f).stale = s.stale := rfl
@[simp] theorem State.updTenant_races (n : Nat) (f : Tenant → Tenant) : (s.updTenant n f).races = s.races := rfl
@[simp] theorem State.updTenant_nextRegion (n : Nat) (f : Tenant → Tenant) : (s.updTenant n f).nextRegion = s.nextRegion := rfl
@[simp] theorem State.updTenant_ops (n : Nat) (f : Tenant → Tenant) : (s.updTenant n f).ops = s.ops := rfl
@[simp] theorem State.updTenant_requests (n : Nat) (f : Tenant → Tenant) : (s.updTenant n f).requests = s.requests := rfl
@[simp] theorem State.updTenant_remote (n : Nat) (f : Tenant → Tenant) : (s.updTenant n f).remote = s.remote := rfl
@[simp] theorem State.updTenant_hostMem (n : Nat) (f : Tenant → Tenant) : (s.updTenant n f).hostMem = s.hostMem := rfl
@[simp] theorem State.updTenant_peerMem (n : Nat) (f : Tenant → Tenant) : (s.updTenant n f).peerMem = s.peerMem := rfl
@[simp] theorem State.updTenant_peerTags (n : Nat) (f : Tenant → Tenant) : (s.updTenant n f).peerTags = s.peerTags := rfl
@[simp] theorem State.updTenant_peerCtl (n : Nat) (f : Tenant → Tenant) : (s.updTenant n f).peerCtl = s.peerCtl := rfl
@[simp] theorem State.updTenant_peerRefuse (n : Nat) (f : Tenant → Tenant) : (s.updTenant n f).peerRefuse = s.peerRefuse := rfl
@[simp] theorem State.updTenant_peerCtlRefuse (n : Nat) (f : Tenant → Tenant) : (s.updTenant n f).peerCtlRefuse = s.peerCtlRefuse := rfl
@[simp] theorem State.updTenant_peerGens (n : Nat) (f : Tenant → Tenant) : (s.updTenant n f).peerGens = s.peerGens := rfl
@[simp] theorem State.updTenant_peerActs (n : Nat) (f : Tenant → Tenant) : (s.updTenant n f).peerActs = s.peerActs := rfl
@[simp] theorem State.updTenant_serving (n : Nat) (f : Tenant → Tenant) : (s.updTenant n f).serving = s.serving := rfl
@[simp] theorem State.updTenant_failing (n : Nat) (f : Tenant → Tenant) : (s.updTenant n f).failing = s.failing := rfl

/-! `State.updRecord` changes `tenants` alone. -/

@[simp] theorem State.updRecord_agenda (n k : Nat) (f : Record → Record) : (s.updRecord n k f).agenda = s.agenda := rfl
@[simp] theorem State.updRecord_cur (n k : Nat) (f : Record → Record) : (s.updRecord n k f).cur = s.cur := rfl
@[simp] theorem State.updRecord_npc (n k : Nat) (f : Record → Record) : (s.updRecord n k f).npc = s.npc := rfl
@[simp] theorem State.updRecord_tick (n k : Nat) (f : Record → Record) : (s.updRecord n k f).tick = s.tick := rfl
@[simp] theorem State.updRecord_nextId (n k : Nat) (f : Record → Record) : (s.updRecord n k f).nextId = s.nextId := rfl
@[simp] theorem State.updRecord_time (n k : Nat) (f : Record → Record) : (s.updRecord n k f).time = s.time := rfl
@[simp] theorem State.updRecord_package (n k : Nat) (f : Record → Record) : (s.updRecord n k f).package = s.package := rfl
@[simp] theorem State.updRecord_hosterr (n k : Nat) (f : Record → Record) : (s.updRecord n k f).hosterr = s.hosterr := rfl
@[simp] theorem State.updRecord_gen (n k : Nat) (f : Record → Record) : (s.updRecord n k f).gen = s.gen := rfl
@[simp] theorem State.updRecord_domain (n k : Nat) (f : Record → Record) : (s.updRecord n k f).domain = s.domain := rfl
@[simp] theorem State.updRecord_link (n k : Nat) (f : Record → Record) : (s.updRecord n k f).link = s.link := rfl
@[simp] theorem State.updRecord_atomen (n k : Nat) (f : Record → Record) : (s.updRecord n k f).atomen = s.atomen := rfl
@[simp] theorem State.updRecord_win (n k : Nat) (f : Record → Record) : (s.updRecord n k f).win = s.win := rfl
@[simp] theorem State.updRecord_route (n k : Nat) (f : Record → Record) : (s.updRecord n k f).route = s.route := rfl
@[simp] theorem State.updRecord_modes (n k : Nat) (f : Record → Record) : (s.updRecord n k f).modes = s.modes := rfl
@[simp] theorem State.updRecord_sealpub (n k : Nat) (f : Record → Record) : (s.updRecord n k f).sealpub = s.sealpub := rfl
@[simp] theorem State.updRecord_provpub (n k : Nat) (f : Record → Record) : (s.updRecord n k f).provpub = s.provpub := rfl
@[simp] theorem State.updRecord_sealkey (n k : Nat) (f : Record → Record) : (s.updRecord n k f).sealkey = s.sealkey := rfl
@[simp] theorem State.updRecord_provkey (n k : Nat) (f : Record → Record) : (s.updRecord n k f).provkey = s.provkey := rfl
@[simp] theorem State.updRecord_bootPhase (n k : Nat) (f : Record → Record) : (s.updRecord n k f).bootPhase = s.bootPhase := rfl
@[simp] theorem State.updRecord_bootResult (n k : Nat) (f : Record → Record) : (s.updRecord n k f).bootResult = s.bootResult := rfl
@[simp] theorem State.updRecord_bootRetried (n k : Nat) (f : Record → Record) : (s.updRecord n k f).bootRetried = s.bootRetried := rfl
@[simp] theorem State.updRecord_identity (n k : Nat) (f : Record → Record) : (s.updRecord n k f).identity = s.identity := rfl
@[simp] theorem State.updRecord_halted (n k : Nat) (f : Record → Record) : (s.updRecord n k f).halted = s.halted := rfl
@[simp] theorem State.updRecord_pwrlim (n k : Nat) (f : Record → Record) : (s.updRecord n k f).pwrlim = s.pwrlim := rfl
@[simp] theorem State.updRecord_power (n k : Nat) (f : Record → Record) : (s.updRecord n k f).power = s.power := rfl
@[simp] theorem State.updRecord_temp (n k : Nat) (f : Record → Record) : (s.updRecord n k f).temp = s.temp := rfl
@[simp] theorem State.updRecord_trip (n k : Nat) (f : Record → Record) : (s.updRecord n k f).trip = s.trip := rfl
@[simp] theorem State.updRecord_fwver (n k : Nat) (f : Record → Record) : (s.updRecord n k f).fwver = s.fwver := rfl
@[simp] theorem State.updRecord_staged (n k : Nat) (f : Record → Record) : (s.updRecord n k f).staged = s.staged := rfl
@[simp] theorem State.updRecord_fwprev (n k : Nat) (f : Record → Record) : (s.updRecord n k f).fwprev = s.fwprev := rfl
@[simp] theorem State.updRecord_fuses (n k : Nat) (f : Record → Record) : (s.updRecord n k f).fuses = s.fuses := rfl
@[simp] theorem State.updRecord_hubTemp (n k : Nat) (f : Record → Record) : (s.updRecord n k f).hubTemp = s.hubTemp := rfl
@[simp] theorem State.updRecord_baseTemps (n k : Nat) (f : Record → Record) : (s.updRecord n k f).baseTemps = s.baseTemps := rfl
@[simp] theorem State.updRecord_peers (n k : Nat) (f : Record → Record) : (s.updRecord n k f).peers = s.peers := rfl
@[simp] theorem State.updRecord_linkUp (n k : Nat) (f : Record → Record) : (s.updRecord n k f).linkUp = s.linkUp := rfl
@[simp] theorem State.updRecord_busMaster (n k : Nat) (f : Record → Record) : (s.updRecord n k f).busMaster = s.busMaster := rfl
@[simp] theorem State.updRecord_msixPending (n k : Nat) (f : Record → Record) : (s.updRecord n k f).msixPending = s.msixPending := rfl
@[simp] theorem State.updRecord_msixSent (n k : Nat) (f : Record → Record) : (s.updRecord n k f).msixSent = s.msixSent := rfl
@[simp] theorem State.updRecord_msixTable (n k : Nat) (f : Record → Record) : (s.updRecord n k f).msixTable = s.msixTable := rfl
@[simp] theorem State.updRecord_bars (n k : Nat) (f : Record → Record) : (s.updRecord n k f).bars = s.bars := rfl
@[simp] theorem State.updRecord_devctl2 (n k : Nat) (f : Record → Record) : (s.updRecord n k f).devctl2 = s.devctl2 := rfl
@[simp] theorem State.updRecord_hostQueue (n k : Nat) (f : Record → Record) : (s.updRecord n k f).hostQueue = s.hostQueue := rfl
@[simp] theorem State.updRecord_hostAnswer (n k : Nat) (f : Record → Record) : (s.updRecord n k f).hostAnswer = s.hostAnswer := rfl
@[simp] theorem State.updRecord_peerAnswer (n k : Nat) (f : Record → Record) : (s.updRecord n k f).peerAnswer = s.peerAnswer := rfl
@[simp] theorem State.updRecord_sealSerial (n k : Nat) (f : Record → Record) : (s.updRecord n k f).sealSerial = s.sealSerial := rfl
@[simp] theorem State.updRecord_keyNames (n k : Nat) (f : Record → Record) : (s.updRecord n k f).keyNames = s.keyNames := rfl
@[simp] theorem State.updRecord_dies (n k : Nat) (f : Record → Record) : (s.updRecord n k f).dies = s.dies := rfl
@[simp] theorem State.updRecord_cores (n k : Nat) (f : Record → Record) : (s.updRecord n k f).cores = s.cores := rfl
@[simp] theorem State.updRecord_queues (n k : Nat) (f : Record → Record) : (s.updRecord n k f).queues = s.queues := rfl
@[simp] theorem State.updRecord_strands (n k : Nat) (f : Record → Record) : (s.updRecord n k f).strands = s.strands := rfl
@[simp] theorem State.updRecord_chains (n k : Nat) (f : Record → Record) : (s.updRecord n k f).chains = s.chains := rfl
@[simp] theorem State.updRecord_keys (n k : Nat) (f : Record → Record) : (s.updRecord n k f).keys = s.keys := rfl
@[simp] theorem State.updRecord_seals (n k : Nat) (f : Record → Record) : (s.updRecord n k f).seals = s.seals := rfl
@[simp] theorem State.updRecord_groups (n k : Nat) (f : Record → Record) : (s.updRecord n k f).groups = s.groups := rfl
@[simp] theorem State.updRecord_ready (n k : Nat) (f : Record → Record) : (s.updRecord n k f).ready = s.ready := rfl
@[simp] theorem State.updRecord_closes (n k : Nat) (f : Record → Record) : (s.updRecord n k f).closes = s.closes := rfl
@[simp] theorem State.updRecord_frames (n k : Nat) (f : Record → Record) : (s.updRecord n k f).frames = s.frames := rfl
@[simp] theorem State.updRecord_mem (n k : Nat) (f : Record → Record) : (s.updRecord n k f).mem = s.mem := rfl
@[simp] theorem State.updRecord_mtags (n k : Nat) (f : Record → Record) : (s.updRecord n k f).mtags = s.mtags := rfl
@[simp] theorem State.updRecord_mkeys (n k : Nat) (f : Record → Record) : (s.updRecord n k f).mkeys = s.mkeys := rfl
@[simp] theorem State.updRecord_poison (n k : Nat) (f : Record → Record) : (s.updRecord n k f).poison = s.poison := rfl
@[simp] theorem State.updRecord_stale (n k : Nat) (f : Record → Record) : (s.updRecord n k f).stale = s.stale := rfl
@[simp] theorem State.updRecord_races (n k : Nat) (f : Record → Record) : (s.updRecord n k f).races = s.races := rfl
@[simp] theorem State.updRecord_nextRegion (n k : Nat) (f : Record → Record) : (s.updRecord n k f).nextRegion = s.nextRegion := rfl
@[simp] theorem State.updRecord_ops (n k : Nat) (f : Record → Record) : (s.updRecord n k f).ops = s.ops := rfl
@[simp] theorem State.updRecord_requests (n k : Nat) (f : Record → Record) : (s.updRecord n k f).requests = s.requests := rfl
@[simp] theorem State.updRecord_remote (n k : Nat) (f : Record → Record) : (s.updRecord n k f).remote = s.remote := rfl
@[simp] theorem State.updRecord_hostMem (n k : Nat) (f : Record → Record) : (s.updRecord n k f).hostMem = s.hostMem := rfl
@[simp] theorem State.updRecord_peerMem (n k : Nat) (f : Record → Record) : (s.updRecord n k f).peerMem = s.peerMem := rfl
@[simp] theorem State.updRecord_peerTags (n k : Nat) (f : Record → Record) : (s.updRecord n k f).peerTags = s.peerTags := rfl
@[simp] theorem State.updRecord_peerCtl (n k : Nat) (f : Record → Record) : (s.updRecord n k f).peerCtl = s.peerCtl := rfl
@[simp] theorem State.updRecord_peerRefuse (n k : Nat) (f : Record → Record) : (s.updRecord n k f).peerRefuse = s.peerRefuse := rfl
@[simp] theorem State.updRecord_peerCtlRefuse (n k : Nat) (f : Record → Record) : (s.updRecord n k f).peerCtlRefuse = s.peerCtlRefuse := rfl
@[simp] theorem State.updRecord_peerGens (n k : Nat) (f : Record → Record) : (s.updRecord n k f).peerGens = s.peerGens := rfl
@[simp] theorem State.updRecord_peerActs (n k : Nat) (f : Record → Record) : (s.updRecord n k f).peerActs = s.peerActs := rfl
@[simp] theorem State.updRecord_serving (n k : Nat) (f : Record → Record) : (s.updRecord n k f).serving = s.serving := rfl
@[simp] theorem State.updRecord_failing (n k : Nat) (f : Record → Record) : (s.updRecord n k f).failing = s.failing := rfl

/-! `State.updQueue` changes `queues` alone. -/

@[simp] theorem State.updQueue_agenda (q : Nat) (f : Queue → Queue) : (s.updQueue q f).agenda = s.agenda := rfl
@[simp] theorem State.updQueue_cur (q : Nat) (f : Queue → Queue) : (s.updQueue q f).cur = s.cur := rfl
@[simp] theorem State.updQueue_npc (q : Nat) (f : Queue → Queue) : (s.updQueue q f).npc = s.npc := rfl
@[simp] theorem State.updQueue_tick (q : Nat) (f : Queue → Queue) : (s.updQueue q f).tick = s.tick := rfl
@[simp] theorem State.updQueue_nextId (q : Nat) (f : Queue → Queue) : (s.updQueue q f).nextId = s.nextId := rfl
@[simp] theorem State.updQueue_time (q : Nat) (f : Queue → Queue) : (s.updQueue q f).time = s.time := rfl
@[simp] theorem State.updQueue_package (q : Nat) (f : Queue → Queue) : (s.updQueue q f).package = s.package := rfl
@[simp] theorem State.updQueue_hosterr (q : Nat) (f : Queue → Queue) : (s.updQueue q f).hosterr = s.hosterr := rfl
@[simp] theorem State.updQueue_gen (q : Nat) (f : Queue → Queue) : (s.updQueue q f).gen = s.gen := rfl
@[simp] theorem State.updQueue_domain (q : Nat) (f : Queue → Queue) : (s.updQueue q f).domain = s.domain := rfl
@[simp] theorem State.updQueue_link (q : Nat) (f : Queue → Queue) : (s.updQueue q f).link = s.link := rfl
@[simp] theorem State.updQueue_atomen (q : Nat) (f : Queue → Queue) : (s.updQueue q f).atomen = s.atomen := rfl
@[simp] theorem State.updQueue_win (q : Nat) (f : Queue → Queue) : (s.updQueue q f).win = s.win := rfl
@[simp] theorem State.updQueue_route (q : Nat) (f : Queue → Queue) : (s.updQueue q f).route = s.route := rfl
@[simp] theorem State.updQueue_modes (q : Nat) (f : Queue → Queue) : (s.updQueue q f).modes = s.modes := rfl
@[simp] theorem State.updQueue_sealpub (q : Nat) (f : Queue → Queue) : (s.updQueue q f).sealpub = s.sealpub := rfl
@[simp] theorem State.updQueue_provpub (q : Nat) (f : Queue → Queue) : (s.updQueue q f).provpub = s.provpub := rfl
@[simp] theorem State.updQueue_sealkey (q : Nat) (f : Queue → Queue) : (s.updQueue q f).sealkey = s.sealkey := rfl
@[simp] theorem State.updQueue_provkey (q : Nat) (f : Queue → Queue) : (s.updQueue q f).provkey = s.provkey := rfl
@[simp] theorem State.updQueue_bootPhase (q : Nat) (f : Queue → Queue) : (s.updQueue q f).bootPhase = s.bootPhase := rfl
@[simp] theorem State.updQueue_bootResult (q : Nat) (f : Queue → Queue) : (s.updQueue q f).bootResult = s.bootResult := rfl
@[simp] theorem State.updQueue_bootRetried (q : Nat) (f : Queue → Queue) : (s.updQueue q f).bootRetried = s.bootRetried := rfl
@[simp] theorem State.updQueue_identity (q : Nat) (f : Queue → Queue) : (s.updQueue q f).identity = s.identity := rfl
@[simp] theorem State.updQueue_halted (q : Nat) (f : Queue → Queue) : (s.updQueue q f).halted = s.halted := rfl
@[simp] theorem State.updQueue_pwrlim (q : Nat) (f : Queue → Queue) : (s.updQueue q f).pwrlim = s.pwrlim := rfl
@[simp] theorem State.updQueue_power (q : Nat) (f : Queue → Queue) : (s.updQueue q f).power = s.power := rfl
@[simp] theorem State.updQueue_temp (q : Nat) (f : Queue → Queue) : (s.updQueue q f).temp = s.temp := rfl
@[simp] theorem State.updQueue_trip (q : Nat) (f : Queue → Queue) : (s.updQueue q f).trip = s.trip := rfl
@[simp] theorem State.updQueue_fwver (q : Nat) (f : Queue → Queue) : (s.updQueue q f).fwver = s.fwver := rfl
@[simp] theorem State.updQueue_staged (q : Nat) (f : Queue → Queue) : (s.updQueue q f).staged = s.staged := rfl
@[simp] theorem State.updQueue_fwprev (q : Nat) (f : Queue → Queue) : (s.updQueue q f).fwprev = s.fwprev := rfl
@[simp] theorem State.updQueue_fuses (q : Nat) (f : Queue → Queue) : (s.updQueue q f).fuses = s.fuses := rfl
@[simp] theorem State.updQueue_hubTemp (q : Nat) (f : Queue → Queue) : (s.updQueue q f).hubTemp = s.hubTemp := rfl
@[simp] theorem State.updQueue_baseTemps (q : Nat) (f : Queue → Queue) : (s.updQueue q f).baseTemps = s.baseTemps := rfl
@[simp] theorem State.updQueue_peers (q : Nat) (f : Queue → Queue) : (s.updQueue q f).peers = s.peers := rfl
@[simp] theorem State.updQueue_linkUp (q : Nat) (f : Queue → Queue) : (s.updQueue q f).linkUp = s.linkUp := rfl
@[simp] theorem State.updQueue_busMaster (q : Nat) (f : Queue → Queue) : (s.updQueue q f).busMaster = s.busMaster := rfl
@[simp] theorem State.updQueue_msixPending (q : Nat) (f : Queue → Queue) : (s.updQueue q f).msixPending = s.msixPending := rfl
@[simp] theorem State.updQueue_msixSent (q : Nat) (f : Queue → Queue) : (s.updQueue q f).msixSent = s.msixSent := rfl
@[simp] theorem State.updQueue_msixTable (q : Nat) (f : Queue → Queue) : (s.updQueue q f).msixTable = s.msixTable := rfl
@[simp] theorem State.updQueue_bars (q : Nat) (f : Queue → Queue) : (s.updQueue q f).bars = s.bars := rfl
@[simp] theorem State.updQueue_devctl2 (q : Nat) (f : Queue → Queue) : (s.updQueue q f).devctl2 = s.devctl2 := rfl
@[simp] theorem State.updQueue_hostQueue (q : Nat) (f : Queue → Queue) : (s.updQueue q f).hostQueue = s.hostQueue := rfl
@[simp] theorem State.updQueue_hostAnswer (q : Nat) (f : Queue → Queue) : (s.updQueue q f).hostAnswer = s.hostAnswer := rfl
@[simp] theorem State.updQueue_peerAnswer (q : Nat) (f : Queue → Queue) : (s.updQueue q f).peerAnswer = s.peerAnswer := rfl
@[simp] theorem State.updQueue_sealSerial (q : Nat) (f : Queue → Queue) : (s.updQueue q f).sealSerial = s.sealSerial := rfl
@[simp] theorem State.updQueue_keyNames (q : Nat) (f : Queue → Queue) : (s.updQueue q f).keyNames = s.keyNames := rfl
@[simp] theorem State.updQueue_dies (q : Nat) (f : Queue → Queue) : (s.updQueue q f).dies = s.dies := rfl
@[simp] theorem State.updQueue_cores (q : Nat) (f : Queue → Queue) : (s.updQueue q f).cores = s.cores := rfl
@[simp] theorem State.updQueue_tenants (q : Nat) (f : Queue → Queue) : (s.updQueue q f).tenants = s.tenants := rfl
@[simp] theorem State.updQueue_strands (q : Nat) (f : Queue → Queue) : (s.updQueue q f).strands = s.strands := rfl
@[simp] theorem State.updQueue_chains (q : Nat) (f : Queue → Queue) : (s.updQueue q f).chains = s.chains := rfl
@[simp] theorem State.updQueue_keys (q : Nat) (f : Queue → Queue) : (s.updQueue q f).keys = s.keys := rfl
@[simp] theorem State.updQueue_seals (q : Nat) (f : Queue → Queue) : (s.updQueue q f).seals = s.seals := rfl
@[simp] theorem State.updQueue_groups (q : Nat) (f : Queue → Queue) : (s.updQueue q f).groups = s.groups := rfl
@[simp] theorem State.updQueue_ready (q : Nat) (f : Queue → Queue) : (s.updQueue q f).ready = s.ready := rfl
@[simp] theorem State.updQueue_closes (q : Nat) (f : Queue → Queue) : (s.updQueue q f).closes = s.closes := rfl
@[simp] theorem State.updQueue_frames (q : Nat) (f : Queue → Queue) : (s.updQueue q f).frames = s.frames := rfl
@[simp] theorem State.updQueue_mem (q : Nat) (f : Queue → Queue) : (s.updQueue q f).mem = s.mem := rfl
@[simp] theorem State.updQueue_mtags (q : Nat) (f : Queue → Queue) : (s.updQueue q f).mtags = s.mtags := rfl
@[simp] theorem State.updQueue_mkeys (q : Nat) (f : Queue → Queue) : (s.updQueue q f).mkeys = s.mkeys := rfl
@[simp] theorem State.updQueue_poison (q : Nat) (f : Queue → Queue) : (s.updQueue q f).poison = s.poison := rfl
@[simp] theorem State.updQueue_stale (q : Nat) (f : Queue → Queue) : (s.updQueue q f).stale = s.stale := rfl
@[simp] theorem State.updQueue_races (q : Nat) (f : Queue → Queue) : (s.updQueue q f).races = s.races := rfl
@[simp] theorem State.updQueue_nextRegion (q : Nat) (f : Queue → Queue) : (s.updQueue q f).nextRegion = s.nextRegion := rfl
@[simp] theorem State.updQueue_ops (q : Nat) (f : Queue → Queue) : (s.updQueue q f).ops = s.ops := rfl
@[simp] theorem State.updQueue_requests (q : Nat) (f : Queue → Queue) : (s.updQueue q f).requests = s.requests := rfl
@[simp] theorem State.updQueue_remote (q : Nat) (f : Queue → Queue) : (s.updQueue q f).remote = s.remote := rfl
@[simp] theorem State.updQueue_hostMem (q : Nat) (f : Queue → Queue) : (s.updQueue q f).hostMem = s.hostMem := rfl
@[simp] theorem State.updQueue_peerMem (q : Nat) (f : Queue → Queue) : (s.updQueue q f).peerMem = s.peerMem := rfl
@[simp] theorem State.updQueue_peerTags (q : Nat) (f : Queue → Queue) : (s.updQueue q f).peerTags = s.peerTags := rfl
@[simp] theorem State.updQueue_peerCtl (q : Nat) (f : Queue → Queue) : (s.updQueue q f).peerCtl = s.peerCtl := rfl
@[simp] theorem State.updQueue_peerRefuse (q : Nat) (f : Queue → Queue) : (s.updQueue q f).peerRefuse = s.peerRefuse := rfl
@[simp] theorem State.updQueue_peerCtlRefuse (q : Nat) (f : Queue → Queue) : (s.updQueue q f).peerCtlRefuse = s.peerCtlRefuse := rfl
@[simp] theorem State.updQueue_peerGens (q : Nat) (f : Queue → Queue) : (s.updQueue q f).peerGens = s.peerGens := rfl
@[simp] theorem State.updQueue_peerActs (q : Nat) (f : Queue → Queue) : (s.updQueue q f).peerActs = s.peerActs := rfl
@[simp] theorem State.updQueue_serving (q : Nat) (f : Queue → Queue) : (s.updQueue q f).serving = s.serving := rfl
@[simp] theorem State.updQueue_failing (q : Nat) (f : Queue → Queue) : (s.updQueue q f).failing = s.failing := rfl

/-! `State.updChain` changes `chains` alone. -/

@[simp] theorem State.updChain_agenda (c : Nat) (f : Chain → Chain) : (s.updChain c f).agenda = s.agenda := rfl
@[simp] theorem State.updChain_cur (c : Nat) (f : Chain → Chain) : (s.updChain c f).cur = s.cur := rfl
@[simp] theorem State.updChain_npc (c : Nat) (f : Chain → Chain) : (s.updChain c f).npc = s.npc := rfl
@[simp] theorem State.updChain_tick (c : Nat) (f : Chain → Chain) : (s.updChain c f).tick = s.tick := rfl
@[simp] theorem State.updChain_nextId (c : Nat) (f : Chain → Chain) : (s.updChain c f).nextId = s.nextId := rfl
@[simp] theorem State.updChain_time (c : Nat) (f : Chain → Chain) : (s.updChain c f).time = s.time := rfl
@[simp] theorem State.updChain_package (c : Nat) (f : Chain → Chain) : (s.updChain c f).package = s.package := rfl
@[simp] theorem State.updChain_hosterr (c : Nat) (f : Chain → Chain) : (s.updChain c f).hosterr = s.hosterr := rfl
@[simp] theorem State.updChain_gen (c : Nat) (f : Chain → Chain) : (s.updChain c f).gen = s.gen := rfl
@[simp] theorem State.updChain_domain (c : Nat) (f : Chain → Chain) : (s.updChain c f).domain = s.domain := rfl
@[simp] theorem State.updChain_link (c : Nat) (f : Chain → Chain) : (s.updChain c f).link = s.link := rfl
@[simp] theorem State.updChain_atomen (c : Nat) (f : Chain → Chain) : (s.updChain c f).atomen = s.atomen := rfl
@[simp] theorem State.updChain_win (c : Nat) (f : Chain → Chain) : (s.updChain c f).win = s.win := rfl
@[simp] theorem State.updChain_route (c : Nat) (f : Chain → Chain) : (s.updChain c f).route = s.route := rfl
@[simp] theorem State.updChain_modes (c : Nat) (f : Chain → Chain) : (s.updChain c f).modes = s.modes := rfl
@[simp] theorem State.updChain_sealpub (c : Nat) (f : Chain → Chain) : (s.updChain c f).sealpub = s.sealpub := rfl
@[simp] theorem State.updChain_provpub (c : Nat) (f : Chain → Chain) : (s.updChain c f).provpub = s.provpub := rfl
@[simp] theorem State.updChain_sealkey (c : Nat) (f : Chain → Chain) : (s.updChain c f).sealkey = s.sealkey := rfl
@[simp] theorem State.updChain_provkey (c : Nat) (f : Chain → Chain) : (s.updChain c f).provkey = s.provkey := rfl
@[simp] theorem State.updChain_bootPhase (c : Nat) (f : Chain → Chain) : (s.updChain c f).bootPhase = s.bootPhase := rfl
@[simp] theorem State.updChain_bootResult (c : Nat) (f : Chain → Chain) : (s.updChain c f).bootResult = s.bootResult := rfl
@[simp] theorem State.updChain_bootRetried (c : Nat) (f : Chain → Chain) : (s.updChain c f).bootRetried = s.bootRetried := rfl
@[simp] theorem State.updChain_identity (c : Nat) (f : Chain → Chain) : (s.updChain c f).identity = s.identity := rfl
@[simp] theorem State.updChain_halted (c : Nat) (f : Chain → Chain) : (s.updChain c f).halted = s.halted := rfl
@[simp] theorem State.updChain_pwrlim (c : Nat) (f : Chain → Chain) : (s.updChain c f).pwrlim = s.pwrlim := rfl
@[simp] theorem State.updChain_power (c : Nat) (f : Chain → Chain) : (s.updChain c f).power = s.power := rfl
@[simp] theorem State.updChain_temp (c : Nat) (f : Chain → Chain) : (s.updChain c f).temp = s.temp := rfl
@[simp] theorem State.updChain_trip (c : Nat) (f : Chain → Chain) : (s.updChain c f).trip = s.trip := rfl
@[simp] theorem State.updChain_fwver (c : Nat) (f : Chain → Chain) : (s.updChain c f).fwver = s.fwver := rfl
@[simp] theorem State.updChain_staged (c : Nat) (f : Chain → Chain) : (s.updChain c f).staged = s.staged := rfl
@[simp] theorem State.updChain_fwprev (c : Nat) (f : Chain → Chain) : (s.updChain c f).fwprev = s.fwprev := rfl
@[simp] theorem State.updChain_fuses (c : Nat) (f : Chain → Chain) : (s.updChain c f).fuses = s.fuses := rfl
@[simp] theorem State.updChain_hubTemp (c : Nat) (f : Chain → Chain) : (s.updChain c f).hubTemp = s.hubTemp := rfl
@[simp] theorem State.updChain_baseTemps (c : Nat) (f : Chain → Chain) : (s.updChain c f).baseTemps = s.baseTemps := rfl
@[simp] theorem State.updChain_peers (c : Nat) (f : Chain → Chain) : (s.updChain c f).peers = s.peers := rfl
@[simp] theorem State.updChain_linkUp (c : Nat) (f : Chain → Chain) : (s.updChain c f).linkUp = s.linkUp := rfl
@[simp] theorem State.updChain_busMaster (c : Nat) (f : Chain → Chain) : (s.updChain c f).busMaster = s.busMaster := rfl
@[simp] theorem State.updChain_msixPending (c : Nat) (f : Chain → Chain) : (s.updChain c f).msixPending = s.msixPending := rfl
@[simp] theorem State.updChain_msixSent (c : Nat) (f : Chain → Chain) : (s.updChain c f).msixSent = s.msixSent := rfl
@[simp] theorem State.updChain_msixTable (c : Nat) (f : Chain → Chain) : (s.updChain c f).msixTable = s.msixTable := rfl
@[simp] theorem State.updChain_bars (c : Nat) (f : Chain → Chain) : (s.updChain c f).bars = s.bars := rfl
@[simp] theorem State.updChain_devctl2 (c : Nat) (f : Chain → Chain) : (s.updChain c f).devctl2 = s.devctl2 := rfl
@[simp] theorem State.updChain_hostQueue (c : Nat) (f : Chain → Chain) : (s.updChain c f).hostQueue = s.hostQueue := rfl
@[simp] theorem State.updChain_hostAnswer (c : Nat) (f : Chain → Chain) : (s.updChain c f).hostAnswer = s.hostAnswer := rfl
@[simp] theorem State.updChain_peerAnswer (c : Nat) (f : Chain → Chain) : (s.updChain c f).peerAnswer = s.peerAnswer := rfl
@[simp] theorem State.updChain_sealSerial (c : Nat) (f : Chain → Chain) : (s.updChain c f).sealSerial = s.sealSerial := rfl
@[simp] theorem State.updChain_keyNames (c : Nat) (f : Chain → Chain) : (s.updChain c f).keyNames = s.keyNames := rfl
@[simp] theorem State.updChain_dies (c : Nat) (f : Chain → Chain) : (s.updChain c f).dies = s.dies := rfl
@[simp] theorem State.updChain_cores (c : Nat) (f : Chain → Chain) : (s.updChain c f).cores = s.cores := rfl
@[simp] theorem State.updChain_tenants (c : Nat) (f : Chain → Chain) : (s.updChain c f).tenants = s.tenants := rfl
@[simp] theorem State.updChain_queues (c : Nat) (f : Chain → Chain) : (s.updChain c f).queues = s.queues := rfl
@[simp] theorem State.updChain_strands (c : Nat) (f : Chain → Chain) : (s.updChain c f).strands = s.strands := rfl
@[simp] theorem State.updChain_keys (c : Nat) (f : Chain → Chain) : (s.updChain c f).keys = s.keys := rfl
@[simp] theorem State.updChain_seals (c : Nat) (f : Chain → Chain) : (s.updChain c f).seals = s.seals := rfl
@[simp] theorem State.updChain_groups (c : Nat) (f : Chain → Chain) : (s.updChain c f).groups = s.groups := rfl
@[simp] theorem State.updChain_ready (c : Nat) (f : Chain → Chain) : (s.updChain c f).ready = s.ready := rfl
@[simp] theorem State.updChain_closes (c : Nat) (f : Chain → Chain) : (s.updChain c f).closes = s.closes := rfl
@[simp] theorem State.updChain_frames (c : Nat) (f : Chain → Chain) : (s.updChain c f).frames = s.frames := rfl
@[simp] theorem State.updChain_mem (c : Nat) (f : Chain → Chain) : (s.updChain c f).mem = s.mem := rfl
@[simp] theorem State.updChain_mtags (c : Nat) (f : Chain → Chain) : (s.updChain c f).mtags = s.mtags := rfl
@[simp] theorem State.updChain_mkeys (c : Nat) (f : Chain → Chain) : (s.updChain c f).mkeys = s.mkeys := rfl
@[simp] theorem State.updChain_poison (c : Nat) (f : Chain → Chain) : (s.updChain c f).poison = s.poison := rfl
@[simp] theorem State.updChain_stale (c : Nat) (f : Chain → Chain) : (s.updChain c f).stale = s.stale := rfl
@[simp] theorem State.updChain_races (c : Nat) (f : Chain → Chain) : (s.updChain c f).races = s.races := rfl
@[simp] theorem State.updChain_nextRegion (c : Nat) (f : Chain → Chain) : (s.updChain c f).nextRegion = s.nextRegion := rfl
@[simp] theorem State.updChain_ops (c : Nat) (f : Chain → Chain) : (s.updChain c f).ops = s.ops := rfl
@[simp] theorem State.updChain_requests (c : Nat) (f : Chain → Chain) : (s.updChain c f).requests = s.requests := rfl
@[simp] theorem State.updChain_remote (c : Nat) (f : Chain → Chain) : (s.updChain c f).remote = s.remote := rfl
@[simp] theorem State.updChain_hostMem (c : Nat) (f : Chain → Chain) : (s.updChain c f).hostMem = s.hostMem := rfl
@[simp] theorem State.updChain_peerMem (c : Nat) (f : Chain → Chain) : (s.updChain c f).peerMem = s.peerMem := rfl
@[simp] theorem State.updChain_peerTags (c : Nat) (f : Chain → Chain) : (s.updChain c f).peerTags = s.peerTags := rfl
@[simp] theorem State.updChain_peerCtl (c : Nat) (f : Chain → Chain) : (s.updChain c f).peerCtl = s.peerCtl := rfl
@[simp] theorem State.updChain_peerRefuse (c : Nat) (f : Chain → Chain) : (s.updChain c f).peerRefuse = s.peerRefuse := rfl
@[simp] theorem State.updChain_peerCtlRefuse (c : Nat) (f : Chain → Chain) : (s.updChain c f).peerCtlRefuse = s.peerCtlRefuse := rfl
@[simp] theorem State.updChain_peerGens (c : Nat) (f : Chain → Chain) : (s.updChain c f).peerGens = s.peerGens := rfl
@[simp] theorem State.updChain_peerActs (c : Nat) (f : Chain → Chain) : (s.updChain c f).peerActs = s.peerActs := rfl
@[simp] theorem State.updChain_serving (c : Nat) (f : Chain → Chain) : (s.updChain c f).serving = s.serving := rfl
@[simp] theorem State.updChain_failing (c : Nat) (f : Chain → Chain) : (s.updChain c f).failing = s.failing := rfl

/-! `State.updKey` changes `keys` alone. -/

@[simp] theorem State.updKey_agenda (k : Nat) (f : KeySlot → KeySlot) : (s.updKey k f).agenda = s.agenda := rfl
@[simp] theorem State.updKey_cur (k : Nat) (f : KeySlot → KeySlot) : (s.updKey k f).cur = s.cur := rfl
@[simp] theorem State.updKey_npc (k : Nat) (f : KeySlot → KeySlot) : (s.updKey k f).npc = s.npc := rfl
@[simp] theorem State.updKey_tick (k : Nat) (f : KeySlot → KeySlot) : (s.updKey k f).tick = s.tick := rfl
@[simp] theorem State.updKey_nextId (k : Nat) (f : KeySlot → KeySlot) : (s.updKey k f).nextId = s.nextId := rfl
@[simp] theorem State.updKey_time (k : Nat) (f : KeySlot → KeySlot) : (s.updKey k f).time = s.time := rfl
@[simp] theorem State.updKey_package (k : Nat) (f : KeySlot → KeySlot) : (s.updKey k f).package = s.package := rfl
@[simp] theorem State.updKey_hosterr (k : Nat) (f : KeySlot → KeySlot) : (s.updKey k f).hosterr = s.hosterr := rfl
@[simp] theorem State.updKey_gen (k : Nat) (f : KeySlot → KeySlot) : (s.updKey k f).gen = s.gen := rfl
@[simp] theorem State.updKey_domain (k : Nat) (f : KeySlot → KeySlot) : (s.updKey k f).domain = s.domain := rfl
@[simp] theorem State.updKey_link (k : Nat) (f : KeySlot → KeySlot) : (s.updKey k f).link = s.link := rfl
@[simp] theorem State.updKey_atomen (k : Nat) (f : KeySlot → KeySlot) : (s.updKey k f).atomen = s.atomen := rfl
@[simp] theorem State.updKey_win (k : Nat) (f : KeySlot → KeySlot) : (s.updKey k f).win = s.win := rfl
@[simp] theorem State.updKey_route (k : Nat) (f : KeySlot → KeySlot) : (s.updKey k f).route = s.route := rfl
@[simp] theorem State.updKey_modes (k : Nat) (f : KeySlot → KeySlot) : (s.updKey k f).modes = s.modes := rfl
@[simp] theorem State.updKey_sealpub (k : Nat) (f : KeySlot → KeySlot) : (s.updKey k f).sealpub = s.sealpub := rfl
@[simp] theorem State.updKey_provpub (k : Nat) (f : KeySlot → KeySlot) : (s.updKey k f).provpub = s.provpub := rfl
@[simp] theorem State.updKey_sealkey (k : Nat) (f : KeySlot → KeySlot) : (s.updKey k f).sealkey = s.sealkey := rfl
@[simp] theorem State.updKey_provkey (k : Nat) (f : KeySlot → KeySlot) : (s.updKey k f).provkey = s.provkey := rfl
@[simp] theorem State.updKey_bootPhase (k : Nat) (f : KeySlot → KeySlot) : (s.updKey k f).bootPhase = s.bootPhase := rfl
@[simp] theorem State.updKey_bootResult (k : Nat) (f : KeySlot → KeySlot) : (s.updKey k f).bootResult = s.bootResult := rfl
@[simp] theorem State.updKey_bootRetried (k : Nat) (f : KeySlot → KeySlot) : (s.updKey k f).bootRetried = s.bootRetried := rfl
@[simp] theorem State.updKey_identity (k : Nat) (f : KeySlot → KeySlot) : (s.updKey k f).identity = s.identity := rfl
@[simp] theorem State.updKey_halted (k : Nat) (f : KeySlot → KeySlot) : (s.updKey k f).halted = s.halted := rfl
@[simp] theorem State.updKey_pwrlim (k : Nat) (f : KeySlot → KeySlot) : (s.updKey k f).pwrlim = s.pwrlim := rfl
@[simp] theorem State.updKey_power (k : Nat) (f : KeySlot → KeySlot) : (s.updKey k f).power = s.power := rfl
@[simp] theorem State.updKey_temp (k : Nat) (f : KeySlot → KeySlot) : (s.updKey k f).temp = s.temp := rfl
@[simp] theorem State.updKey_trip (k : Nat) (f : KeySlot → KeySlot) : (s.updKey k f).trip = s.trip := rfl
@[simp] theorem State.updKey_fwver (k : Nat) (f : KeySlot → KeySlot) : (s.updKey k f).fwver = s.fwver := rfl
@[simp] theorem State.updKey_staged (k : Nat) (f : KeySlot → KeySlot) : (s.updKey k f).staged = s.staged := rfl
@[simp] theorem State.updKey_fwprev (k : Nat) (f : KeySlot → KeySlot) : (s.updKey k f).fwprev = s.fwprev := rfl
@[simp] theorem State.updKey_fuses (k : Nat) (f : KeySlot → KeySlot) : (s.updKey k f).fuses = s.fuses := rfl
@[simp] theorem State.updKey_hubTemp (k : Nat) (f : KeySlot → KeySlot) : (s.updKey k f).hubTemp = s.hubTemp := rfl
@[simp] theorem State.updKey_baseTemps (k : Nat) (f : KeySlot → KeySlot) : (s.updKey k f).baseTemps = s.baseTemps := rfl
@[simp] theorem State.updKey_peers (k : Nat) (f : KeySlot → KeySlot) : (s.updKey k f).peers = s.peers := rfl
@[simp] theorem State.updKey_linkUp (k : Nat) (f : KeySlot → KeySlot) : (s.updKey k f).linkUp = s.linkUp := rfl
@[simp] theorem State.updKey_busMaster (k : Nat) (f : KeySlot → KeySlot) : (s.updKey k f).busMaster = s.busMaster := rfl
@[simp] theorem State.updKey_msixPending (k : Nat) (f : KeySlot → KeySlot) : (s.updKey k f).msixPending = s.msixPending := rfl
@[simp] theorem State.updKey_msixSent (k : Nat) (f : KeySlot → KeySlot) : (s.updKey k f).msixSent = s.msixSent := rfl
@[simp] theorem State.updKey_msixTable (k : Nat) (f : KeySlot → KeySlot) : (s.updKey k f).msixTable = s.msixTable := rfl
@[simp] theorem State.updKey_bars (k : Nat) (f : KeySlot → KeySlot) : (s.updKey k f).bars = s.bars := rfl
@[simp] theorem State.updKey_devctl2 (k : Nat) (f : KeySlot → KeySlot) : (s.updKey k f).devctl2 = s.devctl2 := rfl
@[simp] theorem State.updKey_hostQueue (k : Nat) (f : KeySlot → KeySlot) : (s.updKey k f).hostQueue = s.hostQueue := rfl
@[simp] theorem State.updKey_hostAnswer (k : Nat) (f : KeySlot → KeySlot) : (s.updKey k f).hostAnswer = s.hostAnswer := rfl
@[simp] theorem State.updKey_peerAnswer (k : Nat) (f : KeySlot → KeySlot) : (s.updKey k f).peerAnswer = s.peerAnswer := rfl
@[simp] theorem State.updKey_sealSerial (k : Nat) (f : KeySlot → KeySlot) : (s.updKey k f).sealSerial = s.sealSerial := rfl
@[simp] theorem State.updKey_keyNames (k : Nat) (f : KeySlot → KeySlot) : (s.updKey k f).keyNames = s.keyNames := rfl
@[simp] theorem State.updKey_dies (k : Nat) (f : KeySlot → KeySlot) : (s.updKey k f).dies = s.dies := rfl
@[simp] theorem State.updKey_cores (k : Nat) (f : KeySlot → KeySlot) : (s.updKey k f).cores = s.cores := rfl
@[simp] theorem State.updKey_tenants (k : Nat) (f : KeySlot → KeySlot) : (s.updKey k f).tenants = s.tenants := rfl
@[simp] theorem State.updKey_queues (k : Nat) (f : KeySlot → KeySlot) : (s.updKey k f).queues = s.queues := rfl
@[simp] theorem State.updKey_strands (k : Nat) (f : KeySlot → KeySlot) : (s.updKey k f).strands = s.strands := rfl
@[simp] theorem State.updKey_chains (k : Nat) (f : KeySlot → KeySlot) : (s.updKey k f).chains = s.chains := rfl
@[simp] theorem State.updKey_seals (k : Nat) (f : KeySlot → KeySlot) : (s.updKey k f).seals = s.seals := rfl
@[simp] theorem State.updKey_groups (k : Nat) (f : KeySlot → KeySlot) : (s.updKey k f).groups = s.groups := rfl
@[simp] theorem State.updKey_ready (k : Nat) (f : KeySlot → KeySlot) : (s.updKey k f).ready = s.ready := rfl
@[simp] theorem State.updKey_closes (k : Nat) (f : KeySlot → KeySlot) : (s.updKey k f).closes = s.closes := rfl
@[simp] theorem State.updKey_frames (k : Nat) (f : KeySlot → KeySlot) : (s.updKey k f).frames = s.frames := rfl
@[simp] theorem State.updKey_mem (k : Nat) (f : KeySlot → KeySlot) : (s.updKey k f).mem = s.mem := rfl
@[simp] theorem State.updKey_mtags (k : Nat) (f : KeySlot → KeySlot) : (s.updKey k f).mtags = s.mtags := rfl
@[simp] theorem State.updKey_mkeys (k : Nat) (f : KeySlot → KeySlot) : (s.updKey k f).mkeys = s.mkeys := rfl
@[simp] theorem State.updKey_poison (k : Nat) (f : KeySlot → KeySlot) : (s.updKey k f).poison = s.poison := rfl
@[simp] theorem State.updKey_stale (k : Nat) (f : KeySlot → KeySlot) : (s.updKey k f).stale = s.stale := rfl
@[simp] theorem State.updKey_races (k : Nat) (f : KeySlot → KeySlot) : (s.updKey k f).races = s.races := rfl
@[simp] theorem State.updKey_nextRegion (k : Nat) (f : KeySlot → KeySlot) : (s.updKey k f).nextRegion = s.nextRegion := rfl
@[simp] theorem State.updKey_ops (k : Nat) (f : KeySlot → KeySlot) : (s.updKey k f).ops = s.ops := rfl
@[simp] theorem State.updKey_requests (k : Nat) (f : KeySlot → KeySlot) : (s.updKey k f).requests = s.requests := rfl
@[simp] theorem State.updKey_remote (k : Nat) (f : KeySlot → KeySlot) : (s.updKey k f).remote = s.remote := rfl
@[simp] theorem State.updKey_hostMem (k : Nat) (f : KeySlot → KeySlot) : (s.updKey k f).hostMem = s.hostMem := rfl
@[simp] theorem State.updKey_peerMem (k : Nat) (f : KeySlot → KeySlot) : (s.updKey k f).peerMem = s.peerMem := rfl
@[simp] theorem State.updKey_peerTags (k : Nat) (f : KeySlot → KeySlot) : (s.updKey k f).peerTags = s.peerTags := rfl
@[simp] theorem State.updKey_peerCtl (k : Nat) (f : KeySlot → KeySlot) : (s.updKey k f).peerCtl = s.peerCtl := rfl
@[simp] theorem State.updKey_peerRefuse (k : Nat) (f : KeySlot → KeySlot) : (s.updKey k f).peerRefuse = s.peerRefuse := rfl
@[simp] theorem State.updKey_peerCtlRefuse (k : Nat) (f : KeySlot → KeySlot) : (s.updKey k f).peerCtlRefuse = s.peerCtlRefuse := rfl
@[simp] theorem State.updKey_peerGens (k : Nat) (f : KeySlot → KeySlot) : (s.updKey k f).peerGens = s.peerGens := rfl
@[simp] theorem State.updKey_peerActs (k : Nat) (f : KeySlot → KeySlot) : (s.updKey k f).peerActs = s.peerActs := rfl
@[simp] theorem State.updKey_serving (k : Nat) (f : KeySlot → KeySlot) : (s.updKey k f).serving = s.serving := rfl
@[simp] theorem State.updKey_failing (k : Nat) (f : KeySlot → KeySlot) : (s.updKey k f).failing = s.failing := rfl

/-! `State.updSeal` changes `seals` alone. -/

@[simp] theorem State.updSeal_agenda (m : Nat) (f : SealRecord → SealRecord) : (s.updSeal m f).agenda = s.agenda := rfl
@[simp] theorem State.updSeal_cur (m : Nat) (f : SealRecord → SealRecord) : (s.updSeal m f).cur = s.cur := rfl
@[simp] theorem State.updSeal_npc (m : Nat) (f : SealRecord → SealRecord) : (s.updSeal m f).npc = s.npc := rfl
@[simp] theorem State.updSeal_tick (m : Nat) (f : SealRecord → SealRecord) : (s.updSeal m f).tick = s.tick := rfl
@[simp] theorem State.updSeal_nextId (m : Nat) (f : SealRecord → SealRecord) : (s.updSeal m f).nextId = s.nextId := rfl
@[simp] theorem State.updSeal_time (m : Nat) (f : SealRecord → SealRecord) : (s.updSeal m f).time = s.time := rfl
@[simp] theorem State.updSeal_package (m : Nat) (f : SealRecord → SealRecord) : (s.updSeal m f).package = s.package := rfl
@[simp] theorem State.updSeal_hosterr (m : Nat) (f : SealRecord → SealRecord) : (s.updSeal m f).hosterr = s.hosterr := rfl
@[simp] theorem State.updSeal_gen (m : Nat) (f : SealRecord → SealRecord) : (s.updSeal m f).gen = s.gen := rfl
@[simp] theorem State.updSeal_domain (m : Nat) (f : SealRecord → SealRecord) : (s.updSeal m f).domain = s.domain := rfl
@[simp] theorem State.updSeal_link (m : Nat) (f : SealRecord → SealRecord) : (s.updSeal m f).link = s.link := rfl
@[simp] theorem State.updSeal_atomen (m : Nat) (f : SealRecord → SealRecord) : (s.updSeal m f).atomen = s.atomen := rfl
@[simp] theorem State.updSeal_win (m : Nat) (f : SealRecord → SealRecord) : (s.updSeal m f).win = s.win := rfl
@[simp] theorem State.updSeal_route (m : Nat) (f : SealRecord → SealRecord) : (s.updSeal m f).route = s.route := rfl
@[simp] theorem State.updSeal_modes (m : Nat) (f : SealRecord → SealRecord) : (s.updSeal m f).modes = s.modes := rfl
@[simp] theorem State.updSeal_sealpub (m : Nat) (f : SealRecord → SealRecord) : (s.updSeal m f).sealpub = s.sealpub := rfl
@[simp] theorem State.updSeal_provpub (m : Nat) (f : SealRecord → SealRecord) : (s.updSeal m f).provpub = s.provpub := rfl
@[simp] theorem State.updSeal_sealkey (m : Nat) (f : SealRecord → SealRecord) : (s.updSeal m f).sealkey = s.sealkey := rfl
@[simp] theorem State.updSeal_provkey (m : Nat) (f : SealRecord → SealRecord) : (s.updSeal m f).provkey = s.provkey := rfl
@[simp] theorem State.updSeal_bootPhase (m : Nat) (f : SealRecord → SealRecord) : (s.updSeal m f).bootPhase = s.bootPhase := rfl
@[simp] theorem State.updSeal_bootResult (m : Nat) (f : SealRecord → SealRecord) : (s.updSeal m f).bootResult = s.bootResult := rfl
@[simp] theorem State.updSeal_bootRetried (m : Nat) (f : SealRecord → SealRecord) : (s.updSeal m f).bootRetried = s.bootRetried := rfl
@[simp] theorem State.updSeal_identity (m : Nat) (f : SealRecord → SealRecord) : (s.updSeal m f).identity = s.identity := rfl
@[simp] theorem State.updSeal_halted (m : Nat) (f : SealRecord → SealRecord) : (s.updSeal m f).halted = s.halted := rfl
@[simp] theorem State.updSeal_pwrlim (m : Nat) (f : SealRecord → SealRecord) : (s.updSeal m f).pwrlim = s.pwrlim := rfl
@[simp] theorem State.updSeal_power (m : Nat) (f : SealRecord → SealRecord) : (s.updSeal m f).power = s.power := rfl
@[simp] theorem State.updSeal_temp (m : Nat) (f : SealRecord → SealRecord) : (s.updSeal m f).temp = s.temp := rfl
@[simp] theorem State.updSeal_trip (m : Nat) (f : SealRecord → SealRecord) : (s.updSeal m f).trip = s.trip := rfl
@[simp] theorem State.updSeal_fwver (m : Nat) (f : SealRecord → SealRecord) : (s.updSeal m f).fwver = s.fwver := rfl
@[simp] theorem State.updSeal_staged (m : Nat) (f : SealRecord → SealRecord) : (s.updSeal m f).staged = s.staged := rfl
@[simp] theorem State.updSeal_fwprev (m : Nat) (f : SealRecord → SealRecord) : (s.updSeal m f).fwprev = s.fwprev := rfl
@[simp] theorem State.updSeal_fuses (m : Nat) (f : SealRecord → SealRecord) : (s.updSeal m f).fuses = s.fuses := rfl
@[simp] theorem State.updSeal_hubTemp (m : Nat) (f : SealRecord → SealRecord) : (s.updSeal m f).hubTemp = s.hubTemp := rfl
@[simp] theorem State.updSeal_baseTemps (m : Nat) (f : SealRecord → SealRecord) : (s.updSeal m f).baseTemps = s.baseTemps := rfl
@[simp] theorem State.updSeal_peers (m : Nat) (f : SealRecord → SealRecord) : (s.updSeal m f).peers = s.peers := rfl
@[simp] theorem State.updSeal_linkUp (m : Nat) (f : SealRecord → SealRecord) : (s.updSeal m f).linkUp = s.linkUp := rfl
@[simp] theorem State.updSeal_busMaster (m : Nat) (f : SealRecord → SealRecord) : (s.updSeal m f).busMaster = s.busMaster := rfl
@[simp] theorem State.updSeal_msixPending (m : Nat) (f : SealRecord → SealRecord) : (s.updSeal m f).msixPending = s.msixPending := rfl
@[simp] theorem State.updSeal_msixSent (m : Nat) (f : SealRecord → SealRecord) : (s.updSeal m f).msixSent = s.msixSent := rfl
@[simp] theorem State.updSeal_msixTable (m : Nat) (f : SealRecord → SealRecord) : (s.updSeal m f).msixTable = s.msixTable := rfl
@[simp] theorem State.updSeal_bars (m : Nat) (f : SealRecord → SealRecord) : (s.updSeal m f).bars = s.bars := rfl
@[simp] theorem State.updSeal_devctl2 (m : Nat) (f : SealRecord → SealRecord) : (s.updSeal m f).devctl2 = s.devctl2 := rfl
@[simp] theorem State.updSeal_hostQueue (m : Nat) (f : SealRecord → SealRecord) : (s.updSeal m f).hostQueue = s.hostQueue := rfl
@[simp] theorem State.updSeal_hostAnswer (m : Nat) (f : SealRecord → SealRecord) : (s.updSeal m f).hostAnswer = s.hostAnswer := rfl
@[simp] theorem State.updSeal_peerAnswer (m : Nat) (f : SealRecord → SealRecord) : (s.updSeal m f).peerAnswer = s.peerAnswer := rfl
@[simp] theorem State.updSeal_sealSerial (m : Nat) (f : SealRecord → SealRecord) : (s.updSeal m f).sealSerial = s.sealSerial := rfl
@[simp] theorem State.updSeal_keyNames (m : Nat) (f : SealRecord → SealRecord) : (s.updSeal m f).keyNames = s.keyNames := rfl
@[simp] theorem State.updSeal_dies (m : Nat) (f : SealRecord → SealRecord) : (s.updSeal m f).dies = s.dies := rfl
@[simp] theorem State.updSeal_cores (m : Nat) (f : SealRecord → SealRecord) : (s.updSeal m f).cores = s.cores := rfl
@[simp] theorem State.updSeal_tenants (m : Nat) (f : SealRecord → SealRecord) : (s.updSeal m f).tenants = s.tenants := rfl
@[simp] theorem State.updSeal_queues (m : Nat) (f : SealRecord → SealRecord) : (s.updSeal m f).queues = s.queues := rfl
@[simp] theorem State.updSeal_strands (m : Nat) (f : SealRecord → SealRecord) : (s.updSeal m f).strands = s.strands := rfl
@[simp] theorem State.updSeal_chains (m : Nat) (f : SealRecord → SealRecord) : (s.updSeal m f).chains = s.chains := rfl
@[simp] theorem State.updSeal_keys (m : Nat) (f : SealRecord → SealRecord) : (s.updSeal m f).keys = s.keys := rfl
@[simp] theorem State.updSeal_groups (m : Nat) (f : SealRecord → SealRecord) : (s.updSeal m f).groups = s.groups := rfl
@[simp] theorem State.updSeal_ready (m : Nat) (f : SealRecord → SealRecord) : (s.updSeal m f).ready = s.ready := rfl
@[simp] theorem State.updSeal_closes (m : Nat) (f : SealRecord → SealRecord) : (s.updSeal m f).closes = s.closes := rfl
@[simp] theorem State.updSeal_frames (m : Nat) (f : SealRecord → SealRecord) : (s.updSeal m f).frames = s.frames := rfl
@[simp] theorem State.updSeal_mem (m : Nat) (f : SealRecord → SealRecord) : (s.updSeal m f).mem = s.mem := rfl
@[simp] theorem State.updSeal_mtags (m : Nat) (f : SealRecord → SealRecord) : (s.updSeal m f).mtags = s.mtags := rfl
@[simp] theorem State.updSeal_mkeys (m : Nat) (f : SealRecord → SealRecord) : (s.updSeal m f).mkeys = s.mkeys := rfl
@[simp] theorem State.updSeal_poison (m : Nat) (f : SealRecord → SealRecord) : (s.updSeal m f).poison = s.poison := rfl
@[simp] theorem State.updSeal_stale (m : Nat) (f : SealRecord → SealRecord) : (s.updSeal m f).stale = s.stale := rfl
@[simp] theorem State.updSeal_races (m : Nat) (f : SealRecord → SealRecord) : (s.updSeal m f).races = s.races := rfl
@[simp] theorem State.updSeal_nextRegion (m : Nat) (f : SealRecord → SealRecord) : (s.updSeal m f).nextRegion = s.nextRegion := rfl
@[simp] theorem State.updSeal_ops (m : Nat) (f : SealRecord → SealRecord) : (s.updSeal m f).ops = s.ops := rfl
@[simp] theorem State.updSeal_requests (m : Nat) (f : SealRecord → SealRecord) : (s.updSeal m f).requests = s.requests := rfl
@[simp] theorem State.updSeal_remote (m : Nat) (f : SealRecord → SealRecord) : (s.updSeal m f).remote = s.remote := rfl
@[simp] theorem State.updSeal_hostMem (m : Nat) (f : SealRecord → SealRecord) : (s.updSeal m f).hostMem = s.hostMem := rfl
@[simp] theorem State.updSeal_peerMem (m : Nat) (f : SealRecord → SealRecord) : (s.updSeal m f).peerMem = s.peerMem := rfl
@[simp] theorem State.updSeal_peerTags (m : Nat) (f : SealRecord → SealRecord) : (s.updSeal m f).peerTags = s.peerTags := rfl
@[simp] theorem State.updSeal_peerCtl (m : Nat) (f : SealRecord → SealRecord) : (s.updSeal m f).peerCtl = s.peerCtl := rfl
@[simp] theorem State.updSeal_peerRefuse (m : Nat) (f : SealRecord → SealRecord) : (s.updSeal m f).peerRefuse = s.peerRefuse := rfl
@[simp] theorem State.updSeal_peerCtlRefuse (m : Nat) (f : SealRecord → SealRecord) : (s.updSeal m f).peerCtlRefuse = s.peerCtlRefuse := rfl
@[simp] theorem State.updSeal_peerGens (m : Nat) (f : SealRecord → SealRecord) : (s.updSeal m f).peerGens = s.peerGens := rfl
@[simp] theorem State.updSeal_peerActs (m : Nat) (f : SealRecord → SealRecord) : (s.updSeal m f).peerActs = s.peerActs := rfl
@[simp] theorem State.updSeal_serving (m : Nat) (f : SealRecord → SealRecord) : (s.updSeal m f).serving = s.serving := rfl
@[simp] theorem State.updSeal_failing (m : Nat) (f : SealRecord → SealRecord) : (s.updSeal m f).failing = s.failing := rfl

/-! `State.updGroup` changes `groups` alone. -/

@[simp] theorem State.updGroup_agenda (k : Nat) (f : Group → Group) : (s.updGroup k f).agenda = s.agenda := rfl
@[simp] theorem State.updGroup_cur (k : Nat) (f : Group → Group) : (s.updGroup k f).cur = s.cur := rfl
@[simp] theorem State.updGroup_npc (k : Nat) (f : Group → Group) : (s.updGroup k f).npc = s.npc := rfl
@[simp] theorem State.updGroup_tick (k : Nat) (f : Group → Group) : (s.updGroup k f).tick = s.tick := rfl
@[simp] theorem State.updGroup_nextId (k : Nat) (f : Group → Group) : (s.updGroup k f).nextId = s.nextId := rfl
@[simp] theorem State.updGroup_time (k : Nat) (f : Group → Group) : (s.updGroup k f).time = s.time := rfl
@[simp] theorem State.updGroup_package (k : Nat) (f : Group → Group) : (s.updGroup k f).package = s.package := rfl
@[simp] theorem State.updGroup_hosterr (k : Nat) (f : Group → Group) : (s.updGroup k f).hosterr = s.hosterr := rfl
@[simp] theorem State.updGroup_gen (k : Nat) (f : Group → Group) : (s.updGroup k f).gen = s.gen := rfl
@[simp] theorem State.updGroup_domain (k : Nat) (f : Group → Group) : (s.updGroup k f).domain = s.domain := rfl
@[simp] theorem State.updGroup_link (k : Nat) (f : Group → Group) : (s.updGroup k f).link = s.link := rfl
@[simp] theorem State.updGroup_atomen (k : Nat) (f : Group → Group) : (s.updGroup k f).atomen = s.atomen := rfl
@[simp] theorem State.updGroup_win (k : Nat) (f : Group → Group) : (s.updGroup k f).win = s.win := rfl
@[simp] theorem State.updGroup_route (k : Nat) (f : Group → Group) : (s.updGroup k f).route = s.route := rfl
@[simp] theorem State.updGroup_modes (k : Nat) (f : Group → Group) : (s.updGroup k f).modes = s.modes := rfl
@[simp] theorem State.updGroup_sealpub (k : Nat) (f : Group → Group) : (s.updGroup k f).sealpub = s.sealpub := rfl
@[simp] theorem State.updGroup_provpub (k : Nat) (f : Group → Group) : (s.updGroup k f).provpub = s.provpub := rfl
@[simp] theorem State.updGroup_sealkey (k : Nat) (f : Group → Group) : (s.updGroup k f).sealkey = s.sealkey := rfl
@[simp] theorem State.updGroup_provkey (k : Nat) (f : Group → Group) : (s.updGroup k f).provkey = s.provkey := rfl
@[simp] theorem State.updGroup_bootPhase (k : Nat) (f : Group → Group) : (s.updGroup k f).bootPhase = s.bootPhase := rfl
@[simp] theorem State.updGroup_bootResult (k : Nat) (f : Group → Group) : (s.updGroup k f).bootResult = s.bootResult := rfl
@[simp] theorem State.updGroup_bootRetried (k : Nat) (f : Group → Group) : (s.updGroup k f).bootRetried = s.bootRetried := rfl
@[simp] theorem State.updGroup_identity (k : Nat) (f : Group → Group) : (s.updGroup k f).identity = s.identity := rfl
@[simp] theorem State.updGroup_halted (k : Nat) (f : Group → Group) : (s.updGroup k f).halted = s.halted := rfl
@[simp] theorem State.updGroup_pwrlim (k : Nat) (f : Group → Group) : (s.updGroup k f).pwrlim = s.pwrlim := rfl
@[simp] theorem State.updGroup_power (k : Nat) (f : Group → Group) : (s.updGroup k f).power = s.power := rfl
@[simp] theorem State.updGroup_temp (k : Nat) (f : Group → Group) : (s.updGroup k f).temp = s.temp := rfl
@[simp] theorem State.updGroup_trip (k : Nat) (f : Group → Group) : (s.updGroup k f).trip = s.trip := rfl
@[simp] theorem State.updGroup_fwver (k : Nat) (f : Group → Group) : (s.updGroup k f).fwver = s.fwver := rfl
@[simp] theorem State.updGroup_staged (k : Nat) (f : Group → Group) : (s.updGroup k f).staged = s.staged := rfl
@[simp] theorem State.updGroup_fwprev (k : Nat) (f : Group → Group) : (s.updGroup k f).fwprev = s.fwprev := rfl
@[simp] theorem State.updGroup_fuses (k : Nat) (f : Group → Group) : (s.updGroup k f).fuses = s.fuses := rfl
@[simp] theorem State.updGroup_hubTemp (k : Nat) (f : Group → Group) : (s.updGroup k f).hubTemp = s.hubTemp := rfl
@[simp] theorem State.updGroup_baseTemps (k : Nat) (f : Group → Group) : (s.updGroup k f).baseTemps = s.baseTemps := rfl
@[simp] theorem State.updGroup_peers (k : Nat) (f : Group → Group) : (s.updGroup k f).peers = s.peers := rfl
@[simp] theorem State.updGroup_linkUp (k : Nat) (f : Group → Group) : (s.updGroup k f).linkUp = s.linkUp := rfl
@[simp] theorem State.updGroup_busMaster (k : Nat) (f : Group → Group) : (s.updGroup k f).busMaster = s.busMaster := rfl
@[simp] theorem State.updGroup_msixPending (k : Nat) (f : Group → Group) : (s.updGroup k f).msixPending = s.msixPending := rfl
@[simp] theorem State.updGroup_msixSent (k : Nat) (f : Group → Group) : (s.updGroup k f).msixSent = s.msixSent := rfl
@[simp] theorem State.updGroup_msixTable (k : Nat) (f : Group → Group) : (s.updGroup k f).msixTable = s.msixTable := rfl
@[simp] theorem State.updGroup_bars (k : Nat) (f : Group → Group) : (s.updGroup k f).bars = s.bars := rfl
@[simp] theorem State.updGroup_devctl2 (k : Nat) (f : Group → Group) : (s.updGroup k f).devctl2 = s.devctl2 := rfl
@[simp] theorem State.updGroup_hostQueue (k : Nat) (f : Group → Group) : (s.updGroup k f).hostQueue = s.hostQueue := rfl
@[simp] theorem State.updGroup_hostAnswer (k : Nat) (f : Group → Group) : (s.updGroup k f).hostAnswer = s.hostAnswer := rfl
@[simp] theorem State.updGroup_peerAnswer (k : Nat) (f : Group → Group) : (s.updGroup k f).peerAnswer = s.peerAnswer := rfl
@[simp] theorem State.updGroup_sealSerial (k : Nat) (f : Group → Group) : (s.updGroup k f).sealSerial = s.sealSerial := rfl
@[simp] theorem State.updGroup_keyNames (k : Nat) (f : Group → Group) : (s.updGroup k f).keyNames = s.keyNames := rfl
@[simp] theorem State.updGroup_dies (k : Nat) (f : Group → Group) : (s.updGroup k f).dies = s.dies := rfl
@[simp] theorem State.updGroup_cores (k : Nat) (f : Group → Group) : (s.updGroup k f).cores = s.cores := rfl
@[simp] theorem State.updGroup_tenants (k : Nat) (f : Group → Group) : (s.updGroup k f).tenants = s.tenants := rfl
@[simp] theorem State.updGroup_queues (k : Nat) (f : Group → Group) : (s.updGroup k f).queues = s.queues := rfl
@[simp] theorem State.updGroup_strands (k : Nat) (f : Group → Group) : (s.updGroup k f).strands = s.strands := rfl
@[simp] theorem State.updGroup_chains (k : Nat) (f : Group → Group) : (s.updGroup k f).chains = s.chains := rfl
@[simp] theorem State.updGroup_keys (k : Nat) (f : Group → Group) : (s.updGroup k f).keys = s.keys := rfl
@[simp] theorem State.updGroup_seals (k : Nat) (f : Group → Group) : (s.updGroup k f).seals = s.seals := rfl
@[simp] theorem State.updGroup_ready (k : Nat) (f : Group → Group) : (s.updGroup k f).ready = s.ready := rfl
@[simp] theorem State.updGroup_closes (k : Nat) (f : Group → Group) : (s.updGroup k f).closes = s.closes := rfl
@[simp] theorem State.updGroup_frames (k : Nat) (f : Group → Group) : (s.updGroup k f).frames = s.frames := rfl
@[simp] theorem State.updGroup_mem (k : Nat) (f : Group → Group) : (s.updGroup k f).mem = s.mem := rfl
@[simp] theorem State.updGroup_mtags (k : Nat) (f : Group → Group) : (s.updGroup k f).mtags = s.mtags := rfl
@[simp] theorem State.updGroup_mkeys (k : Nat) (f : Group → Group) : (s.updGroup k f).mkeys = s.mkeys := rfl
@[simp] theorem State.updGroup_poison (k : Nat) (f : Group → Group) : (s.updGroup k f).poison = s.poison := rfl
@[simp] theorem State.updGroup_stale (k : Nat) (f : Group → Group) : (s.updGroup k f).stale = s.stale := rfl
@[simp] theorem State.updGroup_races (k : Nat) (f : Group → Group) : (s.updGroup k f).races = s.races := rfl
@[simp] theorem State.updGroup_nextRegion (k : Nat) (f : Group → Group) : (s.updGroup k f).nextRegion = s.nextRegion := rfl
@[simp] theorem State.updGroup_ops (k : Nat) (f : Group → Group) : (s.updGroup k f).ops = s.ops := rfl
@[simp] theorem State.updGroup_requests (k : Nat) (f : Group → Group) : (s.updGroup k f).requests = s.requests := rfl
@[simp] theorem State.updGroup_remote (k : Nat) (f : Group → Group) : (s.updGroup k f).remote = s.remote := rfl
@[simp] theorem State.updGroup_hostMem (k : Nat) (f : Group → Group) : (s.updGroup k f).hostMem = s.hostMem := rfl
@[simp] theorem State.updGroup_peerMem (k : Nat) (f : Group → Group) : (s.updGroup k f).peerMem = s.peerMem := rfl
@[simp] theorem State.updGroup_peerTags (k : Nat) (f : Group → Group) : (s.updGroup k f).peerTags = s.peerTags := rfl
@[simp] theorem State.updGroup_peerCtl (k : Nat) (f : Group → Group) : (s.updGroup k f).peerCtl = s.peerCtl := rfl
@[simp] theorem State.updGroup_peerRefuse (k : Nat) (f : Group → Group) : (s.updGroup k f).peerRefuse = s.peerRefuse := rfl
@[simp] theorem State.updGroup_peerCtlRefuse (k : Nat) (f : Group → Group) : (s.updGroup k f).peerCtlRefuse = s.peerCtlRefuse := rfl
@[simp] theorem State.updGroup_peerGens (k : Nat) (f : Group → Group) : (s.updGroup k f).peerGens = s.peerGens := rfl
@[simp] theorem State.updGroup_peerActs (k : Nat) (f : Group → Group) : (s.updGroup k f).peerActs = s.peerActs := rfl
@[simp] theorem State.updGroup_serving (k : Nat) (f : Group → Group) : (s.updGroup k f).serving = s.serving := rfl
@[simp] theorem State.updGroup_failing (k : Nat) (f : Group → Group) : (s.updGroup k f).failing = s.failing := rfl

/-! `State.updDie` changes `dies` alone. -/

@[simp] theorem State.updDie_agenda (d : Nat) (f : Die → Die) : (s.updDie d f).agenda = s.agenda := rfl
@[simp] theorem State.updDie_cur (d : Nat) (f : Die → Die) : (s.updDie d f).cur = s.cur := rfl
@[simp] theorem State.updDie_npc (d : Nat) (f : Die → Die) : (s.updDie d f).npc = s.npc := rfl
@[simp] theorem State.updDie_tick (d : Nat) (f : Die → Die) : (s.updDie d f).tick = s.tick := rfl
@[simp] theorem State.updDie_nextId (d : Nat) (f : Die → Die) : (s.updDie d f).nextId = s.nextId := rfl
@[simp] theorem State.updDie_time (d : Nat) (f : Die → Die) : (s.updDie d f).time = s.time := rfl
@[simp] theorem State.updDie_package (d : Nat) (f : Die → Die) : (s.updDie d f).package = s.package := rfl
@[simp] theorem State.updDie_hosterr (d : Nat) (f : Die → Die) : (s.updDie d f).hosterr = s.hosterr := rfl
@[simp] theorem State.updDie_gen (d : Nat) (f : Die → Die) : (s.updDie d f).gen = s.gen := rfl
@[simp] theorem State.updDie_domain (d : Nat) (f : Die → Die) : (s.updDie d f).domain = s.domain := rfl
@[simp] theorem State.updDie_link (d : Nat) (f : Die → Die) : (s.updDie d f).link = s.link := rfl
@[simp] theorem State.updDie_atomen (d : Nat) (f : Die → Die) : (s.updDie d f).atomen = s.atomen := rfl
@[simp] theorem State.updDie_win (d : Nat) (f : Die → Die) : (s.updDie d f).win = s.win := rfl
@[simp] theorem State.updDie_route (d : Nat) (f : Die → Die) : (s.updDie d f).route = s.route := rfl
@[simp] theorem State.updDie_modes (d : Nat) (f : Die → Die) : (s.updDie d f).modes = s.modes := rfl
@[simp] theorem State.updDie_sealpub (d : Nat) (f : Die → Die) : (s.updDie d f).sealpub = s.sealpub := rfl
@[simp] theorem State.updDie_provpub (d : Nat) (f : Die → Die) : (s.updDie d f).provpub = s.provpub := rfl
@[simp] theorem State.updDie_sealkey (d : Nat) (f : Die → Die) : (s.updDie d f).sealkey = s.sealkey := rfl
@[simp] theorem State.updDie_provkey (d : Nat) (f : Die → Die) : (s.updDie d f).provkey = s.provkey := rfl
@[simp] theorem State.updDie_bootPhase (d : Nat) (f : Die → Die) : (s.updDie d f).bootPhase = s.bootPhase := rfl
@[simp] theorem State.updDie_bootResult (d : Nat) (f : Die → Die) : (s.updDie d f).bootResult = s.bootResult := rfl
@[simp] theorem State.updDie_bootRetried (d : Nat) (f : Die → Die) : (s.updDie d f).bootRetried = s.bootRetried := rfl
@[simp] theorem State.updDie_identity (d : Nat) (f : Die → Die) : (s.updDie d f).identity = s.identity := rfl
@[simp] theorem State.updDie_halted (d : Nat) (f : Die → Die) : (s.updDie d f).halted = s.halted := rfl
@[simp] theorem State.updDie_pwrlim (d : Nat) (f : Die → Die) : (s.updDie d f).pwrlim = s.pwrlim := rfl
@[simp] theorem State.updDie_power (d : Nat) (f : Die → Die) : (s.updDie d f).power = s.power := rfl
@[simp] theorem State.updDie_temp (d : Nat) (f : Die → Die) : (s.updDie d f).temp = s.temp := rfl
@[simp] theorem State.updDie_trip (d : Nat) (f : Die → Die) : (s.updDie d f).trip = s.trip := rfl
@[simp] theorem State.updDie_fwver (d : Nat) (f : Die → Die) : (s.updDie d f).fwver = s.fwver := rfl
@[simp] theorem State.updDie_staged (d : Nat) (f : Die → Die) : (s.updDie d f).staged = s.staged := rfl
@[simp] theorem State.updDie_fwprev (d : Nat) (f : Die → Die) : (s.updDie d f).fwprev = s.fwprev := rfl
@[simp] theorem State.updDie_fuses (d : Nat) (f : Die → Die) : (s.updDie d f).fuses = s.fuses := rfl
@[simp] theorem State.updDie_hubTemp (d : Nat) (f : Die → Die) : (s.updDie d f).hubTemp = s.hubTemp := rfl
@[simp] theorem State.updDie_baseTemps (d : Nat) (f : Die → Die) : (s.updDie d f).baseTemps = s.baseTemps := rfl
@[simp] theorem State.updDie_peers (d : Nat) (f : Die → Die) : (s.updDie d f).peers = s.peers := rfl
@[simp] theorem State.updDie_linkUp (d : Nat) (f : Die → Die) : (s.updDie d f).linkUp = s.linkUp := rfl
@[simp] theorem State.updDie_busMaster (d : Nat) (f : Die → Die) : (s.updDie d f).busMaster = s.busMaster := rfl
@[simp] theorem State.updDie_msixPending (d : Nat) (f : Die → Die) : (s.updDie d f).msixPending = s.msixPending := rfl
@[simp] theorem State.updDie_msixSent (d : Nat) (f : Die → Die) : (s.updDie d f).msixSent = s.msixSent := rfl
@[simp] theorem State.updDie_msixTable (d : Nat) (f : Die → Die) : (s.updDie d f).msixTable = s.msixTable := rfl
@[simp] theorem State.updDie_bars (d : Nat) (f : Die → Die) : (s.updDie d f).bars = s.bars := rfl
@[simp] theorem State.updDie_devctl2 (d : Nat) (f : Die → Die) : (s.updDie d f).devctl2 = s.devctl2 := rfl
@[simp] theorem State.updDie_hostQueue (d : Nat) (f : Die → Die) : (s.updDie d f).hostQueue = s.hostQueue := rfl
@[simp] theorem State.updDie_hostAnswer (d : Nat) (f : Die → Die) : (s.updDie d f).hostAnswer = s.hostAnswer := rfl
@[simp] theorem State.updDie_peerAnswer (d : Nat) (f : Die → Die) : (s.updDie d f).peerAnswer = s.peerAnswer := rfl
@[simp] theorem State.updDie_sealSerial (d : Nat) (f : Die → Die) : (s.updDie d f).sealSerial = s.sealSerial := rfl
@[simp] theorem State.updDie_keyNames (d : Nat) (f : Die → Die) : (s.updDie d f).keyNames = s.keyNames := rfl
@[simp] theorem State.updDie_cores (d : Nat) (f : Die → Die) : (s.updDie d f).cores = s.cores := rfl
@[simp] theorem State.updDie_tenants (d : Nat) (f : Die → Die) : (s.updDie d f).tenants = s.tenants := rfl
@[simp] theorem State.updDie_queues (d : Nat) (f : Die → Die) : (s.updDie d f).queues = s.queues := rfl
@[simp] theorem State.updDie_strands (d : Nat) (f : Die → Die) : (s.updDie d f).strands = s.strands := rfl
@[simp] theorem State.updDie_chains (d : Nat) (f : Die → Die) : (s.updDie d f).chains = s.chains := rfl
@[simp] theorem State.updDie_keys (d : Nat) (f : Die → Die) : (s.updDie d f).keys = s.keys := rfl
@[simp] theorem State.updDie_seals (d : Nat) (f : Die → Die) : (s.updDie d f).seals = s.seals := rfl
@[simp] theorem State.updDie_groups (d : Nat) (f : Die → Die) : (s.updDie d f).groups = s.groups := rfl
@[simp] theorem State.updDie_ready (d : Nat) (f : Die → Die) : (s.updDie d f).ready = s.ready := rfl
@[simp] theorem State.updDie_closes (d : Nat) (f : Die → Die) : (s.updDie d f).closes = s.closes := rfl
@[simp] theorem State.updDie_frames (d : Nat) (f : Die → Die) : (s.updDie d f).frames = s.frames := rfl
@[simp] theorem State.updDie_mem (d : Nat) (f : Die → Die) : (s.updDie d f).mem = s.mem := rfl
@[simp] theorem State.updDie_mtags (d : Nat) (f : Die → Die) : (s.updDie d f).mtags = s.mtags := rfl
@[simp] theorem State.updDie_mkeys (d : Nat) (f : Die → Die) : (s.updDie d f).mkeys = s.mkeys := rfl
@[simp] theorem State.updDie_poison (d : Nat) (f : Die → Die) : (s.updDie d f).poison = s.poison := rfl
@[simp] theorem State.updDie_stale (d : Nat) (f : Die → Die) : (s.updDie d f).stale = s.stale := rfl
@[simp] theorem State.updDie_races (d : Nat) (f : Die → Die) : (s.updDie d f).races = s.races := rfl
@[simp] theorem State.updDie_nextRegion (d : Nat) (f : Die → Die) : (s.updDie d f).nextRegion = s.nextRegion := rfl
@[simp] theorem State.updDie_ops (d : Nat) (f : Die → Die) : (s.updDie d f).ops = s.ops := rfl
@[simp] theorem State.updDie_requests (d : Nat) (f : Die → Die) : (s.updDie d f).requests = s.requests := rfl
@[simp] theorem State.updDie_remote (d : Nat) (f : Die → Die) : (s.updDie d f).remote = s.remote := rfl
@[simp] theorem State.updDie_hostMem (d : Nat) (f : Die → Die) : (s.updDie d f).hostMem = s.hostMem := rfl
@[simp] theorem State.updDie_peerMem (d : Nat) (f : Die → Die) : (s.updDie d f).peerMem = s.peerMem := rfl
@[simp] theorem State.updDie_peerTags (d : Nat) (f : Die → Die) : (s.updDie d f).peerTags = s.peerTags := rfl
@[simp] theorem State.updDie_peerCtl (d : Nat) (f : Die → Die) : (s.updDie d f).peerCtl = s.peerCtl := rfl
@[simp] theorem State.updDie_peerRefuse (d : Nat) (f : Die → Die) : (s.updDie d f).peerRefuse = s.peerRefuse := rfl
@[simp] theorem State.updDie_peerCtlRefuse (d : Nat) (f : Die → Die) : (s.updDie d f).peerCtlRefuse = s.peerCtlRefuse := rfl
@[simp] theorem State.updDie_peerGens (d : Nat) (f : Die → Die) : (s.updDie d f).peerGens = s.peerGens := rfl
@[simp] theorem State.updDie_peerActs (d : Nat) (f : Die → Die) : (s.updDie d f).peerActs = s.peerActs := rfl
@[simp] theorem State.updDie_serving (d : Nat) (f : Die → Die) : (s.updDie d f).serving = s.serving := rfl
@[simp] theorem State.updDie_failing (d : Nat) (f : Die → Die) : (s.updDie d f).failing = s.failing := rfl

/-! Reading a part after it is replaced. -/

theorem State.strand_setStrand (n m : Nat) (x : Strand) :
    (s.setStrand n x).strand m = if m = n then x else s.strand m :=
  lookupD_insertAt s.strands n m x Strand.empty

@[simp] theorem State.strand_setStrand_self (n : Nat) (x : Strand) :
    (s.setStrand n x).strand n = x := by simp [State.strand_setStrand]

theorem State.strand_updStrand (n m : Nat) (f : Strand → Strand) :
    (s.updStrand n f).strand m = if m = n then f (s.strand n) else s.strand m :=
  s.strand_setStrand n m _

@[simp] theorem State.strand_updStrand_self (n : Nat) (f : Strand → Strand) :
    (s.updStrand n f).strand n = f (s.strand n) := by simp [State.strand_updStrand]

theorem State.strand_updMe (m : Nat) (f : Strand → Strand) :
    (s.updMe f).strand m = if m = s.cur then f s.me else s.strand m :=
  s.strand_updStrand s.cur m f

@[simp] theorem State.me_updMe (f : Strand → Strand) : (s.updMe f).me = f s.me := by
  simp [State.me, State.strand_updMe]

@[simp] theorem State.updMe_updMe (f g : Strand → Strand) :
    ((s.updMe f).updMe g).me = g (f s.me) := by simp

@[simp] theorem State.core_updCore_self (c : Nat) (f : Core → Core) :
    (s.updCore c f).core c = f (s.core c) := by simp [State.core, State.updCore]

theorem State.core_updCore (c d : Nat) (f : Core → Core) :
    (s.updCore c f).core d = if d = c then f (s.core c) else s.core d :=
  lookupD_insertAt s.cores c d _ Core.empty

@[simp] theorem State.tenant_updTenant_self (n : Nat) (f : Tenant → Tenant) :
    (s.updTenant n f).tenant n = f (s.tenant n) := by simp [State.tenant, State.updTenant]

theorem State.tenant_updTenant (n m : Nat) (f : Tenant → Tenant) :
    (s.updTenant n f).tenant m = if m = n then f (s.tenant n) else s.tenant m :=
  lookupD_insertAt s.tenants n m _ Tenant.empty

@[simp] theorem State.queue_updQueue_self (q : Nat) (f : Queue → Queue) :
    (s.updQueue q f).queue q = f (s.queue q) := by simp [State.queue, State.updQueue]

theorem State.queue_updQueue (q r : Nat) (f : Queue → Queue) :
    (s.updQueue q f).queue r = if r = q then f (s.queue q) else s.queue r :=
  lookupD_insertAt s.queues q r _ Queue.empty

@[simp] theorem State.chain_updChain_self (c : Nat) (f : Chain → Chain) :
    (s.updChain c f).chain c = f (s.chain c) := by simp [State.chain, State.updChain]

theorem State.chain_updChain (c d : Nat) (f : Chain → Chain) :
    (s.updChain c f).chain d = if d = c then f (s.chain c) else s.chain d :=
  lookupD_insertAt s.chains c d _ Chain.empty

@[simp] theorem State.key_updKey_self (k : Nat) (f : KeySlot → KeySlot) :
    (s.updKey k f).key k = f (s.key k) := by simp [State.key, State.updKey]

theorem State.key_updKey (k j : Nat) (f : KeySlot → KeySlot) :
    (s.updKey k f).key j = if j = k then f (s.key k) else s.key j :=
  lookupD_insertAt s.keys k j _ KeySlot.empty

@[simp] theorem State.seal_updSeal_self (m : Nat) (f : SealRecord → SealRecord) :
    (s.updSeal m f).seal m = f (s.seal m) := by simp [State.seal, State.updSeal]

@[simp] theorem State.group_updGroup_self (k : Nat) (f : Group → Group) :
    (s.updGroup k f).group k = f (s.group k) := by simp [State.group, State.updGroup]

/-! The strand's own updates. -/

@[simp] theorem Strand.sreg_zero (x : Strand) : x.sreg 0#5 = 0#64 := rfl

/-- A scalar register after a write: `s0` reads zero, and discards the write (R15). -/
theorem Strand.sreg_setS (x : Strand) (r q : SReg) (v : Word) :
    (x.setS r v).sreg q = if q = 0#5 then 0#64 else if q = r then v else x.sreg q := by
  by_cases hq : q = 0#5
  · simp [Strand.sreg, hq]
  · by_cases hr : r = 0#5
    · simp [Strand.sreg, Strand.setS, hq, hr]
    · have hlt : r.toNat < 32 := r.isLt
      have hq2 : q.toNat < 32 := q.isLt
      by_cases h : q = r
      · subst h
        simp [Strand.sreg, Strand.setS, hq, List.getD_eq_getElem?_getD, hq2]
      · have : r.toNat ≠ q.toNat := fun e => h (BitVec.eq_of_toNat_eq e.symm)
        simp [Strand.sreg, Strand.setS, hq, hr, h, List.getD_eq_getElem?_getD, this]

end Sys2Proof.Machine
end

