-- ==== Sys2Proof/Laws/Ops.lean ====
section
/-! SUPPORT. What the shared operations do, once: retirement, scalar and float results, raising a cause,
and the two ways a meaning ends. -/

namespace Sys2Proof.Machine

/-! Retirement. -/

theorem Strand.retire_pc (x : Strand) (p : Word) : (x.retire p).pc = p := by
  unfold Strand.retire Strand.endStep
  split <;> rfl

theorem Strand.retire_sreg (x : Strand) (p : Word) (r : SReg) : (x.retire p).sreg r = x.sreg r := by
  unfold Strand.retire Strand.endStep
  split <;> rfl

theorem Strand.retire_fflags (x : Strand) (p : Word) : (x.retire p).fflags = x.fflags := by
  unfold Strand.retire Strand.endStep
  split <;> rfl

theorem Strand.retire_settled (x : Strand) (p : Word) : (x.retire p).settled = x.settled := by
  unfold Strand.retire Strand.endStep
  split <;> rfl

/-- Every scalar register. -/
theorem Strand.retire_s (x : Strand) (p : Word) : (x.retire p).s = x.s := by
  unfold Strand.retire Strand.endStep
  split <;> rfl

theorem Strand.retire_running (x : Strand) (p : Word) (h : x.stepping = false) :
    (x.retire p).state = x.state ∧ (x.retire p).cause = x.cause ∧ (x.retire p).place = x.place := by
  simp [Strand.retire, Strand.endStep, Strand.advance, h]

theorem Strand.retire_stepped (x : Strand) (p : Word) (h : x.stepping = true) :
    (x.retire p).state = 3#4 ∧ (x.retire p).cause = 0x17#8 ∧ (x.retire p).place = none ∧
      (x.retire p).stepping = false := by
  simp [Strand.retire, Strand.endStep, Strand.advance, h, cStep]

/-- An update of the issuing strand changes nothing else. -/
theorem onlyMe_updMe (s : State) (f : Strand → Strand) : OnlyMe s (s.updMe f) :=
  ⟨rfl, fun n h => by rw [State.strand_updMe, if_neg h]⟩

theorem OnlyMe.trans {s t u : State} (h : OnlyMe s t) (k : OnlyMe t u) : OnlyMe s u := by
  have hc : t.cur = s.cur := by rw [← h.rest]
  refine ⟨?_, fun n hn => ?_⟩
  · rw [← h.rest, ← k.rest]
  · rw [k.others n (hc ▸ hn), h.others n hn]

/-- Retirement of a strand that a function has changed, none of what retirement reads among it. -/
theorem retiredAt_updMe (s : State) (f : Strand → Strand) (p : Word)
    (hs : (f s.me).stepping = s.me.stepping) (h1 : (f s.me).state = s.me.state)
    (h2 : (f s.me).cause = s.me.cause) (h3 : (f s.me).place = s.me.place) :
    RetiredAt s (s.updMe fun x => (f x).retire p) p := by
  refine ⟨by simp [Strand.retire_pc], fun h => ?_, fun h => ?_⟩
  · have := (f s.me).retire_running p (hs.trans h)
    simpa [h1, h2, h3] using this
  · simpa using (f s.me).retire_stepped p (hs.trans h)

/-- Two updates of a strand are one. -/
theorem updStrand_updStrand (s : State) (n : Nat) (f g : Strand → Strand) :
    (s.updStrand n f).updStrand n g = s.updStrand n fun x => g (f x) := by
  unfold State.updStrand
  rw [State.strand_setStrand_self]
  simp only [State.setStrand, insertAt_insertAt]

theorem updMe_updMe (s : State) (f g : Strand → Strand) :
    (s.updMe f).updMe g = s.updMe fun x => g (f x) := updStrand_updStrand s s.cur f g

theorem State.sreg_updMe (s : State) (f : Strand → Strand) (r : SReg) :
    (s.updMe f).sreg r = (f s.me).sreg r := by simp [State.sreg]

/-! A stopping strand (R67). -/

/-- Heeding a STOP changes nothing but what that strand waits for. -/
theorem heedStop_strand (s : State) (n m : Nat) : (s.heedStop n).strand m =
    if m = n ∧ (s.strand n).state = 2#4 ∧ (s.strand n).wait = .none then { s.strand n with wait := .stopping }
    else s.strand m := by
  unfold State.heedStop
  split
  · rw [State.strand_updStrand]
    simp_all
  · rw [if_neg fun h => by simp_all]

theorem heedStop_frame (s : State) (n : Nat) : { s.heedStop n with strands := s.strands } = s := by
  unfold State.heedStop
  split <;> rfl

/-! Scalar results. -/

theorem Strand.setS_other (x : Strand) (r : SReg) (v : Word) :
    x.setS r v = { x with s := (x.setS r v).s } := by
  unfold Strand.setS
  split <;> rfl

theorem result_eq (s : State) (rd : SReg) (v : Word) :
    s.result rd v = s.updMe fun x => (x.setS rd v).retire s.npc := by
  unfold State.result State.setS State.retire
  rw [updMe_updMe]
  rfl

/-- A scalar result is what `ScalarResult` says. -/
theorem result_scalar (s : State) (rd : SReg) (v : Word) : ScalarResult s (s.result rd v) rd v := by
  rw [result_eq]
  have e := s.me.setS_other rd v
  refine ⟨onlyMe_updMe s _, retiredAt_updMe s _ _ ?_ ?_ ?_ ?_, fun r => ?_, ?_⟩
  · rw [e]
  · rw [e]
  · rw [e]
  · rw [e]
  · rw [State.sreg_updMe, Strand.retire_sreg, Strand.sreg_setS]
    rfl
  · rw [State.me_updMe, Strand.retire_settled, Strand.retire_s, e]
    rfl

/-- A floating-point result is what `FloatResult` says. -/
theorem floatResult_float (s : State) (rd : SReg) (z : Nat × Flags) :
    FloatResult s (s.floatResult rd z) rd (BitVec.ofNat 64 z.1) z.2 := by
  have e : s.floatResult rd z =
      s.updMe fun x => ((x.orFlags z.2).setS rd (BitVec.ofNat 64 z.1)).retire s.npc := by
    unfold State.floatResult State.orFlags State.setS State.retire
    rw [updMe_updMe, updMe_updMe]
    rfl
  rw [e]
  have h := (s.me.orFlags z.2).setS_other rd (BitVec.ofNat 64 z.1)
  refine ⟨onlyMe_updMe s _, retiredAt_updMe s _ _ ?_ ?_ ?_ ?_, fun r => ?_, ?_, ?_⟩
  · rw [h]; rfl
  · rw [h]; rfl
  · rw [h]; rfl
  · rw [h]; rfl
  · rw [State.sreg_updMe, Strand.retire_sreg, Strand.sreg_setS]
    rfl
  · rw [State.me_updMe, Strand.retire_fflags, h]
    rfl
  · rw [State.me_updMe, Strand.retire_settled, Strand.retire_s, Strand.retire_fflags, h]
    rfl

/-- An instruction that only retires is what `OnlyRetires` says. -/
theorem retire_only (s : State) : OnlyRetires s s.retire s.npc := by
  refine ⟨onlyMe_updMe s _, retiredAt_updMe s id s.npc rfl rfl rfl rfl, ?_⟩
  rw [State.retire, State.me_updMe, Strand.retire_settled]

theorem retireTo_only (s : State) (p : Word) : OnlyRetires s (s.retireTo p) p := by
  have h := retiredAt_updMe s id p rfl rfl rfl rfl
  refine ⟨onlyMe_updMe s _, ⟨?_, fun hs => ?_, fun hs => ?_⟩, ?_⟩
  · simpa [State.retireTo] using h.pc
  · simpa [State.retireTo] using h.running hs
  · simpa [State.retireTo] using h.stepped hs
  · rw [State.retireTo, State.me_updMe]
    exact Strand.retire_settled s.me p

/-! How a meaning ends. -/

theorem finish_ok (s : State) (m : BitVec 3) (t : State) : finish s m (.ok t) = .next t := rfl

theorem finish_error (s : State) (m : BitVec 3) (e : Stop) :
    finish s m (.error e) = .next (s.stopped m e) := rfl

/-- A meaning that ends through `finish` always answers a next state. -/
theorem finish_next (s : State) (m : BitVec 3) (r : Except Stop State) :
    ∃ t, finish s m r = .next t := by
  cases r with
  | ok t => exact ⟨t, rfl⟩
  | error e => exact ⟨_, rfl⟩

theorem demand_true (c : Nat) (a : Word) : demand true c a = .ok () := rfl

theorem demand_false (c : Nat) (a : Word) : demand false c a = .error (.trap c a) := rfl

/-! The scoreboard's room (R146) and the checks of a plane (R157). -/

/-- A strand whose own entries have room waits for none. -/
theorem boardEntry_of_room (s : State) (k : Nat) (hk : 0 < k) (h : s.boardRoom k) :
    s.boardEntry s.me.core s.cur = .ok () := by
  obtain ⟨hr, ho, hl⟩ := h
  have h1 : decide (s.boardOwn s.me.core s.cur < 8) = true := by simp; omega
  have h2 : decide (256 ≤ (s.boardOwners s.me.core).length) = false := by simp; omega
  simp [State.boardEntry, State.boardFull, h1, h2, hr]

theorem Strand.bindHere_core (x : Strand) : x.bindHere.core = x.core := by
  unfold Strand.bindHere Strand.core
  cases x.place <;> rfl

/-- Binding the strand to its core changes nobody's room. -/
theorem boardRoom_bindHere (s : State) (k : Nat) : (s.updMe Strand.bindHere).boardRoom k ↔ s.boardRoom k := by
  have strand (m : Nat) : ((s.updMe Strand.bindHere).strand m).place = (s.strand m).place ∧
      ((s.updMe Strand.bindHere).strand m).state = (s.strand m).state := by
    simp only [State.updMe, State.strand_updStrand]
    split <;> simp_all [Strand.bindHere]
  have on (c m : Nat) : (s.updMe Strand.bindHere).residentOn c m = s.residentOn c m := by
    simp [State.residentOn, (strand m).1]
  have still (c : Nat) (l : List Nat) : (s.updMe Strand.bindHere).stillOn c l = s.stillOn c l := by
    simp [State.stillOn, on, (strand _).2]
  simp [State.boardRoom, State.boardOwn, State.boardOwners, State.boardHolders, still, on, Strand.bindHere_core, State.core]

/-- `mmac` and `mld` go on exactly when the active plane is loaded and agrees with SHAPE and the mode. -/
theorem planeChecks_ok (s : State) : s.planeChecks = .ok () ↔
    s.engine.nextActive.state = 2#2 ∧ s.engine.nextActive.k = shapeK s.me.shape ∧
    s.engine.nextActive.n = shapeN s.me.shape ∧ s.engine.nextActive.mode = s.engine.mode ∧
    s.engine.nextActive.sparse = s.engine.sparse := by
  simp only [State.planeChecks, demand, bind, Except.bind]
  split <;> rename_i h <;> revert h <;> split <;> simp_all [and_assoc]

/-- Otherwise they raise ILLEGAL_STATE. -/
theorem planeChecks_error (s : State) (h : s.planeChecks ≠ .ok ()) :
    s.planeChecks = .error (.trap cIllegalState 0#64) := by
  simp only [State.planeChecks, demand, bind, Except.bind] at h ⊢
  split <;> rename_i g <;> revert g <;> split <;> simp_all

/-! Taking an exception (R207 to R211). -/

/-- A cause that goes to the handler, raised outside a handler by a strand that has one. -/
theorem raise_handler (s : State) (n c : Nat) (pc a : Word) (h1 : c ≠ cUncorrectable)
    (h2 : fatalCause c = false) (h3 : c ≠ cBreakpoint) (h4 : (s.strand n).inHandler = false)
    (h5 : (s.strand n).trapvec ≠ 0#57) :
    s.raise n c pc a = s.updStrand n fun x => x.enterHandler c pc a := by
  simp [State.raise, h1, h2, h3, h4, h5]

/-- The same without a handler stops the strand in state 4. -/
theorem raise_stop (s : State) (n c : Nat) (pc a : Word) (h1 : c ≠ cUncorrectable)
    (h2 : fatalCause c = false) (h3 : c ≠ cBreakpoint) (h4 : (s.strand n).inHandler = false)
    (h5 : (s.strand n).trapvec = 0#57) :
    s.raise n c pc a = s.updStrand n fun x => x.stopTrapped c pc a := by
  simp [State.raise, h1, h2, h3, h4, h5]

/-- The same in a handler stops the strand with the first trap's registers kept. -/
theorem raise_nested (s : State) (n c : Nat) (pc a : Word) (h1 : c ≠ cUncorrectable)
    (h2 : fatalCause c = false) (h3 : c ≠ cBreakpoint) (h4 : (s.strand n).inHandler = true) :
    s.raise n c pc a = s.updStrand n fun x => x.stopNested c pc := by
  simp [State.raise, h1, h2, h3, h4]

/-! Free choices. -/

/-- A free choice among some alternatives is one of them. -/
theorem State.choose_lt (s : State) (i : Nat) {n : Nat} (h : 0 < n) : s.choose i n < n := Nat.mod_lt _ h

/-! Releases (R174). -/

/-- An entry of a scoreboard keeps its strand's releases waiting. -/
theorem releaseWaits_of_entry {s : State} {n : Nat} (scope : Nat) {c : Nat × Core} {e : SbEntry}
    (hc : c ∈ s.cores) (he : e ∈ c.2.board) (h : e.strand = n) : s.releaseWaits n scope = true := by
  have : s.spadOpen n = true :=
    List.any_eq_true.2 ⟨c, hc, List.any_eq_true.2 ⟨e, he, by simp [h]⟩⟩
  simp [State.releaseWaits, this]

/-- What a release has waited for. -/
theorem releaseWaits_false {s : State} {n scope : Nat} : s.releaseWaits n scope = false ↔
    s.vineOpen n = false ∧ (∀ c ∈ s.cores, ∀ e ∈ c.2.board, e.strand ≠ n) ∧
    (3 ≤ scope → ∀ r ∈ s.remote, r.2.strand ≠ n) := by
  simp only [State.releaseWaits, State.spadOpen, Bool.or_eq_false_iff, Bool.and_eq_false_imp, and_assoc,
    List.any_eq_false, decide_eq_true_eq, beq_iff_eq, ne_eq]
  simp only [List.any_eq_true, beq_iff_eq, not_exists, not_and]

/-! Frame lists (R52, R73). -/

/-- A word of a frame list that is read: HBM of kind 0, 1 or 2 on a die that is not fenced, or of no kind at all. -/
theorem listRefuses_none {s : State} {a : Nat} : s.listRefuses a = none ↔
    a < hbmEnd ∧ s.frameKind a ≠ 4 ∧ s.frameKind a ≠ 3 ∧ (s.die (homeDie a)).fence ≠ 2#2 := by
  unfold State.listRefuses
  split_ifs <;> simp_all

/-- A frame list that is used: every word is read, every entry well formed. -/
theorem frameListFault_none {s : State} {t : Nat} : s.frameListFault t = none ↔
    (∀ a ∈ s.frameListAddrs t, s.listRefuses a = none) ∧ ∀ e ∈ s.frameList t, s.frameOk e = true := by
  unfold State.frameListFault
  cases h : (s.frameListAddrs t).findSome? s.listRefuses with
  | some c =>
    obtain ⟨a, ha, hc⟩ := List.exists_of_findSome?_eq_some h
    refine ⟨nofun, fun g => ?_⟩
    rw [g.1 a ha] at hc
    exact nomatch hc
  | none =>
    have g := List.findSome?_eq_none_iff.1 h
    simp only [List.all_eq_true]
    split <;> simp_all

/-! Islands (R290). -/

/-- The frequency of an island that is on lies within its ceiling. -/
theorem chooseFrequency_within (s : State) {c : BitVec 12} (cap : Nat) (h : 1 ≤ c.toNat) :
    1 ≤ (s.chooseFrequency c cap).toNat ∧ (s.chooseFrequency c cap).toNat ≤ c.toNat := by
  have hc : c ≠ 0#12 := by rintro rfl; simp at h
  unfold State.chooseFrequency
  rw [if_neg hc]
  split
  · exact ⟨h, le_refl _⟩
  · have := s.choose_lt 3 (n := min (max 1 cap) c.toNat) (by omega)
    have := c.isLt
    rw [BitVec.toNat_ofNat, Nat.mod_eq_of_lt (by omega)]
    omega

/-- Storing CEILING writes it. -/
theorem ceilingSet_ceiling (s : State) (d i : Nat) (y : Island) (c : BitVec 12) :
    (s.ceilingSet d i y c).ceiling = c := by
  unfold State.ceilingSet
  split_ifs <;> rfl

end Sys2Proof.Machine
end

