-- ==== Sys2Proof/Laws/Memory.lean ====
section
/-! SUPPORT. HBM, the scratchpads and the memories outside, once: what each operation on them leaves at
every address, what it leaves alone, and that it keeps the canonical form. -/

namespace Sys2Proof.Machine

/-! Reading. -/

theorem hbmRead_length (s : State) (key pa n : Nat) : (s.hbmRead key pa n).length = n := by
  induction n generalizing pa with
  | zero => rfl
  | succ n ih => simp [State.hbmRead, ih]

theorem hbmRead_getD (s : State) (key pa n i : Nat) (h : i < n) :
    (s.hbmRead key pa n).getD i 0#8 = s.hbmByte key (pa + i) := by
  induction n generalizing pa i with
  | zero => omega
  | succ n ih =>
    cases i with
    | zero => rfl
    | succ j =>
      have := ih (pa + 1) j (by omega)
      rw [State.hbmRead, show pa + (j + 1) = pa + 1 + j by omega, ← this]
      rfl

/-- What two states that agree on HBM, its keys and the counter read. -/
theorem hbmByte_congr {s t : State} (hm : t.mem = s.mem) (hk : t.mkeys = s.mkeys) (ht : t.tick = s.tick)
    (key a : Nat) : t.hbmByte key a = s.hbmByte key a := by
  simp only [State.hbmByte, hm, hk, ht]

theorem hbmTag_congr {s t : State} (hm : t.mtags = s.mtags) (hk : t.mkeys = s.mkeys) (ht : t.tick = s.tick)
    (key a : Nat) : t.hbmTag key a = s.hbmTag key a := by
  simp only [State.hbmTag, hm, hk, ht]

/-! A block brought under a key (R271). -/

theorem rekeyBlock_tick (s : State) (key b : Nat) : (s.rekeyBlock key b).tick = s.tick := by
  unfold State.rekeyBlock
  split <;> rfl

theorem rekeyBlock_key (s : State) (key b : Nat) : lookupD (s.rekeyBlock key b).mkeys b 0 = key := by
  unfold State.rekeyBlock
  split
  · assumption
  · exact lookupD_insertAt_self _ _ _ _

/-- The writer's key reads what it read before. -/
theorem rekeyBlock_byte (s : State) (key b a : Nat) :
    (s.rekeyBlock key b).hbmByte key a = s.hbmByte key a := by
  unfold State.rekeyBlock
  split
  · rfl
  · by_cases h : a / 64 = b
    · have e : a = 64 * b + a % 64 := by omega
      have hin := readByte_writeBytes_inside (s.hbmRead key (64 * b) 64) s.mem (64 * b) (a % 64)
        (by rw [hbmRead_length]; omega)
      rw [hbmRead_getD _ _ _ _ _ (by omega)] at hin
      rw [← e] at hin
      simp [State.hbmByte, h, hin]
    · have hout := readByte_writeBytes_outside (s.hbmRead key (64 * b) 64) s.mem (64 * b) a
        (by rw [hbmRead_length]; omega)
      simp only [State.hbmByte, lookupD_insertAt, h, if_false, hout]

theorem rekeyBlock_tag (s : State) (key b a : Nat) :
    (s.rekeyBlock key b).hbmTag key a = s.hbmTag key a := by
  unfold State.rekeyBlock
  split
  · rfl
  · by_cases h : a / 64 = b
    · subst h
      have e : (64 * (a / 64)) / 64 = a / 64 := by omega
      simp [State.hbmTag, lookupD_putAt, e]
    · simp only [State.hbmTag, lookupD_insertAt, lookupD_putAt, h, if_false]

/-- Every key reads other blocks as before. -/
theorem rekeyBlock_other (s : State) (key b k a : Nat) (h : a / 64 ≠ b) :
    (s.rekeyBlock key b).hbmByte k a = s.hbmByte k a ∧ (s.rekeyBlock key b).hbmTag k a = s.hbmTag k a := by
  unfold State.rekeyBlock
  split
  · exact ⟨rfl, rfl⟩
  · have hout := readByte_writeBytes_outside (s.hbmRead key (64 * b) 64) s.mem (64 * b) a
      (by rw [hbmRead_length]; omega)
    exact ⟨by simp only [State.hbmByte, lookupD_insertAt, h, if_false, hout],
      by simp only [State.hbmTag, lookupD_insertAt, lookupD_putAt, h, if_false]⟩

theorem rekeyBlock_frame (s : State) (key b : Nat) :
    { s.rekeyBlock key b with mem := s.mem, mtags := s.mtags, mkeys := s.mkeys } = s := by
  unfold State.rekeyBlock
  split <;> rfl

/-! Bytes put. -/

theorem hbmPutByte_tick (s : State) (key pa : Nat) (v : Byte) : (s.hbmPutByte key pa v).tick = s.tick :=
  rekeyBlock_tick s key (pa / 64)

theorem hbmPutByte_byte (s : State) (key pa : Nat) (v : Byte) (a : Nat) :
    (s.hbmPutByte key pa v).hbmByte key a = if a = pa then v else s.hbmByte key a := by
  have hk := rekeyBlock_key s key (pa / 64)
  have hb := rekeyBlock_byte s key (pa / 64) a
  by_cases h : a = pa
  · subst h
    simp [State.hbmPutByte, State.hbmByte, hk]
  · rw [if_neg h, ← hb]
    simp [State.hbmPutByte, State.hbmByte, h]

theorem hbmPutByte_tag (s : State) (key pa : Nat) (v : Byte) (a : Nat) :
    (s.hbmPutByte key pa v).hbmTag key a = s.hbmTag key a := rekeyBlock_tag s key (pa / 64) a

theorem hbmPutByte_other (s : State) (key pa : Nat) (v : Byte) (k a : Nat) (h : a / 64 ≠ pa / 64) :
    (s.hbmPutByte key pa v).hbmByte k a = s.hbmByte k a ∧
    (s.hbmPutByte key pa v).hbmTag k a = s.hbmTag k a := by
  have h1 := rekeyBlock_other s key (pa / 64) k a h
  have hne : a ≠ pa := fun e => h (e ▸ rfl)
  refine ⟨?_, h1.2⟩
  rw [← h1.1]
  simp [State.hbmPutByte, State.hbmByte, hne]

theorem hbmPutByte_frame (s : State) (key pa : Nat) (v : Byte) :
    { s.hbmPutByte key pa v with mem := s.mem, mtags := s.mtags, mkeys := s.mkeys } = s :=
  rekeyBlock_frame s key (pa / 64)

theorem hbmPut_frame (l : List Byte) (s : State) (key pa : Nat) :
    { s.hbmPut key pa l with mem := s.mem, mtags := s.mtags, mkeys := s.mkeys } = s := by
  induction l generalizing s pa with
  | nil => rfl
  | cons b r ih =>
    have h1 := hbmPutByte_frame s key pa b
    have h2 := ih (s.hbmPutByte key pa b) (pa + 1)
    rw [State.hbmPut]
    generalize (s.hbmPutByte key pa b).hbmPut key (pa + 1) r = t at h2
    rw [← h2] at h1
    exact h1

/-- Bytes put to HBM are what `HbmStored` says. -/
theorem hbmPut_stored (l : List Byte) (s : State) (key pa : Nat) :
    HbmStored s (s.hbmPut key pa l) key pa l := by
  induction l generalizing s pa with
  | nil => exact ⟨fun i h => absurd h (by simp), fun _ _ => rfl, fun _ => rfl, fun _ _ _ => ⟨rfl, rfl⟩⟩
  | cons b r ih =>
    have h := ih (s.hbmPutByte key pa b) (pa + 1)
    refine ⟨fun i hi => ?_, fun a ha => ?_, fun a => ?_, fun k a ha => ?_⟩
    · cases i with
      | zero =>
        rw [State.hbmPut, h.outside _ (by omega), hbmPutByte_byte]
        simp
      | succ j =>
        rw [State.hbmPut, show pa + (j + 1) = pa + 1 + j by omega,
          h.inside j (by simpa using hi)]
        rfl
    · simp only [List.length_cons] at ha
      rw [State.hbmPut, h.outside a (by omega), hbmPutByte_byte, if_neg (by omega)]
    · rw [State.hbmPut, h.tags a, hbmPutByte_tag]
    · simp only [List.length_cons] at ha
      have h1 := hbmPutByte_other s key pa b k a (by omega)
      by_cases hr : r = []
      · subst hr
        exact h1
      · have hl : 0 < r.length := List.length_pos_iff.2 hr
        have h2 := h.blocks k a (by omega)
        rw [State.hbmPut, h2.1, h2.2]
        exact h1

/-! What follows a write. -/

theorem noteStale_frame (s : State) (a : Nat) : { s.noteStale a with stale := s.stale } = s := by
  unfold State.noteStale
  split <;> rfl

theorem mapTable_lookup {α : Type} (t : Table α) (f : Nat × α → Nat × α) (d : α)
    (hf : ∀ e, (f e).1 = e.1) (P : α → α → Prop) (hd : P d d) (hp : ∀ e, P e.2 (f e).2) (k : Nat) :
    P (lookupD t k d) (lookupD (t.map f) k d) := by
  induction t with
  | nil => exact hd
  | cons e r ih =>
    have h1 := hf e
    have h2 := hp e
    obtain ⟨j, v⟩ := e
    rcases hfe : f (j, v) with ⟨j', v'⟩
    rw [hfe] at h1 h2
    simp only at h1 h2
    subst h1
    rw [List.map_cons, hfe]
    by_cases h : j' = k
    · simpa [lookupD, h] using h2
    · simpa [lookupD, h] using ih

theorem clearMeasured_frame (s : State) (a : Nat) : { s.clearMeasured a with tenants := s.tenants } = s := rfl

theorem clearMeasured_tenant (s : State) (a n : Nat) :
    { (s.clearMeasured a).tenant n with measured := (s.tenant n).measured } = s.tenant n := by
  refine mapTable_lookup s.tenants _ Tenant.empty ?_
    (fun x y => { y with measured := x.measured } = x) rfl ?_ n
  · intro e; split <;> rfl
  · intro e; split <;> rfl

theorem wakeQueues_frame (s : State) (a : Nat) : { s.wakeQueues a with queues := s.queues } = s := rfl

theorem wakeQueues_queue (s : State) (a n : Nat) :
    { (s.wakeQueues a).queue n with woken := (s.queue n).woken } = s.queue n := by
  refine mapTable_lookup s.queues _ Queue.empty ?_ (fun x y => { y with woken := x.woken } = x) rfl ?_ n
  · intro e
    split
    · split <;> rfl
    · rfl
  · intro e
    split
    · split <;> rfl
    · rfl

/-- What a write to HBM leaves alone: nothing changes but the bytes, tags and keys of HBM, held table
entries, measured flags, watched queues and poison of blocks written whole (R98, R190, R257, R275). -/
structure HbmFrame (s t : State) : Prop where
  rest    : { t with
    mem := s.mem, mtags := s.mtags, mkeys := s.mkeys, stale := s.stale, tenants := s.tenants
    queues := s.queues, poison := s.poison } = s
  tenants : ∀ n, { t.tenant n with measured := (s.tenant n).measured } = s.tenant n
  queues  : ∀ n, { t.queue n with woken := (s.queue n).woken } = s.queue n

theorem HbmFrame.refl (s : State) : HbmFrame s s := ⟨rfl, fun _ => rfl, fun _ => rfl⟩

theorem HbmFrame.trans {s t u : State} (h : HbmFrame s t) (k : HbmFrame t u) : HbmFrame s u := by
  refine ⟨?_, fun n => ?_, fun n => ?_⟩
  · rw [← h.rest, ← k.rest]
  · rw [← h.tenants n, ← k.tenants n]
  · rw [← h.queues n, ← k.queues n]

/-- Functions that change neither HBM, its keys nor the counter, folded. -/
theorem foldl_keeps {α β : Type} (proj : State → β) (f : State → α → State)
    (hf : ∀ s a, proj (f s a) = proj s) (l : List α) (s : State) : proj (l.foldl f s) = proj s := by
  induction l generalizing s with
  | nil => rfl
  | cons a r ih => rw [List.foldl_cons, ih, hf]

theorem foldl_frame {α : Type} (f : State → α → State) (hf : ∀ s a, HbmFrame s (f s a)) (l : List α)
    (s : State) : HbmFrame s (l.foldl f s) := by
  induction l generalizing s with
  | nil => exact .refl s
  | cons a r ih => exact (hf s a).trans (ih _)

theorem note_frame (s : State) (a : Nat) : HbmFrame s ((s.noteStale a).clearMeasured a) := by
  have h := noteStale_frame s a
  have ht : (s.noteStale a).tenants = s.tenants := by unfold State.noteStale; split <;> rfl
  have hq : (s.noteStale a).queues = s.queues := by unfold State.noteStale; split <;> rfl
  refine HbmFrame.trans (t := s.noteStale a) ⟨?_, fun n => ?_, fun n => ?_⟩ ⟨rfl, fun n => ?_, fun n => rfl⟩
  · rw [← h]
    unfold State.noteStale
    split <;> rfl
  · simp only [State.tenant, ht]
  · simp only [State.queue, hq]
  · exact clearMeasured_tenant _ a n

theorem wake_frame (s : State) (a : Nat) : HbmFrame s (s.wakeQueues a) :=
  ⟨rfl, fun _ => rfl, wakeQueues_queue s a⟩

theorem hbmPut_hbmFrame (s : State) (key pa : Nat) (l : List Byte) : HbmFrame s (s.hbmPut key pa l) := by
  have h := hbmPut_frame l s key pa
  generalize s.hbmPut key pa l = t at h
  refine ⟨?_, fun n => ?_, fun n => ?_⟩
  · rw [← h]
  · rw [← h]; rfl
  · rw [← h]; rfl

/-- A write to HBM changes nothing else (R98, R190, R257, R275). -/
theorem hbmWrite_frame (s : State) (key pa : Nat) (l : List Byte) : HbmFrame s (s.hbmWrite key pa l) := by
  unfold State.hbmWrite
  dsimp only
  refine HbmFrame.trans (foldl_frame _ note_frame (wordsTouched pa l.length) s) ?_
  refine HbmFrame.trans (hbmPut_hbmFrame _ key pa l) ?_
  refine HbmFrame.trans ?_ (foldl_frame _ wake_frame _ _)
  exact ⟨rfl, fun _ => rfl, fun _ => rfl⟩

theorem HbmStored.of_eq {s s' t t' : State} {key pa : Nat} {l : List Byte} (h : HbmStored s t key pa l)
    (s1 : s'.mem = s.mem) (s2 : s'.mtags = s.mtags) (s3 : s'.mkeys = s.mkeys) (s4 : s'.tick = s.tick)
    (t1 : t'.mem = t.mem) (t2 : t'.mtags = t.mtags) (t3 : t'.mkeys = t.mkeys) (t4 : t'.tick = t.tick) :
    HbmStored s' t' key pa l := by
  have b1 := fun k a => hbmByte_congr s1 s3 s4 k a
  have b2 := fun k a => hbmByte_congr t1 t3 t4 k a
  have g1 := fun k a => hbmTag_congr s2 s3 s4 k a
  have g2 := fun k a => hbmTag_congr t2 t3 t4 k a
  refine ⟨fun i hi => ?_, fun a ha => ?_, fun a => ?_, fun k a ha => ?_⟩
  · rw [b2, h.inside i hi]
  · rw [b1, b2, h.outside a ha]
  · rw [g1, g2, h.tags a]
  · rw [b1, b2, g1, g2]
    exact h.blocks k a ha

/-- Bytes written to HBM are what `HbmStored` says. -/
theorem hbmWrite_stored (s : State) (key pa : Nat) (l : List Byte) :
    HbmStored s (s.hbmWrite key pa l) key pa l := by
  have note : ∀ {β : Type} (proj : State → β), (∀ s a, proj ((s.noteStale a).clearMeasured a) = proj s) →
      proj ((wordsTouched pa l.length).foldl (fun s a => (s.noteStale a).clearMeasured a) s) = proj s :=
    fun proj h => foldl_keeps proj _ h _ s
  have wake : ∀ {β : Type} (proj : State → β) (u : State), (∀ s a, proj (State.wakeQueues s a) = proj s) →
      proj ((wordsTouched pa l.length).foldl (fun s a => s.wakeQueues a) u) = proj u :=
    fun proj u h => foldl_keeps proj _ h _ u
  have n : ∀ (s : State) (a : Nat), ((s.noteStale a).clearMeasured a).mem = s.mem ∧
      ((s.noteStale a).clearMeasured a).mtags = s.mtags ∧
      ((s.noteStale a).clearMeasured a).mkeys = s.mkeys ∧
      ((s.noteStale a).clearMeasured a).tick = s.tick := by
    intro s a
    unfold State.noteStale
    split <;> exact ⟨rfl, rfl, rfl, rfl⟩
  unfold State.hbmWrite
  refine (hbmPut_stored l _ key pa).of_eq (note State.mem fun s a => (n s a).1).symm
    (note State.mtags fun s a => (n s a).2.1).symm (note State.mkeys fun s a => (n s a).2.2.1).symm
    (note State.tick fun s a => (n s a).2.2.2).symm ?_ ?_ ?_ ?_
  · exact wake State.mem _ fun _ _ => rfl
  · exact wake State.mtags _ fun _ _ => rfl
  · exact wake State.mkeys _ fun _ _ => rfl
  · exact wake State.tick _ fun _ _ => rfl

/-- A tag set is read back under its key, every byte and every other tag is as before, and nothing else
changes (R131). -/
theorem hbmSetTag_stored (s : State) (key pa : Nat) (v : Tag) :
    (∀ a, (s.hbmSetTag key pa v).hbmTag key a = if a / 64 = pa / 64 then v else s.hbmTag key a) ∧
    (∀ a, (s.hbmSetTag key pa v).hbmByte key a = s.hbmByte key a) ∧
    (∀ k a, a / 64 ≠ pa / 64 → (s.hbmSetTag key pa v).hbmByte k a = s.hbmByte k a ∧
      (s.hbmSetTag key pa v).hbmTag k a = s.hbmTag k a) ∧
    { s.hbmSetTag key pa v with mem := s.mem, mtags := s.mtags, mkeys := s.mkeys } = s := by
  have hk := rekeyBlock_key s key (pa / 64)
  refine ⟨fun a => ?_, fun a => rekeyBlock_byte s key (pa / 64) a, fun k a h => ?_, ?_⟩
  · by_cases h : a / 64 = pa / 64
    · simp [State.hbmSetTag, State.hbmTag, lookupD_putAt, h, hk]
    · rw [if_neg h, ← rekeyBlock_tag s key (pa / 64) a]
      simp [State.hbmSetTag, State.hbmTag, lookupD_putAt, h]
  · have h1 := rekeyBlock_other s key (pa / 64) k a h
    refine ⟨h1.1, ?_⟩
    rw [← h1.2]
    simp [State.hbmSetTag, State.hbmTag, lookupD_putAt, h]
  · exact rekeyBlock_frame s key (pa / 64)

/-! Scratchpads. -/

theorem putBytes_frame (l : List Byte) (x : Core) (c : Nat) (lane : Bool) (a : Nat) :
    { x.putBytes c lane a l with spad := x.spad } = x := by
  induction l generalizing x a with
  | nil => rfl
  | cons b r ih =>
    have h := ih { x with spad := writeByte x.spad (spadOffset c lane a) b } (a + 1)
    rw [Core.putBytes]
    generalize ({ x with spad := writeByte x.spad (spadOffset c lane a) b } : Core).putBytes c lane (a + 1) r = y
      at h
    cases y
    cases x
    simp_all

theorem putBytes_outside (l : List Byte) (x : Core) (c : Nat) (lane : Bool) (a o : Nat)
    (h : ∀ i, i < l.length → o ≠ spadOffset c lane (a + i)) :
    readByte (x.putBytes c lane a l).spad o = readByte x.spad o := by
  induction l generalizing x a with
  | nil => rfl
  | cons b r ih =>
    rw [Core.putBytes, ih _ _ fun i hi => by
      have := h (i + 1) (by simpa using hi)
      rwa [show a + (i + 1) = a + 1 + i by omega] at this]
    have := h 0 (by simp)
    rw [Nat.add_zero] at this
    simp [this]

theorem putBytes_wf (l : List Byte) (x : Core) (c : Nat) (lane : Bool) (a : Nat)
    (h : Memory.wf x.spad = true) : Memory.wf (x.putBytes c lane a l).spad = true := by
  induction l generalizing x a with
  | nil => exact h
  | cons b r ih => exact ih _ _ (writeByte_wf _ _ _ h)

/-! The canonical form of every memory. -/

theorem reset_memoryWf : State.reset.memoryWf := by
  unfold State.memoryWf
  decide

/-- A state whose memories are those of another. -/
theorem State.memoryWf.of_eq {s t : State} (h : s.memoryWf) (h1 : t.mem = s.mem) (h2 : t.mtags = s.mtags)
    (h3 : t.hostMem = s.hostMem) (h4 : t.peerMem = s.peerMem) (h5 : t.peerTags = s.peerTags)
    (h6 : t.cores = s.cores) : t.memoryWf := by
  unfold State.memoryWf at *
  rw [h1, h2, h3, h4, h5, h6]
  exact h

theorem updCore_memoryWf (s : State) (c : Nat) (f : Core → Core) (h : s.memoryWf)
    (hf : ∀ x : Core, Memory.wf x.spad = true → canonical x.stags = true →
      Memory.wf (f x).spad = true ∧ canonical (f x).stags = true) : (s.updCore c f).memoryWf := by
  obtain ⟨h1, h2, h3, h4, h5, h6⟩ := h
  refine ⟨h1, h2, h3, h4, h5, fun e he => ?_⟩
  rcases mem_insertAt _ _ _ _ he with rfl | he
  · have hc : Memory.wf (s.core c).spad = true ∧ canonical (s.core c).stags = true := by
      unfold State.core
      generalize s.cores = t at h6
      induction t with
      | nil => exact ⟨rfl, rfl⟩
      | cons e r ih =>
        obtain ⟨j, v⟩ := e
        by_cases hj : j = c
        · simpa [lookupD, hj] using h6 (j, v) List.mem_cons_self
        · simpa [lookupD, hj] using ih fun e he => h6 e (List.mem_cons_of_mem _ he)
    exact hf _ hc.1 hc.2
  · exact h6 e he

/-- Updates of a core that leave its scratchpad alone: queues, engines, caches, scoreboards. -/
theorem updCore_memoryWf_same (s : State) (c : Nat) (f : Core → Core) (h : s.memoryWf)
    (hf : ∀ x : Core, (f x).spad = x.spad ∧ (f x).stags = x.stags) : (s.updCore c f).memoryWf :=
  updCore_memoryWf s c f h fun x h1 h2 => by rw [(hf x).1, (hf x).2]; exact ⟨h1, h2⟩

theorem rekeyBlock_memoryWf (s : State) (key b : Nat) (h : s.memoryWf) : (s.rekeyBlock key b).memoryWf := by
  unfold State.rekeyBlock
  split
  · exact h
  · obtain ⟨h1, h2, h3⟩ := h
    exact ⟨writeBytes_wf _ _ _ h1, canonical_putAt _ _ _ h2, h3⟩

theorem hbmPut_memoryWf (l : List Byte) (s : State) (key pa : Nat) (h : s.memoryWf) :
    (s.hbmPut key pa l).memoryWf := by
  induction l generalizing s pa with
  | nil => exact h
  | cons b r ih =>
    refine ih _ _ ?_
    obtain ⟨h1, h2⟩ := rekeyBlock_memoryWf s key (pa / 64) h
    exact ⟨writeByte_wf _ _ _ h1, h2⟩

theorem hbmWrite_memoryWf (s : State) (key pa : Nat) (l : List Byte) (h : s.memoryWf) :
    (s.hbmWrite key pa l).memoryWf := by
  unfold State.hbmWrite
  have n : ∀ (s : State) (a : Nat), s.memoryWf → ((s.noteStale a).clearMeasured a).memoryWf := by
    intro s a hs
    unfold State.noteStale
    split <;> exact hs
  have fold : ∀ (f : State → Nat → State) (hf : ∀ s a, s.memoryWf → (f s a).memoryWf) (l : List Nat)
      (s : State), s.memoryWf → (l.foldl f s).memoryWf := by
    intro f hf l
    induction l with
    | nil => exact fun _ h => h
    | cons a r ih => exact fun s h => ih _ (hf s a h)
  dsimp only
  refine fold State.wakeQueues (fun _ _ h => h) _ _ ?_
  exact hbmPut_memoryWf l _ key pa (fold _ n _ _ h)

theorem hbmSetTag_memoryWf (s : State) (key pa : Nat) (v : Tag) (h : s.memoryWf) :
    (s.hbmSetTag key pa v).memoryWf := by
  obtain ⟨h1, h2, h3⟩ := rekeyBlock_memoryWf s key (pa / 64) h
  exact ⟨h1, canonical_putAt _ _ _ h2, h3⟩

theorem spadWrite_memoryWf (s : State) (c : Nat) (lane : Bool) (a : Nat) (l : List Byte) (h : s.memoryWf) :
    (s.spadWrite c lane a l).memoryWf := by
  refine updCore_memoryWf s c _ h fun x h1 h2 => ⟨putBytes_wf l x c lane a h1, ?_⟩
  have := putBytes_frame l x c lane a
  have hs : (x.putBytes c lane a l).stags = x.stags := by
    generalize x.putBytes c lane a l = y at this
    rw [← this]
  simpa [hs] using h2

theorem spadSetTag_memoryWf (s : State) (c : Nat) (lane : Bool) (a : Nat) (v : Tag) (h : s.memoryWf) :
    (s.spadSetTag c lane a v).memoryWf :=
  updCore_memoryWf s c _ h fun _ h1 h2 => ⟨h1, canonical_putAt _ _ _ h2⟩

theorem remoteSend_memoryWf (s : State) (n : Nat) (va : Word) (pa : Nat) (gen : BitVec 32) (l : List Byte)
    (tag : Option Tag) (h : s.memoryWf) : (s.remoteSend n va pa gen l tag).memoryWf := by
  unfold State.remoteSend
  split <;> exact h

theorem dropCellar_memoryWf (s : State) (d : Nat) (l : List Nat) (h : s.memoryWf) :
    (s.dropCellar d l).memoryWf := h

theorem vineSend_memoryWf (s : State) (n c : Nat) (va : Word) (off : Nat) (l : List Byte)
    (tag : Option Tag) (op : Option Nat) (h : s.memoryWf) : (s.vineSend n c va off l tag op).memoryWf := by
  have hp : (s.passHead c off l.length).memoryWf := by
    unfold State.passHead
    split
    · exact dropCellar_memoryWf s _ _ h
    · exact h
  unfold State.vineSend
  split
  · exact h
  · exact hp

/-- Bytes stored to any target keep it. -/
theorem writeTarget_memoryWf (s : State) (n : Nat) (va : Word) (x : Target) (l : List Byte)
    (tag : Option Tag) (op : Option Nat) (h : s.memoryWf) : (s.writeTarget n va x l tag op).memoryWf := by
  cases x with
  | spad c lane a =>
    cases tag with
    | none => exact spadWrite_memoryWf s c lane a l h
    | some t => exact spadSetTag_memoryWf _ c lane a t (spadWrite_memoryWf s c lane a l h)
  | hbm pa key raced =>
    cases tag with
    | none => exact hbmWrite_memoryWf s key pa l h
    | some t => exact hbmSetTag_memoryWf _ key pa t (hbmWrite_memoryWf s key pa l h)
  | control pa => exact h
  | window w off =>
    show State.memoryWf (if s.linkUp && s.busMaster then _ else _)
    split
    · obtain ⟨h1, h2, h3, h4⟩ := h
      exact ⟨h1, h2, writeBytes_wf _ _ _ h3, h4⟩
    · exact h
  | remote pa gen => exact remoteSend_memoryWf s n va pa gen l tag h
  | vine c off key => exact vineSend_memoryWf s n c va off l tag op h

/-- Steps that keep it, one for each element of a list, keep it. -/
theorem foldl_memoryWf {α : Type} (f : State → α → State) (hf : ∀ s a, s.memoryWf → (f s a).memoryWf) (l : List α)
    (s : State) (h : s.memoryWf) : (l.foldl f s).memoryWf := by
  induction l generalizing s with
  | nil => exact h
  | cons a r ih => exact ih _ (hf s a h)

/-- A link's application of a write keeps it. -/
theorem linkApply_memoryWf (s : State) (key pa : Nat) (l : List Byte) (tag : Option Tag) (h : s.memoryWf) :
    (s.linkApply key pa l tag).memoryWf := by
  have hw := dropCellar_memoryWf _ (homeDie pa) ((wordsTouched pa l.length).map (· / 64))
    (hbmWrite_memoryWf s key pa l h)
  cases tag with
  | none => exact hw
  | some t => exact hbmSetTag_memoryWf _ key pa t hw

/-- A write of a chain accepted in its replicas keeps it. -/
theorem vineApply_memoryWf (s : State) (c key off : Nat) (l : List Byte) (tag : Option Tag)
    (h : s.memoryWf) : (s.vineApply c key off l tag).memoryWf :=
  foldl_memoryWf _ (fun s pa hs => linkApply_memoryWf s key pa l tag hs) _ s h

/-- What a lost link keeps keeps it, and so does a die that drops its replica's lines. -/
theorem keepApplied_memoryWf (s : State) (c d n : Nat) (h : s.memoryWf) : (s.keepApplied c d n).memoryWf := by
  unfold State.keepApplied
  split
  · exact h
  · exact foldl_memoryWf _ (fun s _ hs => linkApply_memoryWf s _ _ _ _ hs) _ s h

theorem dropReplica_memoryWf (s : State) (c d : Nat) (h : s.memoryWf) : (s.dropReplica c d).memoryWf := by
  unfold State.dropReplica
  split <;> exact h

theorem vineAcceptN_memoryWf (s : State) (c n : Nat) (h : s.memoryWf) : (s.vineAcceptN c n).memoryWf := by
  induction n generalizing s with
  | zero => exact h
  | succ n ih =>
    refine ih _ ?_
    unfold State.vineAcceptOne
    split
    · exact h
    · exact vineApply_memoryWf s c _ _ _ _ h

/-- Stores of the package that reach the other packages' memory keep it. -/
theorem remoteDrain_memoryWf (s : State) (h : s.memoryWf) : s.remoteDrain.memoryWf := by
  have reach : ∀ (l : Table RemoteStore) (s : State), s.memoryWf → (s.remoteReach l).memoryWf := by
    intro l
    induction l with
    | nil => exact fun _ h => h
    | cons e r ih =>
      intro s h
      refine ih _ ?_
      obtain ⟨h1, h2, h3, h4, h5, h6⟩ := h
      refine ⟨h1, h2, h3, writeBytes_wf _ _ _ h4, ?_, h6⟩
      dsimp only
      split
      · exact canonical_putAt _ _ _ h5
      · exact h5
  exact reach s.remote s h

theorem settleTarget_memoryWf (s : State) (n : Nat) (x : Target) (h : s.memoryWf) :
    (s.settleTarget n x).memoryWf := by
  cases x with
  | vine c off key => exact vineAcceptN_memoryWf s c _ h
  | remote pa gen => exact remoteDrain_memoryWf s h
  | spad c lane a => exact h
  | hbm pa key raced => exact h
  | control pa => exact h
  | window w off => exact h

end Sys2Proof.Machine
end

