-- ==== Sys2Proof/Tests/Slice0.lean ====
section
/-! SUPPORT. Tests: words of the manual and what they decode to, ill-formed steps, single steps on the
manual's worked values, and for each statement of Certificates/Slice0 a case that meets its hypotheses. -/

open Sys2Proof Sys2Proof.Machine

namespace Sys2Proof.Tests

set_option Elab.async false

/-! Words. -/

/-- Each head and tail decodes to the instruction beside it. -/
def reads (l : List (BitVec 16 × BitVec 48 × Instr)) : Bool :=
  l.all fun x => match decode x.1 x.2.1 with
    | .ok i => i == x.2.2
    | .error _ => false

/-- No head and tail of the list is an instruction. -/
def refuses (l : List (BitVec 16 × BitVec 48)) : Bool :=
  l.all fun x => match decode x.1 x.2 with
    | .ok _ => false
    | .error _ => true

/-- Control flow, strips and the work hierarchy: the manual's example words. -/
theorem test_decode_control : reads
    [ (0x0600, 0x0, .exit)   -- exit
    , (0x47A0, 0xB800, .launch 8#5 23#5)   -- launch s8, [s23]
    , (0x4724, 0x4002, .cwait 9#5 8#5 2#3)   -- cwait.pkg s9, s8
    , (0x4800, 0x4000, .cancel 8#5)   -- cancel s8
    , (0x4880, 0x52C2, .fpub 10#5 11#5 2#3)   -- fpub.pkg s10, s11
    , (0x4500, 0x5, .trap 5#6)   -- trap 5
    , (0x0580, 0x0, .brk)   -- brk
    , (0x0900, 0x0, .claim)   -- claim
    , (0x0F00, 0x0, .tret)   -- tret
    , (0x4680, 0x2, .bar 2#4)   -- bar 2
    , (0xC184, 0x3000FFFFFFFE, .bCond 1#5 6#5 0#5 0xFFFFFFFE#32)   -- b.ne s6, s0, loop
    , (0xC100, 0x3, .b 3#32)   -- b next
    , (0x4280, 0x3800, .jmp 7#5)   -- jmp s7
    , (0x0080, 0x0, .nop)   -- nop
    , (0x0300, 0x0, .ret)   -- ret
    , (0x0484, 0x0, .hintH 1#5 0#2)   -- hint 0, 1, 0
    , (0xC200, 0x28, .call 40#32)   -- call +0x28
    , (0x4396, 0x2800, .setvl 2#2 5#5 5#5)   -- setvl.e32 s5, s5
    , (0x8411, 0x298E0002, .setvlf 1#2 4#5 5#5 6#5 7#5 0#2 2#3)   -- setvlf.e16.pkg s4, s5, [s6], s7
    ] = true := by decide +kernel

/-- Scalar: the manual's example words. -/
theorem test_decode_scalar : reads
    [ (0x5010, 0x2140, .add 0#2 4#5 4#5 5#5)   -- add s4, s4, s5
    , (0xD09D, 0x400A000000F0, .andnImm 1#2 7#5 8#5 240#32)   -- andn.w s7, s8, 0xF0
    , (0x5010, 0x2985, .div 0#2 4#5 5#5 6#5)   -- div s4, s5, s6
    , (0xD214, 0x300, .addpc 5#5 768#32)   -- addpc s5, table
    , (0x5112, 0x2800, .clz 2#2 4#5 5#5)   -- clz.w s4, s5
    , (0x5310, 0x2984, .cmp 4#6 4#5 5#5 6#5)   -- cmp.ltu s4, s5, s6
    , (0x5411, 0x2981, .fsub 1#2 4#5 5#5 6#5)   -- fsub.s s4, s5, s6
    , (0x5424, 0x5004, .fsqrt 0#2 9#5 10#5)   -- fsqrt.d s9, s10
    , (0x5511, 0x2981, .fcmp 1#2 1#6 4#5 5#5 6#5)   -- fcmp.s.lt s4, s5, s6
    , (0x5590, 0x2820, .fcvt 4#3 0#3 4#5 5#5)   -- fcvt.fp32.int64 s4, s5
    , (0x9491, 0x298E0000, .fma 1#2 4#5 5#5 6#5 7#5 0#2)   -- fma.s s4, s5, s6, s7
    , (0x9290, 0x298E0000, .sel 4#5 5#5 6#5 7#5 0#2)   -- sel s4, s5, s6, s7
    , (0xD098, 0x3000FFFFFFFF, .addImm 0#2 6#5 6#5 0xFFFFFFFF#32)   -- add s6, s6, -1
    , (0xD1D0, 0x2000000, .movi 20#5 0x2000000#32)   -- movi s20, 0x0200_0000
    , (0xD1A1, 0x40000, .moviHi 8#5 262144#32)   -- movi.hi s8, 0x0004_0000
    ] = true := by decide +kernel

/-- Scalar memory and atomics: the manual's example words. -/
theorem test_decode_memory : reads
    [ (0x5980, 0x1B, .fence 3#2 3#3)   -- fence.dom.acqrel
    , (0x9A23, 0x4A800110, .aadd 3#2 1#2 4#3 8#5 9#5 10#5 0#2)   -- aadd.sys.acq s8, [s9], s10
    , (0x9A12, 0x298E00B7, .acas 2#2 3#2 2#3 4#5 5#5 6#5 7#5 0#2)   -- acas.w.pkg.acqrel s4, [s5], s6, s7
    , (0xD822, 0xA00500000004, .ld 2#2 true 2#3 8#5 20#5 4#32)   -- ld.w.acq s8, [s20+4]
    , (0xD927, 0xA00900000000, .st 3#2 true 4#3 9#5 20#5 0#32)   -- st.d.sys.rel s9, [s20]
    , (0xD890, 0x280000000003, .ldu 0#2 false 0#3 4#5 5#5 3#32)   -- ldu.b s4, [s5+3]
    , (0xD813, 0xA00500000000, .ld 3#2 true 2#3 4#5 20#5 0#32)   -- ld.pkg.acq s4, [s20]
    , (0xD919, 0x3800FFFFFFFE, .st 1#2 false 0#3 6#5 7#5 0xFFFFFFFE#32)   -- st.h s6, [s7-2]
    ] = true := by decide +kernel

/-- The vector unit: the manual's example words. -/
theorem test_decode_vector_1 : reads
    [ (0xA404, 0x10C00000, .vadd 1#5 2#5 3#5 0#2 0#4 0#2)   -- vadd v1, v2, v3
    , (0xA410, 0x29802013, .vmulh true 4#5 5#5 6#5 0#2 1#4 0#2)   -- vmulh.u v4, v5, v6, k1
    , (0xA393, 0x514C0080, .vamo 0#4 3#2 0#2 2#3 4#5 10#5 5#5 6#5 0#2 0#4 0#2)   -- vamo.add.pkg v4, [s10], v5, v6
    , (0xA48C, 0x8800002, .vcmp 2#9 3#5 1#5 2#5 0#2 0#4 0#2)   -- vcmp.lt k3, v1, v2
    , (0xA890, 0x28004000, .vcompress 4#5 5#5 2#4 0#2)   -- vcompress v4, v5, k2
    , (0xA910, 0x28004000, .vexpand 4#5 5#5 2#4 0#2)   -- vexpand v4, v5, k2
    , (0xA990, 0x29800000, .vext false 4#5 5#5 6#5 0#2)   -- vext s4, v5, s6
    , (0xAA10, 0x29800000, .vins 4#5 5#5 6#5 0#2)   -- vins v4, s5, s6
    , (0xAC10, 0x29804802, .vfmul 4#5 5#5 6#5 1#2 2#4 0#2)   -- vfmul v4, v5, v6.e0, k2
    , (0xAC10, 0x28000004, .vfsqrt 4#5 5#5 0#4 0#2)   -- vfsqrt v4, v5
    , (0xAD0C, 0x8800001, .vfcmp 1#9 3#5 1#5 2#5 0#2 0#4 0#2)   -- vfcmp.lt k3, v1, v2
    , (0xAD90, 0x28000058, .vfcvt 8#4 5#4 4#5 5#5 0#4 0#2)   -- vfcvt.e4m3.fp32 v4, v5
    , (0xAD98, 0x380000A5, .vfcvt 5#4 10#4 6#5 7#5 0#4 0#2)   -- vfcvt.fp32.tagged v6, v7
    , (0xAC90, 0x298E0000, .vfma 4#5 5#5 6#5 7#5 0#2 0#4 0#2)   -- vfma v4, v5, v6, v7
    , (0xAE10, 0x29800000, .vfred 0#2 4#5 5#5 6#5 0#4 0#2)   -- vfred.sum s4, v5, s6
    , (0xA60C, 0x20000000, .vid 3#5 4#5 0#4 0#2)   -- vid v3, s4
    , (0xA590, 0x28000001, .vmvScalar 4#5 5#5 0#4 0#2)   -- vmv v4, s5
    , (0xAE90, 0x28000001, .vpack 1#4 4#5 5#5 0#4 0#2)   -- vpack.e4m3 v4, v5
    , (0xA790, 0x29800000, .vperm 4#5 5#5 6#5 0#2 0#4 0#2)   -- vperm v4, v5, v6
    , (0xA510, 0x29804000, .vsel 4#5 5#5 6#5 0#2 2#4 0#2)   -- vsel v4, v5, v6, k2
    , (0xA810, 0x298E0000, .vslideUp 4#5 5#5 6#5 7#5 0#4 0#2)   -- vslide.up v4, v5, s6, s7
    , (0xA810, 0x298E0001, .vslideDown 4#5 5#5 6#5 7#5 0#4 0#2)   -- vslide.down v4, v5, s6, s7
    , (0xA01C, 0x48000000, .vld 7#5 9#5 0#4 0#2)   -- vld v7, [s9]
    , (0xA084, 0xA5400000, .vlds 1#5 20#5 21#5 0#4 0#2)   -- vlds v1, [s20], s21
    , (0xA10C, 0x21400002, .vldx 2#2 3#5 4#5 5#5 0#2 0#4 0#2)   -- vldx.i32 v3, [s4], v5
    , (0xA188, 0x30000000, .vldff 2#5 6#5 0#4 0#2)   -- vldff v2, [s6]
    ] = true := by decide +kernel

/-- The vector unit: the manual's example words. -/
theorem test_decode_vector_2 : reads
    [ (0xA208, 0x58000000, .vst 2#5 11#5 0#4 0#2)   -- vst v2, [s11]
    , (0xA288, 0x5B000000, .vsts 2#5 11#5 12#5 0#4 0#2)   -- vsts v2, [s11], s12
    , (0xA308, 0x5A402003, .vstx 3#2 2#5 11#5 9#5 0#2 1#4 0#2)   -- vstx.i64 v2, [s11], v9, k1
    , (0xA690, 0x29804000, .vred 0#3 4#5 5#5 6#5 2#4 0#2)   -- vred.sum s4, v5, s6, k2
    , (0xA710, 0x29804000, .vscan 0#3 false 4#5 5#5 6#5 2#4 0#2)   -- vscan.sum v4, v5, s6, k2
    , (0xA710, 0x29804008, .vscan 0#3 true 4#5 5#5 6#5 2#4 0#2)   -- vscan.sum.x v4, v5, s6, k2
    , (0xAF18, 0x20000000, .vunpack 6#5 4#5 0#5 0#4 0#2)   -- vunpack v6, v4, s0
    ] = true := by decide +kernel

/-- Masks: the manual's example words. -/
theorem test_decode_mask : reads
    [ (0x7010, 0x7880, .kand 4#5 15#5 2#5)   -- kand k4, k15, k2
    , (0x7014, 0x1003, .knot 5#5 2#5)   -- knot k5, k2
    , (0x7094, 0x7800, .kpopc 5#5 15#5)   -- kpopc s5, k15
    , (0x7118, 0x7800, .kfirst 6#5 15#5)   -- kfirst s6, k15
    , (0x703C, 0x5, .kset 15#5 0#5)   -- kset k15, s0
    ] = true := by decide +kernel

/-- The matrix engine: the manual's example words. -/
theorem test_decode_matrix : reads
    [ (0xB410, 0x298E0000, .mshape 0#2 false 4#5 5#5 6#5 7#5 0#2)   -- mshape.fp8 s4, s5, s6, s7
    , (0xB480, 0xB5C00000, .mldw 0#2 0#2 false 22#5 23#5 0#5 0#2)   -- mldw.narrow glob:[s22], s23
    , (0x3500, 0x0, .mswap)   -- mswap
    , (0xB5E0, 0xAE400001, .mmac true 24#5 21#5 25#5 0#2)   -- mmac.z s24, [s21], s25
    , (0x7600, 0xC140, .mzero 24#5 5#5)   -- mzero s24, s5
    , (0xB6E0, 0xAE400000, .mld 0#2 24#5 21#5 25#5 0#2)   -- mld.fp32 s24, [s21], s25
    , (0xB760, 0xD6C00002, .mst 2#3 24#5 26#5 27#5 0#2)   -- mst.bf16 s24, [s26], s27
    , (0xB78C, 0xC0000000, .mrd 3#5 24#5 0#4 0#2)   -- mrd v3, s24
    , (0xB800, 0xC0C00000, .mwr 24#5 3#5 0#2 0#4 0#2)   -- mwr s24, v3
    , (0x7890, 0x0, .mchk 4#5)   -- mchk s4
    ] = true := by decide +kernel

/-- Copies, collectives and tag waits: the manual's example words. -/
theorem test_decode_engine : reads
    [ (0xFA20, 0x530100000103, .cpy 0#3 1#2 0#2 8#5 10#5 12#5 3#6 4#6)   -- cpy.core s8, strp:[s10], glob:[s12], 3, 4
    , (0xFB20, 0x530400043144, .coll 0#3 1#4 3#3 0#2 1#2 8#5 10#5 12#5 4#6 5#6)   -- coll.sum.fp32.dom s8, glob:[s10], strp:[s12], 4, 5
    , (0xBB80, 0x511600C7, .rred 0#2 3#3 10#5 4#5 11#5 7#6 0#2 0#4 0#2)   -- rred.fp32.dom [s10], v4, s11, 7
    , (0xFAA0, 0x531100008185, .cpyd 1#2 1#3 0#3 1#2 0#2 8#5 10#5 12#5 5#6 6#6)   -- cpyd.h.core s8, strp:[s10], glob:[s12], 5, 6, 2
    , (0x7C90, 0x2800, .twany 4#5 5#5)   -- twany s4, s5
    , (0x7D18, 0x2800, .tfirst 6#5 5#5)   -- tfirst s6, s5
    , (0x7C30, 0x3, .twait 12#5 3#6)   -- twait s12, 3
    ] = true := by decide +kernel

/-- Maintenance, special registers, seals and chains: the manual's example words. -/
theorem test_decode_system : reads
    [ (0x4980, 0x73C0, .tsync 14#5 15#5)   -- tsync s14, s15
    , (0x4A00, 0x2144, .icinv 4#5 5#5 4#3)   -- icinv.sys s4, s5
    , (0x8D90, 0xA14C0001, .chlinkAdd 4#5 20#5 5#5 6#5 0#2)   -- chlink.add s4, [s20], s5, s6
    , (0x4E1C, 0xB000, .chquery 7#5 22#5)   -- chquery s7, [s22]
    , (0x4EA0, 0x0, .chsync 8#5)   -- chsync s8
    , (0x8D10, 0xA1400000, .sealOpen 4#5 20#5 5#5 0#2)   -- seal.open s4, [s20], s5
    , (0x8D01, 0xA18E0009, .sealAbsorb 20#5 6#5 7#5 9#6 0#2)   -- seal.absorb [s20], s6, s7, 9
    , (0x8D22, 0xA0000000, .sealClose 8#5 20#5 0#2)   -- seal.close s8, [s20]
    , (0x4A80, 0x2142, .cflush 4#5 5#5 2#3)   -- cflush.pkg s4, s5
    , (0x4B00, 0xA541, .cinv 20#5 21#5 1#3)   -- cinv.die s20, s21
    , (0x4B80, 0x2141, .pref 4#5 5#5 1#3)   -- pref.die s4, s5
    , (0x4B80, 0x52C0, .pref 10#5 11#5 0#3)   -- pref.core s10, s11
    , (0x4C10, 0x3, .getsr 4#5 3#6)   -- getsr s4, vstart
    , (0x4C68, 0xD, .getsr 26#5 13#6)   -- getsr s26, trapcause
    , (0x4C80, 0xC80C, .setsr 12#6 25#5)   -- setsr trapvec, s25
    ] = true := by decide +kernel
/-- R303, R44: the integer group, head 0x5010 (T 1, MAJ 0x20, A s4), tail B s5, C s6 and F the function. -/
theorem test_decode_integer_functions : reads
    [ (0x5010, 0x2980, .add 0#2 4#5 5#5 6#5)
    , (0x5010, 0x2981, .sub 0#2 4#5 5#5 6#5)
    , (0x5010, 0x2982, .mul 0#2 4#5 5#5 6#5)
    , (0x5010, 0x2983, .mulh 0#2 4#5 5#5 6#5)
    , (0x5010, 0x2984, .mulhu 0#2 4#5 5#5 6#5)
    , (0x5010, 0x2985, .div 0#2 4#5 5#5 6#5)
    , (0x5010, 0x2986, .divu 0#2 4#5 5#5 6#5)
    , (0x5010, 0x2987, .rem 0#2 4#5 5#5 6#5)
    , (0x5010, 0x2988, .remu 0#2 4#5 5#5 6#5)
    , (0x5010, 0x2989, .and 0#2 4#5 5#5 6#5)
    , (0x5010, 0x298A, .andn 0#2 4#5 5#5 6#5)
    , (0x5010, 0x298B, .or 0#2 4#5 5#5 6#5)
    , (0x5010, 0x298C, .xor 0#2 4#5 5#5 6#5)
    , (0x5010, 0x298D, .shl 0#2 4#5 5#5 6#5)
    , (0x5010, 0x298E, .shr 0#2 4#5 5#5 6#5)
    , (0x5010, 0x298F, .sra 0#2 4#5 5#5 6#5)
    , (0x5010, 0x2990, .min 0#2 4#5 5#5 6#5)
    , (0x5010, 0x2991, .max 0#2 4#5 5#5 6#5)
    , (0x5010, 0x2992, .minu 0#2 4#5 5#5 6#5)
    , (0x5010, 0x2993, .maxu 0#2 4#5 5#5 6#5)
    ] = true := by decide +kernel

/-- R303, R44: the immediate form, head 0xD091 (T 3, MAJ 0x21, A s4, W 1), tail B s5, F, IMM 7. -/
theorem test_decode_integer_immediates : reads
    [ (0xD091, 0x280000000007, .addImm 1#2 4#5 5#5 7#32)
    , (0xD091, 0x280100000007, .subImm 1#2 4#5 5#5 7#32)
    , (0xD091, 0x280200000007, .mulImm 1#2 4#5 5#5 7#32)
    , (0xD091, 0x280300000007, .mulhImm 1#2 4#5 5#5 7#32)
    , (0xD091, 0x280400000007, .mulhuImm 1#2 4#5 5#5 7#32)
    , (0xD091, 0x280500000007, .divImm 1#2 4#5 5#5 7#32)
    , (0xD091, 0x280600000007, .divuImm 1#2 4#5 5#5 7#32)
    , (0xD091, 0x280700000007, .remImm 1#2 4#5 5#5 7#32)
    , (0xD091, 0x280800000007, .remuImm 1#2 4#5 5#5 7#32)
    , (0xD091, 0x280900000007, .andImm 1#2 4#5 5#5 7#32)
    , (0xD091, 0x280A00000007, .andnImm 1#2 4#5 5#5 7#32)
    , (0xD091, 0x280B00000007, .orImm 1#2 4#5 5#5 7#32)
    , (0xD091, 0x280C00000007, .xorImm 1#2 4#5 5#5 7#32)
    , (0xD091, 0x280D00000007, .shlImm 1#2 4#5 5#5 7#32)
    , (0xD091, 0x280E00000007, .shrImm 1#2 4#5 5#5 7#32)
    , (0xD091, 0x280F00000007, .sraImm 1#2 4#5 5#5 7#32)
    , (0xD091, 0x281000000007, .minImm 1#2 4#5 5#5 7#32)
    , (0xD091, 0x281100000007, .maxImm 1#2 4#5 5#5 7#32)
    , (0xD091, 0x281200000007, .minuImm 1#2 4#5 5#5 7#32)
    , (0xD091, 0x281300000007, .maxuImm 1#2 4#5 5#5 7#32)
    ] = true := by decide +kernel

/-- R310, R313, R299, R41, R250: the unary, float and atomic functions, the longer hints and `chlink.rm`. -/
theorem test_decode_scalar_functions : reads
    [ (0x5112, 0x2800, .clz 2#2 4#5 5#5)
    , (0x5112, 0x2801, .ctz 2#2 4#5 5#5)
    , (0x5112, 0x2802, .popc 2#2 4#5 5#5)
    , (0x5112, 0x2803, .sext 2#2 4#5 5#5)
    , (0x5112, 0x2804, .zext 2#2 4#5 5#5)
    , (0x5113, 0x2805, .mov 4#5 5#5)
    , (0x5411, 0x2980, .fadd 1#2 4#5 5#5 6#5)
    , (0x5411, 0x2981, .fsub 1#2 4#5 5#5 6#5)
    , (0x5411, 0x2982, .fmul 1#2 4#5 5#5 6#5)
    , (0x5411, 0x2983, .fdiv 1#2 4#5 5#5 6#5)
    , (0x5411, 0x2985, .fmin 1#2 4#5 5#5 6#5)
    , (0x5411, 0x2986, .fmax 1#2 4#5 5#5 6#5)
    , (0x9A23, 0x4A800110, .aadd 3#2 1#2 4#3 8#5 9#5 10#5 0#2)
    , (0x9A23, 0x4A800111, .aand 3#2 1#2 4#3 8#5 9#5 10#5 0#2)
    , (0x9A23, 0x4A800112, .aor 3#2 1#2 4#3 8#5 9#5 10#5 0#2)
    , (0x9A23, 0x4A800113, .axor 3#2 1#2 4#3 8#5 9#5 10#5 0#2)
    , (0x9A23, 0x4A800114, .amin 3#2 1#2 4#3 8#5 9#5 10#5 0#2)
    , (0x9A23, 0x4A800115, .amax 3#2 1#2 4#3 8#5 9#5 10#5 0#2)
    , (0x9A23, 0x4A800116, .aswap 3#2 1#2 4#3 8#5 9#5 10#5 0#2)
    , (0x4486, 0xFFFF, .hintHt1 1#5 2#2 0xFFFF#16)
    , (0x8486, 0x12345678, .hintHt2 1#5 2#2 0x12345678#32)
    , (0xC486, 0x123456789ABC, .hintHt3 1#5 2#2 0x123456789ABC#48)
    , (0x8D90, 0xA1400000, .chlinkRm 4#5 20#5 5#5 0#2)
    ] = true := by decide +kernel

/-- R347, R46, R355, R325: the vector functions with every operand field, and the masks. -/
theorem test_decode_vector_functions : reads
    [ (0xA410, 0x29800000, .vadd 4#5 5#5 6#5 0#2 0#4 0#2)
    , (0xA410, 0x29800001, .vsub 4#5 5#5 6#5 0#2 0#4 0#2)
    , (0xA410, 0x29800002, .vmul 4#5 5#5 6#5 0#2 0#4 0#2)
    , (0xA410, 0x29800003, .vmulh false 4#5 5#5 6#5 0#2 0#4 0#2)
    , (0xA410, 0x29800004, .vmin false 4#5 5#5 6#5 0#2 0#4 0#2)
    , (0xA410, 0x29800005, .vmax false 4#5 5#5 6#5 0#2 0#4 0#2)
    , (0xA410, 0x29800006, .vand 4#5 5#5 6#5 0#2 0#4 0#2)
    , (0xA410, 0x29800007, .vor 4#5 5#5 6#5 0#2 0#4 0#2)
    , (0xA410, 0x29800008, .vxor 4#5 5#5 6#5 0#2 0#4 0#2)
    , (0xA410, 0x29800009, .vshl 4#5 5#5 6#5 0#2 0#4 0#2)
    , (0xA410, 0x2980000A, .vshr 4#5 5#5 6#5 0#2 0#4 0#2)
    , (0xA410, 0x2980000B, .vsra 4#5 5#5 6#5 0#2 0#4 0#2)
    , (0xA410, 0x29800013, .vmulh true 4#5 5#5 6#5 0#2 0#4 0#2)
    , (0xA410, 0x29800014, .vmin true 4#5 5#5 6#5 0#2 0#4 0#2)
    , (0xA410, 0x29800015, .vmax true 4#5 5#5 6#5 0#2 0#4 0#2)
    , (0xA410, 0x2980BE00, .vadd 4#5 5#5 6#5 3#2 5#4 3#2)
    , (0xA590, 0x28000000, .vmv 4#5 5#5 0#4 0#2)
    , (0xAC10, 0x29800000, .vfadd 4#5 5#5 6#5 0#2 0#4 0#2)
    , (0xAC10, 0x29800001, .vfsub 4#5 5#5 6#5 0#2 0#4 0#2)
    , (0xAC10, 0x29800002, .vfmul 4#5 5#5 6#5 0#2 0#4 0#2)
    , (0xAC10, 0x29800003, .vfdiv 4#5 5#5 6#5 0#2 0#4 0#2)
    , (0xAC10, 0x28000004, .vfsqrt 4#5 5#5 0#4 0#2)
    , (0xAC10, 0x28000005, .vfrec 4#5 5#5 0#4 0#2)
    , (0xAC10, 0x28000006, .vfrsqrt 4#5 5#5 0#4 0#2)
    , (0xAC10, 0x28000007, .vfexp2 4#5 5#5 0#4 0#2)
    , (0xAC10, 0x29800008, .vfmin 4#5 5#5 6#5 0#2 0#4 0#2)
    , (0xAC10, 0x29800009, .vfmax 4#5 5#5 6#5 0#2 0#4 0#2)
    , (0x7010, 0x7881, .kor 4#5 15#5 2#5)
    , (0x7010, 0x7882, .kxor 4#5 15#5 2#5)
    , (0x7014, 0x1004, .kmv 5#5 2#5)
    ] = true := by decide +kernel

/-- R37: encodings refused, each for one field. -/
theorem test_decode_refuses : refuses
    [ (0x0000, 0x0)   -- the end marker
    , (0x0081, 0x0)   -- nop with W 1
    , (0x7E00, 0x0)   -- an unassigned MAJ
    , (0x5010, 0x2994)   -- integer F 20
    , (0x5012, 0x2980)   -- integer W 2
    , (0x5112, 0x2805)   -- mov.w
    , (0x4600, 0x0)   -- MAJ 0x0C with a tail
    , (0xA410, 0x2980000C)   -- vector integer F 12
    , (0xA410, 0x29800011)   -- vsub.u
    , (0x4724, 0x4005)   -- scope 5
    , (0x7000, 0x7880)   -- kand k0
    , (0x9A21, 0x4A800110)   -- an atomic of width 1
    , (0xA404, 0x10C20000)   -- vadd with D
    , (0x4C10, 0x0015)   -- getsr 21
    , (0xC198, 0x300000000000)   -- b.cond with condition 6
    ] = true := by decide +kernel

/-- The manual's line worked to the byte: R50 packs it, R35 to R39 fetch it. -/
theorem test_worked_line :
    let line : BitVec 512 := BitVec.ofNat 512 (natOfBytes
      ([0x10, 0x50, 0x98, 0xD0, 0x84, 0xC1, 0x00, 0x03] ++ List.replicate 42 0#8 ++
       [0xFE, 0xFF, 0xFF, 0xFF, 0x00, 0x30, 0xFF, 0xFF, 0xFF, 0xFF, 0x00, 0x30, 0x40, 0x21]))
    let l : List Instr :=
      [.add 0#2 4#5 4#5 5#5, .addImm 0#2 6#5 6#5 0xFFFFFFFF#32, .bCond 1#5 6#5 0#5 0xFFFFFFFE#32, .ret]
    packLines l = some [line] ∧ fetchFrom line 0x1000#64 0 = .instr (.add 0#2 4#5 4#5 5#5) 0x1002#64 ∧
    fetchFrom line 0x1000#64 4 = .instr (.bCond 1#5 6#5 0#5 0xFFFFFFFE#32) 0x1006#64 ∧
    fetchFrom line 0x1000#64 6 = .instr .ret 0x1040#64 ∧ fetchFrom line 0x1000#64 8 = .notHead ∧
    fetchFrom line 0x1000#64 10 = .notHead := by decide +kernel

/-! Ill-formed steps: one for each check. -/

theorem test_ill_formed : (
    [ .cwait 1#5 2#5 5#3   -- scope
    , .add 2#2 1#5 2#5 3#5   -- width of the integer group
    , .aadd 1#2 0#2 0#3 1#5 2#5 3#5 0#2   -- width of an atomic
    , .bCond 6#5 1#5 2#5 0#32   -- condition
    , .cmp 6#6 1#5 2#5 3#5   -- condition
    , .fcmp 0#2 4#6 1#5 2#5 3#5   -- float condition
    , .kand 0#5 1#5 2#5   -- mask destination
    , .kpopc 1#5 16#5   -- mask source
    , .cpy 0#3 0#2 0#2 5#5 1#5 2#5 0#6 1#6   -- register pair
    , .cpy 0#3 3#2 0#2 6#5 1#5 2#5 0#6 1#6   -- space
    , .cpyd 0#2 0#3 0#3 0#2 0#2 6#5 1#5 2#5 0#6 1#6   -- fields
    , .ld 0#2 false 2#3 1#5 2#5 0#32   -- scope of an unordered load
    , .st 0#2 true 5#3 1#5 2#5 0#32   -- scope of a release
    , .fcvt 3#3 3#3 1#5 2#5   -- equal formats
    , .vfcvt 10#4 0#4 1#5 2#5 0#4 0#2   -- destination format
    , .pref 1#5 2#5 2#3   -- prefetch target
    , .getsr 1#5 21#6   -- special register
    , .fence 0#2 0#3   -- order of a fence
    , .vamo 8#4 2#2 0#2 0#3 1#5 2#5 3#5 4#5 0#2 0#4 0#2   -- atomic operation
    , .vcmp 6#9 1#5 1#5 2#5 0#2 0#4 0#2   -- condition
    , .vfcmp 4#9 1#5 1#5 2#5 0#2 0#4 0#2   -- float condition
    , .vfred 3#2 1#5 2#5 3#5 0#4 0#2   -- reduction
    , .vpack 9#4 1#5 2#5 0#4 0#2   -- block format
    , .mshape 3#2 false 1#5 2#5 3#5 4#5 0#2   -- mode
    , .mldw 3#2 0#2 false 1#5 2#5 0#5 0#2   -- class
    , .mldw 0#2 2#2 false 1#5 2#5 0#5 0#2   -- space
    , .mldw 0#2 0#2 false 1#5 2#5 1#5 0#2   -- mask register of a dense load
    , .mld 3#2 1#5 2#5 3#5 0#2   -- format
    , .mst 5#3 1#5 2#5 3#5 0#2   -- format
    , .coll 3#3 1#4 0#3 0#2 0#2 6#5 1#5 2#5 0#6 1#6   -- collective operation
    , .coll 0#3 6#4 0#3 0#2 0#2 6#5 1#5 2#5 0#6 1#6   -- collective format
    , .strandStop (.strand 65536) 0   -- agent
    , .strandKill .host 65536   -- strand
    , .activate .host 256   -- tenant
    , .queueEnable .host 4096   -- queue
    , .chainStart .host 256   -- chain
    , .keyLoad .host 64   -- key slot
    , .winStore .host 16 0#64   -- window
    , .islandStore .host 0 12 0#64   -- island
    , .dieFence .host 4 []   -- die
    , .peerStateGone 4096   -- peer
    , .preempt 256 []   -- core
    , .firmwareWatchdog 8   -- firmware
    , .matrixErrorStop 0 2048   -- row
    , .controlFieldStore .host (2 ^ 56) 0#64   -- address
    ] : List Instr).all (fun i => !i.wf) = true := by decide +kernel

/-! Single steps. -/

/-- A running strand of tenant 1 in slot 0 of core 0, at the address of the first code line. -/
def anyone : Strand :=
  { Strand.empty with
    state := 1#4, owner := 1#8, place := some { core := 0, slot := 0 }, vres := true, seated := true
    mvl := 2048#16, pc := 0x6000000#64 }

/-- A package in which that strand, as `x`, issues. -/
def alone (x : Strand) : State := { State.reset with cur := 0, npc := 0x6000002#64, strands := [(0, x)] }

/-- A strand's scalar registers from `s4` on. -/
def Regs (l : List Word) (x : Strand) : Strand :=
  { x with s := (l.zipIdx 4).foldl (fun v e => v.setIfInBounds e.2 e.1) x.s }

/-- The step answers a next state that `p` holds of. -/
def ends (i : Instr) (s : State) (p : State → Bool) : Bool :=
  match exec i s with
  | .next t => p t
  | .fault _ => false
  | .refused _ => false

/-- A step on a strand whose s5, s6, s7 hold three words leaves a word in s4, and flags. -/
def gives (i : Instr) (b c d v : Word) (frm : BitVec 3) (g : BitVec 5) : Bool :=
  ends i (alone { Regs [0#64, b, c, d] anyone with frm := frm }) fun t =>
    t.sreg 4#5 == v && t.me.fflags == g && t.me.pc == 0x6000002#64

/-- R304's edge cases. -/
theorem test_integer_edges : (
    [ (.add 0#2 4#5 5#5 6#5, 0x17FFFFFFF, 1, 0x180000000)
    , (.add 1#2 4#5 5#5 6#5, 0x17FFFFFFF, 1, 0xFFFFFFFF80000000)
    , (.shl 1#2 4#5 5#5 6#5, 0x17FFFFFFF, 33, 0xFFFFFFFFFFFFFFFE)
    , (.divu 0#2 4#5 5#5 6#5, 0x17FFFFFFF, 0, 0xFFFFFFFFFFFFFFFF)
    , (.rem 0#2 4#5 5#5 6#5, 0x17FFFFFFF, 0, 0x17FFFFFFF)
    , (.div 1#2 4#5 5#5 6#5, 0x80000000, 0xFFFFFFFFFFFFFFFF, 0xFFFFFFFF80000000)
    , (.minu 0#2 4#5 5#5 6#5, 0x17FFFFFFF, 0xFFFFFFFFFFFFFFFF, 0x17FFFFFFF)
    , (.addImm 0#2 4#5 5#5 0xFFFFFFFF#32, 5, 0, 4)
    ] : List (Instr × Word × Word × Word)).all
      (fun x => gives x.1 x.2.1 x.2.2.1 0#64 x.2.2.2 0#3 0#5) = true := by decide +kernel

/-- R310's table, R311, R333's sequences, R339. -/
theorem test_unary_moves : (
    [ (.clz 3#2 4#5 5#5, 0x10180, 47), (.clz 2#2 4#5 5#5, 0x10180, 15), (.clz 1#2 4#5 5#5, 0x10180, 7)
    , (.clz 0#2 4#5 5#5, 0x10180, 0), (.ctz 3#2 4#5 5#5, 0x10180, 7), (.popc 3#2 4#5 5#5, 0x10180, 3)
    , (.sext 0#2 4#5 5#5, 0x10180, 0xFFFFFFFFFFFFFF80), (.zext 1#2 4#5 5#5, 0x10180, 0x180)
    , (.mov 4#5 5#5, 0x10180, 0x10180), (.movi 4#5 0x80000000#32, 0, 0xFFFFFFFF80000000)
    , (.moviHi 4#5 0x40000#32, 0, 0x0004000000000000), (.addpc 4#5 0x300#32, 0, 0x6000300)
    , (.cmp 2#6 4#5 5#5 6#5, 0xFFFFFFFFFFFFFFFF, 1), (.cmp 4#6 4#5 5#5 6#5, 0xFFFFFFFFFFFFFFFF, 0)
    ] : List (Instr × Word × Word)).all (fun x => gives x.1 x.2.1 0#64 0#64 x.2.2 0#3 0#5) = true := by
  decide +kernel

theorem test_sel : gives (.sel 4#5 5#5 6#5 7#5 0#2) 11#64 22#64 0x100000000#64 11#64 0#3 0#5 = true := by
  decide +kernel

/-- R15: s0 reads zero after a write, and `movi.hi` keeps the low half (R333). -/
theorem test_s0_and_movi_hi :
    ends (.movi 0#5 7#32) (alone anyone) (fun t => t.sreg 0#5 == 0#64) &&
    ends (.moviHi 4#5 0#32) (alone (Regs [0xFFFFFFFF80000000#64] anyone))
      (fun t => t.sreg 4#5 == 0x80000000#64) = true := by decide +kernel

/-- R306, R307, R324: where transfers go, and `s31`. -/
theorem test_transfers :
    ends (.bCond 1#5 5#5 0#5 0xFFFFFFFE#32) (alone (Regs [0#64, 1#64] anyone))
      (fun t => t.me.pc == 0x5FFFFFC#64) &&
    ends (.bCond 1#5 5#5 0#5 0xFFFFFFFE#32) (alone anyone) (fun t => t.me.pc == 0x6000002#64) &&
    ends (.call 0x28#32) (alone anyone) (fun t => t.me.pc == 0x6000050#64 && t.sreg 31#5 == 0x6000002#64) &&
    ends (.jmp 5#5) (alone (Regs [0#64, 0x7001#64] anyone))
      (fun t => t.me.state == 4#4 && t.me.cause == 3#8 && t.me.trapaddr == 0x7001#57) = true := by
  decide +kernel

/-- R214: `trap 5` enters a handler, `brk` stops. -/
theorem test_trap_brk :
    ends (.trap 5#6) (alone { anyone with trapvec := 0x9000#57 }) (fun t =>
      t.me.pc == 0x9000#64 && t.me.trappc == 0x6000002#57 && t.me.trapaddr == 5#57 && t.me.inHandler &&
      t.me.trapcause == 0x15#8) &&
    ends .brk (alone anyone) (fun t => t.me.state == 4#4 && t.me.cause == 0x16#8 &&
      t.me.pc == 0x6000002#64) = true := by decide +kernel

/-- R26: the strips of 200 elements at SEW 2 and MVL 2,048: a request of 136 grants 64, one of 8 grants 8. -/
theorem test_setvl :
    ends (.setvl 2#2 4#5 5#5) (alone (Regs [0#64, 136#64] anyone)) (fun t =>
      t.me.vl == 64#32 && t.sreg 4#5 == 64#64 && t.me.strip == 1#64 && t.me.ckpt.valid) &&
    ends (.setvl 2#2 4#5 5#5) (alone (Regs [0#64, 8#64] anyone)) (fun t => t.me.vl == 8#32) = true := by
  decide +kernel

/-- R322: a read-only register, and a VL above the limit, raise ILLEGAL_STATE; VSTART is written. -/
theorem test_setsr :
    ends (.setsr 1#6 5#5) (alone (Regs [0#64, 1#64] anyone)) (fun t => t.me.cause == 2#8) &&
    ends (.setsr 3#6 5#5) (alone { Regs [0#64, 4#64] anyone with vl := 8#32 })
      (fun t => t.me.vstart == 4#32 && t.me.state == 1#4) = true := by decide +kernel

/-- R314's table: sums, products, quotients, roots, extrema. -/
theorem test_float : (
    [ (.fadd 1#2 4#5 5#5 6#5, 0x3F800000, 0x33800000, 0x3F800000, 0, 1)
    , (.fmul 1#2 4#5 5#5 6#5, 0x71800000, 0x71800000, 0x7F800000, 0, 5)
    , (.fdiv 1#2 4#5 5#5 6#5, 0x3F800000, 0, 0x7F800000, 0, 8)
    , (.fsqrt 1#2 4#5 5#5, 0xBF800000, 0, 0x7FC00000, 0, 16)
    , (.fmin 1#2 4#5 5#5 6#5, 0x80000000, 0, 0x80000000, 0, 0)
    , (.fmax 1#2 4#5 5#5 6#5, 0x7FC00001, 0x40000000, 0x40000000, 0, 0)
    , (.fsub 1#2 4#5 5#5 6#5, 0x3F800000, 0x3F800000, 0x80000000, 2, 0)
    , (.fcmp 1#2 1#6 4#5 5#5 6#5, 0x7FC00001, 0x40000000, 0, 0, 16)
    ] : List (Instr × Word × Word × Word × BitVec 3 × BitVec 5)).all
      (fun x => gives x.1 x.2.1 x.2.2.1 0#64 x.2.2.2.1 x.2.2.2.2.1 x.2.2.2.2.2) = true := by
  decide +kernel

/-- R317's table, and R318: 0 × ∞ plus a quiet NaN. -/
theorem test_conversions : (
    [ (.fcvt 2#3 3#3 4#5 5#5, 0x4004000000000000, 2, 0, 1)
    , (.fcvt 2#3 3#3 4#5 5#5, 0x4004000000000000, 3, 4, 1)
    , (.fcvt 2#3 3#3 4#5 5#5, 0xC1E65A0BC0000000, 0xFFFFFFFF80000000, 0, 16)
    , (.fcvt 2#3 3#3 4#5 5#5, 0x41DFFFFFFFE00000, 0x7FFFFFFF, 1, 1)
    , (.fcvt 2#3 3#3 4#5 5#5, 0x41DFFFFFFFE00000, 0x7FFFFFFF, 0, 16)
    , (.fcvt 4#3 3#3 4#5 5#5, 0x7FF0000000000001, 0x7FC00000, 0, 16)
    , (.fcvt 5#3 4#3 4#5 5#5, 0x4788B800, 0x7C00, 0, 5)
    , (.fcvt 5#3 4#3 4#5 5#5, 0x4788B800, 0x7BFF, 1, 5)
    ] : List (Instr × Word × Word × BitVec 3 × BitVec 5)).all
      (fun x => gives x.1 x.2.1 0#64 0#64 x.2.2.1 x.2.2.2.1 x.2.2.2.2) &&
    gives (.fma 1#2 4#5 5#5 6#5 7#5 0#2) 0#64 0x7F800000#64 0x7FC00001#64 0x7FC00000#64 0#3 16#5 = true := by decide +kernel
/-- Elements of a width as a register. -/
def packed (w : Nat) (l : List Nat) : BitVec 16384 :=
  BitVec.ofNat 16384 (l.zipIdx.foldl (fun n x => n + x.1 * 2 ^ (w * x.2)) 0)

/-- The first elements of a register. -/
def firsts (w n : Nat) (v : BitVec 16384) : List Nat := (List.range n).map fun e => (element v w e).toNat

/-- A strand with a SEW, a VL, masks and vector registers. -/
def Vecs (sew : BitVec 2) (vl : BitVec 32) (k : List (Nat × BitVec 2048)) (v : List (VReg × List Nat))
    (x : Strand) : Strand :=
  let y := { x with
    sew := sew, vl := vl, vec := { x.vec with k := k.foldl (fun z e => z.setIfInBounds e.1 e.2) x.vec.k } }
  v.foldl (fun z e => z.setV e.1 (packed (8 * 2 ^ sew.toNat) e.2)) y

/-- R348's table at SEW 0, a replicate modifier (R29) and a mask (R16). -/
theorem test_vector_integer : (
    [ (.vadd 4#5 5#5 6#5 0#2 0#4 0#2, 0x7F, 1, 0x80)
    , (.vmulh false 4#5 5#5 6#5 0#2 0#4 0#2, 0x80, 0x80, 0x40)
    , (.vmulh true 4#5 5#5 6#5 0#2 0#4 0#2, 0xFF, 0xFF, 0xFE)
    , (.vshl 4#5 5#5 6#5 0#2 0#4 0#2, 1, 9, 2)
    , (.vsra 4#5 5#5 6#5 0#2 0#4 0#2, 0x80, 1, 0xC0)
    , (.vmin false 4#5 5#5 6#5 0#2 0#4 0#2, 0x80, 1, 0x80)
    , (.vmin true 4#5 5#5 6#5 0#2 0#4 0#2, 0x80, 1, 1)
    ] : List (Instr × Nat × Nat × Nat)).all (fun x =>
      ends x.1 (alone (Vecs 0#2 1#32 [] [(5#5, [x.2.1]), (6#5, [x.2.2.1])] anyone))
        fun t => firsts 8 2 (t.me.vreg 4#5) == [x.2.2.2, 0]) &&
    ends (.vadd 4#5 5#5 6#5 1#2 2#4 0#2)
      (alone (Vecs 2#2 3#32 [(2, 5#2048)] [(4#5, [9, 9, 9, 9]), (5#5, [1, 2, 3]), (6#5, [10, 20, 30])] anyone))
      (fun t => firsts 32 4 (t.me.vreg 4#5) == [11, 9, 13, 9]) = true := by decide +kernel

/-- R372's example: SEW 2, VL 5. -/
theorem test_folds :
    let s := alone (Regs [0#64, 0#64, 10#64]
      (Vecs 2#2 5#32 [(2, 0b11011#2048)] [(5#5, [3, 1, 4, 1, 5]), (4#5, [7, 7, 7, 7, 7])] anyone))
    (ends (.vred 0#3 4#5 5#5 6#5 2#4 0#2) s (fun t => t.sreg 4#5 == 20#64) &&
     ends (.vscan 0#3 false 4#5 5#5 6#5 2#4 0#2) s
      (fun t => firsts 32 5 (t.me.vreg 4#5) == [13, 14, 7, 15, 20]) &&
     ends (.vscan 0#3 true 4#5 5#5 6#5 2#4 0#2) s
      (fun t => firsts 32 5 (t.me.vreg 4#5) == [10, 13, 7, 14, 15])) = true := by decide +kernel

/-- R374's and R353's examples: VL 4. -/
theorem test_permutations :
    let s := alone (Regs [0#64, 0#64, 1#64, 0#64]
      (Vecs 2#2 4#32 [(2, 0b1010#2048)] [(5#5, [10, 20, 30, 40]), (4#5, [1, 2, 3, 4])] anyone))
    (ends (.vslideUp 4#5 5#5 6#5 7#5 0#4 0#2) s (fun t => firsts 32 4 (t.me.vreg 4#5) == [0, 10, 20, 30]) &&
     ends (.vslideDown 4#5 5#5 6#5 7#5 0#4 0#2) s
      (fun t => firsts 32 4 (t.me.vreg 4#5) == [20, 30, 40, 0]) &&
     ends (.vcompress 4#5 5#5 2#4 0#2) s (fun t => firsts 32 4 (t.me.vreg 4#5) == [20, 40, 3, 4]) &&
     ends (.vexpand 4#5 5#5 2#4 0#2) s (fun t => firsts 32 4 (t.me.vreg 4#5) == [1, 10, 3, 20]) &&
     ends (.vext false 4#5 5#5 6#5 0#2) s (fun t => t.sreg 4#5 == 20#64)) = true := by decide +kernel

/-- R327's example: MVL 1,024, SEW 2, VL 16, k15 bits 3 and 9, k2 bits 0 to 7. -/
theorem test_masks :
    let s := alone { Vecs 2#2 16#32 [(15, 0x208#2048), (2, 0xFF#2048)] [] anyone with mvl := 1024#16 }
    (ends (.kand 4#5 15#5 2#5) s (fun t => t.me.kreg 4 == 8#2048) &&
     ends (.knot 5#5 2#5) s (fun t => t.me.kreg 5 == 0xFFFFFF00#2048) &&
     ends (.kpopc 5#5 15#5) s (fun t => t.sreg 5#5 == 2#64) &&
     ends (.kfirst 6#5 15#5) s (fun t => t.sreg 6#5 == 3#64) &&
     ends (.kset 15#5 0#5) s (fun t => t.me.kreg 15 == 0#2048)) = true := by decide +kernel

/-- R369's example: four FP32 elements packed as E4M3, and read back. -/
theorem test_pack :
    let s := alone (Vecs 2#2 4#32 [] [(5#5, [0x3F800000, 0xC0600000, 0x42C80000, 0x3E800000])] anyone)
    ends (.vpack 1#4 4#5 5#5 0#4 0#2) s (fun t =>
      firsts 8 5 (t.me.vreg 4#5) == [0x48, 0xD6, 0x7C, 0x38, 0] && t.me.segTag 4#5 0 == 0x7D01#16 &&
      t.me.fflags == 1#5 &&
      ends (.vunpack 6#5 4#5 0#5 0#4 0#2) t (fun u =>
        firsts 32 4 (u.me.vreg 6#5) == [0x3F800000, 0xC0600000, 0x42C00000, 0x3E800000])) = true := by
  decide +kernel

/-- R120's example: eight FP32 elements converted to E4M3, three of which saturate. -/
theorem test_saturation :
    let s := alone (Vecs 2#2 8#32 [] [(5#5, [0x3F000000, 0x43E60000, 0x43E80000, 0x43EB0000, 0xC47A0000,
      0x7F800000, 0x7FC00000, 0x3A83126F])] anyone)
    ends (.vfcvt 8#4 5#4 4#5 5#5 0#4 0#2) s (fun t =>
      firsts 8 8 (t.me.vreg 4#5) == [0x30, 0x7E, 0x7E, 0x7E, 0xFE, 0x7E, 0x7F, 0x01] &&
      t.me.kreg 15 == 0x38#2048 && t.me.fflags == 7#5) = true := by decide +kernel

/-- R216, R217: `claim` freezes the state, `tret` brings it back. -/
theorem test_claim_tret :
    let s := alone { Vecs 2#2 4#32 [] [(5#5, [1, 2])] anyone with
      inHandler := true, vstart := 3#32, trappc := 0x6000010#57 }
    ends .claim s (fun t => t.me.claimed && t.me.vstart == 0#32 && t.me.claim0 == 0x400000003#64 &&
      ends .tret { t with npc := 0#64 } (fun u => u.me.pc == 0x6000010#64 && u.me.vstart == 3#32 &&
        !u.me.inHandler && firsts 32 2 (u.me.vreg 5#5) == [1, 2])) = true := by decide +kernel
/-- Tenant 1 active, its strand 0 running as `x`, the 64 KiB page at 0x600_0000 mapped by a leaf, and a word
stored at 0x30_0000. -/
def leafed (x : Strand) (leaf word : Nat) : State :=
  let s := State.reset.placed 0#512
  { s with
    agenda := [], npc := 0x6000002#64, strands := [(0, x)]
    mem := writeBytes (writeBytes s.mem (placeTables + 0x10000) (bytesOf 8 leaf)) placeCode
      (bytesOf 8 word) }

/-- The same with the page mapped to HBM at 0x30_0000, to be read and written. -/
def mapped (x : Strand) (word : Nat) : State := leafed x (placeCode + 7) word

/-- Leaves to a counter page of tenant 1, to host window 0, to chain 3 and to HBM of package 1, to be read
and written. -/
def controlLeaf : Nat := counterPage 1 + 0x113
def windowLeaf : Nat := windowBase + 0x307
def vineLeaf : Nat := 3 * 2 ^ 56 + 0x207
def remoteLeaf : Nat := 2 ^ 44 + 0x300007

/-- With window 0 open and the port up; with a chain of one link of size 1, owned by tenant 1, started; with
package 1 up. -/
def windowed (s : State) : State :=
  { s with linkUp := true, busMaster := true, win := s.win.setIfInBounds 0 { base := 0#26, enable := true } }
def chained (s : State) : State :=
  { s with chains := [(3, { Chain.empty with
    state := 2#3, owner := 1#8, size := 1#19, count := 1#3, links := 0#16
    base := Chain.empty.base.setIfInBounds 0 0x50#40 })] }
def peered (s : State) : State := { s with peers := [(1, { state := 1#2, gen := 5#32 })] }

/-- The word at an offset of that page. -/
def wordAt (s : State) (off : Nat) : Nat := natOfBytes (s.hbmRead 0 (placeCode + off) 8)

/-- R302's table: 32-bit atomics on the word −16. -/
theorem test_atomics : (
    [ (.aadd 2#2 0#2 2#3 4#5 5#5 6#5 0#2, 0xFFFFFFF5), (.aand 2#2 0#2 2#3 4#5 5#5 6#5 0#2, 0)
    , (.aor 2#2 0#2 2#3 4#5 5#5 6#5 0#2, 0xFFFFFFF5), (.axor 2#2 0#2 2#3 4#5 5#5 6#5 0#2, 0xFFFFFFF5)
    , (.amin 2#2 0#2 2#3 4#5 5#5 6#5 0#2, 0xFFFFFFF0), (.amax 2#2 0#2 2#3 4#5 5#5 6#5 0#2, 5)
    , (.aswap 2#2 0#2 2#3 4#5 5#5 6#5 0#2, 5), (.acas 2#2 0#2 2#3 4#5 5#5 6#5 7#5 0#2, 5)
    , (.acas 2#2 0#2 2#3 4#5 5#5 6#5 0#5 0#2, 0xFFFFFFF0)
    ] : List (Instr × Nat)).all (fun x =>
      ends x.1 (mapped (Regs [0#64, 0x6000000#64, 0x1234567800000005#64, 0xFFFFFFF0#64] anyone) 0xFFFFFFF0)
        fun t => t.sreg 4#5 == 0xFFFFFFFFFFFFFFF0#64 && wordAt t 0 == x.2) = true := by decide +kernel

/-- R329: a byte sign-extended and zero-extended, a half-word stored little-endian, a misaligned access. -/
theorem test_load_store :
    let s := mapped (Regs [0#64, 0x6000000#64, 0xABCD#64] anyone) 0x80FF
    (ends (.ld 0#2 false 0#3 4#5 5#5 1#32) s (fun t => t.sreg 4#5 == 0xFFFFFFFFFFFFFF80#64) &&
     ends (.ldu 0#2 false 0#3 4#5 5#5 1#32) s (fun t => t.sreg 4#5 == 0x80#64) &&
     ends (.st 1#2 false 0#3 6#5 5#5 2#32) s (fun t => wordAt t 0 == 0xABCD80FF) &&
     ends (.ld 2#2 false 0#3 4#5 5#5 1#32) s
      (fun t => t.me.cause == 3#8 && t.me.trapaddr == 0x6000001#57)) = true := by decide +kernel

/-- R366's example: `vstx` writes 3 to offset 0, 2 to offset 8 and leaves offset 16. -/
theorem test_scatter :
    let s := mapped (Regs [0#64, 0x6000000#64]
      (Vecs 3#2 4#32 [(1, 7#2048)] [(9#5, [0, 8, 0, 16]), (2#5, [1, 2, 3, 4])] { anyone with mvl := 256#16 })) 99
    ends (.vstx 3#2 2#5 5#5 9#5 0#2 1#4 0#2) s (fun t => wordAt t 0 == 3 && wordAt t 8 == 2 && wordAt t 16 == 0)
      = true := by decide +kernel

/-- R364, R365: a load writes its active elements and takes its block's tag, 0 here. -/
theorem test_vector_load :
    let s := mapped (Regs [0#64, 0x6000000#64]
      (Vecs 2#2 2#32 [(1, 2#2048)] [(4#5, [7, 7, 7])] anyone)) 0x2222222211111111
    (ends (.vld 4#5 5#5 1#4 0#2) s (fun t => firsts 32 3 (t.me.vreg 4#5) == [7, 0x22222222, 7] &&
      t.me.segTag 4#5 0 == 0#16 && t.me.vstart == 0#32) &&
     ends (.vld 4#5 6#5 0#4 0#2) s (fun t => t.me.cause == 4#8)) = true := by decide +kernel

/-- R105, R341: a grant from a flow word with H 116 and C 100 that holds 16 elements. -/
theorem test_flow :
    let s := mapped (Regs [0#64, 1000#64, 0x6000000#64, 0#64] anyone) (100 * 2 ^ 32 + 116)
    (ends (.setvlf 2#2 4#5 5#5 6#5 7#5 0#2 2#3) s (fun t => t.me.vl == 16#32 && t.sreg 4#5 == 16#64 &&
      t.sreg 7#5 == 100#64) &&
     ends (.setvlf 2#2 4#5 5#5 6#5 7#5 0#2 2#3) (mapped (Regs [0#64, 1000#64, 0x6000000#64] anyone) 0)
      (fun t => t.me.pc == 0x6000000#64 && t.me.state == 1#4)) = true := by decide +kernel
/-- Every tag of the strand complete. -/
def idle (x : Strand) : Strand := { x with tags := 0xFFFFFFFFFFFFFFFF#64 }

/-- Tenant 1 changed; holding the first units of core 0's scratchpad; with a record. -/
def tenanted (f : Tenant → Tenant) (s : State) : State := s.updTenant 1 f
def spadded (s : State) : State :=
  tenanted (fun y => { y with spad := y.spad.setIfInBounds 0 0x8000000000000010#64 }) s
def recorded (id : BitVec 32) (r : Record) (s : State) : State :=
  tenanted (fun y => { y with records := insertAt y.records (recordKey id) { r with ident := id } }) s
/-- Scoreboard entries of a copy of the strand from block 40, and of an operation over block 1. -/
def boarded (write : Bool) (op : Nat) (s : State) : State :=
  s.updCore 0 fun x => { x with board :=
    [{ strand := 0, write := false, first := 40, count := 1, stride := 1, op := 99 },
     { strand := 0, write := write, first := 1, count := 1, stride := 1, op := op }] }
/-! Hypotheses that something meets: for each statement of Certificates/Slice0, states and operands that
satisfy what its clauses ask, at the ends of their ranges where they have any. -/

theorem witness_IntegerGroupResults : (0#2).toNat < 2 ∧ (1#2).toNat < 2 := by decide

theorem witness_UnaryMoveSelectCompareResults :
    (5#6).toNat < 6 ∧ conditionMet 4 1#64 0xFFFFFFFFFFFFFFFF#64 ∧ conditionMet 2 0xFFFFFFFFFFFFFFFF#64 1#64 ∧
    ¬ conditionMet 2 1#64 0xFFFFFFFFFFFFFFFF#64 := by unfold conditionMet; decide

/-- An even and an odd jump target, in a register and in s31. -/
theorem witness_HintsTransfersAndIllegalEncodings :
    (5#5).toNat < 6 ∧ conditionMet 5 1#64 1#64 ∧ ¬ conditionMet 4 1#64 1#64 ∧
    ((alone (Regs [0x7000#64, 0x7001#64] anyone)).sreg 4#5).getLsbD 0 = false ∧
    ((alone (Regs [0x7000#64, 0x7001#64] anyone)).sreg 5#5).getLsbD 0 = true ∧
    ((alone anyone).sreg 31#5).getLsbD 0 = false ∧
    ((alone { anyone with s := anyone.s.setIfInBounds 31 1#64 }).sreg 31#5).getLsbD 0 = true := by
  unfold conditionMet; decide +kernel

/-- FP32 encodings of each class: ∞ and −∞, 0, −1, a signalling NaN, 1. -/
theorem witness_ScalarFloatResults :
    IsInf fp32 0x7F800000 ∧ IsInf fp32 0xFF800000 ∧ negative fp32 0xFF800000 ∧ ¬ negative fp32 0x7F800000 ∧
    IsZero fp32 0 ∧ IsZero fp32 0x80000000 ∧ negative fp32 0xBF800000 ∧ ¬ IsZero fp32 0xBF800000 ∧
    ¬ IsNan fp32 0xBF800000 ∧ IsSnan fp32 0x7F800001 ∧ IsFinite fp32 0x3F800000 ∧ ¬ IsZero fp32 0x3F800000 ∧
    ((alone (Regs [0#64, 0x3F800000#64] anyone)).sreg 5#5).toNat % 2 ^ fp32.bits = 0x3F800000 := by
  unfold IsInf negative IsZero IsSnan IsNan IsFinite expField fracField; decide +kernel

/-- The largest finite FP64 number beside the least, a quiet and a signalling NaN, and −0 below 0. -/
theorem witness_FloatComparisonsAndExtrema :
    IsFinite fp64 0x7FEFFFFFFFFFFFFF ∧ IsFinite fp64 1 ∧ IsNan fp64 0x7FF8000000000000 ∧
    ¬ IsSnan fp64 0x7FF8000000000000 ∧ IsSnan fp64 0x7FF0000000000001 ∧ ¬ IsNan fp64 1 ∧
    negative fp32 0x80000000 ∧ ¬ negative fp32 0 ∧ numberOf fp32 0x80000000 = numberOf fp32 0 ∧
    numberOf fp32 0x3F800000 < numberOf fp32 0x40000000 := by
  refine ⟨?_, ?_, ?_, ?_, ?_, ?_, ?_, ?_, ?_, ?_⟩ <;>
    norm_num [IsFinite, IsNan, IsSnan, negative, numberOf, expField, fracField, fp64, fp32, Fmt.bias]

/-- FP64 2.5, −3·10⁹ and 3·10⁹ as INT32; an FP16 1. -/
theorem witness_FloatConversions :
    (2#3).toNat < 3 ∧ (3#3).toNat = 3 ∧ IsFinite fp64 0x4004000000000000 ∧
    toInteger 0 (numberOf fp64 0x4004000000000000) = 2 ∧
    toInteger 0 (numberOf fp64 0xC1E65A0BC0000000) < -2 ^ 31 ∧
    2 ^ 31 - 1 < toInteger 0 (numberOf fp64 0x41E65A0BC0000000) ∧
    (Instr.fcvt 3#3 5#3 1#5 2#5).wf = true ∧ IsFinite fp16 0x3C00 := by
  refine ⟨by decide, by decide, ?_, ?_, ?_, ?_, by decide, ?_⟩ <;>
    norm_num [IsFinite, toInteger, numberOf, expField, fracField, fp64, fp16, Fmt.bias]

/-- In a handler that has not claimed, one that has, one with an odd TRAPPC, and outside. -/
theorem witness_ClaimSavesAndTretRestores :
    (alone anyone).me.inHandler = false ∧ (alone { anyone with inHandler := true }).me.claimed = false ∧
    (alone { anyone with inHandler := true, claimed := true }).me.claimed = true ∧
    (alone { anyone with inHandler := true, trappc := 1#57 }).me.trappc.getLsbD 0 = true ∧
    (alone { anyone with inHandler := true }).me.trappc.getLsbD 0 = false := by decide +kernel

/-- VL at its limit and above it, SPACE 2 and 3, TRAPVEC even and odd, SEW within VL and not. -/
theorem witness_SpecialRegisters :
    let s := alone { Regs [64#64, 65#64, 2#64, 3#64, 0x1000#64, 0x1001#64] anyone with vl := 64#32, sew := 2#2 }
    (s.sreg 4#5).toNat ≤ s.me.mvl.toNat / (8 * 2 ^ s.me.sew.toNat) ∧
    ¬ (s.sreg 5#5).toNat ≤ s.me.mvl.toNat / (8 * 2 ^ s.me.sew.toNat) ∧
    (s.sreg 6#5).toNat ≤ 2 ∧ ¬ (s.sreg 7#5).toNat ≤ 2 ∧ (s.sreg 8#5).toNat % 2 = 0 ∧
    ¬ (s.sreg 9#5).toNat % 2 = 0 ∧ s.me.vl.toNat ≤ s.me.mvl.toNat / (8 * 2 ^ 2) ∧
    ¬ s.me.vl.toNat ≤ s.me.mvl.toNat / (8 * 2 ^ 3) ∧ 9#6 ∈ [1#6, 4#6, 7#6, 8#6, 9#6, 10#6, 16#6, 18#6, 19#6] := by
  decide +kernel

theorem witness_SetvlGrants :
    (alone anyone).me.inHandler = false ∧ (alone { anyone with inHandler := true }).me.inHandler = true ∧
    (alone anyone).me.rolled = false ∧ (alone { anyone with rolled := true }).me.rolled = true := by
  decide +kernel
/-- A load of HBM, with and without acquire, of the last word of a scratchpad, of another package, of a chain
with nothing in flight; of a control word; of an open window. -/
theorem witness_ScalarLoadResults :
    let r := Regs [0#64, 0x6000000#64, 0x3FFFF8#64] anyone
    (mapped r 7).bindSpad.leads ((mapped r 7).dataAddr 5#5 0#32) (scalarAccess false 8 none) (.hbm placeCode 0 false) ∧
    (mapped r 7).bindSpad.leads ((mapped r 7).dataAddr 5#5 0#32) (scalarAccess false 8 (some 4))
      (.hbm placeCode 0 false) ∧
    (mapped r 7).bindSpad.quiet (.hbm placeCode 0 false) ∧
    (mapped r 7).bindSpad.poisoned (.hbm placeCode 0 false) 8 = false ∧
    (mapped r 7).bindSpad.boardWaits 0 (.hbm placeCode 0 false) 8 false = false ∧
    (peered (leafed r remoteLeaf 0)).leads 0x6000000#64 (scalarAccess false 8 none)
      (.remote (2 ^ 44 + 0x300000) 5#32) ∧
    (peered (leafed r remoteLeaf 0)).quiet (.remote (2 ^ 44 + 0x300000) 5#32) ∧
    (chained (leafed r vineLeaf 0)).leads 0x6000000#64 (scalarAccess false 8 none) (.vine 3 0 0) ∧
    (chained (leafed r vineLeaf 0)).quiet (.vine 3 0 0) ∧
    (leafed r controlLeaf 0).leads 0x6000000#64 (scalarAccess false 8 none) (.control (counterPage 1)) ∧
    (leafed r controlLeaf 0).controlLoad (counterPage 1) = .ok (0#64, leafed r controlLeaf 0) ∧
    (leafed r controlLeaf 0).areaHeld (counterPage 1) = false ∧
    (windowed (leafed r windowLeaf 0)).leads 0x6000000#64 (scalarAccess false 8 none) (.window 0 0) := by
  unfold State.leads State.quiet; decide +kernel

/-- A load of a register of the strand's own page, which is refused; one of the page of a strand that is being
stopped; one of a control word of package 1. -/
theorem witness_ScalarLoadResults_control :
    let r := Regs [0#64, 0x6000010#64] anyone
    let own := leafed r (strandPage 0 + 0x113) 0
    let five := leafed r (strandPage 5 + 0x113) 0
    let held : State := { five with strands := [(0, r), (5, { anyone with state := 2#4 })] }
    own.leads 0x6000010#64 (scalarAccess false 8 none) (.control (strandPage 0 + 0x10)) ∧
    own.areaHeld (strandPage 0 + 0x10) = false ∧
    (match own.controlLoad (strandPage 0 + 0x10) with
     | .error c => !fatalCause c && c != 0x13 && c != 0x16
     | .ok _ => false) = true ∧
    held.leads 0x6000010#64 (scalarAccess false 8 none) (.control (strandPage 5 + 0x10)) ∧
    held.areaHeld (strandPage 5 + 0x10) = true ∧
    (peered (leafed r (2 ^ 44 + counterPage 1 + 0x113) 0)).leads 0x6000010#64 (scalarAccess false 8 none)
      (.remote (2 ^ 44 + counterPage 1 + 0x10) 5#32) ∧ inControl (2 ^ 44 + counterPage 1 + 0x10) = true := by
  unfold State.leads; decide +kernel
/-- A relaxed and a releasing store to HBM, one to the last bytes of the held scratchpad, to an open window, to
package 1, to a chain. -/
theorem witness_ScalarStoreResults :
    let r := Regs [0#64, 0x6000000#64, 0xFFFF8#64] anyone
    (mapped r 7).bindSpad.leads ((mapped r 7).dataAddr 5#5 0#32) (scalarAccess true 8 none) (.hbm placeCode 0 false) ∧
    (mapped r 7).bindSpad.leads ((mapped r 7).dataAddr 5#5 0#32) (scalarAccess true 8 (some 4))
      (.hbm placeCode 0 false) ∧
    (mapped r 7).bindSpad.boardWaits 0 (.hbm placeCode 0 false) 8 true = false ∧
    (mapped r 7).bindSpad.mayRelease 4 ∧
    (spadded (alone { r with space := 1#2 })).bindSpad.leads 0xFFFF8#64 (scalarAccess true 8 none)
      (.spad 0 false 0xFFFF8) ∧
    (windowed (leafed r windowLeaf 0)).leads 0x6000000#64 (scalarAccess true 8 none) (.window 0 0) ∧
    (windowed (leafed r windowLeaf 0)).linkUp = true ∧ (windowed (leafed r windowLeaf 0)).busMaster = true ∧
    (peered (leafed r remoteLeaf 0)).leads 0x6000000#64 (scalarAccess true 8 none)
      (.remote (2 ^ 44 + 0x300000) 5#32) ∧ inControl (2 ^ 44 + 0x300000) = false ∧
    (peered (leafed r remoteLeaf 0)).peerFails (2 ^ 44 + 0x300000) 5#32 = false ∧
    (chained (leafed r vineLeaf 0)).leads 0x6000000#64 (scalarAccess true 8 none) (.vine 3 0 0) ∧
    (chained (leafed r vineLeaf 0)).me.vineLost = 0#32 := by
  unfold State.leads State.mayRelease; decide +kernel

/-- The first address outside the virtual address space, the last one inside it, misaligned; with no vine write
lost, and with one. -/
theorem witness_ScalarAccessChecks :
    let s := alone (Regs [0#64, 0x200000000000000#64, 0x1FFFFFFFFFFFFFF#64] anyone)
    let lost := alone { s.me with vineLost := 1#32 }
    s.me.space = 0#2 ∧ 2 ^ 57 ≤ (s.dataAddr 5#5 0#32).toNat ∧
    (s.dataAddr 6#5 0#32).toNat < 2 ^ 57 ∧ (s.dataAddr 6#5 0#32).toNat % 2 ^ 3 ≠ 0 ∧
    (∀ scope ∈ [1#3, 2#3, 4#3], true = true → scope.toNat < 2 ∨ s.me.vineLost = 0#32) ∧
    (true = true → (1#3).toNat < 2 ∨ lost.me.vineLost = 0#32) ∧ lost.me.space = 0#2 ∧ 2 ≤ (2#3).toNat ∧
    lost.me.vineLost ≠ 0#32 ∧ (∀ r ∈ [5#5, 6#5],
      lost.meetsControl lost.me.owner.toNat (lost.dataAddr r 0#32) = false) := by decide +kernel

theorem witness_AtomicResults :
    let s := mapped (Regs [0#64, 0x6000000#64] anyone) 7
    s.bindSpad.leads (s.sreg 5#5) (atomicAccess 8 2) (.hbm placeCode 0 false) ∧
    s.bindSpad.leads (s.sreg 5#5) (atomicAccess 4 4) (.hbm placeCode 0 false) ∧
    s.bindSpad.poisoned (.hbm placeCode 0 false) 8 = false ∧ s.bindSpad.mayRelease 4 := by
  unfold State.leads State.mayRelease; decide +kernel

/-- An open flow word with H 116 and C 100; a closed one that is empty; a rollback's recorded grant. -/
theorem witness_FencesAndFlowWords :
    let r := Regs [0#64, 0x6000000#64, 0x7FFFFFFF#64] anyone
    let s := mapped r (100 * 2 ^ 32 + 116)
    let t := mapped r (2 ^ 31 + 100 * 2 ^ 32 + 100)
    s.mayRelease 2 ∧ (s.sreg 5#5).toNat % 8 = 0 ∧ (s.sreg 6#5).toNat < 2 ^ 31 ∧
    s.flowAccess (s.sreg 5#5) 2#3 = .ok (.hbm placeCode 0 false) ∧
    s.poisoned (.hbm placeCode 0 false) 8 = false ∧ natOfBytes (s.hbmRead 0 placeCode 8) = 100 * 2 ^ 32 + 116 ∧
    s.me.rolled = false ∧ t.flowAccess (t.sreg 5#5) 2#3 = .ok (.hbm placeCode 0 false) ∧
    natOfBytes (t.hbmRead 0 placeCode 8) = 2 ^ 31 + 100 * 2 ^ 32 + 100 ∧
    (alone { anyone with rolled := true, ckpt := { anyone.ckpt with grant := grantWord 3 5 } }).me.ckpt.grant.getLsbD
      63 = true ∧
    (let u := boarded true 1 (alone anyone)
     u.me.vineLost = 0#32 ∧ ∃ c ∈ u.cores, ∃ e ∈ c.2.board, e.strand = u.cur) := by
  unfold State.mayRelease; decide +kernel

/-- Tags 0 and 63 complete, the others not; sets with and without a complete tag, and an empty one. -/
theorem witness_TagWaitResults :
    let s := alone { Regs [0#64, 0x8000000000000002#64, 2#64, 0#64] anyone with tags := 0x8000000000000001#64 }
    s.me.tags.getLsbD 0 = true ∧ s.me.tags.getLsbD 63 = true ∧ s.me.tags.getLsbD 1 = false ∧
    s.me.tags &&& s.sreg 5#5 ≠ 0#64 ∧ (s.me.tags &&& s.sreg 5#5).getLsbD 63 = true ∧
    (∀ i < 63, (s.me.tags &&& s.sreg 5#5).getLsbD i = false) ∧ s.sreg 6#5 ≠ 0#64 ∧
    s.me.tags &&& s.sreg 6#5 = 0#64 ∧ s.sreg 7#5 = 0#64 := by decide +kernel

/-- A strand alone in its launch, one with a partner still to arrive, and one whose marker is set. -/
theorem witness_BarrierArrivals :
    let s := alone anyone
    let two : State := { s with strands := [(0, anyone), (1, anyone)] }
    s.me.barmark = none ∧ s.releaseWaits 0 2 = false ∧ two.releaseWaits 0 2 = false ∧
    (alone { anyone with barmark := some (15#4, 1#32) }).me.barmark = some (15#4, 1#32) ∧
    two.barrierOpen 1 0 15 1 = false ∧
    (alone { anyone with arrivals := anyone.arrivals.setIfInBounds 15 1#32 }).barrierOpen 1 0 15 1 = true := by
  decide +kernel

/-- Identifiers: of generation 0, of the last index of a level, one that holds the strand, an open record, a
complete one, one in cancellation, and a word that is none. -/
theorem witness_WorkWaitAndCancel :
    let id := workId 0 1 511
    let mine := workId 0 1 0
    let r := { Regs [0#64, id.setWidth 64, 0x100000000#64] anyone with launch := mine }
    let s (n : BitVec 3) := recorded mine { Record.empty with state := 1#3 }
      (recorded id { Record.empty with state := n } (alone r))
    (s 2#3).sreg 5#5 = id.setWidth 64 ∧ workIndex id < levelSize (workLevel id) ∧ workGen id ≠ 0 ∧
    workGen (workId 0 0 5) = 0 ∧ (s 1#3).holdsMe mine = true ∧ (s 1#3).holdsMe id = false ∧
    ((s 2#3).record 1 (recordKey id)).state = 2#3 ∧ ((s 1#3).record 1 (recordKey id)).state = 1#3 ∧
    ((s 3#3).record 1 (recordKey id)).ident = id ∧ (s 3#3).me.ended = false ∧
    ((s 1#3).record 1 (recordKey (workId 0 2 511))).ident ≠ workId 0 2 511 ∧
    2 ^ 32 ≤ ((s 1#3).sreg 6#5).toNat := by decide +kernel

/-- An open launch that has no strand yet, and one of the issuing strand beside another of it and one of none. -/
theorem witness_WorkWaitAndCancel_open :
    let id := workId 0 1 511
    let r := { Record.empty with state := 1#3, target := 3#32 }
    let x := Regs [0#64, id.setWidth 64] anyone
    let s := recorded id r (alone x)
    let mine := { x with launch := id }
    let t := recorded id { r with base := 7, count := 3 } { alone mine with
      strands := [(0, mine), (1, { anyone with launch := id }), (2, anyone)] }
    (∀ u ∈ [s, t], u.sreg 5#5 = id.setWidth 64 ∧ workIndex id < levelSize (workLevel id) ∧ u.me.ended = false ∧
      workGen id ≠ 0 ∧ (u.record 1 (recordKey id)).ident = id ∧ (u.record 1 (recordKey id)).state = 1#3 ∧
      workLevel id = 0 ∧ (u.record 1 (recordKey id)).full = false ∧
      ∀ e ∈ (u.tenant 1).records, e.2.ident ≠ id → (u.lineage 1 4 e.2.ident).contains id = false) ∧
    (s.record 1 (recordKey id)).base = 0 ∧ (s.record 1 (recordKey id)).count = 0 ∧
    (∀ n, s.contains 1 id n = false) ∧ (t.record 1 (recordKey id)).base ≠ 0 ∧ t.me.launch = id ∧ t.me.state ≠ 0#4 ∧
    t.contains 1 id 1 = true ∧ (t.strand 1).state ≠ 0#4 ∧ (t.strand 1).ended = false ∧ t.contains 1 id 2 = false := by
  repeat' apply And.intro
  any_goals decide +kernel
  intro n
  match n with
  | 0 => decide +kernel
  | _ + 1 => rfl

/-- A strand of a launch of two: with nothing wrong, with a failed tag 63, with MSTOP, with lost stores to a
peer, with a lost vine write. -/
theorem witness_ExitEndsAndCounts :
    let id := workId 0 1 5
    let r := { Record.empty with ident := id, state := 1#3, target := 2#32 }
    let s (x : Strand) := recorded id r (alone { x with launch := id })
    (s anyone).enginesBusy 0 = false ∧ (s anyone).releaseWaits 0 3 = false ∧
    (s anyone).findRecord 1 id = some r ∧ (s anyone).me.mstopValid = false ∧ (s anyone).me.rCount = 0#16 ∧
    (∀ j < 64, (anyone.tstat.toList.getD j 0#9).toNat % 256 = 0) ∧
    (let t := s { anyone with tstat := anyone.tstat.setIfInBounds 63 0x11#9 }
     (t.me.tstat.toList.getD 63 0#9).toNat % 256 ≠ 0 ∧ (t.me.tstat.toList.getD 63 0#9).getLsbD 8 = false ∧
     ∀ j < 63, (t.me.tstat.toList.getD j 0#9).toNat % 256 = 0) ∧
    (s { anyone with mstopValid := true }).me.mstopValid = true ∧
    (s { anyone with rCount := 1#16 }).me.rCount ≠ 0#16 ∧ (s { anyone with rCount := 1#16 }).me.rReturned = false ∧
    (s { anyone with vineLost := 1#32 }).me.vineLost ≠ 0#32 ∧
    anyone.state ≠ 0#4 ∧ anyone.ended = false ∧
    (let t : State := { alone anyone with ops := [(1, {
       kind := .absorb 2 0x6000000#64 1, strand := 0, tenant := 1, core := 0, scope := 1#3, rtag := 62#6, atag := 63#6
       released := false, buffer := [], btags := [], written := false, status := 0#8, failAt := 0, awaiting := []
       answered := [], denied := [], region := 0, sbOp := 0, ended := 0#8 })] }
     t.enginesBusy t.cur = true) := by decide +kernel

/-- A descriptor of one strand on die 0, with a launch record free, and with none. -/
theorem witness_LaunchAllocates :
    let x := Regs [0#64, 0x6000000#64] anyone
    let cores (y : Tenant) : Tenant := { y with cores := y.cores.setIfInBounds 0 1#40 }
    let s := tenanted cores (mapped x 0x6000000)
    let s := { s with mem := writeBytes s.mem (placeCode + 0x10) (bytesOf 8 0x100000001) }
    let full := tenanted (fun y => { y with
      records := (List.range 512).map fun k => (k, { Record.empty with state := 1#3 }) }) s
    s.resolve 1 0 (s.sreg 5#5) (scalarAccess false 64 none) false = .ok (.hbm placeCode 0 false) ∧
    s.poisoned (.hbm placeCode 0 false) 64 = false ∧ s.launchable 1 (s.hbmRead 0 placeCode 64) = true ∧
    (∀ j < 64, 24 ≤ j → (s.hbmRead 0 placeCode 64).getD j 0#8 = 0#8) ∧
    s.freeRecord 1 0 = some 0 ∧ full.freeRecord 1 0 = none ∧ s.cancelling 1 s.me.launch = false ∧
    s.ready.length < 8192 ∧ s.releaseWaits 0 2 = false ∧ s.graphOf 1 s.me.launch = none ∧
    (let graph := 0x40000400#32
     let t := recorded graph { Record.empty with state := 1#3 } (recorded 0x400#32
       { Record.empty with state := 1#3, parent := some graph } (s.updMe fun x => { x with launch := 0x400#32 }))
     t.graphOf 1 t.me.launch = some graph ∧ workLevel graph = 1 ∧ t.freeRecord 1 0 = some 1 ∧
     t.cancelling 1 t.me.launch = false) ∧
    (let t := recorded 0x400#32 { Record.empty with state := 3#3 } (s.updMe fun x => { x with launch := 0x400#32 })
     t.cancelling 1 t.me.launch = true ∧ t.freeRecord 1 0 = some 1 ∧ t.releaseWaits t.cur 2 = false ∧
     t.graphOf 1 t.me.launch = none) ∧
    (∀ r ∈ [{ Record.empty with state := 3#3 }, { Record.empty with state := 1#3, target := 2#32, failed := 1#32 }],
     let graph := 0x40000400#32
     let t := recorded graph r (recorded 0x400#32
       { Record.empty with state := 3#3, parent := some graph } (s.updMe fun x => { x with launch := 0x400#32 }))
     t.cancelling 1 t.me.launch = true ∧ t.freeRecord 1 0 = some 1 ∧ t.releaseWaits t.cur 2 = false ∧
     t.graphOf 1 t.me.launch = some graph ∧ workLevel graph = 1 ∧ (t.record 1 (recordKey graph)).ident = graph ∧
     ((t.record 1 (recordKey graph)).state ≠ 1#3 ∨
       ((t.record 1 (recordKey graph)).completed.toNat + (t.record 1 (recordKey graph)).failed.toNat <
         (t.record 1 (recordKey graph)).target.toNat ∧ (t.record 1 (recordKey graph)).target.toNat < 2 ^ 32 - 1))) := by
  decide +kernel
/-- A page of HBM under a range of one byte, of a whole page, and of none; tenant 1's own tables. -/
theorem witness_MaintenanceChangesNoData :
    let s := mapped (Regs [0#64, 0x6000000#64, 0x10000#64, 1#64, 0#64] anyone) 7
    (s.sreg 7#5).toNat = s.me.owner.toNat ∧ (s.sreg 7#5).toNat < 256 ∧ (s.sreg 6#5).toNat % 65536 = 0 ∧
    s.releaseWaits 0 2 = false ∧ s.releaseWaits 0 4 = false ∧
    (s.sreg 5#5).toNat + (s.sreg 6#5).toNat ≤ 2 ^ 57 ∧
    (s.sreg 5#5).toNat / 65536 = ((s.sreg 5#5).toNat + (s.sreg 6#5).toNat - 1) / 65536 ∧
    (∀ exec ∈ [true, false], (match s.maintPage exec 0x600 with | .ok _ => true | .error _ => false) = true) ∧
    s.sreg 8#5 = 0#64 ∧ s.inFlightFor 1 (some 1) = false ∧ s.inFlightFor 1 none = false ∧
    (let t := tenanted (fun y => { y with state := 2#3, measPages := [1], measured := true }) s
     (t.sreg 6#5).toNat / 65536 ∈ (t.tenant 1).measPages ∧ t.sreg 6#5 ≠ 0#64 ∧ t.inFlightFor 1 (some 1) = false ∧
       t.releaseWaits t.cur 2 = false ∧ (t.sreg 7#5).toNat = t.me.owner.toNat) ∧
    (s.tenant 1).state = 1#3 ∧ s.vineOpen s.cur = false ∧ ∀ d, d < 4 → (s.die d).cellar.length < 655360 := by
  decide +kernel

/-- A vine address of a chain with nothing in flight; a chain of two links from which one is taken, and one of
one link to which die 1 is added. -/
theorem witness_ChainQueriesAndLinkActions :
    let leaf := chainPage 3 + 0x117
    let x := Regs [0#64, 0x6000000#64, 0#64, 1#64, 0x1F00000000#64] anyone
    let s := chained (leafed x vineLeaf 0)
    let one := chained (leafed x leaf 0)
    let two : State := { one with chains := [(3, { one.chain 3 with count := 2#3, links := 0x10#16 })] }
    s.translate 1 0x6000000#64 (scalarAccess false 8 none) = .ok (.vine 3 0 0) ∧
    (∀ e ∈ s.chains, ∀ w ∈ e.2.inflight, w.strand ≠ some s.cur) ∧
    (one.sreg 5#5).toNat % 65536 = 0 ∧ (one.sreg 6#5).toNat < 8 ∧
    one.controlTarget (one.sreg 5#5) false = .ok (.control (chainPage 3)) ∧
    one.controlTarget (one.sreg 5#5) true = .ok (.control (chainPage 3)) ∧ one.mayRelease 2 ∧ pageOf (chainPage 3) = some (.chain 3 0) ∧
    one.me.ended = false ∧ one.me.state ≠ 0#4 ∧ (one.chain 3).state = 2#3 ∧
    (one.chain 3).append = none ∧ (one.chain 3).inflight = [] ∧
    2 ≤ (two.chain 3).linkDies.length ∧ 0 ∈ (two.chain 3).linkDies ∧
    (one.chain 3).linkDies.length < 4 ∧ 1 ∉ (one.chain 3).linkDies ∧ (one.die 1).fence = 0#2 ∧
    one.frameHere ((one.sreg 8#5).extractLsb' 16 40) = true ∧
    one.baseOk (one.chain 3) (frameAddr ((one.sreg 8#5).extractLsb' 16 40)) 1 = true := by
  unfold State.mayRelease; decide +kernel

/-- A free record opened without a key and with one; an open record of the strand's, with a free tag. -/
theorem witness_SealForms :
    let leaf := 0xF0304000000 + 0x117
    let s := leafed { Regs [0#64, 0x6000100#64, 0#64, 64#64, 63#64] anyone with tags := BitVec.allOnes 64 } leaf 0
    let k : State := { s with keys := insertAt s.keys 63 { KeySlot.empty with state := 3#3, bind := 1#8 } }
    let o : State := { s with seals := [(1, { SealRecord.empty with state := 1#3 })] }
    s.sealRecordAt (s.sreg 5#5) = .ok (.here 1) ∧ o.sealRecordAt (o.sreg 5#5) = .ok (.here 1) ∧
    (s.sreg 6#5).toNat = 0 ∧ (k.sreg 8#5).toNat = 63 ∧
    k.caskUsable 1 63 = true ∧ (s.seal 1).state = 0#3 ∧ (o.seal 1).state = 1#3 ∧ (o.seal 1).strand = o.cur ∧
    (o.sreg 7#5).toNat ≤ 2 ^ 32 ∧ (o.seal 1).claimed + (o.sreg 7#5).toNat ≤ 2 ^ 48 ∧
    o.me.tags.getLsbD 63 = true ∧ o.absorbing 1 = false ∧ ((o.seal 1).slot = 0 ∨ o.keyName (o.seal 1).slot = (o.seal 1).keyId) ∧
    (∀ id ∈ [7, 8],
      let b : State := { k with
        keys := insertAt k.keys 63 { KeySlot.opened 7 with state := 3#3, bind := 1#8 }
        seals := [(1, { SealRecord.empty with state := 1#3, who := 0x3F00010000#60, keyId := id })] }
      b.sealRecordAt (b.sreg 5#5) = .ok (.here 1) ∧ (b.seal 1).slot ≠ 0 ∧ (b.seal 1).strand = b.cur ∧
      b.absorbing 1 = false ∧ (b.keyName (b.seal 1).slot = (b.seal 1).keyId ↔ id = 7)) ∧
    (let a : State := { o with ops := [(1, {
       kind := .absorb 1 0x6000000#64 1, strand := 0, tenant := 1, core := 0, scope := 1#3, rtag := 62#6, atag := 62#6
       released := false, buffer := [], btags := [], written := false, status := 0#8, failAt := 0, awaiting := []
       answered := [], denied := [], region := 0, sbOp := 0, ended := 0#8 })] }
     a.sealRecordAt (a.sreg 5#5) = .ok (.here 1) ∧ a.absorbing 1 = true) := by decide +kernel

/-- A record of package 1, reached and failing on its way. -/
theorem witness_SealForms_there :
    let s := peered (leafed (idle (Regs [0#64, 0x6000100#64] anyone)) (2 ^ 44 + 0xF0304000000 + 0x117) 0)
    let gone : State := { s with failing := [1] }
    s.sealRecordAt (s.sreg 5#5) = .ok (.there (2 ^ 44 + 0xF0304000100) 5#32) ∧
    s.peerFails (2 ^ 44 + 0xF0304000100) 5#32 = false ∧ s.me.tags.getLsbD 63 = true ∧
    gone.sealRecordAt (gone.sreg 5#5) = .ok (.there (2 ^ 44 + 0xF0304000100) 5#32) ∧
    gone.peerFails (2 ^ 44 + 0xF0304000100) 5#32 = true := by decide +kernel
/-- A strand with registers of values, a VL of 2 elements of 32 bits, and MVL 2,048. -/
def pair : State :=
  alone (Vecs 2#2 2#32 [(1, 1#2048)] [(5#5, [3, 0x80000000]), (6#5, [1, 33]), (7#5, [1, 0])]
    (Regs [0#64, 0#64, 1#64, 63#64] anyone))

/-- The same in a handler that has claimed, and with VSTART at VL. -/
def pairs : List State :=
  [pair, alone { pair.me with inHandler := true, claimed := true }, alone { pair.me with vstart := 2#32 }]

theorem witness_VectorIntegerResults :
    (∀ s ∈ pairs, s.mayVector true 0#2 ∧ s.mayVector true 3#2 ∧ s.clean [5#5, 6#5]) ∧
    (alone { pair.me with mvl := 256#16 }).mayVector true 2#2 := by
  unfold State.mayVector State.clean; decide +kernel

theorem witness_VectorMoveResults : pair.mayVector true 3#2 ∧ pair.mayVector true 0#2 ∧ pair.clean [5#5, 6#5] ∧
    pair.clean [5#5] ∧ pair.clean [] := by unfold State.mayVector State.clean; decide +kernel

theorem witness_VectorCompareResults : 0 < (15#5).toNat ∧ (15#5).toNat < 16 ∧ 0 < (1#5).toNat ∧
    pair.mayVector true 3#2 ∧ pair.clean [5#5, 6#5] ∧ (5#9).toNat < 6 ∧ (3#9).toNat < 4 ∧
    sewFmt pair.me.sew = some fp32 ∧ sewFmt 3#2 = some fp64 ∧ sewFmt 1#2 = some bf16 := by
  unfold State.mayVector State.clean; decide +kernel

theorem witness_VectorFoldResults : pair.mayVector false 0#2 ∧ pair.clean [5#5] := by
  unfold State.mayVector State.clean; decide +kernel

/-- Index 63, the last element of a register of 2,048 bits at SEW 2. -/
theorem witness_VectorPermutationResults : pair.mayVector false 3#2 ∧ pair.mayVector false 0#2 ∧
    pair.clean [5#5, 6#5] ∧ pair.clean [5#5] ∧ pair.clean [] ∧
    (pair.sreg 7#5).toNat < pair.me.mvl.toNat / (8 * 2 ^ pair.me.sew.toNat) := by
  unfold State.mayVector State.clean; decide +kernel

theorem witness_VectorFloatResults : pair.me.sew = 2#2 ∧ (alone { pair.me with sew := 3#2 }).me.sew = 3#2 ∧
    (alone { pair.me with sew := 1#2 }).me.sew = 1#2 ∧ pair.mayVector true 3#2 ∧ pair.mayVector true 0#2 ∧
    pair.clean [5#5, 6#5] ∧ pair.clean [5#5] ∧ pair.clean [5#5, 6#5, 7#5] := by
  unfold State.mayVector State.clean; decide +kernel

/-- `pair` with a tag on segment 0 of v5. -/
def tagged (tag : BitVec 512) : State :=
  alone { pair.me with vec := { pair.me.vec with tags := pair.me.vec.tags.setIfInBounds 5 tag } }

/-- FP32 to E4M3 of as many elements as fit, and from a tagged FP32 block. -/
theorem witness_VectorConversionResults :
    (Instr.vfcvt 8#4 5#4 4#5 5#5 0#4 0#2).wf = true ∧ (Instr.vfcvt 4#4 10#4 4#5 5#5 0#4 0#2).wf = true ∧
    pair.mayVector true 0#2 ∧ pair.clean [5#5] ∧
    (alone { pair.me with vl := 64#32 }).me.vl.toNat * max (cvtWidth 5) (cvtWidth 8) ≤ pair.me.mvl.toNat ∧
    (tagged 0x7F06#512).taggedOk 5#5 (tagFormat ((tagged 0x7F06#512).me.segTag 5#5 0)) 4 = true ∧
    (tagged 0x7F06#512).mayVector true 0#2 := by unfold State.mayVector State.clean; decide +kernel

/-- Packing 64 elements as E4M3 and 128 as FP32 would be too many; 2 of a tagged E4M3 block are read. -/
theorem witness_VectorBlockResults :
    let s := tagged 0x7D01#512
    sewFmt s.me.sew = some fp32 ∧ s.mayVector false 0#2 ∧ s.clean [5#5] ∧ 0 < tagElems 1 ∧
    512 ≤ s.me.mvl.toNat ∧ (s.me.vl.toNat + tagElems 1 - 1) / tagElems 1 ≤ s.me.mvl.toNat / 512 ∧
    0 < tagElems (tagFormat (s.me.segTag 5#5 0)) ∧
    ((s.sreg 7#5).toNat + s.me.vl.toNat - 1) / tagElems (tagFormat (s.me.segTag 5#5 0)) <
      s.me.mvl.toNat / 512 ∧
    (let t := alone { s.me with vl := 1#32 }
     tagFormat (t.me.segTag 5#5 (((t.sreg 7#5).toNat + 0) / 64)) = tagFormat (t.me.segTag 5#5 0)) := by
  unfold State.mayVector State.clean; decide +kernel

/-- A mask whose first set bit below VL is bit 0, and one with none. -/
theorem witness_MaskInstructionResults :
    pair.mayVector false 0#2 ∧ 0 < (15#5).toNat ∧ (15#5).toNat < 16 ∧ 0 < pair.me.vl.toNat ∧
    (pair.me.kreg 1).getLsbD 0 = true ∧ (∀ e < 2, (pair.me.kreg 2).getLsbD e = false) ∧
    pair.me.vl.toNat = 2 := by unfold State.mayVector; decide +kernel

/-- In a handler that has not claimed; VSTART 1; SEW 0, and SEW 2 for each width of an atomic; a steward core;
an engine held and not; MSTOP; a poisoned register with a valid checkpoint. -/
theorem witness_VectorAndMatrixIssueRules :
    (alone { anyone with inHandler := true }).me.claimed = false ∧
    (alone { pair.me with vstart := 1#32 }).me.vstart ≠ 0#32 ∧ (alone { pair.me with sew := 0#2 }).me.sew = 0#2 ∧
    36 ≤ (alone { anyone with place := some { core := 36, slot := 0 } }).me.core % 64 ∧
    (alone anyone).me.core % 64 < 36 ∧ ((alone anyone).core 0).engine.holder ≠ some 0 ∧
    (let s := (alone { anyone with mstopValid := true }).updCore 0 fun x =>
        { x with engine := { x.engine with holder := some 0 } }
     (s.core 0).engine.holder = some s.cur ∧ (s.core 0).engine.release = false ∧ s.me.mstopValid = true) ∧
    8 * 2 ^ pair.me.sew.toNat ≠ (if (3#2 : BitVec 2) = 3#2 then 64 else 32) ∧
    8 * 2 ^ (alone { pair.me with sew := 3#2 }).me.sew.toNat ≠ (if (2#2 : BitVec 2) = 3#2 then 64 else 32) ∧
    (let s := alone { pair.me with poisonV := [5], ckpt := { pair.me.ckpt with valid := true } }
     s.mayVector true 3#2 ∧ 5 ∈ s.me.poisonV ∧ (s.actives 0#4).head? = some 0 ∧ s.me.ckpt.valid = true ∧
     s.me.inHandler = false ∧ s.me.rbStrip.toNat < 4) := by unfold State.mayVector; decide +kernel
/-- The accumulator's last row under MSTOP, with a checkpoint to roll back to and without. -/
theorem witness_VectorAndMatrixIssueRules_stopped :
    ∀ valid ∈ [true, false],
      let s := (alone { (Regs [0#64, 2047#64] pair.me) with
        mstopValid := true, ckpt := { pair.me.ckpt with valid := valid } }).updCore 0 fun x =>
          { x with engine := { x.engine with holder := some 0 } }
      s.me.core % 64 < 36 ∧ (s.core s.me.core).engine.holder = some s.cur ∧
      (s.core s.me.core).engine.release = false ∧ s.me.mstopValid = true ∧ 2 ≤ s.me.sew.toNat ∧
      128 * (s.sreg 5#5).toNat + s.me.vl.toNat * (8 * 2 ^ s.me.sew.toNat) / 8 ≤ 262144 ∧ s.mayVector true 3#2 ∧
      s.mayVector true 0#2 ∧ s.me.ckpt.valid = valid ∧ s.me.inHandler = false ∧ s.me.rbStrip.toNat < 4 ∧
      s.me.state ≠ 0#4 ∧ s.me.ended = false := by
  unfold State.mayVector; decide +kernel

theorem only_zero (s : State) (k : KReg) (h : s.me.vl = 1#32) (e : Nat) : s.active k e → e = 0 := by
  rintro ⟨-, h1, -⟩
  rw [h] at h1
  simpa using h1

/-- One active element, its address in s5, a stride of −4 in s6 and an index 0 in v6. -/
def one (word : Nat) : State :=
  mapped (Regs [0#64, 0x6000000#64, 0xFFFFFFFFFFFFFFFC#64] (Vecs 2#2 1#32 [] [(5#5, [9]), (6#5, [0])] anyone)) word

/-- The target of the element of each form of address. -/
theorem witness_VectorLoadResults :
    let s := boarded false 98 (one 7)
    let x : Nat → Target := fun _ => .hbm placeCode 0 false
    s.boardRoom 1 ∧ (∀ o ∈ (s.core s.me.core).board, o.strand = s.cur → o.write = false) ∧
    s.me.k14pc ≠ some s.me.pc ∧
    s.mayVector true 0#2 ∧ s.mayVector true 3#2 ∧
    s.clean [] ∧ s.clean [6#5] ∧ s.me.vl.toNat * 32 ≤ s.me.mvl.toNat ∧ s.active 0#4 0 ∧
    (∀ addr ∈ [fun e => s.sreg 5#5 + BitVec.ofNat 64 (e * 4), fun e => s.sreg 5#5 + BitVec.ofNat 64 e * s.sreg 6#5,
        fun e => s.sreg 5#5 + BitVec.ofNat 64 (element (s.me.vreg 6#5) 32 (replica 3#2 32 e) : BitVec 32).toNat],
      ∀ e, s.active 0#4 e → (addr e).toNat % 4 = 0 ∧ s.bindSpad.quiet (x e) ∧
        s.bindSpad.poisoned (x e) 4 = false ∧
        s.bindSpad.resolveIn 1 0 0#2 (addr e)
          { way := .vector, read := true, write := false, exec := false, width := 4, scope := none } false =
          .ok (x e) ∧ s.bindSpad.onNsPage [{ va := addr e, len := 4, tgt := x e }] = false) := by
  refine and_assoc.1 (and_assoc.1 (and_assoc.1 (and_assoc.1 (and_assoc.1 (and_assoc.1 (and_assoc.1 (and_assoc.1
    ⟨?_, ?_⟩)))))))
  · unfold State.mayVector State.clean State.active State.boardRoom; decide +kernel
  intro addr ha e he
  obtain rfl := only_zero _ _ (by decide +kernel) e he
  simp only [List.mem_cons, List.not_mem_nil, or_false] at ha
  rcases ha with rfl | rfl | rfl <;> unfold State.quiet <;> decide +kernel

/-- Two elements, of which the second is the first of a page that is not mapped; two on a page with NS = 1; two of
which the second's block is poisoned. -/
theorem witness_VectorLoadResults_cut : (∀ (s : State) (pa : Nat), s.quiet (.hbm pa 0 false)) ∧
    let two (base leaf : Nat) : State :=
      leafed (Regs [0#64, BitVec.ofNat 64 base] (Vecs 2#2 2#32 [] [] anyone)) (placeCode + leaf) 7
    let a : Access := { way := .vector, read := true, write := false, exec := false, width := 4, scope := none }
    let leads (s : State) (e : Nat) : Except Stop Target :=
      s.bindSpad.resolveIn s.bindSpad.me.owner.toNat s.bindSpad.me.core s.bindSpad.me.space
        (s.sreg 5#5 + BitVec.ofNat 64 (e * 4)) a false
    let gone := two 0x600FFFC 7
    let ns := two 0x6000000 0x127
    let spoilt : State := { two 0x600003C 7 with poison := [(placeCode / 64 + 1, false)] }
    (∀ p ∈ [(gone, placeCode + 0xFFFC), (ns, placeCode), (spoilt, placeCode + 60)],
      let s : State := p.1
      s.boardRoom 1 ∧ (∀ o ∈ (s.core s.me.core).board, o.write = false) ∧
      s.me.k14pc ≠ some s.me.pc ∧ s.mayVector true 0#2 ∧ s.clean [] ∧ s.actives 0#4 = [0, 1] ∧
      (s.sreg 5#5).toNat % 4 = 0 ∧ s.bindSpad.poisoned (.hbm p.2 0 false) 4 = false ∧
      leads s 0 = .ok (.hbm p.2 0 false)) ∧
    leads gone 1 = .error (.trap 4 0x6010000#64) ∧ leads ns 1 = .ok (.hbm (placeCode + 4) 0 false) ∧
    ns.bindSpad.onNsPage [{ va := 0x6000004#64, len := 4, tgt := .hbm (placeCode + 4) 0 false }] = true ∧
    leads spoilt 1 = .ok (.hbm (placeCode + 64) 0 false) ∧
    spoilt.bindSpad.poisoned (.hbm (placeCode + 64) 0 false) 4 = true := by
  refine ⟨fun _ _ => rfl, ?_⟩
  unfold State.boardRoom State.mayVector State.clean; decide +kernel

/-- The same addresses, to be written; two elements to the same place; atomics on one element. -/
theorem witness_VectorStoreAndAtomicResults :
    let s := one 7
    s.me.space = 0#2 ∧ s.me.k14pc ≠ some s.me.pc ∧ s.mayVector true 0#2 ∧ s.mayVector true 3#2 ∧ s.clean [5#5] ∧
    s.clean [5#5, 6#5] ∧ s.clean [5#5, 6#5, 4#5] ∧ s.me.vl.toNat * 32 ≤ s.me.mvl.toNat ∧
    2 ^ s.me.sew.toNat = 4 ∧ s.mayRelease 4 ∧
    (∀ addr ∈ [fun e => s.sreg 5#5 + BitVec.ofNat 64 (e * 4), fun e => s.sreg 5#5 + BitVec.ofNat 64 e * s.sreg 6#5,
        fun e => s.sreg 5#5 + BitVec.ofNat 64 (element (s.me.vreg 6#5) 32 (replica 3#2 32 e) : BitVec 32).toNat],
      ∀ e, s.active 0#4 e → (addr e).toNat % 4 = 0 ∧ placeCode % 4 = 0 ∧
        s.resolveIn 1 0 0#2 (addr e)
          { way := .vector, read := false, write := true, exec := false, width := 4, scope := none } false =
          .ok (.hbm placeCode 0 false) ∧ s.leads (addr e) (atomicAccess 4 4) (.hbm placeCode 0 false) ∧
        s.poisoned (.hbm placeCode 0 false) 4 = false) ∧
    (∀ e i, s.active 0#4 e → s.active 0#4 i → placeCode = placeCode → e = i) := by
  refine and_assoc.1 (and_assoc.1 (and_assoc.1 (and_assoc.1 (and_assoc.1 (and_assoc.1 (and_assoc.1
    (and_assoc.1 (and_assoc.1 ⟨?_, ?_, ?_⟩))))))))
  · unfold State.mayVector State.clean State.mayRelease; decide +kernel
  · intro addr ha e he
    obtain rfl := only_zero _ _ (by decide +kernel) e he
    simp only [List.mem_cons, List.not_mem_nil, or_false] at ha
    rcases ha with rfl | rfl | rfl <;> unfold State.leads <;> decide +kernel
  · intro e i he hi _
    rw [only_zero _ _ (by decide +kernel) e he, only_zero _ _ (by decide +kernel) i hi]

/-- A leaf that is invalid, in a tenant with a fault queue. -/
theorem witness_VectorPageMiss :
    let s := tenanted (fun y => { y with faultq := 1#40 }) (leafed (one 7).me 0 7)
    s.me.space = 0#2 ∧ s.me.k14pc ≠ some s.me.pc ∧ s.mayVector true 0#2 ∧ s.clean [5#5] ∧ s.actives 0#4 = [0] ∧
    s.me.stepping = false ∧ s.me.prevBatch = [] ∧ (s.tenant 1).fqHolding = [] ∧
    (s.tenant 1).fqTail.toNat - (s.tenant 1).fqHead.toNat < 1024 ∧
    (∀ q ∈ (s.tenant 1).fqEntries, q.2.status ≠ 0#2) ∧
    ∀ write, s.resolveIn 1 0 0#2 0x6000000#64
      { way := .vector, read := !write, write := write, exec := false, width := 4, scope := none } false =
      .error (.miss 0x6000000#64 0) := by unfold State.mayVector State.clean; decide +kernel
/-- Core 0's engine changed; held by the strand that issues. -/
def engined (f : MatrixEngine → MatrixEngine) (s : State) : State :=
  s.updCore 0 fun x => { x with engine := f x.engine }
def holding (f : MatrixEngine → MatrixEngine) (x : Strand) : State :=
  engined (fun e => f { e with holder := some 0 }) (alone x)

/-- Two output rows of one column over two positions. -/
def shaped (x : Strand) : Strand := { x with shape := 0x0002010002000000#64 }

/-- A shape to be granted to the holder, on a free engine, on one another strand holds; a release; a
malformed request. -/
theorem witness_MatrixShapeGrants :
    let x := Regs [1#64, 1#64, 1#64] anyone
    (∀ s ∈ [holding id x, alone x, engined (fun e => { e with holder := some 1 }) (alone x)],
      s.me.core % 64 < 36 ∧ (1#2).toNat < 3 ∧ (s.sreg 4#5).toNat ≠ 0 ∧ (s.sreg 5#5).toNat ≠ 0 ∧
      (s.sreg 6#5).toNat ≠ 0 ∧ s.me.stepping = false ∧ (s.core 0).engine.waiters = [] ∧
      (s.core 0).engine.release = false ∧ (s.sreg 7#5).toNat = 0) ∧
    ((holding id x).core 0).engine.holder = some 0 ∧ ((alone x).core 0).engine.holder = none ∧
    ((holding id x).core 0).engine.queue = [] ∧ ((holding id x).core 0).engine.shadow.state ≠ 1#2 ∧
    ((engined (fun e => { e with holder := some 1 }) (alone x)).core 0).engine.holder = some 1 ∧
    1 ≠ (alone x).cur := by decide +kernel

/-- An operation of an engine, of one output row of one column over two positions. -/
def matOp (k : MatKind) : MatOp :=
  { kind := k, pc := 0x6000000#64, shape := 0x0001010002000000#64, mode := 0#2, sparse := false, base := 2047
    addr := 64, stride := 64#64, start := 0, sbOp := 1 }

/-- One block of weights from the scratchpad and one from the address space, to be loaded at once and behind a
load, a swap and a waiting load; a swap of a loaded, a faulted and an empty plane, and one that waits. -/
theorem witness_MatrixWeightLoads :
    let x := shaped (Regs [0x3000000#64, 64#64, 1#64] anyone)
    let s := spadded (holding id x)
    let h := engined (fun e => { e with holder := some 0 }) (mapped (shaped (Regs [0x6000000#64, 64#64, 1#64] anyone)) 7)
    let plane (n : BitVec 2) : State := holding (fun e => { e with shadow := { e.shadow with state := n, cause := 4#8 } }) x
    (∀ t ∈ [s, h, plane 2#2, plane 3#2, plane 0#2], t.me.core % 64 < 36 ∧ (t.core 0).engine.holder = some t.cur ∧
      (t.core 0).engine.release = false ∧ t.me.mstopValid = false ∧ (t.core 0).engine.queue.length < 8 ∧
      (t.core 0).engine.swapping = false ∧ (t.core 0).engine.queue.any MatOp.isLoad = false ∧
      t.boardRoom 2) ∧
    (let late (f : MatrixEngine → MatrixEngine) : State := spadded (holding f x)
     let q1 := late fun e => { e with shadow := { e.shadow with state := 1#2 } }
     let q2 := late fun e => { e with queue := [matOp .mswap], shadow := { e.shadow with state := 2#2 } }
     let q3 := late fun e => { e with queue := [matOp (.mldw Plane.empty)], shadow := { e.shadow with state := 2#2 } }
     (q1.core 0).engine.shadow.state = 1#2 ∧ (q2.core 0).engine.swapping = true ∧
     (q3.core 0).engine.queue.any MatOp.isLoad = true ∧
     (q1.core 0).engine.queue.any MatOp.isLoad = false ∧ (q1.core 0).engine.swapping = false ∧
     ∀ t ∈ [q1, q2, q3], (t.core 0).engine.holder = some t.cur ∧ (t.core 0).engine.release = false ∧
       (t.core 0).engine.queue.length < 8 ∧ t.boardRoom 1 ∧
       (t.core 0).engine.sparse = false ∧ (t.core 0).engine.mode = 0#2 ∧
       ∀ j, j < 64 → t.spadCheck t.me.owner.toNat t.me.core false (64 + 64 * 0 + j) = none) ∧
    (∀ t ∈ [s, h], (t.core 0).engine.sparse = false ∧ (t.me.shape.toNat / 2 ^ 40) % 2 ^ 8 = 1 ∧
      (t.me.shape.toNat / 2 ^ 24) % 2 ^ 16 = 2 ∧ 1 ≤ (t.sreg 6#5).toNat ∧ (t.sreg 5#5).toNat % 64 = 0 ∧
      (t.core 0).engine.shadow.state ≠ 1#2 ∧ (t.core 0).engine.mode = 0#2) ∧
    (∀ j, j < 64 → s.spadCheck s.me.owner.toNat s.me.core false (64 + 64 * 0 + j) = none) ∧
    (match (h.updMe Strand.bindHere).weightPlan 0x6000000 [0] with
      | .ok (.read srcs) => srcs == [{ va := 0x6000000#64, tgt := .hbm placeCode 0 false, cask := none }]
      | _ => false) = true ∧
    ((plane 2#2).core 0).engine.shadow.state = 2#2 ∧ ((plane 3#2).core 0).engine.shadow.state = 3#2 ∧
    fatalCause ((plane 3#2).core 0).engine.shadow.cause.toNat = false ∧
    ((plane 0#2).core 0).engine.shadow.state = 0#2 ∧
    (let t := holding (fun e => { e with queue := [matOp .mswap], shadow := { e.shadow with state := 2#2 } }) x
     (t.core 0).engine.shadow.state ≠ 1#2 ∧ (t.core 0).engine.swapping = true) := by
  unfold State.boardRoom; decide +kernel

/-- A sparse load whose mask is poisoned, with a checkpoint and without. -/
theorem witness_MatrixWeightLoads_poisoned :
    ∀ valid ∈ [true, false],
      let x := shaped (Regs [0x3000000#64, 64#64, 1#64] anyone)
      let t := holding (fun e => { e with sparse := true })
        { x with poisonV := [31], ckpt := { x.ckpt with valid := valid } }
      t.me.core % 64 < 36 ∧ (t.core 0).engine.holder = some t.cur ∧ (t.core 0).engine.release = false ∧
      t.me.mstopValid = false ∧ (t.core 0).engine.sparse = true ∧ (t.core 0).engine.mode = 0#2 ∧
      (t.me.shape.toNat / 2 ^ 40) % 2 ^ 8 ≤ (t.sreg 6#5).toNat ∧ (31#5).toNat ∈ t.me.poisonV ∧
      t.me.ckpt.valid = valid ∧ t.me.inHandler = false ∧ t.me.rbStrip.toNat < 4 ∧ t.me.state ≠ 0#4 ∧
      t.me.ended = false := by decide +kernel

/-- A load of one block of the scratchpad that the engine has under way, and one that keeps a block before it. -/
theorem witness_MatrixWeightLoads_done :
    let w : WeightSource := { va := 0#64, tgt := .spad 0 false 64, cask := none }
    let l (first : Nat) : State := (spadded (holding (fun e => { e with shadow := { e.shadow with
      state := 1#2, srcs := [w], first := first, blocks := [(0, (7#512, 0#16))] } }) anyone)).updCore 0
        fun y => { y with stags := [(1, 4#16)] }
    ∀ t ∈ [l 0, l 1, boarded false (l 0).engine.shadow.sbOp (l 0)], (t.core 0).engine.holder = some 0 ∧
      (t.core 0).engine.release = false ∧ t.boardHeld 0 (t.core 0).engine.shadow.sbOp = false ∧
      (t.core 0).engine.shadow.state = 1#2 ∧ (t.core 0).engine.shadow.srcs = [w] ∧
      t.quiet w.tgt ∧ (t.weightBytes 0 w).isSome ∧
      t.homeRefuses (t.strand 0).owner.toNat weightAccess w.va w.tgt = .ok () ∧
      tagFormat (t.tagTarget w.tgt) ∈ clsCodes (t.core 0).engine.shadow.cls.toNat := by
  unfold State.quiet; decide +kernel

/-- Two rows of 64 bytes, of which the first carries its format's tag; a row past VSTART; no loaded plane. -/
theorem witness_MatrixOperationsQueue :
    let x := { shaped (Regs [0#64, 2046#64, 64#64, 128#64] anyone) with vstart := 1#32 }
    let s := (spadded (holding (fun e => { e with active := { e.active with state := 2#2, k := 2, n := 1 } }) x))
    let f (code : Nat) : State := boarded true 98 (s.updCore 0 fun y => { y with stags := [(3, BitVec.ofNat 16 code)] })
    (∀ t ∈ [f 1, f 6, f 3], t.me.core % 64 < 36 ∧ (t.core 0).engine.holder = some t.cur ∧
      (t.core 0).engine.release = false ∧ t.me.mstopValid = false ∧ (t.core 0).engine.queue.length < 8 ∧
      t.boardRoom 2 ∧ (t.core 0).engine.nextActive.state = 2#2 ∧
      (t.core 0).engine.nextActive.mode = (t.core 0).engine.mode ∧
      (t.core 0).engine.nextActive.sparse = (t.core 0).engine.sparse ∧ (t.core 0).engine.mode = 0#2 ∧
      (t.core 0).engine.nextActive.k = (t.me.shape.toNat / 2 ^ 24) % 2 ^ 16 ∧
      (t.core 0).engine.nextActive.n = (t.me.shape.toNat / 2 ^ 40) % 2 ^ 8 ∧
      t.me.vstart.toNat < t.me.shape.toNat / 2 ^ 48 ∧
      (t.sreg 5#5).toNat + t.me.shape.toNat / 2 ^ 48 * 1 ≤ 2048 ∧ (t.sreg 6#5).toNat % 64 = 0 ∧
      (t.sreg 7#5).toNat % 64 = 0 ∧ 64 * ((1 + 32 - 1) / 32) ≤ (t.sreg 7#5).toNat ∧
      entryOf t.cur 0 false [192 / 64] =
        some { strand := t.cur, write := false, first := 3, count := 1, stride := 1, op := 0 } ∧
      (∀ o ∈ (t.core 0).board, o.strand = t.cur → o.write = true → o.covers 3 = false) ∧
      (∀ j, j < 64 → t.spadCheck t.me.owner.toNat t.me.core false (64 + 1 * 128 + j) = none)) ∧
    tagFormat ((f 1).spadTag 0 false 192) ∈ [1, 2] ∧ tagFormat ((f 6).spadTag 0 false 192) ∈ [6] ∧
    tagFormat ((f 3).spadTag 0 false 192) ∈ [3] ∧
    (s.sreg 7#5).toNat ≠ 0 ∧ (s.sreg 4#5).toNat + (s.sreg 7#5).toNat ≤ 2048 ∧
    (let t := holding id x
     t.me.core % 64 < 36 ∧ (t.core 0).engine.holder = some t.cur ∧ (t.core 0).engine.release = false ∧
     t.me.mstopValid = false ∧ (t.core 0).engine.queue.length < 8 ∧ t.boardRoom 2 ∧
     (t.core 0).engine.nextActive.state ≠ 2#2) := by
  unfold State.boardRoom; decide +kernel

/-- The last four elements of the accumulator. -/
theorem witness_MatrixRawRowsAndCheck :
    let s := holding id (Vecs 2#2 4#32 [(1, 5#2048)] [(5#5, [9])] (Regs [0#64, 2047#64] anyone))
    s.me.core % 64 < 36 ∧ (s.core 0).engine.holder = some s.cur ∧ (s.core 0).engine.release = false ∧
    2 ≤ s.me.sew.toNat ∧ 128 * (s.sreg 5#5).toNat + s.me.vl.toNat * 32 / 8 ≤ 262144 ∧ s.me.mstopValid = false ∧
    (s.core 0).engine.queue = [] ∧ (s.core 0).engine.shadow.state ≠ 1#2 ∧ s.mayVector true 0#2 ∧
    s.mayVector true 3#2 ∧ 5 ∉ s.me.poisonV ∧
    (let t := engined (fun e => { e with queue := [matOp .mswap] }) s
     (t.core 0).engine.holder = some t.cur ∧ (t.core 0).engine.idle = false ∧ t.mayVector true 3#2) ∧
    (∀ o ∈ [matOp (.mzero 2), { matOp (.mmac false) with shape := 0x0003010002000000#64, start := 1 }],
      let t := boarded true 1 (engined (fun e => { e with queue := [o, matOp .mswap] }) s)
      (t.core 0).engine.holder = some 0 ∧ (t.core 0).engine.queue = o :: [matOp .mswap] ∧
      (t.core 0).engine.release = false ∧ t.boardHeld 0 o.sbOp = false ∧ (t.core 0).poison = [] ∧
      (t.core 0).engine.upset = [] ∧ t.latchRefuses (t.strand 0).owner.toNat (dieOfCore 0) = false ∧
      o.start < o.rows ∧ o.start ≤ o.rows - 1 ∧ o.rows - 1 < o.rows) := by
  unfold State.mayVector; decide +kernel

/-- Each kind of operation, of one row, on a die that admits its strand and on one latched to another world; a
waiting load behind a load under way, and behind none. -/
theorem witness_MatrixOperationsComplete :
    let s (k : MatKind) (st : BitVec 2) : State :=
      holding (fun e => { e with queue := [matOp k], shadow := { e.shadow with state := st } }) anyone
    (∀ k ∈ [MatKind.mzero 1, .mld 0#2, .mst 3#3, .mswap, .mmac false, .mldw Plane.empty], ∀ st ∈ [1#2, 2#2],
      let t := boarded true 1 (s k st)
      (t.core 0).engine.holder = some 0 ∧ (t.core 0).engine.queue = [matOp k] ∧ t.boardHeld 0 (matOp k).sbOp = false ∧
      (t.core 0).poison = [] ∧ (t.core 0).engine.upset = [] ∧ (t.core 0).engine.release = false ∧
      (t.core 0).engine.shadow.state = st ∧ t.latchRefuses (t.strand 0).owner.toNat (dieOfCore 0) = false ∧
      (t.updDie 0 fun y => { y with latch := 1#2, world := 63#6 }).latchRefuses (t.strand 0).owner.toNat
        (dieOfCore 0) = true) ∧
    (∀ k ∈ [MatKind.mld 0#2, .mst 3#3, .mmac false], (matOp k).start < shapeM (matOp k).shape ∧
      (matOp k).mode.toNat < 3 ∧ 1 ≤ shapeN (matOp k).shape ∧ shapeN (matOp k).shape ≤ 32) ∧
    (matOp (.mst 3#3)).addr % 64 = 0 ∧ (matOp (.mst 3#3)).stride.toNat % 64 = 0 ∧
    (∀ fmt ∈ [0#3, 3#3], 64 * ((shapeN (matOp (.mst fmt)).shape + tagElems (mstCode fmt) - 1) /
      tagElems (mstCode fmt)) ≤ (matOp (.mst fmt)).stride.toNat) := by decide +kernel
/-- Two rows of two bytes, and none, between the views of a scratchpad. -/
theorem witness_CopiesStart :
    let s (q : Word) : State := boarded true 98 <| spadded (alone (idle (Regs [128#64, 64#64, q, 0x0000004000000020#64] anyone)))
    let a (split : Option (Nat × Nat)) : CopyArgs :=
      { rows := 2, rb := 2, dst := 128#64, src := 64#64, dstr := 64#64, sstr := 32#64, dspace := 2#2
        sspace := 1#2, split := split }
    (∀ t ∈ [s 0x0002000002000000#64, s 0x0000000002000000#64], (t.sreg 6#5).toNat % 2 ^ 24 = 0 ∧
      t.me.tags.getLsbD 62 = true ∧ t.me.tags.getLsbD 63 = true ∧ t.boardRoom 2) ∧
    2 % ((1#3).toNat + 1) = 0 ∧
    (∀ split ∈ [none, some (2, 1)], (a split).pairs.map (·.2) = [64#64, 65#64, 96#64, 97#64]) ∧
    (a none).pairs.map (·.1) = [128#64, 129#64, 192#64, 193#64] ∧
    (a (some (2, 1))).pairs.map (·.1) = [128#64, 129#64, 192#64, 193#64] ∧
    (∀ i ∈ [64, 65, 96, 97], (s 0#64).spadCheck (s 0#64).me.owner.toNat (s 0#64).me.core false i = none) ∧
    (∀ i ∈ [128, 129, 192, 193], (s 0#64).spadCheck (s 0#64).me.owner.toNat (s 0#64).me.core true i = none) := by
  unfold State.boardRoom; decide +kernel

/-- A sum of one element over a group of one strand, whose descriptor stands at 0x600_0000. -/
def descriptor : Nat := 5 + 2 ^ 64 + 2 ^ 48 * 2 ^ 512 + 2 ^ 576

theorem witness_CollectivesStart :
    let x := idle (Regs [8#64, 16#64, 0x0000000700000001#64, 0x6000000#64] anyone)
    let t := mapped x 0
    let s := { t with mem := writeBytes t.mem placeCode (bytesOf 80 descriptor) }
    let s0 := s.bindEnds 1#2 1#2
    let head := bytesOf 64 descriptor
    let body := (bytesOf 80 descriptor).drop 64
    (s.sreg 7#5).toNat % 64 = 0 ∧ s0.readWords (s.sreg 7#5) 8 = .ok (head, s0) ∧
    s0.readWords (s.sreg 7#5 + 64#64) (2 * ((descWord head 8).toNat % 512)) = .ok (body, s0) ∧
    descriptorOk (head ++ body) = true ∧ (∃ m ∈ membersOf (head ++ body), s.participates s.cur m = true) ∧
    hasKey s.me.lastColl 5 = false ∧ s.boardRoom 2 ∧
    s0.groupEnded 5 (membersOf (head ++ body)) = false ∧ (s.sreg 4#5).toNat % collWidth 0 = 0 ∧
    (s.sreg 5#5).toNat % collWidth 0 = 0 ∧ (∀ j, j < 8 → (spadded s).spadCheck 1 0 false (8 + j) = none ∧
      (spadded s).spadCheck 1 0 false (16 + j) = none) := by
  unfold State.boardRoom; decide +kernel

/-- An add of no element and of one, at the scale −64. -/
theorem witness_ReductionsStart :
    let x := idle (Regs [8#64, 0xFFFFFFFFFFFFFFC0#64] (Vecs 1#2 1#32 [(1, 0#2048)] [(5#5, [9])] anyone))
    let s := alone x
    s.me.vstart = 0#32 ∧ s.me.mvl ≠ 256#16 ∧ 8 * 2 ^ s.me.sew.toNat = 16 ∧ (s.sreg 5#5).toInt = -64 ∧
    (s.sreg 4#5).toNat % 2 = 0 ∧ s.me.tags.getLsbD 63 = true ∧ 5 ∉ s.me.poisonV ∧ s.actives 1#4 = [] ∧
    s.actives 0#4 = [0] := by decide +kernel
/-- An operation of the strand in flight. -/
def opOf (k : EngineKind) (done : Bool) : EngineOp :=
  { kind := k, strand := 0, tenant := 1, core := 0, scope := 1#3, rtag := 62#6, atag := 63#6, released := done
    buffer := if done then [9#8] else [], btags := [], written := false, status := 0#8, failAt := 0, awaiting := []
    answered := [], denied := [], region := 0, sbOp := 0, ended := 0#8 }
def operating (k : EngineKind) (done : Bool) (s : State) : State := { s with ops := [(1, opOf k done)] }

/-- A byte of a copy to a scratchpad and to HBM, an add, an absorb, a sum of one, and a lost sequence. -/
theorem witness_EngineEvents :
    let a (d : BitVec 2) (dst : Word) : CopyArgs :=
      { rows := 1, rb := 1, dst := dst, src := 64#64, dstr := 0#64, sstr := 0#64, dspace := d, sspace := 1#2
        split := none }
    let spad : EngineKind := .copy (a 1#2 128#64)
    let hbm : EngineKind := .copy (a 0#2 0x6000000#64)
    let red : EngineKind := .rred 0#2 0x6000000#64 (-64) [(0, 5#32)]
    let absorb : EngineKind := .absorb 2 0x6000000#64 1
    let two : EngineKind := .rred 0#2 0x6000000#64 (-64) [(0, 5#32), (1, 6#32)]
    let coll : EngineKind := .coll 5#64 7#32 0 4 1 0#64 64#64 1#2 1#2 (bytesOf 80 descriptor)
    let m := mapped anyone 7
    let sealed := { m with seals := [(2, { SealRecord.empty with state := 1#3 })] }
    let c : Contribution :=
      { seq := 7#32, op := 0, fmt := 4, count := 1, digest := bytesOf 80 descriptor, bytes := [1#8, 0#8, 0#8, 0#8]
        source := some 1 }
    let grouped := { m with groups := [(5, { Group.empty with contribs := [c] })] }
    let lost := { m with groups := [(5, { Group.empty with lostSeqs := [7#32] })] }
    (∀ k ∈ [(spad, false), (spad, true), (hbm, true), (red, false), (absorb, false), (coll, true)],
      let s := operating k.1 k.2 sealed
      s.findOp 1 = some (opOf k.1 k.2) ∧ s.opPaused 1 (opOf k.1 k.2) = false ∧ s.opInChain 1 = false ∧
        s.boardHeldFor 0 (opOf k.1 k.2).sbOp false = false ∧ s.boardHeldFor 0 (opOf k.1 k.2).sbOp true = false ∧
        (s.strand 0).ended = false ∧ (opOf k.1 k.2).ended = 0#8 ∧
        hasKey s.strands (opOf k.1 k.2).strand = true ∧
        (opOf k.1 k.2).denied = [] ∧ (opOf k.1 k.2).status = 0#8 ∧ (opOf k.1 k.2).written = false) ∧
    (a 1#2 128#64).pairs = [(128#64, 64#64)] ∧ (a 0#2 0x6000000#64).pairs = [(0x6000000#64, 64#64)] ∧
    absorb.args.pairs = [(0#64, 0x6000000#64)] ∧
    (let s := operating spad false m
     s.quiet (.spad 0 false 64) ∧ s.poisonedAt (some (dieOfCore 0)) (.spad 0 false 64) 1 = false ∧
     s.endFate (opOf spad false) 1#2 (engineAccess true false 1) 64#64 = .go (.spad 0 false 64) ∧
     s.endFate (opOf spad false) 1#2 (engineAccess false true 1) 128#64 = .go (.spad 0 false 128)) ∧
    (∀ done ∈ [true, false], (operating hbm done m).endFate (opOf hbm done) 0#2 (engineAccess false true 1)
      0x6000000#64 = .go (.hbm placeCode 0 false)) ∧
    (∀ e ∈ [(0, 5#32), (1, 6#32)],
      (operating two false m).meetsControl 1 (0x6000000#64 + BitVec.ofNat 64 (e.1 * 4)) = false) ∧
    removeAt [(0, 5#32)] 0 = [] ∧ hasKey [(0, 5#32), (1, 6#32)] 0 = true ∧ removeAt [(0, 5#32), (1, 6#32)] 0 ≠ [] ∧
    (operating two false m).endFate (opOf two false) 0#2 (engineAccess true true 4)
      (0x6000000#64 + BitVec.ofNat 64 (0 * 4)) = .go (.hbm placeCode 0 false) ∧
    (let s := operating red false m
     s.endFate (opOf red false) 0#2 (engineAccess true true 4) (0x6000000#64 + BitVec.ofNat 64 (0 * 4)) =
       .go (.hbm placeCode 0 false) ∧ s.poisonedAt (some (dieOfCore 0)) (.hbm placeCode 0 false) 4 = false) ∧
    (let s := operating absorb false sealed
     (s.seal 2).state = 1#3 ∧ s.poisonedAt (some (dieOfCore 0)) (.hbm placeCode 0 false) 1 = false ∧
     s.endFate (opOf absorb false) 0#2 (engineAccess true false 1) 0x6000000#64 = .go (.hbm placeCode 0 false)) ∧
    (let s := operating coll true grouped
     (s.group 5).contribs.filter (fun x => x.seq == 7#32) = [c] ∧ 7#32 ∉ (s.group 5).lostSeqs ∧
     (∀ x ∈ (s.group 5).results, x.1 ≠ 7#32) ∧ participantsOf c.digest ≤ 1) ∧
    (let s := operating coll true lost
     (s.group 5).lostSeqs = [7#32] ∧ s.collOps 5#64 7#32 = [(1, opOf coll true)]) := by
  unfold State.quiet; decide +kernel
/-- The port up and the package booted; strands by number, the others empty. -/
def hosted (s : State) : State := { s with linkUp := true, bootPhase := 6#4 }
def strandsOf (l : List (Nat × Strand)) : State := hosted { State.reset with strands := l }

/-- The host's store of a word is carried and its page is free. -/
def hostMay (s : State) (pa v : Nat) : Bool :=
  s.pageHeld (agentOf .host) pa (BitVec.ofNat 64 v) == false && s.linkUp && s.booted && decide (s.hostQueue = [])

/-- Strand 65,535 in each state, to the host and to strand 0, which maps its page. -/
theorem witness_StrandControlActions :
    let x (st : BitVec 4) : Strand := { anyone with state := st, place := none, launch := 0x00000400#32 }
    let s (st : BitVec 4) : State := recorded 0x00000400#32 { Record.empty with state := 1#3, target := 3#32, failed := 1#32 }
      (strandsOf [(0, anyone), (65535, x st)])
    let open' (t : State) : State := { t with chains := [(3, { Chain.empty with
      inflight := [{ strand := some 65535, va := 0#64, offset := 0, bytes := [7#8], tag := none, op := none }] })] }
    65535 < 65536 ∧ (∀ who ∈ [Agent.host, .strand 0], agentOf who ≠ some 65535) ∧
    (∀ t ∈ [s 1#4, s 8#4, s 3#4, s 4#4], ∀ v ∈ [1, 2, 3, 4], hostMay t (strandPage 65535) v = true) ∧
    (let t := leafed anyone (strandPage 65535 + 0x117) 0
     let t : State := { t with strands := [(0, anyone), (65535, x 1#4)] }
     t.pageHeld (some 0) (strandPage 65535) 1#64 = false ∧ t.strandStores 0 (strandPage 65535) = true) ∧
    (∀ t ∈ [s 3#4, s 4#4], t.resumable 65535 = true ∧ (t.strand 65535).owed = false ∧
      (t.strand 65535).stepping = false ∧ (t.strand 65535).ended = false) ∧
    (∀ st ∈ [3#4, 4#4, 5#4, 6#4, 7#4], ((x st).state = 3#4 ∨ (x st).state = 4#4 ∨ (x st).ended = true) ∧
      (x st).wait = .none ∧ (open' (s st)).vineOpen 65535 = true ∧ (s st).vineOpen 65535 = false) ∧
    (s 2#4).strand 65535 = x 2#4 ∧ (x 2#4).wait.holdsStop = false ∧ (s 2#4).vineOpen 65535 = false ∧
    (open' (s 2#4)).vineOpen 65535 = true ∧
    (s 1#4).findRecord 1 0x00000400#32 =
      some { Record.empty with ident := 0x00000400#32, state := 1#3, target := 3#32, failed := 1#32 } ∧
    0 + 1 + 1 < 3 ∧
    (let w := { x 8#4 with state := 3#4, owed := true, wait := .stopping }
     let t := strandsOf [(0, anyone), (65535, w)]
     (x 2#4).wait = .none ∧ w.state ≠ 2#4 ∧ w.wait = .stopping ∧ t.vineOpen 65535 = false ∧
     { w with state := 2#4 }.wait.holdsStop = false) := by
  decide +kernel

/-- A killed strand: with an operation in flight and without, of a launch of three and of none; a strand that
stores to a page whose action is over, and to one whose action is not. -/
theorem witness_StrandControlActions_killed :
    let id := 0x00000400#32
    let x := { anyone with state := 7#4, place := none, launch := id, killing := true, counted := 0x18#8 }
    let r := { Record.empty with state := 1#3, target := 3#32, failed := 1#32 }
    let t := strandsOf [(65535, x)]
    let u := recorded id r t
    let busy : State := { t with ops := [(1, {
      kind := .absorb 2 0x6000000#64 1, strand := 65535, tenant := 1, core := 0, scope := 1#3, rtag := 62#6
      atag := 62#6, released := false, buffer := [], btags := [], written := false, status := 0#8, failAt := 0
      awaiting := [], answered := [], denied := [], region := 0, sbOp := 0, ended := 0#8 })] }
    (∀ s ∈ [t, u, busy], (s.strand 65535).killing = true ∧ s.vineOpen 65535 = false) ∧
    (let after := [(65535, { x with killing := false, counted := 0#8 })]
     (∀ s ∈ [{ busy with strands := after }, { t with strands := after }],
       hostMay s (strandPage 65535) 4 = true ∧ (s.strand 65535).ended = true)) ∧
    (∃ e ∈ busy.ops, e.2.strand = 65535) ∧ (∀ s ∈ [t, u], ∀ e ∈ s.ops, e.2.strand ≠ 65535) ∧
    t.findRecord 1 id = none ∧ u.findRecord 1 id = some { r with ident := id } ∧ (u.strand 65535).state = 7#4 ∧
    r.state = 1#3 ∧ r.parent = none ∧ 0 + 1 + 1 < 3 ∧
    (let a : State := strandsOf [(0, anyone), (7, { anyone with state := 2#4 })]
     (a.strand 0).ended = false ∧ (a.strand 0).state ≠ 0#4 ∧ a.actPending (strandPage 7) = true ∧
     onOwnPage 0 (strandPage 7) = false ∧ a.actPending (strandPage 8) = false) := by decide +kernel

/-- The host's stores, at the ends of each range; a strand's, to a page it maps. -/
theorem witness_ControlStores :
    let s := strandsOf [(65535, { anyone with state := 3#4, place := none })]
    let free := hostMay s
    let isle (st : BitVec 2) (temp mode : BitVec 8) : State := { s with
      modes := s.modes.setIfInBounds 6 mode
      dies := Vector.replicate 4 { Die.reset with
        temp := temp, islands := Vector.replicate 12 { state := st, current := 250#12, ceiling := 1000#12 } } }
    (let t := leafed anyone (hubPage + 0x117) 0
     t.pageHeld (some 0) (hubPage + 0x4008) 600#64 = false ∧ t.strandStores 0 (hubPage + 0x4008) = true) ∧
    agentOf .host ≠ some 65535 ∧ (s.strand 65535).state = 3#4 ∧
    free (strandPage 65535 + 0x100 + 8 * 31) 7 ∧ free (strandPage 65535 + 0x100) 7 ∧
    (∀ v ∈ [600, 2200], free (hubPage + 0x4008) v) ∧ (∀ k ∈ [0, 255], free (tenantPage k + 8) 1) ∧
    free (hubPage + 1) 1 ∧ (hubPage + 1) % 8 ≠ 0 ∧
    (∀ pa ∈ [controlBase, kindTableEnd - 8], free pa 0x321 ∧ controlBase ≤ pa ∧ pa < kindTableEnd ∧ pa % 8 = 0 ∧
      s.replicaFrame (2 * (pa - controlBase) * 65536) = false ∧ free pa 0xC ∧ (0xC#64).extractLsb' 0 4 = 12#4 ∧
      lookupD s.frames (2 * (pa - controlBase)) 0#4 = 0#4) ∧
    (∀ v ∈ [0x0101010101010100, 0x0100010101010100, 1, 0x0200], free (hubPage + 0x2000) v) ∧
    (0x0100010101010100#64).extractLsb' 48 8 = 0#8 ∧
    (∀ f, f < 8 → ((0x0101010101010100#64).extractLsb' (8 * f) 8).toNat ≤ 1) ∧
    (0x0101010101010100#64).extractLsb' 0 8 = 0#8 ∧ (1#64).extractLsb' 0 8 ≠ 0#8 ∧
    1 < ((0x0200#64).extractLsb' 8 8).toNat ∧
    (∀ w ∈ [0, 15], free (hubPage + 0x800 + 8 * w) 0xFFFFFFC000000001) ∧
    (0xFFFFFFC000000001#64).extractLsb' 1 37 = 0#37 ∧
    (∀ d ∈ [0, 3], ∀ i ∈ [0, 11], ∀ v ∈ [250, 1000], ∀ t ∈ [isle 0#2 0#8 1#8, isle 1#2 0#8 0#8, isle 2#2 105#8 0#8,
        isle 2#2 106#8 0#8, isle 3#2 0#8 0#8, isle 2#2 95#8 0#8, isle 0#2 96#8 0#8], hostMay t (diePage d + 0x400 + 8 * i) v) ∧
    ((isle 0#2 0#8 1#8).island 3 11).state = 0#2 ∧ (isle 0#2 0#8 1#8).modes.toList.getD 6 0#8 = 1#8 ∧
    ((isle 1#2 0#8 0#8).island 3 11).state = 1#2 ∧ ((isle 2#2 105#8 0#8).island 3 11).state = 2#2 ∧
    ¬ 105 < ((isle 2#2 105#8 0#8).die 3).temp.toNat ∧ 105 < ((isle 2#2 106#8 0#8).die 3).temp.toNat ∧
    ((isle 3#2 0#8 0#8).island 3 11).state = 3#2 ∧
    95 < ((isle 2#2 105#8 0#8).die 3).temp.toNat ∧ ¬ 95 < ((isle 2#2 95#8 0#8).die 3).temp.toNat ∧
    (isle 2#2 95#8 0#8).power.toNat ≤ (isle 2#2 95#8 0#8).pwrlim.toNat ∧
    95 < ((isle 0#2 96#8 0#8).die 3).temp.toNat ∧ 1 ≤ ((isle 0#2 96#8 0#8).island 3 11).current.toNat ∧
    (isle 0#2 96#8 0#8).modes.toList.getD 6 0#8 ≠ 1#8 := by decide +kernel

/-- A frame list of one frame, 0x35, which a scrub has still to write or has written; a code list of one page;
a work identifier of level 0, generation 1 and its record. -/
theorem witness_TenantAndCounterActions :
    let s := hosted (tenanted (fun y => { y with
      framelist := BitVec.ofNat 53 (placeCode / 8), framecount := 1#24 }) (mapped anyone 0x350000))
    let out := { s with strands := [] }
    let but (f : Tenant → Tenant) : State := tenanted f out
    let off := but fun y => { y with state := 0#3 }
    let world := but fun y => { y with state := 0#3, world := 5#6, cores := y.cores.setIfInBounds 3 1#40 }
    let full := { world with keys := (List.range 64).map fun k => (k, KeySlot.opened k) }
    let down (l : List ScrubUnit) : State :=
      let t := but fun y => { y with
        state := 2#3, world := 5#6, scrubAll := [.frame 0x35, .spad 0 0], scrubLeft := l
        cores := y.cores.setIfInBounds 0 1#40 }
      { t with dies := t.dies.setIfInBounds 0 { t.die 0 with latch := 2#2, world := 5#6 } }
    let strange := { world with strands := [(7, { anyone with owner := 2#8, place := some { core := 196, slot := 0 } })] }
    let code := hosted (tenanted (fun y => { y with
      codelist := BitVec.ofNat 54 (0x6000000 / 8), codecount := 1#7 }) (leafed anyone (placeCode + 0xB) 0x6000000))
    let count (r : Record) : State := recorded 0x00000400#32 r out
    (∀ t ∈ [out, off, world, full, code], hostMay t (tenantPage 1) 1 ∧ hostMay t (tenantPage 1 + 0x60) 1 ∧
      hostMay t (tenantPage 1 + 0x78) 1 ∧ t.agentTenant (agentOf .host) ≠ some 1) ∧
    (∀ t ∈ [out, off, world, full], (t.tenant 1).framecount = 1#24 ∧ (t.tenant 1).framelist.toNat * 8 = placeCode ∧
      placeCode < hbmEnd ∧ t.frameKind placeCode ≠ 3 ∧ t.frameKind placeCode ≠ 4 ∧
      (t.die (homeDie placeCode)).fence ≠ 2#2) ∧
    (∀ v ∈ [0#3, 1#3],
      let t := but fun y => { y with state := v, framelist := BitVec.ofNat 53 (hbmEnd / 8) }
      hostMay t (tenantPage 1) 1 ∧ hostMay t (tenantPage 1 + 0x60) 1 ∧ (t.tenant 1).state = v ∧
      t.frameKind (frameAddr (t.tenant 1).root) = 1 ∧ (t.tenant 1).framelist.toNat * 8 % 2 ^ 44 = hbmEnd ∧
      ((t.tenant 1).spad.toList.all fun e => (t.tenant 1).spadOk e) = true) ∧
    (∀ t ∈ [off, world, full], (t.tenant 1).state = 0#3 ∧ t.frameKind (frameAddr (t.tenant 1).root) = 1 ∧
      ((t.tenant 1).spad.toList.all fun e => (t.tenant 1).spadOk e) = true ∧ ((t.frameList 1).all t.frameOk) = true ∧
      (∀ d ∈ (t.tenant 1).diesNamed, (t.die d).latch = 0#2)) ∧
    (strange.tenant 1).diesNamed = [3] ∧ dieOfCore 196 = 3 ∧ (strange.tenant 2).world ≠ 5#6 ∧
    (off.tenant 1).world = 0#6 ∧ (world.tenant 1).world ≠ 0#6 ∧ (world.key 1).state = 0#3 ∧
    (∀ k, k < 64 → (full.key k).state ≠ 0#3) ∧ (out.tenant 1).state = 1#3 ∧ framesOf (out.frameList 1) = [0x35] ∧
    (out.tenant 1).records = [] ∧ (∀ t ∈ [down [.frame 0x35, .spad 0 0], down [.spad 0 0], down []],
      (t.tenant 1).state = 2#3 ∧ ∀ d ∈ (t.tenant 1).scrubDies, (t.die d).fence = 0#2) ∧
    ((down []).tenant 1).scrubLeft = [] ∧ 0 ∈ ((down []).tenant 1).diesNamed ∧ ((down []).die 0).latch = 2#2 ∧
    ((down []).die 0).world = ((down []).tenant 1).world ∧ (down []).scrubbedElsewhere 1 0 = false ∧
    (code.tenant 1).codecount.toNat = 1 ∧ (code.tenant 1).state = 1#3 ∧
    ((List.range (code.tenant 1).codecount.toNat).map fun i =>
      code.tenantLoad 1 (BitVec.ofNat 64 ((code.tenant 1).codelist.toNat * 8 + 8 * i))).mapM codePages =
        some [[0x600]] ∧ (code.codeFrame 1 0x600).isSome = true ∧
    workIndex 0x00000400#32 < levelSize (workLevel 0x00000400#32) ∧
    (∀ r ∈ [{ Record.empty with state := 1#3, target := 2#32 },
        { Record.empty with state := 3#3, target := 2#32, completed := 1#32, failed := 1#32 },
        { Record.empty with state := 2#3, target := 2#32 }],
      let t := count r
      t.findRecord 1 0x00000400#32 = some { r with ident := 0x00000400#32 } ∧
      (r.state ≠ 3#3 → hostMay t (counterPage 1 + recordOffset 0x00000400#32 + 0x30) 1) ∧
      workLevel 0x00000400#32 = 0 ∧ r.parent = none ∧ r.base = 0 ∧ r.count = 0 ∧ (t.tenant 1).records.all (fun e => e.2.parent == none) = true) ∧
    (∀ r m, (count r).contains 1 0x00000400#32 m = false) := by
  repeat' apply And.intro
  all_goals first | decide +kernel | (intro r m; rfl)
/-- A shadow copy of tenant 1: a ring of 16 records at 0x36_0000, with no limit; a record. -/
def shadow : Vector Word 8 :=
  let l : List Word := [1#64, 1#64, 0x360004#64, 0xFFFF30F03#64, 0#64, 0#64, 0#64]
  Vector.ofFn fun i => if i.val = 7 then (crc32c (l.flatMap fun w => bytesOf 8 w.toNat)).setWidth 64
    else l.getD i.val 0#64
def ringWords (l : List Word) : Vector Word 8 := Vector.ofFn fun i => l.getD i.val 0#64

/-- Queue 4,095 in state 2 at its only record, over a page of data that holds a graph of one node. -/
def job : BitVec 32 := 0xC0000400#32
def phase : BitVec 32 := 0x80000400#32
def graphBytes : List Byte :=
  bytesOf 64 1 ++ bytesOf 64 (0x6000000 + 2 ^ 128 * (1 + 2 ^ 24 + 2 ^ 32))
def ringed (r : List Word) (f : Queue → Queue) : State :=
  let s := hosted (tenanted (fun y => { y with cores := y.cores.setIfInBounds 0 0xFFFFFFFFFF#40 }) (mapped anyone 0))
  { s with
    mem := writeBytes (writeBytes s.mem placeCode graphBytes) 0x360040 (bytesOf 8 1 ++ bytesOf 8 64)
    frames := insertAt s.frames 0x36 2#4
    queues := [(4095, f { Queue.empty with
      state := 2#3, a := shadow, copy := some shadow, current := some (ringWords r), producer := 1#32 })] }

theorem witness_QueueEngine :
    let free (s : State) (off v : Nat) : Bool := hostMay s (queuePage 4095 + off) v
    let off := ringed [1#64] fun x => { x with state := 0#3 }
    let on := ringed [1#64] fun x => { x with state := 1#3 }
    let asks := ringed [1#64, 64#64] fun x => { x with state := 4#3 }
    let stuck := ringed [1#64, 64#64] fun x => { x with state := 3#3 }
    let woken := { on with
      queues := [(4095, { on.queue 4095 with woken := true, current := none, producer := 0#32 })]
      mem := writeBytes on.mem 0x360000 (bytesOf 8 1) }
    free off 0 1 ∧ free on 0 0 ∧ free (ringed [1#64] id) 0 0 ∧ free asks 0x18 (2 ^ 63) ∧
    (off.queue 4095).inForce = some shadow ∧ ringSize shadow = 4 ∧ (shadowWord shadow 1).toNat = 1 ∧
    (off.tenant 1).state = 1#3 ∧ off.ringOk shadow = true ∧
    (asks.queue 4095).current = some (ringWords [1#64, 64#64]) ∧ recordOp (ringWords [1#64, 64#64]) = 1 ∧
    (let x := woken.queue 4095
     x.woken = true ∧ x.awaits = false ∧ x.state = 1#3 ∧ x.inForce = some shadow ∧ woken.ringOk shadow = true ∧
     x.disabling = false ∧ woken.ringOpen shadow (ringBase shadow) = true ∧
     woken.ringOpen shadow (ringBase shadow + 8) = true ∧
     woken.ringOpen shadow (ringSlot shadow x.consumed.toNat) = true ∧ (woken.tenant 1).barred = false ∧
     (wordOfBytes (woken.hbmRead (woken.keyName 0) (ringBase shadow) 8)).setWidth 32 = 1#32 ∧
     (1#32 - x.consumed).toNat = 1 ∧ (x.producer - x.consumed).toNat = 0 ∧
     woken.modes.toList.getD 1 0#8 = 0#8 ∧ woken.ringRecord shadow x.consumed.toNat = ringWords [1#64, 64#64]) ∧
    (stuck.queue 4095).state = 3#3 ∧ stuck.queueFree 4095 = true ∧ (∀ e ∈ off.queues, e.2.state ≠ 2#3) := by
  decide +kernel

/-- Verdicts that accept, that refuse with the codes at each end of their ranges, and that are not legal. -/
theorem witness_QueueEngine_verdicts :
    let known (c : Nat) : Bool := decide ((1 ≤ c ∧ c ≤ 0x1B) ∨ (0x40 ≤ c ∧ c ≤ 0x44))
    let word (n : Nat) : Word := BitVec.ofNat 64 n
    let code (n : Nat) : Nat := ((word n).extractLsb' 0 8).toNat
    (∀ n ∈ [0x8000000000000044, 0x8000000000000000], (word n).getLsbD 63 = true ∧
      (word n).extractLsb' 8 55 = 0#55 ∧ (code n = 0 ∨ known (code n) = true)) ∧
    (∀ n ∈ [1, 0x1B, 0x40, 0x44], (word n).getLsbD 63 = false ∧ (word n).extractLsb' 8 55 = 0#55 ∧
      known (code n) = true) ∧
    (∀ n ∈ [0, 0x1C, 0x3F, 0x45, 0xFF], (word n).getLsbD 63 = false ∧ (word n).extractLsb' 8 55 = 0#55 ∧
      known (code n) = false) ∧ (word 0x100).extractLsb' 8 55 ≠ 0#55 := by decide +kernel

/-- A record that awaits a verdict, while its tenant is barred and not. -/
theorem witness_QueueEngine_asks :
    ∀ b ∈ [true, false],
      let s := tenanted (fun y => { y with barred := b }) (ringed [1#64, 64#64] fun x => { x with state := 4#3 })
      let x := s.queue 4095
      hostMay s (queuePage 4095 + 0x18) 1 ∧ x.state = 4#3 ∧ x.awaits = false ∧
      x.current = some (ringWords [1#64, 64#64]) ∧ x.copy = some shadow ∧ x.inForce = some shadow ∧
      x.disabling = false ∧ x.producer = x.consumed + 1#32 ∧ s.ringOk shadow = true ∧
      (s.tenant 1).barred = b ∧ recordOp (ringWords [1#64, 64#64]) = 1 ∧ s.accepting 1 x.phase = none := by
  decide +kernel

theorem witness_QueueCommands :
    let jobs (n : Word) : List Word := [1#64, n, 0#64, 0#64, 0#64, 0#64, 0x6000000#64]
    let j (n : Word) : State := ringed (jobs n) id
    let out := tenanted (fun y => { y with
      records := (List.range 16).map fun k => (3072 + k, { Record.empty with state := 1#3 }) }) (j 64#64)
    let p := recorded job { Record.empty with state := 1#3, target := 1#32 }
      (ringed [2#64, 256#64] fun x => { x with job := some (1, job) })
    let g := recorded phase { Record.empty with state := 1#3, target := 1#32, parent := some job }
      (ringed [3#64, 0x6000000#64] fun x => { x with phase := some (1, phase) })
    let w := recorded job { Record.empty with state := 1#3, target := 1#32 } (ringed [4#64, 0xC0000400#64] id)
    let u := ringed [4#64, 0xC0000800#64] id
    let k := ringed [5#64, 0x6000000#64, 7#64] id
    (∀ x ∈ [(j 64#64, 1, jobs 64#64), (j 65#64, 1, jobs 65#64), (out, 1, jobs 64#64), (p, 2, [2#64, 256#64]),
        (g, 3, [3#64, 0x6000000#64]), (w, 4, [4#64, 0xC0000400#64]), (u, 4, [4#64, 0xC0000800#64]),
        (k, 5, [5#64, 0x6000000#64, 7#64])], x.1.parses 4095 x.2.1 shadow (ringWords x.2.2)) ∧
    wordsUnused (ringWords (jobs 64#64)) [2, 3, 4, 5, 7] ∧ (0x6000000#64).toNat % 8 = 0 ∧
    k.tenantWord 1 0x6000000#64 true = .ok (.hbm placeCode 0 false) ∧
    (j 64#64).accepting 1 none = none ∧ (j 64#64).freeRecord 1 3 = some 3072 ∧ out.freeRecord 1 3 = none ∧
    p.accepting 1 (some (1, job)) = some { Record.empty with ident := job, state := 1#3, target := 1#32 } ∧
    p.phaseOpen 1 job = false ∧ p.accepting 1 none = none ∧ p.freeRecord 1 2 = some 2048 ∧
    g.accepting 1 (some (1, phase)) =
      some { Record.empty with ident := phase, state := 1#3, target := 1#32, parent := some job } ∧
    (match g.graphNodes 1 shadow 0x6000000#64 with
     | .ok l => l == [nodeOf (graphBytes.drop 64)]
     | .error _ => false) = true ∧ g.freeRecord 1 1 = some 1024 ∧
    g.ready = [] ∧ workIdOf 0xC0000400#64 = some job ∧ w.waitOver 1 job = false ∧
    u.waitOver 1 0xC0000800#32 = true ∧ (k.queue 4095).nextSignal = none := by
  unfold State.parses wordsUnused; decide +kernel

theorem witness_QueueStores :
    let c (done : Bool) : Command :=
      { tenant := 1, serial := 0, op := 5, ident := 0#32, cpl := 0x6000008#64, refused := 0#8, done := done
        failed := 0#16, address := 0x6000000#64, value := 7#64 }
    let s (done : Bool) : State := ringed [] fun x => { x with pending := [c done] }
    ((s false).queue 4095).nextSignal = some (c false) ∧
    (s false).tenantWord 1 0x6000000#64 true = .ok (.hbm placeCode 0 false) ∧
    ((s true).queue 4095).pending.find? (fun k => k.serial == 0 && k.done && k.waits == .none) = some (c true) ∧
    (c true).lost = false ∧
    (s true).tenantWord 1 0x6000008#64 true = .ok (.hbm (placeCode + 8) 0 false) := by decide +kernel
/-- A strand that awaits entry 0 of its tenant's fault queue; a held fault of that tenant. -/
theorem witness_FaultQueueActions :
    let e : FqEntry :=
      { page := 0x600#41, engine := false, level := 0#2, mask := 1#3, who := 65535#32, count := 1#16, stale := 0#16
        status := 0#2 }
    let x := { anyone with
      state := 8#4, place := none, awaitSeqs := [0#48], launch := 0x00000400#32, trapvec := 0#57 }
    let s := hosted (recorded 0x00000400#32 { Record.empty with state := 1#3, target := 2#32 }
      (tenanted (fun y => { y with fqTail := 1#32, fqEntries := [(0, e)], faultq := 1#40 })
        { mapped anyone 0 with strands := [(65535, x)] }))
    let held : HeldFault := { entry := e, who := .strand 65535 }
    let h (l : List (Nat × FqEntry)) : State :=
      tenanted (fun y => { y with fqTail := 1023#32, fqHeld := 1#32, fqHolding := [held], fqEntries := l }) s
    (∀ v ∈ [0, 0x4000000000000000], hostMay s (faultPage 1 + 0x10) v) ∧
    (∀ v ∈ [1, 0x6000000], hostMay s (faultPage 1 + 0x18) v) ∧ 0 < (s.tenant 1).fqTail.toNat ∧
    (s.tenant 1).fqEntries.find? (fun p => p.1 == 0) = some (0, e) ∧ e.status = 0#2 ∧
    (s.strand 65535).owner.toNat = 1 ∧ (s.strand 65535).state = 8#4 ∧ (s.strand 65535).awaitSeqs = [0#48] ∧
    (s.strand 65535).awaitGot = 0#16 ∧ (s.strand 65535).awaitDenied = false ∧ s.faultsHeld 65535 = false ∧
    (∀ p ∈ s.strands, p.1 ≠ 65535 → 0#48 ∉ p.2.awaitSeqs) ∧ s.strands.countP (fun p => p.1 == 65535) = 1 ∧
    s.findRecord 1 0x00000400#32 =
      some { Record.empty with ident := 0x00000400#32, state := 1#3, target := 2#32 } ∧ (s.tenant 1).state = 1#3 ∧
    (∀ l ∈ [[], [(1022, e)]], ((h l).tenant 1).fqHolding = [held]) ∧ ((h []).tenant 1).fqFind e.page = none ∧
    ((h []).tenant 1).fqTail.toNat - ((h []).tenant 1).fqHead.toNat < 1024 ∧ ((h []).tenant 1).unanswered < 1024 ∧
    ((h [(1022, e)]).tenant 1).fqFind e.page = some 1022 := by
  decide +kernel

/-- A chain of tenant 1 with replicas of one frame in two stacks. -/
def linked (f : Chain → Chain) : State :=
  { hosted (mapped anyone 0) with
    strands := []
    chains := [(255, f { Chain.empty with
      owner := 1#8, size := 1#19, count := 2#3, links := 0x10#16
      base := (Chain.empty.base.setIfInBounds 0 0x50#40).setIfInBounds 1 0x1F0050#40 })] }

theorem witness_ChainAndDieActions :
    let free (s : State) (off v : Nat) : Bool := hostMay s (chainPage 255 + off) v
    let w : VineWrite := { strand := none, va := 0#64, offset := 65535, bytes := [7#8], tag := none, op := none }
    let off := linked id
    let on := linked fun x => { x with state := 2#3 }
    let one := linked fun x => { x with state := 2#3, count := 1#3, links := 0#16 }
    let joining := linked fun x => { x with state := 2#3, count := 1#3, links := 0#16, append := some (1#3, 0x1F0050#40) }
    let writing := linked fun x => { x with state := 2#3, inflight := [w] }
    let alone' := { hosted State.reset with chains := [] }
    let fenced := { alone' with dies := alone'.dies.setIfInBounds 3 { Die.reset with fence := 2#2 } }
    free off 0 1 ∧ free on 0 2 ∧ free on 0x30 0x4100000000000000 ∧
    free one 0x30 (0x8100000000000000 + 0x1F0050 * 65536) ∧
    (off.chain 255).state = 0#3 ∧ (off.chain 255).linkDies = [0, 1] ∧ (off.die 0).fence = 0#2 ∧
    (off.die 1).fence = 0#2 ∧ (off.tenant 1).state = 1#3 ∧
    (∀ i, i < 2 → off.baseOk (off.chain 255) ((off.chain 255).baseAddr i) ((off.chain 255).linkDies.getD i 0) = true) ∧
    (on.chain 255).state = 2#3 ∧ (on.chain 255).inflight = [] ∧ (one.chain 255).linkDies = [0] ∧
    one.frameHere 0x1F0050#40 = true ∧ one.baseOk (one.chain 255) (frameAddr 0x1F0050#40) 1 = true ∧
    (joining.chain 255).append = some (1#3, 0x1F0050#40) ∧ (joining.chain 255).count.toNat = 1 ∧
    (joining.chain 255).baseAddr 0 + 65536 ≤ frameAddr 0x1F0050#40 ∧
    (writing.chain 255).inflight = [w] ∧
    ((writing.chain 255).replicas w.offset).Pairwise
      (fun p q => p + w.bytes.length ≤ q ∨ q + w.bytes.length ≤ p) ∧
    hostMay alone' (diePage 3 + 0x208) 1 ∧ (alone'.die 3).fence = 0#2 ∧
    (∀ p ∈ alone'.strands, p.2.live = false) ∧ alone'.chains = [] ∧
    hostMay fenced (diePage 3 + 0x208) 2 ∧ (fenced.die 3).fence = 2#2 ∧ w.bytes ≠ [] ∧
    (let run := strandsOf [(9, { anyone with place := some { core := 196, slot := 0 } })]
     hostMay run (diePage 3 + 0x208) 1 ∧ run.strandOn 9 3 = true) ∧
    (let waiting := linked fun x => { x with
      state := 2#3, count := 1#3, links := 0#16, append := some (3#3, 0x1F0050#40) }
     hostMay waiting (diePage 3 + 0x208) 1 ∧ (waiting.die 3).fence = 0#2 ∧ (waiting.chain 255).state ≠ 0#3 ∧
     3 ∉ (waiting.chain 255).linkDies ∧ (waiting.chain 255).append = some (3#3, 0x1F0050#40)) := by decide +kernel

/-- A blob that holds a key of zeros for package 0, sealed for the provisioning key 1 (its shared secret, HKDF and
AES-256-GCM computed outside the model). -/
def keyBlob : BitVec 1664 := BitVec.ofNat 1664 (p384Base.1 + 2 ^ 384 * p384Base.2 +
  2 ^ (8 * 0xA0) * 0xe5775f1b300bc3d5f361c774cd20a690c2a395abe965caf801726d122066a840 +
  2 ^ (8 * 0xC0) * 0x45bb89b1b7185c161cd0cc8395d2260)

/-- FIPS 180-4's example of SHA-384 ("abc"). -/
theorem test_sha384 : natBE (sha384 [0x61#8, 0x62#8, 0x63#8]) =
    0xcb00753f45a35e8bb5a03d699ac65007272c32ab0eded1631a8b605a43ff5bed8086072ba1e7cc2358baeca134c825a7 := by
  decide +kernel

/-- FIPS 197's example of AES-256 (C.3). -/
theorem test_aes256 : aesBlock (aesKeys ((List.range 32).map fun i => BitVec.ofNat 8 i))
    ((List.range 16).map fun i => BitVec.ofNat 8 (17 * i)) =
    bytesBE 16 0x8ea2b7ca516745bfeafc49904b496089 := by decide +kernel

/-- R270: the blob unwraps for its package; one whose point is off the curve does not. -/
theorem witness_KeyAndWindowEvents_wrap :
    unwrapCask State.reset.provkey State.reset.package.toNat (bytesOf 208 keyBlob.toNat) =
      some (List.replicate 32 0#8) ∧
    unwrapCask State.reset.provkey State.reset.package.toNat (bytesOf 208 0) = none ∧
    keyBlob.extractLsb' (8 * 0x9C) 32 = 0#32 := by decide +kernel

/-- Key slots 1 and 63; requests of a load of 8 bytes and of an atomic of 4, by a strand with a handler. -/
theorem witness_KeyAndWindowEvents :
    let key (st : BitVec 3) (k : Nat) : State :=
      { hosted (mapped anyone 0) with keys := [(k, { KeySlot.empty with state := st, bind := 1#8 })] }
    let free (s : State) (k v : Nat) : Bool := hostMay s (keyPage k) v
    let r (op : Option Nat) (w : Nat) : WindowRequest :=
      { strand := 0, tenant := 1, live := true, window := 15, va := 0x6000000#64, host := 64, width := w, op := op, operand := 7#64
        expected := 0#64, rd := 4#5, signed := true, acquire := false, npc := 0x6000002#64 }
    let s (op : Option Nat) (w : Nat) : State :=
      { strandsOf [(0, { anyone with trapvec := 0x9000#57, wait := .window })] with requests := [r op w] }
    (∀ k ∈ [1, 63], free (key 0#3 k) k 1 ∧ free (key 3#3 k) k 2 ∧ ((key 0#3 k).key k).state = 0#3 ∧
      ((key 0#3 k).tenant ((key 0#3 k).key k).bind.toNat).state = 1#3 ∧
      ((key 0#3 k).key k).wrap.extractLsb' (8 * 0x9C) 32 = 0#32 ∧ ((key 3#3 k).key k).state = 3#3 ∧
      ((key 4#3 k).key k).state = 4#3 ∧ (key 4#3 k).keyInUse k = false) ∧
    (s none 8).requests = [r none 8] ∧ (s (some 0) 4).requests = [r (some 0) 4] ∧
    ((s none 8).strand 0).stepping = false ∧ ((s none 8).strand 0).inHandler = false ∧
    ((s none 8).strand 0).trapvec ≠ 0#57 ∧ ((s none 8).strand 0).state ≠ 2#4 ∧
    atomicWrites 0 4 (wordOfBytes (readBytes (s (some 0) 4).hostMem 64 4)) 0#64 = true := by decide +kernel

/-- A booted and an unbooted package with the port up; one with the bus master enabled. -/
theorem witness_HostPortEvents :
    let s := hosted (mapped anyone 0)
    let b := { s with bootPhase := 5#4 }
    let m := { s with busMaster := true, msixPending := [257] }
    let q := { s with hostQueue := [.control 0 8 none], busMaster := false }
    let x := { s with queues := [(7, { Queue.empty with disabling := true })] }
    s.linkUp = true ∧ s.booted = true ∧ b.booted = false ∧ m.busMaster = true ∧ s.requests = [] ∧
    s.hostQueue = [] ∧ q.hostQueue ≠ [] ∧ q.linkUp = true ∧ q.busMaster = false ∧ State.reset.linkUp = false ∧
    (∀ e ∈ m.msixPending, (lookupD { m with msixTable := [(2 * e + 1, 0#64)] }.msixTable (2 * e + 1)
      (msixReset (2 * e + 1))).getLsbD 32 = false) ∧
    x.pageHeld none (queuePage 7) 1#64 = true ∧ (queuePage 7 - controlBase) % 8 = 0 ∧
    queuePage 7 - controlBase < 2 ^ 34 ∧ s.areaHeld (hubPage + 0x4008) = false ∧
    s.controlLoad (hubPage + 0x4008) = .ok (2200#64, s) ∧
    (let r := strandsOf [(65535, anyone)]
     r.areaHeld (strandPage 65535 + 0x10) = false ∧
     (match r.controlLoad (strandPage 65535 + 0x10) with | .error _ => true | .ok _ => false) = true) ∧
    (match s.controlStore none (hubPage + 0x4008) 599#64 with | .error _ => true | .ok _ => false) = true ∧
    (hubPage + 0x4008 - controlBase) % 8 = 0 ∧ hubPage + 0x4008 - controlBase < 2 ^ 34 ∧
    s.controlStore none (hubPage + 0x4008) 600#64 = .ok { s with pwrlim := 600#12 } ∧
    s.pageHeld none (hubPage + 0x4008) 600#64 = false ∧
    0x100000000 + 65535 * 131072 < 2 ^ 34 ∧ (0x100000000 + 65535 * 131072) % 8 = 0 ∧
    (∀ w ∈ [true, false], s.spanCause (placeCode + 65535) 1 w false = none ∧
      (s.spanCause hbmEnd 1 w false).isSome = true) ∧ (0#8 :: []).length = 1 := by
  decide +kernel

/-- Boot at each end, and after a failure; a set of images that is taken, and one that fails each check. -/
theorem witness_ResetBootAndFirmware :
    let i (n : Nat) (ok : Bool) (needs : BitVec 32) : FirmwareImage :=
      { index := n, version := 2#32, verified := ok, requires := [((n + 1) % 13, needs)] }
    let set (ok : Bool) (needs : BitVec 32) : List FirmwareImage :=
      (List.range 12).map (fun n => i n true 2#32) ++ [i 12 ok needs]
    let s := hosted State.reset
    let old := { s with fuses := s.fuses.setIfInBounds 12 3#32 }
    let sound (s : State) (l : List FirmwareImage) (j : FirmwareImage) : Bool := j.verified &&
      decide ((s.fuses.toList.getD j.index 0#32).toNat ≤ j.version.toNat) &&
      j.requires.all fun r => l.any fun k => k.index == r.1 && decide (r.2.toNat ≤ k.version.toNat)
    s.staged = [] ∧ (let t : State := { s with staged := set true 2#32 }
      t.staged ≠ [] ∧ (t.staged.map (·.index)).Nodup ∧ ∃ j ∈ t.staged, j.index = 12) ∧
    State.reset.halted = false ∧ State.reset.identity = false ∧ State.reset.bootPhase.toNat < 6 ∧
    State.reset.bootResult = 0#8 ∧ s.bootPhase = 6#4 ∧ { s with identity := true }.identity = true ∧
    { State.reset with bootResult := 1#8 }.bootResult ≠ 0#8 ∧ 1#8 ≠ 0#8 ∧ s.linkUp = true ∧ s.bootResult = 0#8 ∧
    ((set true 2#32).map fun j => j.index).Perm (List.range 13) ∧ (∀ j ∈ set true 2#32, sound s (set true 2#32) j) ∧
    (∃ j ∈ set false 2#32, sound s (set false 2#32) j = false) ∧
    (∃ j ∈ set true 3#32, sound s (set true 3#32) j = false) ∧
    (∃ j ∈ set true 2#32, sound old (set true 2#32) j = false) ∧
    (∀ c ∈ [95#8, 96#8, 105#8, 106#8],
      let b : State := { State.reset with bootPhase := 5#4, dies := Vector.replicate 4 { Die.reset with temp := c } }
      b.halted = false ∧ b.identity = false ∧ b.bootResult = 0#8 ∧ b.bootPhase = 5#4 ∧
      b.power.toNat ≤ b.pwrlim.toNat ∧ (95 < (b.die 3).temp.toNat ↔ c ≠ 95#8) ∧
      (105 < (b.die 3).temp.toNat ↔ c = 106#8)) ∧
    ¬ (([i 0 true 2#32]).map fun j => j.index).Perm (List.range 13) ∧ State.reset.linkUp = false := by decide +kernel

/-- A store in flight to package 1 under two generations; a request of another package. -/
theorem witness_FabricEvents :
    let r (gen : BitVec 32) : RemoteStore :=
      { strand := 0, va := 0x6000000#64, pa := 2 ^ 44 + 0x300000, bytes := [7#8], tag := none, gen := gen }
    let s (gen : BitVec 32) : State := { peered (hosted (mapped anyone 0)) with remote := [(1, r gen)] }
    (∀ e ∈ (s 5#32).remote, pkgOf e.2.pa = 1 ∧ e.2.gen = 5#32) ∧ (s 4#32).remote = [(1, r 4#32)] ∧
    (r 4#32).bytes ≠ [] ∧ pkgOf (r 4#32).pa = 1 ∧ (r 4#32).gen ≠ 5#32 ∧ 5#32 ≠ (s 4#32).gen ∧
    0#32 = (s 4#32).gen ∧ 5 ≤ (s 4#32).bootPhase.toNat ∧ (s 4#32).bootResult = 0#8 ∧ placeCode % 4 = 0 ∧
    (placeCode + 1) % 4 ≠ 0 ∧ (∀ w ∈ [true, false], (s 4#32).spanCause placeCode 4 w false = none ∧
      ((s 4#32).spanCause hbmEnd 4 w false).isSome = true) ∧ (s 4#32).spanCause placeCode 4 false true = none ∧
    (s 4#32).pageHeld none (hubPage + 0x4008) 600#64 = false ∧
    (match (s 4#32).controlStore none (hubPage + 0x4008) 600#64 with | .ok _ => true | .error _ => false) = true ∧
    (match (s 4#32).controlStore none (hubPage + 0x4008) 599#64 with | .error _ => true | .ok _ => false) = true ∧
    atomicWrites 0 4 (wordOfBytes ((s 4#32).hbmRead ((s 4#32).keyName 0) placeCode 4)) 0#64 = true ∧
    ((s 5#32).peer 1).gen = 5#32 ∧ ((s 5#32).peer 1).gen ≠ 6#32 ∧ (∀ e ∈ (s 4#32).strands, e.2.wait = .none) ∧
    (let t : State := { s 4#32 with strands := [(7, anyone)] }
     t.pageHeld none (strandPage 7) 1#64 = false ∧
     (match t.controlStore none (strandPage 7) 1#64 with
      | .ok u => u.actPending (strandPage 7)
      | .error _ => false) = true ∧
     (match t.controlStore none (hubPage + 0x4008) 600#64 with
      | .ok u => !u.actPending (hubPage + 0x4008)
      | .error _ => false) = true) := by
  decide +kernel

/-- A strand that waits for the action of a control store at package 1, and one for a seal record there. -/
theorem witness_FabricEvents_waiting :
    let pa := 2 ^ 44 + strandPage 7
    ∀ w ∈ [Wait.peerAct pa 0x6000000#64, .peerSeal (2 ^ 44 + 0xF0304000100) 0x6000000#64 4#5 0x6000002#64],
      let s : State := { peered (hosted (mapped { anyone with wait := w } 0)) with
        strands := [(0, { anyone with wait := w }), (1, anyone)] }
      s.strands.countP (fun e => e.1 == 0) = 1 ∧ (s.strand 0).wait = w ∧ s.remote = [] ∧
      (∀ e ∈ s.strands, e.1 ≠ 0 → e.2.wait = .none) ∧ pkgOf pa = 1 ∧ pkgOf (2 ^ 44 + 0xF0304000100) = 1 := by
  decide +kernel

/-- Power and heat on either side of each limit. -/
theorem witness_PowerAndHeatEvents :
    let die (c : BitVec 8) (st : BitVec 2) : Die := { Die.reset with
      temp := c, islands := Vector.replicate 12 { state := st, current := 1000#12, ceiling := 1000#12 } }
    let s (w : BitVec 12) (c : BitVec 8) (st : BitVec 2) : State :=
      { State.reset with power := w, dies := Vector.replicate 4 (die c st) }
    (s 2201#12 95#8 0#2).pwrlim.toNat < (s 2201#12 95#8 0#2).power.toNat ∧
    (∀ e, e < 4 → ∀ j, j < 9 → ((s 2201#12 95#8 0#2).island e j).current.toNat ≤
      ((s 2201#12 95#8 0#2).island 3 8).current.toNat) ∧
    (let y (st : BitVec 2) (f : BitVec 12) : Island := { state := st, current := f, ceiling := 1000#12 }
     let clamped : Die := { Die.reset with islands := Vector.replicate 12 (y 3#2 250#12) }
     let slow : Die := { Die.reset with islands := Vector.replicate 12 (y 1#2 200#12) }
     let t : State := { s 2201#12 95#8 0#2 with dies := (Vector.replicate 4 clamped).set 3 slow }
     (t.island 3 8).state = 1#2 ∧ ∀ e, e < 4 → ∀ j, j < 9 → (t.island e j).state ≠ 2#2 →
       (t.island e j).state ≠ 3#2 → (t.island e j).current.toNat ≤ (t.island 3 8).current.toNat) ∧
    (s 2200#12 95#8 0#2).power.toNat ≤ (s 2200#12 95#8 0#2).pwrlim.toNat ∧
    95 < ((s 0#12 96#8 0#2).die 3).temp.toNat ∧ ((s 0#12 95#8 0#2).die 3).temp.toNat ≤ 95 ∧
    105 < ((s 0#12 106#8 0#2).die 0).temp.toNat ∧ ((s 0#12 105#8 0#2).die 0).temp.toNat ≤ 105 ∧
    115 < ((s 0#12 116#8 0#2).die 0).temp.toNat ∧ (s 0#12 116#8 0#2).requests = [] ∧
    ((s 0#12 105#8 3#2).island 0 11).state = 3#2 ∧ ((s 2200#12 95#8 1#2).island 0 0).state = 1#2 ∧
    1 ≤ ((s 2200#12 95#8 1#2).island 0 0).ceiling.toNat ∧
    ((s 2201#12 95#8 0#2).island 3 8).state ≠ 2#2 ∧ ((s 2201#12 95#8 0#2).island 3 8).state ≠ 3#2 ∧
    999 < ((s 2201#12 95#8 0#2).island 3 8).current.toNat ∧
    ¬ 1000 < ((s 2201#12 95#8 0#2).island 3 8).current.toNat ∧
    (∀ j, j < 12 → ((s 0#12 106#8 2#2).island 3 j).state = 2#2) ∧
    (∀ j, j < 12 → ((s 0#12 106#8 3#2).island 3 j).state = 3#2 ∧ ((s 0#12 106#8 1#2).island 3 j).state ≠ 2#2 ∧
      ((s 0#12 96#8 1#2).island 3 j).state ≠ 3#2 ∧ 999 < ((s 0#12 96#8 1#2).island 3 j).current.toNat) ∧
    115 < ({ s 0#12 95#8 0#2 with hubTemp := 116#8 }.junction 4).toNat ∧
    (∀ k, k < 13 → ((s 0#12 115#8 0#2).junction k).toNat ≤ 115) := by decide +kernel

/-- The end of a limit: a clamp that ends cool, and one that ends where F6 would slow the island; throttled islands on
either side of their limits; a clamp that lasts. -/
theorem witness_PowerAndHeatEvents_over :
    let s (w : BitVec 12) (c : BitVec 8) (st : BitVec 2) : State :=
      { State.reset with power := w, dies := Vector.replicate 4 { Die.reset with
        temp := c, islands := Vector.replicate 12 { state := st, current := 250#12, ceiling := 1000#12 } } }
    ((s 2201#12 95#8 3#2).island 0 11).state = 3#2 ∧ ((s 2200#12 95#8 1#2).island 0 8).state = 1#2 ∧
    ((s 0#12 95#8 3#2).die 0).temp.toNat ≤ 95 ∧ (s 2200#12 95#8 1#2).power.toNat ≤ (s 2200#12 95#8 1#2).pwrlim.toNat ∧
    ((s 2201#12 95#8 3#2).island 0 8).state = 3#2 ∧
    (s 2201#12 95#8 3#2).pwrlim.toNat < (s 2201#12 95#8 3#2).power.toNat ∧
    ((s 0#12 105#8 3#2).island 0 11).state = 3#2 ∧ 95 < ((s 0#12 105#8 3#2).die 0).temp.toNat ∧
    ((s 0#12 105#8 3#2).die 0).temp.toNat ≤ 105 ∧
    ((s 0#12 96#8 1#2).island 0 0).state = 1#2 ∧ 95 < ((s 0#12 96#8 1#2).die 0).temp.toNat ∧
    ((s 0#12 106#8 3#2).island 0 0).state = 3#2 ∧ 105 < ((s 0#12 106#8 3#2).die 0).temp.toNat := by decide +kernel

/-- A launch of every strand number of a fresh package; a strand that waits for slot 0
of steward core 0 of die 0, and one that gives it up for it. -/
theorem witness_DispatchAndResidency :
    let nd : Node := { nodeOf [] with count := 65536, mvl := 6, dies := 1#4, prio := 3#2 }
    let e : ReadyEntry := {
      id := 7, tenant := 1, node := nd, graph := 0#32, index := none, launch := some 0x400#32, cls := 3#2
      blocking := false }
    let l := tenanted (fun y => { y with cores := y.cores.setIfInBounds 0 1#40 }) (strandsOf [])
    let s : State := { l with
      ready := [e]
      dies := l.dies.map (fun d => { d with islands := d.islands.map (fun i => { i with state := 0#2 }) }) }
    let w : Strand := { anyone with place := none, vres := false, seated := false, dealt := 36, pool := [36] }
    let r := strandsOf [(65535, w)]
    let v : Strand := { anyone with place := some { core := 36, slot := 0 } }
    let p := strandsOf [(3, v), (5, w)]
    s.ready = [e] ∧ e.node.flow = none ∧ e.waits = .none ∧ e.launch.isSome = true ∧
    (s.readyOrder.filter fun e => !s.blockedEntry e).head? = some e ∧ (s.freeRecord 1 0).isSome = true ∧
    s.takePool e.tenant e.node = .cores [0] ∧
    s.freeRun e.node.count = some 0 ∧
    (r.strand 65535).unseated = true ∧ r.seatCore 65535 = some 36 ∧
    (∀ e ∈ r.strands, e.1 < 65535 → e.2.unseated = false) ∧ (r.strand 65535).vres = false ∧
    r.freeSlot 36 = some 0 ∧ r.clusterFor 36 65535 = some 0 ∧
    (let t := strandsOf [(65535, { w with seated := true })]
     (t.strand 65535).unseated = true ∧ (t.strand 65535).seated = true ∧ t.seatCore 65535 = some 36 ∧
     t.freeSlot 36 = some 0) ∧
    3 ∈ [3, 5] ∧ ((p.strand 5).place.map fun q => q.core) ≠ some 36 ∧
    3 ≠ 5 ∧ (∀ e ∈ p.strands, e.2.waitsOn 36 = true → e.1 = 5) ∧
    (∃ e ∈ p.strands, e.2.waitsOn 36 = true) ∧ (p.strand 3).wait.atBoundary = true ∧
    ((p.strand 3).place.map fun q => q.core) = some 36 ∧ (p.strand 3).state = 1#4 ∧
    ((p.setStrand 3 { p.strand 3 with
      place := none, cls := (p.strand 3).prio, left := p.time }).seat 5 36).isSome = true := by decide +kernel

/-- The strand that `withFetchWord` places fetches; an event of the schedule. -/
theorem witness_StepRunsDecoded :
    let s := State.reset.withFetchWord 16 0x0600
    let u : State := { s with agenda := [], cur := 0 }
    let b := { State.reset with agenda := [.event (.readyEntryAge 7)] }
    s.agenda = [.issue 0] ∧ s.canIssue 0 = true ∧ (s.strand 0).wait = .none ∧
    u.resolve u.me.owner.toNat u.me.core u.me.pc fetchAccess false = .ok (.hbm placeCode 0 false) ∧
    s.frameKind placeCode ≠ 3 ∧ s.poisoned (.hbm placeCode 0 false) 2 = false ∧ (u.core u.me.core).icache = [] ∧
    (u.core u.me.core).reserved = [] ∧ usesVectorUnit .exit = false ∧ u.me.vres = true ∧
    (let e := (s.updStrand 0 fun x => { x with pc := 0x6000040#64, inSequence := true })
     let e : State := { e with agenda := [], cur := 0 }
     (match e.fetchLine with
      | .ok (l, t) => l == 0#512 && t.me.inSequence
      | .error _ => false) = true ∧ slotAt 0#512 0 = .endMarker true ∧
     (match fetchFrom 0#512 0x6000040#64 0 with | .notHead => true | _ => false) = true ∧
     (match fetchFrom 0#512 0x6000042#64 2 with | .notHead => true | _ => false) = true ∧
     (match fetchFrom 0x10000#512 0x6000040#64 0 with | .illegal => true | _ => false) = true ∧
     slotAt 0x10000#512 0 = .endMarker false ∧ u.me.inSequence = false) ∧
    (let x : State := { u with strands := [(0, { u.me with vres := false, mvl := 16384#16 }),
       (1, { u.me with place := some { core := 0, slot := 1 } })] }
     x.withRoom (.vid 1#5 0#5 0#4 0#2) = none) ∧
    (let x : State := { holding (fun e => { e with queue := [matOp (.mst 0#3)] }) anyone with agenda := [] }
     x.awaitsK15 (.kpopc 5#5 15#5) = true ∧ x.awaitsK15 (.kpopc 5#5 14#5) = false ∧ u.awaitsK15 .exit = false) ∧
    fetchFrom (lineBits (s.hbmRead 0 (placeCode - u.me.pc.toNat % 64) 64)) (u.me.pc &&& ~~~63#64) (u.me.pc.toNat % 64) =
      .instr .exit 0x6000040#64 ∧
    isEvent (.readyEntryAge 7) = true ∧ (Instr.readyEntryAge 7).wf = true ∧ b.halted = false := by decide +kernel

/-- A well-formed instruction with every operand at its highest value. -/
theorem witness_DecodeReadsWhatEncodeWrites :
    let i : Instr := .cpyd 3#2 7#3 4#3 2#2 2#2 30#5 31#5 31#5 62#6 63#6
    i.wf = true ∧ isEvent i = false ∧ i ≠ .illegalEncoding := by decide +kernel

/-- The state after reset, placed to run `exit`. -/
theorem witness_StepKeepsMemoryCanonical :
    (State.reset.withFetchWord 16 0x0600).memoryWf ∧
    (match step (State.reset.withFetchWord 16 0x0600) with
     | .next t => (t.strand 0).state == 5#4
     | _ => false) = true := by unfold State.memoryWf; decide +kernel

end Sys2Proof.Tests
end

section
/-! The special registers (O9) and `setvl` (O10), above what every instruction that raises a cause or retires shares. -/

namespace Sys2Proof.Machine

/-! Retirement: what it leaves of the strand. -/

theorem Strand.retire_vl (x : Strand) (p : Word) : (x.retire p).vl = x.vl := by
  unfold Strand.retire Strand.endStep
  split <;> rfl

theorem Strand.retire_sew (x : Strand) (p : Word) : (x.retire p).sew = x.sew := by
  unfold Strand.retire Strand.endStep
  split <;> rfl

theorem Strand.retire_vstart (x : Strand) (p : Word) : (x.retire p).vstart = x.vstart := by
  unfold Strand.retire Strand.endStep
  split <;> rfl

theorem Strand.retire_ckpt (x : Strand) (p : Word) : (x.retire p).ckpt = x.ckpt := by
  unfold Strand.retire Strand.endStep
  split <;> rfl

theorem Strand.retire_strip (x : Strand) (p : Word) : (x.retire p).strip = x.strip := by
  unfold Strand.retire Strand.endStep
  split <;> rfl

theorem Strand.retire_rbStrip (x : Strand) (p : Word) : (x.retire p).rbStrip = x.rbStrip := by
  unfold Strand.retire Strand.endStep
  split <;> rfl

/-- Retirement after an update of the issuing strand is one update. -/
theorem retire_updMe (s : State) (f : Strand → Strand) :
    (s.updMe f).retire = s.updMe fun x => (f x).retire s.npc := updMe_updMe s f _

/-! Taking an exception: the three ends of a cause of the handler disposition are what the claims say (R207, R210,
R211). -/

theorem Strand.endStep_trapcause (x : Strand) : x.endStep.trapcause = x.trapcause := by
  unfold Strand.endStep
  split <;> rfl

theorem Strand.endStep_trappc (x : Strand) : x.endStep.trappc = x.trappc := by
  unfold Strand.endStep
  split <;> rfl

theorem Strand.endStep_trapaddr (x : Strand) : x.endStep.trapaddr = x.trapaddr := by
  unfold Strand.endStep
  split <;> rfl

theorem Strand.endStep_inHandler (x : Strand) : x.endStep.inHandler = x.inHandler := by
  unfold Strand.endStep
  split <;> rfl

theorem Strand.endStep_pc (x : Strand) : x.endStep.pc = x.pc := by
  unfold Strand.endStep
  split <;> rfl

theorem Strand.endStep_ckpt (x : Strand) : x.endStep.ckpt = x.ckpt := by
  unfold Strand.endStep
  split <;> rfl

theorem Strand.endStep_settled (x : Strand) : x.endStep.settled = x.settled := by
  unfold Strand.endStep
  split <;> rfl

theorem enterHandler_enters (s : State) (c : Nat) (pc a : Word) :
    EntersHandler s (s.updMe fun x => x.enterHandler c pc a) c pc a where
  only := onlyMe_updMe s _
  trapcause := by rw [State.me_updMe, Strand.enterHandler, Strand.endStep_trapcause]
  trappc := by rw [State.me_updMe, Strand.enterHandler, Strand.endStep_trappc]
  trapaddr := by rw [State.me_updMe, Strand.enterHandler, Strand.endStep_trapaddr]
  inside := by rw [State.me_updMe, Strand.enterHandler, Strand.endStep_inHandler]
  target := by rw [State.me_updMe, Strand.enterHandler, Strand.endStep_pc]
  ckpt := by rw [State.me_updMe, Strand.enterHandler, Strand.endStep_ckpt]
  running h h2 := by simp [Strand.enterHandler, Strand.endStep, h, h2]
  stopping h h2 := by simp [Strand.enterHandler, Strand.endStep, h, h2]
  stepped h := by simp [Strand.enterHandler, Strand.endStep, h, cStep]
  frame := by
    rw [State.me_updMe, Strand.enterHandler, Strand.endStep_settled, Strand.endStep_trapcause,
      Strand.endStep_trappc, Strand.endStep_trapaddr, Strand.endStep_ckpt]
    rfl

theorem stopTrapped_stops (s : State) (c : Nat) (pc a : Word) :
    StopsTrapped s (s.updMe fun x => x.stopTrapped c pc a) c pc a := by
  refine ⟨onlyMe_updMe s _, ?_, ?_, ?_, ?_, ?_, ?_⟩ <;> simp [Strand.stopTrapped, Strand.settled]

theorem stopNested_stops (s : State) (c : Nat) (pc : Word) :
    StopsNested s (s.updMe fun x => x.stopNested c pc) c pc := by
  refine ⟨onlyMe_updMe s _, ?_, ?_, ?_, ?_⟩ <;> simp [Strand.stopNested, Strand.settled]

/-- The issuing strand raises a cause of the handler disposition (R207). -/
theorem raise_raises (s : State) (c : Nat) (pc a : Word) (h1 : c ≠ cUncorrectable) (h2 : fatalCause c = false)
    (h3 : c ≠ cBreakpoint) : Raises s (s.raise s.cur c pc a) c pc a where
  handler h4 h5 := by rw [raise_handler s s.cur c pc a h1 h2 h3 h4 h5]; exact enterHandler_enters s c pc a
  stop h4 h5 := by rw [raise_stop s s.cur c pc a h1 h2 h3 h4 h5]; exact stopTrapped_stops s c pc a
  nested h4 := by rw [raise_nested s s.cur c pc a h1 h2 h3 h4]; exact stopNested_stops s c pc

/-- A meaning that ends with a cause of the handler disposition raises it at its instruction. -/
theorem finish_trap_raises (s : State) (m : BitVec 3) (c : Nat) (a : Word) (h1 : c ≠ cUncorrectable)
    (h2 : fatalCause c = false) (h3 : c ≠ cBreakpoint) :
    ∃ t, finish s m (.error (.trap c a)) = .next t ∧ Raises s t c s.me.pc a :=
  ⟨_, rfl, raise_raises s c s.me.pc a h1 h2 h3⟩

/-! Special registers (R24, R321, R322). -/

theorem exec_getsr (rd : SReg) (n : BitVec 6) (s : State) :
    exec (.getsr rd n) s = .next (s.result rd (s.specialReg n.toNat)) := rfl

theorem exec_setsr_some {s : State} {n : BitVec 6} {rb : SReg} {y : Strand}
    (h : s.me.setSpecial n.toNat (s.sreg rb) = some y) :
    exec (.setsr n rb) s = .next (s.updMe fun _ => y).retire := by
  change execSetsr n rb s = _
  rw [execSetsr, h, finish_ok]

theorem exec_setsr_none {s : State} {n : BitVec 6} {rb : SReg}
    (h : s.me.setSpecial n.toNat (s.sreg rb) = none) :
    exec (.setsr n rb) s = finish s 0#3 (.error (.trap cIllegalState 0#64)) := by
  change execSetsr n rb s = _
  rw [execSetsr, h]
  rfl

/-- No special register that `setsr` writes is one that retirement reads. -/
theorem Strand.setSpecial_running {x y : Strand} {n : Nat} {v : Word} (h : x.setSpecial n v = some y) :
    y.stepping = x.stepping ∧ y.state = x.state ∧ y.cause = x.cause ∧ y.place = x.place := by
  unfold Strand.setSpecial at h
  split at h <;> simp only [Option.ite_none_right_eq_some, Option.some.injEq, reduceCtorEq] at h
  case h_6 | h_11 => subst h; exact ⟨rfl, rfl, rfl, rfl⟩
  all_goals obtain ⟨-, rfl⟩ := h; exact ⟨rfl, rfl, rfl, rfl⟩

theorem setsr_writes {s : State} {n : BitVec 6} {rb : SReg} {y : Strand}
    (h : s.me.setSpecial n.toNat (s.sreg rb) = some y) :
    Completes (.setsr n rb) s fun t => OnlyMe s t ∧ RetiredAt s t s.npc ∧ t.me.settled = y.settled := by
  obtain ⟨h0, h1, h2, h3⟩ := Strand.setSpecial_running h
  refine ⟨_, exec_setsr_some h, ?_⟩
  rw [retire_updMe]
  exact ⟨onlyMe_updMe s _, retiredAt_updMe s _ _ h0 h1 h2 h3, by rw [State.me_updMe, Strand.retire_settled]⟩

theorem setsr_raises {s : State} {n : BitVec 6} {rb : SReg}
    (h : s.me.setSpecial n.toNat (s.sreg rb) = none) :
    Completes (.setsr n rb) s fun t => Raises s t 0x02 s.me.pc 0#64 := by
  unfold Completes
  rw [exec_setsr_none h]
  exact finish_trap_raises s _ _ _ (by decide) (by decide) (by decide)

/-- `setsr` from the check of its range: it writes when the value passes, and else raises ILLEGAL_STATE. -/
theorem setsr_takes {s : State} {n : BitVec 6} {rb : SReg} {b : Bool} {ok : Prop} {y : Strand}
    (h : s.me.setSpecial n.toNat (s.sreg rb) = if b then some y else none) (hb : b = true ↔ ok) :
    (ok → Completes (.setsr n rb) s fun t =>
      OnlyMe s t ∧ RetiredAt s t s.npc ∧ t.me.settled = y.settled) ∧
    (¬ ok → Completes (.setsr n rb) s fun t => Raises s t 0x02 s.me.pc 0#64) :=
  ⟨fun hok => setsr_writes (by rw [h, if_pos (hb.2 hok)]),
    fun hok => setsr_raises (by rw [h, if_neg (mt hb.1 hok)])⟩

/-- The upper bits of a word are zero when it is an address of 57 bits. -/
theorem high7_eq_zero_iff (v : Word) : v.extractLsb' 57 7 = 0#7 ↔ v.toNat < 2 ^ 57 := by
  have := v.isLt
  rw [← BitVec.toNat_inj, BitVec.extractLsb'_toNat, Nat.shiftRight_eq_div_pow]
  simp only [BitVec.toNat_ofNat]
  omega

theorem getLsbD_zero_eq_false_iff (v : Word) : v.getLsbD 0 = false ↔ v.toNat % 2 = 0 := by
  rw [BitVec.getLsbD, Nat.testBit_zero]
  simp

/-- The count of SHAPE that bounds VSTART. -/
theorem toNat_high16 (v : Word) : (v.extractLsb' 48 16).toNat = v.toNat / 2 ^ 48 := by
  have := v.isLt
  rw [BitVec.extractLsb'_toNat, Nat.shiftRight_eq_div_pow]
  omega

/-- TRAPVEC takes an even address of 57 bits. -/
theorem trapvec_check_iff (v : Word) :
    (v.extractLsb' 57 7 == 0#7 && !v.getLsbD 0) = true ↔ v.toNat < 2 ^ 57 ∧ v.toNat % 2 = 0 := by
  rw [Bool.and_eq_true, beq_iff_eq, high7_eq_zero_iff, Bool.not_eq_true', getLsbD_zero_eq_false_iff]

/-- SEW takes a value of two bits whose most elements hold VL. -/
theorem sew_check_iff (x : Strand) (v : Word) :
    (decide (v.toNat ≤ 3) && decide (x.vl.toNat ≤ x.maxElems (v.setWidth 2))) = true ↔
      v.toNat ≤ 3 ∧ x.vl.toNat ≤ x.mvl.toNat / (8 * 2 ^ v.toNat) := by
  rw [Bool.and_eq_true, decide_eq_true_iff, decide_eq_true_iff]
  refine and_congr_right fun h => ?_
  have hv : (v.setWidth 2).toNat = v.toNat := by rw [BitVec.toNat_setWidth]; omega
  rw [Strand.maxElems, sewBits, hv]

/-- The 21 special registers by number. -/
theorem specialReg_of_mem {s : State} {n : BitVec 6} {v : Word}
    (h : (n, v) ∈ (List.range 21).map fun k => (BitVec.ofNat 6 k, s.specialReg k)) : v = s.specialReg n.toNat := by
  obtain ⟨k, hk, he⟩ := List.mem_map.1 h
  obtain ⟨rfl, rfl⟩ := Prod.mk.inj he
  have hk : k < 21 := List.mem_range.1 hk
  rw [BitVec.toNat_ofNat, Nat.mod_eq_of_lt (by omega)]

/-- Settles O9: the registers read are a table by number; each register written is what `setSpecial` gives for its
number, whose check is the range of R322. -/
theorem specialRegisters : Obligations.SpecialRegisters := by
  unfold Obligations.SpecialRegisters
  refine ⟨fun s rd n v h => ?_, fun s n rb _ => ?_⟩
  · rw [Nat.add_assoc] at h
    rw [specialReg_of_mem h]
    exact ⟨_, exec_getsr rd n s, result_scalar s rd _⟩
  · refine ⟨?_, ?_, ?_, ?_, ?_, ?_, ?_, ?_, ?_, ?_, ?_, ?_, fun h => ?readOnly⟩
    case readOnly =>
      refine setsr_takes (b := false) ?_ (by decide)
      simp only [List.mem_cons, List.not_mem_nil, or_false] at h
      rcases h with rfl | rfl | rfl | rfl | rfl | rfl | rfl | rfl | rfl <;> rfl
    all_goals rintro rfl
    · exact setsr_takes rfl decide_eq_true_iff
    · exact setsr_takes rfl decide_eq_true_iff
    · exact setsr_takes rfl (by rw [decide_eq_true_iff, toNat_high16])
    · exact setsr_takes rfl decide_eq_true_iff
    · exact setsr_takes rfl decide_eq_true_iff
    · exact setsr_takes (b := true) rfl (by decide)
    · exact setsr_takes rfl (trapvec_check_iff _)
    · exact setsr_takes rfl decide_eq_true_iff
    · exact setsr_takes rfl (beq_iff_eq.trans (high7_eq_zero_iff _))
    · exact setsr_takes rfl (beq_iff_eq.trans (high7_eq_zero_iff _))
    · exact setsr_takes (b := true) rfl (by decide)
    · exact setsr_takes rfl (sew_check_iff _ _)

/-! `setvl` (R25 to R27, R340). -/

theorem Strand.takeCheckpoint_inside {x : Strand} (g : Word) (n : Nat) (h : x.inHandler = true) :
    x.takeCheckpoint g n = x := by
  simp [Strand.takeCheckpoint, h]

theorem Strand.takeCheckpoint_outside {x : Strand} (g : Word) (n : Nat) (h : x.inHandler = false) :
    x.takeCheckpoint g n = { x with
      ckpt := { s := x.s, vl := x.vl, sew := x.sew, strip := x.strip, pc := x.pc.setWidth 57
                valid := true, grant := g, since := n }
      rbStrip := if x.rolled then x.rbStrip else 0#4 } := by
  simp [Strand.takeCheckpoint, h]

/-- Taking the checkpoint writes it and the count of its rollbacks alone. -/
theorem Strand.takeCheckpoint_other (x : Strand) (w : Word) (n : Nat) : x.takeCheckpoint w n =
    { x with ckpt := (x.takeCheckpoint w n).ckpt, rbStrip := (x.takeCheckpoint w n).rbStrip } := by
  unfold Strand.takeCheckpoint
  split <;> rfl

/-- A setting instruction writes the checkpoint, the count of its rollbacks, SEW, VL, VSTART and STRIP. -/
theorem Strand.grantVl_takeCheckpoint (x : Strand) (w : Word) (n : Nat) (sew : BitVec 2) (g : Nat) :
    (x.takeCheckpoint w n).grantVl sew g = { x with
      sew := sew, vl := BitVec.ofNat 32 g, vstart := 0#32
      strip := if x.inHandler then x.strip else x.strip + 1#64
      ckpt := (x.takeCheckpoint w n).ckpt, rbStrip := (x.takeCheckpoint w n).rbStrip } :=
  congrArg (fun y => y.grantVl sew g) (x.takeCheckpoint_other w n)

/-- What `setvl` does with the strand before it retires. -/
def Strand.setvlGrant (x : Strand) (sew : BitVec 2) (rd : SReg) (g n : Nat) : Strand :=
  ((x.takeCheckpoint 0#64 n).grantVl sew g).setS rd (BitVec.ofNat 64 g)

theorem exec_setvl (sew : BitVec 2) (rd rb : SReg) (s : State) :
    exec (.setvl sew rd rb) s = .next (s.updMe fun x =>
      (x.setvlGrant sew rd (min (s.sreg rb).toNat (s.me.maxElems sew)) s.nextId).retire s.npc) := by
  change execSetvl sew rd rb s = _
  rw [execSetvl, result_eq, updMe_updMe]
  rfl

/-- The fields `setvl` writes; every other is as it was. -/
theorem Strand.setvlGrant_eq (x : Strand) (sew : BitVec 2) (rd : SReg) (g n : Nat) :
    x.setvlGrant sew rd g n = { x with
      s := (x.setS rd (BitVec.ofNat 64 g)).s
      sew := sew, vl := BitVec.ofNat 32 g, vstart := 0#32
      strip := if x.inHandler then x.strip else x.strip + 1#64
      ckpt := (x.takeCheckpoint 0#64 n).ckpt, rbStrip := (x.takeCheckpoint 0#64 n).rbStrip } := by
  rw [Strand.setvlGrant, Strand.grantVl_takeCheckpoint]
  unfold Strand.setS
  split <;> rfl

theorem Strand.sreg_setvlGrant (x : Strand) (sew : BitVec 2) (rd r : SReg) (g n : Nat) :
    (x.setvlGrant sew rd g n).sreg r =
      if r = 0#5 then 0#64 else if r = rd then BitVec.ofNat 64 g else x.sreg r := by
  rw [Strand.setvlGrant, Strand.sreg_setS, Strand.grantVl_takeCheckpoint]
  rfl

/-- A grant fits VL: MVL has 16 bits. -/
theorem Strand.min_maxElems_lt (x : Strand) (sew : BitVec 2) (k : Nat) : min k (x.maxElems sew) < 2 ^ 32 := by
  have h : x.maxElems sew ≤ x.mvl.toNat := Nat.div_le_self _ _
  have := x.mvl.isLt
  omega

/-- Settles O10: `setvl` is one update of the strand and a retirement; the checkpoint is taken outside a handler only. -/
theorem setvlGrants : Obligations.SetvlGrants := by
  unfold Obligations.SetvlGrants
  intro s sew rd rb g
  have hg : g < 2 ^ 32 := s.me.min_maxElems_lt sew _
  have e := s.me.setvlGrant_eq sew rd g s.nextId
  refine ⟨s.updMe fun x => (x.setvlGrant sew rd g s.nextId).retire s.npc, exec_setvl sew rd rb s, onlyMe_updMe s _,
    retiredAt_updMe s _ _ (by rw [e]) (by rw [e]) (by rw [e]) (by rw [e]), fun r => ?_, ?_⟩
  · rw [State.sreg_updMe, Strand.retire_sreg, Strand.sreg_setvlGrant]
    rfl
  · rw [State.me_updMe, Strand.retire_settled, Strand.retire_s, Strand.retire_vl, Strand.retire_sew,
      Strand.retire_vstart, Strand.retire_ckpt, Strand.retire_strip, Strand.retire_rbStrip, e]
    refine ⟨?vl, rfl, rfl, fun h => ?inside, fun h => ?outside, rfl⟩
    case vl => exact (BitVec.toNat_ofNat ..).trans (Nat.mod_eq_of_lt hg)
    case inside => simp [Strand.takeCheckpoint_inside, h]
    case outside =>
      rw [Strand.takeCheckpoint_outside _ _ h]
      exact ⟨by simp [h], rfl, fun hr => by simp [hr], fun hr => by simp [hr]⟩

end Sys2Proof.Machine
end

section
/-! The decoder reads what the encoder writes (O59): the fields of every format and of every packed field come out as
they went in, and each refusal of the decoder asks no more than well-formedness gives. -/

namespace Sys2Proof.Machine

/-! Fields of a concatenation and of a widened field. -/

theorem extractLsb'_eq_zero_of_le {n i : Nat} (x : BitVec n) (len : Nat) (h : n ≤ i) :
    x.extractLsb' i len = 0#len := by
  ext j hj
  rw [BitVec.getElem_extractLsb', BitVec.getLsbD_of_ge _ _ (by omega), BitVec.getElem_zero]

@[simp] theorem extractLsb'_setWidth_above {n m i len : Nat} (x : BitVec n) (h : n ≤ i) (hm : i + len ≤ m) :
    (x.setWidth m).extractLsb' i len = 0#len := by
  rw [BitVec.extractLsb'_setWidth_of_le hm, extractLsb'_eq_zero_of_le x len h]

@[simp] theorem extractLsb'_setWidth_low {n m : Nat} (x : BitVec n) (h : n ≤ m) :
    (x.setWidth m).extractLsb' 0 n = x := by
  rw [BitVec.extractLsb'_setWidth_of_le (by omega), BitVec.extractLsb'_eq_self]

theorem extractLsb'_append₃ {l m n : Nat} (x : BitVec l) (y : BitVec m) (z : BitVec n) :
    (x ++ y ++ z).extractLsb' 0 n = z ∧ (x ++ y ++ z).extractLsb' n m = y ∧
    (x ++ y ++ z).extractLsb' (n + m) l = x := by
  refine ⟨BitVec.extractLsb'_append_eq_right, ?middle, ?high⟩
  case middle =>
    rw [BitVec.extractLsb'_append_eq_of_le le_rfl, Nat.sub_self, BitVec.extractLsb'_append_eq_right]
  case high =>
    rw [BitVec.extractLsb'_append_eq_of_le (Nat.le_add_right n m), Nat.add_sub_cancel_left,
      BitVec.extractLsb'_append_eq_left]

theorem bitFlag_of_extractLsb' {n i : Nat} {f : BitVec n} {b : Bool} (h : f.extractLsb' i 1 = flagBit b) :
    bitFlag f i = b := by
  rw [bitFlag, BitVec.getLsbD_eq_extractLsb', h]
  cases b <;> rfl

@[simp] theorem bitFlag_setWidth_flagBit {n : Nat} (b : Bool) (h : 1 ≤ n) :
    bitFlag ((flagBit b).setWidth n) 0 = b :=
  bitFlag_of_extractLsb' (extractLsb'_setWidth_low _ h)

/-! The formats (R33, R34). -/

theorem extractLsb'_packHead (t : BitVec 2) (maj : BitVec 7) (a : BitVec 5) (w : BitVec 2) (i n : Nat) :
    (packHead t maj a w).extractLsb' i n = (t ++ maj ++ a ++ w).extractLsb' i n := rfl

theorem extractLsb'_packHt1 (b c : BitVec 5) (f : BitVec 6) (i n : Nat) :
    (packHt1 b c f).extractLsb' i n = (b ++ c ++ f).extractLsb' i n := rfl

theorem extractLsb'_packHt2 (b c d : BitVec 5) (k : BitVec 4) (p h : BitVec 2) (f : BitVec 9) (i n : Nat) :
    (packHt2 b c d k p h f).extractLsb' i n = (b ++ c ++ d ++ k ++ p ++ h ++ f).extractLsb' i n := rfl

theorem extractLsb'_packHt3 (b c : BitVec 5) (f : BitVec 6) (imm : BitVec 32) (i n : Nat) :
    (packHt3 b c f imm).extractLsb' i n = (b ++ c ++ f ++ imm).extractLsb' i n := rfl

theorem headT_packHead (t : BitVec 2) (maj : BitVec 7) (a : BitVec 5) (w : BitVec 2) :
    headT (packHead t maj a w) = t := by
  simp (disch := decide) only [headT, extractLsb'_packHead, BitVec.extractLsb'_append_eq_of_le,
    BitVec.extractLsb'_eq_self, Nat.reduceSub]

/-- Splitting undoes joining, in every format. -/
theorem splitEnc_joinEnc (e : Enc) : splitEnc (joinEnc e).1 (joinEnc e).2 = e := by
  cases e <;>
    simp (disch := decide) only [splitEnc, joinEnc, headT_packHead, extractLsb'_packHead, extractLsb'_packHt1,
      extractLsb'_packHt2, extractLsb'_packHt3, BitVec.extractLsb'_setWidth_of_le, BitVec.extractLsb'_append_eq_of_le,
      BitVec.extractLsb'_append_eq_of_add_le, BitVec.extractLsb'_eq_self, BitVec.toNat_ofNat, Nat.reduceSub,
      Nat.reducePow, Nat.reduceMod]

theorem packHt1_extractLsb' (t : BitVec 16) :
    packHt1 (t.extractLsb' 11 5) (t.extractLsb' 6 5) (t.extractLsb' 0 6) = t := by
  rw [← BitVec.extractLsb'_eq_self (x := packHt1 _ _ _), extractLsb'_packHt1]
  simp (disch := decide) only [BitVec.extractLsb'_append_extractLsb'_eq_extractLsb', BitVec.extractLsb'_eq_self]

theorem packHt2_extractLsb' (t : BitVec 32) :
    packHt2 (t.extractLsb' 27 5) (t.extractLsb' 22 5) (t.extractLsb' 17 5) (t.extractLsb' 13 4) (t.extractLsb' 11 2)
      (t.extractLsb' 9 2) (t.extractLsb' 0 9) = t := by
  rw [← BitVec.extractLsb'_eq_self (x := packHt2 _ _ _ _ _ _ _), extractLsb'_packHt2]
  simp (disch := decide) only [BitVec.extractLsb'_append_extractLsb'_eq_extractLsb', BitVec.extractLsb'_eq_self]

theorem packHt3_extractLsb' (t : BitVec 48) :
    packHt3 (t.extractLsb' 43 5) (t.extractLsb' 38 5) (t.extractLsb' 32 6) (t.extractLsb' 0 32) = t := by
  rw [← BitVec.extractLsb'_eq_self (x := packHt3 _ _ _ _), extractLsb'_packHt3]
  simp (disch := decide) only [BitVec.extractLsb'_append_extractLsb'_eq_extractLsb', BitVec.extractLsb'_eq_self]

/-! The refusals of the decoder (R37), when what they ask for holds. -/

@[simp] theorem need_of_true {ok : Bool} (h : ok = true) (e : DecodeError) : need ok e = .ok () := by
  rw [h]
  rfl

@[simp] theorem unused_zero (n : Nat) : unused 0#n = .ok () := need_of_true (beq_self_eq_true _) _

@[simp] theorem noReplicate_zero : noReplicate 0#2 = .ok () := rfl

@[simp] theorem ok_bind {ε α β : Type} (a : α) (k : α → Except ε β) : (Except.ok a >>= k) = k a := rfl

/-! Fields that an entry packs into F or IMM (R44 to R46, R88, R135, R174, R238, R299). -/

@[simp] theorem scopeHt1_setWidth {s : BitVec 3} (h : Wf.scope s = true) : scopeHt1 (s.setWidth 6) = .ok s := by
  simp [scopeHt1, h]

@[simp] theorem orderedHt3_orderedField {o : Bool} {s : BitVec 3} (h : Wf.ordered o s = true) :
    orderedHt3 (orderedField o s) = .ok (o, s) := by
  obtain ⟨ho, hs, h0⟩ : (orderedField o s).extractLsb' 0 1 = flagBit o ∧ (orderedField o s).extractLsb' 1 3 = s ∧
    (orderedField o s).extractLsb' 4 2 = 0#2 := extractLsb'_append₃ 0#2 s (flagBit o)
  simp [orderedHt3, bitFlag_of_extractLsb' ho, hs, h0, h]

@[simp] theorem atomicField_reads (op : BitVec 4) (o : BitVec 2) (s : BitVec 3) :
    (atomicField op o s).extractLsb' 0 4 = op ∧ (atomicField op o s).extractLsb' 4 2 = o ∧
    (atomicField op o s).extractLsb' 6 3 = s := extractLsb'_append₃ s o op

@[simp] theorem copySpaces_reads (above dsp ssp : BitVec 2) :
    (copySpaces above dsp ssp).extractLsb' 0 2 = dsp ∧ (copySpaces above dsp ssp).extractLsb' 2 2 = ssp ∧
    (copySpaces above dsp ssp).extractLsb' 4 2 = above := extractLsb'_append₃ above ssp dsp

@[simp] theorem copyImm_reads (above : BitVec 17) (s : BitVec 3) (atag rtag : BitVec 6) :
    (copyImm above s atag rtag).extractLsb' 0 6 = rtag ∧ (copyImm above s atag rtag).extractLsb' 6 6 = atag ∧
    (copyImm above s atag rtag).extractLsb' 12 3 = s := by
  obtain ⟨hr, ha, -⟩ := extractLsb'_append₃ (above ++ s) atag rtag
  refine ⟨hr, ha, ?_⟩
  change (above ++ s ++ atag ++ rtag).extractLsb' 12 3 = s
  rw [BitVec.extractLsb'_append_eq_of_le (by decide), BitVec.extractLsb'_append_eq_of_le (by decide)]
  exact BitVec.extractLsb'_append_eq_right

/-- What lies above the scope, from its bit `i`. -/
theorem copyImm_above (above : BitVec 17) (s : BitVec 3) (atag rtag : BitVec 6) (i n : Nat) :
    (copyImm above s atag rtag).extractLsb' (15 + i) n = above.extractLsb' i n := by
  change (above ++ s ++ atag ++ rtag).extractLsb' (15 + i) n = _
  rw [BitVec.extractLsb'_append_eq_of_le (by omega), BitVec.extractLsb'_append_eq_of_le (by omega),
    BitVec.extractLsb'_append_eq_of_le (by omega)]
  congr 1
  omega

@[simp] theorem collAbove_reads (fmt : BitVec 4) (op : BitVec 3) :
    ((fmt ++ op).setWidth 17).extractLsb' 0 3 = op ∧ ((fmt ++ op).setWidth 17).extractLsb' 3 4 = fmt ∧
    ((fmt ++ op).setWidth 17).extractLsb' 7 10 = 0#10 := by
  refine ⟨?_, ?_, extractLsb'_setWidth_above _ (by decide) (by decide)⟩ <;>
    rw [BitVec.extractLsb'_setWidth_of_le (by decide)]
  exacts [BitVec.extractLsb'_append_eq_right, BitVec.extractLsb'_append_eq_left]

@[simp] theorem fcvtField_reads (dst src : BitVec 3) :
    ((dst ++ src).cast rfl : BitVec 6).extractLsb' 0 3 = src ∧
    ((dst ++ src).cast rfl : BitVec 6).extractLsb' 3 3 = dst :=
  ⟨BitVec.extractLsb'_append_eq_right, BitVec.extractLsb'_append_eq_left⟩

@[simp] theorem rredField_reads (s : BitVec 3) (tag : BitVec 6) :
    ((s ++ tag).cast rfl : BitVec 9).extractLsb' 0 6 = tag ∧ ((s ++ tag).cast rfl : BitVec 9).extractLsb' 6 3 = s :=
  ⟨BitVec.extractLsb'_append_eq_right, BitVec.extractLsb'_append_eq_left⟩

@[simp] theorem fenceField_reads (o : BitVec 2) (s : BitVec 3) :
    (((0#1 ++ o) ++ s).cast rfl : BitVec 6).extractLsb' 0 3 = s ∧
    (((0#1 ++ o) ++ s).cast rfl : BitVec 6).extractLsb' 3 2 = o ∧
    (((0#1 ++ o) ++ s).cast rfl : BitVec 6).extractLsb' 5 1 = 0#1 := extractLsb'_append₃ 0#1 o s

@[simp] theorem vfcvtField_reads (src dst : BitVec 4) :
    (((0#1 ++ src) ++ dst).cast rfl : BitVec 9).extractLsb' 0 4 = dst ∧
    (((0#1 ++ src) ++ dst).cast rfl : BitVec 9).extractLsb' 4 4 = src ∧
    (((0#1 ++ src) ++ dst).cast rfl : BitVec 9).extractLsb' 8 1 = 0#1 := extractLsb'_append₃ 0#1 src dst

@[simp] theorem vscanField_reads (x : Bool) (op : BitVec 3) :
    (((0#5 ++ flagBit x) ++ op).cast rfl : BitVec 9).extractLsb' 0 3 = op ∧
    bitFlag (((0#5 ++ flagBit x) ++ op).cast rfl : BitVec 9) 3 = x ∧
    (((0#5 ++ flagBit x) ++ op).cast rfl : BitVec 9).extractLsb' 4 5 = 0#5 := by
  obtain ⟨ho, hx, h0⟩ := extractLsb'_append₃ 0#5 (flagBit x) op
  exact ⟨ho, bitFlag_of_extractLsb' hx, h0⟩

@[simp] theorem mldwField_reads (sparse : Bool) (space : BitVec 2) :
    (((0#6 ++ flagBit sparse) ++ space).cast rfl : BitVec 9).extractLsb' 0 2 = space ∧
    bitFlag (((0#6 ++ flagBit sparse) ++ space).cast rfl : BitVec 9) 2 = sparse ∧
    (((0#6 ++ flagBit sparse) ++ space).cast rfl : BitVec 9).extractLsb' 3 6 = 0#6 := by
  obtain ⟨hs, hx, h0⟩ := extractLsb'_append₃ 0#6 (flagBit sparse) space
  exact ⟨hs, bitFlag_of_extractLsb' hx, h0⟩

/-! Instructions by their entries. -/

/-- The decoder reads an instruction from the fields the encoder gives it. -/
def ReadsBack (i : Instr) : Prop := ∃ e, encodeEnc i = some e ∧ decodeEnc e = .ok i

/-- The integer group: MAJ 0x20, its function in F (R44). -/
theorem readsBack_of_intOp {i : Instr} {w : BitVec 2} {rd rb rc : SReg} {f : BitVec 6}
    (he : encodeEnc i = encHt1 0x20#7 rd w rb rc f) (hw : Wf.width1 w = true) (hi : intOp f w rd rb rc = .ok i) :
    ReadsBack i :=
  ⟨_, he, by simp [decodeEnc, decodeHt1, majUnassigned, hw, hi]⟩

/-- The same with an immediate: MAJ 0x21. -/
theorem readsBack_of_intOpImm {i : Instr} {w : BitVec 2} {rd rb : SReg} {f : BitVec 6} {imm : BitVec 32}
    (he : encodeEnc i = encHt3 0x21#7 rd w rb 0#5 f imm) (hw : Wf.width1 w = true)
    (hi : intOpImm f w rd rb imm = .ok i) : ReadsBack i :=
  ⟨_, he, by simp [decodeEnc, decodeHt3, majUnassigned, hw, hi]⟩

/-- The scalar float group: MAJ 0x28 (R313). -/
theorem readsBack_of_floatOp {i : Instr} {w : BitVec 2} {rd rb rc : SReg} {f : BitVec 6}
    (he : encodeEnc i = encHt1 0x28#7 rd w rb rc f) (hw : Wf.width1 w = true) (hi : floatOp f w rd rb rc = .ok i) :
    ReadsBack i :=
  ⟨_, he, by simp [decodeEnc, decodeHt1, majUnassigned, hw, hi]⟩

/-- Every well-formed instruction is read back. Most need nothing of well-formedness, or only what one group asks for;
of the rest, each format is one case. -/
theorem readsBack_of_wf (i : Instr) (hwf : i.wf = true) (hev : isEvent i = false) (hill : i ≠ .illegalEncoding) :
    ReadsBack i := by
  cases i
  case illegalEncoding => exact absurd rfl hill
  case nop | hintH | b | call | jmp | ret | setvl | trap | brk | exit | launch | cancel | claim | tsync | sealOpen
    | sealClose | chlinkRm | chlinkAdd | chquery | chsync | tret | clz | ctz | popc | sext | zext | mov | movi
    | moviHi | addpc | sel | vld | vlds | vldff | vst | vsts | vadd | vsub | vmul | vand | vor | vxor | vshl | vshr
    | vsra | vsel | vmv | vmvScalar | vid | vperm | vslideUp | vslideDown | vcompress | vexpand | vins | vfadd
    | vfsub | vfmul | vfdiv | vfsqrt | vfrec | vfrsqrt | vfexp2 | vfmin | vfmax | vfma | vunpack | mswap | mzero
    | mrd | mwr | mchk | twait | twany | tfirst => exact ⟨_, rfl, rfl⟩
  case vmulh u _ _ _ _ _ _ | vmin u _ _ _ _ _ _ | vmax u _ _ _ _ _ _ => cases u <;> exact ⟨_, rfl, rfl⟩
  case hintHt1 => exact ⟨_, rfl, congrArg (fun t => Except.ok (Instr.hintHt1 _ _ t)) (packHt1_extractLsb' _)⟩
  case hintHt2 => exact ⟨_, rfl, congrArg (fun t => Except.ok (Instr.hintHt2 _ _ t)) (packHt2_extractLsb' _)⟩
  case hintHt3 => exact ⟨_, rfl, congrArg (fun t => Except.ok (Instr.hintHt3 _ _ t)) (packHt3_extractLsb' _)⟩
  case add | sub | mul | mulh | mulhu | div | divu | rem | remu | and | andn | or | xor | shl | shr | sra | min | max
    | minu | maxu => exact readsBack_of_intOp rfl hwf rfl
  case addImm | subImm | mulImm | mulhImm | mulhuImm | divImm | divuImm | remImm | remuImm | andImm | andnImm | orImm
    | xorImm | shlImm | shrImm | sraImm | minImm | maxImm | minuImm | maxuImm =>
    exact readsBack_of_intOpImm rfl hwf rfl
  case fadd | fsub | fmul | fdiv | fsqrt | fmin | fmax => exact readsBack_of_floatOp rfl hwf rfl
  case cmp | fcmp | getsr | setsr | pref | fcvt | fence | cwait | fpub | icinv | cflush | cinv | kand | kor | kxor
    | knot | kmv | kset | kpopc | kfirst | bar =>
    simp only [Instr.wf, Bool.and_eq_true, decide_eq_true_eq] at hwf
    exact ⟨_, rfl, by simp [-BitVec.cast_eq, -BitVec.toNat_setWidth, BitVec.toNat_setWidth_of_le, decodeEnc,
      decodeHt1, majUnassigned, maskOp, hwf]⟩
  case aadd | aand | aor | axor | amin | amax | aswap | acas | vamo | setvlf | sealAbsorb | fma | vldx | vstx | vcmp
    | vred | vscan | vfcmp | vfcvt | vfred | vpack | mshape | mldw | mst | mld | mmac | vext | rred =>
    simp only [Instr.wf, Wf.atomic, Bool.and_eq_true, Bool.or_eq_true, decide_eq_true_eq] at hwf
    exact ⟨_, rfl, by simp [-BitVec.cast_eq, -BitVec.toNat_setWidth, BitVec.toNat_setWidth_of_le, decodeEnc,
      decodeHt2, majUnassigned, atomicOp, hwf]⟩
  case bCond | ld | ldu | st =>
    simp only [Instr.wf] at hwf
    exact ⟨_, rfl, by simp [decodeEnc, decodeHt3, majUnassigned, hwf]⟩
  case cpy | cpyd | coll =>
    simp only [Instr.wf, Bool.and_eq_true, decide_eq_true_eq] at hwf
    exact ⟨_, rfl, by simp [decodeEnc, decodeHt3, majUnassigned, copyCommon, copyImm_above _ _ _ _ 0,
      copyImm_above _ _ _ _ 3, copyImm_above _ _ _ _ 7, hwf]⟩
  all_goals exact Bool.noConfusion hev

/-! The head. -/

/-- A head of zeros is the end marker, never an instruction (R35, R37). -/
theorem decode_zero_head (t : BitVec 48) : decode 0#16 t = .error .unassigned := rfl

theorem head_ne_zero_of_decode {h : BitVec 16} {t : BitVec 48} {i : Instr} (hd : decode h t = .ok i) : h ≠ 0#16 := by
  rintro rfl
  cases (decode_zero_head t).symm.trans hd

/-- Settles O59: the fields are read back, and joining and splitting them changes none. -/
theorem decodeReadsWhatEncodeWrites : Obligations.DecodeReadsWhatEncodeWrites := by
  unfold Obligations.DecodeReadsWhatEncodeWrites
  intro i hwf hev hill
  obtain ⟨e, he, hd⟩ := readsBack_of_wf i hwf hev hill
  have hdec : decode (joinEnc e).1 (joinEnc e).2 = .ok i := by rw [decode, splitEnc_joinEnc, hd]
  exact ⟨(joinEnc e).1, (joinEnc e).2, by rw [encode, he, Option.map_some], hdec, head_ne_zero_of_decode hdec⟩

end Sys2Proof.Machine
end

section
/-! Hints, transfers of control and illegal encodings (O3). -/

namespace Sys2Proof.Machine

/-- The target of a transfer is PC + 2 * sext(IMM) (R39). -/
theorem slotTarget_eq (pc : Word) (imm : BitVec 32) :
    slotTarget pc imm = BitVec.ofInt 64 (pc.toNat + 2 * imm.toInt) := by
  rw [BitVec.ofInt_add, BitVec.ofInt_mul, BitVec.ofInt_natCast, BitVec.ofNat_toNat, BitVec.setWidth_eq]
  rfl

/-- The six conditions of R44. -/
theorem condHolds_iff {code : Nat} (h : code < 6) (x y : Word) :
    condHolds code x y = true ↔ conditionMet code x y := by
  unfold conditionMet
  interval_cases code <;> simp [condHolds]

/-- A transfer after a write of a register: what it leaves is what `call` is to leave (R307). -/
theorem setS_retireTo (s : State) (r : SReg) (v p : Word) :
    let t := (s.setS r v).retireTo p
    OnlyMe s t ∧ RetiredAt s t p ∧ (∀ q, t.sreg q = if q = 0#5 then 0#64 else if q = r then v else s.sreg q) ∧
      t.me.settled = { s.me.settled with s := t.me.s } := by
  intro t
  have hset : (s.setS r v).me = { s.me with s := (s.setS r v).me.s } := by
    rw [State.setS, State.me_updMe]
    exact s.me.setS_other r v
  obtain ⟨honly, hret, hframe⟩ := retireTo_only (s.setS r v) p
  have hs : t.me.s = (s.setS r v).me.s := (congrArg Strand.s hframe :)
  refine ⟨(onlyMe_updMe s _).trans honly, ⟨hret.pc, fun h => ?running, fun h => ?stepped⟩, fun q => ?regs,
    ?frame⟩
  case running =>
    have := hret.running (by rw [hset]; exact h)
    rwa [hset] at this
  case stepped => exact hret.stepped (by rw [hset]; exact h)
  case regs =>
    have : t.sreg q = (s.setS r v).sreg q := by rw [State.sreg, State.sreg, Strand.sreg, Strand.sreg, hs]
    rw [this, State.setS, State.sreg_updMe, Strand.sreg_setS]
    rfl
  case frame => rw [hframe, hs, hset]; rfl

/-- A jump to an even address in a register. -/
theorem jumpTo_even {s : State} {a : Word} (h : a.getLsbD 0 = false) : s.jumpTo a = .ok (s.retireTo a) := by
  rw [State.jumpTo, h]
  rfl

/-- A jump to an odd one. -/
theorem jumpTo_odd {s : State} {a : Word} (h : a.getLsbD 0 = true) : s.jumpTo a = .error (.trap cAlignment a) := by
  rw [State.jumpTo, h]
  rfl

/-- `jmp` and `ret` end with a jump. -/
theorem finish_jumpTo (s : State) (a : Word) :
    (a.getLsbD 0 = false → ∃ t, finish s 0#3 (s.jumpTo a) = .next t ∧ OnlyRetires s t a) ∧
    (a.getLsbD 0 = true → ∃ t, finish s 0#3 (s.jumpTo a) = .next t ∧ Raises s t 0x03 s.me.pc a) := by
  refine ⟨fun h => ?even, fun h => ?odd⟩
  case even =>
    rw [jumpTo_even h, finish_ok]
    exact ⟨_, rfl, retireTo_only s a⟩
  case odd =>
    rw [jumpTo_odd h]
    exact finish_trap_raises s 0#3 cAlignment a (by decide) (by decide) (by decide)

theorem exec_bCond (cond : BitVec 5) (rb rc : SReg) (imm : BitVec 32) (s : State) :
    exec (.bCond cond rb rc imm) s = .next (if condHolds cond.toNat (s.sreg rb) (s.sreg rc)
      then s.retireTo (slotTarget s.me.pc imm) else s.retire) := rfl

/-- Settles O3: hints retire, transfers retire elsewhere or raise ALIGNMENT, illegal encodings raise. -/
theorem hintsTransfersAndIllegalEncodings : Obligations.HintsTransfersAndIllegalEncodings := by
  unfold Obligations.HintsTransfersAndIllegalEncodings
  refine ⟨fun s a w t1 t2 t3 i hi => ?hints,
    fun s rb rc imm => ⟨?b, fun cond hc => ⟨fun h => ?taken, fun h => ?not⟩, ?call, (finish_jumpTo s _).1,
      (finish_jumpTo s _).1⟩,
    fun s rb => ⟨(finish_jumpTo s _).2, (finish_jumpTo s _).2⟩, fun s => ?illegal⟩
  case hints =>
    simp only [List.mem_cons, List.not_mem_nil, or_false] at hi
    rcases hi with rfl | rfl | rfl | rfl | rfl <;> exact ⟨_, rfl, retire_only s⟩
  case b => exact ⟨_, rfl, slotTarget_eq s.me.pc imm ▸ retireTo_only s _⟩
  case taken =>
    refine ⟨_, exec_bCond cond rb rc imm s, ?_⟩
    rw [if_pos ((condHolds_iff hc _ _).2 h), slotTarget_eq]
    exact retireTo_only s _
  case not =>
    refine ⟨_, exec_bCond cond rb rc imm s, ?_⟩
    rw [if_neg (mt (condHolds_iff hc _ _).1 h)]
    exact retire_only s
  case call =>
    obtain ⟨honly, hret, hregs, hframe⟩ := setS_retireTo s 31#5 s.npc (slotTarget s.me.pc imm)
    refine ⟨_, rfl, honly, slotTarget_eq s.me.pc imm ▸ hret, fun r => ?_, hframe⟩
    rw [hregs]
    split_ifs with h0 h31
    · exact absurd (h0 ▸ h31) (by decide)
    · rw [h0]; rfl
    all_goals rfl
  case illegal =>
    exact ⟨_, rfl, raise_raises s cIllegalEncoding s.me.pc s.npc (by decide) (by decide) (by decide)⟩

end Sys2Proof.Machine
end

section
/-! A step runs what it fetched and decoded (O57): the fetch leaves the strands alone, so that the line is run at the
PC it was fetched for. -/

namespace Sys2Proof.Machine

/-! What a fetch leaves alone. -/

/-- The strands, and which of them issues. -/
def State.issuing (s : State) : Table Strand × Nat := (s.strands, s.cur)

theorem issuing_iff {s t : State} : t.issuing = s.issuing ↔ t.strands = s.strands ∧ t.cur = s.cur := Prod.mk_inj

theorem me_of_issuing {s t : State} (h : t.issuing = s.issuing) : t.me = s.me := by
  obtain ⟨hs, hc⟩ := issuing_iff.1 h
  rw [State.me, State.me, State.strand, State.strand, hs, hc]

theorem hbmWrite_issuing (s : State) (key pa : Nat) (l : List Byte) : (s.hbmWrite key pa l).issuing = s.issuing :=
  (congrArg State.issuing (hbmWrite_frame s key pa l).rest :)

theorem hbmSetTag_issuing (s : State) (key pa : Nat) (v : Tag) : (s.hbmSetTag key pa v).issuing = s.issuing :=
  (congrArg State.issuing (rekeyBlock_frame s key (pa / 64)) :)

theorem linkApply_issuing (s : State) (key pa : Nat) (l : List Byte) (tag : Option Tag) :
    (s.linkApply key pa l tag).issuing = s.issuing := by
  cases tag with
  | none => exact hbmWrite_issuing s key pa l
  | some v => exact (hbmSetTag_issuing _ key pa v).trans (hbmWrite_issuing s key pa l)

theorem vineAcceptOne_issuing (s : State) (c : Nat) : (s.vineAcceptOne c).issuing = s.issuing := by
  unfold State.vineAcceptOne
  split
  · rfl
  · exact foldl_keeps State.issuing _ (fun s pa => linkApply_issuing s _ pa _ _) _ s

theorem vineAcceptN_issuing (s : State) (c n : Nat) : (s.vineAcceptN c n).issuing = s.issuing := by
  induction n generalizing s with
  | zero => rfl
  | succ n ih => exact (ih _).trans (vineAcceptOne_issuing s c)

theorem remoteDrain_issuing (s : State) : s.remoteDrain.issuing = s.issuing := by
  change (s.remoteReach s.remote).issuing = s.issuing
  unfold State.remoteReach
  refine foldl_keeps State.issuing _ ?_ s.remote s
  exact fun _ _ => rfl

theorem settleTarget_issuing (s : State) (n : Nat) (x : Target) : (s.settleTarget n x).issuing = s.issuing := by
  cases x with
  | vine c off key => exact vineAcceptN_issuing s c _
  | remote pa gen => exact remoteDrain_issuing s
  | spad | hbm | control | window => rfl

theorem measureFetch_frame (s : State) (t : Nat) (x : Target) :
    { s.measureFetch t x with tenants := s.tenants } = s := by
  unfold State.measureFetch
  dsimp only
  split_ifs <;> rfl

/-- The line a fetch from a target gives. -/
def State.lineRead (s : State) (x : Target) : BitVec 512 :=
  (s.settleTarget s.cur x).lineFor s.me.core s.me.owner.toNat (s.me.pc.toNat / 64)
    (lineBits ((s.settleTarget s.cur x).readTarget (x.down (s.me.pc.toNat % 64)) 64))

/-- The state that fetch leaves. -/
def State.lineHeld (s : State) (x : Target) : State :=
  ((s.settleTarget s.cur x).measureFetch s.me.owner.toNat x).cacheLine s.me.core s.me.owner.toNat
    (s.me.pc.toNat / 64) (s.lineRead x)

theorem lineHeld_issuing (s : State) (x : Target) : (s.lineHeld x).issuing = s.issuing :=
  (congrArg State.issuing (measureFetch_frame (s.settleTarget s.cur x) s.me.owner.toNat x) :).trans
    (settleTarget_issuing s s.cur x)

/-- A fetch translates its address, meets what its target refuses, and reads. -/
theorem fetchLine_eq (s : State) : s.fetchLine = (do
    let x ← s.resolve s.me.owner.toNat s.me.core s.me.pc fetchAccess false
    (s.settleTarget s.cur x).fetchRefuses s.me.core s.me.pc x
    .ok (s.lineRead x, s.lineHeld x)) := rfl

/-- The fetch of a line changes no strand. -/
theorem fetchLine_issuing {s s1 : State} {line : BitVec 512} (h : s.fetchLine = .ok (line, s1)) :
    s1.issuing = s.issuing := by
  rw [fetchLine_eq] at h
  cases hr : s.resolve s.me.owner.toNat s.me.core s.me.pc fetchAccess false with
  | error e =>
    rw [hr] at h
    cases h
  | ok x =>
    rw [hr, ok_bind] at h
    cases hf : (s.settleTarget s.cur x).fetchRefuses s.me.core s.me.pc x with
    | error e =>
      rw [hf] at h
      cases h
    | ok =>
      rw [hf, ok_bind] at h
      cases h
      exact lineHeld_issuing s x

/-! The line that HBM holds. -/

theorem hbmRead_congr {s t : State} (hm : t.mem = s.mem) (hk : t.mkeys = s.mkeys) (ht : t.tick = s.tick)
    (key pa n : Nat) : t.hbmRead key pa n = s.hbmRead key pa n := by
  induction n generalizing pa with
  | zero => rfl
  | succ n ih => rw [State.hbmRead, State.hbmRead, ih, hbmByte_congr hm hk ht]

theorem lineFor_uncached {s : State} {c : Nat} (hi : (s.core c).icache = []) (hr : (s.core c).reserved = [])
    (t line : Nat) (bits : BitVec 512) : s.lineFor c t line bits = bits := by
  rw [State.lineFor, hi, hr]
  rfl

/-- A fetch from HBM, of a line that no cache holds, gives the line's bytes. -/
theorem fetchLine_hbm {s : State} {pa key : Nat} {raced : Bool}
    (hr : s.resolve s.me.owner.toNat s.me.core s.me.pc fetchAccess false = .ok (.hbm pa key raced))
    (hp : s.poisoned (.hbm pa key raced) 2 = false) (hi : (s.core s.me.core).icache = [])
    (hv : (s.core s.me.core).reserved = []) :
    ∃ s1, s.fetchLine = .ok (lineBits (s.hbmRead key (pa - s.me.pc.toNat % 64) 64), s1) ∧
      s1.strands = s.strands ∧ s1.mem = s.mem ∧ s1.cur = s.cur := by
  have hf : s.fetchRefuses s.me.core s.me.pc (.hbm pa key raced) = .ok () := by
    change demand (!s.poisoned (.hbm pa key raced) 2) cUncorrectable s.me.pc = .ok ()
    rw [hp]
    rfl
  have hl : s.lineRead (.hbm pa key raced) = lineBits (s.hbmRead key (pa - s.me.pc.toNat % 64) 64) :=
    lineFor_uncached hi hv _ _ _
  obtain ⟨hs, hc⟩ := issuing_iff.1 (lineHeld_issuing s (.hbm pa key raced))
  refine ⟨s.lineHeld (.hbm pa key raced), ?_, hs, ?_, hc⟩
  · rw [fetchLine_eq, hr, ok_bind, ← hl]
    exact congrArg (· >>= fun _ => Except.ok (s.lineRead (.hbm pa key raced), s.lineHeld (.hbm pa key raced))) hf
  · exact (congrArg State.mem (measureFetch_frame s s.me.owner.toNat (.hbm pa key raced)) :)

/-! Room for an instruction's vector state (R220, R326). -/

theorem makeRoom_cur {fuel c n k : Nat} {s t : State} (h : State.makeRoom fuel s c n = some (k, t)) :
    t.cur = s.cur := by
  induction fuel generalizing s with
  | zero =>
    unfold State.makeRoom at h
    cases hk : s.clusterFor c n <;> simp_all
  | succ fuel ih =>
    unfold State.makeRoom at h
    cases hk : s.clusterFor c n with
    | some k' => simp_all
    | none =>
      rw [hk] at h
      dsimp only at h
      split at h
      · cases h
      · exact (ih h :)

theorem withRoom_cur {s t : State} {i : Instr} (h : s.withRoom i = some t) : t.cur = s.cur := by
  unfold State.withRoom State.takeRoom at h
  split_ifs at h
  · rw [Option.some.inj h]
  · split at h
    · cases h
    · rename_i he
      rw [← Option.some.inj h]
      exact (makeRoom_cur he :)

theorem withRoom_awaits {s : State} {i : Instr} (h : s.awaitsK15 i = true) : s.withRoom i = none := by
  rw [State.withRoom, if_pos h]

theorem withRoom_ready {s : State} {i : Instr} (h : s.awaitsK15 i = false)
    (hv : usesVectorUnit i = false ∨ s.me.vres = true) : s.withRoom i = some s := by
  rw [State.withRoom, h]
  rcases hv with hv | hv <;> simp [hv]

/-! Running the line (R36 to R39). -/

theorem eq_and_not_iff {w : Nat} (x m : BitVec w) : x = x &&& ~~~m ↔ x &&& m = 0#w := by
  constructor
  · intro h
    rw [h, BitVec.and_assoc, BitVec.and_comm (~~~m), BitVec.and_not_self]
    exact BitVec.and_zero
  · intro h
    ext i hi
    have hb : (x[i] && m[i]) = false := by rw [← BitVec.getElem_and, h, BitVec.getElem_zero]
    rw [BitVec.getElem_and, BitVec.getElem_not]
    cases hx : x[i] <;> simp_all

/-- An address is that of its line when its offset in the line is 0 (R32). -/
theorem lineBase_eq_iff (pc : Word) : pc = pc &&& ~~~63#64 ↔ pc.toNat % 64 = 0 := by
  have low : (pc &&& 63#64).toNat = pc.toNat % 64 := Nat.and_two_pow_sub_one_eq_mod pc.toNat 6
  rw [eq_and_not_iff, ← low, ← BitVec.toNat_inj]
  rfl

theorem runLine_instr {s : State} {line : BitVec 512} {i : Instr} {next : Word} {n : Nat} (hn : s.cur = n)
    (h : fetchFrom line (s.me.pc &&& ~~~63#64) (s.me.pc.toNat % 64) = .instr i next) :
    (∀ s2, s.withRoom i = some s2 → s.runLine line =
      onNext (fun v => (v.stepWait i).leaveLine i n s.me.pc) (exec i { s2 with npc := next })) ∧
    (s.withRoom i = none → s.runLine line = .next s) := by
  refine ⟨fun s2 h2 => ?_, fun h2 => ?_⟩
  · rw [State.runLine]
    dsimp only
    rw [h]
    dsimp only
    rw [h2]
    dsimp only
    rw [withRoom_cur h2, hn]
  · rw [State.runLine]
    dsimp only
    rw [h]
    dsimp only
    rw [h2]

theorem runLine_illegal {s : State} {line : BitVec 512}
    (h : fetchFrom line (s.me.pc &&& ~~~63#64) (s.me.pc.toNat % 64) = .illegal) :
    s.runLine line = exec .illegalEncoding { s with
      npc := if slotAt line (s.me.pc.toNat % 64 / 2) = .endMarker false ∧ s.me.inSequence = false
        then s.me.pc else 0#64 } := by
  rw [State.runLine]
  dsimp only
  rw [h]
  simp only [Bool.and_eq_true, beq_iff_eq, Bool.not_eq_true']

theorem runLine_notHead {s : State} {line : BitVec 512}
    (h : fetchFrom line (s.me.pc &&& ~~~63#64) (s.me.pc.toNat % 64) = .notHead) :
    s.runLine line =
      if s.me.inSequence = true ∧ s.me.pc.toNat % 64 = 0 ∧ slotAt line 0 = .endMarker true then
        .next (s.updMe fun x => { x with pc := s.me.pc + 64#64 })
      else exec .illegalEncoding { s with npc := s.me.pc } := by
  rw [State.runLine]
  dsimp only
  rw [h]
  dsimp only
  simp only [lineBase_eq_iff]
  split
  · rename_i hc
    rw [← (lineBase_eq_iff _).2 hc.2.1]
  · rfl

/-! The step. -/

theorem runNext_ok {s s1 : State} {line : BitVec 512} (h : s.fetchLine = .ok (line, s1)) :
    s.runNext = s1.runLine line := by
  rw [State.runNext, h]

/-- What follows a strand's issue in a step: the region it may open, the STOP it heeds, time (R67, R178, log 8). -/
def State.afterIssue (s : State) (n : Nat) (r : Host.Outcome State Fault Refusal) :
    Host.Outcome State Fault Refusal :=
  onNext State.elapse (onNext (fun v : State => { v with failing := [] }) (onNext (fun v => s.issued v n) r))

theorem issue_ready {s : State} {n : Nat} (hc : s.canIssue n = true) (hw : (s.strand n).wait = .none) :
    s.issue n = onNext (fun t => State.issued { s with cur := n } t n) (State.runNext { s with cur := n }) := by
  have hw' : (State.me { s with cur := n }).wait = .none := hw
  unfold State.issue
  rw [if_neg (by rw [hc]; decide)]
  dsimp only
  rw [hw']

theorem perform_running {s : State} (h : s.halted = false) (n : Nat) :
    s.perform (.issue n) = onNext (fun t : State => { t with failing := [] }) (s.issue n) ∧
    ∀ i, s.perform (.event i) = s.event i := by
  unfold State.perform
  rw [h]
  exact ⟨rfl, fun _ => rfl⟩

theorem event_taken {s : State} {i : Instr} (he : isEvent i = true) (hw : i.wf = true) (hh : s.halted = false) :
    s.event i = exec i s := by
  unfold State.event
  rw [he, hw, hh]
  split <;> rfl

theorem halted_of_canIssue {s : State} {n : Nat} (h : s.canIssue n = true) : s.halted = false := by
  unfold State.canIssue at h
  simp only [Bool.and_eq_true, Bool.not_eq_true'] at h
  obtain ⟨⟨hh, -⟩, -⟩ := h
  exact hh

theorem step_agenda {s : State} {a : Action} {rest : List Action} (h : s.agenda = a :: rest) :
    step s = onNext State.elapse (State.perform { s with agenda := rest } a) := by
  rw [step, State.move, h]

theorem step_issue {s : State} {rest : List Action} {n : Nat} (ha : s.agenda = .issue n :: rest)
    (hc : s.canIssue n = true) (hw : (s.strand n).wait = .none) :
    step s = State.afterIssue { s with agenda := rest, cur := n } n
      (State.runNext { s with agenda := rest, cur := n }) := by
  rw [step_agenda ha, (perform_running (s := { s with agenda := rest }) (halted_of_canIssue hc) n).1,
    issue_ready (s := { s with agenda := rest }) hc hw]
  rfl

theorem step_event {s : State} {rest : List Action} {i : Instr} (ha : s.agenda = .event i :: rest)
    (he : isEvent i = true) (hw : i.wf = true) (hh : s.halted = false) :
    step s = onNext State.elapse (exec i { s with agenda := rest }) := by
  rw [step_agenda ha, (perform_running (s := { s with agenda := rest }) hh 0).2,
    event_taken (s := { s with agenda := rest }) he hw hh]

/-- Settles O57: the step of a strand that may issue is its fetch, then the line that it fetched. -/
theorem stepRunsDecoded : Obligations.StepRunsDecoded := by
  unfold Obligations.StepRunsDecoded
  refine fun s rest => ⟨fun n ha hc hw => ?issue, fun i ha he hwf hh => step_event ha he hwf hh⟩
  intro u pc after
  refine ⟨fun line s1 hf => ?runs, fun pa key raced hr _ hp hi hv => ?fetched⟩
  case fetched =>
    obtain ⟨s1, hl, hs, hm, hcur⟩ := fetchLine_hbm (s := u) hr hp hi hv
    rw [hbmRead_congr (s := s) (t := u) rfl rfl rfl] at hl
    exact ⟨s1, hl, hs, hm, hcur⟩
  case runs =>
    have hrun : step s = after (s1.runLine line) := by
      rw [step_issue ha hc hw, runNext_ok hf]
      rfl
    have hcur : s1.cur = n := (issuing_iff.1 (fetchLine_issuing hf)).2
    have hpc : pc = s1.me.pc := by rw [me_of_issuing (fetchLine_issuing hf)]
    clear_value pc
    subst hpc
    refine ⟨fun i next h => ?instr, fun h => ?illegal, fun h => ?notHead⟩
    case instr =>
      obtain ⟨hroom, hnone⟩ := runLine_instr hcur h
      exact ⟨fun s2 h2 => hrun.trans (congrArg after (hroom s2 h2)), fun h2 => hrun.trans (congrArg after (hnone h2)),
        withRoom_awaits, withRoom_ready⟩
    case illegal =>
      rw [hrun, runLine_illegal h]
      refine ⟨fun hs => ?_, fun hm hq => ?_⟩
      · rw [if_neg]
        rintro ⟨hm, hq⟩
        rcases hs with hs | hs
        · exact hs hm
        · exact absurd (hs.symm.trans hq) (by decide)
      · rw [if_pos ⟨hm, hq⟩]
    case notHead =>
      rw [hrun, runLine_notHead h]
      refine ⟨fun hs => ?_, fun hm h0 hq => ?_⟩
      · rw [if_neg]
        rintro ⟨hq, h0, hm⟩
        rcases hs with hs | hs | hs
        · exact hs hm
        · exact hs h0
        · exact absurd (hs.symm.trans hq) (by decide)
      · rw [if_pos ⟨hq, h0, hm⟩]

end Sys2Proof.Machine
end

section
/-! Control stores and control accesses: which page an address lies on, and what an agent's store comes to once it is
carried and its page is free. -/

namespace Sys2Proof.Machine

/-! The page of an address (R52). -/

theorem pageOf_strandPage {n off : Nat} (hn : n < 65536) (ho : off < 131072) :
    pageOf (strandPage n + off) = some (.strand n off) := by
  unfold pageOf strandPage kindTableEnd
  rw [if_neg (by omega), if_neg (by omega), if_neg (by omega), if_neg (by omega), if_neg (by omega), if_pos (by omega),
    Option.some.injEq, Page.strand.injEq]
  omega

theorem pageOf_tenantPage {t off : Nat} (ht : t < 256) (ho : off < 65536) :
    pageOf (tenantPage t + off) = some (.tenant t off) := by
  unfold pageOf tenantPage kindTableEnd
  rw [if_neg (by omega), if_neg (by omega), if_neg (by omega), if_pos (by omega), Option.some.injEq, Page.tenant.injEq]
  omega

theorem pageOf_hubPage {off : Nat} (ho : off < 65536) : pageOf (hubPage + off) = some (.hub off) := by
  unfold pageOf hubPage kindTableEnd
  rw [if_neg (by omega), if_neg (by omega), if_pos (by omega), Nat.add_sub_cancel_left]

theorem pageOf_kindTable {pa : Nat} (h1 : controlBase ≤ pa) (h2 : pa < kindTableEnd) :
    pageOf pa = some (.kinds (8 * (pa / 8))) := by
  rw [controlBase] at h1
  rw [pageOf, if_pos ⟨h1, h2⟩]

/-! An agent's store (R60, R62). -/

/-- A store that is carried and accepted: its action, and what it leaves of the strand that made it. -/
theorem agentAct_ok {s t : State} {who : Agent} {pa : Nat} {v : Word} {act : State → Except Nat State}
    (h : s.admits who pa v) (ha : act s = .ok t) : s.agentAct who pa v act = t.storedFor who pa := by
  obtain ⟨hp, h⟩ := h
  cases who with
  | host =>
    obtain ⟨hl, hb, hq⟩ := h
    simp only [agentOf] at hp
    simp [State.agentAct, State.hostReaches, State.hostWaits, hl, hb, hp, hq, ha, State.storedFor]
  | strand n =>
    simp only [agentOf] at hp
    simp [State.agentAct, h, hp, ha, State.storedFor]

/-- A store that is carried and refused: the host's is counted (R62), a strand's leaves no trace (log 41). -/
theorem agentAct_error {s : State} {who : Agent} {pa c : Nat} {v : Word} {act : State → Except Nat State}
    (h : s.admits who pa v) (ha : act s = .error c) :
    s.agentAct who pa v act = if who = .host then { s with hosterr := s.hosterr + 1#32 } else s := by
  obtain ⟨hp, h⟩ := h
  cases who with
  | host =>
    obtain ⟨hl, hb, hq⟩ := h
    simp only [agentOf] at hp
    simp [State.agentAct, State.hostReaches, State.hostWaits, hl, hb, hp, hq, ha, State.hostRefused]
  | strand n =>
    simp only [agentOf] at hp
    simp [State.agentAct, h, hp, ha]

theorem agentStore_ok {s t : State} {who : Agent} {pa : Nat} {v : Word} (h : s.admits who pa v) (hpa : pa % 8 = 0)
    (hc : s.controlStore (agentOf who) pa v = .ok t) : s.agentStore who pa v = t.storedFor who pa := by
  rw [State.agentStore, if_neg (not_not.2 hpa)]
  exact agentAct_ok h hc

theorem agentStore_error {s : State} {who : Agent} {pa c : Nat} {v : Word} (h : s.admits who pa v) (hpa : pa % 8 = 0)
    (hc : s.controlStore (agentOf who) pa v = .error c) :
    s.agentStore who pa v = if who = .host then { s with hosterr := s.hosterr + 1#32 } else s := by
  rw [State.agentStore, if_neg (not_not.2 hpa)]
  exact agentAct_error h hc

/-- A store at an odd address is refused, whatever its page would do with it. -/
theorem agentStore_misaligned {s : State} {who : Agent} {pa : Nat} {v : Word} (h : s.admits who pa v)
    (hpa : pa % 8 ≠ 0) :
    s.agentStore who pa v = if who = .host then { s with hosterr := s.hosterr + 1#32 } else s := by
  rw [State.agentStore, if_pos hpa]
  exact agentAct_error h rfl

end Sys2Proof.Machine
end

section
/-! The host's port (O52): what an access, a configuration write, the link and a hot reset do (R62, R224 to R228). -/

namespace Sys2Proof.Machine

/-! An access on its way to the package (R227). -/

theorem hostAccess_down {s : State} (h : s.linkUp = false) (a : HostAccess) : s.hostAccess a = s := by
  simp [State.hostAccess, State.hostReaches, h]

/-- The first access in line is performed at once, unless its page is held. -/
theorem hostAccess_first {s : State} (h : s.linkUp = true) (hq : s.hostQueue = []) (a : HostAccess) :
    s.hostAccess a = (s.hostPerform a).getD { s with hostQueue := [a] } := by
  cases hp : s.hostPerform a <;> simp [State.hostAccess, State.hostReaches, State.hostQueued, h, hq, hp]

theorem hostAccess_behind {s : State} (h : s.linkUp = true) (hq : s.hostQueue ≠ []) (a : HostAccess) :
    s.hostAccess a = { s with hostQueue := s.hostQueue ++ [a] } := by
  simp [State.hostAccess, State.hostReaches, h, hq, State.hostQueued]

/-! BAR 0 (R62, R288). -/

/-- An access of BAR 0 that is one of R62: 8 aligned bytes of the control region. -/
def bar0Ok (offset size : Nat) : Prop := size = 8 ∧ offset % 8 = 0 ∧ offset < 2 ^ 34

section
variable {s t : State} {offset size c : Nat} {v : Word}

theorem hostControl_malformed (h : ¬ bar0Ok offset size) :
    s.hostControl offset size (some v) = some s.hostRefused ∧ s.hostControl offset size none = some (s.hostOnes size) := by
  have hd : decide (size = 8 ∧ offset % 8 = 0 ∧ offset < 2 ^ 34) = false := decide_eq_false h
  simp only [State.hostControl, hd]
  exact ⟨rfl, rfl⟩

theorem hostControl_unbooted (h : s.booted = false) : s.hostControl offset 8 (some v) = some s.hostRefused ∧
    (offset ≠ bootOffset → s.hostControl offset 8 none = some (s.hostOnes 8)) := by
  simp only [State.hostControl, h]
  exact ⟨if_pos (.inr rfl), fun hb => if_pos (.inr ⟨rfl, hb⟩)⟩

theorem hostControl_write (h : bar0Ok offset size) (hb : s.booted = true) :
    (s.pageHeld none (controlBase + offset) v = true → s.hostControl offset size (some v) = none) ∧
    (s.pageHeld none (controlBase + offset) v = false →
      (s.controlStore none (controlBase + offset) v = .ok t → s.hostControl offset size (some v) = some t) ∧
      (s.controlStore none (controlBase + offset) v = .error c →
        s.hostControl offset size (some v) = some s.hostRefused)) := by
  have hd : decide (size = 8 ∧ offset % 8 = 0 ∧ offset < 2 ^ 34) = true := decide_eq_true h
  simp only [State.hostControl, hd, hb]
  refine ⟨fun hh => ?_, fun hh => ⟨fun hc => ?_, fun hc => ?_⟩⟩
  · rw [hh]; rfl
  · rw [hh, hc]; rfl
  · rw [hh, hc]; rfl

/-- A read that is carried: of any word once the package has booted, of BOOT always. -/
theorem hostControl_read (h : bar0Ok offset size) (hb : s.booted = true ∨ offset = bootOffset)
    (hh : s.areaHeld (controlBase + offset) = false) :
    (s.controlLoad (controlBase + offset) = .ok (v, t) →
      s.hostControl offset size none = some (t.hostAnswers (bytesOf 8 v.toNat))) ∧
    (s.controlLoad (controlBase + offset) = .error c → s.hostControl offset size none = some (s.hostOnes size)) := by
  have hd : decide (size = 8 ∧ offset % 8 = 0 ∧ offset < 2 ^ 34) = true := decide_eq_true h
  have carried : ¬ ((!true) = true ∨ (!s.booted) = true ∧ offset ≠ bootOffset) := by
    rintro (h | ⟨h1, h2⟩)
    · exact nomatch h
    · rcases hb with hb | hb
      · rw [hb] at h1; exact nomatch h1
      · exact h2 hb
  simp only [State.hostControl, hd]
  rw [if_neg carried, hh]
  exact ⟨fun hc => by rw [hc]; rfl, fun hc => by rw [hc]; rfl⟩

end

theorem bootWord_toNat (p : BitVec 4) (r : BitVec 8) :
    (fields [(0, p.toNat), (8, r.toNat)]).toNat = p.toNat + 256 * r.toNat := by
  have hp := p.isLt
  have hr := r.isLt
  have h : fields [(0, p.toNat), (8, r.toNat)] = BitVec.ofNat 64 p.toNat ||| BitVec.ofNat 64 (2 ^ 8 * r.toNat) := by
    simp [fields, Nat.mul_comm]
  rw [h, BitVec.toNat_or, BitVec.toNat_ofNat, BitVec.toNat_ofNat, Nat.mod_eq_of_lt (by omega), Nat.mod_eq_of_lt (by omega),
    Nat.lor_comm, ← Nat.two_pow_add_eq_or_of_lt (by omega : p.toNat < 2 ^ 8)]
  omega

/-- BOOT, the word that the host reads at any time (R293). -/
theorem hostControl_boot (s : State) : s.hostControl 0x1044000 8 none =
    some (s.hostAnswers (bytesOf 8 (s.bootPhase.toNat + 256 * s.bootResult.toNat))) := by
  have hp : pageOf (controlBase + 0x1044000) = some (.hub 0x4000) := by decide
  have hh : s.areaHeld (controlBase + 0x1044000) = false := by rw [State.areaHeld, hp]
  have hc : s.controlLoad (controlBase + 0x1044000) =
      .ok (fields [(0, s.bootPhase.toNat), (8, s.bootResult.toNat)], s) := by rw [State.controlLoad, hp]; rfl
  have h := (hostControl_read (size := 8) (c := 0) ⟨rfl, by decide, by decide⟩ (.inr rfl) hh).1 hc
  rwa [bootWord_toNat] at h

/-! BAR 2 (R226, R288). -/

theorem hostBytes_refused {s : State} {offset size : Nat} {d : Option (List Byte)}
    (h : s.booted = false ∨ (s.spanCause offset size d.isSome false).isSome = true) :
    s.hostBytes offset size d = if d.isSome then s.hostRefused else s.hostOnes size := by
  have : (!s.booted || (s.spanCause offset size d.isSome false).isSome) = true := by
    rcases h with h | h <;> simp [h]
  cases d <;> simp only [State.hostBytes, this] <;> rfl

theorem hostBytes_read {s : State} {offset size : Nat} (hb : s.booted = true)
    (h : s.spanCause offset size false false = none) :
    s.hostBytes offset size none = s.hostAnswers (s.hbmRead (s.keyName 0) offset size) := by
  simp [State.hostBytes, hb, h]

theorem hostBytes_write {s : State} {offset size : Nat} {l : List Byte} (hb : s.booted = true)
    (h : s.spanCause offset size true false = none) (hl : l.length = size) :
    s.hostBytes offset size (some l) = s.hbmWrite (s.keyName 0) offset l := by
  subst hl
  simp [State.hostBytes, hb, h]

/-! The function's configuration and its messages (R224, R225). -/

theorem msixOpen_iff (s : State) (e : Nat) : s.msixOpen e = true ↔ s.linkUp = true ∧ s.busMaster = true ∧
    (lookupD s.msixTable (2 * e + 1) (msixReset (2 * e + 1))).getLsbD 32 = false := by
  simp [State.msixOpen, and_assoc]

theorem exec_hotReset {s : State} (h : s.requests = []) : exec .hotReset s = .next { s with
    linkUp := false, busMaster := false, atomen := false, link := 0#16, msixTable := []
    bars := Vector.replicate 3 0#64, devctl2 := 0#16, hostQueue := [] } := by
  change Host.Outcome.next (State.failRequests _) = _
  simp only [State.failRequests, h, List.zipIdx_nil, List.foldl_nil]

theorem exec_msixPendingSend_closed {s : State} (h : s.busMaster = false) : exec .msixPendingSend s = .next s := by
  have hc (e : Nat) : ¬ s.msixOpen e = true := by simp [State.msixOpen, h]
  change Host.Outcome.next { s with
    msixSent := s.msixSent ++ s.msixPending.filter s.msixOpen
    msixPending := s.msixPending.filter fun e => !s.msixOpen e } = _
  rw [List.filter_eq_nil_iff.2 fun e _ => hc e, List.filter_eq_self.2 fun e _ => by simp [hc e], List.append_nil]

theorem exec_msixPendingSend_open {s : State} (h : ∀ e ∈ s.msixPending, s.msixOpen e = true) :
    exec .msixPendingSend s =
      .next { s with msixSent := s.msixSent ++ s.msixPending, msixPending := [] } := by
  change Host.Outcome.next { s with
    msixSent := s.msixSent ++ s.msixPending.filter s.msixOpen
    msixPending := s.msixPending.filter fun e => !s.msixOpen e } = _
  rw [List.filter_eq_self.2 h, List.filter_eq_nil_iff.2 fun e he => by simp [h e he]]

theorem exec_atomicopRequesterEnable {s : State} (h : s.linkUp = true) : exec .atomicopRequesterEnable s =
    .next { s with devctl2 := s.devctl2 ||| 0x40#16, atomen := true } := by
  have hb : (s.devctl2 ||| 0x40#16).getLsbD 6 = true := by simp
  change Host.Outcome.next (s.hostDevCtl2 _) = _
  rw [State.hostDevCtl2, State.hostReaches, h, hb]
  rfl

/-- Settles O52: an access that arrives first is performed or waits for its page, one that arrives behind others waits,
and the configuration writes act on the port alone. -/
theorem hostPortEvents : Obligations.HostPortEvents := by
  unfold Obligations.HostPortEvents
  intro s offset size v l link counted answers ones pa
  have bar0 (o n d) : exec (.hostBar0Access o n d) s = .next (s.hostAccess (.control o n d)) := rfl
  have bar2 (o n d) : exec (.hostBar2Access o n d) s = .next (s.hostAccess (.memory o n d)) := rfl
  refine ⟨fun hl => ⟨fun hq => ?first, fun hq => ?behind, ?atomicop, ?enable, exec_atomicopRequesterEnable hl,
      fun hm hp => ?send⟩,
    fun hl => ?down, exec_msixPendingSend_closed, rfl, rfl, exec_hotReset⟩
  case first =>
    have now0 {o n d t} (h : s.hostControl o n d = some t) : exec (.hostBar0Access o n d) s = .next t := by
      rw [bar0, hostAccess_first hl hq, State.hostPerform, h, Option.getD_some]
    have now2 (o n d) : exec (.hostBar2Access o n d) s = .next (s.hostBytes o n d) := by
      rw [bar2, hostAccess_first hl hq, State.hostPerform, Option.getD_some]
    refine ⟨fun h => ?malformed, fun hs ho hlt => ⟨fun hb => ?unbooted, fun hb => ⟨fun hh => ?write, fun hh => ?read,
      fun hh => ?held⟩⟩, now0 (hostControl_boot s), fun hb hc hn => ?write2, fun hb hc => ?read2, fun h => ?refused2,
      fun h => ?ones2⟩
    case malformed =>
      obtain ⟨hw, hr⟩ := hostControl_malformed (s := s) (v := v) (offset := offset) (size := size)
        (by rintro ⟨h1, h2, h3⟩; omega)
      exact ⟨now0 hr, now0 hw⟩
    case unbooted =>
      obtain ⟨hw, hr⟩ := hostControl_unbooted (offset := offset) (v := v) hb
      refine ⟨now0 hw, fun hne => ?_⟩
      subst hs
      exact now0 (hr hne)
    case write =>
      exact ⟨fun t ht => now0 (((hostControl_write (c := 0) ⟨rfl, ho, hlt⟩ hb).2 hh).1 ht),
        fun c hc => now0 (((hostControl_write (t := s) ⟨rfl, ho, hlt⟩ hb).2 hh).2 hc)⟩
    case read =>
      refine ⟨fun w t ht => now0 ((hostControl_read (c := 0) ⟨rfl, ho, hlt⟩ (.inl hb) hh).1 ht), fun c hc => ?_⟩
      subst hs
      exact now0 ((hostControl_read (t := s) (v := v) ⟨rfl, ho, hlt⟩ (.inl hb) hh).2 hc)
    case held =>
      rw [bar0, hostAccess_first hl hq, State.hostPerform, (hostControl_write (t := s) (c := 0) ⟨rfl, ho, hlt⟩ hb).1 hh,
        Option.getD_none]
    case write2 =>
      refine ⟨_, (now2 ..).trans (by rw [hostBytes_write hb hc hn]), hbmWrite_stored s _ offset l, ?_⟩
      exact (congrArg State.strands (hbmWrite_frame s (s.keyName 0) offset l).rest :)
    case read2 => exact (now2 ..).trans (by rw [hostBytes_read hb hc]; rfl)
    case refused2 => exact (now2 ..).trans (by rw [hostBytes_refused h]; rfl)
    case ones2 => exact (now2 ..).trans (by rw [hostBytes_refused h]; rfl)
  case behind => exact ⟨fun d => by rw [bar0, hostAccess_behind hl hq], fun d => by rw [bar2, hostAccess_behind hl hq]⟩
  case atomicop =>
    exact congrArg Host.Outcome.next (if_pos hl)
  case enable => rw [← hl]; rfl
  case send => exact exec_msixPendingSend_open fun e he => (msixOpen_iff s e).2 ⟨hl, hm, hp e he⟩
  case down => exact ⟨fun d => by rw [bar0, hostAccess_down hl], fun d => by rw [bar2, hostAccess_down hl]⟩

end Sys2Proof.Machine
end

section
/-! Other packages (O54): peers that come and go, what is in flight to them, and what they ask for (R61, R234 to R237,
R242). -/

namespace Sys2Proof.Machine

/-! Stores in flight to another package (R236, R237). -/

/-- A strand with one more lost store in RSTAT, the first one's address in RADDR (R237). -/
def Strand.countLost (x : Strand) (va : Word) : Strand :=
  { x with
    rCount := satAdd x.rCount 1, rCause := 0x11#8
    raddr := if x.rCount = 0#16 then va.setWidth 57 else x.raddr }

theorem remoteLost_strand (s : State) (n k : Nat) (va : Word) :
    (s.remoteLost n va).strand k = if k = n then (s.strand n).countLost va else s.strand k :=
  s.strand_updStrand n k _

/-- No store in flight passes the test: nothing is lost. -/
theorem loseRemote_none {s : State} {p : RemoteStore → Bool} (h : ∀ e ∈ s.remote, p e.2 = false) :
    s.loseRemote p = s := by
  rw [State.loseRemote, List.filter_eq_nil_iff.2 fun e he => by simp [h e he]]
  rfl

/-- The one store in flight is lost. -/
theorem loseRemote_one {s : State} {p : RemoteStore → Bool} {id : Nat} {r : RemoteStore} (h : s.remote = [(id, r)])
    (hb : r.bytes ≠ []) (hp : p r = true) :
    s.loseRemote p = ({ s with remote := [] } : State).remoteLost r.strand r.va := by
  simp [State.loseRemote, h, hp, removeAt, hb]

theorem loseRemote_peers (s : State) (p : RemoteStore → Bool) : (s.loseRemote p).peers = s.peers ∧
    (s.loseRemote p).stale = s.stale ∧ (s.loseRemote p).peerActs = s.peerActs := by
  have keeps := foldl_keeps (fun t : State => (t.peers, t.stale, t.peerActs))
    (fun s (e : Nat × RemoteStore) =>
      let s := { s with remote := removeAt s.remote e.1 }
      if e.2.bytes.isEmpty then s else s.remoteLost e.2.strand e.2.va)
    (fun t e => by dsimp only; split <;> rfl) (s.remote.filter fun e => p e.2) s
  simpa [State.loseRemote, Prod.mk.injEq] using keeps

/-! Control stores that wait for their action in another package (R61, R236). -/

/-- A strand waits for the action of a control store at an address of package `p`, or for a seal record there. -/
def Strand.awaitsPeer (x : Strand) (p pa : Nat) (va : Word) : Prop :=
  pkgOf pa = p ∧ (x.wait = .peerAct pa va ∨ ∃ rd npc, x.wait = .peerSeal pa va rd npc)

/-- One strand's share in what `State.losePeerActs` does. -/
def State.losePeerAct (p : Nat) (t : State) (e : Nat × Strand) : State :=
  match e.2.wait with
  | .peerAct pa va | .peerSeal pa va _ _ => if pkgOf pa = p then t.remoteLost e.1 va else t
  | .none | .act _ | .window | .cancel _ | .sealClose _ _ _ | .rollback | .stopping => t

theorem losePeerActs_eq (s : State) (p : Nat) : s.losePeerActs p =
    { s.strands.foldl (State.losePeerAct p) s with
      peerActs := (s.strands.foldl (State.losePeerAct p) s).peerActs.filter fun pa => pkgOf pa != p } := rfl

theorem losePeerAct_idle {p : Nat} {e : Nat × Strand} (h : ∀ pa va, ¬ e.2.awaitsPeer p pa va) (t : State) :
    t.losePeerAct p e = t := by
  unfold State.losePeerAct
  split
  · next pa va hw => exact if_neg fun hp => h pa va ⟨hp, .inl hw⟩
  · next pa va rd npc hw => exact if_neg fun hp => h pa va ⟨hp, .inr ⟨rd, npc, hw⟩⟩
  all_goals rfl

theorem losePeerAct_waiting {p pa : Nat} {va : Word} {e : Nat × Strand} (h : e.2.awaitsPeer p pa va) (t : State) :
    t.losePeerAct p e = t.remoteLost e.1 va := by
  obtain ⟨hp, hw | ⟨rd, npc, hw⟩⟩ := h
  · simp only [State.losePeerAct, hw, if_pos hp]
  · simp only [State.losePeerAct, hw, if_pos hp]

theorem losePeerAct_peers (p : Nat) (t : State) (e : Nat × Strand) :
    ((t.losePeerAct p e).peers, (t.losePeerAct p e).stale) = (t.peers, t.stale) := by
  unfold State.losePeerAct
  split
  · split <;> rfl
  · split <;> rfl
  all_goals rfl

theorem losePeerActs_peers (s : State) (p : Nat) :
    (s.losePeerActs p).peers = s.peers ∧ (s.losePeerActs p).stale = s.stale := by
  have keeps := foldl_keeps (fun t : State => (t.peers, t.stale)) _ (losePeerAct_peers p) s.strands s
  rw [losePeerActs_eq]
  exact Prod.mk_inj.1 keeps

/-- After it, no control word of the package has an action under way. -/
theorem losePeerActs_over {s : State} {p pa : Nat} (h : pa ∈ (s.losePeerActs p).peerActs) : pkgOf pa ≠ p := by
  rw [losePeerActs_eq] at h
  simpa using (List.mem_filter.1 h).2

theorem foldl_losePeerAct_idle {p : Nat} {l : List (Nat × Strand)} (h : ∀ e ∈ l, ∀ pa va, ¬ e.2.awaitsPeer p pa va)
    (t : State) : l.foldl (State.losePeerAct p) t = t := by
  induction l generalizing t with
  | nil => rfl
  | cons e r ih =>
    rw [List.foldl_cons, losePeerAct_idle (h e List.mem_cons_self), ih fun e he => h e (List.mem_cons_of_mem _ he)]

/-- Of strands with different numbers only strand `n` waits: it alone counts a lost store. -/
theorem foldl_losePeerAct_one {p n pa : Nat} {va : Word} {l : Table Strand}
    (hc : l.countP (fun e => e.1 == n) = 1) (hw : (lookupD l n Strand.empty).awaitsPeer p pa va)
    (h : ∀ e ∈ l, e.1 ≠ n → ∀ pa va, ¬ e.2.awaitsPeer p pa va) (t : State) :
    l.foldl (State.losePeerAct p) t = t.remoteLost n va := by
  induction l generalizing t with
  | nil => exact nomatch hc
  | cons e r ih =>
    obtain ⟨j, x⟩ := e
    have hr := fun e he => h e (List.mem_cons_of_mem (j, x) he)
    by_cases hj : j = n
    · subst hj
      have none_left : ∀ e ∈ r, e.1 ≠ j := by simpa [List.countP_eq_zero] using hc
      rw [lookupD, if_pos rfl] at hw
      rw [List.foldl_cons, losePeerAct_waiting (e := (j, x)) hw,
        foldl_losePeerAct_idle fun e he => hr e he (none_left e he)]
    · rw [lookupD, if_neg hj] at hw
      rw [List.foldl_cons, losePeerAct_idle (h (j, x) List.mem_cons_self hj)]
      exact ih (by simpa [hj] using hc) hw hr t

theorem losePeerActs_idle {s : State} {p : Nat} (h : ∀ e ∈ s.strands, ∀ pa va, ¬ e.2.awaitsPeer p pa va) :
    s.losePeerActs p = { s with peerActs := s.peerActs.filter fun pa => pkgOf pa != p } := by
  rw [losePeerActs_eq, foldl_losePeerAct_idle h]

theorem losePeerActs_one {s : State} {p n pa : Nat} {va : Word} (hc : s.strands.countP (fun e => e.1 == n) = 1)
    (hw : (s.strand n).awaitsPeer p pa va) (h : ∀ e ∈ s.strands, e.1 ≠ n → ∀ pa va, ¬ e.2.awaitsPeer p pa va) :
    s.losePeerActs p =
      { s.remoteLost n va with peerActs := s.peerActs.filter fun pa => pkgOf pa != p } := by
  rw [losePeerActs_eq, foldl_losePeerAct_one hc hw h]
  rfl

/-! A peer comes or goes (R235). -/

theorem setPeer_peer (s : State) (p k : Nat) (x : Peer) :
    (s.setPeer p x).peer k = if k = p then x else s.peer k := lookupD_insertAt s.peers p k x _

/-- PEER `p` is `x`, and the entries that name the package are kept by no holder if that is news. -/
def State.forgot (s t : State) (p : Nat) (x : Peer) : Prop :=
  t.peer p = x ∧ (∀ k, k ≠ p → t.peer k = s.peer k) ∧
  t.stale = if s.peer p = x then s.stale else s.stale.filter fun e => !leafNames e.old p

theorem forgot_setPeer {s t : State} {p : Nat} {x : Peer} (h : t.peers = (s.setPeer p x).peers)
    (hs : t.stale = (s.setPeer p x).stale) : s.forgot t p x := by
  have hp (k : Nat) : t.peer k = (s.setPeer p x).peer k := by rw [State.peer, h]; rfl
  exact ⟨by rw [hp, setPeer_peer, if_pos rfl], fun k hk => by rw [hp, setPeer_peer, if_neg hk], hs⟩

/-! The events of a peer and of its link: what is in flight to it is lost (R236). -/

theorem exec_peerUp (s : State) (p : Nat) (gen : BitVec 32) : exec (.peerUp p gen) s =
    .next ((if (s.peer p).gen = gen then s.setPeer p { state := 1#2, gen := gen }
      else (s.setPeer p { state := 1#2, gen := gen }).losePeerActs p).loseRemote
        fun r => pkgOf r.pa == p && r.gen != gen) := rfl

theorem exec_peerStateGone (s : State) (p : Nat) : exec (.peerStateGone p) s =
    .next ((((s.setPeer p { state := 2#2, gen := (s.peer p).gen }).losePeerActs p).loseRemote
      fun r => pkgOf r.pa == p).losePeerGroups p) := rfl

theorem exec_trellisLinkFail (s : State) (p : Nat) : exec (.trellisLinkFail p) s =
    .next ((({ s with failing := p :: s.failing } : State).losePeerActs p).loseRemote fun r => pkgOf r.pa == p) := rfl

/-- A peer that comes up finds no strand waiting: of the control stores it changes the list at most. -/
theorem peerUp_idle {s : State} {p : Nat} {gen : BitVec 32}
    (h : (s.peer p).gen = gen ∨ ∀ e ∈ s.strands, ∀ pa va, ¬ e.2.awaitsPeer p pa va) :
    ∃ l, (if (s.peer p).gen = gen then s.setPeer p { state := 1#2, gen := gen }
      else (s.setPeer p { state := 1#2, gen := gen }).losePeerActs p) =
        { s.setPeer p { state := 1#2, gen := gen } with peerActs := l } := by
  split
  · exact ⟨_, rfl⟩
  · next hne => exact ⟨_, losePeerActs_idle (h.resolve_left hne)⟩

/-! Requests of another package (R61, R234). -/

theorem exec_remoteAccessServe_refused {s : State} {gen : BitVec 32}
    (h : gen ≠ s.gen ∨ s.bootPhase.toNat < 5 ∨ s.bootResult ≠ 0#8) (q : RemoteRequest) :
    exec (.remoteAccessServe gen q) s = .next { s with peerAnswer := .refused 0x11#8 } :=
  congrArg Host.Outcome.next (if_pos h)

theorem exec_remoteAccessServe {s t : State} {gen : BitVec 32} {q : RemoteRequest} (hg : gen = s.gen)
    (hp : 5 ≤ s.bootPhase.toNat) (hr : s.bootResult = 0#8) (h : s.serve q = some t) :
    exec (.remoteAccessServe gen q) s = .next t := by
  have hn : ¬ (gen ≠ s.gen ∨ s.bootPhase.toNat < 5 ∨ s.bootResult ≠ 0#8) := by
    rintro (h | h | h)
    · exact h hg
    · omega
    · exact h hr
  refine (congrArg Host.Outcome.next (if_neg hn)).trans ?_
  rw [h, Option.getD_some]

section
variable {s : State} {pa len c : Nat}

theorem serve_read (copy : Bool) (h : s.spanCause pa len false copy = none) :
    ∃ tags, s.serve (.read pa len copy) = some (s.answerPeer (.data (s.hbmRead (s.keyName 0) pa len) tags)) := by
  simp only [State.serve, h]
  exact ⟨_, rfl⟩

theorem serve_read_refused {copy : Bool} (h : s.spanCause pa len false copy = some c) :
    s.serve (.read pa len copy) = some (s.answerPeer (.refused (BitVec.ofNat 8 c))) := by
  simp only [State.serve, h]

theorem serve_write {bytes : List Byte} (h : s.spanCause pa bytes.length true false = none) :
    s.serve (.write pa bytes []) = some ((s.hbmWrite (s.keyName 0) pa bytes).answerPeer .done) := by
  simp only [State.serve, h, List.foldl_nil]

theorem serve_write_refused {bytes : List Byte} (tags : List (Nat × Tag))
    (h : s.spanCause pa bytes.length true false = some c) :
    s.serve (.write pa bytes tags) = some (s.answerPeer (.refused (BitVec.ofNat 8 c))) := by
  simp only [State.serve, h]

/-- The bytes of a remote atomic's word. -/
def wideBytes (wide : Bool) : Nat := if wide then 8 else 4

theorem serve_atomic {op : BitVec 4} {wide : Bool} {v w : Word} (ha : pa % wideBytes wide = 0)
    (h : s.spanCause pa (wideBytes wide) false false = none) :
    s.serve (.atomic op wide pa v w) = some (s.serveAtomic op.toNat (wideBytes wide) pa v w) := by
  simp only [wideBytes] at ha h
  simp only [State.serve, wideBytes, ha, h, ne_eq, not_true, if_false]

theorem serveAtomic_writes {op : Nat} {v w : Word}
    (h : atomicWrites op len (wordOfBytes (s.hbmRead (s.keyName 0) pa len)) w = true) :
    s.serveAtomic op len pa v w =
      (s.hbmWrite (s.keyName 0) pa
        (bytesOf len (atomicWord op len (wordOfBytes (s.hbmRead (s.keyName 0) pa len)) v w).toNat)).answerPeer
      (.data (bytesOf len (wordOfBytes (s.hbmRead (s.keyName 0) pa len)).toNat) []) := by
  rw [State.serveAtomic, if_pos h]

theorem serve_atomic_misaligned (op : BitVec 4) {wide : Bool} (v w : Word) (ha : pa % wideBytes wide ≠ 0) :
    s.serve (.atomic op wide pa v w) = some (s.answerPeer (.refused 0x03#8)) := by
  rw [wideBytes] at ha
  simp only [State.serve, if_pos ha]
  rfl

theorem serve_controlStore {t : State} {v : Word} (hh : s.pageHeld none pa v = false)
    (h : s.controlStore none pa v = .ok t) : s.serve (.controlStore pa v) =
      some (if t.actPending pa then { t with peerAnswer := .none, serving := pa :: t.serving }
        else { t with peerAnswer := .done }) := by
  simp only [State.serve, hh, h]
  rfl

theorem serve_controlStore_refused {v : Word} (hh : s.pageHeld none pa v = false)
    (h : s.controlStore none pa v = .error c) :
    s.serve (.controlStore pa v) = some (s.answerPeer (.refused (BitVec.ofNat 8 c))) := by
  simp only [State.serve, hh, h]
  rfl

end

/-- A write to HBM for another package: its bytes are stored, and no strand changes. -/
theorem hbmWrite_answered (s : State) (pa : Nat) (l : List Byte) (a : Answer) :
    HbmStored s ((s.hbmWrite (s.keyName 0) pa l).answerPeer a) (s.keyName 0) pa l ∧
    ((s.hbmWrite (s.keyName 0) pa l).answerPeer a).strands = s.strands :=
  ⟨(hbmWrite_stored s _ pa l).of_eq rfl rfl rfl rfl rfl rfl rfl rfl,
    (congrArg State.strands (hbmWrite_frame s (s.keyName 0) pa l).rest :)⟩

/-! An acknowledged store (R237). -/

theorem exec_remoteStoreAck_taken {s : State} {id : Nat} {r : RemoteStore} (h : s.remote = [(id, r)]) :
    ∃ tags, exec (.remoteStoreAck id true) s = .next { s with
      remote := [], peerMem := writeBytes s.peerMem r.pa r.bytes, peerTags := tags } := by
  change ∃ tags, execRemoteStoreAck id true s = _
  simp [execRemoteStoreAck, h, State.remotePerform, State.remoteReach, mapTable, removeAt]

theorem exec_remoteStoreAck_failed {s : State} {id : Nat} {r : RemoteStore} (h : s.remote = [(id, r)])
    (hb : r.bytes ≠ []) : exec (.remoteStoreAck id false) s =
      .next (({ s with remote := [] } : State).remoteLost r.strand r.va) := by
  change execRemoteStoreAck id false s = _
  simp [execRemoteStoreAck, h, removeAt, hb]

/-! What is left of a store that is lost, and of one whose action fails. -/

/-- The control store that strand `n` waits for in package `p` has failed there: its strand counts it, and `u` differs
from `s` besides in what it keeps of the peers. -/
structure PeerActFailed (s u : State) (p n : Nat) (va : Word) : Prop where
  rest    : { s with peers := u.peers, stale := u.stale, peerActs := u.peerActs, failing := u.failing,
                     groups := u.groups, strands := u.strands } = u
  strands : u.strands = (s.remoteLost n va).strands
  acts    : u.peerActs = s.peerActs.filter fun pa => pkgOf pa != p

theorem PeerActFailed.strand {s u : State} {p n : Nat} {va : Word} (h : PeerActFailed s u p n va) (k : Nat) :
    u.strand k = if k = n then (s.strand n).countLost va else s.strand k :=
  (congrArg (lookupD · k Strand.empty) h.strands).trans (remoteLost_strand s n k va)

/-- The store `r` is lost: it no longer waits, has not been performed, and its strand alone counts it. -/
def State.lostTo (s t : State) (r : RemoteStore) : Prop :=
  t.remote = [] ∧ t.peerMem = s.peerMem ∧ t.strands = (s.remoteLost r.strand r.va).strands

theorem lostTo_strand {s t : State} {r : RemoteStore} (h : s.lostTo t r) (k : Nat) :
    t.strand k = if k = r.strand then (s.strand k).countLost r.va else s.strand k := by
  have : t.strand k = (s.remoteLost r.strand r.va).strand k := congrArg (lookupD · k Strand.empty) h.2.2
  rw [this, remoteLost_strand]
  split
  · next hk => rw [hk]
  · rfl

/-- Settles O54: a peer's change reaches only what names it, what was in flight to it is counted where it was issued,
and a request of another package is served as one of world 0 under the open key. -/
theorem fabricEvents : Obligations.FabricEvents := by
  unfold Obligations.FabricEvents
  intro s p pa id gen bytes r lost flight waits idle forgotten
  have lost_of {t : State} (h : s.lostTo t r) : lost t := by
    have hr : t.strand r.strand = (s.strand r.strand).countLost r.va := by rw [lostTo_strand h, if_pos rfl]
    refine ⟨h.1, h.2.1, by rw [hr]; rfl, by rw [hr]; rfl, fun h0 => ?_, fun k hk => by rw [lostTo_strand h, if_neg hk]⟩
    rw [hr]
    exact if_pos h0
  refine ⟨fun hg hi => ?up, ⟨_, rfl, ?goneFrame⟩, fun n a va hc hw hn hr => ?waiting, fun hf hp hi => ?lostStore,
    fun h q => exec_remoteAccessServe_refused h q, fun hg hp hr => ?serve, fun hf => ⟨?ack, ?nack⟩⟩
  case up =>
    obtain ⟨l, hl⟩ := peerUp_idle (gen := gen) hi
    rw [Completes, exec_peerUp, hl, loseRemote_none]
    · exact ⟨_, rfl, forgot_setPeer rfl rfl, rfl⟩
    · intro e he
      by_cases hp : pkgOf e.2.pa = p
      · simp [hg e he hp]
      · simp [hp]
  case goneFrame =>
    obtain ⟨hp, hs, ha⟩ := loseRemote_peers ((s.setPeer p { state := 2#2, gen := (s.peer p).gen }).losePeerActs p)
      fun r => pkgOf r.pa == p
    obtain ⟨hp', hs'⟩ := losePeerActs_peers (s.setPeer p { state := 2#2, gen := (s.peer p).gen }) p
    exact ⟨forgot_setPeer (hp.trans hp') (hs.trans hs'), fun x hx => losePeerActs_over (ha ▸ hx :)⟩
  case waiting =>
    intro fails
    have fails_of {u : State} (h : PeerActFailed s u p n va) : fails u := by
      refine ⟨⟨congrArg (fun t : State => { t with strands := s.strands }) h.rest.symm,
        fun k hk => by rw [h.strand, if_neg hk]; rfl⟩, by rw [h.strand, if_pos rfl]; rfl, fun hm => ?_⟩
      rw [h.acts] at hm
      simpa [hw.1] using (List.mem_filter.1 hm).2
    have none_lost (test : RemoteStore → Bool) {u : State} (hu : u.remote = s.remote) : u.loseRemote test = u :=
      loseRemote_none fun e he => by rw [hu, hr] at he; exact nomatch he
    have acts {u : State} (hu : u.strands = s.strands) : u.losePeerActs p =
        { u.remoteLost n va with peerActs := u.peerActs.filter fun pa => pkgOf pa != p } := by
      refine losePeerActs_one (pa := a) (by rw [hu]; exact hc) ?_ (by rw [hu]; exact hn)
      rw [State.strand, hu]
      exact hw
    refine ⟨fun hne => ?up, ?gone, ?link⟩
    case up =>
      rw [Completes, exec_peerUp, if_neg hne, acts, none_lost]
      exacts [⟨_, rfl, fails_of ⟨rfl, rfl, rfl⟩⟩, rfl, rfl]
    case gone =>
      rw [Completes, exec_peerStateGone, acts, none_lost]
      exacts [⟨_, rfl, fails_of ⟨rfl, rfl, rfl⟩⟩, rfl, rfl]
    case link =>
      rw [Completes, exec_trellisLinkFail, acts, none_lost]
      exacts [⟨_, rfl, fails_of ⟨rfl, rfl, rfl⟩⟩, rfl, rfl]
  case lostStore =>
    have lose (u : State) (test : RemoteStore → Bool) (hu : u.remote = s.remote) (ht : test r = true) :
        u.loseRemote test = ({ u with remote := [] } : State).remoteLost r.strand r.va :=
      loseRemote_one (hu.trans hf.1) hf.2 ht
    have idle_acts (u : State) (hu : u.strands = s.strands) :
        u.losePeerActs p = { u with peerActs := u.peerActs.filter fun pa => pkgOf pa != p } :=
      losePeerActs_idle (hu ▸ hi)
    refine ⟨fun hne => ?up, ?gone, ?link⟩
    case up =>
      obtain ⟨l, hl⟩ := peerUp_idle (gen := gen) (.inr hi)
      rw [Completes, exec_peerUp, hl, lose]
      exacts [⟨_, rfl, lost_of ⟨rfl, rfl, rfl⟩, congrArg Peer.gen (forgot_setPeer rfl rfl).1⟩, rfl, by simp [hp, hne]]
    case gone =>
      rw [Completes, exec_peerStateGone, idle_acts, lose]
      exacts [⟨_, rfl, lost_of ⟨rfl, rfl, rfl⟩, (forgot_setPeer rfl rfl).1⟩, rfl, by simp [hp], rfl]
    case link =>
      rw [Completes, exec_trellisLinkFail, idle_acts, lose]
      exacts [⟨_, rfl, lost_of ⟨rfl, rfl, rfl⟩, rfl, List.mem_cons_self⟩, rfl, by simp [hp], rfl]
  case serve =>
    have serves {q : RemoteRequest} {t : State} (h : s.serve q = some t) : exec (.remoteAccessServe gen q) s = .next t :=
      exec_remoteAccessServe hg hp hr h
    refine ⟨fun n copy => ⟨fun hc => ?read, fun c hc => serves (serve_read_refused hc)⟩, fun hc => ?write,
      fun c tags hc => serves (serve_write_refused tags hc), fun op wide v w => ⟨fun hc ha hw => ?atomic,
        fun ha => serves (serve_atomic_misaligned op v w ha)⟩,
      fun v hh => ⟨fun t ht => ⟨fun hn => ?done, fun hn => ?pending⟩,
        fun c hc => serves (serve_controlStore_refused hh hc)⟩⟩
    case read =>
      obtain ⟨tags, ht⟩ := serve_read copy hc
      exact ⟨_, serves ht, rfl, tags, rfl⟩
    case write =>
      obtain ⟨hs, hk⟩ := hbmWrite_answered s pa bytes .done
      exact ⟨_, serves (serve_write hc), hs, rfl, hk⟩
    case atomic =>
      obtain ⟨hs, hk⟩ := hbmWrite_answered s pa _ _
      exact ⟨_, (serves (serve_atomic ha hc)).trans (congrArg _ (serveAtomic_writes hw)), hs, rfl, hk⟩
    case done => exact (serves (serve_controlStore hh ht)).trans (by rw [hn]; rfl)
    case pending => exact (serves (serve_controlStore hh ht)).trans (by rw [hn]; rfl)
  case ack =>
    obtain ⟨tags, ht⟩ := exec_remoteStoreAck_taken hf.1
    refine ⟨_, ht, rfl, fun i hi => ?_, fun a ha => readByte_writeBytes_outside r.bytes s.peerMem r.pa a ha, rfl⟩
    rw [readByte_writeBytes_inside r.bytes s.peerMem r.pa i hi, List.getD_eq_getElem _ _ hi]
  case nack => exact ⟨_, exec_remoteStoreAck_failed hf.1 hf.2, lost_of ⟨rfl, rfl, rfl⟩⟩

end Sys2Proof.Machine
end

section
/-! The CTL actions on another strand (O44): STOP, RESUME, STEP and KILL, their completion, and what a control store
leaves of the strand that makes it (R31, R60, R66, R67, R80, R178, R258). -/

namespace Sys2Proof.Machine

/-! A store to CTL (R66). -/

theorem controlStore_ctl {s : State} {who : Option Nat} {n : Nat} (hn : n < 65536) (hw : who ≠ some n) (v : Word) :
    s.controlStore who (strandPage n) v = s.ctlStore false n v := by
  have hp : pageOf (strandPage n) = some (.strand n 0) := pageOf_strandPage hn (by decide : 0 < 131072)
  have hs : (who == some n) = false := beq_eq_false_iff_ne.2 hw
  simp only [State.controlStore, hp, State.strandStore, hs, if_true]

theorem strandPage_aligned (n : Nat) : strandPage n % 8 = 0 := by
  rw [strandPage]; omega

theorem agentStore_ctl {s t : State} {who : Agent} {n : Nat} {v : Word} (hn : n < 65536) (hw : agentOf who ≠ some n)
    (h : s.admits who (strandPage n) v) (ht : s.ctlStore false n v = .ok t) :
    s.agentStore who (strandPage n) v = t.storedFor who (strandPage n) :=
  agentStore_ok h (strandPage_aligned n) ((controlStore_ctl hn hw v).trans ht)

/-- The states that STOP and KILL find a strand in when they change nothing of it. -/
theorem Strand.ended_iff (x : Strand) : x.ended = true ↔ x.state = 5#4 ∨ x.state = 6#4 ∨ x.state = 7#4 := by
  simp [Strand.ended, or_assoc]

/-! STOP (R66, R67, R178). -/

section
variable {s : State} {n : Nat}

theorem stopStrand_running (h : (s.strand n).state = 1#4) :
    s.stopStrand n = s.setStrand n { s.strand n with state := 2#4, cause := 0#8 } := if_pos h

theorem stopStrand_awaiting (h : (s.strand n).state = 8#4) : s.stopStrand n = s.setStrand n { s.strand n with
    state := 3#4, cause := 0#8, owed := true, place := none, cls := (s.strand n).prio, wait := .stopping } := by
  rw [State.stopStrand, if_neg (by rw [h]; decide), if_pos h]
  rfl

theorem stopStrand_over
    (h : ((s.strand n).state = 3#4 ∨ (s.strand n).state = 4#4) ∨ (s.strand n).ended = true)
    (hw : (s.strand n).wait = .none) :
    s.stopStrand n = if s.vineOpen n then s.setStrand n { s.strand n with wait := .stopping } else s := by
  have h1 : (s.strand n).state ≠ 1#4 ∧ (s.strand n).state ≠ 8#4 := by
    rw [Strand.ended_iff] at h
    rcases h with (h | h) | h | h | h <;> rw [h] <;> decide
  rw [State.stopStrand, if_neg h1.1, if_neg h1.2]
  cases s.vineOpen n
  · exact if_neg (by simp)
  · exact if_pos ⟨hw, rfl⟩

theorem stopComplete_waits (h : s.vineOpen n = true) : s.stopComplete n = s := by
  simp [State.stopComplete, State.stopReady, h]

theorem stopComplete_stopping (h : (s.strand n).state = 2#4) (hh : (s.strand n).wait.holdsStop = false)
    (hv : s.vineOpen n = false) : s.stopComplete n = s.setStrand n { s.strand n with
      state := 3#4, cause := 0#8, place := none, cls := (s.strand n).prio
      wait := if (s.strand n).wait = .stopping then .none else (s.strand n).wait } := by
  have hr : s.stopReady n = true := by simp [State.stopReady, h, hh, hv]
  rw [State.stopComplete, hr]
  refine congrArg (s.setStrand n) ?_
  by_cases hw : (s.strand n).wait = .stopping
  · simp only [if_pos hw, h, if_true]
  · simp only [if_neg hw, h, if_true]

theorem stopComplete_over (h : (s.strand n).state ≠ 2#4) (hw : (s.strand n).wait = .stopping)
    (hv : s.vineOpen n = false) : s.stopComplete n = s.setStrand n { s.strand n with wait := .none } := by
  have hr : s.stopReady n = true := by simp [State.stopReady, hw, hv]
  rw [State.stopComplete, hr]
  refine congrArg (s.setStrand n) ?_
  simp only [hw, if_true, if_neg h]

/-! RESUME and STEP (R31, R66). -/

theorem resumeStrand_ok (h : (s.strand n).state = 3#4 ∨ (s.strand n).state = 4#4) (hr : s.resumable n = true)
    (ho : (s.strand n).owed = false) : s.resumeStrand n =
      .ok (s.setStrand n { s.strand n with state := 1#4, cause := 0#8, resumed := true }) := by
  unfold State.resumeStrand
  dsimp only
  rw [if_pos h, if_neg (by simp [hr]), if_neg (by simp [ho])]
  rfl

theorem stepStrand_ok (h : (s.strand n).state = 3#4 ∨ (s.strand n).state = 4#4) (hr : s.resumable n = true)
    (ho : (s.strand n).owed = false) : s.stepStrand n =
      .ok (s.setStrand n { s.strand n with state := 1#4, cause := 0#8, stepping := true, resumed := true }) := by
  have hg : ((s.strand n).state = 3#4 ∨ (s.strand n).state = 4#4) ∧ s.resumable n = true := ⟨h, hr⟩
  unfold State.stepStrand
  dsimp only
  rw [if_pos hg, if_neg (by simp [ho])]
  rfl

theorem stepStrand_running (h : ¬ ((s.strand n).state = 3#4 ∨ (s.strand n).state = 4#4)) :
    s.stepStrand n = .error cIllegalState := if_neg fun g => h g.1

/-! KILL (R66, R67, R178): what it waits for. -/

theorem outstanding_iff : s.outstanding n = true ↔ (∃ e ∈ s.ops, e.2.strand = n) ∨ s.vineOpen n = true := by
  simp [State.outstanding, State.hasOps]

theorem outstanding_false (h : ∀ e ∈ s.ops, e.2.strand ≠ n) (hv : s.vineOpen n = false) : s.outstanding n = false := by
  rw [Bool.eq_false_iff, ne_eq, outstanding_iff]
  rintro (⟨e, he, hn⟩ | hv')
  · exact h e he hn
  · rw [hv] at hv'; exact nomatch hv'

end

/-! What the end of a strand leaves alone (R80). -/

/-- The strands, HBM's bytes and the tenants' pages. -/
def State.workParts (s : State) : Table Strand × List Host.Cell × Table Tenant := (s.strands, s.mem, s.tenants)

theorem abandonSeal_workParts (s : State) (m : Nat) : (s.abandonSeal m).workParts = s.workParts := by
  have finish : (s.sealFinish m).workParts = s.workParts := by
    unfold State.sealFinish
    dsimp only
    split
    · rfl
    · split <;> rfl
  unfold State.abandonSeal
  split
  · rfl
  · split
    · rfl
    · exact finish

theorem abandonSeals_workParts (s : State) (n : Nat) : (s.abandonSeals n).workParts = s.workParts := by
  refine foldl_keeps State.workParts _ (fun t e => ?_) s.seals s
  split
  · rfl
  · exact abandonSeal_workParts t e.1

theorem forgetHeld_tenants {s u : State} (hs : u.strands = s.strands) (ht : u.tenants = s.tenants) (n : Nat) :
    (u.forgetHeld n).tenants = (s.forgetHeld n).tenants := by
  simp only [State.forgetHeld, State.updTenant, State.tenant, State.strand, hs, ht]

/-- A strand that ends takes its page; no other strand and no byte of HBM changes, nor does any tenant's page but its
own, in the faults that are held for it. -/
theorem endPage_workParts (s : State) (n : Nat) (page : Strand) (forced : Bool) :
    (s.endPage n page forced).workParts =
      (insertAt s.strands n page, s.mem, (s.forgetHeld n).tenants) := by
  have parts (u : State) (hs : u.strands = s.strands) (hm : u.mem = s.mem) (ht : u.tenants = s.tenants) :
      (((u.forgetHeld n).loseGroups n (page.state == 5#4)).setStrand n page).workParts =
        (insertAt s.strands n page, s.mem, (s.forgetHeld n).tenants) := by
    rw [← forgetHeld_tenants hs ht n, ← hs, ← hm]
    rfl
  refine (abandonSeals_workParts _ n).trans ?_
  cases forced
  · exact parts (s.dropRequests n) rfl rfl rfl
  · exact parts ((s.endOps n page.cause.toNat).dropRequests n) rfl rfl rfl

theorem record_forgetHeld (s : State) (n a k : Nat) : (s.forgetHeld n).record a k = s.record a k := by
  rw [State.record, State.forgetHeld, State.tenant_updTenant]
  split
  · next h => rw [h]; rfl
  · rfl

theorem endPage_frame (s : State) (n : Nat) (page : Strand) (forced : Bool) :
    (∀ k, (s.endPage n page forced).strand k = if k = n then page else s.strand k) ∧
    (s.endPage n page forced).mem = s.mem ∧ ∀ a k, (s.endPage n page forced).record a k = s.record a k := by
  have h := endPage_workParts s n page forced
  simp only [State.workParts, Prod.mk.injEq] at h
  obtain ⟨hs, hm, ht⟩ := h
  refine ⟨fun k => ?_, hm, fun a k => ?_⟩
  · rw [State.strand, hs]
    exact lookupD_insertAt ..
  · rw [← record_forgetHeld s n a k]
    exact congrArg (fun t => lookupD (lookupD t a Tenant.empty).records k Record.empty) ht

theorem killStore_live {s : State} {n : Nat} (h0 : (s.strand n).state ≠ 0#4) (he : (s.strand n).ended = false) :
    s.killStore n = s.endPage n { (s.strand n).finish 7#4 cCancelled true with
      killing := true, counted := 0x18#8 } true := by
  rw [State.killStore, if_neg (by simp [he]), State.killRaw, if_neg (by simp [h0, he])]
  rfl

theorem killStore_ended {s : State} {n : Nat} (he : (s.strand n).ended = true) : s.killStore n =
    if s.outstanding n then s.setStrand n { s.strand n with killing := true } else s := by
  rw [State.killStore]
  cases ho : s.outstanding n
  · rw [if_neg (by simp), State.killRaw, if_pos (.inr he)]
    rfl
  · exact if_pos ⟨he, rfl⟩

/-! The count of a strand in its launch (R80, R81). -/

theorem record_updRecord (s : State) (t key a k : Nat) (f : Record → Record) :
    (s.updRecord t key f).record a k = if a = t ∧ k = key then f (s.record t key) else s.record a k := by
  rw [State.record, State.updRecord, State.tenant_updTenant]
  by_cases ha : a = t
  · subst ha
    rw [if_pos rfl, lookupD_insertAt]
    by_cases hk : k = key <;> simp [hk, State.record]
  · simp [ha, State.record]

theorem findRecord_eq_some {s : State} {t : Nat} {id : BitVec 32} {r : Record} (h : s.findRecord t id = some r) :
    s.record t (recordKey id) = r := by
  unfold State.findRecord at h
  dsimp only at h
  split at h
  · exact Option.some.inj h
  · exact nomatch h

/-- An item counted in a record that it does not complete. -/
theorem countIn_open {s : State} {t : Nat} {id : BitVec 32} {r : Record} {ok : Bool} {cause : BitVec 8}
    (hr : s.findRecord t id = some r) (hf : (r.countItem ok cause).full = false) (fuel : Nat) :
    s.countIn (fuel + 1) t id ok cause = s.updRecord t (recordKey id) fun _ => r.countItem ok cause := by
  rw [State.countIn, hr]
  exact if_neg fun g => by rw [hf] at g; exact nomatch g.2

theorem countItem_failed_open {r : Record} (c : BitVec 8)
    (h : r.completed.toNat + r.failed.toNat + 1 < r.target.toNat) : (r.countItem false c).full = false := by
  have ht := r.target.isLt
  have hf : (r.failed + 1#32).toNat = r.failed.toNat + 1 := by
    rw [BitVec.toNat_add_of_lt (by simp; omega)]
    rfl
  change (r.completed.toNat + (r.failed + 1#32).toNat == r.target.toNat) = false
  rw [hf, beq_eq_false_iff_ne]
  omega

theorem killComplete_waits {s : State} {n : Nat} (h : s.outstanding n = true) : s.killComplete n = s := by
  simp [State.killComplete, h]

/-- The KILL completes, and a strand in state 7 is counted as failed (R67). -/
theorem killComplete_done {s : State} {n : Nat} (hk : (s.strand n).killing = true) (h : s.outstanding n = false) :
    s.killComplete n =
      let x := s.strand n
      let done := s.setStrand n { x with killing := false, counted := 0#8 }
      if x.state = 7#4 then (done.countIn 4 x.owner.toNat x.launch false x.counted).afterCount x.owner.toNat
        (s.graphOf x.owner.toNat x.launch)
      else done := by
  have g : (s.strand n).killing = true ∧ (!s.outstanding n) = true := ⟨hk, by rw [h]; rfl⟩
  rw [State.killComplete, if_pos g]
  dsimp only
  split
  · next h7 =>
    rw [State.countStrand]
    simp only [State.strand_setStrand_self, h7]
    rfl
  · rfl

/-! The strand that makes a control store (R60, R258). -/

theorem newRegion_strand (s : State) (n k : Nat) : (s.newRegion n).strand k =
    if k = n then { s.strand n with region := s.nextRegion + 1 } else s.strand k := by
  have h : (s.newRegion n).strands = insertAt s.strands n { s.strand n with region := s.nextRegion + 1 } := rfl
  rw [State.strand, h, lookupD_insertAt]
  rfl

theorem newRegion_frame (s : State) (n : Nat) :
    { s.newRegion n with strands := s.strands, nextRegion := s.nextRegion, races := s.races } = s := by
  rw [State.newRegion, State.sweepRaces, State.updStrand, State.setStrand]

/-- An action is pending or not whatever a strand's registers hold. -/
theorem actPending_updStrand {s : State} {n : Nat} {f : Strand → Strand} (h : (f (s.strand n)).ctl = (s.strand n).ctl)
    (pa : Nat) : (s.updStrand n f).actPending pa = s.actPending pa := by
  have hc (k : Nat) : ((s.updStrand n f).strand k).ctl = (s.strand k).ctl := by
    rw [State.strand_updStrand]
    split
    · next hk => rw [h, hk]
    · rfl
  simp only [State.actPending, hc]
  rfl

/-- A checkpoint that a control store has made invalid (R258). -/
def Strand.dropCkpt (x : Strand) : Strand := { x with ckpt := { x.ckpt with valid := false } }

section
variable {t : State} {m pa : Nat}

theorem storedBy_waits (he : (t.strand m).ended = false) (h0 : (t.strand m).state ≠ 0#4)
    (h : (t.actPending pa && !onOwnPage m pa) = true) :
    t.storedBy m pa = t.updStrand m fun x => { x.dropCkpt with wait := .act pa } := by
  have hp : (t.updStrand m Strand.dropCkpt).actPending pa = true ∧ (!onOwnPage m pa) = true := by
    rw [actPending_updStrand rfl]
    exact Bool.and_eq_true_iff.1 h
  rw [State.storedBy, if_neg (by simp [he, h0])]
  exact (if_pos hp).trans (updStrand_updStrand t m Strand.dropCkpt _)

theorem storedBy_opens (he : (t.strand m).ended = false) (h0 : (t.strand m).state ≠ 0#4)
    (h : (t.actPending pa && !onOwnPage m pa) = false) :
    t.storedBy m pa = (t.updStrand m Strand.dropCkpt).newRegion m := by
  have hp : ¬ ((t.updStrand m Strand.dropCkpt).actPending pa = true ∧ (!onOwnPage m pa) = true) := by
    rw [actPending_updStrand rfl, ← Bool.and_eq_true_iff, h]
    exact Bool.false_ne_true
  rw [State.storedBy, if_neg (by simp [he, h0])]
  exact if_neg hp

end

/-- Settles O44: each CTL store comes to its action on the strand and to what the store leaves of the strand that made
it; each completion waits for the strand's vine writes, a KILL's for its engine operations too. -/
theorem strandControlActions : Obligations.StrandControlActions := by
  unfold Obligations.StrandControlActions
  intro s who n hn hw x may stopped gives
  have stop (h : may 1#64) : exec (.strandStop who n) s = .next ((s.stopStrand n).storedFor who (strandPage n)) :=
    congrArg Host.Outcome.next (agentStore_ctl hn hw h rfl)
  have kill (h : may 4#64) : exec (.strandKill who n) s = .next ((s.killStore n).storedFor who (strandPage n)) :=
    congrArg Host.Outcome.next (agentStore_ctl hn hw h rfl)
  have stopDone {t : State} (h : s.stopComplete n = t) : exec (.strandStopComplete n) s = .next t :=
    congrArg Host.Outcome.next h
  have killDone {t : State} (h : s.killComplete n = t) : exec (.strandKillComplete n) s = .next t :=
    congrArg Host.Outcome.next h
  refine ⟨fun hm h => ?stopRunning, fun hm h => ?stopAwaiting, fun hm h hwait => ?stopOver,
    fun h hh hv => stopDone (stopComplete_stopping h hh hv), fun h hwait hv => stopDone (stopComplete_over h hwait hv),
    fun hv => stopDone (stopComplete_waits hv), fun hm h hr ho => ?resume, fun hm h hr ho => ?step,
    fun hm h => ?stepRefused, fun hm h0 he => ?killLive, fun hm he => ?killEnded,
    fun hk h => killDone (killComplete_waits (outstanding_iff.2 h)), fun hk ho hv => ?killDone,
    fun t m pa hwho he h0 => ?storing⟩
  case stopRunning => exact (stop hm).trans (by rw [stopStrand_running h])
  case stopAwaiting => exact (stop hm).trans (by rw [stopStrand_awaiting h])
  case stopOver =>
    have e := (stop hm).trans (by rw [stopStrand_over h hwait])
    exact ⟨fun hv => by rw [if_pos hv] at e; exact e, fun hv => by rw [hv] at e; exact e⟩
  case resume => exact congrArg Host.Outcome.next (agentStore_ctl hn hw hm (resumeStrand_ok h hr ho))
  case step => exact congrArg Host.Outcome.next (agentStore_ctl hn hw hm (stepStrand_ok h hr ho))
  case stepRefused =>
    exact congrArg Host.Outcome.next (agentStore_error hm (strandPage_aligned n)
      ((controlStore_ctl hn hw 3#64).trans (stepStrand_running h)))
  case killLive =>
    refine ⟨_, (kill hm).trans (by rw [killStore_live h0 he]), ?_⟩
    obtain ⟨hs, hmem, hrec⟩ := endPage_frame s n { x.finish 7#4 cCancelled true with
      killing := true, counted := 0x18#8 } true
    rw [hs n, if_pos rfl]
    exact ⟨rfl, rfl, rfl, rfl, rfl, rfl, rfl, rfl, fun k hk => by rw [hs k, if_neg hk], hmem, hrec⟩
  case killEnded =>
    have e := (kill hm).trans (by rw [killStore_ended he])
    refine ⟨fun h => ?_, fun ho hv => ?_⟩
    · rw [if_pos (outstanding_iff.2 h)] at e
      exact e
    · rw [outstanding_false ho hv] at e
      exact e
  case killDone =>
    have e := killDone (killComplete_done hk (outstanding_false ho hv))
    intro done
    refine ⟨fun hr => ?none, fun r hr h7 h1 hp hlt => ?one⟩
    case none =>
      have counted : done.countIn 4 x.owner.toNat x.launch false x.counted = done := by
        rw [State.countIn, show done.findRecord x.owner.toNat x.launch = none from hr]
      have after : s.graphOf x.owner.toNat x.launch = none := by rw [State.graphOf, hr]
      refine e.trans (congrArg Host.Outcome.next ?_)
      dsimp only
      split
      · exact (congrArg (State.afterCount · x.owner.toNat (s.graphOf x.owner.toNat x.launch)) counted).trans
          (congrArg (done.afterCount x.owner.toNat) after)
      · rfl
    case one =>
      have counted := countIn_open (s := done) (id := x.launch) (t := x.owner.toNat) hr
        (countItem_failed_open x.counted hlt) 3
      have after : s.graphOf x.owner.toNat x.launch = none := by
        rw [State.graphOf, hr]
        exact hp
      refine ⟨done.updRecord x.owner.toNat (recordKey x.launch) fun _ => r.countItem false x.counted,
        e.trans (congrArg Host.Outcome.next ?_), rfl, ?_, fun a k hk => ?_⟩
      · rw [if_pos h7, after]
        exact counted
      · rw [record_updRecord, if_pos ⟨rfl, rfl⟩]
        rfl
      · rw [record_updRecord, if_neg hk]
        rfl
  case storing =>
    subst hwho
    intro u waits
    cases hwaits : waits with
    | true =>
      have e : u = t.updStrand m _ := storedBy_waits he h0 hwaits
      rw [e, State.strand_updStrand_self]
      exact ⟨rfl, rfl, rfl, fun k hk => by rw [State.strand_updStrand, if_neg hk], rfl⟩
    | false =>
      have e : u = (t.updStrand m Strand.dropCkpt).newRegion m := storedBy_opens he h0 hwaits
      have strand (k : Nat) : u.strand k =
          if k = m then { (t.strand m).dropCkpt with region := t.nextRegion + 1 } else t.strand k := by
        rw [e, newRegion_strand, State.strand_updStrand_self, State.strand_updStrand]
        split <;> rfl
      have mine : u.strand m = { (t.strand m).dropCkpt with region := t.nextRegion + 1 } := by rw [strand, if_pos rfl]
      have rest : { u with strands := t.strands, nextRegion := t.nextRegion, races := t.races } = t := by
        rw [e]
        exact congrArg (fun v : State => { v with strands := t.strands }) (newRegion_frame (t.updStrand m Strand.dropCkpt) m)
      rw [mine]
      exact ⟨rfl, rfl, rfl, fun k hk => by rw [strand, if_neg hk], rest⟩

end Sys2Proof.Machine
end

section
/-! Control stores that a page takes and refuses (O45): a stopped strand's registers, the power limit, frame kinds,
MODES, WIN words and islands (R54 to R56, R62, R69, R77, R228, R245, R290 to R293). -/

namespace Sys2Proof.Machine

/-! Reading vectors after a write. -/

theorem toList_getD_setIfInBounds {α : Type} {n : Nat} (v : Vector α n) (i j : Nat) (x d : α) :
    (v.setIfInBounds i x).toList.getD j d = if j = i ∧ i < n then x else v.toList.getD j d := by
  by_cases hi : i < n
  · by_cases hj : j = i
    · subst hj; simp [List.getD_eq_getElem?_getD, hi]
    · simp [List.getD_eq_getElem?_getD, hj, Ne.symm hj]
  · rw [if_neg fun g => hi g.2, Vector.toList_setIfInBounds, List.set_eq_of_length_le (by simpa using hi)]

theorem toList_getD_ofFn {α : Type} {n : Nat} (f : Fin n → α) (d : α) {i : Nat} (h : i < n) :
    (Vector.ofFn f).toList.getD i d = f ⟨i, h⟩ := by
  simp [List.getD_eq_getElem?_getD, h]

theorem toList_getD_map {α β : Type} {n : Nat} (v : Vector α n) (f : α → β) (d : α) (e : β) {i : Nat} (h : i < n) :
    (v.map f).toList.getD i e = f (v.toList.getD i d) := by
  simp [List.getD_eq_getElem?_getD, h]

/-! A stopped strand's registers (R15, R69). -/

theorem putReg_sreg (x : Strand) {r : Nat} (hr : r < 32) (v : Word) :
    x.putReg (0x100 + 8 * r) v = some (x.setS (BitVec.ofNat 5 r) v) := by
  have hv : strandVector (0x100 + 8 * r) = false := by simp [strandVector]; omega
  have hk : (0x100 + 8 * r - 0x100) / 8 = r := by omega
  rw [Strand.putReg, hv, if_neg (by decide), if_pos (by omega), hk] <;> omega

theorem strandStore_register {s : State} {who : Option Nat} {n off : Nat} {v : Word} {y : Strand}
    (hw : who ≠ some n) (hs : (s.strand n).state = 3#4 ∨ (s.strand n).state = 4#4) (ho : off ≠ 0 ∧ off ≠ 0xE8 ∧ off ≠ 0xF0)
    (hr : strandReg off = true) (hy : (s.strand n).putReg off v = some y) :
    s.strandStore who n off v = .ok (s.setStrand n y) := by
  have hself : (who == some n) = false := beq_eq_false_iff_ne.2 hw
  obtain ⟨h0, h1, h2⟩ := ho
  rcases hs with hs | hs <;> simp [State.strandStore, hself, h0, h1, h2, hr, hs, hy]

/-! The frame-kind table (R55, R56, R245). -/

theorem lookupD_foldl_putAt (m : Table (BitVec 4)) (f0 k f : Nat) (g : Nat → BitVec 4) :
    lookupD (((List.range k).map fun i => (f0 + i, g i)).foldl (fun m e => putAt m e.1 e.2) m) f 0#4 =
      if f0 ≤ f ∧ f < f0 + k then g (f - f0) else lookupD m f 0#4 := by
  induction k with
  | zero => rw [if_neg (by omega)]; rfl
  | succ k ih =>
    rw [List.range_succ, List.map_append, List.foldl_append, List.map_singleton, List.foldl_cons, List.foldl_nil,
      lookupD_putAt, ih]
    by_cases hf : f = f0 + k
    · rw [if_pos hf, if_pos (by omega), hf, Nat.add_sub_cancel_left]
    · rw [if_neg hf]
      by_cases h : f0 ≤ f ∧ f < f0 + k
      · rw [if_pos h, if_pos (by omega)]
      · rw [if_neg h, if_neg (by omega)]

/-- The changes of a frame's kind that R56 names. -/
theorem kindChangeOk_iff (old new : BitVec 4) : kindChangeOk old.toNat new.toNat = true ↔
    old = new ∨ (old = 0#4 ∧ new ∈ [1#4, 2#4, 3#4]) ∨ (old ∈ [1#4, 2#4] ∧ new ∈ [0#4, 1#4, 2#4]) := by
  revert old new; decide

/-- A word of the table may be stored: each kind stays, or may change and names no frame of a chain (R56, R245). -/
def State.kindsLegal (s : State) (f0 : Nat) (v : Word) : Prop :=
  ∀ i, i < 16 → lookupD s.frames (f0 + i) 0#4 = v.extractLsb' (4 * i) 4 ∨
    (s.replicaFrame ((f0 + i) * 65536) = false ∧
      ((lookupD s.frames (f0 + i) 0#4 = 0#4 ∧ v.extractLsb' (4 * i) 4 ∈ [1#4, 2#4, 3#4]) ∨
        (lookupD s.frames (f0 + i) 0#4 ∈ [1#4, 2#4] ∧ v.extractLsb' (4 * i) 4 ∈ [0#4, 1#4, 2#4])))

theorem kindRefused_iff (s : State) (f : Nat) (new : BitVec 4) :
    (!kindChangeOk (lookupD s.frames f 0#4).toNat new.toNat ||
      (lookupD s.frames f 0#4 != new && s.replicaFrame (f * 65536))) = false ↔
    lookupD s.frames f 0#4 = new ∨ (s.replicaFrame (f * 65536) = false ∧
      ((lookupD s.frames f 0#4 = 0#4 ∧ new ∈ [1#4, 2#4, 3#4]) ∨
        (lookupD s.frames f 0#4 ∈ [1#4, 2#4] ∧ new ∈ [0#4, 1#4, 2#4]))) := by
  have h := kindChangeOk_iff (lookupD s.frames f 0#4) new
  rw [Bool.or_eq_false_iff, Bool.not_eq_false', h, Bool.and_eq_false_iff, bne_eq_false_iff_eq]
  tauto

theorem kindStore_ok {s : State} {pa : Nat} {v : Word} (h : s.kindsLegal (2 * (pa - controlBase)) v) :
    ∃ t, s.kindStore pa v = .ok t ∧ { t with frames := s.frames } = s ∧ ∀ f, lookupD t.frames f 0#4 =
      if 2 * (pa - controlBase) ≤ f ∧ f < 2 * (pa - controlBase) + 16
      then v.extractLsb' (4 * (f - 2 * (pa - controlBase))) 4 else lookupD s.frames f 0#4 := by
  refine ⟨_, if_neg ?_, rfl, fun f =>
    lookupD_foldl_putAt s.frames (2 * (pa - controlBase)) 16 f fun i => v.extractLsb' (4 * i) 4⟩
  rw [List.any_map, List.any_eq_true]
  rintro ⟨i, hi, hb⟩
  rw [Function.comp_apply, (kindRefused_iff s _ _).2 (h i (List.mem_range.1 hi))] at hb
  exact nomatch hb

theorem kindStore_error {s : State} {pa : Nat} {v : Word} (h : ¬ s.kindsLegal (2 * (pa - controlBase)) v) :
    s.kindStore pa v = .error cIllegalState := by
  refine if_pos ?_
  rw [List.any_map, List.any_eq_true]
  simp only [State.kindsLegal, not_forall] at h
  obtain ⟨i, hi, hl⟩ := h
  refine ⟨i, List.mem_range.2 hi, ?_⟩
  rw [Function.comp_apply, ← Bool.not_eq_false, kindRefused_iff]
  exact hl

/-! MODES (R77, R290). -/

/-- A word that MODES takes: each byte 0 or 1, F0's 0. -/
def modesLegal (v : Word) : Prop := (∀ f, f < 8 → (v.extractLsb' (8 * f) 8).toNat ≤ 1) ∧ v.extractLsb' 0 8 = 0#8

theorem modesRefused_iff (v : Word) :
    (((List.range 8).map fun f => v.extractLsb' (8 * f) 8).any (fun b => decide (1 < b.toNat)) = true ∨
      ((List.range 8).map fun f => v.extractLsb' (8 * f) 8).head? ≠ some 0#8) ↔ ¬ modesLegal v := by
  rw [modesLegal, not_and_or, List.any_map, List.any_eq_true]
  refine or_congr ?_ ?_
  · simp only [List.mem_range, Function.comp_apply, decide_eq_true_eq, not_forall, not_le, exists_prop]
  · exact not_congr (Option.some_inj (a := v.extractLsb' 0 8))

theorem modesStore_ok {s : State} {v : Word} (h : modesLegal v) : s.modesStore v =
    let t : State := { s with modes := Vector.ofFn fun f : Fin 8 => v.extractLsb' (8 * f.val) 8 }
    .ok (if v.extractLsb' 48 8 = 1#8 then t.fullSpeed else t) := by
  refine (if_neg fun g => (modesRefused_iff v).1 g h).trans ?_
  rw [toList_getD_ofFn _ _ (by decide : 6 < 8)]
  rfl

theorem modesStore_error {s : State} {v : Word} (h : ¬ modesLegal v) : s.modesStore v = .error cIllegalState :=
  if_pos ((modesRefused_iff v).2 h)

/-! Dies and their islands. -/

theorem die_eq (s : State) {d : Nat} (h : d < 4) : s.die d = s.dies[d] := dif_pos h

theorem die_updDie (s : State) {d e : Nat} (f : Die → Die) (hd : d < 4) (he : e < 4) :
    (s.updDie d f).die e = if e = d then f (s.die d) else s.die e := by
  rw [die_eq _ he, die_eq _ he]
  by_cases h : e = d
  · subst h; simp [State.updDie]
  · simp [State.updDie, h, Ne.symm h]

theorem fullSpeed_die (s : State) {d : Nat} (h : d < 4) : s.fullSpeed.die d = { s.die d with
    islands := (s.die d).islands.map fun y => if y.state = 0#2 then { y with current := y.ceiling } else y } := by
  simp [die_eq _ h, State.fullSpeed]

theorem fullSpeed_island (s : State) {d i : Nat} (hd : d < 4) (hi : i < 12) : s.fullSpeed.island d i =
    if (s.island d i).state = 0#2 then { s.island d i with current := (s.island d i).ceiling } else s.island d i := by
  rw [State.island, fullSpeed_die s hd, toList_getD_map _ _ Island.reset _ hi]
  rfl

/-! WIN words (R228). -/

theorem within_win {v : Word} (h : v.extractLsb' 1 37 = 0#37) : within v [(63, 38), (0, 0)] = true := by
  have mask : ~~~([(63, 38), (0, 0)].foldl (fun m (f : Nat × Nat) => m ||| BitVec.ofNat 64 (2 ^ (f.1 + 1) - 2 ^ f.2)) 0#64) =
      (BitVec.allOnes 37).setWidth 64 <<< 1 := by decide
  rw [within, mask, beq_iff_eq]
  refine BitVec.eq_of_getLsbD_eq fun i hi => ?_
  by_cases hr : 1 ≤ i ∧ i < 38
  · have hb := congrArg (BitVec.getLsbD · (i - 1)) h
    simp only [BitVec.getLsbD_extractLsb', show 1 + (i - 1) = i by omega, BitVec.getLsbD_zero,
      show i - 1 < 37 by omega, decide_true, Bool.true_and] at hb
    rw [BitVec.getLsbD_and, hb, Bool.false_and, BitVec.getLsbD_zero]
  · have : i < 1 ∨ ¬ i - 1 < 37 := by omega
    have clear : ((BitVec.allOnes 37).setWidth 64 <<< 1).getLsbD i = false := by
      rw [BitVec.getLsbD_shiftLeft, BitVec.getLsbD_setWidth, BitVec.getLsbD_allOnes]
      rcases this with h | h <;> simp only [h, decide_true, decide_false, Bool.not_true, Bool.and_false, Bool.false_and]
    rw [BitVec.getLsbD_and, clear, Bool.and_false, BitVec.getLsbD_zero]

/-! Islands (R290 to R293, log 47). -/

theorem island_updDie (s : State) {d e i j : Nat} (y : Island) (hd : d < 4) (he : e < 4) (hi : i < 12) :
    (s.updDie d fun x => { x with islands := x.islands.setIfInBounds i y }).island e j =
      if e = d ∧ j = i then y else s.island e j := by
  rw [State.island, die_updDie s _ hd he]
  by_cases h : e = d
  · subst h
    rw [if_pos rfl, toList_getD_setIfInBounds]
    simp only [hi, and_true, true_and]
    rfl
  · rw [if_neg h, if_neg fun g => h g.1]
    rfl

/-- A CEILING that an island may have: it alone changes, to what `State.ceilingSet` says, and TRIP. -/
theorem islandStore_ok {s : State} {d i : Nat} {v : Word} (hd : d < 4) (hi : i < 12)
    (h1 : 250 ≤ (v.extractLsb' 0 12).toNat) (h2 : (v.extractLsb' 0 12).toNat ≤ 1000) :
    let z := s.ceilingSet d i (s.island d i) (v.extractLsb' 0 12)
    ∃ t, s.islandStore d i v = .ok t ∧ { t with dies := s.dies, trip := s.trip } = s ∧
      t.trip = s.trip ||| tripBits (s.island d i) z ∧
      (∀ e j, e < 4 → t.island e j = if e = d ∧ j = i then z else s.island e j) ∧
      ∀ e, e < 4 → { t.die e with islands := (s.die e).islands } = s.die e := by
  intro z
  refine ⟨{ s.updDie d fun x => { x with islands := x.islands.setIfInBounds i z } with
    trip := s.trip ||| tripBits (s.island d i) z }, if_neg ?_, rfl, rfl, fun e j he => island_updDie s z hd he hi,
    fun e he => ?_⟩
  · rintro (⟨-, h | h⟩ | ⟨h, -⟩)
    · omega
    · omega
    · rw [h] at h1
      exact absurd h1 (by decide)
  · have h := die_updDie s (fun x => { x with islands := x.islands.setIfInBounds i z }) hd he
    refine (congrArg (fun x : Die => { x with islands := (s.die e).islands }) h).trans ?_
    split
    · next h => rw [h]
    · rfl

theorem slowing_iff {s : State} {d i : Nat} : s.slowing d i = true ↔
    95 < (s.die d).temp.toNat ∨ (i < 9 ∧ s.pwrlim.toNat < s.power.toNat) := by
  simp [State.slowing]

section
variable {s : State} {d i : Nat} {y : Island} {c : BitVec 12}

/-- An island that is clamped, or starts on a die above 105 °C. -/
theorem ceilingSet_clamped (hc : c ≠ 0#12) (h : y.state = 3#2 ∨ (y.state = 2#2 ∧ 105 < (s.die d).temp.toNat)) :
    s.ceilingSet d i y c = { state := 3#2, current := 250#12, ceiling := c } := by
  rw [State.ceilingSet, if_neg hc, if_pos h]

/-- A throttled island stays so, within its new ceiling. -/
theorem ceilingSet_throttled (hc : c ≠ 0#12) (h : y.state = 1#2) : (s.ceilingSet d i y c).state = 1#2 ∧
    (s.ceilingSet d i y c).current.toNat = min y.current.toNat c.toNat := by
  rw [State.ceilingSet, if_neg hc, if_neg (by simp [h]), if_pos h]
  refine ⟨h, ?_⟩
  dsimp only
  split <;> omega

/-- An island that starts while a limit would slow it is throttled from the start. -/
theorem ceilingSet_startsSlow (hc : 2 ≤ c.toNat) (h : ¬ (y.state = 3#2 ∨ (y.state = 2#2 ∧ 105 < (s.die d).temp.toNat)))
    (h2 : y.state = 2#2) (hs : s.slowing d i = true) : (s.ceilingSet d i y c).state = 1#2 ∧
    1 ≤ (s.ceilingSet d i y c).current.toNat ∧ (s.ceilingSet d i y c).current.toNat < c.toNat := by
  have hc0 : c ≠ 0#12 := by rintro rfl; exact absurd hc (by decide)
  rw [State.ceilingSet, if_neg hc0, if_neg h, if_neg (by rw [h2]; decide), if_neg (by simp [hs]), if_pos h2]
  have hlt := s.choose_lt 3 (n := c.toNat - 1) (by omega)
  have hmax := c.isLt
  rw [BitVec.toNat_ofNat, Nat.mod_eq_of_lt (by omega)]
  exact ⟨rfl, by omega, by omega⟩

theorem chooseFrequency_assisted (cap : Nat) (h : s.modes.toList.getD 6 0#8 = 1#8) : s.chooseFrequency c cap = c := by
  rw [State.chooseFrequency, if_pos h]
  split
  · next h0 => exact h0.symm
  · rfl

theorem chooseFrequency_cap {cap : Nat} (hc : 1 ≤ c.toNat) (h : s.modes.toList.getD 6 0#8 ≠ 1#8) (hcap : 1 ≤ cap) :
    (s.chooseFrequency c cap).toNat ≤ cap := by
  have hc0 : c ≠ 0#12 := by rintro rfl; exact absurd hc (by decide)
  have hlt := s.choose_lt 3 (n := min (max 1 cap) c.toNat) (by omega)
  have hmax := c.isLt
  rw [State.chooseFrequency, if_neg hc0, if_neg h, BitVec.toNat_ofNat, Nat.mod_eq_of_lt (by omega)]
  omega

/-- An island that runs free of any limit, or runs on while one would slow it: it is not raised then. -/
theorem ceilingSet_runs (hc : 1 ≤ c.toNat) (h : ¬ (y.state = 3#2 ∨ (y.state = 2#2 ∧ 105 < (s.die d).temp.toNat)))
    (h1 : y.state ≠ 1#2) (h2 : y.state = 2#2 → s.slowing d i = false) :
    ∃ cap, s.ceilingSet d i y c = { state := 0#2, current := s.chooseFrequency c cap, ceiling := c } ∧
      (s.slowing d i = true → cap = y.current.toNat) := by
  have hc0 : c ≠ 0#12 := by rintro rfl; exact absurd hc (by decide)
  rw [State.ceilingSet, if_neg hc0, if_neg h, if_neg h1]
  cases hs : s.slowing d i with
  | false => exact ⟨_, rfl, nofun⟩
  | true =>
    have hn : y.state ≠ 2#2 := fun h => by rw [h2 h] at hs; exact nomatch hs
    rw [if_neg (by decide), if_neg hn]
    exact ⟨_, rfl, fun _ => rfl⟩

/-- TRIP after the store: a start that is clamped, or throttled, is recorded (R293). -/
theorem trip_ceilingSet (hc : 2 ≤ c.toNat) (b : BitVec 2) : b ||| tripBits y (s.ceilingSet d i y c) =
    if y.state = 2#2 ∧ 105 < (s.die d).temp.toNat then b ||| 2#2
    else if y.state = 2#2 ∧ s.slowing d i = true then b ||| 1#2 else b := by
  have hc0 : c ≠ 0#12 := by rintro rfl; exact absurd hc (by decide)
  by_cases hclamp : y.state = 3#2 ∨ (y.state = 2#2 ∧ 105 < (s.die d).temp.toNat)
  · rw [ceilingSet_clamped hc0 hclamp, tripBits]
    rcases hclamp with h | h
    · simp [h]
    · simp [h]
  · have hhot : ¬ (y.state = 2#2 ∧ 105 < (s.die d).temp.toNat) := fun h => hclamp (.inr h)
    rw [if_neg hhot, tripBits]
    by_cases h1 : y.state = 1#2
    · rw [(ceilingSet_throttled hc0 h1).1]
      simp [h1]
    · by_cases h2 : y.state = 2#2 ∧ s.slowing d i = true
      · rw [(ceilingSet_startsSlow hc hclamp h2.1 h2.2).1]
        simp [h2]
      · obtain ⟨cap, hz, -⟩ := ceilingSet_runs (i := i) (by omega : 1 ≤ c.toNat) hclamp h1 fun h =>
          Bool.eq_false_iff.2 fun hs => h2 ⟨h, hs⟩
        rw [hz, if_neg h2]
        by_cases h0 : y.state = 0#2 <;> simp [h0]

end

/-! The pages of these words (R52). -/

theorem controlStore_strand {s : State} {who : Option Nat} {n off : Nat} (hn : n < 65536) (ho : off < 131072) (v : Word) :
    s.controlStore who (strandPage n + off) v = s.strandStore who n off v := by
  simp only [State.controlStore, pageOf_strandPage hn ho]

theorem controlStore_tenant {s : State} {who : Option Nat} {t off : Nat} (ht : t < 256) (ho : off < 65536) (v : Word) :
    s.controlStore who (tenantPage t + off) v = s.tenantPageStore who t off v := by
  simp only [State.controlStore, pageOf_tenantPage ht ho]

theorem controlStore_hub {s : State} {who : Option Nat} {off : Nat} (ho : off < 65536) (v : Word) :
    s.controlStore who (hubPage + off) v = s.hubStore off v := by
  simp only [State.controlStore, pageOf_hubPage ho]

theorem controlStore_kinds {s : State} {who : Option Nat} {pa : Nat} (h1 : controlBase ≤ pa) (h2 : pa < kindTableEnd)
    (h8 : pa % 8 = 0) (v : Word) : s.controlStore who pa v = s.kindStore pa v := by
  simp only [State.controlStore, pageOf_kindTable h1 h2, show 8 * (pa / 8) = pa by omega]

/-- STATE of a tenant page takes no store (R73). -/
theorem tenantPageStore_state {s : State} (who : Option Nat) (t : Nat) (v : Word) :
    ∃ c, s.tenantPageStore who t 8 v = .error c := by
  unfold State.tenantPageStore
  split
  · exact ⟨_, rfl⟩
  · exact ⟨_, rfl⟩

/-- Settles O45: each word is taken by its page's own rule, refused where the page gives it no store. -/
theorem controlStores : Obligations.ControlStores := by
  unfold Obligations.ControlStores
  intro s who v refused
  have refuses {pa c : Nat} (hm : s.admits who pa v) (h8 : pa % 8 = 0)
      (hc : s.controlStore (agentOf who) pa v = .error c) : refused (.controlFieldStore who pa v) :=
    congrArg Host.Outcome.next (agentStore_error hm h8 hc)
  refine ⟨fun n r hn hr hw hs hm => ?register, fun hm h1 h2 => ?limit, fun k hk hm => ?tenant,
    fun pa hpa hm => congrArg Host.Outcome.next (agentStore_misaligned hm hpa), fun pa h1 h2 h8 hm => ?kinds, fun hm => ?modes,
    fun w hw hm hv => ?window, fun d i hd hi hm => ?island⟩
  case register =>
    have hpa : strandPage n + 0x100 + 8 * r = strandPage n + (0x100 + 8 * r) := Nat.add_assoc ..
    have h8 : (strandPage n + (0x100 + 8 * r)) % 8 = 0 := by rw [strandPage]; omega
    have hreg : strandReg (0x100 + 8 * r) = true := by simp [strandReg]; omega
    have hst := (controlStore_strand (off := 0x100 + 8 * r) hn (by omega) v).trans
      (strandStore_register hw hs ⟨by omega, by omega, by omega⟩ hreg (putReg_sreg (s.strand n) hr v))
    rw [hpa] at hm ⊢
    refine ⟨_, congrArg Host.Outcome.next (agentStore_ok hm h8 hst),
      ⟨rfl, fun k hk => by rw [State.strand_setStrand, if_neg hk]⟩, ?_, fun k => ?_⟩
    · rw [State.strand_setStrand_self]
      exact (s.strand n).setS_other _ v
    · rw [State.strand_setStrand_self, Strand.sreg_setS]
      have : k = BitVec.ofNat 5 r ↔ k.toNat = r := by
        rw [← BitVec.toNat_inj, BitVec.toNat_ofNat, Nat.mod_eq_of_lt hr]
      simp only [this]
  case limit =>
    refine congrArg Host.Outcome.next (agentStore_ok hm (by decide) ?_)
    rw [controlStore_hub (by decide)]
    exact if_pos ⟨h1, h2⟩
  case tenant =>
    obtain ⟨c, hc⟩ := tenantPageStore_state (s := s) (agentOf who) k v
    exact refuses hm (by rw [tenantPage]; omega) ((controlStore_tenant hk (by decide) v).trans hc)
  case kinds =>
    intro f0 old new legal
    have exec_kind : exec (.frameKindStore who pa v) s = .next (s.agentStore who pa v) := if_pos ⟨h1, h2⟩
    have hst := controlStore_kinds (s := s) (who := agentOf who) h1 h2 h8 v
    refine ⟨fun hl => ?_, fun ⟨i, hi, hl⟩ => ?_⟩
    · obtain ⟨t, ht, hframe, hread⟩ := kindStore_ok (s := s) (pa := pa) hl
      refine ⟨t, exec_kind.trans (congrArg _ (agentStore_ok hm h8 (hst.trans ht))), hframe, fun i hi => ?_, fun f hf => ?_⟩
      · rw [hread, if_pos ⟨by omega, by omega⟩, Nat.add_sub_cancel_left]
      · rw [hread, if_neg (by omega)]
    · exact exec_kind.trans (congrArg _ (agentStore_error hm h8 (hst.trans (kindStore_error fun h => hl (h i hi)))))
  case modes =>
    intro byte
    have hst := controlStore_hub (s := s) (who := agentOf who) (off := 0x2000) (by decide) v
    refine ⟨fun h1 h0 => ?_, fun h => ?_⟩
    · refine ⟨_, congrArg Host.Outcome.next (agentStore_ok hm (by decide) (hst.trans (modesStore_ok ⟨h1, h0⟩))), ?_⟩
      have modes (f : Nat) (hf : f < 8) :
          (Vector.ofFn fun f : Fin 8 => v.extractLsb' (8 * f.val) 8).toList.getD f 0#8 = byte f := toList_getD_ofFn _ _ hf
      by_cases h6 : v.extractLsb' 48 8 = 1#8
      · rw [if_pos h6]
        refine ⟨rfl, modes, fun h => absurd (h6.symm.trans h) (by decide), fun _ d hd => ⟨?_, fun i hi => ?_⟩⟩
        · rw [fullSpeed_die _ hd]
          rfl
        · exact fullSpeed_island _ hd hi
      · rw [if_neg h6]
        exact ⟨rfl, modes, fun _ => rfl, fun h => absurd h h6⟩
    · refine congrArg Host.Outcome.next (agentStore_error hm (by decide) (hst.trans (modesStore_error ?_)))
      rintro ⟨h1, h0⟩
      rcases h with ⟨f, hf, hb⟩ | hb
      · exact absurd hb (not_lt.2 (h1 f hf))
      · exact hb h0
  case window =>
    have hg : ¬ (16 ≤ w ∨ (!within v [(63, 38), (0, 0)]) = true) := by
      rw [within_win hv]
      rintro (h | h)
      · omega
      · exact nomatch h
    refine ⟨_, congrArg Host.Outcome.next (agentAct_ok hm (if_neg hg)), rfl, fun k => ?_⟩
    refine (toList_getD_setIfInBounds s.win w k _ _).trans ?_
    simp only [hw, and_true]
  case island =>
    intro c y clamped slows assisted h1 h2
    have hg : ¬ (4 ≤ d ∨ 12 ≤ i) := by omega
    obtain ⟨t, ht, hframe, htrip, island, hdies⟩ := islandStore_ok (s := s) hd hi h1 h2
    refine ⟨t, congrArg Host.Outcome.next (agentAct_ok hm ((if_neg hg).trans ht)), ?_⟩
    have hc2 : 2 ≤ (v.extractLsb' 0 12).toNat := le_trans (by decide) h1
    have hc0 : v.extractLsb' 0 12 ≠ 0#12 := fun h => absurd (h ▸ hc2) (by decide)
    have new : t.island d i = s.ceilingSet d i y (v.extractLsb' 0 12) := (island d i hd).trans (if_pos ⟨rfl, rfl⟩)
    have runs (hcl : ¬ clamped) (hy : y.state ≠ 1#2) (hs : y.state = 2#2 → ¬ slows) :=
      ceilingSet_runs (s := s) (i := i) (by omega : 1 ≤ (v.extractLsb' 0 12).toNat) hcl hy
        fun h => Bool.eq_false_iff.2 fun g => hs h (slowing_iff.1 g)
    beta_reduce
    intro z
    have hz : z = s.ceilingSet d i y (v.extractLsb' 0 12) := new
    rw [hz, htrip]
    refine ⟨hframe, by rw [ceilingSet_ceiling], ?trip, fun hcl => ?clamped, fun hy => ceilingSet_throttled hc0 hy,
      fun hcl hy hs => ceilingSet_startsSlow hc2 hcl hy (slowing_iff.2 hs), fun hcl hy hs => ?runs, hdies,
      fun e j he hj hne => (island e j he).trans (if_neg hne)⟩
    case trip =>
      refine (trip_ceilingSet hc2 s.trip).trans ?_
      simp only [slowing_iff]
      rfl
    case clamped =>
      rw [ceilingSet_clamped hc0 hcl]
      exact ⟨rfl, rfl⟩
    case runs =>
      obtain ⟨cap, hrun, hcap⟩ := runs hcl hy hs
      obtain ⟨hlow, hhigh⟩ := chooseFrequency_within s (c := v.extractLsb' 0 12) cap (by omega)
      rw [hrun]
      refine ⟨rfl, hlow, hhigh, fun ha => by rw [chooseFrequency_assisted cap ha], fun ha hsl hcur => ?_⟩
      rw [← hcap (slowing_iff.2 hsl)] at hcur ⊢
      exact chooseFrequency_cap (by omega) ha hcur

end Sys2Proof.Machine
end

section
/-! Tenants (O46): a tenant whose frames are all scrubbed is not freed before its cancelled work has completed (R75,
R283, R284). -/

namespace Sys2Proof.Machine

/-- A scrub does not complete while a record of its tenant is open or being cancelled (R283). -/
theorem exec_scrubComplete_waits {s : State} {n : Nat} (h : (s.tenant n).workDone = false) :
    exec (.scrubComplete n) s = .next s := by
  have hd : (!s.scrubDone n) = true := by rw [State.scrubDone, h, Bool.and_false]; rfl
  exact congrArg Host.Outcome.next (if_pos hd)

/-- Refutes O46: its clause on the end of a scrub asks only that nothing is left to write. Tenant 0 is in teardown with
nothing left, and launch 0x400 of it, one strand, is still being cancelled, as when that strand's KILL has not completed:
the step leaves the tenant in state 2, where the clause has it in state 0. -/
theorem not_tenantAndCounterActions : ¬ Obligations.TenantAndCounterActions := by
  unfold Obligations.TenantAndCounterActions
  intro h
  let cancelling : Record := { Record.empty with ident := 0x400#32, state := 3#3, target := 1#32 }
  let s : State := { State.reset with
    tenants := [(0, { Tenant.empty with state := 2#3, records := [(recordKey 0x400#32, cancelling)] })] }
  have waits : exec (.scrubComplete 0) s = .next s := exec_scrubComplete_waits (by decide)
  obtain ⟨-, -, -, -, -, -, scrub, -⟩ := h s .host 0 (by decide) (by decide)
  have live : ∀ d ∈ (s.tenant 0).scrubDies, (s.die d).fence = 0#2 := by decide
  obtain ⟨t, ht, hstate, -⟩ := (scrub rfl live).2 rfl
  rw [waits, Host.Outcome.next.injEq] at ht
  subst ht
  exact absurd hstate (by decide)

end Sys2Proof.Machine
end

section
/-! Words of the manual's examples (O58): each is read by its entry of the decoder. -/

namespace Sys2Proof.Machine

/-- Settles O58: the decoder is evaluated at each written word. -/
theorem decodesWrittenWords : Obligations.DecodesWrittenWords := by
  unfold Obligations.DecodesWrittenWords
  exact ⟨rfl, rfl, rfl, rfl, rfl, rfl, rfl, rfl, rfl, rfl, rfl, rfl⟩

end Sys2Proof.Machine
end

section
/-! The dispatcher and residency (O48): what the creation of an entry's strands does, who takes a slot, and who gives
one up (R79, R92 to R96, R107, R108). -/

namespace Sys2Proof.Machine

/-! The ready pool refills (R104, R107). -/

/-- The state apart from the ready pool, the counter that numbers its entries, and the tenants' pages. -/
def State.besidePool (s : State) : State := { s with nextId := 0, ready := [], tenants := [] }

/-- A record apart from what a graph notes of its nodes. -/
def State.recordCounts (s : State) (t k : Nat) : Record := { s.record t k with nodes := [] }

/-- What refilling the ready pool leaves alone. -/
def State.poolFrame (s : State) : State × (Nat → Nat → Record) := (s.besidePool, s.recordCounts)

/-- Noting something of a graph's nodes leaves every record's counts alone. -/
theorem poolFrame_updNodes (s : State) (t key : Nat) (f : List GraphNode → List GraphNode) :
    (s.updRecord t key fun r => { r with nodes := f r.nodes }).poolFrame = s.poolFrame := by
  refine Prod.ext rfl (funext fun a => funext fun k => ?_)
  simp only [State.poolFrame, State.recordCounts, record_updRecord]
  split
  · next h => rw [h.1, h.2]
  · rfl

theorem enqueueReady_poolFrame (s : State) (t : Nat) (g : BitVec 32) :
    (s.enqueueReady t g).poolFrame = s.poolFrame := by
  unfold State.enqueueReady
  split
  · rfl
  · split
    · rfl
    · refine foldl_keeps State.poolFrame _ (fun u i => ?_) _ s
      split
      · rfl
      · dsimp only
        split
        · exact poolFrame_updNodes _ t (recordKey g) fun l => l.modify i fun n => { n with queued := true }
        · rfl

theorem refillReady_poolFrame (s : State) : s.refillReady.poolFrame = s.poolFrame := by
  unfold State.refillReady
  split
  · rfl
  · exact foldl_keeps State.poolFrame _ (fun _ _ => foldl_keeps State.poolFrame _
      (fun _ _ => enqueueReady_poolFrame _ _ _) _ _) _ s

/-- States that agree beside the ready pool agree in their strands, HBM's bytes and their records' counts. -/
theorem of_poolFrame {s t : State} (h : t.poolFrame = s.poolFrame) :
    t.strands = s.strands ∧ t.mem = s.mem ∧ ∀ a k, t.recordCounts a k = s.recordCounts a k := by
  obtain ⟨hs, hr⟩ := Prod.mk.inj h
  exact ⟨(congrArg State.strands hs :), (congrArg State.mem hs :), fun a k => congrFun (congrFun hr a) k⟩

/-! The strands of a launch (R79). -/

/-- The strands of a launch, set one after another from a base up. -/
theorem foldl_setStrand (s : State) (base : Nat) (f : Nat → Strand) (count n : Nat) :
    ((List.range count).foldl (fun u i => u.setStrand (base + i) (f i)) s).strand n =
      if base ≤ n ∧ n < base + count then f (n - base) else s.strand n := by
  induction count with
  | zero => rw [if_neg (by omega)]; rfl
  | succ count ih =>
    rw [List.range_succ, List.foldl_append, List.foldl_cons, List.foldl_nil, State.strand_setStrand, ih]
    by_cases h : n = base + count
    · rw [if_pos h, if_pos (by omega), h, Nat.add_sub_cancel_left]
    · rw [if_neg h]
      exact if_congr (by omega) rfl rfl

section
variable (s : State) (t : Nat) (id : BitVec 32) (nd : Node) (pool : List Nat) (base : Nat)

theorem createStrands_strand (n : Nat) : (s.createStrands t id nd pool base).strand n =
    if base ≤ n ∧ n < base + nd.count then s.newStrand t id nd pool (n - base) else s.strand n :=
  foldl_setStrand s base (s.newStrand t id nd pool) nd.count n

theorem createStrands_mem : (s.createStrands t id nd pool base).mem = s.mem :=
  foldl_keeps State.mem (fun u i => u.setStrand (base + i) (s.newStrand t id nd pool i)) (fun _ _ => rfl) _ s

theorem createStrands_record : ((s.createStrands t id nd pool base).record t (recordKey id)).base = base ∧
    ((s.createStrands t id nd pool base).record t (recordKey id)).count = nd.count := by
  rw [State.createStrands, record_updRecord, if_pos ⟨rfl, rfl⟩]
  exact ⟨rfl, rfl⟩

theorem Strand.empty_sreg (r : SReg) : Strand.empty.sreg r = 0#64 := by
  have zeros : Strand.empty.s.toList = List.replicate 32 0#64 := Vector.toList_replicate
  rw [Strand.sreg, zeros, List.getD_replicate _ r.isLt, ite_self]

/-- A new strand's registers: its index, its arguments, its launch's count, and zeros (R15, R79). -/
theorem newStrand_sreg (i : Nat) (r : SReg) : (s.newStrand t id nd pool i).sreg r =
    if r = 3#5 then BitVec.ofNat 64 nd.count else if r = 2#5 then nd.args.setWidth 64
    else if r = 1#5 then BitVec.ofNat 64 i else 0#64 := by
  have e : (s.newStrand t id nd pool i).sreg r = (((Strand.empty.setS 1#5 (BitVec.ofNat 64 i)).setS 2#5
    (nd.args.setWidth 64)).setS 3#5 (BitVec.ofNat 64 nd.count)).sreg r := rfl
  rw [e]
  simp only [Strand.sreg_setS, Strand.empty_sreg]
  by_cases h : r = 0#5
  · subst h; rfl
  · simp only [if_neg h]

end

/-! An entry leaves the ready pool (R79, R107). -/

/-- An entry's launch record is at hand: `launch` has allocated it, or one is free. -/
theorem entryRecord_some {s : State} {e : ReadyEntry}
    (h : e.launch.isSome = true ∨ (s.freeRecord e.tenant 0).isSome = true) :
    ∃ id u, s.entryRecord e = some (id, u) ∧ u.strands = s.strands ∧ u.mem = s.mem ∧ u.ready = s.ready := by
  unfold State.entryRecord
  cases hl : e.launch with
  | some id => exact ⟨id, s, rfl, rfl, rfl, rfl⟩
  | none =>
    rw [hl] at h
    obtain ⟨k, hk⟩ := Option.isSome_iff_exists.1 (h.resolve_left Bool.false_ne_true)
    simp only [State.allocRecord, hk]
    exact ⟨_, _, rfl, rfl, rfl, rfl⟩

theorem entryRecord_launch {s : State} {e : ReadyEntry} {id : BitVec 32} (h : e.launch = some id) :
    s.entryRecord e = some (id, s) := by
  rw [State.entryRecord, h]

theorem takeEntry_frame (s : State) (e : ReadyEntry) (id : BitVec 32) :
    (s.takeEntry e id).strands = s.strands ∧ (s.takeEntry e id).mem = s.mem ∧
    ∀ t, ((s.takeEntry e id).tenant t).checked = (s.tenant t).checked := by
  unfold State.takeEntry State.noteCreated
  split
  · refine ⟨rfl, rfl, fun t => ?_⟩
    rw [State.updRecord, State.tenant_updTenant]
    split
    · next h => rw [h]; rfl
    · rfl
  · exact ⟨rfl, rfl, fun _ => rfl⟩

/-- The state in which an entry's strands have just been created, those of `u` under the launch `id`. -/
def State.entryStrands (u : State) (e : ReadyEntry) (id : BitVec 32) (pool : List Nat) (base : Nat) : State :=
  (u.takeEntry e id).createStrands e.tenant id e.node pool base

/-- An entry without a flow word, its pool and its numbers at hand, has its strands created; its graph goes on, and the
room that it leaves is offered. -/
theorem createEntry_cores {s u : State} {e : ReadyEntry} {id : BitVec 32} {pool : List Nat} {base : Nat}
    (hw : e.waits = .none) (hr : s.entryRecord e = some (id, u)) (hf : e.node.flow = none)
    (hp : s.takePool e.tenant e.node = .cores pool) (hb : s.freeRun e.node.count = some base) :
    s.createEntry e = some (if e.graph = 0#32 then u.entryStrands e id pool base
      else (u.entryStrands e id pool base).enqueueReady e.tenant e.graph).refillReady := by
  have flow : s.openFlow e = .done s := by rw [State.openFlow, hf]
  have go : ¬ (e.waits ≠ .none ∨ (s.entryRecord e).isNone = true) := by simp [hw, hr]
  unfold State.createEntry
  dsimp only
  rw [if_neg go, hp, hb]
  simp only [State.launchEntry, flow, hr, Option.map_some]
  by_cases hg : e.graph = 0#32
  · rw [if_pos hg, if_pos hg]; rfl
  · rw [if_neg hg, if_neg hg]; rfl

/-- DISPATCH_CREATE takes the first entry that nothing blocks, when its strands can be created. -/
theorem exec_dispatchCreate {s t : State} {e : ReadyEntry}
    (h : (s.readyOrder.filter fun e => !s.blockedEntry e).head? = some e) (ht : s.createEntry e = some t) :
    exec .dispatchCreate s = .next t := by
  obtain ⟨l, hl⟩ := List.head?_eq_some_iff.1 h
  change execDispatchCreate s = _
  rw [execDispatchCreate, hl, List.findSome?_cons_of_isSome (by rw [ht]; rfl), ht]
  rfl

/-- What is left of the dispatcher's creation: the strands of the launch, no other, and where its record has them. -/
theorem dispatchCreate_creates {s u : State} {e : ReadyEntry} {id : BitVec 32} {pool : List Nat} {base : Nat}
    (h : (s.readyOrder.filter fun e => !s.blockedEntry e).head? = some e)
    (hw : e.waits = .none) (hr : s.entryRecord e = some (id, u)) (hf : e.node.flow = none)
    (hp : s.takePool e.tenant e.node = .cores pool) (hb : s.freeRun e.node.count = some base) :
    ∃ t, exec .dispatchCreate s = .next t ∧ t.mem = u.mem ∧
      (∀ n, t.strand n = if base ≤ n ∧ n < base + e.node.count then
        (u.takeEntry e id).newStrand e.tenant id e.node pool (n - base) else u.strand n) ∧
      (t.record e.tenant (recordKey id)).base = base ∧
      (t.record e.tenant (recordKey id)).count = e.node.count := by
  have ht := createEntry_cores hw hr hf hp hb
  refine ⟨_, exec_dispatchCreate h ht, ?_⟩
  generalize hv : (if e.graph = 0#32 then u.entryStrands e id pool base
    else (u.entryStrands e id pool base).enqueueReady e.tenant e.graph).refillReady = t
  have frame : t.poolFrame = (u.entryStrands e id pool base).poolFrame := by
    rw [← hv, refillReady_poolFrame]
    split
    · rfl
    · exact enqueueReady_poolFrame _ _ _
  obtain ⟨hstrands, hmem, hcounts⟩ := of_poolFrame frame
  obtain ⟨tstrands, tmem, -⟩ := takeEntry_frame u e id
  obtain ⟨hbase, hcount⟩ := createStrands_record (u.takeEntry e id) e.tenant id e.node pool base
  refine ⟨?mem, fun n => ?strand, ?base, ?count⟩
  case mem => exact hmem.trans ((createStrands_mem ..).trans tmem)
  case strand =>
    refine (congrArg (lookupD · n Strand.empty) hstrands).trans ((createStrands_strand ..).trans ?_)
    exact if_congr Iff.rfl rfl (congrArg (lookupD · n Strand.empty) tstrands)
  case base => exact (congrArg Record.base (hcounts e.tenant (recordKey id))).trans hbase
  case count => exact (congrArg Record.count (hcounts e.tenant (recordKey id))).trans hcount

/-- The only entry of the ready pool is the one that is tried. -/
theorem readyOrder_single {s : State} {e : ReadyEntry} (h : s.ready = [e]) :
    (s.readyOrder.filter fun e => !s.blockedEntry e).head? = some e := by
  have free : s.blockedEntry e = false := by simp [State.blockedEntry, h]
  have order : s.readyOrder = [e] := by
    have hc : e.cls = 0#2 ∨ e.cls = 1#2 ∨ e.cls = 2#2 ∨ e.cls = 3#2 := by
      generalize e.cls = c
      revert c
      decide
    rcases hc with hc | hc | hc | hc <;> simp [State.readyOrder, h, hc]
  simp [order, free]

/-! Ageing (R107, R108). -/

/-- One class up, to class 3. -/
theorem agedClass_eq (c : BitVec 2) :
    (if c = 3#2 then 3#2 else c + 1#2) = BitVec.ofNat 2 (min (c.toNat + 1) 3) := by
  revert c
  decide

theorem exec_readyEntryAge (s : State) (id : Nat) : exec (.readyEntryAge id) s = .next { s with
    ready := s.ready.map fun e =>
      if e.id = id then { e with cls := BitVec.ofNat 2 (min (e.cls.toNat + 1) 3) } else e } := by
  simp only [← agedClass_eq]
  rfl

theorem exec_strandWaitAge {s : State} {n : Nat} (h1 : (s.strand n).state = 1#4) (h2 : (s.strand n).place = none) :
    exec (.strandWaitAge n) s = .next (s.setStrand n { s.strand n with
      cls := BitVec.ofNat 2 (min ((s.strand n).cls.toNat + 1) 3) }) := by
  rw [← agedClass_eq]
  exact if_pos ⟨h1, by rw [h2]; rfl⟩

/-! A slot is taken (R93 to R95). -/

section
variable {s t : State} {n c k : Nat}

/-- A core's room that holds the vector state as it is spills none (R94). -/
theorem makeRoom_fits {cl : Nat} (h : s.clusterFor c n = some cl) (fuel : Nat) :
    State.makeRoom fuel s c n = some (cl, s) := by
  unfold State.makeRoom
  rw [h]

theorem seat_room {cl : Nat} (hk : s.freeSlot c = some k) (hs : (s.strand n).seated = false)
    (hv : (s.strand n).vres = false) (hcl : s.clusterFor c n = some cl) :
    s.seat n c = some ((s.updStrand n fun x => { x with
      cluster := cl, vres := true, place := some { core := c, slot := k }
      dealt := c, seated := true }).seated n c) := by
  simp only [State.seat, hk, hs, hv, State.takeRoom, makeRoom_fits hcl, Bool.false_and, Bool.or_self,
    Bool.false_eq_true, if_false, updStrand_updStrand]

theorem seat_again (hk : s.freeSlot c = some k)
    (h : (s.strand n).seated = true ∨ (s.strand n).vres = true ∧ (s.strand n).core = c) :
    s.seat n c = some ((s.updStrand n fun x => { x with
      vres := (s.strand n).vres && (s.strand n).core == c, place := some { core := c, slot := k }
      dealt := c, seated := true }).seated n c) := by
  have take : ((s.strand n).seated || (s.strand n).vres && (s.strand n).core == c) = true := by simpa using h
  simp only [State.seat, hk, take, if_true, updStrand_updStrand]

/-- A strand that takes a slot has nothing on its core's scoreboard yet. -/
theorem seated_frame (s : State) (n c : Nat) : { s.seated n c with cores := s.cores } = s ∧
    (s.seated n c).core c = { s.core c with
      boardLine := (s.core c).boardLine.filter (· != n), boardHold := (s.core c).boardHold.filter (· != n) } ∧
    ∀ j, j ≠ c → (s.seated n c).core j = s.core j := by
  unfold State.seated
  split
  · exact ⟨rfl, State.core_updCore_self .., fun j hj => (State.core_updCore ..).trans (if_neg hj)⟩
  · next h =>
    simp only [Bool.or_eq_true, List.contains_iff_mem, not_or] at h
    have keep {l : List Nat} (hn : n ∉ l) : l.filter (· != n) = l :=
      List.filter_eq_self.2 fun a ha => bne_iff_ne.2 fun e => hn (e ▸ ha)
    refine ⟨rfl, ?_, fun _ _ => rfl⟩
    rw [keep h.1, keep h.2]

/-- The strand of the lowest number that waits for a slot takes one. -/
theorem exec_strandResident (hu : (s.strand n).unseated = true) (hc : s.seatCore n = some c)
    (hf : ∀ e ∈ s.strands, e.1 < n → e.2.unseated = false) (ht : s.seat n c = some t) :
    exec (.strandResident n) s = .next t := by
  have first : (!(s.strands.any fun e => decide (e.1 < n) && e.2.unseated &&
      s.seatCore e.1 == some c && (s.seat e.1 c).isSome)) = true := by
    rw [Bool.not_eq_true', List.any_eq_false]
    intro e he
    by_cases hn : e.1 < n
    · simp [hf e he hn]
    · simp [hn]
  change execStrandResident n s = _
  rw [execStrandResident, hu, hc]
  simp only [first, ht]
  rfl

end

/-! A slot is given up (R96, R219). -/

theorem leastBy_mem {α : Type} {key : α → Nat} {l : List α} {b : α} (h : leastBy key l = some b) : b ∈ l := by
  induction l generalizing b with
  | nil => exact nomatch h
  | cons a l ih =>
    rw [leastBy] at h
    split at h
    · next c hc =>
      split at h <;> obtain rfl := Option.some.inj h
      · exact List.mem_cons_self
      · exact List.mem_cons_of_mem _ (ih hc)
    · obtain rfl := Option.some.inj h
      exact List.mem_cons_self

/-- The element whose key lies below every other's is the least. -/
theorem leastBy_strict {α : Type} {key : α → Nat} {l : List α} {v : α} (hv : v ∈ l)
    (h : ∀ n ∈ l, n ≠ v → key v < key n) : leastBy key l = some v := by
  induction l with
  | nil => exact nomatch hv
  | cons a l ih =>
    have later (hl : v ∈ l) : leastBy key l = some v := ih hl fun n hn => h n (List.mem_cons_of_mem _ hn)
    rw [leastBy]
    by_cases ha : a = v
    · subst ha
      cases hb : leastBy key l with
      | none => rfl
      | some b =>
        refine congrArg some (if_pos ?_)
        by_cases hba : b = a
        · rw [hba]
        · exact (h b (List.mem_cons_of_mem _ (leastBy_mem hb)) hba).le
    · rw [later ((List.mem_cons.1 hv).resolve_left (Ne.symm ha))]
      exact congrArg some (if_neg (h a List.mem_cons_self ha).not_ge)

/-- A strand whose vector state is held, or is not (R94). -/
def Strand.withVres (x : Strand) (b : Bool) : Strand := { x with vres := b }

/-- Making room spills vector states, and does nothing else (R95, R220). -/
theorem makeRoom_frame {fuel c n k : Nat} {s t : State} (h : State.makeRoom fuel s c n = some (k, t)) :
    t.mem = s.mem ∧ ∀ m, t.strand m = (s.strand m).withVres (t.strand m).vres := by
  induction fuel generalizing s with
  | zero =>
    cases hk : s.clusterFor c n with
    | some cl =>
      obtain ⟨-, rfl⟩ := Prod.mk.inj (Option.some.inj ((makeRoom_fits hk 0).symm.trans h))
      exact ⟨rfl, fun _ => rfl⟩
    | none => simp [State.makeRoom, hk] at h
  | succ fuel ih =>
    cases hk : s.clusterFor c n with
    | some cl =>
      obtain ⟨-, rfl⟩ := Prod.mk.inj (Option.some.inj ((makeRoom_fits hk (fuel + 1)).symm.trans h))
      exact ⟨rfl, fun _ => rfl⟩
    | none =>
      simp only [State.makeRoom, hk] at h
      split at h
      · exact nomatch h
      · obtain ⟨hmem, hstrand⟩ := ih h
        refine ⟨hmem, fun m => (hstrand m).trans ?_⟩
        rw [State.strand_updStrand]
        split
        · next e => rw [e]; rfl
        · rfl

/-- A strand in a slot of a core. -/
def Strand.placedAt (x : Strand) (c k : Nat) : Strand :=
  { x with place := some { core := c, slot := k }, dealt := c, seated := true }

theorem placed_frame (u : State) (w c k : Nat) :
    ((u.updStrand w fun x => x.placedAt c k).seated w c).mem = u.mem ∧
    (((u.updStrand w fun x => x.placedAt c k).seated w c).strand w).place = some { core := c, slot := k } ∧
    ∀ m, m ≠ w → ((u.updStrand w fun x => x.placedAt c k).seated w c).strand m = u.strand m := by
  obtain ⟨rest, -, -⟩ := seated_frame (u.updStrand w fun x => x.placedAt c k) w c
  generalize (u.updStrand w fun x => x.placedAt c k).seated w c = t at rest
  have strand (m : Nat) : t.strand m = (u.updStrand w fun x => x.placedAt c k).strand m :=
    (congrArg (fun v : State => v.strand m) rest :)
  refine ⟨(congrArg State.mem rest :), ?_, fun m hm => ?_⟩
  · rw [strand, State.strand_updStrand_self]
    rfl
  · rw [strand, State.strand_updStrand, if_neg hm]

/-- A strand that takes a slot of a core spills others' vector states at most (R93 to R95). -/
theorem seat_frame {s t : State} {w c : Nat} (h : s.seat w c = some t) : t.mem = s.mem ∧
    (∃ k, (t.strand w).place = some { core := c, slot := k }) ∧
    ∀ m, m ≠ w → t.strand m = (s.strand m).withVres (t.strand m).vres := by
  have sits {u : State} {k : Nat} (ht : (u.updStrand w fun x => x.placedAt c k).seated w c = t)
      (hmem : u.mem = s.mem) (hu : ∀ m, m ≠ w → u.strand m = (s.strand m).withVres (u.strand m).vres) :
      t.mem = s.mem ∧ (∃ k, (t.strand w).place = some { core := c, slot := k }) ∧
      ∀ m, m ≠ w → t.strand m = (s.strand m).withVres (t.strand m).vres := by
    obtain ⟨tmem, tplace, tstrand⟩ := placed_frame u w c k
    rw [ht] at tmem tplace tstrand
    exact ⟨tmem.trans hmem, ⟨k, tplace⟩, fun m hm => by rw [tstrand m hm]; exact hu m hm⟩
  unfold State.seat at h
  dsimp only at h
  split at h
  · exact nomatch h
  · split at h
    · exact nomatch h
    · next hu =>
      have ht := Option.some.inj h
      split at hu
      · obtain rfl := Option.some.inj hu
        exact sits ht rfl fun m hm => by rw [State.strand_updStrand, if_neg hm]; rfl
      · unfold State.takeRoom at hu
        split at hu
        · exact nomatch hu
        · next hv =>
          obtain rfl := Option.some.inj hu
          obtain ⟨vmem, vstrand⟩ := makeRoom_frame hv
          exact sits ht vmem fun m hm => by rw [State.strand_updStrand, if_neg hm]; exact vstrand m

/-- A core pre-empts the strand of the lowest class among those that have held their slots long, for the only one that
waits for it. -/
theorem preemptPair_eq {s : State} {c v w : Nat} {held : List Nat}
    (may : Nat → Prop) (hmay : ∀ n, may n ↔ ((s.strand n).place.map fun p => p.core) = some c ∧
      ((s.strand n).state = 1#4 ∨ (s.strand n).state = 8#4) ∧ (s.strand n).wait.atBoundary = true)
    (hv : v ∈ held) (hm : may v)
    (hl : ∀ n ∈ held, may n → n ≠ v → (s.strand v).cls.toNat < (s.strand n).cls.toNat)
    (hw : ∀ e ∈ s.strands, e.2.waitsOn c = true → e.1 = w) (hx : ∃ e ∈ s.strands, e.2.waitsOn c = true) :
    s.preemptPair c held = some (v, w) := by
  have waits : leastBy (fun n => 3 - (s.strand n).cls.toNat)
      ((s.strands.filter fun e => e.2.waitsOn c).map (·.1)) = some w := by
    have all : ∀ n ∈ (s.strands.filter fun e => e.2.waitsOn c).map (·.1), n = w := by
      intro n hn
      obtain ⟨e, he, rfl⟩ := List.mem_map.1 hn
      obtain ⟨he, hc⟩ := List.mem_filter.1 he
      exact hw e he hc
    obtain ⟨e, he, hc⟩ := hx
    refine leastBy_strict ?_ fun n hn hne => absurd (all n hn) hne
    exact hw e he hc ▸ List.mem_map.2 ⟨e, List.mem_filter.2 ⟨he, hc⟩, rfl⟩
  have gives : leastBy (fun n => (s.strand n).cls.toNat) (held.filter fun n =>
      ((s.strand n).place.map (·.core)) == some c && ((s.strand n).state == 1#4 || (s.strand n).state == 8#4) &&
      (s.strand n).wait.atBoundary) = some v := by
    have test (n : Nat) : (((s.strand n).place.map (·.core)) == some c &&
        ((s.strand n).state == 1#4 || (s.strand n).state == 8#4) && (s.strand n).wait.atBoundary) = true ↔ may n := by
      rw [hmay]
      simp [and_assoc]
    refine leastBy_strict (List.mem_filter.2 ⟨hv, (test v).2 hm⟩) fun n hn hne => ?_
    obtain ⟨hn, ht⟩ := List.mem_filter.1 hn
    exact hl n hn ((test n).1 ht) hne
  simp only [State.preemptPair, gives, waits]

/-- Settles O48: the dispatcher's step is one entry taken, whose strands are set before the pool refills; a strand takes
a slot by an update of its own, and the strand that gives one up keeps all but its place, class and time. -/
theorem dispatchAndResidency : Obligations.DispatchAndResidency := by
  unfold Obligations.DispatchAndResidency
  intro s
  refine ⟨fun e pool base h hw hl hf hp hb => ?create, fun e id pool base h hl hg hw hf hp hb => ?launched,
    fun id => ?age, fun id => ?blocking, fun n h1 h2 => exec_strandWaitAge h1 h2,
    fun n c k cl hu hc hfirst hk => ?resident, fun c v w held hvw hwaits hx => ?preempt⟩
  case create =>
    obtain ⟨id, u, hr, ustrands, umem, -⟩ := entryRecord_some hl
    obtain ⟨t, ht, hmem, hstrand, -⟩ := dispatchCreate_creates h hw hr hf hp hb
    refine ⟨t, ht, hmem.trans umem, fun i hi => ?_, fun n hn => ?_⟩
    · dsimp only
      rw [hstrand, if_pos (by omega), Nat.add_sub_cancel_left]
      exact ⟨rfl, rfl, rfl, newStrand_sreg .., newStrand_sreg .., newStrand_sreg ..⟩
    · rw [hstrand, if_neg (by omega), State.strand, ustrands]
      rfl
  case launched =>
    obtain ⟨t, ht, hmem, hstrand, hbase, hcount⟩ := dispatchCreate_creates (readyOrder_single h) hw
      (entryRecord_launch hl) hf hp hb
    obtain ⟨-, -, hchecked⟩ := takeEntry_frame s e id
    refine ⟨t, ht, fun i hi => ?_, fun n hn => ?_, hbase, hcount, hmem⟩
    · dsimp only
      rw [hstrand, if_pos (by omega), Nat.add_sub_cancel_left]
      refine ⟨rfl, rfl, rfl, rfl, rfl, newStrand_sreg .., newStrand_sreg .., newStrand_sreg .., fun r hr => ?_,
        rfl, rfl, rfl, rfl, rfl, hchecked e.tenant⟩
      have ne (j : SReg) (hj : j.toNat < 4) : r ≠ j := fun e => by rw [e] at hr; omega
      rw [newStrand_sreg, if_neg (ne 3#5 (by decide)), if_neg (ne 2#5 (by decide)), if_neg (ne 1#5 (by decide))]
    · rw [hstrand, if_neg (by omega)]
  case age =>
    refine ⟨_, exec_readyEntryAge s id, rfl, List.length_map _, fun i hi => ?_⟩
    rw [List.getElem?_map, List.getElem?_eq_getElem hi]
    rfl
  case blocking =>
    refine ⟨_, rfl, rfl, List.length_map _, fun i hi => ?_⟩
    rw [List.getElem?_map, List.getElem?_eq_getElem hi]
    rfl
  case resident =>
    intro x sits
    have sat {f : Strand → Strand} {y : Strand} (hf : f x = { y with
        place := some { core := c, slot := k }, dealt := c, seated := true })
        (ht : s.seat n c = some ((s.updStrand n f).seated n c)) :
        Completes (.strandResident n) s fun t => sits t y := by
      refine ⟨_, exec_strandResident hu hc hfirst ht, ?_⟩
      obtain ⟨rest, mine, others⟩ := seated_frame (s.updStrand n f) n c
      exact ⟨rest.trans (congrArg (s.setStrand n) hf), mine, others⟩
    exact ⟨fun hs hv hcl => sat rfl (seat_room hk hs hv hcl), fun h => sat rfl (seat_again hk h)⟩
  case preempt =>
    intro may hm hv hl hseat
    obtain ⟨t, ht⟩ := Option.isSome_iff_exists.1 hseat
    have pair := preemptPair_eq may (fun _ => Iff.rfl) hv hm hl hwaits hx
    have taken : exec (.preempt c held) s = .next t := by
      change execPreempt c held s = _
      rw [execPreempt, pair]
      exact congrArg (fun r : Option State => Host.Outcome.next (r.getD s)) ht
    obtain ⟨hmem, hplace, others⟩ := seat_frame ht
    have hstrand := others v hvw
    rw [State.strand_setStrand_self] at hstrand
    refine ⟨t, taken, ?_⟩
    dsimp only
    rw [hstrand]
    exact ⟨rfl, rfl, rfl, rfl, rfl, rfl, rfl, hplace, hmem⟩

end Sys2Proof.Machine
end

section
/-! The end of a strand (O19): what its count in its launch can lead to, and what `exit` finds and leaves (R65, R80,
R81, R86). -/

namespace Sys2Proof.Machine

/-! Tables: what a filter keeps. -/

/-- An entry that a table is read at is one of its entries, unless it is the default. -/
theorem mem_of_lookupD_ne {α : Type} {t : Table α} {k : Nat} {d : α} (h : lookupD t k d ≠ d) :
    (k, lookupD t k d) ∈ t := by
  induction t with
  | nil => exact absurd rfl h
  | cons e r ih =>
    obtain ⟨j, v⟩ := e
    by_cases hj : j = k
    · simp [lookupD, hj]
    · rw [lookupD, if_neg hj] at h ⊢
      exact List.mem_cons_of_mem _ (ih h)

/-- An entry that a filter keeps is still read, whatever follows the table. -/
theorem lookupD_filter_append {α : Type} {t r : Table α} {k : Nat} {d : α} {p : Nat × α → Bool}
    (h : lookupD t k d ≠ d) (hp : p (k, lookupD t k d) = true) :
    lookupD (t.filter p ++ r) k d = lookupD t k d := by
  induction t with
  | nil => exact absurd rfl h
  | cons e t ih =>
    obtain ⟨j, v⟩ := e
    by_cases hj : j = k
    · subst hj
      rw [lookupD, if_pos rfl] at hp
      simp [lookupD, hp]
    · rw [lookupD, if_neg hj] at h hp ⊢
      by_cases hk : p (j, v) = true
      · rw [List.filter_cons_of_pos hk, List.cons_append, lookupD, if_neg hj]
        exact ih h hp
      · rw [List.filter_cons_of_neg hk]
        exact ih h hp

/-! The stores of the dispatcher leave the strands alone (R105). -/

theorem vineApply_issuing (s : State) (c key off : Nat) (l : List Byte) (tag : Option Tag) :
    (s.vineApply c key off l tag).issuing = s.issuing :=
  foldl_keeps State.issuing _ (fun u pa => linkApply_issuing u key pa l tag) _ s

theorem settleAll_issuing (s : State) (x : Target) : (s.settleAll x).issuing = s.issuing := by
  cases x with
  | vine c off key => exact vineAcceptN_issuing s c _
  | remote pa g => exact remoteDrain_issuing s
  | spad c lane a => rfl
  | hbm pa key r => rfl
  | control pa => rfl
  | window w off => rfl

theorem engineWrite_issuing (s : State) (x : Target) (l : List Byte) : (s.engineWrite x l).issuing = s.issuing := by
  refine Eq.trans ?_ (settleAll_issuing s x)
  cases x with
  | vine c off key => exact vineApply_issuing (s.settleAll (.vine c off key)) c key off l none
  | remote pa g => rfl
  | spad c lane a => rfl
  | hbm pa key r => exact hbmWrite_issuing s key pa l
  | control pa => rfl
  | window w off =>
    unfold State.engineWrite
    dsimp only
    split <;> rfl

theorem closeFlow_issuing (s : State) (t : Nat) (nd : Option Node) : (s.closeFlow t nd).issuing = s.issuing := by
  unfold State.closeFlow
  split
  · rfl
  · dsimp only
    split
    · exact engineWrite_issuing ..
    · rfl
    · rfl

theorem noteOutcome_issuing (s : State) (t : Nat) (r : Record) : (s.noteOutcome t r).issuing = s.issuing := by
  unfold State.noteOutcome
  split <;> rfl

theorem retireSilentJob_issuing (s : State) (t : Nat) (id : BitVec 32) :
    (s.retireSilentJob t id).issuing = s.issuing := by
  unfold State.retireSilentJob
  dsimp only
  split <;> rfl

theorem enqueueReady_issuing (s : State) (t : Nat) (g : BitVec 32) : (s.enqueueReady t g).issuing = s.issuing :=
  congrArg (fun p : State × (Nat → Nat → Record) => p.1.issuing) (enqueueReady_poolFrame s t g)

theorem refillReady_issuing (s : State) : s.refillReady.issuing = s.issuing :=
  congrArg (fun p : State × (Nat → Nat → Record) => p.1.issuing) (refillReady_poolFrame s)

/-- The state apart from what a strand that ends gives up: its requests, the faults held for it, its groups, its page,
its engines, its seal records and its region (R80). -/
def State.besideEnd (s : State) : State :=
  { s with strands := [], tenants := [], requests := [], groups := [], cores := [], seals := [], races := [] }

theorem abandonSeal_besideEnd (s : State) (m : Nat) : (s.abandonSeal m).besideEnd = s.besideEnd := by
  have finish : (s.sealFinish m).besideEnd = s.besideEnd := by
    unfold State.sealFinish
    dsimp only
    split
    · rfl
    · split <;> rfl
  unfold State.abandonSeal
  split
  · rfl
  · split
    · rfl
    · exact finish

theorem abandonSeals_besideEnd (s : State) (n : Nat) : (s.abandonSeals n).besideEnd = s.besideEnd := by
  refine foldl_keeps State.besideEnd _ (fun t e => ?_) s.seals s
  split
  · rfl
  · exact abandonSeal_besideEnd t e.1

/-- A strand that ends leaves the rest of the state alone, its operations too where it is not forced (R80, R139). -/
theorem endPage_besideEnd (s : State) (n : Nat) (page : Strand) (forced : Bool) :
    (s.endPage n page forced).besideEnd = (if forced then s.endOps n page.cause.toNat else s).besideEnd := by
  unfold State.endPage
  dsimp only
  generalize (if forced then s.endOps n page.cause.toNat else s) = u
  have sweep (v : State) : v.sweepRaces.besideEnd = v.besideEnd := rfl
  have leave (v : State) : (v.leaveEngines n forced).besideEnd = v.besideEnd := rfl
  have page (v : State) : (v.setStrand n page).besideEnd = v.besideEnd := rfl
  have lose (v : State) (e : Bool) : (v.loseGroups n e).besideEnd = v.besideEnd := rfl
  have forget (v : State) : (v.forgetHeld n).besideEnd = v.besideEnd := rfl
  have drop (v : State) : (v.dropRequests n).besideEnd = v.besideEnd := rfl
  rw [sweep, abandonSeals_besideEnd, leave, page, lose, forget, drop]

theorem besideEnd_rest {s t : State} (h : t.besideEnd = s.besideEnd) : { t with
    strands := s.strands, tenants := s.tenants, requests := s.requests, groups := s.groups, cores := s.cores
    seals := s.seals, races := s.races } = s :=
  (congrArg (fun u : State => { u with
    strands := s.strands, tenants := s.tenants, requests := s.requests, groups := s.groups, cores := s.cores
    seals := s.seals, races := s.races }) h :)

theorem endPage_cur (s : State) (n : Nat) (page : Strand) (forced : Bool) :
    (s.endPage n page forced).cur = s.cur := by
  refine (congrArg State.cur (endPage_besideEnd s n page forced) :).trans ?_
  cases forced <;> rfl

/-! What a count can do to a strand (R80, R81, R83, R104): its launch may be retired, which frees it, and its graph may
have strands killed. -/

/-- A property of the strands that keeps when strands of a launch are freed and when a strand is killed. -/
structure StrandsKeep (P : State → Prop) : Prop where
  same : ∀ {s t : State}, P s → t.issuing = s.issuing → P t
  freed : ∀ {s : State} (t : Nat) (id : BitVec 32), P s → P (s.freeStrands t id)
  killed : ∀ {s : State} (n c : Nat), P s → P (s.killRaw n c)

section
variable {P : State → Prop} (hP : StrandsKeep P)
include hP

theorem StrandsKeep.retireChildren {s : State} (t : Nat) (id : BitVec 32) (h : P s) : P (s.retireChildren t id) := by
  unfold State.retireChildren
  refine hP.same (List.foldlRecOn _ _ h fun u hu e _ => ?_) rfl
  split
  · exact hP.freed _ _ hu
  · exact hu

theorem StrandsKeep.afterComplete {s : State} (t : Nat) (r : Record) (h : P s) : P (s.afterComplete t r) := by
  have children : P (if workLevel r.ident = 0 then (s.closeFlow t r.node).noteOutcome t r
      else s.retireChildren t r.ident) := by
    split
    · exact hP.same h ((noteOutcome_issuing ..).trans (closeFlow_issuing ..))
    · exact hP.retireChildren t r.ident h
  unfold State.afterComplete
  dsimp only
  generalize (if workLevel r.ident = 0 then (s.closeFlow t r.node).noteOutcome t r
    else s.retireChildren t r.ident) = u at children
  have job : ((if workLevel r.ident = 3 then (u.finishCommands t r).retireSilentJob t r.ident
      else u.finishCommands t r).dropSilent).issuing = u.issuing := by
    split
    · exact retireSilentJob_issuing (u.finishCommands t r) t r.ident
    · rfl
  exact hP.same children job

theorem StrandsKeep.countIn (fuel : Nat) {s : State} (t : Nat) (id : BitVec 32) (ok : Bool) (cause : BitVec 8)
    (h : P s) : P (s.countIn fuel t id ok cause) := by
  induction fuel generalizing s id ok cause with
  | zero => exact h
  | succ fuel ih =>
    rw [State.countIn]
    split
    · exact h
    · dsimp only
      split
      · have done (r : Record) : P ((s.updRecord t (recordKey id) fun _ => r).afterComplete t r) :=
          hP.afterComplete t r (hP.same h rfl)
        split
        · exact ih _ _ _ (done _)
        · exact done _
      · exact hP.same h rfl

theorem StrandsKeep.abandonNode {s : State} (t : Nat) (g : BitVec 32) (i : Nat) (h : P s) :
    P (s.abandonNode t g i) := by
  unfold State.abandonNode
  split
  · exact h
  · split
    · exact h
    · dsimp only
      split
      · exact h
      · split
        · split
          · exact h
          · exact hP.countIn 3 _ _ _ _ (hP.same h rfl)
        · split
          · exact h
          · split
            · exact h
            · exact List.foldlRecOn _ _ h fun u hu n _ => hP.killed n kAbandoned hu

/-- What follows a count in a graph keeps the property (R81, R104). -/
theorem StrandsKeep.afterCount {s : State} (t : Nat) (g : Option (BitVec 32)) (h : P s) : P (s.afterCount t g) := by
  cases g with
  | none => exact h
  | some g =>
    have settled : P (s.settleGraph t g) := List.foldlRecOn _ _ h fun u hu i _ => hP.abandonNode t g i hu
    exact hP.same settled ((refillReady_issuing _).trans (enqueueReady_issuing _ t g))

end

/-! A strand that has ended keeps its page, or is freed with its launch (R80). -/

/-- Strand `n` issues, and its page is the one it ended with, unless its work has been retired. -/
def State.keptOrFreed (n : Nat) (page : Strand) (t : State) : Prop :=
  t.cur = n ∧ (t.freed n page ∨ t.strand n = page)

section
variable {n : Nat} {page : Strand}

/-- What a freed strand leaves under way belongs to no launch (log 80). -/
theorem freed_append_leftOver {kept left : Table Strand} {s : State} (hl : page.launch ≠ 0#32)
    (hs : s.strands = kept ++ left) (hleft : ∀ e ∈ left, e.2.launch = 0#32)
    (hkept : ∀ e ∈ kept, e.1 = n → e.2.owner = page.owner → e.2.launch = page.launch → e.2.state = 0#4) :
    s.freed n page := by
  intro e hmem hn ho hlaunch
  rw [hs] at hmem
  rcases List.mem_append.1 hmem with h | h
  · exact hkept e h hn ho hlaunch
  · exact absurd (hlaunch.symm.trans (hleft e h)) hl

theorem Strand.ne_empty_of_ended {x : Strand} (h : x.ended = true) : x ≠ Strand.empty := by
  rintro rfl
  exact absurd h (by decide)

theorem keptOrFreed_freeStrands (hl : page.launch ≠ 0#32) (he : page.ended = true) {s : State} (t : Nat)
    (id : BitVec 32) (h : s.keptOrFreed n page) :
    (s.freeStrands t id).keptOrFreed n page := by
  obtain ⟨hcur, h⟩ := h
  refine ⟨hcur, ?_⟩
  let gone (x : Strand) : Bool := x.owner.toNat == t && x.launch == id && x.state != 0#4
  let keeps (e : Nat × Strand) : Bool := !gone e.2 && (decide (e.1 < strandMax) || s.underWay e.1)
  let left : Table Strand := (s.strands.filter fun e => gone e.2 && s.underWay e.1).map fun e =>
    (strandMax * (s.nextId + 1) + e.1, e.2.leftOver)
  have strands : (s.freeStrands t id).strands = s.strands.filter keeps ++ left := rfl
  have leftOver : ∀ e ∈ left, e.2.launch = 0#32 := by
    intro e hm
    obtain ⟨_, -, rfl⟩ := List.mem_map.1 hm
    rfl
  have freed := freed_append_leftOver (n := n) hl strands leftOver
  rcases h with h | h
  · exact .inl (freed fun e hm => h e (List.mem_filter.1 hm).1)
  · by_cases hk : keeps (n, page) = true
    · refine .inr ?_
      have read : lookupD s.strands n Strand.empty = page := h
      rw [State.strand, strands, lookupD_filter_append (by rw [read]; exact Strand.ne_empty_of_ended he)
        (by rw [read]; exact hk), read]
    · refine .inl (freed fun e hm hn ho hlaunch => ?_)
      obtain ⟨-, hm⟩ := List.mem_filter.1 hm
      simp only [keeps, gone, hn, ho, hlaunch, Bool.and_eq_true, Bool.or_eq_true, Bool.not_eq_true',
        Bool.and_eq_false_iff, decide_eq_true_eq, bne_eq_false_iff_eq] at hm hk
      obtain ⟨away | free, stays⟩ := hm
      · exact absurd ⟨.inl away, stays⟩ hk
      · exact free

theorem keptOrFreed_killRaw (he : page.ended = true) {s : State} (m c : Nat) (h : s.keptOrFreed n page) :
    (s.killRaw m c).keptOrFreed n page := by
  unfold State.killRaw
  dsimp only
  split
  · exact h
  · next live =>
    obtain ⟨hcur, h⟩ := h
    generalize hy : ({ (s.strand m).finish 7#4 cCancelled true with
      killing := true, counted := BitVec.ofNat 8 c } : Strand) = y
    obtain ⟨strand, -, -⟩ := endPage_frame s m y true
    refine ⟨(endPage_cur ..).trans hcur, ?_⟩
    rcases h with h | h
    · refine .inl fun e hm hn ho hlaunch => ?_
      have strands : (s.endPage m y true).strands = insertAt s.strands m y :=
        congrArg Prod.fst (endPage_workParts s m y true)
      rw [strands] at hm
      rcases mem_insertAt _ _ _ _ hm with rfl | hm
      · have listed : (m, s.strand m) ∈ s.strands :=
          mem_of_lookupD_ne fun e => live (.inl (by rw [State.strand, e]; rfl))
        subst hy
        exact absurd (h _ listed hn ho hlaunch) fun e => live (.inl e)
      · exact h e hm hn ho hlaunch
    · refine .inr ?_
      rw [strand, if_neg, h]
      rintro rfl
      exact live (.inr (by rw [h]; exact he))

theorem strandsKeep_keptOrFreed (hl : page.launch ≠ 0#32) (he : page.ended = true) :
    StrandsKeep (State.keptOrFreed n page) where
  same {s t} h e := by
    obtain ⟨hs, hc⟩ := issuing_iff.1 e
    obtain ⟨hcur, h⟩ := h
    refine ⟨hc.trans hcur, h.imp (fun h => ?_) fun h => ?_⟩
    · intro e
      rw [hs]
      exact h e
    · rw [State.strand, hs]
      exact h
  freed t id h := keptOrFreed_freeStrands hl he t id h
  killed m c h := keptOrFreed_killRaw he m c h

end

/-- A strand without a launch is counted nowhere. -/
theorem findRecord_zero (s : State) (t : Nat) : s.findRecord t 0#32 = none := by
  unfold State.findRecord
  dsimp only
  rw [if_neg]
  rintro ⟨-, h⟩
  exact h rfl

theorem findRecord_congr {s t : State} (h : ∀ a k, t.record a k = s.record a k) (a : Nat) (id : BitVec 32) :
    t.findRecord a id = s.findRecord a id := by
  simp only [State.findRecord, h]

/-- A strand that ends while it issues takes its page, is counted in its launch, and its graph goes on (R80, R81). -/
theorem endStrand_eq {s : State} {state : BitVec 4} {cause : Nat} {discard : Bool}
    (h0 : s.me.state ≠ 0#4) (he : s.me.ended = false) : s.endStrand s.cur state cause discard =
      ((s.endPage s.cur (s.me.finish state cause discard) false).countIn 4 s.me.owner.toNat s.me.launch
        (state == 5#4) (BitVec.ofNat 8 cause)).afterCount
        s.me.owner.toNat (s.graphOf s.me.owner.toNat s.me.launch) := by
  obtain ⟨strand, -, -⟩ := endPage_frame s s.cur (s.me.finish state cause discard) false
  have go : ¬ ((s.strand s.cur).state = 0#4 ∨ (s.strand s.cur).ended = true) := by
    rintro (h | h)
    · exact h0 h
    · exact Bool.false_ne_true (he.symm.trans h)
  have mine : (s.endPage s.cur (s.me.finish state cause discard) false).strand s.cur =
      s.me.finish state cause discard := (strand s.cur).trans (if_pos rfl)
  rw [State.endStrand, State.endStrandRaw, State.endStrandTo, if_neg go, State.countStrand]
  change State.afterCount (State.countIn 4 (s.endPage s.cur (s.me.finish state cause discard) false) _ _ _ _) _ _ = _
  rw [show State.strand (State.endPage s s.cur ((s.strand s.cur).finish state cause discard) false) s.cur = _ from mine]
  rfl

/-- A strand that ends while it issues keeps the page it ends with, or is freed with its launch (R80). -/
theorem endStrand_keptOrFreed {s : State} {state : BitVec 4} {cause : Nat} {discard : Bool}
    (h0 : s.me.state ≠ 0#4) (he : s.me.ended = false) (hend : (s.me.finish state cause discard).ended = true) :
    (s.endStrand s.cur state cause discard).keptOrFreed s.cur (s.me.finish state cause discard) := by
  obtain ⟨strand, -, -⟩ := endPage_frame s s.cur (s.me.finish state cause discard) false
  have start : (s.endPage s.cur (s.me.finish state cause discard) false).keptOrFreed s.cur
      (s.me.finish state cause discard) := ⟨endPage_cur .., .inr ((strand s.cur).trans (if_pos rfl))⟩
  rw [endStrand_eq h0 he]
  by_cases hl : s.me.launch = 0#32
  · have graph : s.graphOf s.me.owner.toNat s.me.launch = none := by rw [State.graphOf, hl, findRecord_zero]
    rw [graph, hl, State.countIn, findRecord_zero]
    exact start
  · have keep := strandsKeep_keptOrFreed (n := s.cur) (page := s.me.finish state cause discard) hl hend
    exact keep.afterCount _ _ (keep.countIn 4 _ _ _ _ start)

/-- A strand that ends while it issues, and does not complete its launch, is counted there and nowhere else (R80). -/
theorem endStrand_open {s : State} {state : BitVec 4} {cause : Nat} {discard : Bool} {r : Record}
    (h0 : s.me.state ≠ 0#4) (he : s.me.ended = false)
    (hr : s.findRecord s.me.owner.toNat s.me.launch = some r) (hp : r.parent = none)
    (hf : (r.countItem (state == 5#4) (BitVec.ofNat 8 cause)).full = false) :
    s.endStrand s.cur state cause discard =
      (s.endPage s.cur (s.me.finish state cause discard) false).updRecord s.me.owner.toNat (recordKey s.me.launch)
        fun _ => r.countItem (state == 5#4) (BitVec.ofNat 8 cause) := by
  obtain ⟨-, -, record⟩ := endPage_frame s s.cur (s.me.finish state cause discard) false
  have counted := countIn_open ((findRecord_congr record _ _).trans hr) hf 3
  have graph : s.graphOf s.me.owner.toNat s.me.launch = none := by rw [State.graphOf, hr]; exact hp
  rw [endStrand_eq h0 he, graph]
  exact counted

theorem countItem_open {r : Record} (ok : Bool) (c : BitVec 8)
    (h : r.completed.toNat + r.failed.toNat + 1 < r.target.toNat) : (r.countItem ok c).full = false := by
  cases ok with
  | false => exact countItem_failed_open c h
  | true =>
    have ht := r.target.isLt
    have hc : (r.completed + 1#32).toNat = r.completed.toNat + 1 := by
      rw [BitVec.toNat_add_of_lt (by simp; omega)]
      rfl
    change ((r.completed + 1#32).toNat + r.failed.toNat == r.target.toNat) = false
    rw [hc, beq_eq_false_iff_ne]
    omega

/-! `exit` (R86). -/

/-- Tag `j` has a failed status that no wait has returned (R141). -/
def Strand.tagFailed (x : Strand) (j : Nat) : Prop :=
  (x.tstat.toList.getD j 0#9).toNat % 256 ≠ 0 ∧ (x.tstat.toList.getD j 0#9).getLsbD 8 = false

theorem status_ne_zero_iff (w : BitVec 9) : w.extractLsb' 0 8 ≠ 0#8 ↔ w.toNat % 256 ≠ 0 := by
  rw [ne_eq, ← BitVec.toNat_inj, BitVec.extractLsb'_toNat, Nat.shiftRight_zero]
  rfl

/-- What a tag gives `exit` for a cause. -/
def Strand.tagCause (x : Strand) (j : Nat) : Option Nat :=
  let w := x.tstat.toList.getD j 0#9
  if w.extractLsb' 0 8 ≠ 0#8 ∧ w.getLsbD 8 = false then some (w.extractLsb' 0 8).toNat else none

theorem failedTag_eq (x : Strand) : x.failedTag = (List.range 64).findSome? x.tagCause := rfl

theorem tagCause_of_failed {x : Strand} {j : Nat} (h : x.tagFailed j) :
    x.tagCause j = some ((x.tstat.toList.getD j 0#9).extractLsb' 0 8).toNat :=
  if_pos ⟨(status_ne_zero_iff _).2 h.1, h.2⟩

theorem tagCause_of_not_failed {x : Strand} {j : Nat} (h : ¬ x.tagFailed j) : x.tagCause j = none :=
  if_neg fun g => h ⟨(status_ne_zero_iff _).1 g.1, g.2⟩

theorem failedTag_none {x : Strand} (h : ∀ j, j < 64 → ¬ x.tagFailed j) : x.failedTag = none := by
  rw [failedTag_eq, List.findSome?_eq_none_iff]
  exact fun j hj => tagCause_of_not_failed (h j (List.mem_range.1 hj))

/-- The lowest failed tag gives its status (R86, R141). -/
theorem failedTag_lowest {x : Strand} {j : Nat} (hj : j < 64) (h : x.tagFailed j)
    (hlow : ∀ i, i < j → ¬ x.tagFailed i) :
    x.failedTag = some ((x.tstat.toList.getD j 0#9).extractLsb' 0 8).toNat := by
  have split : List.range 64 = List.range j ++ j :: (List.range (63 - j)).map (j + 1 + ·) := by
    rw [show 64 = j + 1 + (63 - j) by omega, List.range_add, List.range_succ, List.append_assoc]
    simp
  rw [failedTag_eq, List.findSome?_eq_some_iff]
  exact ⟨_, j, _, split, tagCause_of_failed h, fun i hi => tagCause_of_not_failed (hlow i (List.mem_range.1 hi))⟩

/-- The issuing strand has moved past its instruction (R65). -/
def State.past (s : State) : State := s.updMe fun x => { x with pc := s.npc }

theorem past_me (s : State) : s.past.me = { s.me with pc := s.npc } := State.me_updMe ..

/-- The state that `exit` ends a strand in (R86). -/
def exitState (o : Option Nat) : BitVec 4 := if o.isNone then 5#4 else 6#4

theorem exitState_isNone (o : Option Nat) : (exitState o == 5#4) = o.isNone := by
  cases o <;> rfl

/-- The strand as `exit` ends it: past the instruction (R65). -/
def State.exitPage (s : State) : Strand :=
  { s.me with pc := s.npc }.finish (exitState s.me.exitCause) (s.me.exitCause.getD 0) true

theorem exec_exit_waits {s : State} (h : s.enginesBusy s.cur = true ∨ s.releaseWaits s.cur 3 = true) :
    exec .exit s = .next s := if_pos (Bool.or_eq_true_iff.2 h)

theorem exec_exit {s : State} (hb : s.enginesBusy s.cur = false) (hw : s.releaseWaits s.cur 3 = false) :
    exec .exit s = .next (s.past.endStrand s.cur (exitState s.me.exitCause)
      (s.me.exitCause.getD 0) true) := by
  change execExit s = _
  rw [execExit, hb, hw]
  cases s.me.exitCause <;> rfl

section
variable {s : State} (hb : s.enginesBusy s.cur = false) (hw : s.releaseWaits s.cur 3 = false)
  (h0 : s.me.state ≠ 0#4) (he : s.me.ended = false)
include hb hw h0 he

/-- `exit` with nothing under way: the strand has the page it ends with, or its work is retired (R80, R86). -/
theorem exit_ends : Completes .exit s fun t => t.freed s.cur s.me ∨ t.me = s.exitPage := by
  refine ⟨_, exec_exit hb hw, ?_⟩
  have ended : s.exitPage.ended = true := by
    rw [State.exitPage]
    cases s.me.exitCause <;> rfl
  obtain ⟨hcur, h⟩ := endStrand_keptOrFreed (s := s.past)
    (state := exitState s.me.exitCause) (cause := s.me.exitCause.getD 0) (discard := true)
    (by rw [past_me]; exact h0) (by rw [past_me]; exact he) (by rw [past_me]; exact ended)
  rw [past_me] at h
  exact h.imp_right fun h => (congrArg (State.strand _) hcur).trans h

/-- `exit` of a strand whose launch is still open: the record counts it, and nothing else of the work changes. -/
theorem exit_open {r : Record} (hr : s.findRecord s.me.owner.toNat s.me.launch = some r) (hp : r.parent = none)
    (hlt : r.completed.toNat + r.failed.toNat + 1 < r.target.toNat) : Completes .exit s fun t =>
      t.me = s.exitPage ∧ (∀ n, n ≠ s.cur → t.strand n = s.strand n) ∧
      t.record s.me.owner.toNat (recordKey s.me.launch) = r.countItem s.me.exitCause.isNone s.exitPage.cause ∧
      { t with strands := s.strands, tenants := s.tenants, requests := s.requests, groups := s.groups
               cores := s.cores, seals := s.seals, races := s.races } = s := by
  have done : s.past.endStrand s.cur (exitState s.me.exitCause) (s.me.exitCause.getD 0) true =
      (s.past.endPage s.cur s.exitPage false).updRecord
        s.me.owner.toNat (recordKey s.me.launch) fun _ => r.countItem s.me.exitCause.isNone s.exitPage.cause := by
    have h := endStrand_open (s := s.past) (state := exitState s.me.exitCause)
      (cause := s.me.exitCause.getD 0) (discard := true) (r := r) (by rw [past_me]; exact h0) (by rw [past_me]; exact he)
      (by rw [past_me]; exact hr) hp (countItem_open _ _ hlt)
    rw [past_me, exitState_isNone] at h
    exact h
  obtain ⟨strand, -, -⟩ := endPage_frame s.past s.cur s.exitPage false
  have cur := endPage_cur s.past s.cur s.exitPage false
  have beside := endPage_besideEnd s.past s.cur s.exitPage false
  refine ⟨_, (exec_exit hb hw).trans (congrArg Host.Outcome.next done), ?_⟩
  generalize s.past.endPage s.cur s.exitPage false = u at strand cur beside
  refine ⟨?me, fun n hn => ?others, ?record, ?rest⟩
  case me =>
    have hs := strand s.cur
    rw [if_pos rfl, ← show u.cur = s.cur from cur] at hs
    exact hs
  case others =>
    refine (strand n).trans ((if_neg hn).trans ?_)
    rw [State.past, State.strand_updMe, if_neg hn]
  case record => rw [record_updRecord, if_pos ⟨rfl, rfl⟩]
  case rest => exact besideEnd_rest (t := u.updRecord ..) beside

end

/-! The cause that `exit` finds first (R86, R161, R237, R252, log 27). -/

theorem exitCause_none {x : Strand} (h : ∀ j, j < 64 → ¬ x.tagFailed j) (hm : x.mstopValid = false)
    (hr : x.rCount = 0#16 ∨ x.rReturned = true) (hv : x.vineLost = 0#32) : x.exitCause = none := by
  have lost : ¬ (x.rCount ≠ 0#16 ∧ (!x.rReturned) = true) := by
    rintro ⟨h1, h2⟩
    rcases hr with hr | hr
    · exact h1 hr
    · rw [hr] at h2; exact nomatch h2
  simp only [Strand.exitCause, failedTag_none h, hm, Bool.false_eq_true, if_false, if_neg lost, hv, ne_eq,
    not_true_eq_false]

theorem exitCause_tag {x : Strand} {j : Nat} (hj : j < 64) (h : x.tagFailed j) (hlow : ∀ i, i < j → ¬ x.tagFailed i) :
    x.exitCause = some ((x.tstat.toList.getD j 0#9).extractLsb' 0 8).toNat := by
  rw [Strand.exitCause, failedTag_lowest hj h hlow]

theorem exitCause_mstop {x : Strand} (h : ∀ j, j < 64 → ¬ x.tagFailed j) (hm : x.mstopValid = true) :
    x.exitCause = some 0x13 := by
  simp [Strand.exitCause, failedTag_none h, hm, cUncorrectable]

theorem exitCause_rstat {x : Strand} (h : ∀ j, j < 64 → ¬ x.tagFailed j) (hm : x.mstopValid = false)
    (hr : x.rCount ≠ 0#16) (hd : x.rReturned = false) : x.exitCause = some 0x11 := by
  simp [Strand.exitCause, failedTag_none h, hm, hr, hd, cPeerGone]

theorem exitCause_vine {x : Strand} (h : ∀ j, j < 64 → ¬ x.tagFailed j) (hm : x.mstopValid = false)
    (hr : x.rCount = 0#16 ∨ x.rReturned = true) (hv : x.vineLost ≠ 0#32) : x.exitCause = some 0x1B := by
  rcases hr with hr | hr <;> simp [Strand.exitCause, failedTag_none h, hm, hr, hv, cChainBroken]

/-- An `exit` that fails has a cause other than 0. -/
theorem exitCause_failing {x : Strand} (h : (∃ j, j < 64 ∧ x.tagFailed j) ∨ x.mstopValid = true ∨
      (x.rCount ≠ 0#16 ∧ x.rReturned = false) ∨ x.vineLost ≠ 0#32) :
    ∃ c : BitVec 8, c ≠ 0#8 ∧ x.exitCause = some c.toNat := by
  by_cases ht : ∃ j, j < 64 ∧ x.tagFailed j
  · classical
    obtain ⟨hj, hf⟩ := Nat.find_spec ht
    have low (i : Nat) (hi : i < Nat.find ht) : ¬ x.tagFailed i := fun g =>
      Nat.find_min ht hi ⟨hi.trans hj, g⟩
    exact ⟨_, (status_ne_zero_iff _).2 hf.1, exitCause_tag hj hf low⟩
  · have none (j : Nat) (hj : j < 64) : ¬ x.tagFailed j := fun g => ht ⟨j, hj, g⟩
    by_cases hm : x.mstopValid = true
    · exact ⟨0x13#8, by decide, exitCause_mstop none hm⟩
    · have hm := Bool.eq_false_of_not_eq_true hm
      by_cases hr : x.rCount ≠ 0#16 ∧ x.rReturned = false
      · exact ⟨0x11#8, by decide, exitCause_rstat none hm hr.1 hr.2⟩
      · have hv : x.vineLost ≠ 0#32 := by simpa [ht, hm, hr] using h
        refine ⟨0x1B#8, by decide, exitCause_vine none hm ?_ hv⟩
        by_cases hc : x.rCount = 0#16
        · exact .inl hc
        · exact .inr (Bool.eq_true_of_not_eq_false fun g => hr ⟨hc, g⟩)

/-- Settles O19: `exit` ends its strand with the cause found first; the strand keeps that page through all that its
count leads to, unless its launch is retired, and an open launch's record counts it. -/
theorem exitEndsAndCounts : Obligations.ExitEndsAndCounts := by
  unfold Obligations.ExitEndsAndCounts
  refine ⟨fun s h0 he => ?ends, fun s r => ?counts⟩
  case ends =>
    intro word fails ends
    have gives {P : Strand → Prop} (hb : s.enginesBusy s.cur = false) (hw : s.releaseWaits s.cur 3 = false)
        (hP : P s.exitPage) : ends P := by
      obtain ⟨t, ht, h⟩ := exit_ends hb hw h0 he
      exact ⟨t, ht, h.imp_right fun h => by rw [h]; exact ⟨hP, rfl, rfl⟩⟩
    refine ⟨fun hb hw => ⟨fun hf => gives (P := fun x => x.state = 5#4 ∧ x.cause = 0#8) hb hw ?_,
      fun hf => gives (P := fun x => x.state = 6#4 ∧ x.cause ≠ 0#8) hb hw ?_⟩, exec_exit_waits⟩
    · have returned : s.me.rCount = 0#16 ∨ s.me.rReturned = true := by
        by_cases hc : s.me.rCount = 0#16
        · exact .inl hc
        · exact .inr (Bool.eq_true_of_not_eq_false fun g => hf (.inr (.inr (.inl ⟨hc, g⟩))))
      have none := exitCause_none (fun j hj g => hf (.inl ⟨j, hj, g⟩))
        (Bool.eq_false_of_not_eq_true fun g => hf (.inr (.inl g))) returned
        (not_not.1 fun g => hf (.inr (.inr (.inr g))))
      rw [State.exitPage, none]
      exact ⟨rfl, rfl⟩
    · obtain ⟨c, hc, hcause⟩ := exitCause_failing hf
      rw [State.exitPage, hcause]
      refine ⟨rfl, ?_⟩
      change BitVec.ofNat 8 c.toNat ≠ 0#8
      rwa [BitVec.ofNat_toNat, BitVec.setWidth_eq]
  case counts =>
    intro x o word failed hb hw h0 he hr h1 hp hlt ends
    have gives {oc : Option Nat} (hoc : x.exitCause = oc) : ends (exitState oc) (BitVec.ofNat 8 (oc.getD 0)) := by
      obtain ⟨t, ht, hme, others, record, rest⟩ := exit_open hb hw h0 he hr hp hlt
      rw [State.exitPage, hoc] at hme record
      have regs (j : SReg) : t.sreg j = s.sreg j := by rw [State.sreg, hme]; rfl
      refine ⟨t, ht, ?_⟩
      dsimp only
      rw [hme, record]
      refine ⟨rfl, rfl, rfl, rfl, rfl, rfl, rfl, rfl, regs, others, ?_, rest⟩
      cases oc <;> rfl
    refine ⟨fun ht hm hr hv => gives (exitCause_none ht hm hr hv), fun j hj hf hlow => ?_,
      fun ht hm => gives (exitCause_mstop ht hm), fun ht hm hr hd => gives (exitCause_rstat ht hm hr hd),
      fun ht hm hr hv => gives (exitCause_vine ht hm hr hv)⟩
    have h := gives (exitCause_tag hj hf hlow)
    rwa [Option.getD_some, BitVec.ofNat_toNat, BitVec.setWidth_eq] at h

end Sys2Proof.Machine
end

section
/-! `cancel` of work that holds the issuing strand (O18): what it leaves of a strand table that lists a number twice
(R68, R83, R85, R90). -/

namespace Sys2Proof.Machine

/-- `cancel` of work whose cancelling ends the strand that issues: the strand only moves past the instruction (R68). -/
theorem exec_cancel_ended {s : State} {rb : SReg} {id : BitVec 32} (hid : workIdOf (s.sreg rb) = some id)
    (hg : workGen id ≠ 0) (he : (s.cancelRecord s.me.owner.toNat id).me.ended = true) :
    exec (.cancel rb) s = .next ((s.cancelRecord s.me.owner.toNat id).dropCheckpoint.updMe fun x =>
      { x with pc := (s.cancelRecord s.me.owner.toNat id).npc }) := by
  change execCancel rb s = _
  simp only [execCancel, hid, if_neg hg, he, if_true]
  rfl

/-- What that leaves of the strand besides its PC. -/
theorem cancel_ended_me (u : State) (pc : Word) :
    (u.dropCheckpoint.updMe fun x => { x with pc := pc }).me.state = u.me.state ∧
    (u.dropCheckpoint.updMe fun x => { x with pc := pc }).me.wait = u.me.wait := by
  rw [State.me_updMe, State.dropCheckpoint, State.me_updMe]
  exact ⟨rfl, rfl⟩

/-- Refutes O18: its clause on every open record has the issuing strand killed or waiting, whatever the state's tables
hold, and a strand table may list number 0 twice. Phase 0x80000400 holds one graph of one node still to launch, and that
graph the complete launch 0x400 of strand 0. Cancelling the phase kills strand 0 and completes the graph, which retires
the launch and frees the strand (R83); the table's second entry of number 0, of a strand in state 5, is then what the
strand's page reads, neither killed nor waiting. -/
theorem not_workWaitAndCancel : ¬ Obligations.WorkWaitAndCancel := by
  unfold Obligations.WorkWaitAndCancel
  rintro ⟨-, -, cancels⟩
  let phase : BitVec 32 := 0x80000400#32
  let graph : BitVec 32 := 0x40000400#32
  let live : Strand := { Strand.empty with
    state := 1#4, launch := 0x400#32, s := Strand.empty.s.setIfInBounds 4 (phase.setWidth 64) }
  let waiting : GraphNode := { node := nodeOf [], queued := false, created := false, launch := none, outcome := none }
  let records : Table Record :=
    [ (recordKey 0x400#32, { Record.empty with ident := 0x400#32, state := 2#3, parent := some graph })
    , (recordKey graph, { Record.empty with
        ident := graph, state := 1#3, target := 1#32, parent := some phase, nodes := [waiting] })
    , (recordKey phase, { Record.empty with ident := phase, state := 1#3, target := 1#32, submitted := 1#32 }) ]
  let s : State := { State.reset with
    cur := 0
    strands := [(0, live), (0, { Strand.empty with state := 5#4 })]
    tenants := [(0, { Tenant.empty with records := records })] }
  have after : (s.cancelRecord s.me.owner.toNat phase).me.state = 5#4 ∧
      (s.cancelRecord s.me.owner.toNat phase).me.wait = .none := by decide +kernel
  obtain ⟨state, wait⟩ := after
  have run : exec (.cancel 4#5) s = .next _ := exec_cancel_ended (id := phase) (by decide +kernel) (by decide +kernel)
    (by rw [Strand.ended_iff]; exact .inl state)
  obtain ⟨⟨t, ht, -, -, hme⟩, -⟩ := cancels s 4#5 phase (by decide +kernel) (by decide +kernel) (by decide +kernel)
    (by decide +kernel) (by decide +kernel) (by decide +kernel)
  obtain rfl := Host.Outcome.next.inj (run.symm.trans ht)
  obtain ⟨tstate, twait⟩ := cancel_ended_me (s.cancelRecord s.me.owner.toNat phase)
    (s.cancelRecord s.me.owner.toNat phase).npc
  rcases hme with hme | ⟨hme, -⟩
  · exact absurd ((wait.symm.trans twait.symm).trans hme) (by decide)
  · exact absurd ((state.symm.trans tstate.symm).trans hme) (by decide)

end Sys2Proof.Machine
end

section
/-! `launch` (O20): the reading of its descriptor, and a launch that enters the ready pool (R82, R85, R87, R88). -/

namespace Sys2Proof.Machine

/-- Bytes of an unraced page of HBM that holds no poison there are read as they stand. -/
theorem readBytesAt_hbm {s : State} {pa key len : Nat} (va : Word) (h : s.poisoned (.hbm pa key false) len = false) :
    s.readBytesAt va (.hbm pa key false) len false false = .ok (s.hbmRead key pa len, s) := by
  have clean : s.poisonedAt (some (dieOfCore s.me.core)) (.hbm pa key false) len = false := h
  simp only [State.readBytesAt, State.boardReady, State.boardWaits, State.bytesAt, State.settleTarget, State.raceTarget,
    clean, Bool.not_false, if_true, Bool.false_eq_true, if_false, ok_bind, demand_true]
  rfl

/-- `launch` of a well-formed descriptor in HBM launches its node (R88). -/
theorem exec_launch_hbm {s : State} {rd rb : SReg} {pa key : Nat} (ha : (s.sreg rb).toNat % 64 = 0)
    (hr : s.resolve s.me.owner.toNat s.me.core (s.sreg rb) (scalarAccess false 64 none) false = .ok (.hbm pa key false))
    (hp : s.poisoned (.hbm pa key false) 64 = false)
    (hz : ∀ o ∈ [0x18, 0x20, 0x28, 0x30, 0x38], descWord (s.hbmRead key pa 64) o = 0#64)
    (hl : s.launchable s.me.owner.toNat (s.hbmRead key pa 64) = true) :
    exec (.launch rd rb) s =
      finish s (maskOf true false false) (s.launchNode rd (nodeOf (s.hbmRead key pa 64))) := by
  have free : ([0x18, 0x20, 0x28, 0x30, 0x38].all fun o => descWord (s.hbmRead key pa 64) o == 0#64) = true :=
    List.all_eq_true.2 fun o ho => beq_iff_eq.2 (hz o ho)
  have aligned : ((s.sreg rb).toNat % 64 == 0) = true := beq_iff_eq.2 ha
  change execLaunch rd rb s = _
  unfold execLaunch
  dsimp only
  simp only [scalarAccess, Bool.not_false] at hr
  rw [aligned, hr]
  simp only [demand_true, ok_bind, readBytesAt_hbm _ hp, free, hl, Bool.true_and, State.windowAnswer, beq_self_eq_true]

theorem allocRecord_free {s : State} {t level k : Nat} (h : s.freeRecord t level = some k) (r : Record) :
    s.allocRecord t level r = some (workId level (nextGen (workGen (s.record t k).ident)) (k % 1024),
      s.updRecord t k fun _ => { r with
        ident := workId level (nextGen (workGen (s.record t k).ident)) (k % 1024), state := 1#3 }) := by
  rw [State.allocRecord, h]

/-- A launch enters the ready pool when, with its record allocated, the strand is in no work that is being cancelled:
one entry more, and no other entry changes (R85, R107). -/
theorem launchNode_ready {s u : State} {rd : SReg} {nd : Node} {id : BitVec 32}
    (ha : s.allocRecord s.me.owner.toNat 0 (launchRecord nd (s.graphOf s.me.owner.toNat s.me.launch) none) =
      some (id, u))
    (hc : u.cancelling s.me.owner.toNat u.me.launch = false) (hl : u.ready.length < readyMax)
    (hw : u.releaseWaits u.cur 2 = false) :
    ∃ t, s.launchNode rd nd = .ok t ∧ ∃ e, t.ready = u.ready ++ [e] := by
  unfold State.launchNode
  dsimp only
  rw [ha]
  generalize s.graphOf s.me.owner.toNat s.me.launch = g
  simp only [hc, hw, hl, State.awaitRelease, waitUnless, decide_true, Bool.false_or, Bool.and_false, Bool.not_false,
    if_true, ok_bind, Bool.false_eq_true, if_false]
  refine ⟨_, rfl, ?_⟩
  cases g <;> exact ⟨_, rfl⟩

/-- Refutes O20: its clauses on cancelled work look for that work before the launch, `launch` after it has allocated its
record (R85, R88). Strand 0's launch 0x400 lies in the graph 0x40000400, which is being cancelled; but the record that
bears 0x400 is in state 0, and so the lowest free one. Allocating it gives it another identifier, by which the strand's
launch is in no record any more: the node enters the ready pool, where the clause has it enter none. -/
theorem not_launchAllocates : ¬ Obligations.LaunchAllocates := by
  unfold Obligations.LaunchAllocates
  intro launches
  let placed : State := State.reset.placed 0#512
  let records : Table Record :=
    [ (recordKey 0x400#32, { Record.empty with ident := 0x400#32, parent := some 0x40000400#32 })
    , (recordKey 0x40000400#32, { Record.empty with ident := 0x40000400#32, state := 3#3 }) ]
  let s : State := { placed with
    agenda := []
    strands := [(0, { Strand.empty with
      state := 1#4, owner := 1#8, launch := 0x400#32, s := Strand.empty.s.setIfInBounds 4 (BitVec.ofNat 64 placeVa) })]
    mem := writeBytes (writeBytes placed.mem (placeTables + 0x10000) (bytesOf 8 (placeCode + 3))) (placeCode + 0x10)
      (bytesOf 8 0x100000001)
    tenants := [(1, { placed.tenant 1 with
      cores := (placed.tenant 1).cores.setIfInBounds 0 1#40, records := records })] }
  have aligned : (s.sreg 4#5).toNat % 64 = 0 := by decide +kernel
  have leads : s.resolve s.me.owner.toNat s.me.core (s.sreg 4#5) (scalarAccess false 64 none) false =
      .ok (.hbm placeCode 0 false) := by decide +kernel
  have clean : s.poisoned (.hbm placeCode 0 false) 64 = false := by decide +kernel
  have zeros : ∀ j < 64, 24 ≤ j → (s.hbmRead 0 placeCode 64).getD j 0#8 = 0#8 := by decide +kernel
  have words : ∀ o ∈ [0x18, 0x20, 0x28, 0x30, 0x38], descWord (s.hbmRead 0 placeCode 64) o = 0#64 := by decide +kernel
  have launchable : s.launchable s.me.owner.toNat (s.hbmRead 0 placeCode 64) = true := by decide +kernel
  have free : s.freeRecord s.me.owner.toNat 0 = some 0 := by decide +kernel
  have cancelled : s.cancelling s.me.owner.toNat s.me.launch = true := by decide +kernel
  have released : s.releaseWaits s.cur 2 = false := by decide +kernel
  obtain ⟨u, hu, e, hready⟩ := launchNode_ready (rd := 5#5) (nd := nodeOf (s.hbmRead 0 placeCode 64))
    (allocRecord_free free _) (by decide +kernel) (by decide +kernel) (by decide +kernel)
  have run := exec_launch_hbm (rd := 5#5) aligned leads clean words launchable
  rw [hu, finish_ok] at run
  obtain ⟨-, -, -, clause, -⟩ := launches s 5#5 4#5 placeCode 0 aligned leads clean
    (fun j h1 h2 => zeros j h2 h1) launchable
  obtain ⟨t, ht, -, -, unchanged, -⟩ := clause 0 free cancelled released
  obtain rfl := Host.Outcome.next.inj (run.symm.trans ht)
  have both : s.ready ++ [e] = s.ready := hready.symm.trans unchanged
  exact absurd (congrArg List.length both) (by simp)

end Sys2Proof.Machine
end

section
/-! `ENABLE` (O47): the store of MIRROR that it ends with wakes the queue that it enables (R97 to R99, log 35). -/

namespace Sys2Proof.Machine

theorem pageOf_queuePage {q off : Nat} (hq : q < 4096) (ho : off < 65536) :
    pageOf (queuePage q + off) = some (.queue q off) := by
  unfold pageOf queuePage kindTableEnd
  rw [if_neg (by omega), if_neg (by omega), if_neg (by omega), if_neg (by omega), if_pos (by omega),
    Option.some.injEq, Page.queue.injEq]
  omega

/-! A write to the watched line of a ring (R98). -/

/-- An enabled queue whose watched line is written is woken. -/
theorem wakeQueues_wakes {s : State} {q a : Nat} {c : Vector Word 8} (hf : (s.queue q).inForce = some c)
    (hs : (s.queue q).state ≠ 0#3) (ha : ringBase c / 64 = a / 64) : ((s.wakeQueues a).queue q).woken = true := by
  refine mapTable_lookup s.queues _ Queue.empty ?_
    (fun x y => x.inForce = some c → x.state ≠ 0#3 → y.woken = true) ?_ ?_ q hf hs
  · intro e
    split
    · split <;> rfl
    · rfl
  · intro _ off
    exact absurd rfl off
  · intro e hf hs
    simp [hf, hs, ha]

theorem ringBase_aligned (c : Vector Word 8) : ringBase c % 65536 = 0 := by
  unfold ringBase localOf
  omega

/-- An aligned word is touched by a write of it alone. -/
theorem wordsTouched_word {pa : Nat} (h : pa % 8 = 0) : wordsTouched pa 8 = [pa] := by
  have last : (pa + 8 - 1) / 8 - pa / 8 + 1 = 1 := by omega
  have word : 8 * (pa / 8) = pa := by omega
  rw [wordsTouched, if_neg (by decide), last, List.range_one, List.map_singleton, Nat.add_zero, word]

/-- A word written to HBM in the watched line of an enabled queue wakes it (R98). -/
theorem hbmWrite_wakes {s : State} {key pa q : Nat} {l : List Byte} {c : Vector Word 8} (hl : l.length = 8)
    (hpa : pa % 8 = 0) (hf : (s.queue q).inForce = some c) (hs : (s.queue q).state ≠ 0#3)
    (ha : ringBase c / 64 = pa / 64) : ((s.hbmWrite key pa l).queue q).woken = true := by
  unfold State.hbmWrite
  simp only [hl, wordsTouched_word hpa, List.foldl_cons, List.foldl_nil]
  have same := ((note_frame s pa).trans (hbmPut_hbmFrame _ key pa l)).queues q
  generalize State.hbmPut ((s.noteStale pa).clearMeasured pa) key pa l = u at same ⊢
  rw [← same] at hf hs
  exact wakeQueues_wakes hf hs ha

/-- MIRROR lies in the watched line, so the engine's own store of it wakes the queue (R97, R98). -/
theorem mirrorStore_wakes {s : State} {q : Nat} {c : Vector Word 8} (v : Nat)
    (ho : s.ringOpen c (ringBase c + 8) = true) (hf : (s.queue q).inForce = some c)
    (hs : (s.queue q).state ≠ 0#3) : ((s.mirrorStore c v).queue q).woken = true := by
  have aligned := ringBase_aligned c
  rw [State.mirrorStore, if_pos ho]
  exact hbmWrite_wakes rfl (by omega) hf hs (by omega)

/-! ENABLE (R99). -/

/-- ENABLE of a queue that is off, with a copy in force that R99 accepts, is accepted; where the home of MIRROR serves
the queue engine, it leaves the queue woken. -/
theorem queueEnable_wakes {s : State} {q : Nat} {c : Vector Word 8} (hs : (s.queue q).state = 0#3)
    (hf : (s.queue q).inForce = some c) (h4 : 4 ≤ ringSize c) (h10 : ringSize c ≤ 10)
    (ht : (s.tenant (shadowWord c 1).toNat).state = 1#3) (hr : s.ringOk c = true)
    (ho : s.ringOpen c (ringBase c + 8) = true) : ∃ t, s.queueEnable q = .ok t ∧ (t.queue q).woken = true := by
  have accepted : ¬ (ringSize c < 4 ∨ 10 < ringSize c ∨ (s.tenant (shadowWord c 1).toNat).state ≠ 1#3 ∨
      (!s.ringOk c) = true) := by
    simp [ht, hr, h4, h10]
  refine ⟨_, by simp only [State.queueEnable, hs, hf, ne_eq, not_true_eq_false, if_false, if_neg accepted]; rfl, ?_⟩
  refine mirrorStore_wakes 0 ho ?_ ?_
  · rw [State.queue_updQueue_self]
    exact hf
  · rw [State.queue_updQueue_self]
    exact (by decide : (1#3 : BitVec 3) ≠ 0#3)

/-- An ENABLE that is carried and accepted leaves what its action does. -/
theorem exec_queueEnable {s t : State} {who : Agent} {q : Nat} (hq : q < 4096)
    (ha : s.admits who (queuePage q) 1#64) (h : s.queueEnable q = .ok t) :
    exec (.queueEnable who q) s = .next (t.storedFor who (queuePage q)) := by
  have page : pageOf (queuePage q) = some (.queue q 0) := pageOf_queuePage (off := 0) hq (by decide)
  have aligned : queuePage q % 8 = 0 := by unfold queuePage; omega
  refine congrArg Host.Outcome.next (agentStore_ok ha aligned ?_)
  simp only [State.controlStore, page, State.queuePageStore, if_true, h]

/-- Refutes O47: its clause on ENABLE says that the queue is left with no wake pending, but ENABLE ends with the store
of MIRROR, which lies in the queue's own watched line and wakes it like any other write there (R98, log 35). Queue 0 is
off, with the valid copy `copy` of tenant 1 over a ring of 16 records at 0x360000; the host enables it. -/
theorem not_queueCommands : ¬ Obligations.QueueCommands := by
  unfold Obligations.QueueCommands
  intro commands
  let copy : Vector Word 8 := #v[1#64, 1#64, 0x360004#64, 0#64, 0#64, 0#64, 0#64, 0x130119A0#64]
  let s : State := { State.reset with
    linkUp := true, bootPhase := 6#4
    tenants := [(1, { Tenant.empty with state := 1#3 })]
    frames := [(0x36, 2#4)]
    queues := [(0, { Queue.empty with a := copy })] }
  have admits : s.admits .host (queuePage 0) 1#64 :=
    ⟨by decide +kernel, rfl, by decide +kernel, rfl⟩
  have off : (s.queue 0).state = 0#3 := rfl
  have inForce : (s.queue 0).inForce = some copy := by decide +kernel
  have small : 4 ≤ ringSize copy := by decide +kernel
  have large : ringSize copy ≤ 10 := by decide +kernel
  have active : (s.tenant (shadowWord copy 1).toNat).state = 1#3 := by decide +kernel
  have framed : s.ringOk copy = true := by decide +kernel
  obtain ⟨u, accepted, woken⟩ := queueEnable_wakes off inForce small large active framed (by decide +kernel)
  obtain ⟨enable, -⟩ := commands s .host 0 copy copy (by decide)
  obtain ⟨t, run, -, -, -, -, asleep, -⟩ := enable admits off inForce small large active framed
  obtain rfl : u = t := Host.Outcome.next.inj ((exec_queueEnable (by decide) admits accepted).symm.trans run)
  exact absurd (woken.symm.trans asleep) (by decide)

end Sys2Proof.Machine
end

section
/-! What the encodings of the floating-point formats stand for (R114, R115): the fields of an encoding, the exact number
of a finite one, and how the model's own decoding and order of values agree with `numberOf`. -/

namespace Sys2Proof.Machine

/-! Exact numbers. -/

/-- The number that a finite value of the model stands for. -/
def dyadic (neg : Bool) (m : Nat) (e : Int) : ℚ := (if neg then -1 else 1) * (m * 2 ^ e)

@[simp] theorem dyadic_zero (neg : Bool) (e : Int) : dyadic neg 0 e = 0 := by simp [dyadic]

@[simp] theorem dyadic_true (m : Nat) (e : Int) : dyadic true m e = -(m * 2 ^ e) := by simp [dyadic]

@[simp] theorem dyadic_false (m : Nat) (e : Int) : dyadic false m e = m * 2 ^ e := by simp [dyadic]

/-- A number that is not zero has one sign. -/
theorem sign_eq_of_dyadic_eq {n₁ n₂ : Bool} {m₁ m₂ : Nat} {e₁ e₂ : Int} (h₁ : m₁ ≠ 0)
    (h : dyadic n₁ m₁ e₁ = dyadic n₂ m₂ e₂) : n₁ = n₂ := by
  have p₁ : (0 : ℚ) < m₁ * 2 ^ e₁ := by positivity
  have p₂ : (0 : ℚ) ≤ m₂ * 2 ^ e₂ := by positivity
  by_contra differ
  cases n₁ <;> cases n₂ <;> simp only [dyadic_true, dyadic_false, not_true_eq_false] at h differ <;> linarith

theorem two_zpow_of_le {d e : Int} (h : d ≤ e) : (2 : ℚ) ^ e = 2 ^ (e - d).toNat * 2 ^ d := by
  rw [← zpow_natCast, ← zpow_add₀ two_ne_zero, Int.toNat_of_nonneg (sub_nonneg.mpr h), sub_add_cancel]

theorem leDyadic_iff (m₁ : Nat) (e₁ : Int) (m₂ : Nat) (e₂ : Int) :
    leDyadic m₁ e₁ m₂ e₂ = true ↔ (m₁ : ℚ) * 2 ^ e₁ ≤ m₂ * 2 ^ e₂ := by
  unfold leDyadic
  split
  case isTrue h =>
    rw [two_zpow_of_le h, ← mul_assoc, mul_le_mul_iff_left₀ (zpow_pos two_pos e₁), decide_eq_true_iff]
    norm_cast
  case isFalse h =>
    rw [two_zpow_of_le (le_of_not_ge h), ← mul_assoc, mul_le_mul_iff_left₀ (zpow_pos two_pos e₂), decide_eq_true_iff]
    norm_cast

/-- The model's order of finite values, -0 below +0. -/
theorem fvLe_fin_iff (n₁ : Bool) (m₁ : Nat) (e₁ : Int) (n₂ : Bool) (m₂ : Nat) (e₂ : Int) :
    fvLe (.fin n₁ m₁ e₁) (.fin n₂ m₂ e₂) = true ↔ dyadic n₁ m₁ e₁ < dyadic n₂ m₂ e₂ ∨
      (dyadic n₁ m₁ e₁ = dyadic n₂ m₂ e₂ ∧ (n₁ = true ∨ ¬ n₂ = true)) := by
  have h₁ : (0 : ℚ) ≤ m₁ * 2 ^ e₁ := by positivity
  have h₂ : (0 : ℚ) ≤ m₂ * 2 ^ e₂ := by positivity
  cases n₁ <;> cases n₂ <;> simp only [fvLe, leDyadic_iff, dyadic_true, dyadic_false]
  · simp [le_iff_lt_or_eq]
  · simp; linarith
  · simp [← le_iff_lt_or_eq]; linarith
  · simp [le_iff_lt_or_eq, eq_comm]

/-- The model's numeric order of finite values. -/
theorem fvNumLe_fin_iff (n₁ : Bool) (m₁ : Nat) (e₁ : Int) (n₂ : Bool) (m₂ : Nat) (e₂ : Int) :
    fvNumLe (.fin n₁ m₁ e₁) (.fin n₂ m₂ e₂) = true ↔ dyadic n₁ m₁ e₁ ≤ dyadic n₂ m₂ e₂ := by
  rcases m₁ with _ | m₁
  · rcases m₂ with _ | m₂
    · simp [fvNumLe]
    · simp [fvNumLe, fvLe_fin_iff, le_iff_lt_or_eq]
  · rcases m₂ with _ | m₂
    · simp [fvNumLe, fvLe_fin_iff, le_iff_lt_or_eq]
    · have signs (h : dyadic n₁ (m₁ + 1) e₁ = dyadic n₂ (m₂ + 1) e₂) : n₁ = true ∨ ¬ n₂ = true := by
        rw [sign_eq_of_dyadic_eq m₁.succ_ne_zero h]
        exact em _
      rw [fvNumLe, fvLe_fin_iff, le_iff_lt_or_eq, and_iff_left_of_imp signs]
      all_goals simp

/-! Fields of an encoding. -/

def isNegative (f : Fmt) (x : Nat) : Bool := x / 2 ^ (f.ebits + f.mbits) % 2 == 1

/-- The integer that a finite encoding counts in units of `2 ^ unitExp`. -/
def significand (f : Fmt) (x : Nat) : Nat :=
  if expField f x = 0 then fracField f x else 2 ^ f.mbits + fracField f x

def unitExp (f : Fmt) (x : Nat) : Int := (max (expField f x) 1 : Nat) - (f.bias : Int) - (f.mbits : Int)

@[simp] theorem isNegative_iff (f : Fmt) (x : Nat) : isNegative f x = true ↔ negative f x := by
  simp [isNegative, negative]

theorem fracField_lt (f : Fmt) (x : Nat) : fracField f x < 2 ^ f.mbits := Nat.mod_lt _ (by positivity)

theorem significand_lt (f : Fmt) (x : Nat) : significand f x < 2 ^ (f.mbits + 1) := by
  have := fracField_lt f x
  rw [significand, Nat.pow_succ]
  split <;> omega

theorem unitExp_of_subnormal {f : Fmt} {x : Nat} (h : expField f x = 0) : unitExp f x = f.qmin := by
  simp [unitExp, h, Fmt.qmin, Fmt.emin]

theorem unitExp_of_normal {f : Fmt} {x : Nat} (h : expField f x ≠ 0) :
    unitExp f x = (expField f x : Int) - (f.bias : Int) - (f.mbits : Int) := by
  rw [unitExp, max_eq_left (Nat.one_le_iff_ne_zero.mpr h)]

theorem numberOf_eq_dyadic (f : Fmt) (x : Nat) :
    numberOf f x = dyadic (isNegative f x) (significand f x) (unitExp f x) := by
  unfold numberOf dyadic significand
  congr 1
  · simp [isNegative]
  · split
    · next h0 => rw [unitExp_of_subnormal h0]; rfl
    · next h0 => rw [unitExp_of_normal h0]

/-! Decoding. -/

theorem decode_eq (f : Fmt) (x : Nat) : f.decode x =
    if expField f x = 2 ^ f.ebits - 1 ∧ f.infs then
      if fracField f x = 0 then .inf (isNegative f x)
      else .nan (f.snans && decide (fracField f x < 2 ^ (f.mbits - 1)))
    else if expField f x = 2 ^ f.ebits - 1 ∧ fracField f x = 2 ^ f.mbits - 1 then .nan false
    else if expField f x = 0 then .fin (isNegative f x) (fracField f x) f.qmin
    else .fin (isNegative f x) (2 ^ f.mbits + fracField f x)
      ((expField f x : Int) - (f.bias : Int) - (f.mbits : Int)) :=
  rfl

theorem decode_finite {f : Fmt} {x : Nat} (h : IsFinite f x) :
    f.decode x = .fin (isNegative f x) (significand f x) (unitExp f x) := by
  unfold IsFinite at h
  rw [decode_eq, if_neg (h ·.1), if_neg (h ·.1), significand]
  split
  · next h0 => rw [unitExp_of_subnormal h0]
  · next h0 => rw [unitExp_of_normal h0]

theorem decode_finite_isNan {f : Fmt} {x : Nat} (h : IsFinite f x) : (f.decode x).isNan = false := by
  rw [decode_finite h]; rfl

theorem decode_finite_isSnan {f : Fmt} {x : Nat} (h : IsFinite f x) : (f.decode x).isSnan = false := by
  rw [decode_finite h]; rfl

theorem decode_isNan_iff {f : Fmt} (hi : f.infs = true) (x : Nat) : (f.decode x).isNan = true ↔ IsNan f x := by
  rw [decode_eq, IsNan]
  split_ifs <;> simp_all [FVal.isNan]

theorem decode_isSnan_iff {f : Fmt} (hi : f.infs = true) (hs : f.snans = true) (x : Nat) :
    (f.decode x).isSnan = true ↔ IsSnan f x := by
  rw [decode_eq, IsSnan, IsNan]
  split_ifs <;> simp_all [FVal.isSnan]

theorem decode_nan_isSnan {f : Fmt} {x : Nat} (hi : f.infs = true) (hs : f.snans = true) (h : IsNan f x) :
    (f.decode x).isSnan = decide (fracField f x < 2 ^ (f.mbits - 1)) := by
  rw [Bool.eq_iff_iff, decode_isSnan_iff hi hs, decide_eq_true_iff, IsSnan, and_iff_right h]

/-! An encoding is known by its sign and its number. -/

/-- A greater exponent field is a greater magnitude. -/
theorem magnitude_lt_of_expField_lt {f : Fmt} {x y : Nat} (h : expField f x < expField f y) :
    (significand f x : ℚ) * 2 ^ unitExp f x < significand f y * 2 ^ unitExp f y := by
  have hy : 2 ^ f.mbits ≤ significand f y := by rw [significand, if_neg (by omega)]; omega
  have below : (significand f x : ℚ) * 2 ^ unitExp f x < 2 ^ f.mbits * 2 ^ unitExp f y := by
    by_cases h0 : expField f x = 0
    · have hx : significand f x < 2 ^ f.mbits := by rw [significand, if_pos h0]; exact fracField_lt f x
      have hu : unitExp f x ≤ unitExp f y := by unfold unitExp; omega
      calc (significand f x : ℚ) * 2 ^ unitExp f x < 2 ^ f.mbits * 2 ^ unitExp f x := by gcongr; exact_mod_cast hx
        _ ≤ 2 ^ f.mbits * 2 ^ unitExp f y := by gcongr; norm_num
    · have hu : unitExp f x + 1 ≤ unitExp f y := by unfold unitExp; omega
      calc (significand f x : ℚ) * 2 ^ unitExp f x < 2 ^ (f.mbits + 1) * 2 ^ unitExp f x := by
            gcongr; exact_mod_cast significand_lt f x
        _ = 2 ^ f.mbits * 2 ^ (unitExp f x + 1) := by rw [zpow_add_one₀ two_ne_zero, pow_succ]; ring
        _ ≤ 2 ^ f.mbits * 2 ^ unitExp f y := by gcongr; norm_num
  refine below.trans_le ?_
  gcongr
  exact_mod_cast hy

theorem fracField_eq_of_significand_eq {f : Fmt} {x y : Nat} (he : expField f x = expField f y)
    (h : significand f x = significand f y) : fracField f x = fracField f y := by
  unfold significand at h
  rw [he] at h
  split at h <;> omega

theorem eq_of_fields_eq {f : Fmt} {x y : Nat} (hx : x < 2 ^ f.bits) (hy : y < 2 ^ f.bits)
    (hn : isNegative f x = isNegative f y) (he : expField f x = expField f y) (hf : fracField f x = fracField f y) :
    x = y := by
  have top {z : Nat} (hz : z < 2 ^ f.bits) : z / 2 ^ (f.ebits + f.mbits) < 2 := by
    rw [Nat.div_lt_iff_lt_mul (by positivity)]
    calc z < 2 ^ f.bits := hz
      _ = 2 * 2 ^ (f.ebits + f.mbits) := by rw [Fmt.bits, add_assoc, pow_add, pow_one]
  have sign : x / 2 ^ (f.ebits + f.mbits) = y / 2 ^ (f.ebits + f.mbits) := by
    rw [Bool.eq_iff_iff, isNegative_iff, isNegative_iff, negative, negative, Nat.mod_eq_of_lt (top hx),
      Nat.mod_eq_of_lt (top hy)] at hn
    have hx2 := top hx
    have hy2 := top hy
    generalize x / 2 ^ (f.ebits + f.mbits) = a at *
    generalize y / 2 ^ (f.ebits + f.mbits) = b at *
    omega
  have high : x / 2 ^ f.mbits = y / 2 ^ f.mbits := by
    rw [← Nat.div_add_mod (x / 2 ^ f.mbits) (2 ^ f.ebits), ← Nat.div_add_mod (y / 2 ^ f.mbits) (2 ^ f.ebits),
      Nat.div_div_eq_div_mul, Nat.div_div_eq_div_mul, ← pow_add, add_comm f.mbits, sign]
    exact congrArg _ he
  rw [← Nat.div_add_mod x (2 ^ f.mbits), ← Nat.div_add_mod y (2 ^ f.mbits), high]
  exact congrArg _ hf

theorem eq_of_numberOf_eq {f : Fmt} {x y : Nat} (hx : x < 2 ^ f.bits) (hy : y < 2 ^ f.bits)
    (hn : isNegative f x = isNegative f y) (h : numberOf f x = numberOf f y) : x = y := by
  have magnitudes : (significand f x : ℚ) * 2 ^ unitExp f x = significand f y * 2 ^ unitExp f y := by
    rw [numberOf_eq_dyadic, numberOf_eq_dyadic, hn] at h
    cases hs : isNegative f y <;> simpa [hs] using h
  have exps : expField f x = expField f y := by
    rcases lt_trichotomy (expField f x) (expField f y) with lt | eq | gt
    · exact absurd magnitudes (magnitude_lt_of_expField_lt lt).ne
    · exact eq
    · exact absurd magnitudes (magnitude_lt_of_expField_lt gt).ne'
  refine eq_of_fields_eq hx hy hn exps (fracField_eq_of_significand_eq exps ?_)
  rw [unitExp, unitExp, exps] at magnitudes
  exact_mod_cast mul_right_cancel₀ (zpow_ne_zero _ two_ne_zero) magnitudes

/-! The scalar formats and operands (R313, R314). -/

@[simp] theorem scalarFmt_infs (w : BitVec 2) : (scalarFmt w).infs = true := by unfold scalarFmt; split <;> rfl

@[simp] theorem scalarFmt_snans (w : BitVec 2) : (scalarFmt w).snans = true := by unfold scalarFmt; split <;> rfl

theorem scalarFmt_nan (w : BitVec 2) :
    (scalarFmt w).nan = if w = 0#2 then 0x7FF8000000000000 else 0x7FC00000 := by
  unfold scalarFmt
  split <;> rfl

theorem ofWord_lt (f : Fmt) (x : Word) : f.ofWord x < 2 ^ f.bits := Nat.mod_lt _ (by positivity)

theorem flagIf_decide (p : Prop) [Decidable p] (g : Flags) : flagIf (decide p) g = if p then g else 0#5 := by
  simp [flagIf]

end Sys2Proof.Machine
end

section
/-! Float comparisons and extrema (O5): what `fvCompare` and `minMax` answer of numbers and of NaNs (R115, R315). -/

namespace Sys2Proof.Machine

/-! Comparisons. -/

section
variable {f : Fmt} {x y : Nat}

theorem fvNumLe_decode (hx : IsFinite f x) (hy : IsFinite f y) :
    fvNumLe (f.decode x) (f.decode y) = decide (numberOf f x ≤ numberOf f y) := by
  rw [decode_finite hx, decode_finite hy, Bool.eq_iff_iff, fvNumLe_fin_iff, decide_eq_true_iff, numberOf_eq_dyadic,
    numberOf_eq_dyadic]

theorem fvCompare_eq_finite (hx : IsFinite f x) (hy : IsFinite f y) :
    fvCompare 0 (f.decode x) (f.decode y) = (decide (numberOf f x = numberOf f y), 0#5) := by
  simp [fvCompare, decode_finite_isNan, decode_finite_isSnan, fvNumLe_decode, hx, hy, flagIf, le_antisymm_iff]

theorem fvCompare_lt_finite (hx : IsFinite f x) (hy : IsFinite f y) :
    fvCompare 1 (f.decode x) (f.decode y) = (decide (numberOf f x < numberOf f y), 0#5) := by
  have strict : (decide (numberOf f x ≤ numberOf f y) && !decide (numberOf f y ≤ numberOf f x)) =
      decide (numberOf f x < numberOf f y) := by
    rw [Bool.eq_iff_iff]
    simpa using le_of_lt
  simp [fvCompare, decode_finite_isNan, fvNumLe_decode, hx, hy, flagIf, strict]

theorem fvCompare_le_finite (hx : IsFinite f x) (hy : IsFinite f y) :
    fvCompare 2 (f.decode x) (f.decode y) = (decide (numberOf f x ≤ numberOf f y), 0#5) := by
  simp [fvCompare, decode_finite_isNan, fvNumLe_decode, hx, hy, flagIf]

theorem fvCompare_unordered_finite (hx : IsFinite f x) (hy : IsFinite f y) :
    fvCompare 3 (f.decode x) (f.decode y) = (false, 0#5) := by
  simp [fvCompare, decode_finite_isNan, decode_finite_isSnan, hx, hy, flagIf]

end

/-- With a NaN, lt and le set NV; eq and unordered do for a signalling one. -/
theorem fvCompare_nan {a b : FVal} (h : (a.isNan || b.isNan) = true) :
    fvCompare 0 a b = (false, flagIf (a.isSnan || b.isSnan) fNV) ∧ fvCompare 1 a b = (false, fNV) ∧
    fvCompare 2 a b = (false, fNV) ∧ fvCompare 3 a b = (true, flagIf (a.isSnan || b.isSnan) fNV) := by
  simp only [fvCompare, h, flagIf]
  simp

/-- `fcmp` writes what its comparison answers. -/
theorem completes_fcmp {s : State} {w : BitVec 2} {cond : BitVec 6} {rb rc : SReg} {yes : Bool} {g : Flags}
    (rd : SReg) (h : fvCompare cond.toNat (s.floatOperand w rb) (s.floatOperand w rc) = (yes, g)) :
    Completes (.fcmp w cond rd rb rc) s fun t => FloatResult s t rd (if yes then 1#64 else 0#64) g := by
  have run : exec (.fcmp w cond rd rb rc) s = .next (s.floatResult rd (if yes then 1 else 0, g)) := by
    show execFcmp w cond rd rb rc s = _
    rw [execFcmp, h]
  refine ⟨_, run, ?_⟩
  have result := floatResult_float s rd (if yes then 1 else 0, g)
  cases yes <;> exact result

/-! Extrema. -/

/-- The order of the extrema: -0 below +0. -/
def Below (f : Fmt) (x y : Nat) : Prop :=
  numberOf f x < numberOf f y ∨ (numberOf f x = numberOf f y ∧ (negative f x ∨ ¬ negative f y))

theorem fvLe_decode_iff {f : Fmt} {x y : Nat} (hx : IsFinite f x) (hy : IsFinite f y) :
    fvLe (f.decode x) (f.decode y) = true ↔ Below f x y := by
  rw [decode_finite hx, decode_finite hy, fvLe_fin_iff, Below, numberOf_eq_dyadic, numberOf_eq_dyadic, isNegative_iff,
    isNegative_iff]

theorem Below.antisymm {f : Fmt} {x y : Nat} (hx : x < 2 ^ f.bits) (hy : y < 2 ^ f.bits) (h : Below f x y)
    (h' : Below f y x) : x = y := by
  rcases h with lt | ⟨eq, sign⟩
  · rcases h' with lt' | ⟨eq', -⟩
    · exact absurd lt' lt.not_gt
    · exact absurd eq'.symm lt.ne
  · rcases h' with lt' | ⟨-, sign'⟩
    · exact absurd eq.symm lt'.ne
    · refine eq_of_numberOf_eq hx hy ?_ eq
      rw [Bool.eq_iff_iff, isNegative_iff, isNegative_iff]
      tauto

/-- Of two numbers in order the minimum is the first and the maximum the second, whichever operand comes first: where
neither is below the other alone, they are one encoding. -/
theorem minMax_of_below {f : Fmt} {x y : Nat} (hx : x < 2 ^ f.bits) (hy : y < 2 ^ f.bits) (fx : IsFinite f x)
    (fy : IsFinite f y) (h : Below f x y) (isMax : Bool) :
    f.minMax isMax x y = (if isMax then y else x, 0#5) ∧ f.minMax isMax y x = (if isMax then y else x, 0#5) := by
  have le : fvLe (f.decode x) (f.decode y) = true := (fvLe_decode_iff fx fy).mpr h
  have back (h' : fvLe (f.decode y) (f.decode x) = true) : x = y := h.antisymm hx hy ((fvLe_decode_iff fy fx).mp h')
  have flags : flagIf (false || false) fNV = 0#5 := rfl
  simp only [Fmt.minMax, decode_finite_isNan, decode_finite_isSnan, fx, fy, le, flags]
  refine ⟨by cases isMax <;> rfl, ?_⟩
  by_cases h' : fvLe (f.decode y) (f.decode x) = true
  · simp [back h']
  · cases isMax <;> simp [h']

/-- A NaN gives way to a number or an infinity, on either side. -/
theorem minMax_nan_other {f : Fmt} {x y : Nat} (hi : f.infs = true) (hs : f.snans = true) (hx : IsNan f x)
    (hy : ¬ IsNan f y) (isMax : Bool) :
    f.minMax isMax x y = (y, if fracField f x < 2 ^ (f.mbits - 1) then fNV else 0#5) ∧
    f.minMax isMax y x = (y, if fracField f x < 2 ^ (f.mbits - 1) then fNV else 0#5) := by
  have ny : (f.decode y).isNan = false := by rwa [← decode_isNan_iff hi, Bool.not_eq_true] at hy
  have sy : (f.decode y).isSnan = false := by
    rw [← Bool.not_eq_true, decode_isSnan_iff hi hs]
    exact fun h => hy h.1
  simp [Fmt.minMax, (decode_isNan_iff hi x).mpr hx, decode_nan_isSnan hi hs hx, ny, sy, flagIf_decide]

theorem minMax_nan_nan {f : Fmt} {x y : Nat} (hi : f.infs = true) (hs : f.snans = true) (hx : IsNan f x)
    (hy : IsNan f y) (isMax : Bool) :
    f.minMax isMax x y = (f.nan, if fracField f x < 2 ^ (f.mbits - 1) ∨ fracField f y < 2 ^ (f.mbits - 1)
      then fNV else 0#5) := by
  simp [Fmt.minMax, (decode_isNan_iff hi _).mpr, decode_nan_isSnan hi hs, hx, hy, ← Bool.decide_or, flagIf_decide]

/-- `fmin` and `fmax` write the operand that `minMax` picks. -/
theorem completes_floatPick {i : Instr} {s : State} {isMax : Bool} {w : BitVec 2} {rd rb rc : SReg} {r : Nat}
    {g : Flags} (run : exec i s = .next (s.floatPick isMax w rd rb rc))
    (h : (scalarFmt w).minMax isMax ((scalarFmt w).ofWord (s.sreg rb)) ((scalarFmt w).ofWord (s.sreg rc)) = (r, g)) :
    Completes i s fun t => FloatResult s t rd (BitVec.ofNat 64 r) g := by
  refine ⟨_, run, ?_⟩
  rw [State.floatPick, h]
  exact floatResult_float s rd (r, g)

/-- Settles O5: comparisons answer the order of the exact numbers, and the extrema the operand that comes first or last
in it; what a NaN does is read off its class. -/
theorem floatComparisonsAndExtrema : Obligations.FloatComparisonsAndExtrema := by
  unfold Obligations.FloatComparisonsAndExtrema
  refine ⟨fun s w rd rb rc _ => ?_, fun s w rd rb rc _ => ?_⟩
  · intro f x y answers
    have hi : f.infs = true := scalarFmt_infs w
    have hs : f.snans = true := scalarFmt_snans w
    refine ⟨fun hx hy => ⟨completes_fcmp rd (fvCompare_eq_finite hx hy), completes_fcmp rd (fvCompare_lt_finite hx hy),
      completes_fcmp rd (fvCompare_le_finite hx hy), completes_fcmp rd (fvCompare_unordered_finite hx hy)⟩,
      fun hn => ?_⟩
    rw [← decode_isNan_iff hi, ← decode_isNan_iff hi, ← Bool.or_eq_true] at hn
    obtain ⟨eq, lt, le, unordered⟩ := fvCompare_nan hn
    refine ⟨completes_fcmp rd lt, completes_fcmp rd le, fun signalling => ?_, fun quietx quiety => ?_⟩
    · rw [← decode_isSnan_iff hi hs, ← decode_isSnan_iff hi hs, ← Bool.or_eq_true] at signalling
      rw [signalling] at eq unordered
      exact ⟨completes_fcmp rd eq, completes_fcmp rd unordered⟩
    · rw [← decode_isSnan_iff hi hs, Bool.not_eq_true] at quietx quiety
      rw [quietx, quiety] at eq unordered
      exact ⟨completes_fcmp rd eq, completes_fcmp rd unordered⟩
  · intro f x y gives below
    have hi : f.infs = true := scalarFmt_infs w
    have hs : f.snans = true := scalarFmt_snans w
    refine ⟨fun hx hy h => ?_, fun hx hy => ?_, fun hx hy => ?_⟩
    · have picks := minMax_of_below (ofWord_lt f _) (ofWord_lt f _) hx hy h
      exact ⟨completes_floatPick rfl (picks false).1, completes_floatPick rfl (picks true).1,
        completes_floatPick rfl (picks false).2, completes_floatPick rfl (picks true).2⟩
    · have picks := minMax_nan_other hi hs hx hy
      exact ⟨completes_floatPick rfl (picks false).1, completes_floatPick rfl (picks true).1,
        completes_floatPick rfl (picks false).2, completes_floatPick rfl (picks true).2⟩
    · have picks := minMax_nan_nan hi hs hx hy
      rw [show f.nan = _ from scalarFmt_nan w] at picks
      exact ⟨completes_floatPick rfl (picks false), completes_floatPick rfl (picks true)⟩

end Sys2Proof.Machine
end

section
/-! Rounding (R116): a number at a place and to an integer, and a number that a format holds, which rounding keeps. -/

namespace Sys2Proof.Machine

/-! Rounding at a place (R116). -/

@[simp] theorem roundsUp_exact (mode : Nat) (neg odd : Bool) : roundsUp mode neg odd 0 = false := by
  rcases mode with _ | _ | _ | _ | mode <;> simp [roundsUp]

/-- A number with no bit below the place is a multiple of its unit. -/
theorem roundAt_of_le {mode : Nat} {neg : Bool} {m : Nat} {e q : Int} (h : q ≤ e) :
    roundAt mode neg m e false q = (m * 2 ^ (e - q).toNat, false) := by
  have h' : q - e ≤ 0 := by omega
  simp only [roundAt, if_pos h', neg_sub]
  simp

/-- The code that a remainder `r` of a division by `d` takes: none, below, at or above the half. -/
def partCode (sticky : Bool) (r d : Nat) : Nat :=
  if 2 * r < d then (if r = 0 ∧ !sticky then 0 else 1) else if 2 * r = d ∧ !sticky then 2 else 3

theorem roundAt_of_lt {mode : Nat} {neg sticky : Bool} {m d : Nat} {e q : Int} (h : e < q)
    (hd : d = 2 ^ (q - e).toNat) : roundAt mode neg m e sticky q =
      (if roundsUp mode neg (m / d % 2 == 1) (partCode sticky (m % d) d) then m / d + 1 else m / d,
      partCode sticky (m % d) d != 0) := by
  have h' : ¬ q - e ≤ 0 := by omega
  subst hd
  simp only [roundAt, if_neg h']
  rfl

/-- What each code says of the part of a unit that is rounded away (R116). -/
inductive PartOf : ℚ → Nat → Prop
  | exact : PartOf 0 0
  | below {t : ℚ} (pos : 0 < t) (lt : t < 1 / 2) : PartOf t 1
  | half : PartOf (1 / 2) 2
  | above {t : ℚ} (gt : 1 / 2 < t) (lt : t < 1) : PartOf t 3

theorem PartOf.lt_one {t : ℚ} {part : Nat} (h : PartOf t part) : t < 1 := by cases h <;> linarith

theorem PartOf.pos_or_exact {t : ℚ} {part : Nat} (h : PartOf t part) : 0 < t ∧ part ≠ 0 ∨ t = 0 ∧ part = 0 := by
  cases h
  case exact => exact .inr ⟨rfl, rfl⟩
  case below pos _ => exact .inl ⟨pos, by decide⟩
  case half => exact .inl ⟨by norm_num, by decide⟩
  case above gt _ => exact .inl ⟨by linarith, by decide⟩

theorem partOf_div {r d : Nat} (h : r < d) : PartOf ((r : ℚ) / d) (partCode false r d) := by
  have hd : (0 : ℚ) < d := by exact_mod_cast (Nat.zero_le r).trans_lt h
  unfold partCode
  rcases lt_trichotomy (2 * r) d with lt | eq | gt
  · have hq : (2 : ℚ) * r < d := by exact_mod_cast lt
    rw [if_pos lt]
    by_cases h0 : r = 0
    · simpa [h0] using PartOf.exact
    · have pos : (0 : ℚ) < r := by exact_mod_cast Nat.pos_of_ne_zero h0
      rw [if_neg (by simp [h0])]
      exact .below (by positivity) (by rw [div_lt_iff₀ hd]; linarith)
  · have hq : (r : ℚ) / d = 1 / 2 := by
      rw [div_eq_iff hd.ne', ← eq]; push_cast; ring
    rw [if_neg (by omega), if_pos ⟨eq, rfl⟩, hq]
    exact .half
  · have hq : (d : ℚ) < 2 * r := by exact_mod_cast gt
    have lt1 : (r : ℚ) < d := by exact_mod_cast h
    rw [if_neg (by omega), if_neg (fun eq => gt.ne' eq.1)]
    exact .above (by rw [lt_div_iff₀ hd]; linarith) (by rw [div_lt_iff₀ hd]; linarith)

/-- A magnitude is a whole number and a part below one, which `roundAt` at 0 rounds away. -/
theorem roundAt_zero (mode : Nat) (neg : Bool) (m : Nat) (e : Int) : ∃ (k part : Nat) (t : ℚ), PartOf t part ∧
    (m : ℚ) * 2 ^ e = k + t ∧
    roundAt mode neg m e false 0 = (if roundsUp mode neg (k % 2 == 1) part then k + 1 else k, part != 0) := by
  by_cases he : 0 ≤ e
  · refine ⟨m * 2 ^ (e - 0).toNat, 0, 0, .exact, ?_, ?_⟩
    · rw [two_zpow_of_le he]
      simp
    · simp [roundAt_of_le he]
  · let d : Nat := 2 ^ (0 - e).toNat
    have unit : (2 : ℚ) ^ e * d = 1 := by
      rw [mul_comm, ← zpow_zero 2, two_zpow_of_le (le_of_not_ge he)]
      push_cast [d]
      rfl
    refine ⟨m / d, _, (m % d : Nat) / (d : Nat), partOf_div (Nat.mod_lt _ (by positivity)), ?_,
      roundAt_of_lt (lt_of_not_ge he) rfl⟩
    have hd : (d : ℚ) ≠ 0 := right_ne_zero_of_mul_eq_one unit
    have parts : (m : ℚ) = d * (m / d : Nat) + (m % d : Nat) := by exact_mod_cast (Nat.div_add_mod m d).symm
    rw [eq_one_div_of_mul_eq_one_left unit, mul_one_div, div_eq_iff hd, add_mul, div_mul_cancel₀ _ hd, parts]
    ring

/-! Rounding to an integer (R116, R120). -/

theorem toInteger_intCast (mode : Nat) (z : Int) : toInteger mode z = z := by
  have hc : ⌈(z : ℚ) - 1 / 2⌉ = z := by rw [Int.ceil_eq_iff]; constructor <;> linarith
  have hf : ⌊(z : ℚ) + 1 / 2⌋ = z := by rw [Int.floor_eq_iff]; constructor <;> linarith
  rcases mode with _ | _ | _ | _ | mode
  · simp [toInteger]
  · simp [toInteger]
  · simp [toInteger]
  · simp [toInteger]
  · simp only [toInteger, hc, hf, ite_self]

/-- A number between `k` and `k + 1` goes up by the part recorded. -/
theorem toInteger_add_part (mode k : Nat) {t : ℚ} {part : Nat} (h : PartOf t part) (h0 : 0 < t) :
    toInteger mode (k + t) = ((if roundsUp mode false (k % 2 == 1) part then k + 1 else k : Nat) : Int) := by
  have h1 : t < 1 := h.lt_one
  have hk : (0 : ℚ) ≤ k := by positivity
  have hf : ⌊(k : ℚ) + t⌋ = k := by rw [Int.floor_eq_iff]; constructor <;> push_cast <;> linarith
  have hc : ⌈(k : ℚ) + t⌉ = k + 1 := by rw [Int.ceil_eq_iff]; constructor <;> push_cast <;> linarith
  have hn : ¬ ((k : ℚ) + t < 0) := by linarith
  have hd : (k : ℚ) + t - (k : Int) = t := by push_cast; ring
  rcases mode with _ | _ | _ | _ | mode
  · simp only [toInteger, hf, hd]
    cases h
    case exact => exact absurd h0 (lt_irrefl 0)
    case below lt => rw [if_pos lt]; rfl
    case half =>
      rw [if_neg (lt_irrefl _), if_neg (lt_irrefl _)]
      have even : (k : Int) % 2 = 0 ↔ ¬ k % 2 = 1 := by omega
      rcases Nat.mod_two_eq_zero_or_one k with parity | parity <;> simp only [even, parity] <;> simp [roundsUp]
    case above gt _ => rw [if_neg gt.not_gt, if_pos gt]; rfl
  · simp [toInteger, hf, hn, roundsUp]
  · simp [toInteger, hf, roundsUp]
  · simp only [toInteger, hc, roundsUp]
    cases h <;> simp_all
  · simp only [toInteger, if_neg hn]
    rw [Int.floor_eq_iff]
    cases h <;> simp_all [roundsUp] <;> constructor <;> linarith

/-- A number between `-(k + 1)` and `-k` goes away from zero by the part recorded. -/
theorem toInteger_neg_add_part (mode k : Nat) {t : ℚ} {part : Nat} (h : PartOf t part) (h0 : 0 < t) :
    toInteger mode (-(k + t)) = -((if roundsUp mode true (k % 2 == 1) part then k + 1 else k : Nat) : Int) := by
  have h1 : t < 1 := h.lt_one
  have hk : (0 : ℚ) ≤ k := by positivity
  have hf : ⌊-((k : ℚ) + t)⌋ = -((k + 1 : Nat) : Int) := by
    rw [Int.floor_eq_iff]; constructor <;> push_cast <;> linarith
  have hc : ⌈-((k : ℚ) + t)⌉ = -(k : Int) := by rw [Int.ceil_eq_iff]; constructor <;> push_cast <;> linarith
  have hn : -((k : ℚ) + t) < 0 := by linarith
  have hd : -((k : ℚ) + t) - ((-((k + 1 : Nat) : Int) : Int) : ℚ) = 1 - t := by push_cast; ring
  rcases mode with _ | _ | _ | _ | mode
  · simp only [toInteger, hf, hd]
    cases h
    case exact => exact absurd h0 (lt_irrefl 0)
    case below lt =>
      rw [if_neg (by linarith), if_pos (by linarith)]
      simp [roundsUp]
    case half =>
      rw [if_neg (by norm_num), if_neg (by norm_num)]
      have even : -((k + 1 : Nat) : Int) % 2 = 0 ↔ k % 2 = 1 := by omega
      rcases Nat.mod_two_eq_zero_or_one k with parity | parity <;> simp only [even, parity] <;> simp [roundsUp]
    case above gt _ => rw [if_pos (by linarith)]; rfl
  · simp only [toInteger, hc, if_pos hn, roundsUp]
    simp
  · simp only [toInteger, hf, roundsUp]
    cases h <;> simp_all
  · simp only [toInteger, hc, roundsUp]
    simp
  · simp only [toInteger, if_pos hn]
    rw [Int.ceil_eq_iff]
    cases h <;> simp_all [roundsUp] <;> constructor <;> linarith

theorem intCast_ne_add {t : ℚ} (h0 : 0 < t) (h1 : t < 1) (z k : Int) : (z : ℚ) ≠ k + t := by
  intro h
  have lower : (k : ℚ) < z := by linarith
  have upper : (z : ℚ) < (k + 1 : Int) := by push_cast; linarith
  have := Int.cast_lt.mp lower
  have := Int.cast_lt.mp upper
  omega

/-- The model's rounding to an integer is that of R116, and records whether it changed the number. -/
theorem roundInt_eq (mode : Nat) (neg : Bool) (m : Nat) (e : Int) : roundInt mode neg m e =
    (toInteger mode (dyadic neg m e), decide ((toInteger mode (dyadic neg m e) : ℚ) ≠ dyadic neg m e)) := by
  obtain ⟨k, part, t, h, value, rounded⟩ := roundAt_zero mode neg m e
  rw [roundInt, rounded]
  rcases h.pos_or_exact with ⟨h0, nonzero⟩ | ⟨rfl, rfl⟩
  · cases neg
    · have differs : (toInteger mode (k + t) : ℚ) ≠ k + t := intCast_ne_add h0 h.lt_one _ k
      simp only [dyadic_false, value, decide_eq_true differs]
      rw [toInteger_add_part mode k h h0]
      simp [nonzero]
    · have differs : (toInteger mode (-(k + t)) : ℚ) ≠ -(k + t) := fun same =>
        intCast_ne_add h0 h.lt_one (-toInteger mode (-(k + t))) k (by push_cast; rw [same, neg_neg])
      simp only [dyadic_true, value, decide_eq_true differs]
      rw [toInteger_neg_add_part mode k h h0]
      simp [nonzero]
  · have whole : dyadic neg m e = ((if neg then -(k : Int) else k : Int) : ℚ) := by
      cases neg <;> simp [value]
    rw [whole, toInteger_intCast]
    simp

theorem satInt_fin (mode : Nat) (lo hi : Int) (neg : Bool) (m : Nat) (e : Int) :
    satInt mode lo hi (.fin neg m e) =
      if toInteger mode (dyadic neg m e) < lo then (lo, true, fNV)
      else if hi < toInteger mode (dyadic neg m e) then (hi, true, fNV)
      else (toInteger mode (dyadic neg m e), false,
        if (toInteger mode (dyadic neg m e) : ℚ) = dyadic neg m e then 0#5 else fNX) := by
  simp only [satInt, roundInt_eq, flagIf_decide, ne_eq, ite_not]

/-! Packing (R114). -/

theorem fields_of_encoding (f : Fmt) (neg : Bool) {ex fr : Nat} (he : ex < 2 ^ f.ebits) (hf : fr < 2 ^ f.mbits) :
    let x := f.signBit neg + (ex * 2 ^ f.mbits + fr)
    x < 2 ^ f.bits ∧ isNegative f x = neg ∧ expField f x = ex ∧ fracField f x = fr := by
  intro x
  let sign := if neg then 1 else 0
  have split : fr + 2 ^ f.mbits * (ex + 2 ^ f.ebits * sign) = x := by
    cases neg <;> simp only [x, sign, Fmt.signBit, pow_add, if_true, if_false, Bool.false_eq_true] <;> ring
  obtain ⟨high, low⟩ := (Nat.div_mod_unique (by positivity)).mpr ⟨split, hf⟩
  obtain ⟨top, mid⟩ := (Nat.div_mod_unique (by positivity)).mpr ⟨rfl, he⟩
  have signed : x / 2 ^ (f.ebits + f.mbits) = sign := by
    rw [add_comm, pow_add, ← Nat.div_div_eq_div_mul, high, top]
  refine ⟨?_, ?_, ?_, low⟩
  · rw [Fmt.bits, add_assoc, pow_add, ← Nat.div_lt_iff_lt_mul (by positivity), signed]
    simp only [sign]
    split <;> norm_num
  · rw [isNegative, signed]
    cases neg <;> rfl
  · rw [expField, high, mid]

/-- An integer in units that the format has, and that needs a leading one above the least unit, is what its encoding
stands for. -/
theorem pack_spec {f : Fmt} (hi : f.infs = true) (hb : 0 < f.ebits) (neg : Bool) {m : Nat} {q : Int}
    (hm : m < 2 ^ (f.mbits + 1)) (hq : f.qmin ≤ q) (subnormal : m < 2 ^ f.mbits → q = f.qmin)
    (normal : 2 ^ f.mbits ≤ m → q ≤ f.maxQ) :
    f.pack neg m q < 2 ^ f.bits ∧ IsFinite f (f.pack neg m q) ∧ numberOf f (f.pack neg m q) = dyadic neg m q := by
  have two : 2 ≤ 2 ^ f.ebits := Nat.le_self_pow hb.ne' 2
  by_cases h : m < 2 ^ f.mbits
  · have packed : f.pack neg m q = f.signBit neg + (0 * 2 ^ f.mbits + m) := by simp [Fmt.pack, h]
    obtain ⟨bound, sign, ex, fr⟩ := fields_of_encoding f neg (ex := 0) (by positivity) h
    rw [packed]
    refine ⟨bound, ?_, ?_⟩
    · rw [IsFinite, ex]
      omega
    · rw [numberOf_eq_dyadic, sign, significand, if_pos ex, fr, unitExp_of_subnormal ex, subnormal h]
  · have hmax := normal (le_of_not_gt h)
    rw [Fmt.maxQ, if_pos hi] at hmax
    have least : 1 ≤ q + f.mbits + f.bias := by
      unfold Fmt.qmin Fmt.emin at hq
      omega
    obtain ⟨k, hk⟩ : ∃ k : Nat, q + f.mbits + f.bias = k := ⟨_, (Int.toNat_of_nonneg (by omega)).symm⟩
    have most : k + 1 < 2 ^ f.ebits := by
      zify
      omega
    have packed : f.pack neg m q = f.signBit neg + (k * 2 ^ f.mbits + (m - 2 ^ f.mbits)) := by
      simp [Fmt.pack, h, hk]
    have low : m - 2 ^ f.mbits < 2 ^ f.mbits := by omega
    obtain ⟨bound, sign, ex, fr⟩ := fields_of_encoding f neg (ex := k) (by omega) low
    have nonzero : expField f (f.signBit neg + (k * 2 ^ f.mbits + (m - 2 ^ f.mbits))) ≠ 0 := by
      rw [ex]
      omega
    rw [packed]
    refine ⟨bound, ?_, ?_⟩
    · rw [IsFinite, ex]
      omega
    · rw [numberOf_eq_dyadic, sign, significand, if_neg nonzero, fr, unitExp_of_normal nonzero, ex]
      congr 1 <;> omega

/-! Exact rounding (R116). -/

theorem bitLen_pos {m : Nat} (h : m ≠ 0) : 0 < bitLen m := by simp [bitLen, h]

theorem bitLen_le {m b : Nat} (h : m < 2 ^ b) : bitLen m ≤ b := by
  rw [bitLen]
  split
  case isTrue => omega
  case isFalse h0 => exact (Nat.log2_lt h0).mpr h

theorem shifted_lt (m n : Nat) : m * 2 ^ n < 2 ^ (bitLen m + n) := by
  rw [pow_add, bitLen]
  split
  case isTrue h => simp [h]
  case isFalse h =>
    gcongr
    exact Nat.lt_log2_self

theorem le_shifted {m : Nat} (h : m ≠ 0) (n : Nat) : 2 ^ (bitLen m - 1 + n) ≤ m * 2 ^ n := by
  rw [pow_add, bitLen, if_neg h]
  gcongr
  exact Nat.log2_self_le h

/-- The unit of a format's precision for the leading one of `m * 2 ^ e`, the exponent unbounded. -/
def topUnit (f : Fmt) (m : Nat) (e : Int) : Int := e + (bitLen m : Int) - 1 - (f.mbits : Int)

/-- The unit that a format gives to that number: that of its leading one, or the least. -/
def fitUnit (f : Fmt) (m : Nat) (e : Int) : Int := max (topUnit f m e) f.qmin

section
variable {f : Fmt} {m : Nat} {e : Int}

theorem topUnit_le (hb : bitLen m ≤ f.mbits + 1) : topUnit f m e ≤ e := by unfold topUnit; omega

theorem fitUnit_le (hb : bitLen m ≤ f.mbits + 1) (he : f.qmin ≤ e) : fitUnit f m e ≤ e := max_le (topUnit_le hb) he

theorem qmin_le_fitUnit : f.qmin ≤ fitUnit f m e := le_max_right _ _

theorem topShifted_lt (h0 : m ≠ 0) (hb : bitLen m ≤ f.mbits + 1) :
    m * 2 ^ (e - topUnit f m e).toNat < 2 ^ (f.mbits + 1) := by
  have pos := bitLen_pos h0
  have width : bitLen m + (e - topUnit f m e).toNat = f.mbits + 1 := by unfold topUnit; omega
  exact width ▸ shifted_lt m _

theorem fitShifted_lt (h0 : m ≠ 0) (hb : bitLen m ≤ f.mbits + 1) :
    m * 2 ^ (e - fitUnit f m e).toNat < 2 ^ (f.mbits + 1) := by
  have shift : (e - fitUnit f m e).toNat ≤ (e - topUnit f m e).toNat := by unfold fitUnit; omega
  exact lt_of_le_of_lt (Nat.mul_le_mul_left m (Nat.pow_le_pow_right two_pos shift)) (topShifted_lt h0 hb)

/-- A number without a leading one at the top of the precision has the least unit. -/
theorem fitUnit_of_lt (h0 : m ≠ 0) (hb : bitLen m ≤ f.mbits + 1)
    (small : m * 2 ^ (e - fitUnit f m e).toNat < 2 ^ f.mbits) : fitUnit f m e = f.qmin := by
  refine max_eq_right (le_of_not_gt fun above => ?_)
  have pos := bitLen_pos h0
  have width : bitLen m - 1 + (e - topUnit f m e).toNat = f.mbits := by unfold topUnit; omega
  rw [fitUnit, max_eq_left above.le] at small
  exact absurd small (width ▸ le_shifted h0 _).not_gt

/-- One with a leading one there has the unit of that. -/
theorem fitUnit_of_le (large : 2 ^ f.mbits ≤ m * 2 ^ (e - fitUnit f m e).toNat) (he : f.qmin ≤ e) :
    fitUnit f m e = topUnit f m e := by
  refine max_eq_left (le_of_not_gt fun below => ?_)
  have width : bitLen m + (e - f.qmin).toNat ≤ f.mbits := by unfold topUnit at below; omega
  rw [fitUnit, max_eq_right below.le] at large
  exact absurd large ((shifted_lt m _).trans_le (Nat.pow_le_pow_right two_pos width)).not_ge

/-- A number within a format's precision and above its least unit is not changed by rounding. -/
theorem round_exact (mode : Nat) (neg : Bool) (h0 : m ≠ 0) (hb : bitLen m ≤ f.mbits + 1) (he : f.qmin ≤ e) :
    ∃ tiny, f.round mode neg m e false =
      { um := m * 2 ^ (e - topUnit f m e).toNat, uq := topUnit f m e
        m := m * 2 ^ (e - fitUnit f m e).toNat, q := fitUnit f m e
        inexact := false, tiny := tiny } := by
  simp only [Fmt.round]
  rw [← topUnit, roundAt_of_le (topUnit_le hb), roundAt_of_le he]
  simp only [(topShifted_lt h0 hb).ne, if_false]
  split
  case isTrue h => exact ⟨_, by rw [fitUnit, max_eq_left h]⟩
  case isFalse h => exact ⟨_, by rw [fitUnit, max_eq_right (by omega)]⟩

theorem roundFin_exact (hi : f.infs = true) (mode : Nat) (neg : Bool) (h0 : m ≠ 0) (hb : bitLen m ≤ f.mbits + 1)
    (he : f.qmin ≤ e) (ht : topUnit f m e ≤ f.maxQ) :
    f.roundFin mode neg m e false = (f.pack neg (m * 2 ^ (e - fitUnit f m e).toNat) (fitUnit f m e), 0#5) := by
  obtain ⟨tiny, rounded⟩ := round_exact mode neg h0 hb he
  have most : m * 2 ^ (e - topUnit f m e).toNat ≤ 2 ^ (f.mbits + 1) - 1 := Nat.le_sub_one_of_lt (topShifted_lt h0 hb)
  have inRange : leDyadic (m * 2 ^ (e - topUnit f m e).toNat) (topUnit f m e) f.maxM f.maxQ = true := by
    rw [leDyadic_iff, Fmt.maxM, if_pos hi]
    gcongr
    norm_num
  simp [Fmt.roundFin, Fmt.exceeds, rounded, inRange, flagIf]

theorem dyadic_shift (neg : Bool) {q : Int} (h : q ≤ e) :
    dyadic neg (m * 2 ^ (e - q).toNat) q = dyadic neg m e := by
  rw [dyadic, dyadic, two_zpow_of_le h]
  push_cast
  ring

/-- A number that a format holds is kept exactly, with no flag, in every mode. -/
theorem roundTo_exact (hi : f.infs = true) (hx : 0 < f.ebits) (mode : Nat) (neg : Bool) (hb : bitLen m ≤ f.mbits + 1)
    (he : f.qmin ≤ e) (ht : topUnit f m e ≤ f.maxQ) :
    ∃ r, r < 2 ^ f.bits ∧ IsFinite f r ∧ numberOf f r = dyadic neg m e ∧
      f.roundTo mode (.fin neg m e) = (r, 0#5) := by
  by_cases h0 : m = 0
  · have zero : f.signBit neg = f.pack neg 0 f.qmin := by simp [Fmt.pack]
    obtain ⟨bound, finite, number⟩ := pack_spec hi hx neg (m := 0) (by positivity) le_rfl (fun _ => rfl)
      (fun h => absurd h (by simp))
    refine ⟨_, bound, finite, ?_, ?_⟩
    · rw [number, h0, dyadic_zero, dyadic_zero]
    · rw [Fmt.roundTo, if_pos h0, zero]
  · obtain ⟨bound, finite, number⟩ := pack_spec hi hx neg (fitShifted_lt h0 hb) qmin_le_fitUnit
      (fitUnit_of_lt h0 hb) (fun large => (fitUnit_of_le large he).trans_le ht)
    refine ⟨_, bound, finite, number.trans (dyadic_shift neg (fitUnit_le hb he)), ?_⟩
    rw [Fmt.roundTo, if_neg h0, roundFin_exact hi mode neg h0 hb he ht]

end

/-! Widening a format (R114). -/

/-- What makes every finite number of `f` one of `g`: as many bits, as small a unit, as large a leading one. -/
structure Widens (f g : Fmt) : Prop where
  infs : f.infs = true ∧ g.infs = true
  ebits : 0 < g.ebits
  precision : f.mbits ≤ g.mbits
  least : g.qmin ≤ f.qmin
  most : f.maxQ + f.mbits ≤ g.maxQ + g.mbits
  /-- `f` has a normal number. -/
  normal : 1 < f.ebits

theorem qmin_le_unitExp (f : Fmt) (x : Nat) : f.qmin ≤ unitExp f x := by
  unfold unitExp Fmt.qmin Fmt.emin
  omega

theorem unitExp_le_maxQ {f : Fmt} {x : Nat} (hi : f.infs = true) (hb : 1 < f.ebits) (h : IsFinite f x) :
    unitExp f x ≤ f.maxQ := by
  have lt : expField f x < 2 ^ f.ebits := Nat.mod_lt _ (by positivity)
  have four : 2 ^ 2 ≤ 2 ^ f.ebits := Nat.pow_le_pow_right two_pos hb
  unfold IsFinite at h
  have top : (max (expField f x) 1 : Nat) + 2 ≤ 2 ^ f.ebits := by omega
  have topInt : ((max (expField f x) 1 : Nat) : Int) + 2 ≤ 2 ^ f.ebits := by exact_mod_cast top
  rw [unitExp, Fmt.maxQ, if_pos hi]
  linarith

theorem roundTo_widens {f g : Fmt} {x : Nat} (h : Widens f g) (hx : IsFinite f x) (mode : Nat) :
    ∃ r, r < 2 ^ g.bits ∧ IsFinite g r ∧ numberOf g r = numberOf f x ∧ g.roundTo mode (f.decode x) = (r, 0#5) := by
  obtain ⟨⟨hf, hg⟩, ebits, precision, least, most, normal⟩ := h
  have len : bitLen (significand f x) ≤ f.mbits + 1 := bitLen_le (significand_lt f x)
  have high := unitExp_le_maxQ hf normal hx
  rw [decode_finite hx, numberOf_eq_dyadic f x]
  exact roundTo_exact hg ebits mode _ (by omega) (least.trans (qmin_le_unitExp f x)) (by unfold topUnit; omega)

end Sys2Proof.Machine
end

section
/-! Scalar conversions (O6): what `convert` answers of a finite number (R114, R120, R316, R317). -/

namespace Sys2Proof.Machine

theorem convSource_fmt {src : Nat} {f : Fmt} (h : convFmt src = some f) (x : Word) :
    convSource src x = f.decode (f.ofWord x) := by
  simp only [convSource, h]

/-- A finite number into a floating-point format. -/
theorem convert_finite {dst src : Nat} {f g : Fmt} {x : Word} {r : Nat} {h : Flags} (hd : convFmt dst = some g)
    (hs : convFmt src = some f) (hx : IsFinite f (f.ofWord x)) {mode : Nat}
    (rounded : g.roundTo mode (f.decode (f.ofWord x)) = (r, h)) : convert mode dst src x = (BitVec.ofNat 64 r, h) := by
  rw [decode_finite hx] at rounded
  simp only [convert, hd, convSource_fmt hs, decode_finite hx, rounded]

theorem convRange_le (dst : Nat) : (convRange dst).1 ≤ (convRange dst).2 := by
  unfold convRange
  split <;> norm_num

section
variable {dst src : Nat} {f : Fmt} {x : Word} {mode : Nat} {lo hi : Int}

theorem convert_toInteger (hd : convFmt dst = none) (hr : convRange dst = (lo, hi)) (hs : convFmt src = some f)
    (hx : IsFinite f (f.ofWord x)) (least : lo ≤ toInteger mode (numberOf f (f.ofWord x)))
    (most : toInteger mode (numberOf f (f.ofWord x)) ≤ hi) :
    convert mode dst src x = (BitVec.ofInt 64 (toInteger mode (numberOf f (f.ofWord x))),
      if (toInteger mode (numberOf f (f.ofWord x)) : ℚ) = numberOf f (f.ofWord x) then 0#5 else fNX) := by
  simp only [convert, hd, hr, convSource_fmt hs, decode_finite hx, satInt_fin, ← numberOf_eq_dyadic,
    if_neg least.not_gt, if_neg most.not_gt]

theorem convert_below (hd : convFmt dst = none) (hr : convRange dst = (lo, hi)) (hs : convFmt src = some f)
    (hx : IsFinite f (f.ofWord x)) (below : toInteger mode (numberOf f (f.ofWord x)) < lo) :
    convert mode dst src x = (BitVec.ofInt 64 lo, fNV) := by
  simp only [convert, hd, hr, convSource_fmt hs, decode_finite hx, satInt_fin, ← numberOf_eq_dyadic, if_pos below]

theorem convert_above (hd : convFmt dst = none) (hr : convRange dst = (lo, hi)) (hs : convFmt src = some f)
    (hx : IsFinite f (f.ofWord x)) (above : hi < toInteger mode (numberOf f (f.ofWord x))) :
    convert mode dst src x = (BitVec.ofInt 64 hi, fNV) := by
  have order : lo ≤ hi := by simpa only [hr] using convRange_le dst
  simp only [convert, hd, hr, convSource_fmt hs, decode_finite hx, satInt_fin, ← numberOf_eq_dyadic,
    if_neg (order.trans above.le).not_gt, if_pos above]

end

/-- `fcvt` writes what its conversion gives. -/
theorem completes_fcvt {s : State} {dst src : BitVec 3} {rb : SReg} {v : Word} {g : Flags} (rd : SReg)
    (h : convert s.me.frm.toNat dst.toNat src.toNat (s.sreg rb) = (v, g)) :
    Completes (.fcvt dst src rd rb) s fun t => FloatResult s t rd v g := by
  have run : exec (.fcvt dst src rd rb) s = .next (s.floatResult rd (v.toNat, g)) := by
    show execFcvt dst src rd rb s = _
    rw [execFcvt, State.rm, h, State.floatResult, BitVec.ofNat_toNat, BitVec.setWidth_eq]
  refine ⟨_, run, ?_⟩
  have result := floatResult_float s rd (v.toNat, g)
  rwa [BitVec.ofNat_toNat, BitVec.setWidth_eq] at result

/-- Settles O6: the rounding to an integer is that of the exact number, whose range is judged after it; a widening keeps
the number because its significand, shifted to the unit of the wider format, fits there. -/
theorem floatConversions : Obligations.FloatConversions := by
  unfold Obligations.FloatConversions
  refine ⟨fun s dst src rd rb hdst hsrc => ?_, fun s dst src rd rb => ⟨completes_fcvt rd rfl, fun f g formats hx => ?_⟩⟩
  · intro f x lo hi k gives hx
    have source : convFmt src.toNat = some f := by
      rcases hsrc with h | h <;> simp [f, h, convFmt]
    have target : convFmt dst.toNat = none ∧ convRange dst.toNat = (lo, hi) := by
      simp only [lo, hi]
      generalize dst.toNat = d at hdst
      interval_cases d <;> exact ⟨rfl, rfl⟩
    obtain ⟨target, range⟩ := target
    exact ⟨fun least most => completes_fcvt rd (convert_toInteger target range source hx least most),
      fun below => completes_fcvt rd (convert_below target range source hx below),
      fun above => completes_fcvt rd (convert_above target range source hx above)⟩
  · have known : convFmt src.toNat = some f ∧ convFmt dst.toNat = some g ∧ Widens f g := by
      rcases formats with ⟨rfl, rfl, rfl, rfl⟩ | ⟨rfl, rfl, ⟨rfl, rfl⟩ | ⟨rfl, rfl⟩⟩ |
        ⟨rfl, rfl, ⟨rfl, rfl⟩ | ⟨rfl, rfl⟩⟩
      all_goals exact ⟨rfl, rfl, by decide, by decide, by decide, by decide, by decide, by decide⟩
    obtain ⟨source, target, widens⟩ := known
    obtain ⟨r, bound, finite, number, rounded⟩ := roundTo_widens widens hx s.me.frm.toNat
    obtain ⟨t, run, result⟩ := completes_fcvt rd (convert_finite target source hx rounded)
    exact ⟨t, run, r, bound, finite, number, result⟩

end Sys2Proof.Machine
end

section
/-! The canonical form of every memory (O60, R131, log 6): what keeps it. The lemmas are named after the operations of
the state and take their arguments from the goal, so that a proof of a meaning reads like the meaning: where it is
`(s.setS rd v).retire`, its proof is `h.setS.retire`. -/

namespace Sys2Proof.Machine

/-! Computations that may stop. -/

/-- What a computation answers, if it answers, satisfies a property. -/
def Yields {ε α : Type} (P : α → Prop) (r : Except ε α) : Prop := ∀ a, r = .ok a → P a

/-- The next state, where an outcome has one, has its memories canonical. -/
def Lands (r : Host.Outcome State Fault Refusal) : Prop := ∀ t, r = .next t → t.memoryWf

section
variable {ε α β : Type} {P : α → Prop} {Q : β → Prop}

theorem Yields.ok {a : α} (h : P a) : Yields P (.ok a : Except ε α) := fun _ e => Except.ok.inj e ▸ h

theorem Yields.error {e : ε} : Yields P (.error e : Except ε α) := fun _ => nofun

theorem Yields.bind {r : Except ε α} {f : α → Except ε β} (hr : Yields P r) (hf : ∀ a, P a → Yields Q (f a)) :
    Yields Q (r >>= f) := by
  cases r with
  | ok a => exact hf a (hr a rfl)
  | error e => exact .error

/-- A check, or a value read, before the rest. -/
theorem Yields.after {r : Except ε α} {f : α → Except ε β} (hf : ∀ a, Yields Q (f a)) : Yields Q (r >>= f) :=
  Yields.bind (P := fun _ => True) (fun _ _ => trivial) fun a _ => hf a

/-- The same after either of two checks: how `do` writes a check under a condition. -/
theorem Yields.afterEither {c : Prop} {_ : Decidable c} {r q : Except ε α} {f : α → Except ε β}
    (hf : ∀ a, Yields Q (f a)) : Yields Q (if c then r >>= f else q >>= f) := by
  split
  · exact .after hf
  · exact .after hf

theorem Yields.bindEither {c : Prop} {_ : Decidable c} {r q : Except ε α} {f : α → Except ε β} (hr : Yields P r)
    (hq : Yields P q) (hf : ∀ a, P a → Yields Q (f a)) : Yields Q (if c then r >>= f else q >>= f) := by
  split
  · exact hr.bind hf
  · exact hq.bind hf

theorem Yields.ite {c : Prop} {_ : Decidable c} {r q : Except ε α} (hr : Yields P r) (hq : Yields P q) :
    Yields P (if c then r else q) := by
  split
  · exact hr
  · exact hq

end

theorem Lands.next {s : State} (h : s.memoryWf) : Lands (.next s) := fun _ e => Host.Outcome.next.inj e ▸ h

theorem Lands.fault {f : Fault} : Lands (.fault f) := fun _ => nofun

theorem Lands.ite {c : Prop} {_ : Decidable c} {r q : Host.Outcome State Fault Refusal} (hr : Lands r) (hq : Lands q) :
    Lands (if c then r else q) := by
  split
  · exact hr
  · exact hq

theorem Lands.onNext {f : State → State} {r : Host.Outcome State Fault Refusal} (hr : Lands r)
    (hf : ∀ t : State, t.memoryWf → (f t).memoryWf) : Lands (onNext f r) := by
  cases r with
  | next t => exact .next (hf t (hr t rfl))
  | fault _ => simp [Lands, Machine.onNext]
  | refused _ => simp [Lands, Machine.onNext]

/-! Updates of the state that write no memory. -/

theorem State.memoryWf.ite {c : Prop} {_ : Decidable c} {s t : State} (hs : s.memoryWf) (ht : t.memoryWf) :
    (if c then s else t).memoryWf := by
  split
  · exact hs
  · exact ht

/-- Any update of the fields that are no memories. -/
theorem State.memoryWf.set {s : State} {agenda cur npc tick nextId time package hosterr gen domain link atomen win route
    modes sealpub provpub sealkey provkey bootPhase bootResult bootRetried identity halted pwrlim power temp trip fwver
    staged fwprev fuses hubTemp baseTemps peers linkUp busMaster msixPending msixSent msixTable bars devctl2 hostQueue
    hostAnswer peerAnswer sealSerial keyNames dies tenants queues strands chains keys seals groups ready closes frames
    mkeys poison stale races nextRegion ops requests remote peerCtl peerRefuse peerCtlRefuse peerGens peerActs serving
    failing} (h : s.memoryWf) :
    (State.mk agenda cur npc tick nextId time package hosterr gen domain link atomen win route
      modes sealpub provpub sealkey provkey bootPhase bootResult bootRetried identity halted pwrlim power temp trip fwver
      staged fwprev fuses hubTemp baseTemps peers linkUp busMaster msixPending msixSent msixTable bars devctl2 hostQueue
      hostAnswer peerAnswer sealSerial keyNames dies s.cores tenants queues strands chains keys seals groups ready closes
      frames s.mem s.mtags mkeys poison stale races nextRegion ops requests remote s.hostMem s.peerMem s.peerTags peerCtl
      peerRefuse peerCtlRefuse peerGens peerActs serving failing).memoryWf := h

theorem State.memoryWf.foldl {α : Type} {f : State → α → State} {l : List α} {s : State} (h : s.memoryWf)
    (hf : ∀ u a, State.memoryWf u → (f u a).memoryWf) : (l.foldl f s).memoryWf := foldl_memoryWf f hf l s h

/-- An update of every core that leaves its scratchpad as it is, or makes it an empty core. -/
theorem State.memoryWf.mapCores {s : State} {f : Nat → Core → Core} (h : s.memoryWf)
    (hf : ∀ c x, (f c x).spad = x.spad ∧ (f c x).stags = x.stags ∨ f c x = Core.empty) :
    { s with cores := mapTable s.cores f }.memoryWf := by
  obtain ⟨mem, mtags, host, peer, ptags, cores⟩ := h
  refine ⟨mem, mtags, host, peer, ptags, fun e he => ?_⟩
  obtain ⟨d, hd, rfl⟩ := List.mem_map.1 he
  rcases hf d.1 d.2 with ⟨spad, stags⟩ | empty
  · dsimp only
    rw [spad, stags]
    exact cores d hd
  · dsimp only
    rw [empty]
    exact ⟨rfl, rfl⟩

section
variable {s : State} (h : s.memoryWf)
include h

/-- An update of one core's board, engine or caches. -/
theorem State.memoryWf.updCore {c : Nat} {f : Core → Core}
    (hf : ∀ x, (f x).spad = x.spad ∧ (f x).stags = x.stags := by exact fun _ => ⟨rfl, rfl⟩) :
    (s.updCore c f).memoryWf := updCore_memoryWf_same s c f h hf

theorem State.memoryWf.setStrand {n x} : (s.setStrand n x).memoryWf := h.set
theorem State.memoryWf.updStrand {n f} : (s.updStrand n f).memoryWf := h.setStrand
theorem State.memoryWf.updMe {f} : (s.updMe f).memoryWf := h.updStrand
theorem State.memoryWf.updTenant {t f} : (s.updTenant t f).memoryWf := h.set
theorem State.memoryWf.updQueue {q f} : (s.updQueue q f).memoryWf := h.set
theorem State.memoryWf.updChain {c f} : (s.updChain c f).memoryWf := h.set
theorem State.memoryWf.updKey {k f} : (s.updKey k f).memoryWf := h.set
theorem State.memoryWf.updSeal {m f} : (s.updSeal m f).memoryWf := h.set
theorem State.memoryWf.updGroup {k f} : (s.updGroup k f).memoryWf := h.set
theorem State.memoryWf.updDie {d f} : (s.updDie d f).memoryWf := h.set
theorem State.memoryWf.updRecord {t k f} : (s.updRecord t k f).memoryWf := h.updTenant
theorem State.memoryWf.updOp {i f} : (s.updOp i f).memoryWf := h.set
theorem State.memoryWf.updEngine {c f} : (s.updEngine c f).memoryWf := h.updCore
theorem State.memoryWf.setS {r v} : (s.setS r v).memoryWf := h.updMe
theorem State.memoryWf.retire : s.retire.memoryWf := h.updMe
theorem State.memoryWf.result {r v} : (s.result r v).memoryWf := h.setS.retire
theorem State.memoryWf.await {w} : (s.await w).memoryWf := h.updMe
theorem State.memoryWf.dropCheckpoint : s.dropCheckpoint.memoryWf := h.updMe
theorem State.memoryWf.sweepRaces : s.sweepRaces.memoryWf := h.set
theorem State.memoryWf.newRegion {n} : (s.newRegion n).memoryWf := State.memoryWf.sweepRaces (h.set.updStrand)
theorem State.memoryWf.sync {b} : (s.sync b).memoryWf := h.newRegion.ite h
theorem State.memoryWf.fresh : s.fresh.2.memoryWf := h.set

/-! Bytes and tags written in each memory. -/

theorem State.memoryWf.writeHost {a l} : { s with hostMem := writeBytes s.hostMem a l }.memoryWf := by
  obtain ⟨mem, mtags, host, peer, ptags, cores⟩ := h
  exact ⟨mem, mtags, writeBytes_wf _ _ _ host, peer, ptags, cores⟩

theorem State.memoryWf.writePeer {a l} : { s with peerMem := writeBytes s.peerMem a l }.memoryWf := by
  obtain ⟨mem, mtags, host, peer, ptags, cores⟩ := h
  exact ⟨mem, mtags, host, writeBytes_wf _ _ _ peer, ptags, cores⟩

theorem State.memoryWf.writePeerTagged {a l} {tag : Option Tag} : { s with
    peerMem := writeBytes s.peerMem a l
    peerTags := match tag with
      | some t => putAt s.peerTags (a / 64) t
      | none => s.peerTags }.memoryWf := by
  obtain ⟨mem, mtags, host, peer, ptags, cores⟩ := h
  cases tag with
  | none => exact ⟨mem, mtags, host, writeBytes_wf _ _ _ peer, ptags, cores⟩
  | some t => exact ⟨mem, mtags, host, writeBytes_wf _ _ _ peer, canonical_putAt _ _ _ ptags, cores⟩

theorem State.memoryWf.remoteReach {l} : (s.remoteReach l).memoryWf := by
  refine h.foldl fun u e hu => ?_
  cases htag : e.2.tag with
  | none => simpa only [htag] using hu.writePeerTagged (tag := none)
  | some t => simpa only [htag] using hu.writePeerTagged (tag := some t)

theorem State.memoryWf.vineDrainAll {c} : (s.vineDrainAll c).memoryWf := vineAcceptN_memoryWf s c _ h

theorem State.memoryWf.settleAll {x} : (s.settleAll x).memoryWf := by
  cases x with
  | vine c off key => exact h.vineDrainAll
  | remote pa gen => exact remoteDrain_memoryWf s h
  | spad c lane a => exact h
  | hbm pa key raced => exact h
  | control pa => exact h
  | window w off => exact h

theorem State.memoryWf.engineWrite {x l} : (s.engineWrite x l).memoryWf := by
  have settled := h.settleAll (x := x)
  cases x with
  | vine c off key => exact (vineApply_memoryWf _ c key off l none settled).updChain
  | remote pa gen => exact settled.writePeer
  | window w off => exact settled.writeHost.ite settled
  | spad c lane a => exact writeTarget_memoryWf _ _ _ (.spad c lane a) l _ _ settled
  | hbm pa key raced => exact writeTarget_memoryWf _ _ _ (.hbm pa key raced) l _ _ settled
  | control pa => exact settled

theorem State.memoryWf.engineUpdate {x f} : (s.engineUpdate x f).memoryWf := h.engineWrite

end

end Sys2Proof.Machine
end

section
/-! The work hierarchy, exceptions, fault queues and engine operations keep the memories canonical. -/

namespace Sys2Proof.Machine

variable {s : State} (h : s.memoryWf)
include h

/-! Records of work, and how a strand ends (R80 to R85, R105). -/

theorem State.memoryWf.closeFlow {t nd} : (s.closeFlow t nd).memoryWf := by
  unfold State.closeFlow
  split
  · exact h
  · dsimp only
    split
    · exact h.engineUpdate
    · exact h
    · exact h.set

theorem State.memoryWf.renumber {f} : (s.renumber f).memoryWf :=
  (h.mapCores (f := fun _ x => { x with
    engine := { x.engine with holder := x.engine.holder.map f }
    board := x.board.map fun b => { b with strand := f b.strand } }) fun _ _ => .inl ⟨rfl, rfl⟩).set

theorem State.memoryWf.freeStrands {t id} : (s.freeStrands t id).memoryWf := h.renumber.set

theorem State.memoryWf.retireChildren {t id} : (s.retireChildren t id).memoryWf :=
  (h.foldl fun _ _ hu => hu.freeStrands.ite hu).updTenant

theorem State.memoryWf.finishCommands {t r} : (s.finishCommands t r).memoryWf := h.set

theorem State.memoryWf.retireSilentJob {t id} : (s.retireSilentJob t id).memoryWf := h.updRecord.ite h

theorem State.memoryWf.noteOutcome {t r} : (s.noteOutcome t r).memoryWf := by
  unfold State.noteOutcome
  split
  · exact h.updRecord
  · exact h

theorem State.memoryWf.dropSilent : s.dropSilent.memoryWf := h.set

theorem State.memoryWf.afterComplete {t r} : (s.afterComplete t r).memoryWf :=
  ((h.closeFlow.noteOutcome.ite h.retireChildren).finishCommands.retireSilentJob.ite
    (h.closeFlow.noteOutcome.ite h.retireChildren).finishCommands).dropSilent

theorem State.memoryWf.countIn {fuel t id ok cause} : (s.countIn fuel t id ok cause).memoryWf := by
  induction fuel generalizing s id ok cause with
  | zero => exact h
  | succ fuel ih =>
    unfold State.countIn
    split
    · exact h
    · refine .ite ?_ h.updRecord
      dsimp only
      split
      · exact ih h.updRecord.afterComplete
      · exact h.updRecord.afterComplete

theorem State.memoryWf.completeRecord {t id} : (s.completeRecord t id).memoryWf := by
  unfold State.completeRecord
  split
  · exact h
  · dsimp only
    split
    · exact h.updRecord.afterComplete.countIn
    · exact h.updRecord.afterComplete

theorem State.memoryWf.leaveEngines {n b} : (s.leaveEngines n b).memoryWf := by
  refine h.mapCores (f := fun _ x => x.leave n b) fun _ x => .inl ?_
  unfold Core.leave
  dsimp only
  split_ifs <;> exact ⟨rfl, rfl⟩

theorem State.memoryWf.endOps {n code} : (s.endOps n code).memoryWf := h.set
theorem State.memoryWf.loseGroups {n b} : (s.loseGroups n b).memoryWf := h.set
theorem State.memoryWf.dropRequests {n} : (s.dropRequests n).memoryWf := h.set
theorem State.memoryWf.forgetHeld {n} : (s.forgetHeld n).memoryWf := h.updTenant

theorem State.memoryWf.sealFinish {m} : (s.sealFinish m).memoryWf := h.ite (h.updSeal.ite h.updSeal)

theorem State.memoryWf.abandonSeal {m} : (s.abandonSeal m).memoryWf := h.ite (h.updSeal.ite h.sealFinish)

theorem State.memoryWf.abandonSeals {n} : (s.abandonSeals n).memoryWf :=
  h.foldl fun _ _ hu => hu.ite hu.abandonSeal

theorem State.memoryWf.endPage {n page forced} : (s.endPage n page forced).memoryWf :=
  (h.endOps.ite h).dropRequests.forgetHeld.loseGroups.setStrand.leaveEngines.abandonSeals.sweepRaces

theorem State.memoryWf.countStrand {n cause} : (s.countStrand n cause).memoryWf := h.countIn

theorem State.memoryWf.endStrandTo {n page forced} : (s.endStrandTo n page forced).memoryWf :=
  h.ite h.endPage.countStrand

theorem State.memoryWf.killRaw {n counted} : (s.killRaw n counted).memoryWf := h.ite h.endPage

theorem State.memoryWf.abandonNode {t g i} : (s.abandonNode t g i).memoryWf := by
  unfold State.abandonNode
  split
  · exact h
  · split
    · exact h
    · refine h.ite ((h.ite h.set.updRecord.countIn).ite (h.ite ?_))
      split
      · exact h
      · exact h.foldl fun _ _ hu => hu.killRaw

theorem State.memoryWf.settleGraph {t g} : (s.settleGraph t g).memoryWf := h.foldl fun _ _ hu => hu.abandonNode

theorem State.memoryWf.enqueueReady {t g} : (s.enqueueReady t g).memoryWf := by
  unfold State.enqueueReady
  split
  · exact h
  · refine h.ite (h.foldl fun _ _ hu => ?_)
    split
    · exact hu
    · exact hu.set.updRecord.ite hu

theorem State.memoryWf.refillReady : s.refillReady.memoryWf :=
  h.ite (h.foldl fun _ _ hu => hu.foldl fun _ _ hv => hv.enqueueReady)

theorem State.memoryWf.afterCount {t g} : (s.afterCount t g).memoryWf := by
  cases g with
  | none => exact h
  | some g => exact h.settleGraph.enqueueReady.refillReady

theorem State.memoryWf.endStrand {n state cause discard} : (s.endStrand n state cause discard).memoryWf :=
  h.endStrandTo.afterCount

theorem State.memoryWf.endTogether {l act} (ha : ∀ u n, State.memoryWf u → (act u n).memoryWf) :
    (s.endTogether l act).memoryWf := (h.foldl ha).foldl fun _ _ hu => hu.afterCount

theorem State.memoryWf.killComplete {n} : (s.killComplete n).memoryWf :=
  (h.setStrand.countStrand.afterCount.ite h.setStrand).ite h

theorem State.memoryWf.cancelItems {t id} : (s.cancelItems t id).memoryWf := by
  unfold State.cancelItems
  dsimp only
  split
  · exact h
  · split
    · exact (h.set.updRecord.completeRecord.ite h.set.updRecord).ite h
    · refine h.foldl fun _ _ hu => ?_
      split
      · exact hu
      · exact hu.ite hu.set.updRecord.countIn
    · exact h.updRecord.foldl fun _ _ hu => hu.countIn

theorem State.memoryWf.cancelRecord {t id} : (s.cancelRecord t id).memoryWf := by
  unfold State.cancelRecord
  split
  · exact h
  · exact h.ite ((h.updRecord.foldl fun _ _ hu => hu.killRaw).foldl fun _ _ hu => hu.cancelItems).refillReady

theorem State.memoryWf.cancelComplete {t id} : (s.cancelComplete t id).memoryWf := by
  unfold State.cancelComplete
  split
  · exact h.completeRecord.afterCount.ite h
  · exact h

theorem State.memoryWf.failLaunch {t id cause} : (s.failLaunch t id cause).memoryWf := h.updRecord.completeRecord

/-- A record taken for a launch. -/
theorem State.memoryWf.allocRecord {t level r id u} (e : s.allocRecord t level r = some (id, u)) : u.memoryWf := by
  unfold State.allocRecord at e
  split at e
  · cases e
  · cases e
    exact h.updRecord

/-! Fault queues (R197 to R203). -/

theorem State.memoryWf.sendMsix {e} : (s.sendMsix e).memoryWf := h.set.ite (h.ite h.set)

theorem State.memoryWf.fqNotify {t tail} : (s.fqNotify t tail).memoryWf := h.sendMsix.ite h

theorem State.memoryWf.fqEnter {t e room q u} (enters : s.fqEnter t e room = some (q, u)) : u.memoryWf := by
  unfold State.fqEnter at enters
  dsimp only at enters
  split at enters
  · cases enters
    exact h.updTenant
  · split at enters
    · cases enters
      exact h.updTenant
    · cases enters

theorem State.memoryWf.fqReport {t e who} : (s.fqReport t e who).2.memoryWf := by
  unfold State.fqReport
  split
  next enters => exact h.fqEnter enters
  next => exact h.updTenant

/-- A batch of entries, each reported in the state the one before it left. -/
theorem State.memoryWf.reported {α : Type} {f : List (BitVec 48) × State → α → List (BitVec 48) × State} {l : List α}
    {a : List (BitVec 48)} (hf : ∀ u m, State.memoryWf u.2 → (f u m).2.memoryWf) : (l.foldl f (a, s)).2.memoryWf := by
  suffices ∀ u : List (BitVec 48) × State, u.2.memoryWf → (l.foldl f u).2.memoryWf from this (a, s) h
  induction l with
  | nil => exact fun _ hu => hu
  | cons m l ih => exact fun u hu => ih _ (hf u m hu)

theorem State.memoryWf.reportPages {n l} : (s.reportPages n l).memoryWf :=
  (h.reported fun _ _ hu => hu.fqReport).fqNotify.updStrand

theorem State.memoryWf.reportOp {id o l} : (s.reportOp id o l).memoryWf :=
  (h.reported fun _ _ hu => hu.fqReport).fqNotify.updOp

theorem State.memoryWf.recordMiss {t e} : (s.recordMiss t e).memoryWf := h.ite h.fqReport.fqNotify

theorem State.memoryWf.recordPinned {o mask l} : (s.recordPinned o mask l).memoryWf := by
  unfold State.recordPinned
  split
  · exact h
  · exact h.recordMiss

theorem State.memoryWf.pinMiss {n m} : (s.pinMiss n m).memoryWf := h.recordMiss.endStrand

theorem State.memoryWf.applyVerdicts {n} : (s.applyVerdicts n).memoryWf := h.endStrand.ite h.updStrand

theorem State.memoryWf.updReady {id f} : (s.updReady id f).memoryWf := h.set
theorem State.memoryWf.updClose {id f} : (s.updClose id f).memoryWf := h.set
theorem State.memoryWf.updCommand {q k f} : (s.updCommand q k f).memoryWf := h.updQueue

theorem State.memoryWf.awaitSeq {seq who} : (s.awaitSeq seq who).memoryWf := by
  cases who with
  | record => exact h
  | strand n => exact h.updStrand
  | op id => exact h.set
  | command q k => exact h.updCommand
  | entry id => exact h.updReady
  | closing id => exact h.updClose

/-! Exceptions (R207 to R211). -/

theorem State.memoryWf.dropPoison {d x n} : (s.dropPoison d x n).memoryWf := by
  unfold State.dropPoison
  split
  · exact h.set
  · exact h.set
  · exact h

theorem State.memoryWf.consumePoison {n addr} : (s.consumePoison n addr).memoryWf := by
  refine h.ite ?_
  split
  · exact h.dropPoison
  · exact h

theorem State.memoryWf.raise {n cause pc addr} : (s.raise n cause pc addr).memoryWf :=
  .ite (h.consumePoison.updStrand.ite h.consumePoison.endStrand)
    (h.endStrand.ite (h.updStrand.ite (h.updStrand.ite (h.updStrand.ite h.updStrand))))

theorem State.memoryWf.stopped {mask e} : (s.stopped mask e).memoryWf := by
  cases e with
  | trap cause addr => exact h.raise
  | wait => exact h
  | entry => exact h.updCore
  | conflict => exact h.updCore
  | miss va level => exact h.reportPages
  | pinMiss va level => exact h.pinMiss

theorem Lands.finish {mask r} (hr : Yields State.memoryWf r) : Lands (finish s mask r) := by
  cases r with
  | ok t => exact .next (hr t rfl)
  | error e => exact .next h.stopped

omit h in
theorem State.memoryWf.firstDone {t n} (ht : State.memoryWf t) : (s.firstDone t n).memoryWf := ht.newRegion.ite ht

theorem State.memoryWf.heedStop {n} : (s.heedStop n).memoryWf := h.updStrand.ite h

omit h in
theorem State.memoryWf.issued {t n} (ht : State.memoryWf t) : (s.issued t n).memoryWf := (State.memoryWf.firstDone ht).heedStop

/-! Engine operations and their tags (R139 to R143). -/

theorem State.memoryWf.takeTag {n t} : (s.takeTag n t).memoryWf := h.set.updStrand

theorem State.memoryWf.completeTag {n t status} : (s.completeTag n t status).memoryWf := h.updStrand.ite h

theorem State.memoryWf.boardRetire {c op} : (s.boardRetire c op).memoryWf := h.updCore

theorem State.memoryWf.dropOp {id o} : (s.dropOp id o).memoryWf := by
  unfold State.dropOp
  dsimp only
  split
  · exact h.set.boardRetire.sweepRaces.abandonSeal
  · exact h.set.boardRetire.sweepRaces

theorem State.memoryWf.failOp {id o status} : (s.failOp id o status).memoryWf := h.completeTag.completeTag.dropOp

theorem State.memoryWf.doneOp {id o} : (s.doneOp id o).memoryWf := h.completeTag.dropOp

theorem State.memoryWf.tornOp {o} : (s.tornOp o).memoryWf := by
  unfold State.tornOp
  split
  · exact h.updSeal
  · exact h

theorem State.memoryWf.failOps {n code} : (s.failOps n code).memoryWf := h.foldl fun _ _ hu => hu.tornOp.failOp

end Sys2Proof.Machine
end

section
/-! The pages' actions and the queue engine keep the memories canonical. -/

namespace Sys2Proof.Machine

variable {s : State} (h : s.memoryWf)
include h

/-! Strands (R66). -/

theorem State.memoryWf.stopStrand {n} : (s.stopStrand n).memoryWf :=
  h.updStrand.ite (h.updStrand.ite (h.updStrand.ite h))

theorem State.memoryWf.stopComplete {n} : (s.stopComplete n).memoryWf := h.ite h.updStrand

theorem State.memoryWf.resumeStrand {n} : Yields State.memoryWf (s.resumeStrand n) :=
  .ite (.ite .error (.ite (.ite (.ok h.applyVerdicts) (.ok h.updStrand)) (.ok h.updStrand))) (.ite (.ok h) .error)

theorem State.memoryWf.stepStrand {n} : Yields State.memoryWf (s.stepStrand n) :=
  .ite (.ite (.ite (.ok (h.applyVerdicts.updStrand.ite h.applyVerdicts)) .error) (.ok h.updStrand)) .error

theorem State.memoryWf.killStore {n} : (s.killStore n).memoryWf := h.updStrand.ite h.killRaw

/-! Tenants (R73 to R75, R273, R284). -/

theorem State.memoryWf.latchDies {ds w} : (s.latchDies ds w).memoryWf := (h.foldl fun _ _ hu => hu.updDie).set

theorem State.memoryWf.tenantResult {t code} : (s.tenantResult t code).memoryWf := h.updTenant

theorem State.memoryWf.activate {t} : Yields State.memoryWf (s.activate t) := by
  refine .ite .error ?_
  split
  · exact .error
  · refine .ite (.ok h.tenantResult) (.ite (.ok h.updTenant) ?_)
    split
    · exact .ok h.tenantResult
    · exact .ok (h.set.updKey.updTenant.latchDies.updTenant)

theorem State.memoryWf.eraseKey {k} : (s.eraseKey k).memoryWf := (h.updTenant.ite h).set.updKey

theorem State.memoryWf.eraseBound {t} : (s.eraseBound t).memoryWf := h.foldl fun _ _ hu => hu.eraseKey

theorem State.memoryWf.cancelTenant {t} : (s.cancelTenant t).memoryWf :=
  (h.foldl fun _ _ hu => hu.cancelRecord).foldl fun _ _ hu => hu.foldl fun _ _ hv => hv.cancelComplete

theorem State.memoryWf.teardown {t} : Yields State.memoryWf (s.teardown t) := by
  refine .ite .error ?_
  split
  · exact .error
  · exact .ok (.updTenant (.ite h.cancelTenant.set.eraseBound.set
      (h.cancelTenant.set.eraseBound.set.foldl fun _ _ hu => hu.ite hu.updDie)))

theorem State.memoryWf.clearMeasured {a} : (s.clearMeasured a).memoryWf := h.set

theorem State.memoryWf.zeroFrame {f} : (s.zeroFrame f).memoryWf := by
  obtain ⟨mem, mtags, host, peer, ptags, cores⟩ := h
  exact ⟨canonical_filter _ _ mem, canonical_filter _ _ mtags, host, peer, ptags, cores⟩

theorem State.memoryWf.zeroSpad {c u} : (s.zeroSpad c u).memoryWf :=
  updCore_memoryWf _ _ _ h fun _ spad stags => ⟨canonical_filter _ _ spad, canonical_filter _ _ stags⟩

theorem State.memoryWf.scrubOne {t} : (s.scrubOne t).memoryWf := by
  unfold State.scrubOne
  split
  · refine State.memoryWf.updTenant ?_
    split
    · exact h.zeroFrame
    · exact h.zeroSpad
  · exact h

theorem State.memoryWf.scrubComplete {t} : (s.scrubComplete t).memoryWf :=
  h.ite ((h.foldl fun _ _ hu => hu.updCore).set.set.foldl fun _ _ hu => hu.updDie).updTenant

theorem State.memoryWf.measnow {t} : Yields State.memoryWf (s.measnow t) := by
  refine .ite .error ?_
  dsimp only
  split
  · exact .error
  · refine .ite .error ?_
    split
    · exact .error
    · exact .ok h.updTenant

theorem State.memoryWf.tsync {t page} : (s.tsync t page).memoryWf := by
  unfold State.tsync
  exact (h.updTenant.ite h).ite (h.updTenant.ite h).set

/-! Verdicts and held faults (R199 to R202). -/

theorem State.memoryWf.fqVerdict {t seq deny} : Yields State.memoryWf (s.fqVerdict t seq deny) := by
  refine .ite .error ?_
  split
  · exact .ok h
  · exact .ite (.ok h) (.ok (h.updTenant.set.set.set.dropSilent.set.foldl fun _ _ hu => hu.applyVerdicts.ite hu))

theorem State.memoryWf.heldWrite {t} : (s.heldWrite t).memoryWf := by
  unfold State.heldWrite
  dsimp only
  split
  · exact h
  · split
    next => exact h
    next enters => exact (h.fqEnter enters).updTenant.fqNotify.awaitSeq

/-! The queue engine (R97 to R103). -/

theorem State.memoryWf.hbmWrite {key a l} : (s.hbmWrite key a l).memoryWf := hbmWrite_memoryWf s key a l h

theorem State.memoryWf.mirrorStore {c v} : (s.mirrorStore c v).memoryWf := h.hbmWrite.ite h

theorem State.memoryWf.queueStop {q code} : (s.queueStop q code).memoryWf := h.updQueue

theorem State.memoryWf.queueOff {q} : (s.queueOff q).memoryWf := h.updQueue

theorem State.memoryWf.queueDisable {q} : (s.queueDisable q).memoryWf := h.updQueue.ite h.queueOff

theorem State.memoryWf.submitted {t id} : (s.submitted t id).memoryWf := h.updRecord

theorem State.memoryWf.consumeRecord {q c k} : (s.consumeRecord q c k).memoryWf :=
  h.set.updQueue.dropSilent.mirrorStore

theorem State.memoryWf.failRecord {q c r code} : (s.failRecord q c r code).memoryWf := by
  unfold State.failRecord
  dsimp only
  refine State.memoryWf.consumeRecord ?_
  split
  · exact (h.ite h.updQueue.updTenant).submitted.countIn
  · exact h.ite h.updQueue.updTenant

theorem State.memoryWf.loadNext {fuel q} : (State.loadNext fuel s q).memoryWf := by
  induction fuel generalizing s with
  | zero => exact h
  | succ fuel ih =>
    refine .ite h.queueOff ?_
    dsimp only
    split
    · exact h.queueStop
    · refine .ite h.updQueue.queueStop.updTenant (.ite h.updQueue.updQueue (.ite (ih ?_) (.ite ?_ ?_)))
      · exact h.updQueue.updQueue.failRecord
      · exact h.updQueue.updQueue.updQueue
      · exact h.updQueue.updQueue

theorem State.memoryWf.nextRecord {q} : (s.nextRecord q).memoryWf := h.loadNext

theorem State.memoryWf.refuseRecord {q code} : (s.refuseRecord q code).memoryWf := by
  unfold State.refuseRecord
  dsimp only
  split
  · exact h.failRecord.nextRecord
  · exact h

theorem State.memoryWf.parseRecord {q} : (s.parseRecord q).memoryWf := by
  unfold State.parseRecord
  split
  · exact h
  · exact .ite h.updQueue.refuseRecord h.updQueue

theorem State.memoryWf.readProducer {q} : (s.readProducer q).memoryWf := by
  unfold State.readProducer
  dsimp only
  split
  · exact h.queueStop
  · exact h.updQueue.queueStop.updTenant.ite (h.updQueue.updQueue.ite
      (h.updQueue.updQueue.updTenant.ite h.updQueue.updQueue.updQueue.nextRecord))

theorem State.memoryWf.queueEnable {q} : Yields State.memoryWf (s.queueEnable q) := by
  refine .ite (.ok h) ?_
  split
  · exact .error
  · exact .ite .error (.ok h.updQueue.mirrorStore)

theorem State.memoryWf.queueVerdict {q v} : Yields State.memoryWf (s.queueVerdict q v) :=
  .ite .error (.ok (h.updQueue.parseRecord.ite h.updQueue.refuseRecord))

/-! Chains (R244 to R249). -/

theorem State.memoryWf.zeroReplica {key base frames} : (s.zeroReplica key base frames).memoryWf := by
  obtain ⟨mem, mtags, host, peer, ptags, cores⟩ : (s.clearFrames base frames).memoryWf :=
    h.foldl fun _ _ hu => hu.clearMeasured
  exact ⟨canonical_filter _ _ mem, canonical_filter _ _ mtags, host, peer, ptags, cores⟩

theorem State.memoryWf.chainStart {c} : Yields State.memoryWf (s.chainStart c) :=
  .ite .error (.ok (h.foldl fun _ _ hu => hu.zeroReplica).updChain)

theorem State.memoryWf.chainRelease {c} : Yields State.memoryWf (s.chainRelease c) := .ite .error (.ok h.updChain)

theorem State.memoryWf.dropReplica {c d} : (s.dropReplica c d).memoryWf := dropReplica_memoryWf s c d h

theorem State.memoryWf.linkOp {c v} : Yields State.memoryWf (s.linkOp c v) := by
  unfold State.linkOp
  dsimp only
  split
  · exact .ite .error (.ok h.vineDrainAll.dropReplica.updChain)
  · exact .ite .error (.ok h.updChain)
  · exact .error

theorem State.memoryWf.chainJoin {c} : (s.chainJoin c).memoryWf := by
  unfold State.chainJoin
  dsimp only
  split
  · exact h
  · exact (State.memoryWf.foldl (hbmPut_memoryWf _ _ _ _ h.zeroReplica)
      fun _ _ hu => hbmSetTag_memoryWf _ _ _ _ hu).updChain

theorem State.memoryWf.loseWrite {c w} : (s.loseWrite c w).memoryWf := by
  unfold State.loseWrite
  have counted : (match w.strand with
      | some n => s.updStrand n fun x => { x with
          vaddr := if x.vineLost = 0#32 then w.va.setWidth 57 else x.vaddr
          vineChain := if x.vineLost = 0#32 then BitVec.ofNat 8 c else x.vineChain
          vineLost := satAdd x.vineLost 1 }
      | none => s).memoryWf := by
    split
    · exact h.updStrand
    · exact h
  dsimp only
  split
  · exact counted.set
  · exact counted

theorem State.memoryWf.chainLosesDie {c d n} : (s.chainLosesDie c d n).memoryWf :=
  h.ite ((h.updChain.ite h).ite
    ((State.memoryWf.dropReplica (keepApplied_memoryWf s c d _ h)).foldl fun _ _ hu => hu.loseWrite).updChain)

/-! Dies, islands, keys and the hub (R252, R261, R268 to R270, R290 to R293). -/

theorem State.memoryWf.dieFence {d f} : (s.dieFence d f).memoryWf := by
  refine h.ite (State.memoryWf.set ?_)
  refine State.memoryWf.foldl (State.memoryWf.foldl (State.memoryWf.mapCores (f := fun c x =>
    if dieOfCore c = d then x.haltEngine else x) ?_ ?_) ?_) fun _ _ hu => hu.chainLosesDie
  · exact h.updDie.endTogether fun _ _ hu => hu.failOps.endStrandTo
  · intro c x
    split
    · exact .inl ⟨rfl, rfl⟩
    · exact .inl ⟨rfl, rfl⟩
  · intro u n hu
    refine hu.ite ?_
    split
    · exact hu.endStrand.ite hu
    · exact hu.updStrand

theorem State.memoryWf.dieRestore {d} : Yields State.memoryWf (s.dieRestore d) := by
  unfold State.dieRestore
  split
  · exact .error
  · have emptied : { s with cores := mapTable s.cores fun c x => if dieOfCore c = d then Core.empty else x }.memoryWf := by
      refine h.mapCores fun c x => ?_
      split
      · exact .inr rfl
      · exact .inl ⟨rfl, rfl⟩
    dsimp only
    split
    · exact .ite (.ok emptied.set.updDie) (.ok emptied.set.updDie.set)
    · exact .ok emptied.set.updDie
  · exact .ok h

theorem State.memoryWf.fenceAny {d} : (s.fenceAny d).memoryWf := h.dieFence

theorem State.memoryWf.fenceStore {d v} : Yields State.memoryWf (s.fenceStore d v) := by
  unfold State.fenceStore
  split
  · exact .ok h.fenceAny
  · exact h.dieRestore
  · exact .error

theorem State.memoryWf.islandStore {d i v} : Yields State.memoryWf (s.islandStore d i v) := .ite .error (.ok h.updDie.set)

theorem State.memoryWf.keyLoad {k} : Yields State.memoryWf (s.keyLoad k) := by
  refine .ite .error (.ite (.ok h.updKey) ?_)
  split
  · exact .ok h.updKey
  · exact .ok h.set.updKey

theorem State.memoryWf.keyZeroise {k} : Yields State.memoryWf (s.keyZeroise k) := by
  refine .ite .error ?_
  split
  · exact .ok h
  · exact .ok h
  · exact .ite .error (.ok h.updKey)
  · exact .ok h.updKey
  · exact .ok h.updKey

theorem State.memoryWf.keyZeroiseComplete {k} : (s.keyZeroiseComplete k).memoryWf := h.eraseKey.ite h

theorem State.memoryWf.modesStore {v} : Yields State.memoryWf (s.modesStore v) := .ite .error (.ok (h.set.set.ite h.set))

theorem State.memoryWf.winStore {w v} : Yields State.memoryWf (s.winStore w v) := .ok h.set

end Sys2Proof.Machine
end

section
/-! Control accesses, loads, stores and atomics keep the memories canonical. -/

namespace Sys2Proof.Machine

variable {s : State} (h : s.memoryWf)
include h

/-! The control pages (R52, R54, R60). -/

theorem State.memoryWf.strandLoad {n off} : Yields (fun p => p.2.memoryWf) (s.strandLoad n off) :=
  .ite (.ok h) (.ite (.ok h) (.ite .error (.ok (h.updStrand.ite h))))

theorem State.memoryWf.ctlStore {self n v} : Yields State.memoryWf (s.ctlStore self n v) := by
  unfold State.ctlStore
  split
  · exact .ok (h.stopStrand.updStrand.ite h.stopStrand)
  · exact .ite (.ok h) h.resumeStrand
  · exact .ite .error h.stepStrand
  · exact .ok h.killStore
  · exact .error

theorem State.memoryWf.strandStore {who n off v} : Yields State.memoryWf (s.strandStore who n off v) := by
  refine .ite h.ctlStore (.ite .error (.ite (.ite .error (.ite .error (.ite (.ite (.ok h.updStrand) .error)
    (.ite (.ite (.ok h.updStrand) .error) ?_)))) .error))
  split
  · exact .ok h.setStrand
  · exact .error

theorem State.memoryWf.tenantPageStore {who t off v} : Yields State.memoryWf (s.tenantPageStore who t off v) := by
  refine .ite .error ?_
  split
  · exact .ite h.activate .error
  · exact .ite h.teardown .error
  · exact .ite h.measnow .error
  · split
    · exact .ok h.updTenant
    · exact .error

theorem State.memoryWf.diePageStore {d off v} : Yields State.memoryWf (s.diePageStore d off v) :=
  .ite h.fenceStore (.ite h.islandStore .error)

theorem State.memoryWf.routeStore {i v} : Yields State.memoryWf (s.routeStore i v) := .ite .error (.ok h.set)

theorem State.memoryWf.hubStore {off v} : Yields State.memoryWf (s.hubStore off v) := by
  unfold State.hubStore
  split
  · exact .ite (.ok h.set) .error
  · exact h.routeStore
  · exact h.routeStore
  · exact h.modesStore
  · exact .ite (.ok h.set) .error
  · exact .ite h.winStore .error

theorem State.memoryWf.queuePageStore {q off v} : Yields State.memoryWf (s.queuePageStore q off v) := by
  unfold State.queuePageStore
  split
  · exact .ite h.queueEnable (.ite (.ok h.queueDisable) .error)
  · exact .ite h.queueVerdict .error
  · exact .ite (.ite .error (.ok h.updQueue)) .error

theorem State.memoryWf.counterStore {t off v} : Yields State.memoryWf (s.counterStore t off v) := by
  unfold State.counterStore
  split
  · exact .ite (.ok h.cancelRecord) .error
  · exact .error

theorem State.memoryWf.tsyncStore {t v} : Yields State.memoryWf (s.tsyncStore t v) :=
  .ite .error (.ite (.ite (.ok h.tsync) .error) (.ok h.tsync))

theorem State.memoryWf.replayStore {t v} : Yields State.memoryWf (s.replayStore t v) := by
  refine .ite .error ?_
  split
  next verdict => exact .ok (h.fqVerdict _ verdict).updTenant
  next => exact .error

theorem State.memoryWf.faultStore {t off v} : Yields State.memoryWf (s.faultStore t off v) := by
  unfold State.faultStore
  dsimp only
  split
  · exact .ite (.ok h.updTenant) .error
  · exact h.replayStore
  · exact h.tsyncStore
  · exact .error

theorem State.memoryWf.chainStore {c off v} : Yields State.memoryWf (s.chainStore c off v) := by
  unfold State.chainStore
  dsimp only
  split
  · exact .ite (.ok h.updChain) .error
  · exact .ite (.ok h.updChain) .error
  · exact .ite (.ok h.updChain) .error
  · split
    · exact h.chainStart
    · exact h.chainRelease
    · exact .error
  · exact .ite (.ok h.updChain) .error
  · exact .ite (.ok h.updChain) .error
  · exact .ite (.ok h.updChain) .error
  · exact .ite h.linkOp .error
  · exact .ite (.ite (.ok h.updChain) .error) .error

theorem State.memoryWf.keyStore {k off v} : Yields State.memoryWf (s.keyStore k off v) := by
  refine .ite .error ?_
  split
  · split
    · exact h.keyLoad
    · exact h.keyZeroise
    · exact .error
  · exact .ite (.ok h.updKey) .error
  · exact .ite (.ok h.updKey) .error

theorem State.memoryWf.controlLoad {pa} : Yields (fun p => p.2.memoryWf) (s.controlLoad pa) := by
  unfold State.controlLoad
  split
  · exact .error
  · split
    case h_6 => exact h.strandLoad
    all_goals exact .ok h

theorem State.memoryWf.controlStore {who pa v} : Yields State.memoryWf (s.controlStore who pa v) := by
  unfold State.controlStore
  split
  · exact .error
  · split
    · exact .ite .error (.ok h.set)
    · exact h.diePageStore
    · exact h.hubStore
    · exact h.tenantPageStore
    · exact h.queuePageStore
    · exact h.strandStore
    · exact h.counterStore
    · exact h.faultStore
    · exact h.chainStore
    · exact h.keyStore
    · exact .error

/-! Reading and writing a target (R174 to R184). -/

theorem State.memoryWf.bindSpad : s.bindSpad.memoryWf := h.ite h.updMe

theorem State.memoryWf.remoteLost {n va} : (s.remoteLost n va).memoryWf := h.updStrand

theorem State.memoryWf.settleTarget {n x} : (s.settleTarget n x).memoryWf := settleTarget_memoryWf s n x h

theorem State.memoryWf.writeTarget {n va x l tag op} : (s.writeTarget n va x l tag op).memoryWf :=
  writeTarget_memoryWf s n va x l tag op h

theorem State.memoryWf.raceCheck {n r pa len write atomic op} :
    Yields State.memoryWf (s.raceCheck n r pa len write atomic op) := .ite .error (.ite .error (.ok h.set))

theorem State.memoryWf.raceTarget {n r va x len write atomic op} :
    Yields State.memoryWf (s.raceTarget n r va x len write atomic op) := by
  unfold State.raceTarget
  split
  · split
    next checked => exact .ok (h.raceCheck _ checked)
    next => exact .error
  · exact .ok h

theorem State.memoryWf.bytesAt {va x len write atomic} :
    Yields (fun p => p.2.memoryWf) (s.bytesAt va x len write atomic) :=
  h.settleTarget.raceTarget.bind fun _ hu => .after fun _ => .ok hu

theorem State.memoryWf.readBytesAt {va x len write atomic} :
    Yields (fun p => p.2.memoryWf) (s.readBytesAt va x len write atomic) := .after fun _ => h.bytesAt

theorem State.memoryWf.readAt {va x len} : Yields (fun p => p.2.memoryWf) (s.readAt va x len) :=
  h.readBytesAt.bind fun _ hu => .ok hu

theorem State.memoryWf.writeAt {va x len v} : Yields State.memoryWf (s.writeAt va x len v) :=
  .after fun _ => h.raceTarget.bind fun _ hu => .ok hu.writeTarget

theorem State.memoryWf.fillCellar {d l} : (s.fillCellar d l).memoryWf := h.ite h.updDie

theorem State.memoryWf.allocate {va x n} : (s.allocate va x n).memoryWf := by
  unfold State.allocate
  dsimp only
  split
  · exact h.fillCellar.ite h
  · exact h

/-! Control words met by an instruction (R59 to R61). -/

theorem State.memoryWf.sendRequest {r} : (s.sendRequest r).memoryWf := h.set.updMe

theorem State.memoryWf.controlRead {va pa} : Yields (fun p => p.2.memoryWf) (s.controlRead va pa) := by
  refine .after fun _ => ?_
  split
  next loaded => exact .ok (State.memoryWf.newRegion (h.controlLoad _ loaded))
  next => exact .error

theorem State.memoryWf.afterControl {pa} : (s.afterControl pa).memoryWf :=
  h.dropCheckpoint.updMe.ite (h.ite (h.dropCheckpoint.await.ite h.dropCheckpoint.newRegion.retire.updMe))

theorem State.memoryWf.controlWrite {va pa v} : Yields State.memoryWf (s.controlWrite va pa v) := by
  refine .after fun _ => .after fun _ => .after fun _ => ?_
  split
  next stored => exact .ok (h.controlStore _ stored).afterControl
  next => exact .error

theorem State.memoryWf.peerStore {va pa gen v} : Yields State.memoryWf (s.peerStore va pa gen v) :=
  .after fun _ => .after fun _ => .ite (.ok h.remoteLost.dropCheckpoint.newRegion.retire)
    (.ite (.ok h.set.dropCheckpoint.set.await) (.ok h.set.dropCheckpoint.newRegion.retire))

/-! Loads and stores (R329, R330). -/

theorem State.memoryWf.load {signed w acq scope rd rb imm} :
    Yields State.memoryWf (s.load signed w acq scope rd rb imm) := by
  refine .after fun x => ?_
  split
  · exact h.controlRead.bind fun _ hu => .ok hu.result
  · exact .ok h.sendRequest
  · exact .ite (.ok h.newRegion.result) (h.readAt.bind fun _ hu => .ok hu.sync.result)
  · exact h.readAt.bind fun _ hu => .ok hu.allocate.sync.result

theorem State.memoryWf.store {w rel scope rs rb imm} : Yields State.memoryWf (s.store w rel scope rs rb imm) := by
  refine .after fun x => ?_
  have plain {va x len v scope} : Yields State.memoryWf (s.awaitRelease rel scope >>= fun _ =>
      s.writeAt va x len v >>= fun u => .ok ((if rel then u.dropCheckpoint.newRegion u.cur else u).retire)) :=
    .after fun _ => h.writeAt.bind fun _ hu => .ok (hu.dropCheckpoint.newRegion.ite hu).retire
  cases x with
  | control pa => exact h.controlWrite
  | remote pa gen => exact .ite h.peerStore plain
  | spad c lane a => exact plain
  | hbm pa key raced => exact plain
  | window w off => exact plain
  | vine c off key => exact plain

/-! Atomics (R300 to R302). -/

theorem State.memoryWf.rmwAt {va x len f} : Yields (fun p => p.2.memoryWf) (s.rmwAt va x len f) := by
  have drained : (match x with
      | .vine c _ _ => s.vineDrainAll c
      | _ => s).memoryWf := by
    split
    · exact h.vineDrainAll
    · exact h
  refine drained.bytesAt.bind fun p hp => .after fun v => ?_
  cases v with
  | none => exact .ok hp
  | some v =>
    dsimp only
    split
    · exact .ok (State.memoryWf.writePeer hp)
    · exact .ok (State.memoryWf.vineDrainAll (State.memoryWf.writeTarget hp))
    · exact .ok (State.memoryWf.writeTarget hp)

theorem State.memoryWf.rmw {va x len f} : Yields (fun p => p.2.memoryWf) (s.rmw va x len f) := .after fun _ => h.rmwAt

theorem State.memoryWf.atomic {op w order scope rd rb a b} :
    Yields State.memoryWf (s.atomic op w order scope rd rb a b) := by
  refine .after fun _ => .after fun x => ?_
  split
  · exact .after fun _ => .after fun _ => .ok h.sendRequest
  · exact .after fun _ => .after fun _ => h.rmw.bind fun _ hu => .ok hu.dropCheckpoint.sync.result

theorem State.memoryWf.lostAtomic {op w order scope rb a b} : (s.lostAtomic op w order scope rb a b).memoryWf := by
  refine h.ite ?_
  split
  · exact h.writePeer.ite h
  · exact h

theorem Lands.atomicOp {op w order scope rd rb rc rx} : Lands (s.atomicOp op w order scope rd rb rc rx) := by
  unfold State.atomicOp
  dsimp only
  split
  · exact Lands.finish (h.bindSpad.lostAtomic.ite h.bindSpad) .error
  · exact Lands.finish h.bindSpad h.bindSpad.atomic

/-! Strips and flow words (R105, R341). -/

theorem State.memoryWf.granted {sew rd rp pos g} : (s.granted sew rd rp pos g).memoryWf := h.updMe.setS.setS.retire

theorem State.memoryWf.windowAtomic {e va x} : Yields State.memoryWf (s.windowAtomic e va x) := by
  unfold State.windowAtomic
  split
  · split
    · exact .ok (h.set.ite h)
    · exact .error
    · exact .error
  · exact .ok h

/-- What a window's atomic leaves when it fails. -/
theorem State.memoryWf.windowAtomic_error {e va x c u} (failed : s.windowAtomic e va x = .error (c, u)) : u.memoryWf := by
  unfold State.windowAtomic at failed
  split at failed
  · split at failed
    · cases failed
    · cases failed
      exact h.set
    · cases failed
      exact h
  · cases failed

theorem State.memoryWf.flowAnswer {va x} : Yields State.memoryWf (s.flowAnswer va x) := by
  unfold State.flowAnswer
  split
  next answered => exact .ok (h.windowAtomic _ answered)
  next => exact .error

theorem Lands.finishFlow {va scope r} (hr : Yields State.memoryWf r) : Lands (finishFlow s va scope r) := by
  unfold Machine.finishFlow
  dsimp only
  split
  · exact Lands.finish (h.set.ite h) .error
  · exact Lands.finish h hr

theorem State.memoryWf.setvlf {sew rd rb rc rp scope} : Yields State.memoryWf (s.setvlf sew rd rb rc rp scope) :=
  .after fun _ => .after fun _ => .after fun _ => h.flowAnswer.bind fun _ hu => hu.rmw.bind fun _ hv =>
    .ok hv.sync.granted

end Sys2Proof.Machine
end

section
/-! The vector unit, maintenance, seals and chains as instructions keep the memories canonical. -/

namespace Sys2Proof.Machine

variable {s : State} (h : s.memoryWf)
include h

/-! Barriers and launches (R87, R88, R221). -/

theorem State.memoryWf.barFire {b k} : (s.barFire b k).memoryWf := h.dropCheckpoint.updMe.newRegion.retire.ite h

theorem State.memoryWf.launchNode {rd nd} : Yields State.memoryWf (s.launchNode rd nd) := by
  unfold State.launchNode
  dsimp only
  split
  · exact .ok h.dropCheckpoint.result
  next id u alloc =>
    have taken := h.allocRecord alloc
    have counted {t : Nat} {g : Option (BitVec 32)} {f : Record → Record} : (match g with
        | some p => u.updRecord t (recordKey p) f
        | none => u).memoryWf := by
      cases g with
      | none => exact taken
      | some p => exact taken.updRecord
    exact .after fun _ => .after fun _ => .ok ((counted.failLaunch.ite counted.set).dropCheckpoint.newRegion.result)

/-! Maintenance (R206, R335). -/

theorem State.memoryWf.dropLines {t own scope a len} : (s.dropLines t own scope a len).memoryWf := by
  refine h.mapCores fun c x => .inl ?_
  dsimp only
  split
  · exact ⟨rfl, rfl⟩
  · exact ⟨rfl, rfl⟩

theorem State.memoryWf.dropCellar {d l} : (s.dropCellar d l).memoryWf := h.updDie

theorem State.memoryWf.discardLines {ds l} : (s.discardLines ds l).memoryWf := (h.foldl fun _ _ hu => hu.dropCellar).set

theorem State.memoryWf.cellarPage {flush ds a len p} : Yields State.memoryWf (s.cellarPage flush ds a len p) := by
  refine .after fun page => ?_
  split
  · exact .ok h
  · exact .after fun _ => .ok h.discardLines

theorem State.memoryWf.prefCellar {a len p} : Yields State.memoryWf (s.prefCellar a len p) := by
  refine .after fun page => ?_
  split
  · exact .ite (.ok h) (.ok h.fillCellar)
  · exact .ok h

theorem State.memoryWf.cacheLine {c t line bits} : (s.cacheLine c t line bits).memoryWf := h.updCore

theorem State.memoryWf.prefCode {a len p} : Yields State.memoryWf (s.prefCode a len p) := by
  refine .after fun page => ?_
  split
  · exact .ite (.ok h) (.ok (h.settleTarget.foldl fun _ _ hu => hu.ite hu.cacheLine))
  · exact .ok h

theorem State.memoryWf.pagesDone {act : State → Nat → Except Stop State} {l}
    (ha : ∀ u p, State.memoryWf u → Yields State.memoryWf (act u p)) : (State.pagesDone act s l).1.memoryWf := by
  induction l generalizing s with
  | nil => exact h
  | cons p l ih =>
    unfold State.pagesDone
    split
    next done => exact ih (ha s p h _ done)
    next => exact h

omit h in
theorem Lands.finishPages {r : State × Except Stop Unit} (hr : r.1.memoryWf) : Lands (finishPages r) := by
  obtain ⟨u, e | e⟩ := r
  · exact Lands.finish hr .error
  · exact .next (State.memoryWf.retire hr)

theorem Lands.cellarOp {flush a len scope} : Lands (s.cellarOp flush a len scope) :=
  .ite (.finishPages (h.pagesDone fun _ _ hu => hu.cellarPage)) (Lands.finish h .error)

/-! Chains and seals (R248 to R253, R277 to R281). -/

theorem State.memoryWf.chlink {op rd rb rc base} : Yields State.memoryWf (s.chlink op rd rb rc base) := by
  refine .after fun _ => .after fun _ => .after fun _ => .after fun tgt => ?_
  dsimp only
  split
  · refine .after fun _ => .after fun _ => .after fun _ => ?_
    split
    · exact .error
    next linked => exact .ok (State.memoryWf.afterControl (State.memoryWf.setS (h.linkOp _ linked)))
  · exact h.peerStore.bind fun _ hu => .ok hu.setS
  · exact .error

theorem State.memoryWf.sealDone : s.sealDone.memoryWf := h.dropCheckpoint.newRegion

theorem State.memoryWf.sealDropped {va pa gen} : (s.sealDropped va pa gen).memoryWf := h.remoteLost.ite h

theorem State.memoryWf.absorbOp {m src len tag} : (s.absorbOp m src len tag).memoryWf := h.set.set

theorem State.memoryWf.sealClosed {m rd npc} : (s.sealClosed m rd npc).memoryWf :=
  h.sealFinish.newRegion.dropCheckpoint.setS.updMe

theorem State.memoryWf.peerSealClosed {pa rd npc} : (s.peerSealClosed pa rd npc).memoryWf :=
  h.newRegion.dropCheckpoint.setS.updMe

/-! The vector unit (R21, R22, R196). -/

theorem State.memoryWf.vectorEnd {vd srcs err} : (s.vectorEnd vd srcs err).memoryWf := by
  cases err with
  | none => exact h.updMe.retire
  | some e => exact h.updMe.raise

theorem State.memoryWf.wholeOr {srcs es done} (hd : State.memoryWf done) : (s.wholeOr srcs es done).memoryWf := by
  unfold State.wholeOr
  split
  · exact hd
  · exact h.updMe.raise

theorem State.memoryWf.elementwise {k vd w tag srcs} {f : Nat → Lane w} :
    (s.elementwise k vd w tag srcs f).memoryWf := State.memoryWf.vectorEnd (h.ite h.updMe)

theorem State.memoryWf.intoMask {k kd srcs f} : (s.intoMask k kd srcs f).memoryWf := h.updMe.vectorEnd

theorem State.memoryWf.writeElems {w : Nat} {vd} {l : List (Nat × BitVec w)} : (s.writeElems vd l).memoryWf := h.updMe

theorem State.memoryWf.noteError {err missed stop srcs} : (s.noteError err missed stop srcs).memoryWf := h.updMe.ite h

theorem State.memoryWf.memEnd {vd mask es missed stop f} (hf : ∀ u : State, u.memoryWf → (f u).memoryWf) :
    (s.memEnd vd mask es missed stop f).memoryWf := by
  unfold State.memEnd
  split
  · exact (hf _ h.updMe).retire
  · exact h.updMe.stopped
  · exact h.updMe.reportPages

theorem State.memoryWf.putLoaded {vd w got tagOf} : (s.putLoaded vd w got tagOf).memoryWf := h.updMe

theorem State.memoryWf.allocateElems {hint l} : (s.allocateElems hint l).memoryWf := by
  refine h.ite (h.foldl fun _ _ hu => ?_)
  split
  · exact hu.foldl fun _ _ hv => hv.allocate
  · exact hu

theorem loadParts_memoryWf {e l} : Yields (fun p => p.2.memoryWf) (loadParts e l s) := by
  induction l generalizing s with
  | nil => exact .ok h
  | cons p l ih => exact h.bytesAt.bind fun _ hu => .after fun _ => (ih hu).bind fun _ hv => .ok hv

theorem loadElem_memoryWf {e ps} : Yields (fun p => p.2.memoryWf) (loadElem s e ps) :=
  (loadParts_memoryWf h).bind fun _ hu => .ok hu

theorem storeParts_memoryWf {low tag l bytes} : Yields State.memoryWf (storeParts low tag l bytes s) := by
  induction l generalizing s bytes with
  | nil => exact .ok h
  | cons p l ih => exact h.raceTarget.bind fun _ hu => ih hu.writeTarget

theorem sweep_memoryWf {act l} (ha : ∀ u e ps, State.memoryWf u → Yields (fun p => p.2.memoryWf) (act u e ps)) :
    (sweep act l s).state.memoryWf := by
  induction l generalizing s with
  | nil => exact h
  | cons p l ih =>
    unfold sweep
    split
    · split
      next done => exact ih (ha s _ _ h _ done)
      next => exact h
    · exact ih h
    · exact h
    · exact ih h.updMe
    · exact ih h

theorem State.memoryWf.vectorLoad {vd k srcs unit indexed hint addr} :
    Yields State.memoryWf (s.vectorLoad vd k srcs unit indexed hint addr) := by
  refine .after fun _ => .ok (State.memoryWf.memEnd (State.memoryWf.noteError (State.memoryWf.putLoaded
    (State.memoryWf.allocateElems (sweep_memoryWf h ?_)))) fun _ hu => hu)
  exact fun _ _ _ hu => loadElem_memoryWf hu

theorem State.memoryWf.vectorStore {vs k srcs indexed addr} :
    Yields State.memoryWf (s.vectorStore vs k srcs indexed addr) := by
  refine .after fun _ => .ok (State.memoryWf.memEnd (State.memoryWf.noteError (sweep_memoryWf h ?_)) fun _ hu => hu)
  exact fun _ _ _ hu => (storeParts_memoryWf hu).bind fun _ hv => .ok hv

theorem Lands.vectorMem {mask f} (hf : ∀ u : State, u.memoryWf → Yields State.memoryWf (f u)) :
    Lands (s.vectorMem mask f) := Lands.finish h.bindSpad (.after fun _ => hf _ h.bindSpad)

theorem lateElems_memoryWf {l} : (lateElems l s).2.2.memoryWf := by
  induction l generalizing s with
  | nil => exact h
  | cons p l ih =>
    unfold lateElems
    split
    · split
      · exact h
      · split
        next loaded => exact ih (loadElem_memoryWf h _ loaded)
        next => exact h
    · exact h

theorem amoSweep_memoryWf {op n x c l} : (amoSweep op n x c l s).state.memoryWf := by
  induction l generalizing s with
  | nil => exact h
  | cons p l ih =>
    unfold amoSweep
    dsimp only
    split
    · split
      · exact h
      · split
        next failed => exact h.windowAtomic_error failed
        next answered =>
          split
          next => exact h.windowAtomic _ answered
          next done => exact ih (State.memoryWf.rmwAt (h.windowAtomic _ answered) _ done)
    · exact ih h
    · exact h
    · exact ih h.updMe
    · exact ih h
    · exact ih h

theorem Lands.maskGroup {kd f} : Lands (s.maskGroup kd f) := Lands.finish h (.after fun _ => .ok h.updMe.retire)

theorem Lands.maskScalar {rd v} : Lands (s.maskScalar rd v) :=
  Lands.finish h (.after fun _ => .ok h.setS.updMe.retire)

theorem Lands.floatwise {vd vb vc p k f} : Lands (s.floatwise vd vb vc p k f) :=
  Lands.finish h (.after fun _ => .ok h.elementwise)

theorem Lands.floatUnary {vd vb k f} : Lands (s.floatUnary vd vb k f) :=
  Lands.finish h (.after fun _ => .ok h.elementwise)

theorem Lands.lanewise {vd vb vc p k f} : Lands (s.lanewise vd vb vc p k f) :=
  Lands.finish h (.after fun _ => .ok h.elementwise)

end Sys2Proof.Machine
end

section
/-! The matrix, copy, collective and reduction engines keep the memories canonical. -/

namespace Sys2Proof.Machine

variable {s : State} (h : s.memoryWf)
include h

/-! The matrix engine (R148 to R167). -/

theorem State.memoryWf.boardAdd {c n op write l} : (s.boardAdd c n op write l).memoryWf := by
  unfold State.boardAdd
  split
  · exact h
  · exact h.updCore

theorem State.memoryWf.matrixDone : s.matrixDone.memoryWf := h.updMe.dropCheckpoint.retire

theorem State.memoryWf.unlessStopped {r} (hr : Yields State.memoryWf r) : Yields State.memoryWf (s.unlessStopped r) :=
  .ite (.ok h.updMe.dropCheckpoint.retire) hr

theorem State.memoryWf.releaseEngine : s.releaseEngine.memoryWf := h.updEngine.ite h

theorem State.memoryWf.grantShape {mode sparse rd g} : (s.grantShape mode sparse rd g).memoryWf :=
  h.updEngine.updMe.setS.matrixDone

theorem State.memoryWf.mshape {mode sparse rd m n k} : Yields State.memoryWf (s.mshape mode sparse rd m n k) :=
  .after fun _ => .ite (.ok h.releaseEngine.updMe.setS.matrixDone) (.after fun _ => .after fun _ =>
    .ite (.ok h.grantShape) (.ite (.ok h.updEngine.grantShape) (.ite .error (.ok h.updEngine))))

theorem State.memoryWf.mldw {cls space sparse base stride vm} :
    Yields State.memoryWf (s.mldw cls space sparse base stride vm) := by
  refine .after fun _ => .after fun _ => .after fun _ => .after fun _ =>
    .ite (.after fun _ => .after fun plan => ?_) (.after fun plan => ?_)
  all_goals
    cases plan with
    | report l => exact .ok h.reportPages
    | read srcs =>
      exact .after fun _ => .afterEither fun _ => .ok (State.memoryWf.matrixDone (State.memoryWf.updEngine
        (h.fresh.boardAdd.ite h.fresh)))

theorem State.memoryWf.readWeights {n region cls i w} :
    Yields (fun p => p.2.memoryWf) (s.readWeights n region cls i w) := by
  fun_cases State.readWeights
  case case8 u raced ends _ _ _ _ _ _ _ _ _ _ _ _ =>
    exact .ite (.ok (State.memoryWf.raceTarget (State.memoryWf.settleTarget h) u raced)) .error
  case case10 u raced ends _ _ _ =>
    exact .ite (.ok (State.memoryWf.raceTarget (State.memoryWf.settleTarget h) u raced)) .error
  all_goals exact .error

theorem readAllWeights_memoryWf {n region cls i l acc} : (readAllWeights n region cls i l s acc).2.1.memoryWf := by
  induction l generalizing s i acc with
  | nil => exact h
  | cons w l ih =>
    unfold readAllWeights
    split
    next => exact h
    next read => exact ih (h.readWeights _ read)

theorem State.memoryWf.stopMatrix {c pc row lost} : (s.stopMatrix c pc row lost).memoryWf := by
  unfold State.stopMatrix
  split
  · exact h
  · exact h.updStrand.updCore.updEngine

theorem State.memoryWf.mldwDone {c} : (s.mldwDone c).memoryWf := by
  unfold State.mldwDone
  dsimp only
  split
  · exact h
  next n holder =>
    refine h.ite ?_
    have read := readAllWeights_memoryWf h (n := n) (region := (s.core c).engine.shadow.region)
      (cls := (s.core c).engine.shadow.cls.toNat) (i := (s.core c).engine.shadow.first)
      (l := (s.core c).engine.shadow.srcs) (acc := (s.core c).engine.shadow.blocks)
    split
    next => exact h
    next blocks u weights =>
      rw [weights] at read
      exact read.boardRetire.sweepRaces.updEngine
    next blocks u i cause va weights =>
      rw [weights] at read
      exact read.boardRetire.sweepRaces.updEngine.updStrand.stopMatrix.ite
        read.boardRetire.sweepRaces.updEngine.updStrand.updEngine

theorem State.memoryWf.enqueue {kind sa base stride write l} : (s.enqueue kind sa base stride write l).memoryWf :=
  State.memoryWf.matrixDone (State.memoryWf.updEngine h.fresh.boardAdd)

theorem State.memoryWf.mswap : Yields State.memoryWf s.mswap :=
  .after fun _ => .after fun _ => .after fun _ => .after fun _ => .ok h.enqueue

theorem State.memoryWf.mmac {zero sa base stride} : Yields State.memoryWf (s.mmac zero sa base stride) :=
  .after fun _ => .after fun _ => .after fun _ => .after fun _ => .ok h.enqueue

theorem State.memoryWf.mzero {base count} : Yields State.memoryWf (s.mzero base count) :=
  .ite (.ok h.matrixDone) (.after fun _ => .after fun _ => .ok h.enqueue)

theorem State.memoryWf.mld {fmt sa base stride} : Yields State.memoryWf (s.mld fmt sa base stride) :=
  .after fun _ => .after fun _ => .after fun _ => .after fun _ => .after fun _ => .ok h.enqueue

theorem State.memoryWf.mst {fmt sa base stride} : Yields State.memoryWf (s.mst fmt sa base stride) :=
  .after fun _ => .after fun _ => .after fun _ => .ok h.enqueue

theorem State.memoryWf.matRow {c n op m u} (row : s.matRow c n op m = some u) : u.memoryWf := by
  unfold State.matRow at row
  split at row
  · cases row
  · dsimp only at row
    split at row
    · cases row
      exact h
    · cases row
      exact h
    · cases row
      exact h.updEngine
    · split at row
      · cases row
      · cases row
        exact h.updEngine.updStrand.ite h.updEngine
    · split at row
      · cases row
      · cases row
        exact h.updEngine
    · cases row
      have stored {packs : List (Nat × Packed)} {addr : Nat} : (packs.foldl (fun s p =>
          (s.spadWrite c false (addr + 64 * p.1) (bytesOf 64 p.2.block.toNat)).spadSetTag c false
            (addr + 64 * p.1) p.2.tag) s).memoryWf :=
        h.foldl fun _ _ hu => spadSetTag_memoryWf _ _ _ _ _ (spadWrite_memoryWf _ _ _ _ _ hu)
      exact stored.updStrand.ite stored

theorem matRows_memoryWf {c n op fuel m} : (matRows c n op fuel m s).1.memoryWf := by
  induction fuel generalizing s m with
  | zero => exact h
  | succ fuel ih =>
    unfold matRows
    split
    next => exact h
    next row => exact ih (h.matRow row)

theorem State.memoryWf.upsetDone {c op} : (s.upsetDone c op).memoryWf := by
  unfold State.upsetDone
  split
  · exact h.updEngine
  all_goals exact h

theorem State.memoryWf.stopRow {c n op m rest} : (s.stopRow c n op m rest).memoryWf :=
  State.memoryWf.stopMatrix (h.upsetDone.updStrand.ite h.upsetDone)

theorem State.memoryWf.matrixComplete {c} : (s.matrixComplete c).memoryWf := by
  unfold State.matrixComplete
  split
  next n op rest _ _ =>
    split
    · exact h.ite h.updEngine
    · refine h.ite ?_
      have rows := matRows_memoryWf h (c := c) (n := n) (op := op) (fuel := op.rows - op.start) (m := op.start)
      split
      next u m done =>
        rw [done] at rows
        exact rows.stopRow
      next u done =>
        rw [done] at rows
        refine State.memoryWf.updEngine (State.memoryWf.boardRetire ?_)
        split
        · exact rows.updEngine
        · exact rows.upsetDone
  next => exact h

theorem State.memoryWf.matrixError {c row} : (s.matrixError c row).memoryWf := by
  unfold State.matrixError
  split
  next n op rest _ _ =>
    refine h.ite ?_
    have rows := matRows_memoryWf h (c := c) (n := n) (op := op) (fuel := row - op.start) (m := op.start)
    split
    next u m done =>
      rw [done] at rows
      exact rows.stopRow
    next u done =>
      rw [done] at rows
      exact rows.upsetDone.stopMatrix
  next => exact h

theorem State.memoryWf.mrd {vd base k} : (s.mrd vd base k).memoryWf :=
  State.memoryWf.matrixDone (State.memoryWf.updMe (h.ite h.updMe))

theorem State.memoryWf.mwr {base vc p k} : (s.mwr base vc p k).memoryWf := by
  unfold State.mwr
  dsimp only
  split
  · exact h.updMe.matrixDone
  · exact h.updMe.raise.ite h.updEngine.updMe.matrixDone

theorem State.memoryWf.mchk {rd} : Yields State.memoryWf (s.mchk rd) :=
  .after fun _ => .after fun _ => .ok h.updMe.setS.retire

/-! Issue of copies, collectives and reductions (R135 to R140, R238 to R240, R243). -/

theorem State.memoryWf.boardEnds {id reads writes} : Yields State.memoryWf (s.boardEnds id reads writes) :=
  .afterEither fun _ => .afterEither fun _ => .ok h.boardAdd.boardAdd

theorem State.memoryWf.startOp {id kind scope rtag atag} : (s.startOp id kind scope rtag atag).memoryWf := h.set

theorem State.memoryWf.bindEnds {dsp ssp} : (s.bindEnds dsp ssp).memoryWf := h.ite h.updMe

theorem State.memoryWf.copy {split scope dsp ssp ra rb rc rtag atag} :
    Yields State.memoryWf (s.copy split scope dsp ssp ra rb rc rtag atag) := by
  refine .after fun _ => .after fun _ => .after fun _ => .after fun _ => .after fun _ => .ite ?_ ?_
  · exact .ok h.takeTag.takeTag.completeTag.completeTag.retire
  · exact h.fresh.boardEnds.bind fun _ hu => .ok hu.takeTag.takeTag.startOp.retire

theorem State.memoryWf.readWords {va n} : Yields (fun p => p.2.memoryWf) (s.readWords va n) := by
  induction n generalizing s va with
  | zero => exact .ok h
  | succ n ih => exact .after fun _ => h.bytesAt.bind fun _ hu => .after fun _ => (ih hu).bind fun _ hv => .ok hv

theorem State.memoryWf.coll {op fmt scope dsp ssp ra rb rc rtag atag} :
    Yields State.memoryWf (s.coll op fmt scope dsp ssp ra rb rc rtag atag) := by
  refine .after fun _ => .after fun _ => h.readWords.bind fun head hh => State.memoryWf.readWords hh |>.bind fun body hb => ?_
  refine .after fun _ => .after fun _ => .after fun _ => .after fun _ => .after fun _ => .after fun _ => .after fun _ => ?_
  refine .bindEither (.ok (State.memoryWf.fresh hb)) (State.memoryWf.boardEnds (State.memoryWf.fresh hb))
    fun u hu => .ok ?_
  exact (hu.takeTag.takeTag.updGroup.updMe.completeTag.completeTag.ite
    hu.takeTag.takeTag.updGroup.updMe.startOp).dropCheckpoint.retire

theorem State.memoryWf.rred {fmt scope rb vc rd tag p k} :
    Yields State.memoryWf (s.rred fmt scope rb vc rd tag p k) := by
  refine .after fun _ => .after fun _ => .after fun _ => .after fun _ => .after fun _ => .after fun _ => .after fun _ => ?_
  exact .ok (h.set.takeTag.completeTag.ite h.set.takeTag.startOp).dropCheckpoint.retire

/-! The engines' own work (R136, R139, R241 to R243). -/

theorem State.memoryWf.readEnds {id o l} : (s.readEnds id o l).2.2.memoryWf := by
  induction l generalizing s with
  | nil => exact h
  | cons p l ih =>
    unfold State.readEnds
    dsimp only
    split
    next => exact ih h.settleTarget
    next => exact ih h.settleTarget
    next raced =>
      have read := h.settleTarget.raceTarget _ raced
      split
      · exact ih read
      · split
        · exact ih read
        · exact ih read

theorem State.memoryWf.raceEnds {id o l} : (s.raceEnds id o l).2.memoryWf := by
  induction l generalizing s with
  | nil => exact h
  | cons p l ih =>
    unfold State.raceEnds
    split
    next => exact ih h
    next raced => exact ih (h.raceTarget _ raced)

theorem State.memoryWf.releaseOp {id o l tags} : (s.releaseOp id o l tags).memoryWf :=
  h.completeTag.updOp.updCore.sweepRaces

theorem State.memoryWf.sourceRead {id o l} : (s.sourceRead id o l).memoryWf := by
  unfold State.sourceRead
  dsimp only
  split
  · exact h.releaseOp
  · refine h.updGroup.failOp.ite ?_
    split
    · exact h.updGroup.failOp
    · exact h.updGroup.releaseOp
  · exact h.updSeal.doneOp
  · exact h

theorem State.memoryWf.readsWindow {id src} : (s.readsWindow id src).memoryWf := h.updOp.ite h

/-- The pages an engine has to report come first (R139). -/
theorem State.memoryWf.reportOr {id o t} {l : List PageMiss} (ht : State.memoryWf t) : (match l with
    | m :: l => s.reportOp id o (m :: l)
    | [] => t).memoryWf := by
  cases l with
  | nil => exact ht
  | cons m l => exact h.reportOp

theorem State.memoryWf.readSource {id o} : (s.readSource id o).memoryWf := by
  refine h.ite (h.failOp.ite (h.ite (h.reportOr ?_)))
  split
  next reads =>
    have read := congrArg (fun r : List (Byte × Tag) × List (Word × ByteFate) × State => r.2.2) reads ▸ h.readEnds
    split
    · exact h.recordPinned.recordPinned.tornOp.failOp
    · exact read.readsWindow.sourceRead

theorem State.memoryWf.copyRelease {id} : (s.copyRelease id).memoryWf := by
  unfold State.copyRelease
  split
  · exact h
  · exact h.ite (h.failOp.ite h.readSource)

theorem State.memoryWf.absorbDone {id} : (s.absorbDone id).memoryWf := by
  unfold State.absorbDone
  split
  · exact h
  · split
    · exact h.tornOp.failOp.ite (h.ite h.readSource)
    · exact h

theorem State.memoryWf.opWrite {id o va x l tag} : (s.opWrite id o va x l tag).memoryWf := by
  unfold State.opWrite
  split
  · exact (State.memoryWf.writePeerTagged (remoteDrain_memoryWf s h))
  · exact .ite (State.memoryWf.updOp (vineSend_memoryWf s _ _ _ _ _ _ _ h)) (vineSend_memoryWf s _ _ _ _ _ _ _ h)
  · exact h.writeTarget

theorem State.memoryWf.settleOp {id} : (s.settleOp id).memoryWf := by
  unfold State.settleOp
  split
  · exact h
  · exact h.ite (h.failOp.ite h.doneOp)

theorem State.memoryWf.writeEnds {id o l} : (s.writeEnds id o l).memoryWf := h.foldl fun _ _ hu => hu.opWrite

theorem State.memoryWf.writeDest {id o} : (s.writeDest id o).memoryWf := by
  refine h.ite (h.ite (h.reportOr ?_))
  split
  · exact h.recordPinned.failOp
  · exact h.raceEnds.writeEnds.updOp.settleOp

theorem State.memoryWf.copyArrival {id} : (s.copyArrival id).memoryWf := by
  unfold State.copyArrival
  split
  · exact h
  · exact h.ite (h.failOp.ite (h.settleOp.ite h.writeDest))

theorem State.memoryWf.failColl {key seq status} : (s.failColl key seq status).memoryWf :=
  h.foldl fun _ _ hu => hu.failOp

theorem State.memoryWf.collDeliver {key seq} : (s.collDeliver key seq).memoryWf := by
  unfold State.collDeliver
  dsimp only
  split
  · exact h
  · exact h.ite (h.updGroup.failColl.ite (h.ite h.updGroup.set))

theorem State.memoryWf.collLost {key} : (s.collLost key).memoryWf := (h.foldl fun _ _ hu => hu.failColl).updGroup

theorem State.memoryWf.rredEnd {id elem failed} : (s.rredEnd id elem failed).memoryWf := by
  unfold State.rredEnd
  dsimp only
  split
  · split
    · exact h.updOp.failOp
    · exact h.updOp
  · exact h.updOp

theorem State.memoryWf.rredAdd {id elem} : (s.rredAdd id elem).memoryWf := by
  unfold State.rredAdd
  split
  · exact h
  · split
    · refine h.failOp.ite (h.ite (h.failOp.ite ?_))
      dsimp only
      split
      · exact h
      · exact h.reportOp
      · exact h.recordPinned.rredEnd
      · exact h.rredEnd
      next x _ =>
        have settled {n : Nat} : (match x with
            | .vine c _ _ => s.vineDrainAll c
            | x => s.settleTarget n x).memoryWf := by
          split
          · exact h.vineDrainAll
          · exact h.settleTarget
        split
        next => exact settled.rredEnd
        next => exact settled
        next raced =>
          have read := settled.raceTarget _ raced
          refine read.rredEnd.ite (read.rredEnd.ite (State.memoryWf.rredEnd ?_))
          split
          · exact read.opWrite.vineDrainAll
          · exact read.opWrite
    · exact h

end Sys2Proof.Machine
end

section
/-! Queues, the dispatcher, the host, the boot, peers and power keep the memories canonical. -/

namespace Sys2Proof.Machine

/-- A store that made a state, or a parsed record, has its memories canonical. -/
def Stored.Keeps : Stored → Prop
  | .done s | .reported _ s | .failed _ s => s.memoryWf
  | .later => True

def Parse.Keeps : Parse → Prop
  | .accept s _ => s.memoryWf
  | .refuse _ | .hold | .later => True

/-- A state that may be there has its memories canonical. -/
def Offers (o : Option State) : Prop := ∀ u, o = some u → u.memoryWf

theorem Offers.some {s : State} (h : s.memoryWf) : Offers (some s) := fun _ e => Option.some.inj e ▸ h

theorem Offers.none : Offers none := fun _ => nofun

theorem Offers.ite {c : Prop} {_ : Decidable c} {a b : Option State} (ha : Offers a) (hb : Offers b) :
    Offers (if c then a else b) := by
  split
  · exact ha
  · exact hb

theorem Offers.getD {o : Option State} {s : State} (ho : Offers o) (h : s.memoryWf) : (o.getD s).memoryWf := by
  cases o with
  | none => exact h
  | some u => exact ho u rfl

theorem Offers.findSome {α : Type} {f : α → Option State} {l : List α} (hf : ∀ a, Offers (f a)) :
    Offers (l.findSome? f) := fun _ e =>
  have ⟨_, _, found⟩ := List.exists_of_findSome?_eq_some e
  hf _ _ found

/-- An access of another package is answered, or refused with the cause of its span. -/
theorem Offers.served {o : Option Nat} {refuse : Nat → State} {act : State} (hr : ∀ c, (refuse c).memoryWf) (ha : act.memoryWf) :
    Offers (Option.some (match o with
      | Option.some c => refuse c
      | Option.none => act)) := by
  cases o with
  | none => exact .some ha
  | some c => exact .some (hr c)

variable {s : State} (h : s.memoryWf)
include h

/-! Stores of the device into a tenant's memory (R105, R106, R198). -/

theorem State.memoryWf.storeFor {t va f who} : (s.storeFor t va f who).Keeps := by
  unfold State.storeFor
  split
  · exact h.engineUpdate
  · trivial
  · trivial
  · trivial
  · exact h
  · exact h.recordMiss
  · exact h.fqReport.fqNotify

theorem State.memoryWf.flowClose {id} : (s.flowClose id).memoryWf := by
  unfold State.flowClose
  dsimp only
  split
  · exact h
  next e _ =>
    have stored := h.storeFor (t := e.tenant) (va := e.va) (f := closedWord) (who := .closing id)
    split
    next made => exact State.memoryWf.set (made ▸ stored : (Stored.done _).Keeps)
    next made => exact State.memoryWf.set (made ▸ stored : (Stored.failed _ _).Keeps)
    next => exact h
    next made => exact State.memoryWf.updClose (made ▸ stored : (Stored.reported _ _).Keeps)

/-! Commands (R97 to R106). -/

theorem State.memoryWf.runCommand {q op parse} (hp : ∀ t c r, (parse t c r : Parse).Keeps) :
    (s.runCommand q op parse).memoryWf := by
  unfold State.runCommand
  split
  · exact h
  next c r _ =>
    refine .ite h.failRecord.nextRecord ?_
    have parsed := hp (shadowWord c 1).toNat c r
    split
    next => exact h.failRecord.nextRecord
    next => exact .ite h.queueOff h.updQueue
    next => exact h
    next accepted => exact (State.memoryWf.consumeRecord (accepted ▸ parsed : (Parse.accept _ _).Keeps)).nextRecord

theorem State.memoryWf.commandOver {q c} : (s.commandOver q c).memoryWf := (h.updRecord.ite h).updQueue

theorem State.memoryWf.signalStore {q c} : (s.signalStore q c).memoryWf := by
  unfold State.signalStore
  have stored := h.storeFor (t := c.tenant) (va := c.address) (f := fun _ => c.value) (who := .command q c.serial)
  dsimp only
  split
  next made => exact (State.memoryWf.updCommand (made ▸ stored : (Stored.done _).Keeps)).dropSilent
  next made => exact (State.memoryWf.updCommand (made ▸ stored : (Stored.failed _ _).Keeps)).dropSilent
  next => exact h
  next made => exact State.memoryWf.updCommand (made ▸ stored : (Stored.reported _ _).Keeps)

theorem State.memoryWf.completionWord {q index} {c : Command} :
    (match s.storeFor c.tenant c.cpl (fun _ => c.word) (.command q index) with
      | .done s | .failed _ s => s.commandOver q c
      | .later => s
      | .reported w s => s.updCommand q index fun c => { c with waits := w }).memoryWf := by
  have stored := h.storeFor (t := c.tenant) (va := c.cpl) (f := fun _ => c.word) (who := .command q index)
  split
  next made => exact State.memoryWf.commandOver (made ▸ stored : (Stored.done _).Keeps)
  next made => exact State.memoryWf.commandOver (made ▸ stored : (Stored.failed _ _).Keeps)
  next => exact h
  next made => exact State.memoryWf.updCommand (made ▸ stored : (Stored.reported _ _).Keeps)

theorem State.memoryWf.parseAgain {q} : (s.parseAgain q).memoryWf := h.nextRecord.ite h

/-! The dispatcher and residency (R79, R92 to R96). -/

theorem State.memoryWf.createStrands {t id nd pool base} : (s.createStrands t id nd pool base).memoryWf :=
  (h.foldl fun _ _ hu => hu.setStrand).set.updRecord

theorem State.memoryWf.openFlow {e} : (s.openFlow e).Keeps := by
  unfold State.openFlow
  split
  · split
    · exact h
    · exact h.storeFor
  · exact h

theorem State.memoryWf.noteCreated {t e id} : (s.noteCreated t e id).memoryWf := by
  unfold State.noteCreated
  split
  · exact h.updRecord
  · exact h

theorem State.memoryWf.entryRecord {e id u} (entry : s.entryRecord e = some (id, u)) : u.memoryWf := by
  unfold State.entryRecord at entry
  split at entry
  · cases entry
    exact h
  · exact h.allocRecord entry

theorem State.memoryWf.takeEntry {e id} : (s.takeEntry e id).memoryWf := h.set.noteCreated

/-- An entry's record taken and acted on. -/
theorem State.memoryWf.onEntry {e} {act : State → BitVec 32 → State} (ha : ∀ u id, State.memoryWf u → (act u id).memoryWf) :
    Offers ((s.entryRecord e).map fun r => (act (r.2.takeEntry e r.1) r.1).refillReady) := by
  intro u taken
  obtain ⟨r, entry, rfl⟩ := Option.map_eq_some_iff.1 taken
  exact (ha _ _ (h.entryRecord entry).takeEntry).refillReady

theorem State.memoryWf.launchEntry {e act} (ha : ∀ u id, State.memoryWf u → (act u id).memoryWf) :
    Offers (s.launchEntry e act) := by
  unfold State.launchEntry
  have flow := h.openFlow (e := e)
  split
  next made => exact State.memoryWf.onEntry (made ▸ flow : (Stored.done _).Keeps) ha
  next made => exact State.memoryWf.onEntry (made ▸ flow : (Stored.failed _ _).Keeps) ha
  next => exact .none
  next made => exact .some (State.memoryWf.updReady (made ▸ flow : (Stored.reported _ _).Keeps))

theorem State.memoryWf.createEntry {e} : Offers (s.createEntry e) := by
  refine .ite .none ?_
  split
  · exact .none
  · exact h.launchEntry fun _ _ hu => hu.failLaunch.afterCount
  · split
    · exact .none
    · refine h.launchEntry fun _ _ hu => ?_
      dsimp only
      split
      · exact hu.createStrands.enqueueReady
      · exact hu.createStrands

theorem State.memoryWf.makeRoom {fuel c n k u} (room : State.makeRoom fuel s c n = some (k, u)) : u.memoryWf := by
  fun_induction State.makeRoom fuel s c n with
  | case1 =>
    cases room
    exact h
  | case2 => cases room
  | case3 => cases room
  | case4 _ _ _ _ _ _ _ ih => exact ih h.updStrand room

theorem State.memoryWf.takeRoom {n c} : Offers (s.takeRoom n c) := by
  unfold State.takeRoom
  split
  next => exact .none
  next room => exact .some (h.makeRoom room).updStrand

theorem State.memoryWf.seated {n c} : (s.seated n c).memoryWf := h.updCore.ite h

theorem State.memoryWf.seat {n c} : Offers (s.seat n c) := by
  unfold State.seat
  dsimp only
  split
  · exact .none
  · have room {b : Bool} : Offers (if (s.strand n).seated || b then some (s.updStrand n fun x => { x with vres := b })
        else s.takeRoom n c) := .ite (.some h.updStrand) h.takeRoom
    split
    next => exact .none
    next taken => exact .some (State.memoryWf.updStrand (room _ taken)).seated

theorem State.memoryWf.unseat {n} : (s.unseat n).memoryWf := h.updStrand

theorem State.memoryWf.preempt {core v w} : Offers (s.preempt core v w) := h.unseat.seat

/-! The host (R61, R62, R224 to R231, R288). -/

theorem State.memoryWf.takeRequest {n r u} (taken : s.takeRequest n = some (r, u)) : u.memoryWf := by
  unfold State.takeRequest at taken
  split at taken
  · cases taken
  · cases taken
    exact h.set

theorem State.memoryWf.requestDone {r v} : (s.requestDone r v).memoryWf :=
  h.ite (State.memoryWf.issued ((h.newRegion.ite h).updStrand.updStrand))

theorem State.memoryWf.requestFails {r cause} : (s.requestFails r cause).memoryWf := h.ite h.updStrand.raise

theorem State.memoryWf.hostAtomic {r op} : (s.hostAtomic r op).2.memoryWf := h.writeHost.ite h

theorem State.memoryWf.setRoute {w v} : (s.setRoute w v).memoryWf := h.set

theorem State.memoryWf.requestLost {r i} : (s.requestLost r i).memoryWf := by
  unfold State.requestLost
  split
  · exact (h.ite h.hostAtomic).requestFails
  · exact h.requestFails

theorem State.memoryWf.hostRefused : s.hostRefused.memoryWf := h.set
theorem State.memoryWf.hostQueued {a} : (s.hostQueued a).memoryWf := h.set
theorem State.memoryWf.hostAnswers {l} : (s.hostAnswers l).memoryWf := h.set
theorem State.memoryWf.hostOnes {n} : (s.hostOnes n).memoryWf := h.hostRefused.hostAnswers

theorem State.memoryWf.hostControl {offset size data} : Offers (s.hostControl offset size data) := by
  unfold State.hostControl
  dsimp only
  split
  · refine .ite (.some h.hostRefused) (.ite .none (.some ?_))
    split
    next stored => exact h.controlStore _ stored
    next => exact h.hostRefused
  · refine .ite (.some h.hostOnes) (.ite .none (.some ?_))
    split
    next loaded => exact State.memoryWf.hostAnswers (h.controlLoad _ loaded)
    next => exact h.hostOnes

theorem State.memoryWf.hostBytes {offset size data} : (s.hostBytes offset size data).memoryWf := by
  unfold State.hostBytes
  dsimp only
  split
  · exact h.hostOnes.ite h.hostAnswers
  · exact h.hostRefused.ite h.hbmWrite

theorem State.memoryWf.hostPerform {a} : Offers (s.hostPerform a) := by
  cases a with
  | control offset size data => exact h.hostControl
  | memory offset size data => exact .some h.hostBytes

theorem State.memoryWf.hostAccess {a} : (s.hostAccess a).memoryWf := by
  refine h.ite ?_
  have performed : Offers (if s.hostQueue.isEmpty then s.hostPerform a else none) := .ite h.hostPerform .none
  split
  next done => exact performed _ done
  next => exact h.hostQueued

theorem State.memoryWf.hostNext : s.hostNext.memoryWf := by
  unfold State.hostNext
  split
  · exact h
  · exact (State.memoryWf.hostPerform h.set).getD h

theorem State.memoryWf.hostBar4 {word data} : (s.hostBar4 word data).memoryWf := by
  refine h.ite ?_
  split
  · exact h.set.ite h
  · exact h.hostAnswers

theorem State.memoryWf.hostBar {i base} : (s.hostBar i base).memoryWf := h.set.ite h

theorem State.memoryWf.hostDevCtl2 {v} : (s.hostDevCtl2 v).memoryWf := h.set.ite h

theorem State.memoryWf.failRequests : s.failRequests.memoryWf := h.set.foldl fun _ _ hu => hu.requestLost

/-! Reset and boot (R231 to R234, R287). -/

theorem State.memoryWf.resetPackage : s.resetPackage.memoryWf := by
  obtain ⟨mem, mtags, host, peer, ptags, _⟩ := h
  exact ⟨mem, mtags, host, peer, ptags, List.forall_mem_nil _⟩

theorem State.memoryWf.applyReset : s.applyReset.memoryWf := h.resetPackage.set

theorem State.memoryWf.bootWork : s.bootWork.memoryWf := by
  unfold State.bootWork
  split
  · exact h.set
  · exact h.applyReset.set
  · exact h.set
  · exact h.set
  · exact h.set
  · exact h.set
  · exact h

/-! Peers (R236 to R238). -/

theorem State.memoryWf.loseRemote {p} : (s.loseRemote p).memoryWf :=
  h.foldl fun _ _ hu => hu.set.ite hu.set.remoteLost

theorem State.memoryWf.losePeerActs {p} : (s.losePeerActs p).memoryWf := by
  refine State.memoryWf.set (h.foldl fun u e hu => ?_)
  split
  · exact hu.remoteLost.ite hu
  · exact hu.remoteLost.ite hu
  all_goals exact hu

theorem State.memoryWf.setPeer {p x} : (s.setPeer p x).memoryWf := h.set
theorem State.memoryWf.losePeerGroups {p} : (s.losePeerGroups p).memoryWf := h.set
theorem State.memoryWf.remotePerform {id} : (s.remotePerform id).memoryWf := h.remoteReach.set
theorem State.memoryWf.answerPeer {a} : (s.answerPeer a).memoryWf := h.set

theorem State.memoryWf.serveAtomic {op len pa operand expected} : (s.serveAtomic op len pa operand expected).memoryWf :=
  (h.hbmWrite.ite h).answerPeer

theorem State.memoryWf.serve {request} : Offers (s.serve request) := by
  cases request with
  | read pa len copy => exact .served (fun _ => h.answerPeer) h.answerPeer
  | write pa bytes tags =>
    exact .served (fun _ => h.answerPeer)
      (State.memoryWf.foldl h.hbmWrite fun _ _ hu => hbmSetTag_memoryWf _ _ _ _ hu).answerPeer
  | atomic op wide pa operand expected =>
    exact .ite (.some h.answerPeer) (.served (fun _ => h.answerPeer) h.serveAtomic)
  | controlLoad pa =>
    refine .ite .none (.some ?_)
    split
    next loaded => exact State.memoryWf.answerPeer (h.controlLoad _ loaded)
    next => exact h.answerPeer
  | controlStore pa value =>
    refine .ite .none (.some ?_)
    split
    next stored => exact .ite (State.memoryWf.set (h.controlStore _ stored)) (State.memoryWf.answerPeer (h.controlStore _ stored))
    next => exact h.answerPeer

theorem State.memoryWf.serveDone {pa} : (s.serveDone pa).memoryWf := (State.memoryWf.answerPeer h.set).ite h

/-! Power, heat and telemetry (R290 to R293). -/

theorem State.memoryWf.updIsland {d i f} : (s.updIsland d i f).memoryWf := h.updDie
theorem State.memoryWf.heat {d t} : (s.heat d t).memoryWf := (h.updDie.ite (h.set.ite h.set)).set
theorem State.memoryWf.frequency {d i mhz} : (s.frequency d i mhz).memoryWf := h.updIsland.ite h
theorem State.memoryWf.telemetry : s.telemetry.memoryWf := h.sendMsix.ite h
theorem State.memoryWf.dieFails {d} : (s.dieFails d).memoryWf := h.ite (h.fenceAny.ite h.sendMsix)

/-! A control store of an agent (R54, R56). -/

theorem State.memoryWf.storedBy {n pa} : (s.storedBy n pa).memoryWf :=
  h.ite (h.updStrand.updStrand.ite h.updStrand.newRegion)

theorem State.memoryWf.agentAct {who pa v act} (ha : Yields State.memoryWf (act s)) :
    (s.agentAct who pa v act).memoryWf := by
  cases who with
  | host =>
    refine h.ite (h.hostRefused.ite (h.hostQueued.ite ?_))
    split
    next acted => exact ha _ acted
    next => exact h.hostRefused
  | strand n =>
    refine h.ite ?_
    split
    next acted => exact State.memoryWf.storedBy (ha _ acted)
    next => exact h

theorem State.memoryWf.agentStore {who pa v} : (s.agentStore who pa v).memoryWf :=
  .ite (h.agentAct .error) (h.agentAct h.controlStore)

end Sys2Proof.Machine
end

section
/-! What each instruction and event does keeps the memories canonical. Instructions of one shape share a lemma. -/

namespace Sys2Proof.Machine

variable {s : State} (h : s.memoryWf)
include h

/-! Control flow and flow words. -/

theorem State.memoryWf.retireTo {t} : (s.retireTo t).memoryWf := h.updMe
theorem State.memoryWf.completed : s.completed.memoryWf := h.updMe
theorem State.memoryWf.orFlags {g} : (s.orFlags g).memoryWf := h.updMe
theorem State.memoryWf.floatResult {rd z} : (s.floatResult rd z).memoryWf := h.orFlags.setS.retire

theorem Lands.result {rd v} : Lands (.next (s.result rd v)) := .next h.result

theorem Lands.jump {t} : Lands (Machine.finish s 0#3 (s.jumpTo t)) := Lands.finish h (.after fun _ => .ok h.retireTo)

theorem Lands.fence {order scope} : Lands (execFence order scope s) :=
  Lands.finish h (.after fun _ => .after fun _ => .ok (h.dropCheckpoint.ite h).newRegion.retire)

theorem Lands.setvlf {sew rd rb rc rp hint scope} : Lands (execSetvlf sew rd rb rc rp hint scope s) :=
  .ite (.next h.granted) (.finishFlow h h.setvlf)

theorem Lands.setsr {num rb} : Lands (execSetsr num rb s) := by
  refine Lands.finish h ?_
  split
  · exact .ok (State.memoryWf.retire h.updMe)
  · exact .error

theorem Lands.exit : Lands (execExit s) := by
  refine .ite (.next h) ?_
  dsimp only
  split
  · exact .next h.updMe.endStrand
  · exact .next h.updMe.endStrand

theorem Lands.bar {n} : Lands (execBar n s) := by
  unfold execBar
  dsimp only
  split
  · exact .ite (.next h.barFire) (Lands.finish h (.after fun _ => .ok h.newRegion.updMe.barFire))
  · exact Lands.finish h (.after fun _ => .ok h.newRegion.updMe.barFire)

theorem Lands.launch {rd rb} : Lands (execLaunch rd rb s) :=
  Lands.finish h (.after fun _ => .after fun _ => h.readBytesAt.bind fun _ hu => .after fun _ => .after fun _ =>
    State.memoryWf.launchNode hu)

theorem Lands.cwait {rd rb scope} : Lands (execCwait rd rb scope s) := by
  refine Lands.finish h ?_
  have done {v} : Yields State.memoryWf (.ok ((s.newRegion s.cur).result rd v) : Except Stop State) := .ok h.newRegion.result
  split
  · exact .error
  · exact .ite done (.ite .error (.ite done (.ite done .error)))

theorem Lands.cancel {rb} : Lands (execCancel rb s) := by
  refine Lands.finish h ?_
  split
  · exact .error
  · refine .ite (.ok h.dropCheckpoint.retire) (.ite (.ok (State.memoryWf.updMe h.cancelRecord.dropCheckpoint)) ?_)
    dsimp only
    split
    · exact .ok (.ite h.cancelRecord.dropCheckpoint.await h.cancelRecord.dropCheckpoint.retire)
    · exact .ok h.cancelRecord.dropCheckpoint.retire

theorem Lands.fpub {rb rc scope} : Lands (execFpub rb rc scope s) :=
  .finishFlow h (.after fun _ => .after fun _ => .after fun _ => .after fun _ => .after fun _ =>
    h.flowAnswer.bind fun _ hu => hu.rmw.bind fun _ hv => .ok (State.memoryWf.dropCheckpoint hv).newRegion.retire)

theorem Lands.claim : Lands (execClaim s) :=
  Lands.finish h (.after fun _ => .ite (.ok h.retire) (.ok (State.memoryWf.retire h.updMe)))

theorem Lands.tret : Lands (execTret s) := Lands.finish h (.after fun _ => .after fun _ => .ok h.updMe)

theorem Lands.twait {rd tag} : Lands (execTwait rd tag s) :=
  Lands.finish h (.after fun _ => .ok (State.memoryWf.result (State.memoryWf.newRegion h.updMe)))

theorem Lands.twany {rd rb} : Lands (execTwany rd rb s) := Lands.finish h (.after fun _ => .ok h.newRegion.result)

theorem Lands.tfirst {rd rb} : Lands (execTfirst rd rb s) :=
  Lands.finish h (.after fun _ => .ok (State.memoryWf.result (State.memoryWf.newRegion h.updMe)))

theorem Lands.tsync {rb rc} : Lands (execTsync rb rc s) :=
  Lands.finish h (.after fun _ => .after fun _ => .after fun _ => .after fun _ => .ok h.newRegion.tsync.retire)

theorem Lands.icinv {rb rc scope} : Lands (execIcinv rb rc scope s) :=
  Lands.finish h (.after fun _ => .after fun _ => .ok (h.newRegion.ite h.newRegion.dropLines).retire)

theorem Lands.pref {rb rc target} : Lands (execPref rb rc target s) :=
  .ite (.finishPages (h.pagesDone fun _ _ hu => .ite hu.prefCode hu.prefCellar)) (Lands.finish h .error)

theorem Lands.chquery {rd rb} : Lands (execChquery rd rb s) := by
  refine Lands.finish h (.after fun x => ?_)
  split
  · exact .ok h.result
  · exact .error

theorem Lands.chsync {rd} : Lands (execChsync rd s) :=
  Lands.finish h (.after fun _ => .ok (State.memoryWf.result (State.memoryWf.dropCheckpoint h.updMe)))

theorem Lands.sealOpen {rd rb rc hint} : Lands (execSealOpen rd rb rc hint s) := by
  refine Lands.finish h (.after fun place => ?_)
  cases place with
  | there pa gen => exact .after fun _ => .ok h.sealDropped.sealDone.result
  | here m =>
    exact .after fun _ => .after fun _ => .after fun _ =>
      .ok (State.memoryWf.result (State.memoryWf.sealDone (State.memoryWf.updSeal h.set)))

theorem Lands.sealAbsorb {rb rc rl tag hint} : Lands (execSealAbsorb rb rc rl tag hint s) := by
  refine Lands.finish h (.after fun place => ?_)
  cases place with
  | there pa gen =>
    exact .after fun _ => .after fun _ => .ok (h.sealDropped.takeTag.updMe.ite h.sealDropped.takeTag.absorbOp).sealDone.retire
  | here m =>
    exact .after fun _ => .after fun _ => .after fun _ =>
      .ok (h.takeTag.updMe.ite h.takeTag.absorbOp.updSeal).sealDone.retire

theorem Lands.sealClose {rd rb hint} : Lands (execSealClose rd rb hint s) := by
  refine Lands.finish h (.after fun place => ?_)
  cases place with
  | there pa gen => exact .ite (.ok h.remoteLost.sealDone.result) (.ok (State.memoryWf.updMe h.set))
  | here m => exact .after fun _ => .ok (h.updSeal.updMe.ite h.updSeal.sealClosed)

/-! Loads, stores and the vector unit. -/

theorem Lands.scalarLoad {mask signed w acq scope rd rb imm} :
    Lands (Machine.finish s.bindSpad mask (s.bindSpad.load signed w acq scope rd rb imm)) := Lands.finish h.bindSpad h.bindSpad.load

theorem Lands.scalarStore {mask w rel scope rs rb imm} :
    Lands (Machine.finish s.bindSpad mask (s.bindSpad.store w rel scope rs rb imm)) := Lands.finish h.bindSpad h.bindSpad.store

/-- The elements after the first, read where the first met nothing (R366). -/
theorem lateElems_memoryWf_ite {c : Prop} {_ : Decidable c} {l got cut} :
    (if c then (got, cut, s) else lateElems l s).2.2.memoryWf := by
  split
  · exact h
  · exact lateElems_memoryWf h

theorem Lands.vldff {vd rb k hint} : Lands (execVldff vd rb k hint s) := by
  refine Lands.vectorMem h fun u hu => .after fun _ => ?_
  have first {l} : (sweep loadElem l u).state.memoryWf := sweep_memoryWf hu fun _ _ _ hv => loadElem_memoryWf hv
  have read {c : Prop} {_ : Decidable c} {l m got cut vd w es f hint fates} :
      (((if c then (got, cut, (sweep loadElem l u).state) else lateElems m (sweep loadElem l u).state).2.2.putLoaded
        vd w es f).allocateElems hint fates).memoryWf :=
    State.memoryWf.allocateElems (State.memoryWf.putLoaded (lateElems_memoryWf_ite first))
  dsimp only
  split
  · exact .ok (State.memoryWf.memEnd (State.memoryWf.noteError (read.ite read.updMe)) fun _ hv => hv)
  · exact .ok (State.memoryWf.memEnd (State.memoryWf.noteError read) fun _ hv => hv)

theorem Lands.vamo {op w order scope vd rb vc vi p k hint} : Lands (execVamo op w order scope vd rb vc vi p k hint s) := by
  unfold execVamo
  refine Lands.vectorMem h fun u hu => ?_
  refine .after fun _ => .after fun _ => .after fun _ => .after fun _ => .after fun _ => .ok ?_
  have swept {op n x c l} : (amoSweep op n x c l u).state.memoryWf := amoSweep_memoryWf hu
  exact State.memoryWf.memEnd (State.memoryWf.noteError swept.putLoaded) fun _ hv => hv.dropCheckpoint.sync

end Sys2Proof.Machine
end

section
/-! Vector arithmetic, the matrix unit, and the events of queues, hosts, boot, peers and power. -/

namespace Sys2Proof.Machine

/-! What reading a graph answers when it stops: a refusal or a wait, never an accepted record. -/

/-- What a computation answers, if it stops, satisfies a property. -/
def Stops {ε α : Type} (P : ε → Prop) (r : Except ε α) : Prop := ∀ e, r = .error e → P e

theorem Stops.ok {ε α : Type} {P : ε → Prop} {a : α} : Stops P (.ok a) := fun _ => nofun

theorem Stops.error {ε α : Type} {P : ε → Prop} {e : ε} (he : P e) : Stops P (.error e : Except ε α) :=
  fun _ h => Except.error.inj h ▸ he

theorem Stops.bind {ε α β : Type} {P : ε → Prop} {r : Except ε α} {f : α → Except ε β} (hr : Stops P r)
    (hf : ∀ a, Stops P (f a)) : Stops P (r >>= f) := by
  cases r with
  | ok a => exact hf a
  | error e => exact .error (hr e rfl)

theorem Stops.ite {ε α : Type} {P : ε → Prop} {c : Prop} {_ : Decidable c} {r q : Except ε α} (hr : Stops P r)
    (hq : Stops P q) : Stops P (if c then r else q) := by
  split
  · exact hr
  · exact hq

theorem Stops.mapM {ε α β : Type} {P : ε → Prop} {f : α → Except ε β} {l : List α} (hf : ∀ a, Stops P (f a)) :
    Stops P (l.mapM f) := by
  induction l with
  | nil => exact .ok
  | cons a l ih =>
    rw [List.mapM_cons]
    exact (hf a).bind fun _ => ih.bind fun _ => .ok

theorem Stops.tenantBytes {s : State} {t j va} : Stops Parse.Keeps (s.tenantBytes t j va) := by
  unfold State.tenantBytes
  split
  · exact .ite (.error trivial) (.ite (.error trivial) .ok)
  all_goals exact .error trivial

theorem Stops.graphNodes {s : State} {t copy va} : Stops Parse.Keeps (s.graphNodes t copy va) := by
  refine .ite (.error trivial) (Stops.tenantBytes.bind fun head => .ite (.error trivial)
    ((Stops.mapM fun _ => .tenantBytes).bind fun nodes => ?_))
  split
  · exact .error trivial
  · exact .ok

variable {s : State} (h : s.memoryWf)
include h

/-! Vector arithmetic. -/

theorem Lands.vfma {vd vb vc va p k hint} : Lands (execVfma vd vb vc va p k hint s) :=
  Lands.finish h (.after fun _ => .ok h.elementwise)

theorem Lands.vfcmp {cond kd vb vc p k hint} : Lands (execVfcmp cond kd vb vc p k hint s) :=
  Lands.finish h (.after fun _ => .ok h.intoMask)

theorem Lands.vfred {op rd vb rc k hint} : Lands (execVfred op rd vb rc k hint s) :=
  Lands.finish h (.after fun _ => .ok (h.wholeOr (State.memoryWf.retire (State.memoryWf.updMe h.orFlags.setS))))

theorem Lands.vfcvt {dst src vd vb k hint} : Lands (execVfcvt dst src vd vb k hint s) :=
  Lands.finish h (.after fun _ => .ite (.after fun _ => .ok h.elementwise) (.after fun _ => .ok h.elementwise))

theorem Lands.vpack {fmt vd vb k hint} : Lands (execVpack fmt vd vb k hint s) :=
  Lands.finish h (.after fun _ => .after fun _ => .ok (h.wholeOr (State.memoryWf.retire h.updMe)))

theorem Lands.vunpack {vd vb rc k hint} : Lands (execVunpack vd vb rc k hint s) :=
  Lands.finish h (.after fun _ => .after fun _ => .after fun _ => .ok (h.wholeOr h.elementwise))

theorem Lands.vcmp {cond kd vb vc p k hint} : Lands (execVcmp cond kd vb vc p k hint s) :=
  Lands.finish h (.after fun _ => .ok h.intoMask)

theorem Lands.vsel {vd vb vc p k hint} : Lands (execVsel vd vb vc p k hint s) :=
  Lands.finish h (.after fun _ => .ok h.elementwise)

theorem Lands.vmv {vd vb k hint} : Lands (execVmv vd vb k hint s) := Lands.finish h (.after fun _ => .ok h.elementwise)

theorem Lands.vmvScalar {vd rb k hint} : Lands (execVmvScalar vd rb k hint s) :=
  Lands.finish h (.after fun _ => .ok h.elementwise)

theorem Lands.vid {vd rb k hint} : Lands (execVid vd rb k hint s) := Lands.finish h (.after fun _ => .ok h.elementwise)

theorem Lands.vred {op rd vb rc k hint} : Lands (execVred op rd vb rc k hint s) :=
  Lands.finish h (.after fun _ => .ok (h.wholeOr (State.memoryWf.retire (State.memoryWf.updMe h.setS))))

theorem Lands.vscan {op excl vd vb rc k hint} : Lands (execVscan op excl vd vb rc k hint s) :=
  Lands.finish h (.after fun _ => .ok (h.wholeOr h.writeElems.retire))

theorem Lands.vperm {vd vb vc p k hint} : Lands (execVperm vd vb vc p k hint s) :=
  Lands.finish h (.after fun _ => .ok (h.wholeOr h.writeElems.retire))

theorem Lands.vslideUp {vd vb rc rf k hint} : Lands (execVslideUp vd vb rc rf k hint s) :=
  Lands.finish h (.after fun _ => .ok (h.wholeOr h.writeElems.retire))

theorem Lands.vslideDown {vd vb rc rf k hint} : Lands (execVslideDown vd vb rc rf k hint s) :=
  Lands.finish h (.after fun _ => .ok (h.wholeOr h.writeElems.retire))

theorem Lands.vcompress {vd vb k hint} : Lands (execVcompress vd vb k hint s) :=
  Lands.finish h (.after fun _ => .ok (h.wholeOr h.writeElems.retire))

theorem Lands.vexpand {vd vb k hint} : Lands (execVexpand vd vb k hint s) :=
  Lands.finish h (.after fun _ => .ok (h.wholeOr h.writeElems.retire))

theorem Lands.vext {u rd vb rc hint} : Lands (execVext u rd vb rc hint s) :=
  Lands.finish h (.after fun _ => .after fun _ =>
    .ok (h.wholeOr (State.memoryWf.retire (State.memoryWf.updMe h.setS))))

theorem Lands.vins {vd rb rc hint} : Lands (execVins vd rb rc hint s) :=
  Lands.finish h (.after fun _ => .after fun _ => .ok (h.wholeOr h.writeElems.retire))

/-! The matrix unit. -/

/-- A matrix instruction, lost where a stop is latched (R161). -/
theorem Lands.matrix {mask r} (hr : Yields State.memoryWf r) : Lands (Machine.finish s mask (do
    s.matrixIssue
    s.unlessStopped r)) :=
  Lands.finish h (.after fun _ => .ite (.ok (State.memoryWf.retire (State.memoryWf.dropCheckpoint h.updMe))) hr)

theorem Lands.mshape {mode sparse rd rb rc rk hint} : Lands (execMshape mode sparse rd rb rc rk hint s) :=
  Lands.finish h.updMe (State.memoryWf.mshape h.updMe)

theorem Lands.mldw {cls space sparse rb rc vm hint} : Lands (execMldw cls space sparse rb rc vm hint s) :=
  Lands.matrix h.updMe (State.memoryWf.mldw h.updMe)

theorem Lands.mswap : Lands (execMswap s) := Lands.matrix h.updMe (State.memoryWf.mswap h.updMe)

theorem Lands.mmac {zero ra rb rc hint} : Lands (execMmac zero ra rb rc hint s) :=
  Lands.matrix h.updMe (State.memoryWf.mmac h.updMe)

theorem Lands.mzero {rb rc} : Lands (execMzero rb rc s) := Lands.matrix h.updMe (State.memoryWf.mzero h.updMe)

theorem Lands.mld {fmt ra rb rc hint} : Lands (execMld fmt ra rb rc hint s) :=
  Lands.matrix h.updMe (State.memoryWf.mld h.updMe)

theorem Lands.mst {fmt ra rb rc hint} : Lands (execMst fmt ra rb rc hint s) :=
  Lands.matrix h.updMe (State.memoryWf.mst h.updMe)

theorem Lands.mrd {vd rb k hint} : Lands (execMrd vd rb k hint s) :=
  Lands.finish h.updMe (.after fun _ => .ok (State.memoryWf.mrd h.updMe))

theorem Lands.mwr {rb vc p k hint} : Lands (execMwr rb vc p k hint s) :=
  Lands.finish h.updMe (.after fun _ => .ok (State.memoryWf.mwr h.updMe))

theorem Lands.mchk {rd} : Lands (execMchk rd s) := Lands.finish h.updMe (State.memoryWf.mchk h.updMe)

/-! Commands of a queue (R97 to R106). -/

theorem Lands.queueWake {q} : Lands (execQueueWake q s) := .ite (.next (State.memoryWf.readProducer h.updQueue)) (.next h)

theorem Lands.cmdJob {q} : Lands (execCmdJob q s) := by
  refine .next (h.runCommand fun t c r => ?_)
  dsimp only
  split
  · trivial
  · split
    next => trivial
    next alloc => exact State.memoryWf.updQueue (h.allocRecord alloc)

theorem Lands.cmdPhase {q} : Lands (execCmdPhase q s) := by
  refine .next (h.runCommand fun t c r => ?_)
  dsimp only
  split
  · trivial
  · split
    · trivial
    · split
      · trivial
      · split
        next => trivial
        next alloc => exact State.memoryWf.updQueue (State.memoryWf.submitted (h.allocRecord alloc))

theorem Lands.cmdGraph {q} : Lands (execCmdGraph q s) := by
  refine .next (h.runCommand fun t c r => ?_)
  split
  · trivial
  · split
    · trivial
    · split
      next read => exact Stops.graphNodes _ read
      next =>
        split
        · trivial
        · split
          next => trivial
          next alloc => exact (State.memoryWf.submitted (h.allocRecord alloc)).enqueueReady

theorem Lands.cmdWait {q} : Lands (execCmdWait q s) := by
  refine .next (h.runCommand fun t c r => ?_)
  dsimp only
  split
  · trivial
  · split
    · exact h
    · trivial

theorem Lands.cmdSignal {q} : Lands (execCmdSignal q s) := by
  unfold execCmdSignal
  split
  · exact .next h.signalStore
  · refine .next (h.runCommand fun t c r => ?_)
    split
    · trivial
    · exact h

theorem Lands.completionWordWrite {q index} : Lands (execCompletionWordWrite q index s) := by
  unfold execCompletionWordWrite
  split
  · exact .next h
  · exact .ite (.next h.commandOver) (.next h.completionWord)

theorem Lands.queueResourceFree {q} : Lands (execQueueResourceFree q s) :=
  .ite (.next h.updQueue) (.ite (.next h.refuseRecord) (.next h))

theorem Lands.firmwareWatchdog {f} : Lands (execFirmwareWatchdog f s) :=
  .ite (.next (h.foldl fun _ _ hu => hu.parseAgain)) (.next h)

/-! The dispatcher. -/

theorem Lands.dispatchCreate : Lands (execDispatchCreate s) :=
  .next (Offers.getD (.findSome fun _ => h.createEntry) h)

theorem Lands.strandWaitAge {n} : Lands (execStrandWaitAge n s) := .ite (.next h.updStrand) (.next h)

theorem Lands.strandResident {n} : Lands (execStrandResident n s) := by
  refine .ite (.next h) ?_
  split
  · exact .next h
  · exact .next (.ite (h.seat.getD h) h)

theorem Lands.preempt {core heldLong} : Lands (execPreempt core heldLong s) := by
  unfold execPreempt
  split
  · exact .next (h.preempt.getD h)
  · exact .next h

/-! Stores of agents. -/

theorem Lands.agentStore {who pa v} : Lands (.next (s.agentStore who pa v)) := .next h.agentStore

theorem Lands.frameKindStore {who pa value} : Lands (execFrameKindStore who pa value s) := .ite (.next h.agentStore) (.next h)

theorem Lands.counterCancel {who t id} : Lands (execCounterCancel who t id s) :=
  .ite (.next h) (.next (h.agentAct (.ok h.cancelRecord)))

theorem Lands.dieFence {who d forwarded} : Lands (execDieFence who d forwarded s) :=
  .next (h.agentAct (.ite .error (.ok h.dieFence)))

theorem Lands.dieRestore {who d} : Lands (execDieRestore who d s) := .next (h.agentAct (.ite .error h.dieRestore))

theorem Lands.islandStore {who d i value} : Lands (execIslandStore who d i value s) :=
  .next (h.agentAct (.ite .error h.islandStore))

theorem Lands.winStore {who w value} : Lands (execWinStore who w value s) := .next (h.agentAct (.ite .error h.winStore))

/-! The host, the boot, peers and power. -/

theorem Lands.windowCompletion {n answer} : Lands (execWindowCompletion n answer s) := by
  unfold execWindowCompletion
  split
  next => exact .next h
  next taken =>
    have rest := h.takeRequest taken
    split
    · exact .next rest.requestDone
    · exact .next rest.requestFails
    · exact .next (State.memoryWf.requestDone (rest.hostAtomic.setRoute.ite rest.hostAtomic))
    · exact .next rest.setRoute.requestFails

theorem Lands.completionTimeout {n} : Lands (execCompletionTimeout n s) := by
  unfold execCompletionTimeout
  split
  next => exact .next h
  next taken => exact .next (h.takeRequest taken).requestLost

theorem Lands.hostAtomicop : Lands (execHostAtomicop s) := .next (.ite (State.memoryWf.set h.hostRefused) h)

theorem Lands.bootPhase {how} : Lands (execBootPhase how s) := by
  refine .ite (.next h) (.ite (.next h.set) ?_)
  cases how with
  | success => exact .next (State.memoryWf.set h.bootWork)
  | failure code => exact .ite (.next h) (.next h.set)

theorem Lands.firmwareStage {images} : Lands (execFirmwareStage images s) := .ite (.next h.set) (.next h)

theorem Lands.pldmSensorRead {which} : Lands (execPldmSensorRead which s) := .next (h.hostAnswers.ite h)

theorem Lands.hotReset : Lands (execHotReset s) := .next (State.memoryWf.failRequests h.set)

theorem Lands.peerUp {p gen} : Lands (execPeerUp p gen s) :=
  .next (State.memoryWf.loseRemote (h.setPeer.ite h.setPeer.losePeerActs))

theorem Lands.peerStateGone {p} : Lands (execPeerStateGone p s) :=
  .next h.setPeer.losePeerActs.loseRemote.losePeerGroups

theorem Lands.trellisLinkFail {p} : Lands (execTrellisLinkFail p s) :=
  .next (State.memoryWf.losePeerActs h.set).loseRemote

theorem Lands.remoteStoreAck {id taken} : Lands (execRemoteStoreAck id taken s) := by
  unfold execRemoteStoreAck
  split
  · exact .next h
  · exact .ite (.next (State.memoryWf.set h.remotePerform)) (.ite (.next h) (.next (State.memoryWf.remoteLost h.set)))

theorem Lands.remoteAccessServe {gen request} : Lands (execRemoteAccessServe gen request s) :=
  .next (h.answerPeer.ite (h.serve.getD h.set))

theorem Lands.powerThrottle {d i mhz} : Lands (execPowerThrottle d i mhz s) :=
  .ite (.next (State.memoryWf.set h.updIsland)) (.next h)

theorem Lands.thermalThrottle {d mhz} : Lands (execThermalThrottle d mhz s) :=
  .ite (.next (State.memoryWf.set h.updDie)) (.next h)

theorem Lands.thermalClamp {d} : Lands (execThermalClamp d s) := .ite (.next (State.memoryWf.set h.updDie)) (.next h)

theorem Lands.thermalPowerDown : Lands (execThermalPowerDown s) :=
  .ite (.next (State.memoryWf.failRequests h.set)) (.next h)

theorem Lands.limitClear {d i} : Lands (execLimitClear d i s) :=
  .ite (.next h) (.ite (.next (State.memoryWf.set h.updIsland)) (.next h.updIsland))

end Sys2Proof.Machine
end

section
/-! Every instruction, event and step keeps the memories canonical. -/

namespace Sys2Proof.Machine

variable {s : State} (h : s.memoryWf)
include h

theorem State.memoryWf.vineAcceptOne {c} : (s.vineAcceptOne c).memoryWf := vineAcceptN_memoryWf s c 1 h

theorem Lands.exec {i} : Lands (exec i s) := by
  unfold Machine.exec
  cases i with
  -- scalar results
  | add | sub | mul | mulh | mulhu | div | divu | rem | remu | and | andn | or | xor | shl | shr | sra | min | max | minu | maxu
  | addImm | subImm | mulImm | mulhImm | mulhuImm | divImm | divuImm | remImm | remuImm | andImm | andnImm | orImm | xorImm
  | shlImm | shrImm | sraImm | minImm | maxImm | minuImm | maxuImm | clz | ctz | popc | sext | zext | mov | movi | moviHi
  | addpc | sel | cmp | getsr => exact Lands.result h
  | fadd | fsub | fmul | fdiv | fsqrt | fmin | fmax | fma | fcmp => exact .next h.floatResult
  | fcvt => exact .next h.orFlags.setS.retire
  -- control flow
  | nop | hintH | hintHt1 | hintHt2 | hintHt3 => exact .next h.retire
  | b => exact .next h.retireTo
  | bCond => exact .next (.ite h.retireTo h.retire)
  | call => exact .next h.setS.retireTo
  | jmp | ret => exact Lands.jump h
  | trap | brk => exact .next h.completed.raise
  | illegalEncoding => exact .next h.raise
  | setvl => exact .next (State.memoryWf.result h.updMe)
  | setvlf => exact Lands.setvlf h
  | setsr => exact Lands.setsr h
  | exit => exact Lands.exit h
  | bar => exact Lands.bar h
  | cwait => exact Lands.cwait h
  | launch => exact Lands.launch h
  | cancel => exact Lands.cancel h
  | fpub => exact Lands.fpub h
  | claim => exact Lands.claim h
  | tret => exact Lands.tret h
  | twait => exact Lands.twait h
  | twany => exact Lands.twany h
  | tfirst => exact Lands.tfirst h
  -- maintenance, chains and seals
  | tsync => exact Lands.tsync h
  | icinv => exact Lands.icinv h
  | cflush | cinv => exact Lands.cellarOp h
  | pref => exact Lands.pref h
  | sealOpen => exact Lands.sealOpen h
  | sealAbsorb => exact Lands.sealAbsorb h
  | sealClose => exact Lands.sealClose h
  | chlinkRm | chlinkAdd => exact Lands.finish h h.chlink
  | chquery => exact Lands.chquery h
  | chsync => exact Lands.chsync h
  -- memory
  | ld | ldu => exact Lands.scalarLoad h
  | st => exact Lands.scalarStore h
  | fence => exact Lands.fence h
  | aadd | aand | aor | axor | amin | amax | aswap | acas => exact Lands.atomicOp h
  | vld | vlds => exact Lands.vectorMem h fun _ hu => hu.vectorLoad
  | vldx => exact Lands.vectorMem h fun _ hu => .after fun _ => .after fun _ => hu.vectorLoad
  | vldff => exact Lands.vldff h
  | vst | vsts => exact Lands.vectorMem h fun _ hu => hu.vectorStore
  | vstx => exact Lands.vectorMem h fun _ hu => .after fun _ => .after fun _ => hu.vectorStore
  | vamo => exact Lands.vamo h
  -- vectors
  | vadd | vsub | vmul | vmulh | vmin | vmax | vand | vor | vxor | vshl | vshr | vsra => exact Lands.lanewise h
  | vcmp => exact Lands.vcmp h
  | vsel => exact Lands.vsel h
  | vmv => exact Lands.vmv h
  | vmvScalar => exact Lands.vmvScalar h
  | vid => exact Lands.vid h
  | vred => exact Lands.vred h
  | vscan => exact Lands.vscan h
  | vperm => exact Lands.vperm h
  | vslideUp => exact Lands.vslideUp h
  | vslideDown => exact Lands.vslideDown h
  | vcompress => exact Lands.vcompress h
  | vexpand => exact Lands.vexpand h
  | vext => exact Lands.vext h
  | vins => exact Lands.vins h
  | vfadd | vfsub | vfmul | vfdiv | vfmin | vfmax => exact Lands.floatwise h
  | vfsqrt | vfrec | vfrsqrt | vfexp2 => exact Lands.floatUnary h
  | vfma => exact Lands.vfma h
  | vfcmp => exact Lands.vfcmp h
  | vfcvt => exact Lands.vfcvt h
  | vfred => exact Lands.vfred h
  | vpack => exact Lands.vpack h
  | vunpack => exact Lands.vunpack h
  | kand | kor | kxor | knot | kmv | kset => exact Lands.maskGroup h
  | kpopc | kfirst => exact Lands.maskScalar h
  -- the matrix unit
  | mshape => exact Lands.mshape h
  | mldw => exact Lands.mldw h
  | mswap => exact Lands.mswap h
  | mmac => exact Lands.mmac h
  | mzero => exact Lands.mzero h
  | mld => exact Lands.mld h
  | mst => exact Lands.mst h
  | mrd => exact Lands.mrd h
  | mwr => exact Lands.mwr h
  | mchk => exact Lands.mchk h
  | mldwLoadDone => exact .next h.mldwDone
  | matrixOpComplete => exact .next h.matrixComplete
  | matrixErrorStop => exact .next h.matrixError
  -- engines
  | cpy | cpyd => exact Lands.finish h.bindEnds h.bindEnds.copy
  | coll => exact Lands.finish h.bindEnds h.bindEnds.coll
  | rred => exact Lands.finish h h.rred
  | copyReleaseComplete => exact .next h.copyRelease
  | copyArrivalComplete => exact .next h.copyArrival
  | sealAbsorbComplete => exact .next h.absorbDone
  | collResultDeliver => exact .next h.collDeliver
  | collGroupLost => exact .next h.collLost
  | rredElementAdd => exact .next h.rredAdd
  -- agents
  | strandStop | strandResume | strandStep | strandKill | controlFieldStore | activate | teardown | measnow | queueEnable
  | queueDisable | queueVerdict | modesStore | fqReplay | fqDeny | fqTsyncAll | fqTsyncPage | chainStart | chainRelease
  | linkopRemove | linkopAppend | keyLoad | keyZeroise => exact Lands.agentStore h
  | frameKindStore => exact Lands.frameKindStore h
  | counterCancel => exact Lands.counterCancel h
  | dieFence => exact Lands.dieFence h
  | dieRestore => exact Lands.dieRestore h
  | islandStore => exact Lands.islandStore h
  | winStore => exact Lands.winStore h
  -- work, queues and faults
  | strandStopComplete => exact .next h.stopComplete
  | strandKillComplete => exact .next h.killComplete
  | scrubComplete => exact .next h.scrubComplete
  | cancelComplete => exact .next h.cancelComplete
  | heldFaultWrite => exact .next h.heldWrite
  | chainAppendJoin => exact .next h.chainJoin
  | vineWriteAccept => exact .next h.vineAcceptOne
  | keyZeroiseComplete => exact .next h.keyZeroiseComplete
  | queueWake => exact Lands.queueWake h
  | cmdJob => exact Lands.cmdJob h
  | cmdPhase => exact Lands.cmdPhase h
  | cmdGraph => exact Lands.cmdGraph h
  | cmdWait => exact Lands.cmdWait h
  | cmdSignal => exact Lands.cmdSignal h
  | completionWordWrite => exact Lands.completionWordWrite h
  | queueResourceFree => exact Lands.queueResourceFree h
  | firmwareWatchdog => exact Lands.firmwareWatchdog h
  | dispatchCreate => exact Lands.dispatchCreate h
  | readyEntryAge | readyEntryBlocking => exact .next h.set
  | strandWaitAge => exact Lands.strandWaitAge h
  | strandResident => exact Lands.strandResident h
  | preempt => exact Lands.preempt h
  -- the host, the boot, peers and power
  | windowCompletion => exact Lands.windowCompletion h
  | completionTimeout => exact Lands.completionTimeout h
  | hostBar0Access | hostBar2Access => exact .next h.hostAccess
  | hostAtomicop => exact Lands.hostAtomicop h
  | packageReset => exact .next h.resetPackage
  | bootPhase => exact Lands.bootPhase h
  | hotReset => exact Lands.hotReset h
  | busMasterDisable | msixPendingSend | pcieLinkUp | busMasterEnableSet => exact .next h.set
  | atomicopRequesterEnable => exact .next h.hostDevCtl2
  | firmwareStage => exact Lands.firmwareStage h
  | pldmSensorRead => exact Lands.pldmSensorRead h
  | peerUp => exact Lands.peerUp h
  | peerStateGone => exact Lands.peerStateGone h
  | trellisLinkFail => exact Lands.trellisLinkFail h
  | remoteStoreAck => exact Lands.remoteStoreAck h
  | remoteAccessServe => exact Lands.remoteAccessServe h
  | powerThrottle => exact Lands.powerThrottle h
  | thermalThrottle => exact Lands.thermalThrottle h
  | thermalClamp => exact Lands.thermalClamp h
  | thermalPowerDown => exact Lands.thermalPowerDown h
  | limitClear => exact Lands.limitClear h

/-! Issue of one strand (R32, R36 to R39). -/

theorem State.memoryWf.measureFetch {t x} : (s.measureFetch t x).memoryWf := h.updTenant.ite h

theorem State.memoryWf.fetchLine : Yields (fun p => p.2.memoryWf) s.fetchLine :=
  .after fun _ => .after fun _ => .ok h.settleTarget.measureFetch.cacheLine

theorem State.memoryWf.stepWait {i} : (s.stepWait i).memoryWf := h.updMe.ite h

theorem State.memoryWf.withRoom {i} : Offers (s.withRoom i) := .ite .none (.ite (.some h) h.takeRoom)

theorem State.memoryWf.leaveLine {i n pc} : (s.leaveLine i n pc).memoryWf :=
  .ite (State.memoryWf.updCore (h.updCore.ite h)) (h.updCore.ite h)

theorem Lands.runLine {line} : Lands (s.runLine line) := by
  unfold State.runLine
  dsimp only
  split
  · split
    next => exact .next h
    next room =>
      exact .onNext (Lands.exec (State.memoryWf.set (h.withRoom _ room))) fun _ ht => ht.stepWait.leaveLine
  · exact Lands.exec h.set
  · exact .ite (.next h.updMe) (Lands.exec h.set)

theorem Lands.runNext : Lands s.runNext := by
  unfold State.runNext
  split
  next => exact .next h.stopped
  next fetched => exact Lands.runLine (h.fetchLine _ fetched)

theorem State.memoryWf.waitDone : s.waitDone.memoryWf := h.updMe

theorem Lands.issue {n} : Lands (s.issue n) := by
  refine .ite (.next h) (.onNext ?_ fun _ ht => State.memoryWf.issued ht)
  have here : { s with cur := n }.memoryWf := h.set
  split
  · exact Lands.runNext here
  · exact .next here
  · exact .next (here.ite here.updMe)
  · exact .next (here.ite here.newRegion.waitDone)
  · exact .next (here.ite here.newRegion.waitDone)
  · exact .next (here.ite here.peerSealClosed)
  · refine .next ?_
    split
    · exact here.ite here.waitDone
    · exact here.waitDone
  · exact .next here
  · exact .next (here.ite here.sealClosed)

/-! Instructions cut by a preemption (R108). -/

theorem State.memoryWf.execPart {i} : Offers (s.execPart i) := by
  intro u part
  obtain ⟨vd, _, part⟩ := Option.bind_eq_some_iff.1 part
  revert part
  suffices Offers _ from this u
  refine .ite .none ?_
  split
  next t ran =>
    have parted : t.memoryWf := Lands.exec (State.memoryWf.set h.updMe) t ran
    refine .ite ?_ .none
    dsimp only
    split
    · exact .ite (.some parted.updMe) .none
    · exact .none
  next => exact .none

theorem State.memoryWf.cutNext {n} : Offers (s.cutNext n) := by
  unfold State.cutNext
  split
  next => exact .none
  next fetched =>
    have read := State.memoryWf.fetchLine h.set _ fetched
    dsimp only
    split
    · intro u cut
      obtain ⟨t, room, part⟩ := Option.bind_eq_some_iff.1 cut
      exact State.memoryWf.execPart (State.memoryWf.set (State.memoryWf.withRoom read _ room)) _ part
    · exact .none

theorem State.memoryWf.partWay {n} : (s.partWay n).memoryWf := (h.cutNext.getD h).ite h

theorem State.memoryWf.preemptPartWay {core heldLong} : (s.preemptPartWay core heldLong).memoryWf := by
  unfold State.preemptPartWay
  split
  · refine .ite (Offers.getD (fun u cut => ?_) h) h
    obtain ⟨t, part, seated⟩ := Option.bind_eq_some_iff.1 cut
    exact State.memoryWf.preempt (h.cutNext _ part) _ seated
  · exact h

/-! The actions of the agenda, and a step. -/

theorem State.memoryWf.prefetch {id} : (s.prefetch id).memoryWf := by
  unfold State.prefetch
  split
  · exact h
  · exact State.memoryWf.foldl (remoteDrain_memoryWf s h) fun _ _ hu => hu.updCore

theorem State.memoryWf.elapse : s.elapse.memoryWf := h.set

theorem Lands.event {i} : Lands (s.event i) := .ite (Lands.exec h) (.next h)

theorem Lands.perform {a} : Lands (s.perform a) := by
  refine .ite (.next h) ?_
  cases a with
  | issue n => exact .onNext (Lands.issue h) fun _ ht => ht.set
  | event i => exact Lands.event h
  | hostMemory addr bytes => exact .next h.writeHost
  | peerMemory pa bytes => exact .next h.writePeer
  | serveDone pa => exact .next h.serveDone
  | hostNext => exact .next h.hostNext
  | hostBar4 w data => exact .next h.hostBar4
  | hostBar i base => exact .next h.hostBar
  | hostDevCtl2 v => exact .next h.hostDevCtl2
  | partWay n => exact .next h.partWay
  | preemptPartWay core heldLong => exact .next h.preemptPartWay
  | poisonSpad | matrixUpset => exact .next h.updCore
  | poisonVector | laneError => exact .next h.updStrand
  | contribution | participantEnded => exact .next h.updGroup
  | scrub t => exact .next h.scrubOne
  | prefetch id => exact .next h.prefetch
  | flowClose id => exact .next h.flowClose
  | dieFails d => exact .next h.dieFails
  | telemetry => exact .next h.telemetry
  | frequency d i mhz => exact .next h.frequency
  | temperature d t => exact .next h.heat
  | peerControl | peerRefuses | peerCtlRefuses | peerGeneration | peerActDone | poisonHbm | power => exact .next h.set

theorem Lands.step : Lands (step s) := by
  have elapses {r} (hr : Lands r) : Lands (Machine.onNext State.elapse r) := hr.onNext fun _ ht => ht.elapse
  unfold Machine.step State.move
  split
  · exact elapses (Lands.perform h.set)
  · split
    · exact .ite .fault (.next h.elapse)
    · exact elapses (Lands.perform h)
    · exact elapses (Lands.perform h)

omit h in
/-- Settles O60: every meaning is made of operations that keep the canonical form of every memory, so each instruction
and each event keeps it, and a step is one of these. -/
theorem stepKeepsMemoryCanonical : Obligations.StepKeepsMemoryCanonical := fun _ t h moved => Lands.step h t moved

end Sys2Proof.Machine
end

section
/-! Engine operations: what taking and completing tags, entries of the scoreboard and the table of operations change
(R139 to R143). -/

namespace Sys2Proof.Machine

/-! One bit of a word. -/

theorem getLsbD_putBit {n : Nat} (x : BitVec n) (i j : Nat) (b : Bool) (hi : i < n) :
    (putBit x i b).getLsbD j = if j = i then b else x.getLsbD j := by
  unfold putBit putSlice
  by_cases h : j = i
  · subst h
    cases b <;> simp [hi]
  · have inside : x.getLsbD j = true → j < n := BitVec.lt_of_getLsbD
    by_cases below : j < i
    · cases b <;> simpa [h, below] using inside
    · have apart : ¬ j - i = 0 := by omega
      cases b <;> simpa [h, below, apart] using inside

/-! Tags (R140 to R142). -/

theorem Strand.getLsbD_completeTag (x : Strand) {t : Nat} (status j : Nat) (ht : t < 64) :
    (x.completeTag t status).tags.getLsbD j = if j = t then true else x.tags.getLsbD j := getLsbD_putBit _ _ _ _ ht

theorem Strand.getLsbD_startTag (x : Strand) {t : Nat} (j : Nat) (ht : t < 64) :
    (x.startTag t).tags.getLsbD j = if j = t then false else x.tags.getLsbD j := getLsbD_putBit _ _ _ _ ht

/-- The status that a completed tag shows. -/
theorem Strand.tstat_completeTag (x : Strand) {t : Nat} (status j : Nat) (ht : t < 64) :
    (x.completeTag t status).tstat.toList.getD j 0#9 =
      if j = t then BitVec.ofNat 9 (status % 256) else x.tstat.toList.getD j 0#9 := by
  by_cases h : j = t
  · subst h
    simp [Strand.completeTag, List.getD_eq_getElem?_getD, ht]
  · simp [Strand.completeTag, List.getD_eq_getElem?_getD, h, Ne.symm h]

/-- Completing a tag that was started leaves the tags as they were, if it was complete before. -/
theorem Strand.tags_completeTag_startTag (x : Strand) {t : Nat} (ht : t < 64) (h : x.tags.getLsbD t = true) (status : Nat) :
    ((x.startTag t).completeTag t status).tags = x.tags := by
  ext j hj
  rw [← BitVec.getLsbD_eq_getElem, ← BitVec.getLsbD_eq_getElem, getLsbD_completeTag _ _ _ ht, getLsbD_startTag _ _ ht]
  split
  · next e => rw [e, h]
  · rfl

theorem takeTag_strand (s : State) (n t k : Nat) :
    (s.takeTag n t).strand k = if k = n then (s.strand n).startTag t else s.strand k := by
  simp only [State.takeTag, State.strand_updStrand]
  rfl

theorem completeTag_eq {s : State} {n : Nat} (h : hasKey s.strands n = true) (t status : Nat) :
    s.completeTag n t status = s.updStrand n fun x => x.completeTag t status := if_pos h

/-! The table of operations. -/

theorem find?_insertAt {α : Type} (l : Table α) (k : Nat) (v : α) :
    ((insertAt l k v).find? fun e => e.1 == k) = some (k, v) := by
  induction l with
  | nil => simp [insertAt]
  | cons e r ih =>
    obtain ⟨j, u⟩ := e
    unfold insertAt
    split
    · simp
    · split
      · simp
      · next h => simp [h, ih]

theorem hasKey_insertAt {α : Type} (l : Table α) (k : Nat) (v : α) (m : Nat) :
    hasKey (insertAt l k v) m = (m == k || hasKey l m) := by
  induction l with
  | nil => simp [insertAt, hasKey, Bool.beq_comm]
  | cons e r ih =>
    obtain ⟨j, u⟩ := e
    unfold insertAt
    split
    · simp [hasKey, Bool.beq_comm]
    · split
      · next h => subst h; by_cases hm : m = j <;> simp [hasKey, hm, Bool.beq_comm]
      · simp [hasKey, ih, Bool.or_left_comm]

theorem findOp_eq_some {s : State} {id : Nat} {o : EngineOp} (h : s.findOp id = some o) : (id, o) ∈ s.ops := by
  obtain ⟨e, found, rfl⟩ := Option.map_eq_some_iff.1 h
  have key : e.1 = id := by simpa using List.find?_some found
  exact key ▸ List.mem_of_find?_eq_some found

theorem findOp_of_removeAt {s t : State} {id : Nat} (h : t.ops = removeAt s.ops id) : t.findOp id = none := by
  unfold State.findOp
  rw [h, removeAt_eq_filter, Option.map_eq_none_iff, List.find?_eq_none]
  intro e he
  simpa using (List.mem_filter.1 he).2

/-- An operation under an update of every operation. -/
theorem findOp_mapTable {s t : State} {id : Nat} {f : Nat → EngineOp → EngineOp} (h : t.ops = mapTable s.ops f) :
    t.findOp id = (s.findOp id).map (f id) := by
  unfold State.findOp
  rw [h, mapTable, List.find?_map]
  cases found : s.ops.find? fun e => e.1 == id with
  | none => simp [found]
  | some e =>
    have key : e.1 = id := by simpa using List.find?_some found
    simp [found, key]

theorem findOp_updOp (s : State) (id : Nat) (f : EngineOp → EngineOp) : (s.updOp id f).findOp id = (s.findOp id).map f := by
  rw [findOp_mapTable (s := s) (f := fun i o => if i = id then f o else o) rfl]
  simp

end Sys2Proof.Machine
end

section
/-! Copies, collectives and remote reductions enter their engines (O42; R136 to R143, R240, R243). -/

namespace Sys2Proof.Machine

/-! What the issue of an engine operation leaves alone. -/

/-- Nothing but the issuing strand, the operations and the scoreboards has changed: no other strand and no byte. -/
structure IssueFrame (s t : State) : Prop where
  cur    : t.cur = s.cur
  npc    : t.npc = s.npc
  others : ∀ n, n ≠ s.cur → t.strand n = s.strand n
  mem    : t.mem = s.mem
  mtags  : t.mtags = s.mtags
  spad   : ∀ c, (t.core c).spad = (s.core c).spad

theorem IssueFrame.trans {s t u : State} (h : IssueFrame s t) (k : IssueFrame t u) : IssueFrame s u where
  cur := k.cur.trans h.cur
  npc := k.npc.trans h.npc
  others n hn := (k.others n (h.cur ▸ hn)).trans (h.others n hn)
  mem := k.mem.trans h.mem
  mtags := k.mtags.trans h.mtags
  spad c := (k.spad c).trans (h.spad c)

/-- An update of the fields that hold no strand, core or byte. -/
theorem IssueFrame.of_eq {s t : State} (cur : t.cur = s.cur) (npc : t.npc = s.npc) (strands : t.strands = s.strands)
    (mem : t.mem = s.mem) (mtags : t.mtags = s.mtags) (cores : t.cores = s.cores) : IssueFrame s t where
  cur := cur
  npc := npc
  others n _ := by rw [State.strand, strands, State.strand]
  mem := mem
  mtags := mtags
  spad c := by rw [State.core, cores, State.core]

theorem IssueFrame.updMe (s : State) (f : Strand → Strand) : IssueFrame s (s.updMe f) where
  cur := rfl
  npc := rfl
  others n hn := by rw [State.strand_updMe, if_neg hn]
  mem := rfl
  mtags := rfl
  spad _ := rfl

theorem IssueFrame.takeTag (s : State) (t : Nat) : IssueFrame s (s.takeTag s.cur t) :=
  ⟨rfl, rfl, fun n hn => by rw [takeTag_strand, if_neg hn], rfl, rfl, fun _ => rfl⟩

theorem IssueFrame.boardAdd (s : State) (c n op : Nat) (write : Bool) (l : List Nat) :
    IssueFrame s (s.boardAdd c n op write l) := by
  unfold State.boardAdd
  split
  · exact .of_eq rfl rfl rfl rfl rfl rfl
  · refine ⟨rfl, rfl, fun _ _ => rfl, rfl, rfl, fun d => ?_⟩
    rw [State.core_updCore]
    split
    · next h => rw [h]
    · rfl

theorem IssueFrame.bindEnds (s : State) (dsp ssp : BitVec 2) : IssueFrame s (s.bindEnds dsp ssp) := by
  unfold State.bindEnds
  split
  · exact .of_eq rfl rfl rfl rfl rfl rfl
  · exact .updMe _ _

/-! The issuing strand after each of them. -/

theorem bindEnds_me (s : State) (dsp ssp : BitVec 2) :
    ∃ b, (s.bindEnds dsp ssp).me = { s.me with bound := b } ∧ (s.bindEnds dsp ssp).me.core = s.me.core := by
  unfold State.bindEnds
  split
  · exact ⟨_, rfl, rfl⟩
  · exact ⟨_, State.me_updMe s _, by rw [State.me_updMe, Strand.bindHere_core]⟩

theorem bindEnds_boardRoom {s : State} {k : Nat} (h : s.boardRoom k) (dsp ssp : BitVec 2) :
    (s.bindEnds dsp ssp).boardRoom k := by
  unfold State.bindEnds
  split
  · exact h
  · exact (boardRoom_bindHere s k).2 h

theorem bindEnds_rest (s : State) (dsp ssp : BitVec 2) : { s.bindEnds dsp ssp with strands := s.strands } = s := by
  unfold State.bindEnds
  split <;> rfl

theorem bindEnds_nextId (s : State) (dsp ssp : BitVec 2) : (s.bindEnds dsp ssp).nextId = s.nextId := by
  have rest := congrArg State.nextId (bindEnds_rest s dsp ssp)
  exact rest

theorem participates_bindEnds (s : State) (dsp ssp : BitVec 2) (m : Member) :
    (s.bindEnds dsp ssp).participates (s.bindEnds dsp ssp).cur m = s.participates s.cur m := by
  obtain ⟨b, me, -⟩ := bindEnds_me s dsp ssp
  have domain := congrArg State.domain (bindEnds_rest s dsp ssp)
  have package := congrArg State.package (bindEnds_rest s dsp ssp)
  dsimp only at domain package
  have here : (s.bindEnds dsp ssp).strand (s.bindEnds dsp ssp).cur = { s.strand s.cur with bound := b } := me
  simp only [State.participates, here, domain, package]

theorem takeTag_me (s : State) (t : Nat) : (s.takeTag s.cur t).me = s.me.startTag t := by
  rw [State.me, takeTag_strand]
  exact if_pos rfl

theorem boardAdd_me (s : State) (c n op : Nat) (write : Bool) (l : List Nat) : (s.boardAdd c n op write l).me = s.me := by
  unfold State.boardAdd
  split <;> rfl

theorem hasKey_takeTag (s : State) (n t : Nat) : hasKey (s.takeTag n t).strands n = true := by
  simp [State.takeTag, State.updStrand, State.setStrand, hasKey_insertAt]

/-- What an instruction that has changed only the issuing strand's page retires to (R36). -/
theorem retiredAt_of_me {s t : State} {y : Strand} (me : t.me = y.retire s.npc) (stepping : y.stepping = s.me.stepping)
    (state : y.state = s.me.state) (cause : y.cause = s.me.cause) (place : y.place = s.me.place) :
    RetiredAt s t s.npc := by
  refine ⟨by rw [me, Strand.retire_pc], fun h => ?_, fun h => ?_⟩
  · rw [me, ← state, ← cause, ← place]
    exact y.retire_running _ (stepping.trans h)
  · rw [me]
    exact y.retire_stepped _ (stepping.trans h)

/-! The scoreboard's entries. -/

/-- An entry is one more that its strand owns. -/
theorem boardOwners_append (s : State) (c : Nat) (e : SbEntry) :
    (s.updCore c fun x => { x with board := x.board ++ [e] }).boardOwners c =
      (s.core c).board.map (·.strand) ++ e.strand :: s.boardHolders c := by
  simp only [State.boardOwners, State.boardHolders, State.core_updCore_self, List.map_append, List.append_assoc]
  rfl

/-- One entry takes one place of a strand's room. -/
theorem boardRoom_boardAdd {s : State} {k : Nat} (h : s.boardRoom (k + 1)) (op : Nat) (write : Bool) (l : List Nat) :
    (s.boardAdd s.me.core s.cur op write l).boardRoom k := by
  obtain ⟨resident, own, all⟩ := h
  unfold State.boardAdd
  split
  · exact ⟨resident, by omega, by omega⟩
  next e entry =>
    let t := s.updCore s.me.core fun x => { x with board := x.board ++ [e] }
    have owners := boardOwners_append s s.me.core e
    refine ⟨resident, ?_, ?_⟩
    · have mine : t.boardOwn s.me.core s.cur ≤ s.boardOwn s.me.core s.cur + 1 := by
        have live : t.residentOn s.me.core s.cur = true := resident
        simp only [State.boardOwn, live, resident, if_true, t, owners]
        simp only [State.boardOwners, List.filter_append, List.filter_cons, List.length_append]
        split
        · simp only [List.length_cons]
          omega
        · omega
      change t.boardOwn s.me.core s.cur + k ≤ 8
      omega
    · change (t.boardOwners s.me.core).length + k ≤ 256
      rw [owners]
      simp only [State.boardOwners, List.length_append, List.length_cons] at all ⊢
      omega

/-- The entries of an operation whose strand has room for both. -/
theorem boardEnds_of_room {s : State} (h : s.boardRoom 2) (id : Nat) (reads writes : List Nat) :
    s.boardEnds id reads writes = .ok ((s.boardAdd s.me.core s.cur id false reads).boardAdd s.me.core s.cur id true writes) := by
  have first := boardEntry_of_room s 2 (by omega) h
  have second := boardEntry_of_room _ 1 (by omega) (boardRoom_boardAdd (k := 1) h id false reads)
  rw [boardAdd_me, (IssueFrame.boardAdd s _ _ _ _ _).cur] at second
  unfold State.boardEnds
  dsimp only
  rw [first, (IssueFrame.boardAdd s _ _ _ _ _).cur, second]
  split <;> split <;> rfl

/-! Copies (R136, R138). -/

/-- The arguments of a copy, as its operands give them. -/
def State.copyOperands (s : State) (dsp ssp : BitVec 2) (ra rb rc : SReg) (split : Option (Nat × Nat)) : CopyArgs :=
  let q := (s.sreg ra).toNat
  let z := s.sreg (ra + 1#5)
  { rows := q / 2 ^ 48, rb := q / 2 ^ 24 % 2 ^ 24, dst := s.sreg rb, src := s.sreg rc
    dstr := BitVec.ofInt 64 (z.extractLsb' 32 32).toInt, sstr := BitVec.ofInt 64 (z.extractLsb' 0 32).toInt
    dspace := dsp, sspace := ssp, split := split }

theorem toNat_rows (q : Word) : (q.extractLsb' 48 16).toNat = q.toNat / 2 ^ 48 := toNat_high16 q

theorem toNat_rowBytes (q : Word) : (q.extractLsb' 24 24).toNat = q.toNat / 2 ^ 24 % 2 ^ 24 := by
  rw [BitVec.extractLsb'_toNat, Nat.shiftRight_eq_div_pow]

theorem low24_eq_zero {q : Word} (h : q.toNat % 2 ^ 24 = 0) : (q.extractLsb' 0 24 == 0#24) = true := by
  rw [beq_iff_eq]
  apply BitVec.eq_of_toNat_eq
  simpa [BitVec.extractLsb'_toNat] using h

/-- A scratchpad end whose bytes all pass their checks (R129). -/
theorem endOk_of_checks {s : State} {space : BitVec 2} {l : List Word}
    (h : space ≠ 0#2 → ∀ a ∈ l, s.spadCheck s.me.owner.toNat s.me.core (space == 2#2) a.toNat = none) :
    s.endOk space l = .ok () := by
  unfold State.endOk
  split
  · rfl
  next remote =>
    have clear : (l.findSome? fun a =>
        (s.spadCheck s.me.owner.toNat s.me.core (space == 2#2) a.toNat).map fun c => (c, a)) = none := by
      rw [List.findSome?_eq_none_iff]
      intro a ha
      rw [h remote a ha]
      rfl
    rw [clear]

theorem tagsFree_of_complete {s : State} {rtag atag : BitVec 6} (h : rtag ≠ atag)
    (hr : s.me.tags.getLsbD rtag.toNat = true) (ha : s.me.tags.getLsbD atag.toNat = true) :
    s.tagsFree rtag atag = .ok () := by
  simp [State.tagsFree, demand, Strand.pending, h, hr, ha]

/-- The two tags of an operation taken. -/
def State.takeTags (s : State) (rtag atag : BitVec 6) : State :=
  (s.takeTag s.cur rtag.toNat).takeTag s.cur atag.toNat

/-- Both tags taken and completed at once, with one status. -/
def State.tagsAtOnce (s : State) (rtag atag : BitVec 6) (status : Nat) : State :=
  ((s.takeTags rtag atag).completeTag s.cur rtag.toNat status).completeTag s.cur atag.toNat status

/-- An operation's two entries and its two tags taken. -/
def State.entriesTaken (s : State) (rtag atag : BitVec 6) (reads writes : List Nat) : State :=
  ((s.fresh.2.boardAdd s.me.core s.cur s.nextId false reads).boardAdd s.me.core s.cur s.nextId true writes).takeTags
    rtag atag

/-- An operation with its entries, its tags and its place in the engine. -/
def State.entered (s : State) (kind : EngineKind) (scope : BitVec 3) (rtag atag : BitVec 6) (reads writes : List Nat) :
    State := (s.entriesTaken rtag atag reads writes).startOp s.nextId kind scope rtag atag

section
variable {s : State} {split : Option (Nat × Nat)} {dsp ssp : BitVec 2} {ra rb rc : SReg} {rtag atag : BitVec 6}
  {scope : BitVec 3}

/-- A copy whose checks pass takes its tags, and enters its engine when it has bytes. -/
theorem copy_checked (low : (s.sreg ra).toNat % 2 ^ 24 = 0)
    (records : ∀ f w, split = some (f, w) → (s.sreg ra).toNat / 2 ^ 24 % 2 ^ 24 % (f * w) = 0)
    (distinct : rtag ≠ atag) (rfree : s.me.tags.getLsbD rtag.toNat = true) (afree : s.me.tags.getLsbD atag.toNat = true)
    (dsts : s.endOk dsp ((s.copyOperands dsp ssp ra rb rc split).pairs.map (·.1)) = .ok ())
    (srcs : s.endOk ssp ((s.copyOperands dsp ssp ra rb rc split).pairs.map (·.2)) = .ok ()) :
    s.copy split scope dsp ssp ra rb rc rtag atag =
      if (s.sreg ra).toNat / 2 ^ 48 = 0 ∨ (s.sreg ra).toNat / 2 ^ 24 % 2 ^ 24 = 0 then
        .ok (s.tagsAtOnce rtag atag 0).retire
      else s.fresh.2.boardEnds s.nextId
          (endBlocks s.me.core ssp ((s.copyOperands dsp ssp ra rb rc split).pairs.map (·.2)))
          (endBlocks s.me.core dsp ((s.copyOperands dsp ssp ra rb rc split).pairs.map (·.1))) >>= fun t =>
        .ok ((t.takeTags rtag atag).startOp s.nextId (.copy (s.copyOperands dsp ssp ra rb rc split)) scope rtag
          atag).retire := by
  have operands : ({ rows := (s.sreg ra).toNat / 2 ^ 48, rb := (s.sreg ra).toNat / 2 ^ 24 % 2 ^ 24, dst := s.sreg rb
                     src := s.sreg rc
                     dstr := ((s.sreg (ra + 1#5)).extractLsb' 32 32).signExtend 64
                     sstr := ((s.sreg (ra + 1#5)).extractLsb' 0 32).signExtend 64
                     dspace := dsp, sspace := ssp, split := split } : CopyArgs) =
      s.copyOperands dsp ssp ra rb rc split := rfl
  unfold State.copy
  simp only [low24_eq_zero low, toNat_rows, toNat_rowBytes, operands, demand_true,
    tagsFree_of_complete distinct rfree afree, dsts, srcs, ok_bind]
  cases split with
  | none => rfl
  | some p =>
    simp only [records p.1 p.2 rfl, decide_true, demand_true, ok_bind]
    rfl

/-- A copy of bytes enters its engine with its two entries. -/
theorem fresh_boardEnds (room : s.boardRoom 2) (kind : EngineKind) (reads writes : List Nat) :
    (s.fresh.2.boardEnds s.nextId reads writes >>= fun t =>
      .ok ((t.takeTags rtag atag).startOp s.nextId kind scope rtag atag).retire) =
      (.ok (s.entered kind scope rtag atag reads writes).retire : Except Stop State) := by
  rw [boardEnds_of_room (s := s.fresh.2) room]
  rfl

end

/-! What the tags and the operation of an issue are. -/

theorem IssueFrame.takeTags (s : State) (rtag atag : BitVec 6) : IssueFrame s (s.takeTags rtag atag) :=
  (IssueFrame.takeTag s _).trans (.takeTag _ _)

theorem takeTags_me (s : State) (rtag atag : BitVec 6) :
    (s.takeTags rtag atag).me = (s.me.startTag rtag.toNat).startTag atag.toNat :=
  (takeTag_me (s.takeTag s.cur rtag.toNat) atag.toNat).trans (congrArg (·.startTag atag.toNat) (takeTag_me s rtag.toNat))

/-- The strand's page once both of its tags are complete. -/
def Strand.bothTags (x : Strand) (rtag atag : BitVec 6) (status : Nat) : Strand :=
  (((x.startTag rtag.toNat).startTag atag.toNat).completeTag rtag.toNat status).completeTag atag.toNat status

theorem tagsAtOnce_eq (s : State) (rtag atag : BitVec 6) (status : Nat) : s.tagsAtOnce rtag atag status =
    (s.takeTags rtag atag).updMe fun x => (x.completeTag rtag.toNat status).completeTag atag.toNat status := by
  have cur : (s.takeTags rtag atag).cur = s.cur := rfl
  have live : hasKey (s.takeTags rtag atag).strands s.cur = true := hasKey_takeTag _ _ _
  have next (f : Strand → Strand) : hasKey ((s.takeTags rtag atag).updStrand s.cur f).strands s.cur = true := by
    simp [State.updStrand, State.setStrand, hasKey_insertAt]
  unfold State.tagsAtOnce
  rw [completeTag_eq live, completeTag_eq (next _), updStrand_updStrand]
  rfl

theorem IssueFrame.tagsAtOnce (s : State) (rtag atag : BitVec 6) (status : Nat) :
    IssueFrame s (s.tagsAtOnce rtag atag status) := by
  rw [tagsAtOnce_eq]
  exact (IssueFrame.takeTags s _ _).trans (.updMe _ _)

theorem tagsAtOnce_me (s : State) (rtag atag : BitVec 6) (status : Nat) :
    (s.tagsAtOnce rtag atag status).me = s.me.bothTags rtag atag status := by
  rw [tagsAtOnce_eq, State.me_updMe, takeTags_me]
  rfl

theorem Strand.tags_bothTags (x : Strand) {rtag atag : BitVec 6} (hr : x.tags.getLsbD rtag.toNat = true)
    (ha : x.tags.getLsbD atag.toNat = true) (status : Nat) : (x.bothTags rtag atag status).tags = x.tags := by
  ext j hj
  rw [← BitVec.getLsbD_eq_getElem, ← BitVec.getLsbD_eq_getElem, bothTags, getLsbD_completeTag _ _ _ atag.isLt,
    getLsbD_completeTag _ _ _ rtag.isLt, getLsbD_startTag _ _ atag.isLt, getLsbD_startTag _ _ rtag.isLt]
  split
  · next e => rw [e, ha]
  · split
    · next e => rw [e, hr]
    · rfl

theorem Strand.tstat_bothTags (x : Strand) (rtag atag : BitVec 6) (status : Nat) :
    (x.bothTags rtag atag status).tstat.toList.getD rtag.toNat 0#9 = BitVec.ofNat 9 (status % 256) ∧
    (x.bothTags rtag atag status).tstat.toList.getD atag.toNat 0#9 = BitVec.ofNat 9 (status % 256) := by
  simp only [bothTags, tstat_completeTag _ _ _ atag.isLt, tstat_completeTag _ _ _ rtag.isLt, if_true, ite_self, and_self]

/-- The operation that enters an engine. -/
def State.enteredOp (s : State) (id : Nat) (kind : EngineKind) (scope : BitVec 3) (rtag atag : BitVec 6) : EngineOp :=
  { kind := kind, strand := s.cur, tenant := s.me.owner.toNat, core := s.me.core, scope := scope
    rtag := rtag, atag := atag, released := false, buffer := [], btags := [], written := false
    status := 0#8, failAt := 0, awaiting := [], answered := [], denied := []
    region := s.me.region, sbOp := id, ended := 0#8 }

theorem startOp_findOp (s : State) (id : Nat) (kind : EngineKind) (scope : BitVec 3) (rtag atag : BitVec 6) :
    (s.startOp id kind scope rtag atag).findOp id = some (s.enteredOp id kind scope rtag atag) := by
  unfold State.findOp State.startOp
  rw [find?_insertAt]
  rfl

theorem enteredOp_congr {s t : State} (cur : t.cur = s.cur) (owner : t.me.owner = s.me.owner) (core : t.me.core = s.me.core)
    (region : t.me.region = s.me.region) (id : Nat) (kind : EngineKind) (scope : BitVec 3) (rtag atag : BitVec 6) :
    t.enteredOp id kind scope rtag atag = s.enteredOp id kind scope rtag atag := by
  simp only [State.enteredOp, cur, owner, core, region]

section
variable (s : State) (kind : EngineKind) (scope : BitVec 3) (rtag atag : BitVec 6) (reads writes : List Nat)

theorem IssueFrame.entriesTaken : IssueFrame s (s.entriesTaken rtag atag reads writes) :=
  (IssueFrame.of_eq (s := s) (t := s.fresh.2) rfl rfl rfl rfl rfl rfl).trans ((IssueFrame.boardAdd _ _ _ _ _ _).trans
    ((IssueFrame.boardAdd _ _ _ _ _ _).trans (.takeTags _ _ _)))

theorem entriesTaken_me : (s.entriesTaken rtag atag reads writes).me =
    (s.me.startTag rtag.toNat).startTag atag.toNat := by
  rw [State.entriesTaken, takeTags_me, boardAdd_me, boardAdd_me]
  rfl

theorem IssueFrame.startOp {s t : State} (h : IssueFrame s t) {id : Nat} {kind : EngineKind} {scope : BitVec 3}
    {rtag atag : BitVec 6} : IssueFrame s (t.startOp id kind scope rtag atag) :=
  h.trans (.of_eq rfl rfl rfl rfl rfl rfl)

theorem startOp_me (t : State) (id : Nat) : (t.startOp id kind scope rtag atag).me = t.me := rfl

theorem entered_me : (s.entered kind scope rtag atag reads writes).me =
    (s.me.startTag rtag.toNat).startTag atag.toNat := by
  rw [State.entered, startOp_me, entriesTaken_me]

theorem IssueFrame.entered : IssueFrame s (s.entered kind scope rtag atag reads writes) :=
  (IssueFrame.entriesTaken s rtag atag reads writes).startOp

theorem entered_findOp : (s.entered kind scope rtag atag reads writes).findOp s.nextId =
    some (s.enteredOp s.nextId kind scope rtag atag) := by
  have me := entriesTaken_me s rtag atag reads writes
  rw [State.entered, startOp_findOp, enteredOp_congr (IssueFrame.entriesTaken s rtag atag reads writes).cur
    (by rw [me]; rfl) (by rw [me]; rfl) (by rw [me]; rfl)]

end

/-- The two tags an operation has taken are pending, every other one is as it was. -/
theorem Strand.tags_startTags (x : Strand) (rtag atag : BitVec 6) (j : Nat) :
    ((x.startTag rtag.toNat).startTag atag.toNat).tags.getLsbD j =
      if j = atag.toNat ∨ j = rtag.toNat then false else x.tags.getLsbD j := by
  rw [getLsbD_startTag _ _ atag.isLt, getLsbD_startTag _ _ rtag.isLt]
  by_cases ha : j = atag.toNat
  · simp [ha]
  · simp [ha]

/-! How an issue retires. -/

/-- A strand's page with nothing changed but its tags, its checkpoint, its binding and the sequences of its groups. -/
def Strand.IssuedTo (x y : Strand) : Prop :=
  y = { x with tags := y.tags, tstat := y.tstat, ckpt := y.ckpt, bound := y.bound, lastColl := y.lastColl }

theorem Strand.IssuedTo.trans {x y z : Strand} (h : x.IssuedTo y) (k : y.IssuedTo z) : x.IssuedTo z := by
  unfold IssuedTo at k ⊢
  rw [h] at k
  exact k

theorem Strand.IssuedTo.bound (x : Strand) (b : Option Nat) : x.IssuedTo { x with bound := b } := rfl

theorem Strand.IssuedTo.startTag {x y : Strand} (h : x.IssuedTo y) (t : Nat) : x.IssuedTo (y.startTag t) := h.trans rfl

theorem Strand.IssuedTo.completeTag {x y : Strand} (h : x.IssuedTo y) (t status : Nat) :
    x.IssuedTo (y.completeTag t status) := h.trans rfl

/-- An issue that has left a page retires: what it shows, and what it leaves alone. -/
structure IssueRetires (s t : State) (y : Strand) : Prop where
  retired : RetiredAt s t s.npc
  sreg    : ∀ r, t.sreg r = s.sreg r
  vreg    : ∀ r, t.me.vreg r = s.me.vreg r
  settled : t.me.settled = y.settled
  tags    : t.me.tags = y.tags
  tstat   : t.me.tstat = y.tstat
  ckpt    : t.me.ckpt = y.ckpt
  bound   : t.me.bound = y.bound
  colls   : t.me.lastColl = y.lastColl
  rest    : t.me.settled = { s.me.settled with tags := t.me.tags, tstat := t.me.tstat, ckpt := t.me.ckpt
                                               bound := t.me.bound, lastColl := t.me.lastColl }
  others  : ∀ n, n ≠ s.cur → t.strand n = s.strand n
  mem     : t.mem = s.mem
  mtags   : t.mtags = s.mtags
  spad    : ∀ c, (t.core c).spad = (s.core c).spad

theorem issueRetires {s u : State} {y : Strand} (frame : IssueFrame s u) (me : u.me = y) (page : s.me.IssuedTo y) :
    IssueRetires s u.retire y := by
  have retire : IssueFrame s u.retire := frame.trans (.updMe _ _)
  have page' : u.retire.me = y.retire s.npc := by rw [State.retire, State.me_updMe, me, frame.npc]
  have settled : u.retire.me.settled = y.settled := by rw [page', Strand.retire_settled]
  have shown {α : Type} (f : Strand → α) (blind : ∀ x : Strand, f x.settled = f x) : f u.retire.me = f y := by
    rw [← blind, settled, blind]
  refine ⟨retiredAt_of_me page' ?_ ?_ ?_ ?_, fun r => ?_, fun r => ?_, settled, shown Strand.tags fun _ => rfl,
    shown Strand.tstat fun _ => rfl, shown Strand.ckpt fun _ => rfl, shown Strand.bound fun _ => rfl,
    shown Strand.lastColl fun _ => rfl, ?_, retire.others, retire.mem, retire.mtags, retire.spad⟩
  · rw [page]
  · rw [page]
  · rw [page]
  · rw [page]
  · rw [State.sreg, page', Strand.retire_sreg, page]
    rfl
  · rw [← show u.retire.me.settled.vreg r = u.retire.me.vreg r from rfl, settled, page]
    rfl
  · rw [shown Strand.tags fun _ => rfl, shown Strand.tstat fun _ => rfl, shown Strand.ckpt fun _ => rfl,
      shown Strand.bound fun _ => rfl, shown Strand.lastColl fun _ => rfl, settled]
    exact congrArg Strand.settled page

/-! The obligation's three forms of issue. -/

section
variable {s : State} {split : Option (Nat × Nat)} {dsp ssp : BitVec 2} {ra rb rc : SReg} {rtag atag : BitVec 6}
  {scope : BitVec 3}

/-- The checks of a scratchpad end are the same once the strand is bound to its core. -/
theorem endOk_bindEnds {space : BitVec 2} {l : List Word}
    (h : space ≠ 0#2 → ∀ a ∈ l, s.spadCheck s.me.owner.toNat s.me.core (space == 2#2) a.toNat = none) :
    (s.bindEnds dsp ssp).endOk space l = .ok () := by
  obtain ⟨b, me, core⟩ := bindEnds_me s dsp ssp
  have tenant (t : Nat) : (s.bindEnds dsp ssp).tenant t = s.tenant t := by
    have tenants := congrArg State.tenants (bindEnds_rest s dsp ssp)
    exact congrArg (lookupD · t Tenant.empty) tenants
  refine endOk_of_checks fun remote a ha => ?_
  have same : (s.bindEnds dsp ssp).spadCheck s.me.owner.toNat s.me.core (space == 2#2) a.toNat =
      s.spadCheck s.me.owner.toNat s.me.core (space == 2#2) a.toNat := by
    simp only [State.spadCheck, tenant]
  rw [core, me, same]
  exact h remote a ha

theorem sreg_bindEnds (r : SReg) : (s.bindEnds dsp ssp).sreg r = s.sreg r := by
  obtain ⟨b, me, -⟩ := bindEnds_me s dsp ssp
  rw [State.sreg, me]
  rfl

theorem copyOperands_bindEnds : (s.bindEnds dsp ssp).copyOperands dsp ssp ra rb rc split =
    s.copyOperands dsp ssp ra rb rc split := by
  simp only [State.copyOperands, sreg_bindEnds]

/-- A copy that passes its checks, from the state in which it issues. -/
theorem copy_bound (low : (s.sreg ra).toNat % 2 ^ 24 = 0)
    (records : ∀ f w, split = some (f, w) → (s.sreg ra).toNat / 2 ^ 24 % 2 ^ 24 % (f * w) = 0)
    (distinct : rtag ≠ atag) (rfree : s.me.tags.getLsbD rtag.toNat = true) (afree : s.me.tags.getLsbD atag.toNat = true)
    (checks : ∀ p ∈ (s.copyOperands dsp ssp ra rb rc split).pairs,
      (dsp ≠ 0#2 → s.spadCheck s.me.owner.toNat s.me.core (dsp == 2#2) p.1.toNat = none) ∧
      (ssp ≠ 0#2 → s.spadCheck s.me.owner.toNat s.me.core (ssp == 2#2) p.2.toNat = none))
    (room : s.boardRoom 2) :
    (((s.sreg ra).toNat / 2 ^ 48 = 0 ∨ (s.sreg ra).toNat / 2 ^ 24 % 2 ^ 24 = 0) →
      (s.bindEnds dsp ssp).copy split scope dsp ssp ra rb rc rtag atag =
        .ok ((s.bindEnds dsp ssp).tagsAtOnce rtag atag 0).retire) ∧
    (¬ ((s.sreg ra).toNat / 2 ^ 48 = 0 ∨ (s.sreg ra).toNat / 2 ^ 24 % 2 ^ 24 = 0) → ∃ reads writes,
      (s.bindEnds dsp ssp).copy split scope dsp ssp ra rb rc rtag atag =
        .ok ((s.bindEnds dsp ssp).entered (.copy (s.copyOperands dsp ssp ra rb rc split)) scope rtag atag reads
          writes).retire) := by
  obtain ⟨b, me, core⟩ := bindEnds_me s dsp ssp
  have dsts : (s.bindEnds dsp ssp).endOk dsp ((s.copyOperands dsp ssp ra rb rc split).pairs.map (·.1)) = .ok () :=
    endOk_bindEnds fun remote a ha => by
      obtain ⟨p, hp, rfl⟩ := List.mem_map.1 ha
      exact (checks p hp).1 remote
  have srcs : (s.bindEnds dsp ssp).endOk ssp ((s.copyOperands dsp ssp ra rb rc split).pairs.map (·.2)) = .ok () :=
    endOk_bindEnds fun remote a ha => by
      obtain ⟨p, hp, rfl⟩ := List.mem_map.1 ha
      exact (checks p hp).2 remote
  have checked := copy_checked (s := s.bindEnds dsp ssp) (scope := scope) (by rw [sreg_bindEnds]; exact low)
    (by rw [sreg_bindEnds]; exact records) distinct (by rw [me]; exact rfree) (by rw [me]; exact afree)
    (by rw [copyOperands_bindEnds]; exact dsts) (by rw [copyOperands_bindEnds]; exact srcs)
  simp only [sreg_bindEnds, copyOperands_bindEnds] at checked
  refine ⟨fun empty => by rw [checked, if_pos empty], fun bytes => ⟨_, _,
    (checked.trans (if_neg bytes)).trans (fresh_boardEnds (bindEnds_boardRoom room dsp ssp) _ _ _)⟩⟩

end

/-! Collectives (R240). -/

theorem toNat_count (q : Word) : (q.extractLsb' 0 32).toNat = q.toNat % 2 ^ 32 := by
  simp [BitVec.extractLsb'_toNat]

theorem toNat_sequence (q : Word) : (BitVec.ofNat 32 (q.toNat / 2 ^ 32)).toNat = q.toNat / 2 ^ 32 := by
  rw [BitVec.toNat_ofNat]
  omega

theorem sequence_eq (q : Word) : q.extractLsb' 32 32 = BitVec.ofNat 32 (q.toNat / 2 ^ 32) := by
  apply BitVec.eq_of_toNat_eq
  rw [toNat_sequence, BitVec.extractLsb'_toNat, Nat.shiftRight_eq_div_pow]
  omega

theorem bind_of_ok {ε α β : Type} {r : Except ε α} {a : α} {f : α → Except ε β} (h : r = .ok a) : (r >>= f) = f a := by
  rw [h, ok_bind]

/-- A group that members are named for, none of them lost. -/
def Group.gather (ms : List Member) (g : Group) : Group :=
  { g with members := (g.members ++ ms).eraseDups, ended := false }

/-- The sequence of a key that a strand has issued last. -/
def Strand.noteColl (x : Strand) (key : Nat) (seq : BitVec 32) : Strand :=
  { x with lastColl := insertAt x.lastColl key seq }

/-- A collective with its entries, its tags and its group. -/
def State.collNoted (s : State) (key : Nat) (seq : BitVec 32) (ms : List Member) (rtag atag : BitVec 6)
    (reads writes : List Nat) : State :=
  ((s.entriesTaken rtag atag reads writes).updGroup key (Group.gather ms)).updMe (·.noteColl key seq)

/-- A collective with its place in the engine. -/
def State.collEntered (s : State) (kind : EngineKind) (key : Nat) (seq : BitVec 32) (ms : List Member)
    (scope : BitVec 3) (rtag atag : BitVec 6) (reads writes : List Nat) : State :=
  (s.collNoted key seq ms rtag atag reads writes).startOp s.nextId kind scope rtag atag

section
variable {s : State} {op : BitVec 3} {fmt : BitVec 4} {dsp ssp : BitVec 2} {ra rb rc : SReg} {rtag atag : BitVec 6}
  {scope : BitVec 3}

/-- What a collective does in its engine. -/
def State.collKind (s : State) (op : BitVec 3) (fmt : BitVec 4) (dsp ssp : BitVec 2) (ra rb rc : SReg) (d : List Byte) :
    EngineKind :=
  .coll (descWord d 0) (BitVec.ofNat 32 ((s.sreg ra).toNat / 2 ^ 32)) op.toNat fmt.toNat ((s.sreg ra).toNat % 2 ^ 32)
    (s.sreg rb) (s.sreg rc) dsp ssp d

/-- A collective whose checks pass, of a group that has lost nobody, enters its engine. -/
theorem coll_checked {head body : List Byte} (some : 1 ≤ (s.sreg ra).toNat % 2 ^ 32)
    (few : (s.sreg ra).toNat % 2 ^ 32 ≤ 2 ^ 20) (aligned : (s.sreg (ra + 1#5)).toNat % 64 = 0)
    (first : s.readWords (s.sreg (ra + 1#5)) 8 = .ok (head, s))
    (rest : s.readWords (s.sreg (ra + 1#5) + 64#64) (2 * ((descWord head 8).toNat % 512)) = .ok (body, s))
    (formed : descriptorOk (head ++ body) = true) (mine : ∃ m ∈ membersOf (head ++ body), s.participates s.cur m = true)
    (later : hasKey s.me.lastColl (descWord (head ++ body) 0).toNat = true →
      (lookupD s.me.lastColl (descWord (head ++ body) 0).toNat 0#32).toNat < (s.sreg ra).toNat / 2 ^ 32)
    (dst : (s.sreg rb).toNat % collWidth fmt.toNat = 0) (src : (s.sreg rc).toNat % collWidth fmt.toNat = 0)
    (distinct : rtag ≠ atag) (rfree : s.me.tags.getLsbD rtag.toNat = true) (afree : s.me.tags.getLsbD atag.toNat = true)
    (dsts : s.endOk dsp ((s.collKind op fmt dsp ssp ra rb rc (head ++ body)).args.pairs.map (·.1)) = .ok ())
    (srcs : s.endOk ssp ((s.collKind op fmt dsp ssp ra rb rc (head ++ body)).args.pairs.map (·.2)) = .ok ())
    (room : s.boardRoom 2)
    (whole : s.groupEnded (descWord (head ++ body) 0).toNat (membersOf (head ++ body)) = false) :
    s.coll op fmt scope dsp ssp ra rb rc rtag atag =
      .ok (s.collEntered (s.collKind op fmt dsp ssp ra rb rc (head ++ body)) (descWord (head ++ body) 0).toNat
        (BitVec.ofNat 32 ((s.sreg ra).toNat / 2 ^ 32)) (membersOf (head ++ body)) scope rtag atag
        (endBlocks s.me.core ssp ((s.collKind op fmt dsp ssp ra rb rc (head ++ body)).args.pairs.map (·.2)))
        (endBlocks s.me.core dsp ((s.collKind op fmt dsp ssp ra rb rc (head ++ body)).args.pairs.map (·.1)))
        ).dropCheckpoint.retire := by
  have participant : (membersOf (head ++ body)).any (s.participates s.cur) = true := List.any_eq_true.2 mine
  have above : (!hasKey s.me.lastColl (descWord (head ++ body) 0).toNat ||
      decide ((lookupD s.me.lastColl (descWord (head ++ body) 0).toNat 0#32).toNat < (s.sreg ra).toNat / 2 ^ 32)) = true := by
    cases known : hasKey s.me.lastColl (descWord (head ++ body) 0).toNat with
    | false => rfl
    | true => simpa using later known
  have counted : ((s.sreg ra).toNat % 2 ^ 32 ≠ 0 ∧ (s.sreg ra).toNat % 2 ^ 32 ≤ 2 ^ 20) := ⟨by omega, few⟩
  have kind : EngineKind.coll (descWord (head ++ body) 0) (BitVec.ofNat 32 ((s.sreg ra).toNat / 2 ^ 32)) op.toNat fmt.toNat
      ((s.sreg ra).toNat % 2 ^ 32) (s.sreg rb) (s.sreg rc) dsp ssp (head ++ body) =
      s.collKind op fmt dsp ssp ra rb rc (head ++ body) := rfl
  have entries := boardEnds_of_room (s := s.fresh.2) room s.nextId
    (endBlocks s.me.core ssp ((s.collKind op fmt dsp ssp ra rb rc (head ++ body)).args.pairs.map (·.2)))
    (endBlocks s.me.core dsp ((s.collKind op fmt dsp ssp ra rb rc (head ++ body)).args.pairs.map (·.1)))
  unfold State.coll
  simp only [toNat_count, toNat_sequence, decide_eq_true counted, demand_true, ok_bind, decide_eq_true aligned, first, rest,
    formed, participant, Bool.and_self, above, decide_eq_true dst, decide_eq_true src,
    tagsFree_of_complete distinct rfree afree, whole, Bool.false_eq_true, if_false, sequence_eq, kind, dsts, srcs]
  exact bind_of_ok entries

end

section
variable (s : State) (kind : EngineKind) (key : Nat) (seq : BitVec 32) (ms : List Member) (scope : BitVec 3)
  (rtag atag : BitVec 6) (reads writes : List Nat)

theorem IssueFrame.collNoted : IssueFrame s (s.collNoted key seq ms rtag atag reads writes) := by
  have grouped : IssueFrame s ((s.entriesTaken rtag atag reads writes).updGroup key (Group.gather ms)) :=
    (IssueFrame.entriesTaken s rtag atag reads writes).trans (.of_eq rfl rfl rfl rfl rfl rfl)
  exact grouped.trans (.updMe _ _)

/-- The strand's page once a collective has entered. -/
def Strand.collTags (x : Strand) (key : Nat) (seq : BitVec 32) (rtag atag : BitVec 6) : Strand :=
  ((x.startTag rtag.toNat).startTag atag.toNat).noteColl key seq

theorem collNoted_me : (s.collNoted key seq ms rtag atag reads writes).me = s.me.collTags key seq rtag atag := by
  have taken : ((s.entriesTaken rtag atag reads writes).updGroup key (Group.gather ms)).me =
      (s.me.startTag rtag.toNat).startTag atag.toNat := entriesTaken_me s rtag atag reads writes
  rw [State.collNoted, State.me_updMe, taken, Strand.collTags]

theorem IssueFrame.collEntered : IssueFrame s (s.collEntered kind key seq ms scope rtag atag reads writes) :=
  (IssueFrame.collNoted s key seq ms rtag atag reads writes).startOp

theorem collEntered_me : (s.collEntered kind key seq ms scope rtag atag reads writes).me = s.me.collTags key seq rtag atag := by
  rw [State.collEntered, startOp_me, collNoted_me]

theorem collEntered_findOp : (s.collEntered kind key seq ms scope rtag atag reads writes).findOp s.nextId =
    some (s.enteredOp s.nextId kind scope rtag atag) := by
  have me := collNoted_me s key seq ms rtag atag reads writes
  rw [State.collEntered, startOp_findOp, enteredOp_congr (IssueFrame.collNoted s key seq ms rtag atag reads writes).cur
    (by rw [me]; rfl) (by rw [me]; rfl) (by rw [me]; rfl)]

end

/-! Remote reductions (R243). -/

theorem repIndex_eq_replica (p : BitVec 2) (w e : Nat) : repIndex p w e = replica p w e := by
  obtain h | h | h | h : p = 0#2 ∨ p = 1#2 ∨ p = 2#2 ∨ p = 3#2 := by
    revert p
    decide
  all_goals
    subst h
    rfl

section
variable {s : State} {fmt p : BitVec 2} {scope : BitVec 3} {rb rd : SReg} {vc : VReg} {tag : BitVec 6} {k : KReg}

/-- The elements a reduction carries, each with its value. -/
def State.rredValues (s : State) (fmt : BitVec 2) (vc : VReg) (p : BitVec 2) (k : KReg) : Table (BitVec 32) :=
  (s.actives k).map fun e =>
    (e, ((element (s.me.vreg vc) (rredBits fmt) (replica p (rredBits fmt) e) : BitVec (rredBits fmt))).setWidth 32)

/-- A reduction whose checks pass. -/
theorem rred_checked (start : s.me.vstart = 0#32) (fits : p = 3#2 → s.me.mvl ≠ 256#16)
    (width : 8 * 2 ^ s.me.sew.toNat = rredBits fmt) (low : -64 ≤ (s.sreg rd).toInt) (high : (s.sreg rd).toInt ≤ 63)
    (whole : fmt = 3#2 → (s.sreg rd).toInt = 0) (aligned : (s.sreg rb).toNat % (rredBits fmt / 8) = 0)
    (free : s.me.tags.getLsbD tag.toNat = true) (clean : vc.toNat ∉ s.me.poisonV) :
    s.rred fmt scope rb vc rd tag p k = .ok
      (if s.actives k = [] then (s.fresh.2.takeTag s.cur tag.toNat).completeTag s.cur tag.toNat 0
       else (s.fresh.2.takeTag s.cur tag.toNat).startOp s.nextId
        (.rred fmt (s.sreg rb) (s.sreg rd).toInt (s.rredValues fmt vc p k)) scope tag tag).dropCheckpoint.retire := by
  have replicates : (!(p == 3#2 && s.me.mvl == 256#16)) = true := by
    by_cases h : p = 3#2
    · simp [h, fits h]
    · simp [h]
  have wide : s.me.width = rredBits fmt := width
  have scaled : (decide (-64 ≤ (s.sreg rd).toInt ∧ (s.sreg rd).toInt ≤ 63) && (fmt != 3#2 || (s.sreg rd).toInt == 0)) = true := by
    by_cases h : fmt = 3#2
    · simp [h, whole h]
    · simp [h, low, high]
  have values : (s.me.activeElems k).map (fun e =>
      (e, (repElement (s.me.vreg vc) p (rredBits fmt) e : BitVec (rredBits fmt)).setWidth 32)) = s.rredValues fmt vc p k := by
    simp only [repElement, repIndex_eq_replica]
    rfl
  unfold State.rred
  simp only [start, beq_self_eq_true, demand_true, ok_bind, replicates, wide, decide_true, scaled, decide_eq_true aligned,
    Strand.pending, free, Bool.not_true, Bool.not_false, List.contains_eq_mem, decide_eq_false clean, Bool.or_true, values]
  have dst : (s.fresh.2.takeTag s.fresh.2.cur tag.toNat).sreg rb = s.sreg rb := by
    rw [State.sreg, takeTag_me]
    rfl
  rw [dst]
  by_cases none : s.actives k = []
  · have empty : (s.rredValues fmt vc p k).isEmpty = true := by simp [State.rredValues, none]
    rw [if_pos empty, if_pos none]
    rfl
  · have filled : ¬ (s.rredValues fmt vc p k).isEmpty = true := by simp [State.rredValues, none]
    rw [if_neg filled, if_neg none]
    rfl

theorem IssueFrame.freshTag (s : State) (t : Nat) : IssueFrame s (s.fresh.2.takeTag s.cur t) :=
  (IssueFrame.of_eq (s := s) (t := s.fresh.2) rfl rfl rfl rfl rfl rfl).trans (.takeTag _ _)

theorem freshTag_me (s : State) (t : Nat) : (s.fresh.2.takeTag s.cur t).me = s.me.startTag t := takeTag_me s.fresh.2 t

theorem freshTag_completeTag (s : State) (t status : Nat) : (s.fresh.2.takeTag s.cur t).completeTag s.cur t status =
    (s.fresh.2.takeTag s.cur t).updMe fun x => x.completeTag t status := completeTag_eq (hasKey_takeTag _ _ _) _ _

theorem freshTag_findOp (s : State) (kind : EngineKind) (scope : BitVec 3) (tag : BitVec 6) :
    ((s.fresh.2.takeTag s.cur tag.toNat).startOp s.nextId kind scope tag tag).findOp s.nextId =
      some (s.enteredOp s.nextId kind scope tag tag) := by
  have me := freshTag_me s tag.toNat
  rw [startOp_findOp, enteredOp_congr (IssueFrame.freshTag s tag.toNat).cur (by rw [me]; rfl) (by rw [me]; rfl)
    (by rw [me]; rfl)]

end

/-- Dropping the checkpoint before retiring. -/
theorem dropCheckpoint_me (s : State) : s.dropCheckpoint.me = { s.me with ckpt := { s.me.ckpt with valid := false } } :=
  State.me_updMe s _

theorem IssueFrame.dropCheckpoint {s t : State} (h : IssueFrame s t) : IssueFrame s t.dropCheckpoint := h.trans (.updMe _ _)

/-- A copy that passes its checks retires with its tags complete when it has no bytes, and in its engine otherwise. -/
theorem copy_completes {s : State} {i : Instr} {split : Option (Nat × Nat)} {dsp ssp : BitVec 2} {ra rb rc : SReg}
    {rtag atag : BitVec 6} {scope : BitVec 3}
    {mask : BitVec 3}
    (run : exec i s = finish (s.bindEnds dsp ssp) mask
      ((s.bindEnds dsp ssp).copy split scope dsp ssp ra rb rc rtag atag))
    (low : (s.sreg ra).toNat % 2 ^ 24 = 0)
    (records : ∀ f w, split = some (f, w) → (s.sreg ra).toNat / 2 ^ 24 % 2 ^ 24 % (f * w) = 0)
    (distinct : rtag ≠ atag) (rfree : s.me.tags.getLsbD rtag.toNat = true) (afree : s.me.tags.getLsbD atag.toNat = true)
    (checks : ∀ p ∈ (s.copyOperands dsp ssp ra rb rc split).pairs,
      (dsp ≠ 0#2 → s.spadCheck s.me.owner.toNat s.me.core (dsp == 2#2) p.1.toNat = none) ∧
      (ssp ≠ 0#2 → s.spadCheck s.me.owner.toNat s.me.core (ssp == 2#2) p.2.toNat = none))
    (room : s.boardRoom 2) :
    ∃ b, (((s.sreg ra).toNat / 2 ^ 48 = 0 ∨ (s.sreg ra).toNat / 2 ^ 24 % 2 ^ 24 = 0) →
      Completes i s fun t => IssueRetires s t (Strand.bothTags { s.me with bound := b } rtag atag 0)) ∧
    (¬ ((s.sreg ra).toNat / 2 ^ 48 = 0 ∨ (s.sreg ra).toNat / 2 ^ 24 % 2 ^ 24 = 0) →
      Completes i s fun t =>
        IssueRetires s t ((Strand.startTag { s.me with bound := b } rtag.toNat).startTag atag.toNat) ∧
        t.findOp s.nextId =
          some (s.enteredOp s.nextId (.copy (s.copyOperands dsp ssp ra rb rc split)) scope rtag atag)) := by
  obtain ⟨b, me, core⟩ := bindEnds_me s dsp ssp
  obtain ⟨none, bytes⟩ := copy_bound (scope := scope) low records distinct rfree afree checks room
  refine ⟨b, fun h => ⟨_, run.trans (by rw [none h]; rfl), ?_⟩, fun h => ?_⟩
  · exact issueRetires ((IssueFrame.bindEnds s dsp ssp).trans (.tagsAtOnce _ _ _ _)) (by rw [tagsAtOnce_me, me])
      (((((Strand.IssuedTo.bound s.me b).startTag _).startTag _).completeTag _ _).completeTag _ _)
  · obtain ⟨reads, writes, issued⟩ := bytes h
    refine ⟨_, run.trans (by rw [issued]; rfl), ?_, ?_⟩
    · exact issueRetires ((IssueFrame.bindEnds s dsp ssp).trans (.entered _ _ _ _ _ _ _))
        (by rw [entered_me, me]) (((Strand.IssuedTo.bound s.me b).startTag _).startTag _)
    · have found := entered_findOp (s.bindEnds dsp ssp) (.copy (s.copyOperands dsp ssp ra rb rc split)) scope rtag atag
        reads writes
      rw [enteredOp_congr (IssueFrame.bindEnds s dsp ssp).cur (by rw [me]) core (by rw [me]), bindEnds_nextId] at found
      exact found

theorem collKind_bindEnds (s : State) (op : BitVec 3) (fmt : BitVec 4) (dsp ssp : BitVec 2) (ra rb rc : SReg)
    (d : List Byte) : (s.bindEnds dsp ssp).collKind op fmt dsp ssp ra rb rc d = s.collKind op fmt dsp ssp ra rb rc d := by
  simp only [State.collKind, sreg_bindEnds]

/-- The page of a strand that has issued a collective or a reduction: its checkpoint is dropped (R27). -/
def Strand.unckpt (x : Strand) : Strand := { x with ckpt := { x.ckpt with valid := false } }

theorem Strand.IssuedTo.collTags {x y : Strand} (h : x.IssuedTo y) (key : Nat) (seq : BitVec 32) (rtag atag : BitVec 6) :
    x.IssuedTo (y.collTags key seq rtag atag) := ((h.startTag _).startTag _).trans rfl

theorem Strand.IssuedTo.unckpt {x y : Strand} (h : x.IssuedTo y) : x.IssuedTo y.unckpt := h.trans rfl

theorem findOp_retired (t : State) (id : Nat) : t.dropCheckpoint.retire.findOp id = t.findOp id := rfl

/-- A collective that has entered its engine retires. -/
theorem collEntered_retires (s : State) (dsp ssp : BitVec 2) (kind : EngineKind) (key : Nat) (seq : BitVec 32)
    (ms : List Member) (scope : BitVec 3) (rtag atag : BitVec 6) (reads writes : List Nat) :
    ∃ b, IssueRetires s
        ((s.bindEnds dsp ssp).collEntered kind key seq ms scope rtag atag reads writes).dropCheckpoint.retire
        (Strand.collTags { s.me with bound := b } key seq rtag atag).unckpt ∧
      ((s.bindEnds dsp ssp).collEntered kind key seq ms scope rtag atag reads writes).dropCheckpoint.retire.findOp
        s.nextId = some (s.enteredOp s.nextId kind scope rtag atag) := by
  obtain ⟨b, me, core⟩ := bindEnds_me s dsp ssp
  refine ⟨b, issueRetires ((IssueFrame.bindEnds s dsp ssp).trans (.collEntered _ _ _ _ _ _ _ _ _ _)).dropCheckpoint ?_
    ((Strand.IssuedTo.bound s.me b).collTags key seq rtag atag).unckpt, ?_⟩
  · rw [dropCheckpoint_me, collEntered_me, me]
    rfl
  · have found := collEntered_findOp (s.bindEnds dsp ssp) kind key seq ms scope rtag atag reads writes
    rw [enteredOp_congr (IssueFrame.bindEnds s dsp ssp).cur (by rw [me]) core (by rw [me]), bindEnds_nextId] at found
    rw [findOp_retired, found]

/-- A reduction with no element retires with its tag complete. -/
theorem rredAtOnce_retires (s : State) (tag : BitVec 6) :
    IssueRetires s ((s.fresh.2.takeTag s.cur tag.toNat).completeTag s.cur tag.toNat 0).dropCheckpoint.retire
      ((s.me.startTag tag.toNat).completeTag tag.toNat 0).unckpt := by
  rw [freshTag_completeTag]
  refine issueRetires ((IssueFrame.freshTag s tag.toNat).trans (.updMe _ _)).dropCheckpoint ?_
    (((show s.me.IssuedTo s.me from rfl).startTag _).completeTag _ _).unckpt
  rw [dropCheckpoint_me, State.me_updMe, freshTag_me]
  rfl

/-- A reduction in its engine retires. -/
theorem rredEntered_retires (s : State) (kind : EngineKind) (scope : BitVec 3) (tag : BitVec 6) :
    IssueRetires s
      ((s.fresh.2.takeTag s.cur tag.toNat).startOp s.nextId kind scope tag tag).dropCheckpoint.retire
      (s.me.startTag tag.toNat).unckpt := by
  refine issueRetires (IssueFrame.freshTag s tag.toNat).startOp.dropCheckpoint ?_
    ((show s.me.IssuedTo s.me from rfl).startTag _).unckpt
  rw [dropCheckpoint_me, startOp_me, freshTag_me]
  rfl

/-- Settles O42: each of the four instructions, its checks passed, is one update of the issuing strand's tags and one
entry in the table of operations, and then retires. -/
theorem copiesCollectivesAndReductionsStart : Obligations.CopiesCollectivesAndReductionsStart := by
  unfold Obligations.CopiesCollectivesAndReductionsStart
  refine ⟨fun s width fields scope dsp ssp ra rb rc rtag atag => ?_, fun s op scope fmt fmt2 dsp ssp p hint ra rb rc rd vc
    rtag atag k => ⟨?_, ?_⟩⟩
  · intro q z n args frame low distinct rfree afree room i split form checks
    have run : exec i s =
        finish (s.bindEnds dsp ssp) 0#3 ((s.bindEnds dsp ssp).copy split scope dsp ssp ra rb rc rtag atag) := by
      rcases form with ⟨rfl, rfl⟩ | ⟨rfl, rfl, -⟩ <;> rfl
    have records (f w : Nat) (h : split = some (f, w)) : (s.sreg ra).toNat / 2 ^ 24 % 2 ^ 24 % (f * w) = 0 := by
      rcases form with ⟨-, rfl⟩ | ⟨-, rfl, divides⟩
      · cases h
      · cases h
        exact divides
    obtain ⟨b, none, bytes⟩ := copy_completes run low records distinct rfree afree checks room
    refine ⟨fun h => ?_, fun rows each => ?_⟩
    · obtain ⟨t, ran, issued⟩ := none h
      have kept : t.me.tags = s.me.tags := issued.tags.trans (Strand.tags_bothTags { s.me with bound := b } rfree afree 0)
      obtain ⟨rstat, astat⟩ := Strand.tstat_bothTags { s.me with bound := b } rtag atag 0
      refine ⟨t, ran, ⟨issued.retired, issued.sreg, fun i _ _ => by rw [kept], ?_, issued.others, issued.mem, issued.mtags,
        issued.spad⟩, kept, by rw [issued.tstat, rstat], by rw [issued.tstat, astat]⟩
      rw [issued.tags, issued.tstat, issued.bound, issued.settled]
      rfl
    · obtain ⟨t, ran, issued, found⟩ := bytes (not_or.2 ⟨rows, each⟩)
      have pending (j : Nat) : t.me.tags.getLsbD j =
          if j = atag.toNat ∨ j = rtag.toNat then false else s.me.tags.getLsbD j := by
        rw [issued.tags, Strand.tags_startTags]
      refine ⟨t, ran, ⟨issued.retired, issued.sreg, fun i r a => ?_, ?_, issued.others, issued.mem, issued.mtags,
        issued.spad⟩, ?_, ?_, _, found, rfl, rfl, rfl, rfl, rfl, rfl, rfl, rfl, rfl⟩
      · rw [pending, if_neg (by simp [r, a])]
      · rw [issued.tags, issued.tstat, issued.bound, issued.settled]
        rfl
      · rw [pending, if_pos (.inr rfl)]
      · rw [pending, if_pos (.inl rfl)]
  · intro head body s0 d key kind w some few aligned first rest formed mine later dst src distinct rfree afree checks room
      whole
    obtain ⟨b, me, core⟩ := bindEnds_me s dsp ssp
    have same : s0.collKind op fmt dsp ssp ra rb rc d = kind := collKind_bindEnds s op fmt dsp ssp ra rb rc d
    have dsts : s0.endOk dsp (kind.args.pairs.map (·.1)) = .ok () := endOk_bindEnds fun remote a ha => by
      obtain ⟨p, hp, rfl⟩ := List.mem_map.1 ha
      exact (checks p hp).1 remote
    have srcs : s0.endOk ssp (kind.args.pairs.map (·.2)) = .ok () := endOk_bindEnds fun remote a ha => by
      obtain ⟨p, hp, rfl⟩ := List.mem_map.1 ha
      exact (checks p hp).2 remote
    have checked := coll_checked (s := s0) (op := op) (fmt := fmt) (dsp := dsp) (ssp := ssp) (ra := ra) (rb := rb)
      (rc := rc) (rtag := rtag) (atag := atag) (scope := scope) (head := head) (body := body)
      (by rw [sreg_bindEnds]; exact some) (by rw [sreg_bindEnds]; exact few) (by rw [sreg_bindEnds]; exact aligned)
      (by rw [sreg_bindEnds]; exact first) (by rw [sreg_bindEnds]; exact rest) formed
      (by simpa only [s0, participates_bindEnds] using mine) (by rw [me, sreg_bindEnds]; exact later)
      (by rw [sreg_bindEnds]; exact dst) (by rw [sreg_bindEnds]; exact src) distinct (by rw [me]; exact rfree)
      (by rw [me]; exact afree) (by rw [same]; exact dsts) (by rw [same]; exact srcs)
      (bindEnds_boardRoom room dsp ssp) whole
    rw [same, sreg_bindEnds, core] at checked
    obtain ⟨b, issued, found⟩ := collEntered_retires s dsp ssp kind key.toNat (BitVec.ofNat 32 ((s.sreg ra).toNat / 2 ^ 32))
      (membersOf d)
      scope rtag atag (endBlocks s.me.core ssp (kind.args.pairs.map (·.2)))
      (endBlocks s.me.core dsp (kind.args.pairs.map (·.1)))
    have pending (j : Nat) (h : j = atag.toNat ∨ j = rtag.toNat) :=
      issued.tags ▸ (Strand.tags_startTags { s.me with bound := b } rtag atag j).trans (if_pos h)
    refine ⟨_, congrArg (finish s0 _) checked, ⟨issued.retired, issued.sreg, issued.vreg, issued.ckpt, issued.mem,
      issued.mtags, issued.others, issued.rest⟩, pending _ (.inr rfl), pending _ (.inl rfl), ?_, _, found, rfl, rfl, rfl,
      rfl, rfl⟩
    rw [issued.colls]
    exact lookupD_insertAt_self _ _ _ _
  · intro w scale start fits width low high unscaled aligned free clean i
    have checked := rred_checked (s := s) (scope := scope) (k := k) start fits width low high unscaled aligned free clean
    refine ⟨fun none => ?_, fun some => ?_⟩
    · rw [if_pos none] at checked
      have issued := rredAtOnce_retires s atag
      refine ⟨_, congrArg (finish s _) checked, ⟨issued.retired, issued.sreg, issued.vreg, issued.ckpt, issued.mem,
        issued.mtags, issued.others, issued.rest⟩, ?_, ?_⟩
      · exact issued.tags.trans (Strand.tags_completeTag_startTag s.me atag.isLt free 0)
      · rw [issued.tstat]
        exact (Strand.tstat_completeTag _ 0 _ atag.isLt).trans (if_pos rfl)
    · rw [if_neg some] at checked
      have issued := rredEntered_retires s (.rred fmt2 (s.sreg rb) (s.sreg rd).toInt (s.rredValues fmt2 vc p k)) scope atag
      refine ⟨_, congrArg (finish s _) checked, ⟨issued.retired, issued.sreg, issued.vreg, issued.ckpt, issued.mem,
        issued.mtags, issued.others, issued.rest⟩, ?_, _, freshTag_findOp s _ scope atag, rfl, rfl, rfl⟩
      · rw [issued.tags]
        exact (Strand.getLsbD_startTag _ _ atag.isLt).trans (if_pos rfl)

end Sys2Proof.Machine
end

section
/-! The events of the engines (O43; R136, R139, R142, R241 to R243, R279). -/

namespace Sys2Proof.Machine

/-! What the end of an operation leaves alone. -/

/-- Nothing but strands, scoreboards and the table of operations has changed. -/
structure EngineKeeps (s t : State) : Prop where
  mem    : t.mem = s.mem
  mtags  : t.mtags = s.mtags
  mkeys  : t.mkeys = s.mkeys
  tick   : t.tick = s.tick
  groups : t.groups = s.groups
  seals  : t.seals = s.seals
  spad   : ∀ c, (t.core c).spad = (s.core c).spad

theorem EngineKeeps.trans {s t u : State} (h : EngineKeeps s t) (k : EngineKeeps t u) : EngineKeeps s u where
  mem := k.mem.trans h.mem
  mtags := k.mtags.trans h.mtags
  mkeys := k.mkeys.trans h.mkeys
  tick := k.tick.trans h.tick
  groups := k.groups.trans h.groups
  seals := k.seals.trans h.seals
  spad c := (k.spad c).trans (h.spad c)

theorem EngineKeeps.refl (s : State) : EngineKeeps s s := ⟨rfl, rfl, rfl, rfl, rfl, rfl, fun _ => rfl⟩

theorem EngineKeeps.updStrand (s : State) (n : Nat) (f : Strand → Strand) : EngineKeeps s (s.updStrand n f) :=
  ⟨rfl, rfl, rfl, rfl, rfl, rfl, fun _ => rfl⟩

theorem EngineKeeps.updOp (s : State) (id : Nat) (f : EngineOp → EngineOp) : EngineKeeps s (s.updOp id f) :=
  ⟨rfl, rfl, rfl, rfl, rfl, rfl, fun _ => rfl⟩

theorem EngineKeeps.ops (s : State) (l : Table EngineOp) : EngineKeeps s { s with ops := l } :=
  ⟨rfl, rfl, rfl, rfl, rfl, rfl, fun _ => rfl⟩

theorem core_sweepRaces (s : State) (c : Nat) : s.sweepRaces.core c = s.core c := rfl

/-- Entries of a scoreboard retire, and the race records that nothing keeps open go. -/
theorem EngineKeeps.boardSwept (s : State) (c : Nat) (p : SbEntry → Bool) :
    EngineKeeps s (s.updCore c fun x => { x with board := x.board.filter p }).sweepRaces := by
  refine ⟨rfl, rfl, rfl, rfl, rfl, rfl, fun d => ?_⟩
  rw [core_sweepRaces, State.core_updCore]
  split
  · next h => rw [h]
  · rfl

theorem EngineKeeps.completeTag (s : State) (n t status : Nat) : EngineKeeps s (s.completeTag n t status) := by
  unfold State.completeTag
  split
  · exact .updStrand _ _ _
  · exact .refl s

theorem completeTag_ops (s : State) (n t status : Nat) : (s.completeTag n t status).ops = s.ops := by
  unfold State.completeTag
  split <;> rfl

theorem hasKey_completeTag {s : State} {n : Nat} (h : hasKey s.strands n = true) (t status : Nat) :
    hasKey (s.completeTag n t status).strands n = true := by
  simp [completeTag_eq h, State.updStrand, State.setStrand, hasKey_insertAt]

theorem completeTag_strand {s : State} {n : Nat} (h : hasKey s.strands n = true) (t status : Nat) :
    (s.completeTag n t status).strand n = (s.strand n).completeTag t status := by
  rw [completeTag_eq h, State.strand_updStrand_self]

/-! Records left to R281: none by an operation whose strand lives, and none by one that absorbs nothing. -/

theorem leftRecord_none {s : State} {o : EngineOp} (h : (s.strand o.strand).ended = false) : s.leftRecord o = none := by
  unfold State.leftRecord
  split
  · simp [h]
  all_goals rfl

theorem leftRecord_completeTag (s : State) (n t status : Nat) (o : EngineOp) :
    (s.completeTag n t status).leftRecord o = s.leftRecord o := by
  have ended : ((s.completeTag n t status).strand o.strand).ended = (s.strand o.strand).ended := by
    unfold State.completeTag
    split
    · rw [State.strand_updStrand]
      split
      · next h => rw [h]; rfl
      · rfl
    · rfl
  have record (m : Nat) : (s.completeTag n t status).seal m = s.seal m := by
    rw [State.seal, (EngineKeeps.completeTag s n t status).seals, State.seal]
  unfold State.leftRecord
  rw [ended]
  cases o.kind with
  | absorb m src len => simp only [record]
  | copy a => rfl
  | coll key seq op fmt count dst src dsp ssp d => rfl
  | rred fmt dst scale es => rfl

/-- An operation has ended. -/
structure OpEnded (s t : State) (id : Nat) : Prop where
  keeps : EngineKeeps s t
  ops   : t.ops = removeAt s.ops id

theorem OpEnded.findOp {s t : State} {id : Nat} (h : OpEnded s t id) : t.findOp id = none := findOp_of_removeAt h.ops

theorem dropOp_of_none {s : State} {o : EngineOp} (h : s.leftRecord o = none) (id : Nat) :
    s.dropOp id o = (({ s with ops := removeAt s.ops id } : State).boardRetire o.core o.sbOp).sweepRaces := by
  have none : ((({ s with ops := removeAt s.ops id } : State).boardRetire o.core o.sbOp).sweepRaces).leftRecord o = none := h
  unfold State.dropOp
  dsimp only
  rw [none]

theorem dropOp_ended {s : State} {o : EngineOp} (h : s.leftRecord o = none) (id : Nat) :
    OpEnded s (s.dropOp id o) id ∧ (s.dropOp id o).strands = s.strands := by
  rw [dropOp_of_none h]
  exact ⟨⟨(EngineKeeps.ops s _).trans (.boardSwept _ _ _), rfl⟩, rfl⟩

theorem doneOp_ended {s : State} {o : EngineOp} (h : s.leftRecord o = none) (id : Nat) : OpEnded s (s.doneOp id o) id := by
  obtain ⟨⟨keeps, ops⟩, -⟩ := dropOp_ended ((leftRecord_completeTag s o.strand o.atag.toNat 0 o).trans h) id
  exact ⟨(EngineKeeps.completeTag s _ _ _).trans keeps, by rw [← completeTag_ops s o.strand o.atag.toNat 0]; exact ops⟩

theorem failOp_ended {s : State} {o : EngineOp} (h : s.leftRecord o = none) (id status : Nat) :
    OpEnded s (s.failOp id o status) id := by
  let t := s.completeTag o.strand o.rtag.toNat status
  let u := t.completeTag o.strand o.atag.toNat status
  have left : u.leftRecord o = none :=
    (leftRecord_completeTag t _ _ _ o).trans ((leftRecord_completeTag s _ _ _ o).trans h)
  obtain ⟨⟨keeps, ops⟩, -⟩ := dropOp_ended left id
  have same : u.ops = s.ops := (completeTag_ops t _ _ _).trans (completeTag_ops s _ _ _)
  exact ⟨((EngineKeeps.completeTag s _ _ _).trans (.completeTag t _ _ _)).trans keeps, by rw [← same]; exact ops⟩

/-! The tags that complete. -/

/-- A strand's tag is complete with a status (R140). -/
def State.tagShows (t : State) (n i status : Nat) : Prop :=
  (t.strand n).tags.getLsbD i = true ∧ (t.strand n).tstat.toList.getD i 0#9 = BitVec.ofNat 9 status

theorem tagShows_completeTag {s : State} {n i status : Nat} (h : hasKey s.strands n = true) (hi : i < 64)
    (hs : status < 256) : (s.completeTag n i status).tagShows n i status := by
  unfold State.tagShows
  rw [completeTag_strand h, Strand.getLsbD_completeTag _ _ _ hi, Strand.tstat_completeTag _ _ _ hi, if_pos rfl, if_pos rfl,
    Nat.mod_eq_of_lt hs]
  exact ⟨rfl, rfl⟩

/-- A tag completed with a status still shows it once another completes with the same. -/
theorem State.tagShows.completeTag {s : State} {n i j status : Nat} (h : s.tagShows n i status)
    (live : hasKey s.strands n = true) (hj : j < 64) (hs : status < 256) : (s.completeTag n j status).tagShows n i status := by
  unfold State.tagShows at h ⊢
  rw [completeTag_strand live, Strand.getLsbD_completeTag _ _ _ hj, Strand.tstat_completeTag _ _ _ hj, Nat.mod_eq_of_lt hs]
  split
  · exact ⟨rfl, rfl⟩
  · exact h

theorem State.tagShows.of_strands {s t : State} {n i status : Nat} (h : s.tagShows n i status) (e : t.strands = s.strands) :
    t.tagShows n i status := by
  unfold State.tagShows State.strand at h ⊢
  rw [e]
  exact h

section
variable {s : State} {o : EngineOp} (live : hasKey s.strands o.strand = true) (left : s.leftRecord o = none) (id : Nat)

include live left

/-- An operation that has delivered everything completes its arrival tag with 0 (R142). -/
theorem doneOp_tag : (s.doneOp id o).tagShows o.strand o.atag.toNat 0 := by
  obtain ⟨-, strands⟩ := dropOp_ended ((leftRecord_completeTag s o.strand o.atag.toNat 0 o).trans left) id
  exact (tagShows_completeTag live o.atag.isLt (by decide)).of_strands strands

/-- An operation that fails shows its status in both tags (R139). -/
theorem failOp_tags {status : Nat} (hs : status < 256) : (s.failOp id o status).tagShows o.strand o.rtag.toNat status ∧
    (s.failOp id o status).tagShows o.strand o.atag.toNat status := by
  have next := hasKey_completeTag live o.rtag.toNat status
  have left' := (leftRecord_completeTag (s.completeTag o.strand o.rtag.toNat status) o.strand o.atag.toNat status o).trans
    ((leftRecord_completeTag s o.strand o.rtag.toNat status o).trans left)
  obtain ⟨-, strands⟩ := dropOp_ended left' id
  exact ⟨((tagShows_completeTag live o.rtag.isLt hs).completeTag next o.atag.isLt hs).of_strands strands,
    (tagShows_completeTag next o.atag.isLt hs).of_strands strands⟩

end

/-! Ends whose addresses all lead somewhere. -/

/-- Addresses that lead to targets. -/
def goes (l : List (Word × Target)) : List (Word × ByteFate) := l.map fun p => (p.1, .go p.2)

theorem goes_append (l r : List (Word × Target)) : goes l ++ goes r = goes (l ++ r) := List.map_append.symm

theorem goTargets_goes (l : List (Word × Target)) : goTargets (goes l) = l := by
  simp [goTargets, goes, List.filterMap_map]

theorem goes_busy (l : List (Word × Target)) : ((goes l).any fun p => p.2 == .busy) = false := by
  rw [goes, List.any_map, List.any_eq_false]
  intro p _
  simp

theorem gonePages_goes (mask : BitVec 3) (l : List (Word × Target)) : gonePages mask (goes l) = [] := by
  unfold gonePages
  simp [goes]

theorem lowestBad_goes (l : List (Word × Target)) : lowestBad (goes l) = none := by
  simp [lowestBad, goes, List.filterMap_map]

/-- Addresses that each lead to a target of a kind. -/
theorem exists_goes {f : Word → ByteFate} {P : Target → Prop} {l : List Word} (h : ∀ a ∈ l, ∃ x, f a = .go x ∧ P x) :
    ∃ d : List (Word × Target), (l.map fun a => (a, f a)) = goes d ∧ ∀ p ∈ d, P p.2 := by
  induction l with
  | nil => exact ⟨[], rfl, nofun⟩
  | cons a r ih =>
    obtain ⟨d, hd, hp⟩ := ih fun b hb => h b (.tail _ hb)
    obtain ⟨x, hx, px⟩ := h a (.head _)
    exact ⟨(a, x) :: d, by simp [goes, hx, hd], List.forall_mem_cons.2 ⟨px, hp⟩⟩

/-- A target whose page is not race-checked (R183). -/
def Target.unraced (x : Target) : Prop := ∀ pa key, x ≠ .hbm pa key true

theorem raceTarget_unraced {x : Target} (h : x.unraced) (s : State) (n r : Nat) (va : Word) (len : Nat)
    (write atomic : Bool) (op : Option Nat) : s.raceTarget n r va x len write atomic op = .ok s := by
  unfold State.raceTarget
  split
  · next pa key => exact absurd rfl (h pa key)
  · rfl

theorem raceEnds_unraced (s : State) (id : Nat) (o : EngineOp) {l : List (Word × Target)} (h : ∀ p ∈ l, p.2.unraced) :
    s.raceEnds id o l = ([], s) := by
  induction l with
  | nil => rfl
  | cons p r ih =>
    obtain ⟨first, rest⟩ := List.forall_mem_cons.1 h
    rw [State.raceEnds, raceTarget_unraced first]
    exact ih rest

theorem destCause_goes (s : State) (id : Nat) (o : EngineOp) {l : List (Word × Target)} (h : ∀ p ∈ l, p.2.unraced) :
    s.destCause id o (goes l) = none := by
  rw [State.destCause, goTargets_goes, raceEnds_unraced s id o h, List.append_nil, lowestBad_goes]

/-! Reading a source that nothing stands before. -/

theorem vineDrain_quiet {s : State} {c : Nat} (h : (s.chain c).inflight = []) (n : Nat) : s.vineDrain c n = s := by
  rw [State.vineDrain, h]
  rfl

theorem remoteDrain_quiet {s : State} (h : s.remote = []) : s.remoteDrain = s := by
  rw [State.remoteDrain, h]
  change ({ s with remote := [] } : State) = s
  rw [← h]

theorem settleTarget_quiet {s : State} {x : Target} (h : s.quiet x) (n : Nat) : s.settleTarget n x = s := by
  cases x with
  | spad c lane a => rfl
  | hbm pa key raced => rfl
  | vine c off key => exact vineDrain_quiet h n
  | remote pa gen => exact remoteDrain_quiet h.1
  | control pa => rfl
  | window w off => rfl

theorem quiet_unraced {s : State} {x : Target} (h : s.quiet x) : x.unraced := by
  rintro pa key rfl
  exact Bool.noConfusion (show true = false from h)

theorem windowAnswer_quiet {s : State} {x : Target} (h : s.quiet x) (e n : Nat) : s.windowAnswer e x n = 0 := by
  cases x with
  | window w off => exact h.elim
  | _ => rfl

/-- A byte of a source with the tag of its block. -/
def State.sourceByte (s : State) (x : Target) : Byte × Tag := ((s.readTarget x 1).headD 0#8, s.tagTarget x)

theorem readEnds_quiet {s : State} (id : Nat) {o : EngineOp} {l : List (Word × Target)}
    (h : ∀ p ∈ l, s.quiet p.2 ∧ s.poisonedAt (some (dieOfCore o.core)) p.2 1 = false) :
    s.readEnds id o l = (l.map fun p => s.sourceByte p.2, [], s) := by
  induction l with
  | nil => rfl
  | cons p r ih =>
    obtain ⟨va, x⟩ := p
    obtain ⟨⟨quiet, clean⟩, rest⟩ := List.forall_mem_cons.1 h
    have windows : ¬ s.windowAnswer 1 x 2 ≠ 0 := not_not.2 (windowAnswer_quiet quiet 1 2)
    rw [State.readEnds]
    dsimp only
    rw [settleTarget_quiet quiet, raceTarget_unraced (quiet_unraced quiet)]
    dsimp only
    rw [if_neg (by rw [clean]; decide), if_neg windows, ih rest]
    rfl

end Sys2Proof.Machine
end

section
/-! Sources are read: copies and absorbs (O43; R136, R139, R142, R279). -/

namespace Sys2Proof.Machine

theorem findOp_of_ops {s t : State} (h : t.ops = s.ops) (id : Nat) : t.findOp id = s.findOp id := by
  rw [State.findOp, h, State.findOp]

/-- Reading an end leads where the addresses of its fates lead. -/
theorem fates_goes {f : Word → ByteFate} {lead : Word → Target} {l : List (Word × Word)}
    (h : ∀ p ∈ l, f p.2 = .go (lead p.2)) :
    ((l.map (·.2)).map fun va => (va, f va)) = goes (l.map fun p => (p.2, lead p.2)) := by
  rw [goes, List.map_map, List.map_map]
  exact List.map_congr_left fun p hp => by simp [h p hp]

/-- Reading has met no host window. -/
theorem readsWindow_quiet {s : State} (id : Nat) {src : List (Word × Target)} (h : ∀ p ∈ src, s.quiet p.2) :
    s.readsWindow id (goes src) = s := by
  unfold State.readsWindow
  rw [goTargets_goes, if_neg]
  rw [List.any_eq_true]
  rintro ⟨⟨va, x⟩, mem, window⟩
  have quiet := h _ mem
  cases x with
  | window w off => exact quiet
  | _ => cases window

/-! The release of a source. -/

theorem boardRelease_ops (s : State) (o : EngineOp) : (s.boardRelease o).ops = s.ops := rfl

theorem boardRelease_strands (s : State) (o : EngineOp) : (s.boardRelease o).strands = s.strands := rfl

theorem releaseOp_keeps (s : State) (id : Nat) (o : EngineOp) (bytes : List Byte) (tags : List Tag) :
    EngineKeeps s (s.releaseOp id o bytes tags) :=
  ((EngineKeeps.completeTag s _ _ _).trans (.updOp _ _ _)).trans (.boardSwept _ _ _)

theorem releaseOp_findOp {s : State} {id : Nat} {o : EngineOp} (found : s.findOp id = some o) (bytes : List Byte)
    (tags : List Tag) : (s.releaseOp id o bytes tags).findOp id =
      some { o with released := true, buffer := bytes, btags := tags } := by
  have updated := findOp_updOp (s.completeTag o.strand o.rtag.toNat 0) id fun o =>
    { o with released := true, buffer := bytes, btags := tags }
  rw [findOp_of_ops (completeTag_ops s _ _ _), found] at updated
  rw [State.releaseOp, findOp_of_ops (boardRelease_ops _ o), updated, Option.map_some]

theorem releaseOp_tag {s : State} {o : EngineOp} (live : hasKey s.strands o.strand = true) (id : Nat) (bytes : List Byte)
    (tags : List Tag) : (s.releaseOp id o bytes tags).tagShows o.strand o.rtag.toNat 0 := by
  have strands : (s.releaseOp id o bytes tags).strands = (s.completeTag o.strand o.rtag.toNat 0).strands := by
    rw [State.releaseOp, boardRelease_strands]
    rfl
  exact (tagShows_completeTag live o.rtag.isLt (by decide)).of_strands strands

theorem gonePages_nil (mask : BitVec 3) : gonePages mask [] = [] := gonePages_goes mask []

theorem reports_nil (o : EngineOp) : o.reports (mergePages [] []) = [] := by
  unfold EngineOp.reports
  split
  · simp [mergePages]
  · rfl

/-! Copies (R136). -/

section
variable {s : State} {id : Nat} {o : EngineOp}

theorem sourceRead_copy {a : CopyArgs} (kind : o.kind = .copy a) (l : List (Byte × Tag)) :
    ∃ tags, s.sourceRead id o l = s.releaseOp id o (l.map (·.1)) tags := by
  unfold State.sourceRead
  rw [kind]
  exact ⟨_, rfl⟩

/-- A copy's source is read when nothing stands in its way. -/
theorem readSource_copy {a : CopyArgs} {lead : Word → Target} (kind : o.kind = .copy a)
    (going : s.opPaused id o = false) (first : s.boardHeldFor o.core o.sbOp false = false)
    (srcs : ∀ p ∈ a.pairs, s.quiet (lead p.2) ∧ s.poisonedAt (some (dieOfCore o.core)) (lead p.2) 1 = false ∧
      s.endFate o a.sspace (engineAccess true false 1) p.2 = .go (lead p.2))
    (dsts : ∀ p ∈ a.pairs, ∃ x, s.endFate o a.dspace (engineAccess false true 1) p.1 = .go x ∧ x.unraced) :
    s.readSource id o = s.sourceRead id o (a.pairs.map fun p => s.sourceByte (lead p.2)) := by
  let src := a.pairs.map fun p => (p.2, lead p.2)
  have from_ : ((a.pairs.map (·.2)).map fun va => (va, s.endFate o a.sspace (engineAccess true false 1) va)) = goes src :=
    fates_goes fun p hp => (srcs p hp).2.2
  obtain ⟨dst, to_, unraced⟩ := exists_goes (l := a.pairs.map (·.1)) (P := Target.unraced)
    (f := s.endFate o a.dspace (engineAccess false true 1)) fun va hva => by
      obtain ⟨p, hp, rfl⟩ := List.mem_map.1 hva
      exact dsts p hp
  have quiet : ∀ p ∈ src, s.quiet p.2 ∧ s.poisonedAt (some (dieOfCore o.core)) p.2 1 = false := by
    intro p hp
    obtain ⟨q, hq, rfl⟩ := List.mem_map.1 hp
    exact ⟨(srcs q hq).1, (srcs q hq).2.1⟩
  have control : s.collControl o = false := by
    unfold State.collControl
    rw [kind]
  have args : o.kind.args = a := by rw [kind, EngineKind.args]
  unfold State.readSource
  dsimp only
  rw [going, first, control, args, kind, from_]
  dsimp only
  rw [if_pos rfl, to_, goes_append, goes_busy, gonePages_goes, gonePages_goes, reports_nil, goTargets_goes,
    readEnds_quiet id quiet, destCause_goes s id o unraced]
  dsimp only
  rw [List.append_nil, lowestBad_goes]
  dsimp only [Option.or]
  rw [readsWindow_quiet id fun p hp => (quiet p hp).1, List.map_map]
  rfl

end

/-- An operation that nothing stands in the way of (R139). -/
structure OpFree (s : State) (id : Nat) (o : EngineOp) : Prop where
  found   : s.findOp id = some o
  going   : s.opPaused id o = false
  ended   : o.ended = 0#8
  status  : o.status = 0#8
  reads   : s.boardHeldFor o.core o.sbOp false = false
  writes  : s.boardHeldFor o.core o.sbOp true = false
  chain   : s.opInChain id = false
  running : (s.strand o.strand).ended = false
  live    : hasKey s.strands o.strand = true

section
variable {s : State} {id : Nat} {o : EngineOp} (free : OpFree s id o)
include free

/-- A copy's source is read into its buffer, and its release tag completes (R136, R142). -/
theorem copyRelease_reads {a : CopyArgs} {lead : Word → Target} (kind : o.kind = .copy a) (unread : o.released = false)
    (srcs : ∀ p ∈ a.pairs, s.quiet (lead p.2) ∧ s.poisonedAt (some (dieOfCore o.core)) (lead p.2) 1 = false ∧
      s.endFate o a.sspace (engineAccess true false 1) p.2 = .go (lead p.2))
    (dsts : ∀ p ∈ a.pairs, ∃ x, s.endFate o a.dspace (engineAccess false true 1) p.1 = .go x ∧ x.unraced) :
    ∃ tags, s.copyRelease id =
      s.releaseOp id o (a.pairs.map fun p => (s.readTarget (lead p.2) 1).headD 0#8) tags := by
  obtain ⟨tags, read⟩ := sourceRead_copy (s := s) (id := id) kind (a.pairs.map fun p => s.sourceByte (lead p.2))
  refine ⟨tags, ?_⟩
  have whole := readSource_copy kind free.going free.reads srcs dsts
  rw [read, List.map_map] at whole
  unfold State.copyRelease
  rw [free.found]
  dsimp only
  rw [kind, unread, free.ended]
  dsimp only
  rw [if_neg (by decide), if_neg (by decide), whole]
  rfl

/-! Absorbs (R279). -/

/-- An absorb's source is read when nothing stands in its way. -/
theorem readSource_absorb {m n : Nat} {src : Word} {lead : Word → Target} (kind : o.kind = .absorb m src n)
    (srcs : ∀ p ∈ o.kind.args.pairs, s.quiet (lead p.2) ∧
      s.poisonedAt (some (dieOfCore o.core)) (lead p.2) 1 = false ∧
      s.endFate o 0#2 (engineAccess true false 1) p.2 = .go (lead p.2)) :
    s.readSource id o = s.sourceRead id o (o.kind.args.pairs.map fun p => s.sourceByte (lead p.2)) := by
  rw [kind] at srcs ⊢
  let l := (EngineKind.absorb m src n).args.pairs.map fun p => (p.2, lead p.2)
  have from_ : (((EngineKind.absorb m src n).args.pairs.map (·.2)).map fun va =>
      (va, s.endFate o (EngineKind.absorb m src n).args.sspace (engineAccess true false 1) va)) = goes l :=
    fates_goes fun p hp => (srcs p hp).2.2
  have quiet : ∀ p ∈ l, s.quiet p.2 ∧ s.poisonedAt (some (dieOfCore o.core)) p.2 1 = false := by
    intro p hp
    obtain ⟨q, hq, rfl⟩ := List.mem_map.1 hp
    exact ⟨(srcs q hq).1, (srcs q hq).2.1⟩
  have control : s.collControl o = false := by
    unfold State.collControl
    rw [kind]
  have cause : s.destCause id o [] = none := destCause_goes s id o (l := []) nofun
  unfold State.readSource
  dsimp only
  rw [free.going, free.reads, control, kind, from_]
  simp only [Bool.or_self, Bool.false_eq_true, if_false]
  rw [List.nil_append, goes_busy, gonePages_goes, gonePages_nil, reports_nil, goTargets_goes,
    readEnds_quiet id quiet, cause]
  dsimp only
  rw [List.append_nil, lowestBad_goes]
  dsimp only [Option.or]
  rw [readsWindow_quiet id fun p hp => (quiet p hp).1, List.map_map]
  rfl

/-- A record that is open takes the bytes of an absorb (R279). -/
def SealRecord.absorbed (bytes : List Byte) (r : SealRecord) : SealRecord :=
  if r.state = 1#3 ∨ r.state = 2#3 then { r with bytes := r.bytes ++ bytes } else r

/-- An absorb's bytes go to its open record, and its tag completes. -/
theorem absorbDone_reads {m n : Nat} {src : Word} {lead : Word → Target} (kind : o.kind = .absorb m src n)
    (first : ∀ e ∈ s.ops, e.1 < id → ∀ x y, e.2.kind ≠ .absorb m x y)
    (srcs : ∀ p ∈ o.kind.args.pairs, s.quiet (lead p.2) ∧
      s.poisonedAt (some (dieOfCore o.core)) (lead p.2) 1 = false ∧
      s.endFate o 0#2 (engineAccess true false 1) p.2 = .go (lead p.2)) :
    s.absorbDone id = (s.updSeal m (SealRecord.absorbed (o.kind.args.pairs.map fun p =>
      (s.readTarget (lead p.2) 1).headD 0#8))).doneOp id o := by
  have whole := readSource_absorb free kind srcs
  unfold State.absorbDone
  rw [free.found]
  dsimp only
  split
  · next _ k x y h =>
    have same : k = m := by
      rw [kind] at h
      injection h with e
      exact e.symm
    subst same
    rw [free.ended, if_neg (by decide), if_neg, whole]
    · unfold State.sourceRead
      rw [kind]
      dsimp only
      rw [List.map_map]
      rfl
    · rw [List.any_eq_true]
      rintro ⟨e, he, older⟩
      obtain ⟨lt, same⟩ := Bool.and_eq_true_iff.1 older
      split at same
      · next _ j x y h' => exact first e he (of_decide_eq_true lt) x y (by rw [h', beq_iff_eq.1 same])
      · cases same
  · next h => exact absurd kind (h _ _ _)

end

end Sys2Proof.Machine
end

section
/-! Destinations are written (O43; R136, R137, R142). -/

namespace Sys2Proof.Machine

/-! Bytes written one by one. -/

/-- Writes of single bytes to distinct places are read back, and nothing else has changed. -/
theorem foldl_writes {σ ε : Type} {read : σ → Nat → Byte} {step : σ → ε → σ} {place : ε → Nat} {val : ε → Byte}
    {l : List ε} (one : ∀ s e x, e ∈ l → read (step s e) x = if x = place e then val e else read s x) (s : σ) :
    ((l.map place).Nodup → ∀ e ∈ l, read (l.foldl step s) (place e) = val e) ∧
    ∀ x, (∀ e ∈ l, place e ≠ x) → read (l.foldl step s) x = read s x := by
  induction l generalizing s with
  | nil => exact ⟨fun _ => nofun, fun _ _ => rfl⟩
  | cons a r ih =>
    obtain ⟨inside, outside⟩ := ih (fun s e x he => one s e x (.tail _ he)) (step s a)
    refine ⟨fun nodup => ?_, fun x away => ?_⟩
    · obtain ⟨fresh, rest⟩ := List.nodup_cons.1 (List.map_cons ▸ nodup)
      refine List.forall_mem_cons.2 ⟨?_, inside rest⟩
      rw [List.foldl_cons, outside _ fun e he h => fresh (List.mem_map.2 ⟨e, he, h⟩), one s a _ (.head _), if_pos rfl]
    · obtain ⟨first, rest⟩ := List.forall_mem_cons.1 away
      rw [List.foldl_cons, outside x rest, one s a x (.head _), if_neg (Ne.symm first)]

/-- What holds of every step holds of a fold of them. -/
theorem foldl_related {σ ε : Type} {R : σ → σ → Prop} {step : σ → ε → σ} {l : List ε} (refl : ∀ s, R s s)
    (trans : ∀ s t u, R s t → R t u → R s u) (one : ∀ s, ∀ e ∈ l, R s (step s e)) (s : σ) : R s (l.foldl step s) := by
  induction l generalizing s with
  | nil => exact refl s
  | cons a r ih => exact trans _ _ _ (one s a (.head _)) (ih (fun s e he => one s e (.tail _ he)) (step s a))

/-- What writing an end leaves alone. -/
structure WriteKeeps (s t : State) : Prop where
  strands : t.strands = s.strands
  ops     : t.ops = s.ops
  chains  : t.chains = s.chains

theorem WriteKeeps.trans {s t u : State} (h : WriteKeeps s t) (k : WriteKeeps t u) : WriteKeeps s u :=
  ⟨k.strands.trans h.strands, k.ops.trans h.ops, k.chains.trans h.chains⟩

/-! A scratchpad as the destination. -/

/-- A byte written to a scratchpad, with its block's tag. -/
theorem spadWrite_byte (s : State) (n c a : Nat) (va : Word) (b : Byte) (tag : Option Tag) (op : Option Nat) (x : Nat) :
    readByte ((s.writeTarget n va (.spad c false a) [b] tag op).core c).spad x =
      if x = a then b else readByte (s.core c).spad x := by
  have bytes : readByte ((s.spadWrite c false a [b]).core c).spad x = if x = a then b else readByte (s.core c).spad x := by
    simp [State.spadWrite, Core.putBytes, spadOffset]
  unfold State.writeTarget
  cases tag with
  | none => exact bytes
  | some t =>
    dsimp only
    rw [State.spadSetTag, State.core_updCore_self]
    exact bytes

theorem spadWrite_keeps (s : State) (n c a : Nat) (va : Word) (b : Byte) (tag : Option Tag) (op : Option Nat) :
    WriteKeeps s (s.writeTarget n va (.spad c false a) [b] tag op) ∧
      (s.writeTarget n va (.spad c false a) [b] tag op).mem = s.mem := by
  unfold State.writeTarget
  cases tag with
  | none => exact ⟨⟨rfl, rfl, rfl⟩, rfl⟩
  | some t => exact ⟨⟨rfl, rfl, rfl⟩, rfl⟩

/-! HBM as the destination. -/

/-- A byte written to HBM, with its block's tag. -/
theorem hbmWrite_byte (s : State) (n pa key : Nat) (va : Word) (b : Byte) (tag : Option Tag) (op : Option Nat) (x : Nat) :
    (s.writeTarget n va (.hbm pa key false) [b] tag op).hbmByte key x = if x = pa then b else s.hbmByte key x := by
  have stored := hbmWrite_stored s key pa [b]
  have bytes : (s.hbmWrite key pa [b]).hbmByte key x = if x = pa then b else s.hbmByte key x := by
    split
    · next h => exact h ▸ stored.inside 0 (by simp)
    · exact stored.outside x (by simp; omega)
  unfold State.writeTarget
  cases tag with
  | none => exact bytes
  | some t => exact ((hbmSetTag_stored (s.hbmWrite key pa [b]) key pa t).2.1 x).trans bytes

theorem hbmFrame_keeps {s t : State} (h : HbmFrame s t) : WriteKeeps s t ∧ t.cores = s.cores := by
  have strands := congrArg State.strands h.rest
  have ops := congrArg State.ops h.rest
  have chains := congrArg State.chains h.rest
  have cores := congrArg State.cores h.rest
  exact ⟨⟨strands, ops, chains⟩, cores⟩

theorem hbmWrite_keeps (s : State) (n pa key : Nat) (va : Word) (b : Byte) (tag : Option Tag) (op : Option Nat) :
    WriteKeeps s (s.writeTarget n va (.hbm pa key false) [b] tag op) ∧
      (s.writeTarget n va (.hbm pa key false) [b] tag op).cores = s.cores := by
  obtain ⟨keeps, cores⟩ := hbmFrame_keeps (hbmWrite_frame s key pa [b])
  unfold State.writeTarget
  cases tag with
  | none => exact ⟨keeps, cores⟩
  | some t =>
    obtain ⟨-, -, -, rest⟩ := hbmSetTag_stored (s.hbmWrite key pa [b]) key pa t
    have strands := congrArg State.strands rest
    have ops := congrArg State.ops rest
    have chains := congrArg State.chains rest
    have cores' := congrArg State.cores rest
    exact ⟨keeps.trans ⟨strands, ops, chains⟩, cores'.trans cores⟩

/-! A destination's targets with their bytes. -/

section
variable {s : State} {id : Nat} {o : EngineOp}

theorem copyTags_length (s : State) (o : EngineOp) (a : CopyArgs) (heads : List Nat) (vas : List Word) (tags : List Tag) :
    (s.copyTags o a heads vas tags).length = vas.length := by
  induction vas generalizing tags with
  | nil => rfl
  | cons va r ih => exact congrArg (· + 1) (ih _)

/-- The bytes of an end, each with what it goes to and its block's tag. -/
def State.endWrites (s : State) (o : EngineOp) (a : CopyArgs) (dst : List (Word × Target)) :
    List ((Word × Target) × Byte × Option Tag) :=
  dst.zip (o.buffer.zip (s.copyTags o a (((a.pairs.map (·.1)).filter (startsBlock o.core a.dspace)).map fun va =>
    blockPlace o.core a.dspace va / 64) (a.pairs.map (·.1)) o.btags))

theorem endWrites_length {a : CopyArgs} {dst : List (Word × Target)} (size : dst.length = a.pairs.length)
    (bytes : o.buffer.length = a.pairs.length) : (s.endWrites o a dst).length = a.pairs.length := by
  simp [State.endWrites, copyTags_length, size, bytes]

theorem endWrites_get {a : CopyArgs} {dst : List (Word × Target)} {i : Nat} (h : i < (s.endWrites o a dst).length)
    (hd : i < dst.length) : ((s.endWrites o a dst)[i]).1 = dst[i] ∧ ((s.endWrites o a dst)[i]).2.1 = o.buffer.getD i 0#8 := by
  have hb : i < o.buffer.length := by
    simp only [State.endWrites, List.length_zip] at h
    omega
  simp [State.endWrites, List.getD_eq_getElem?_getD, hb]

variable (free : OpFree s id o)
include free

/-- A copy whose destination leads to targets writes them. -/
theorem copyArrival_writes {a : CopyArgs} {dst : List (Word × Target)} (kind : o.kind = .copy a) (read : o.released = true)
    (unwritten : o.written = false) (filled : o.buffer ≠ [])
    (fates : ((a.pairs.map (·.1)).map fun va => (va, s.endFate o a.dspace (engineAccess false true 1) va)) = goes dst)
    (unraced : ∀ p ∈ dst, p.2.unraced) :
    s.copyArrival id = ((s.writeEnds id o (s.endWrites o a dst)).updOp id fun o => { o with written := true }).settleOp id := by
  have buffered : o.buffer.isEmpty = false := by simpa using filled
  have reports : o.reports [] = [] := by
    unfold EngineOp.reports
    split <;> rfl
  have args : o.kind.args = a := by rw [kind, EngineKind.args]
  unfold State.copyArrival
  rw [free.found]
  dsimp only
  rw [kind, read, buffered, free.ended, unwritten]
  dsimp only
  rw [if_neg (by decide), if_neg (by decide), if_neg (by decide)]
  unfold State.writeDest
  dsimp only
  rw [free.going, free.writes, args, fates, goes_busy, gonePages_goes, reports, destCause_goes s id o unraced, goTargets_goes,
    raceEnds_unraced s id o unraced]
  rfl

/-- What is written without a chain has arrived everywhere. -/
theorem settleOp_done {t : State} (keeps : WriteKeeps s t) :
    (t.updOp id fun o => { o with written := true }).settleOp id =
      (t.updOp id fun o => { o with written := true }).doneOp id { o with written := true } := by
  have found : (t.updOp id fun o => { o with written := true }).findOp id = some { o with written := true } := by
    rw [findOp_updOp, findOp_of_ops keeps.ops, free.found, Option.map_some]
  have chain : (t.updOp id fun o => { o with written := true }).opInChain id = false := by
    have same : t.opInChain id = s.opInChain id := by rw [State.opInChain, keeps.chains, State.opInChain]
    exact same.trans free.chain
  unfold State.settleOp
  rw [found]
  dsimp only
  rw [chain, free.status]
  rfl

/-- The arrival of a copy: its tag completes, it leaves the table, and what else is seen is what the writes left. -/
theorem copyArrival_done {a : CopyArgs} {dst : List (Word × Target)} (kind : o.kind = .copy a) (read : o.released = true)
    (unwritten : o.written = false) (filled : o.buffer ≠ [])
    (fates : ((a.pairs.map (·.1)).map fun va => (va, s.endFate o a.dspace (engineAccess false true 1) va)) = goes dst)
    (unraced : ∀ p ∈ dst, p.2.unraced) (keeps : WriteKeeps s (s.writeEnds id o (s.endWrites o a dst))) :
    (s.copyArrival id).tagShows o.strand o.atag.toNat 0 ∧ (s.copyArrival id).findOp id = none ∧
      EngineKeeps (s.writeEnds id o (s.endWrites o a dst)) (s.copyArrival id) := by
  rw [copyArrival_writes free kind read unwritten filled fates unraced, settleOp_done free keeps]
  generalize s.writeEnds id o (s.endWrites o a dst) = t at keeps ⊢
  have live : hasKey (t.updOp id fun o => { o with written := true }).strands o.strand = true := by
    rw [show (t.updOp id fun o => { o with written := true }).strands = s.strands from keeps.strands]
    exact free.live
  have left : (t.updOp id fun o => { o with written := true }).leftRecord { o with written := true } = none := by
    unfold State.leftRecord
    rw [kind]
  have ended := doneOp_ended left id
  exact ⟨doneOp_tag (o := { o with written := true }) live left id, ended.findOp, (EngineKeeps.updOp t _ _).trans ended.keeps⟩

end

/-! What the writes of an end leave. -/

/-- Where a target lies in its memory. -/
def Target.place : Target → Nat
  | .hbm pa _ _ => pa
  | .spad _ _ a => a
  | .control _ | .window _ _ | .remote _ _ | .vine _ _ _ => 0

section
variable {s : State} {id : Nat} {o : EngineOp} {a : CopyArgs} {dst : List (Word × Target)}
  (size : dst.length = a.pairs.length) (bytes : o.buffer.length = a.pairs.length)
include size bytes

theorem endWrites_fst : (s.endWrites o a dst).map (·.1) = dst :=
  List.map_fst_zip (by simp [copyTags_length, size, bytes])

theorem endWrites_mem {e : (Word × Target) × Byte × Option Tag} (h : e ∈ s.endWrites o a dst) : e.1 ∈ dst := by
  have fst := endWrites_fst (s := s) size bytes
  exact fst ▸ List.mem_map_of_mem (f := (·.1)) h

theorem writeEnds_read {read : State → Nat → Byte}
    (one : ∀ u va x b tag y, (va, x) ∈ dst → read (u.opWrite id o va x [b] tag) y = if y = x.place then b else read u y) :
    ((dst.map (·.2.place)).Nodup → ∀ i, (h : i < dst.length) →
      read (s.writeEnds id o (s.endWrites o a dst)) (dst[i]).2.place = o.buffer.getD i 0#8) ∧
    ∀ x, (∀ p ∈ dst, p.2.place ≠ x) → read (s.writeEnds id o (s.endWrites o a dst)) x = read s x := by
  have places : (s.endWrites o a dst).map (·.1.2.place) = dst.map (·.2.place) := by
    have fst := congrArg (List.map (·.2.place)) (endWrites_fst (s := s) size bytes)
    rwa [List.map_map] at fst
  obtain ⟨inside, outside⟩ := foldl_writes (read := read) (l := s.endWrites o a dst) (place := (·.1.2.place))
    (val := (·.2.1)) (step := fun s p => s.opWrite id o p.1.1 p.1.2 [p.2.1] p.2.2)
    (fun u e x he => one u _ _ _ _ x (endWrites_mem size bytes he)) s
  refine ⟨fun nodup i h => ?_, fun x away => outside x fun e he => away _ (endWrites_mem size bytes he)⟩
  have there : i < (s.endWrites o a dst).length := by
    rw [endWrites_length size bytes]
    omega
  obtain ⟨target, byte⟩ := endWrites_get there h
  rw [← byte, ← target]
  exact inside (places ▸ nodup) _ (List.getElem_mem there)

theorem writeEnds_related {R : State → State → Prop} (refl : ∀ s, R s s) (trans : ∀ s t u, R s t → R t u → R s u)
    (one : ∀ u va x b tag, (va, x) ∈ dst → R u (u.opWrite id o va x [b] tag)) :
    R s (s.writeEnds id o (s.endWrites o a dst)) :=
  foldl_related refl trans (fun u _ he => one u _ _ _ _ (endWrites_mem size bytes he)) s

end

/-! The two destinations of a copy. -/

section
variable {s : State} {id : Nat} {o : EngineOp} (free : OpFree s id o) {a : CopyArgs} (kind : o.kind = .copy a)
  (read : o.released = true) (unwritten : o.written = false) (filled : o.buffer ≠ [])
  (bytes : o.buffer.length = a.pairs.length)
include free kind read unwritten filled bytes

/-- A copy into the own core's scratchpad arrives. -/
theorem copyArrival_spad (space : a.dspace = 1#2) (nodup : (a.pairs.map fun p => p.1.toNat).Nodup)
    (fates : ∀ p ∈ a.pairs, s.endFate o 1#2 (engineAccess false true 1) p.1 = .go (.spad o.core false p.1.toNat)) :
    (s.copyArrival id).tagShows o.strand o.atag.toNat 0 ∧ (s.copyArrival id).findOp id = none ∧
      (s.copyArrival id).mem = s.mem ∧
      (∀ i, (h : i < a.pairs.length) →
        readByte ((s.copyArrival id).core o.core).spad (a.pairs[i]).1.toNat = o.buffer.getD i 0#8) ∧
      ∀ x, (∀ p ∈ a.pairs, p.1.toNat ≠ x) →
        readByte ((s.copyArrival id).core o.core).spad x = readByte (s.core o.core).spad x := by
  let dst : List (Word × Target) := a.pairs.map fun p => (p.1, .spad o.core false p.1.toNat)
  have size : dst.length = a.pairs.length := List.length_map _
  have targets {va : Word} {x : Target} (hx : (va, x) ∈ dst) : x = .spad o.core false x.place := by
    obtain ⟨q, -, e⟩ := List.mem_map.1 hx
    obtain ⟨-, rfl⟩ := Prod.mk.inj e
    rfl
  have reach : ((a.pairs.map (·.1)).map fun va => (va, s.endFate o a.dspace (engineAccess false true 1) va)) = goes dst := by
    rw [space, goes, List.map_map, List.map_map]
    exact List.map_congr_left fun p hp => by simp [fates p hp]
  obtain ⟨inside, outside⟩ := writeEnds_read (s := s) (id := id) (dst := dst) size bytes
    (read := fun u x => readByte (u.core o.core).spad x) fun u va x b tag y hx => by
      rw [targets hx]
      exact spadWrite_byte u o.strand o.core x.place va b tag (some id) y
  have kept : WriteKeeps s (s.writeEnds id o (s.endWrites o a dst)) ∧
      (s.writeEnds id o (s.endWrites o a dst)).mem = s.mem :=
    writeEnds_related (R := fun s t => WriteKeeps s t ∧ t.mem = s.mem) size bytes (fun _ => ⟨⟨rfl, rfl, rfl⟩, rfl⟩)
      (fun _ _ _ h k => ⟨h.1.trans k.1, k.2.trans h.2⟩) fun u va x b tag hx => by
        rw [targets hx]
        exact spadWrite_keeps u o.strand o.core x.place va b tag (some id)
  obtain ⟨keeps, mem⟩ := kept
  obtain ⟨tag, gone, after⟩ := copyArrival_done free kind read unwritten filled reach
    (fun p hp pa key h => by rw [targets hp] at h; cases h) keeps
  have places : dst.map (·.2.place) = a.pairs.map fun p => p.1.toNat := List.map_map
  refine ⟨tag, gone, after.mem.trans mem, fun i h => ?_, fun x away => ?_⟩
  · have written := inside (places ▸ nodup) i (size ▸ h)
    rw [show dst[i].2.place = (a.pairs[i]).1.toNat by simp [dst, Target.place]] at written
    rw [after.spad, ← written]
  · rw [after.spad]
    refine outside x fun p hp => ?_
    obtain ⟨q, hq, rfl⟩ := List.mem_map.1 hp
    exact away q hq

/-- A copy into HBM arrives. -/
theorem copyArrival_hbm {pa : Nat → Nat} {key : Nat} (space : a.dspace = 0#2)
    (nodup : ((List.range a.pairs.length).map pa).Nodup)
    (fates : ∀ i, (h : i < a.pairs.length) →
      s.endFate o 0#2 (engineAccess false true 1) (a.pairs[i]).1 = .go (.hbm (pa i) key false)) :
    (s.copyArrival id).tagShows o.strand o.atag.toNat 0 ∧ (s.copyArrival id).findOp id = none ∧
      (∀ c, ((s.copyArrival id).core c).spad = (s.core c).spad) ∧
      (∀ i, i < a.pairs.length → (s.copyArrival id).hbmByte key (pa i) = o.buffer.getD i 0#8) ∧
      ∀ x, (∀ i, i < a.pairs.length → pa i ≠ x) → (s.copyArrival id).hbmByte key x = s.hbmByte key x := by
  let dst : List (Word × Target) := a.pairs.mapIdx fun i p => (p.1, .hbm (pa i) key false)
  have size : dst.length = a.pairs.length := List.length_mapIdx
  have targets {va : Word} {x : Target} (hx : (va, x) ∈ dst) : x = .hbm x.place key false := by
    obtain ⟨i, hi, e⟩ := List.mem_mapIdx.1 hx
    obtain ⟨-, rfl⟩ := Prod.mk.inj e
    rfl
  have reach : ((a.pairs.map (·.1)).map fun va => (va, s.endFate o a.dspace (engineAccess false true 1) va)) = goes dst := by
    rw [space]
    refine List.ext_getElem (by simp [goes, size]) fun i hi _ => ?_
    have hi' : i < a.pairs.length := by simpa using hi
    simp [goes, dst, fates i hi']
  obtain ⟨inside, outside⟩ := writeEnds_read (s := s) (id := id) (dst := dst) size bytes
    (read := fun u x => u.hbmByte key x) fun u va x b tag y hx => by
      rw [targets hx]
      exact hbmWrite_byte u o.strand x.place key va b tag (some id) y
  have kept : WriteKeeps s (s.writeEnds id o (s.endWrites o a dst)) ∧
      (s.writeEnds id o (s.endWrites o a dst)).cores = s.cores :=
    writeEnds_related (R := fun s t => WriteKeeps s t ∧ t.cores = s.cores) size bytes (fun _ => ⟨⟨rfl, rfl, rfl⟩, rfl⟩)
      (fun _ _ _ h k => ⟨h.1.trans k.1, k.2.trans h.2⟩) fun u va x b tag hx => by
        rw [targets hx]
        exact hbmWrite_keeps u o.strand x.place key va b tag (some id)
  obtain ⟨keeps, cores⟩ := kept
  obtain ⟨tag, gone, after⟩ := copyArrival_done free kind read unwritten filled reach
    (fun p hp pa key h => by rw [targets hp] at h; cases h) keeps
  have places : dst.map (·.2.place) = (List.range a.pairs.length).map pa :=
    List.ext_getElem (by simp [size]) fun i _ _ => by simp [dst, Target.place]
  have same (x : Nat) : (s.copyArrival id).hbmByte key x = (s.writeEnds id o (s.endWrites o a dst)).hbmByte key x :=
    hbmByte_congr after.mem after.mkeys after.tick key x
  refine ⟨tag, gone, fun c => ?_, fun i h => ?_, fun x away => ?_⟩
  · rw [after.spad, State.core, cores, State.core]
  · have written := inside (places ▸ nodup) i (size ▸ h)
    rw [show dst[i].2.place = pa i by simp [dst, Target.place]] at written
    rw [same, written]
  · rw [same]
    refine outside x fun p hp => ?_
    obtain ⟨i, hi, rfl⟩ := List.mem_mapIdx.1 hp
    exact away i hi

end

end Sys2Proof.Machine
end

section
/-! Elements of a remote reduction (O43; R243). -/

namespace Sys2Proof.Machine

theorem rredBits_bytes (fmt : BitVec 2) : rredBits fmt / 8 = if fmt = 0#2 ∨ fmt = 3#2 then 4 else 2 := by
  unfold rredBits
  split <;> rfl

/-- A reduction without one of its elements. -/
def EngineOp.withoutElem (o : EngineOp) (e : Nat) : EngineOp :=
  { o with kind := match o.kind with
             | .rred f d x es => .rred f d x (removeAt es e)
             | k => k }

/-- A reduction that has no element left ends with the status met so far. -/
def State.rredClose (s : State) (id : Nat) : State :=
  match s.findOp id with
  | some o => match o.kind with
    | .rred _ _ _ [] => s.failOp id o o.status.toNat
    | _ => s
  | none => s

/-- An element that has been added leaves its operation. -/
theorem rredEnd_none (s : State) (id e : Nat) : s.rredEnd id e none = (s.updOp id (·.withoutElem e)).rredClose id := by
  unfold State.rredEnd
  simp only [Option.isSome_none, Bool.false_eq_true, false_and, if_false]
  rfl

section
variable {s : State} {id e : Nat} {o : EngineOp} {fmt : BitVec 2} {dst : Word} {scale : Int} {es : Table (BitVec 32)}

theorem rredClose_last (found : s.findOp id = some o) (kind : o.kind = .rred fmt dst scale []) :
    s.rredClose id = s.failOp id o o.status.toNat := by
  unfold State.rredClose
  rw [found]
  dsimp only
  rw [kind]

theorem rredClose_more (found : s.findOp id = some o) (kind : o.kind = .rred fmt dst scale es) (more : es ≠ []) :
    s.rredClose id = s := by
  unfold State.rredClose
  rw [found]
  dsimp only
  split
  · next h =>
    rw [kind] at h
    injection h with _ _ _ none
    exact absurd none more
  · rfl

theorem withoutElem_kind (kind : o.kind = .rred fmt dst scale es) :
    (o.withoutElem e).kind = .rred fmt dst scale (removeAt es e) := by
  unfold EngineOp.withoutElem
  rw [kind]

/-- An element is added at its home in HBM. -/
theorem rredAdd_hbm {pa key : Nat} (free : OpFree s id o) (kind : o.kind = .rred fmt dst scale es)
    (waiting : hasKey es e = true)
    (fate : s.endFate o 0#2 (engineAccess true true (rredBits fmt / 8)) (dst + BitVec.ofNat 64 (e * (rredBits fmt / 8))) =
      .go (.hbm pa key false))
    (clean : s.poisonedAt none (.hbm pa key false) (rredBits fmt / 8) = false)
    (data : ∀ i ∈ es, s.meetsControl o.tenant (dst + BitVec.ofNat 64 (i.1 * (rredBits fmt / 8))) = false) :
    s.rredAdd id e = (s.hbmWrite key pa (bytesOf (rredBits fmt / 8) (rredNew fmt scale
      (natOfBytes (s.hbmRead key pa (rredBits fmt / 8))) (lookupD es e 0#32).toNat))).rredEnd id e none := by
  have control : (es.any fun i => s.meetsControl o.tenant (dst + BitVec.ofNat 64 (i.1 * (rredBits fmt / 8)))) = false := by
    rw [List.any_eq_false]
    intro i hi
    rw [data i hi]
    decide
  unfold State.rredAdd
  rw [free.found]
  dsimp only
  rw [kind]
  dsimp only
  rw [free.ended, free.going, waiting, control, fate]
  dsimp only [State.settleTarget, State.raceTarget]
  rw [clean]
  rfl

/-- The operation's own facts once a byte of HBM has been written and an element is gone. -/
theorem added_facts (free : OpFree s id o) (key pa : Nat) (bytes : List Byte) :
    ((s.hbmWrite key pa bytes).updOp id (·.withoutElem e)).findOp id = some (o.withoutElem e) ∧
      hasKey ((s.hbmWrite key pa bytes).updOp id (·.withoutElem e)).strands o.strand = true := by
  obtain ⟨keeps, -⟩ := hbmFrame_keeps (hbmWrite_frame s key pa bytes)
  refine ⟨by rw [findOp_updOp, findOp_of_ops keeps.ops, free.found, Option.map_some], ?_⟩
  rw [show ((s.hbmWrite key pa bytes).updOp id (·.withoutElem e)).strands = s.strands from keeps.strands]
  exact free.live

theorem HbmStored.kept {t u : State} {key pa : Nat} {l : List Byte} (h : HbmStored s t key pa l) (k : EngineKeeps t u) :
    HbmStored s u key pa l := h.of_eq rfl rfl rfl rfl k.mem k.mtags k.mkeys k.tick

/-- The last element of a reduction ends it. -/
theorem rredEnd_last (free : OpFree s id o) (kind : o.kind = .rred fmt dst scale es) (last : removeAt es e = [])
    (key pa : Nat) (bytes : List Byte) :
    HbmStored s ((s.hbmWrite key pa bytes).rredEnd id e none) key pa bytes ∧
      ((s.hbmWrite key pa bytes).rredEnd id e none).tagShows o.strand o.rtag.toNat 0 ∧
      ((s.hbmWrite key pa bytes).rredEnd id e none).tagShows o.strand o.atag.toNat 0 ∧
      ((s.hbmWrite key pa bytes).rredEnd id e none).findOp id = none := by
  obtain ⟨found, live⟩ := added_facts (e := e) free key pa bytes
  have kind' := withoutElem_kind (e := e) kind
  have status : (o.withoutElem e).status.toNat = 0 := congrArg BitVec.toNat free.status
  have stored : HbmStored s ((s.hbmWrite key pa bytes).updOp id (·.withoutElem e)) key pa bytes :=
    (hbmWrite_stored s key pa bytes).kept (.updOp _ _ _)
  rw [rredEnd_none, rredClose_last found (last ▸ kind'), status]
  generalize (s.hbmWrite key pa bytes).updOp id (·.withoutElem e) = u at live stored ⊢
  have left : u.leftRecord (o.withoutElem e) = none := by
    unfold State.leftRecord
    rw [kind']
  have ended := failOp_ended left id 0
  obtain ⟨rtag, atag⟩ := failOp_tags (o := o.withoutElem e) live left id (status := 0) (by decide)
  exact ⟨stored.kept ended.keeps, rtag, atag, ended.findOp⟩

/-- A reduction with elements left goes on. -/
theorem rredEnd_more (free : OpFree s id o) (kind : o.kind = .rred fmt dst scale es) (more : removeAt es e ≠ [])
    (key pa : Nat) (bytes : List Byte) :
    HbmStored s ((s.hbmWrite key pa bytes).rredEnd id e none) key pa bytes ∧
      ((s.hbmWrite key pa bytes).rredEnd id e none).findOp id = some (o.withoutElem e) := by
  obtain ⟨found, -⟩ := added_facts (e := e) free key pa bytes
  rw [rredEnd_none, rredClose_more found (withoutElem_kind kind) more]
  exact ⟨(hbmWrite_stored s key pa bytes).kept (.updOp _ _ _), found⟩

end

end Sys2Proof.Machine
end

section
/-! Results of collectives and lost sequences (O43; R241, R242). -/

namespace Sys2Proof.Machine

/-! Numbers as bytes. -/

theorem bytesOf_length (n v : Nat) : (bytesOf n v).length = n := by
  induction n generalizing v with
  | zero => rfl
  | succ n ih => rw [bytesOf, List.length_cons, ih]

theorem natOfBytes_bytesOf (n v : Nat) : natOfBytes (bytesOf n v) = v % 2 ^ (8 * n) := by
  induction n generalizing v with
  | zero => rw [bytesOf, natOfBytes, Nat.mul_zero, Nat.pow_zero, Nat.mod_one]
  | succ n ih =>
    rw [bytesOf, natOfBytes, ih, BitVec.toNat_ofNat, show 8 * (n + 1) = 8 + 8 * n by omega, Nat.pow_add, Nat.mod_mul]

/-- One of the equally long pieces that a list is made of. -/
theorem piece_flatMap {α β : Type} {f : α → List β} {w : Nat} (size : ∀ a, (f a).length = w) (l : List α) {j : Nat}
    (h : j < l.length) : ((l.flatMap f).drop (w * j)).take w = f l[j] := by
  induction l generalizing j with
  | nil => cases h
  | cons a r ih =>
    cases j with
    | zero => simp [size]
    | succ i =>
      have rest := ih (j := i) (by simpa using h)
      rw [List.flatMap_cons, List.drop_append, size, List.drop_eq_nil_of_le (by rw [size]; exact Nat.le_mul_of_pos_right w (by omega)),
        List.nil_append, show w * (i + 1) - w = w * i by rw [Nat.mul_succ, Nat.add_sub_cancel]]
      exact rest

/-- A sum of words is the sum of the words' values (R241). -/
theorem toNat_ofInt_sum {w : Nat} (l : List Nat) :
    (BitVec.ofInt w (l.map fun x => (BitVec.ofNat w x).toInt).sum).toNat = l.sum % 2 ^ w := by
  have step : BitVec.ofInt w (l.map fun x => (BitVec.ofNat w x).toInt).sum = BitVec.ofNat w l.sum := by
    induction l with
    | nil => rfl
    | cons x r ih =>
      rw [List.map_cons, List.sum_cons, List.sum_cons, BitVec.ofInt_add, ih, BitVec.ofInt_toInt, BitVec.ofNat_add]
  rw [step, BitVec.toNat_ofNat]

/-- An element of a sum of 32-bit integers (R241). -/
theorem collResult_sum {count j : Nat} (cs : List Contribution) (h : j < count) :
    natOfBytes (((collResult 0 4 count cs).drop (4 * j)).take 4) =
      (cs.map fun x => natOfBytes ((x.bytes.drop (4 * j)).take 4)).sum % 2 ^ 32 := by
  have width : collWidth 4 = 4 := rfl
  have piece := piece_flatMap (w := 4) (l := List.range count) (j := j)
    (f := fun i => bytesOf 4 (collElem 0 4 (cs.map fun c => natOfBytes ((c.bytes.drop (4 * i)).take 4))))
    (fun _ => bytesOf_length 4 _) (by simpa using h)
  rw [List.getElem_range] at piece
  unfold collResult
  dsimp only
  rw [width, piece, natOfBytes_bytesOf]
  unfold collElem
  simp only [le_refl, if_true, List.map_map]
  have sum := toNat_ofInt_sum (w := 32) (cs.map fun c => natOfBytes ((c.bytes.drop (4 * j)).take 4))
  rw [List.map_map] at sum
  exact (congrArg (· % 2 ^ 32) sum).trans (Nat.mod_mod _ _)

/-! A result is delivered (R241). -/

section
variable {s : State} {key : Word} {seq : BitVec 32} {c : Contribution} {r : List Contribution}

/-- A group whose sequence has its result. -/
def Group.resolved (seq : BitVec 32) (g : Group) : Group :=
  { g with contribs := g.contribs.filter fun c => c.seq != seq, results := g.results ++ [(seq, 0#8, [])] }

/-- The operations of a sequence take its result. -/
def State.resultTo (s : State) (ids : List Nat) (out : List Byte) : State :=
  { s with ops := mapTable s.ops fun i o => if ids.contains i then { o with buffer := out } else o }

/-- The root forms the result once every participant has contributed alike. -/
theorem collDeliver_result (contribs : (s.group key.toNat).contribs.filter (fun x => x.seq == seq) = c :: r)
    (kept : seq ∉ (s.group key.toNat).lostSeqs) (new : ∀ x ∈ (s.group key.toNat).results, x.1 ≠ seq)
    (all : participantsOf c.digest ≤ r.length + 1)
    (alike : ∀ x ∈ r, x.op = c.op ∧ x.fmt = c.fmt ∧ x.count = c.count ∧ x.digest = c.digest) :
    s.collDeliver key seq = (s.updGroup key.toNat (Group.resolved seq)).resultTo ((s.collOps key seq).map (·.1))
      (collResult c.op c.fmt c.count (c :: r)) := by
  have whole : ((s.group key.toNat).lostSeqs.contains seq ||
      (s.group key.toNat).results.any fun x => x.1 == seq) = false := by
    rw [Bool.or_eq_false_iff, List.any_eq_false]
    exact ⟨by simpa using kept, fun x hx => by simpa using new x hx⟩
  have same : (r.any fun d => d.op != c.op || d.fmt != c.fmt || d.count != c.count || d.digest != c.digest) = false := by
    rw [List.any_eq_false]
    intro x hx
    obtain ⟨op, fmt, count, digest⟩ := alike x hx
    simp [op, fmt, count, digest]
  unfold State.collDeliver
  dsimp only
  rw [contribs]
  dsimp only
  rw [whole, same, if_neg (by decide), if_neg (by decide), if_neg (by rw [List.length_cons]; omega)]
  rfl

theorem resultTo_findOp {ids : List Nat} {out : List Byte} {id : Nat} {o : EngineOp} (found : s.findOp id = some o)
    (mine : id ∈ ids) : (s.resultTo ids out).findOp id = some { o with buffer := out } := by
  rw [findOp_mapTable (s := s) (f := fun i o => if ids.contains i then { o with buffer := out } else o) rfl, found]
  simp [mine]

theorem mem_collOps {id : Nat} {o : EngineOp} (found : s.findOp id = some o) (read : o.released = true)
    {op fmt count : Nat} {dst src : Word} {dsp ssp : BitVec 2} {d : List Byte}
    (kind : o.kind = .coll key seq op fmt count dst src dsp ssp d) : (id, o) ∈ s.collOps key seq := by
  unfold State.collOps
  rw [List.mem_filter]
  refine ⟨findOp_eq_some found, ?_⟩
  simp [read, kind]

end

/-! Lost sequences (R242). -/

/-- Operations whose numbers fail a test have left the table, and memory is as before. -/
structure OpsDropped (s t : State) (keep : Nat → Bool) : Prop where
  ops : t.ops = s.ops.filter fun e => keep e.1
  mem : t.mem = s.mem

theorem OpsDropped.trans {s t u : State} {p q : Nat → Bool} (h : OpsDropped s t p) (k : OpsDropped t u q) :
    OpsDropped s u fun i => p i && q i := by
  refine ⟨?_, k.mem.trans h.mem⟩
  rw [k.ops, h.ops, List.filter_filter]
  exact List.filter_congr fun e _ => Bool.and_comm _ _

/-- An operation that the test drops is not found; one that it keeps is still in the table. -/
theorem OpsDropped.findOp_none {s t : State} {p : Nat → Bool} (h : OpsDropped s t p) {id : Nat} (hp : p id = false) :
    t.findOp id = none := by
  unfold State.findOp
  rw [h.ops, Option.map_eq_none_iff, List.find?_eq_none]
  intro e he same
  have kept := (List.mem_filter.1 he).2
  rw [beq_iff_eq.1 same, hp] at kept
  cases kept

theorem collOps_left {s u : State} {key : Word} {seq : BitVec 32} {e : Nat × EngineOp} (h : e ∈ s.collOps key seq) :
    u.leftRecord e.2 = none := by
  have mine := (List.mem_filter.1 h).2
  unfold State.leftRecord
  split
  · next kind =>
    rw [kind] at mine
    simp at mine
  all_goals rfl

/-- Operations that leave no record behind leave the table together. -/
theorem foldl_failOp_drops (status : Nat × EngineOp → Nat) (l : List (Nat × EngineOp))
    (left : ∀ e ∈ l, ∀ u : State, u.leftRecord e.2 = none) (s : State) : ∃ p,
    OpsDropped s (l.foldl (fun s e => s.failOp e.1 e.2 (status e)) s) p ∧ ∀ e ∈ l, p e.1 = false := by
  induction l generalizing s with
  | nil => exact ⟨fun _ => true, ⟨by simp, rfl⟩, nofun⟩
  | cons e r ih =>
    obtain ⟨first, rest⟩ := List.forall_mem_cons.1 left
    have ended := failOp_ended (first s) e.1 (status e)
    have one : OpsDropped s _ fun i => i != e.1 := ⟨ended.ops.trans (removeAt_eq_filter _ _), ended.keeps.mem⟩
    obtain ⟨p, dropped, gone⟩ := ih rest (s.failOp e.1 e.2 (status e))
    exact ⟨_, one.trans dropped, List.forall_mem_cons.2 ⟨by simp, fun x hx => by simp [gone x hx]⟩⟩

/-- Every operation that has contributed to a sequence leaves the table. -/
theorem failColl_drops (s : State) (key : Word) (seq : BitVec 32) (status : Nat) : ∃ p,
    OpsDropped s (s.failColl key seq status) p ∧ ∀ e ∈ s.collOps key seq, p e.1 = false :=
  foldl_failOp_drops _ _ (fun _ he _ => collOps_left he) s

/-- An operation of a lost sequence leaves the table, if an earlier sequence has not taken it along. -/
theorem failColls_drop (s : State) (key : Word) (status : Nat) (lost : List (BitVec 32)) : ∃ p,
    OpsDropped s (lost.foldl (fun s q => s.failColl key q status) s) p ∧
      ∀ seq ∈ lost, ∀ e ∈ s.collOps key seq, p e.1 = false := by
  induction lost generalizing s with
  | nil => exact ⟨fun _ => true, ⟨by simp, rfl⟩, nofun⟩
  | cons q r ih =>
    obtain ⟨p, first, gone⟩ := failColl_drops s key q status
    obtain ⟨p', rest, gone'⟩ := ih (s.failColl key q status)
    refine ⟨_, first.trans rest, List.forall_mem_cons.2 ⟨fun e he => by simp [gone e he], fun seq hseq e he => ?_⟩⟩
    cases kept : p e.1 with
    | false => rfl
    | true =>
      obtain ⟨mem, mine⟩ := List.mem_filter.1 he
      have still : e ∈ (s.failColl key q status).collOps key seq :=
        List.mem_filter.2 ⟨by rw [first.ops]; exact List.mem_filter.2 ⟨mem, kept⟩, mine⟩
      rw [gone' seq hseq e still]
      rfl

/-- The lost sequences' contributions are dropped with their operations. -/
theorem collLost_drops (s : State) (key : Word) : (s.collLost key).mem = s.mem ∧
    ∀ seq ∈ (s.group key.toNat).lostSeqs, (∀ e ∈ s.collOps key seq, (s.collLost key).findOp e.1 = none) ∧
      ∀ x ∈ ((s.collLost key).group key.toNat).contribs, x.seq ≠ seq := by
  obtain ⟨p, dropped, gone⟩ := failColls_drop s key kPeerLost (s.group key.toNat).lostSeqs
  unfold State.collLost
  dsimp only
  refine ⟨dropped.mem, fun seq lost => ⟨fun e he => dropped.findOp_none (gone seq lost e he), fun x hx => ?_⟩⟩
  rw [State.group_updGroup_self] at hx
  have kept := (List.mem_filter.1 hx).2
  rintro rfl
  simp [lost] at kept

/-- A lost sequence that one operation has contributed to fails it. -/
theorem collLost_one {s : State} {id : Nat} {o : EngineOp} {key : Word} {seq : BitVec 32} (free : OpFree s id o)
    (lost : (s.group key.toNat).lostSeqs = [seq]) (one : s.collOps key seq = [(id, o)]) :
    (s.collLost key).tagShows o.strand o.rtag.toNat kPeerLost ∧
      (s.collLost key).tagShows o.strand o.atag.toNat kPeerLost := by
  obtain ⟨rtag, atag⟩ := failOp_tags free.live (leftRecord_none free.running) id (status := kPeerLost) (by decide)
  unfold State.collLost State.failColl
  dsimp only
  rw [lost]
  dsimp only [List.foldl]
  rw [one]
  dsimp only [List.foldl]
  rw [free.ended, if_pos rfl]
  exact ⟨rtag.of_strands rfl, atag.of_strands rfl⟩

/-- The sum of an integer reduction wraps at 32 bits (R243). -/
theorem rredNew_cases (fmt : BitVec 2) (scale : Int) (old v : Nat) :
    (if fmt = 3#2 then (old + v) % 2 ^ 32 else rredNew fmt scale old v) = rredNew fmt scale old v := by
  split
  · next h => rw [rredNew, if_pos h]
  · rfl

/-- Settles O43: each event is one of the lemmas of its engine, under the facts that leave its operation free. -/
theorem engineEvents : Obligations.EngineEvents := by
  unfold Obligations.EngineEvents
  intro s id o w tag unhindered found facts
  obtain ⟨going, ended, -, status, reads, writes, chain, running, live⟩ := facts
  have free : OpFree s id o := ⟨found, going, ended, status, reads, writes, chain, running, live⟩
  refine ⟨?_, ?_, ?_, ?_, ?_, ?_, ?_⟩
  · intro a lead kind unread ends
    obtain ⟨tags, read⟩ := copyRelease_reads free kind unread
      (fun p hp => have ⟨quiet, clean, leads, _⟩ := ends p hp; ⟨quiet, clean, leads⟩)
      (fun p hp => have ⟨_, _, _, there⟩ := ends p hp; there)
    have keeps := releaseOp_keeps s id o (a.pairs.map fun p => (s.readTarget (lead p.2) 1).headD 0#8) tags
    exact ⟨_, congrArg Host.Outcome.next read, releaseOp_tag live id _ tags, keeps.mem, keeps.spad, _,
      releaseOp_findOp found _ tags, rfl, rfl, rfl⟩
  · intro a kind read unwritten filled bytes
    exact ⟨fun space nodup fates => ⟨_, rfl, copyArrival_spad free kind read unwritten filled bytes space nodup fates⟩,
      fun pa key space nodup fates => ⟨_, rfl, copyArrival_hbm free kind read unwritten filled bytes space nodup fates⟩⟩
  · intro fmt dst scale es e pa key kind waiting v n fate clean data old stored
    have size : rredBits fmt / 8 = n := rredBits_bytes fmt
    have run := rredAdd_hbm free kind waiting (by rw [size]; exact fate) (by rw [size]; exact clean)
      (by rw [size]; exact data)
    rw [size, ← rredNew_cases] at run
    refine ⟨fun last => ⟨_, congrArg Host.Outcome.next run, rredEnd_last free kind last key pa _⟩, fun more => ?_⟩
    obtain ⟨held, left⟩ := rredEnd_more free kind more key pa (bytesOf n
      (if fmt = 3#2 then (old + v.toNat) % 2 ^ 32 else rredNew fmt scale old v.toNat))
    exact ⟨_, congrArg Host.Outcome.next run, held, _, left, withoutElem_kind kind, status⟩
  · intro m src n lead kind opened first ends
    have run := absorbDone_reads free kind first ends
    have left : (s.updSeal m (SealRecord.absorbed (o.kind.args.pairs.map fun p =>
        (s.readTarget (lead p.2) 1).headD 0#8))).leftRecord o = none := leftRecord_none running
    have done := doneOp_ended left id
    refine ⟨_, congrArg Host.Outcome.next run, doneOp_tag (s := s.updSeal m _) live left id, done.findOp, done.keeps.mem, ?_⟩
    rw [State.seal, done.keeps.seals, ← State.seal, State.seal_updSeal_self, SealRecord.absorbed, if_pos (.inl opened)]
  · intro key seq c r g contribs kept new all alike
    have run := collDeliver_result contribs kept new all alike
    have group : ((s.updGroup key.toNat (Group.resolved seq)).resultTo ((s.collOps key seq).map (·.1))
        (collResult c.op c.fmt c.count (c :: r))).group key.toNat = Group.resolved seq g := State.group_updGroup_self s _ _
    refine ⟨_, congrArg Host.Outcome.next run, by rw [group]; rfl, fun x hx => ?_, rfl, rfl, ?_⟩
    · rw [group] at hx
      simpa using (List.mem_filter.1 hx).2
    · rintro read ⟨fm, cn, ds, sr, dp, sp, dg, op, kind⟩
      have mine : id ∈ (s.collOps key seq).map (·.1) := List.mem_map.2 ⟨_, mem_collOps found read kind, rfl⟩
      refine ⟨_, resultTo_findOp (s := s.updGroup key.toNat (Group.resolved seq)) found mine, rfl, fun sum int j hj => ?_⟩
      change natOfBytes (((collResult c.op c.fmt c.count (c :: r)).drop (4 * j)).take 4) = _
      rw [sum, int]
      exact collResult_sum (c :: r) hj
  · exact fun key => ⟨_, rfl, collLost_drops s key⟩
  · intro key seq lost one
    obtain ⟨rtag, atag⟩ := collLost_one free lost one
    obtain ⟨mem, gone⟩ := collLost_drops s key
    obtain ⟨left, contribs⟩ := gone seq (by rw [lost]; exact .head _)
    exact ⟨_, rfl, rtag, atag, left (id, o) (by rw [one]; exact .head _), mem, contribs⟩

end Sys2Proof.Machine
end

section
/-! What the matrix instructions share (R148, R149): the issuing strand bound to its core and holding the engine, the way they
retire, and the updates of one core. -/

namespace Sys2Proof.Machine

/-! Updates of one core. -/

/-- Two updates of a core are one. -/
theorem updCore_updCore (s : State) (c : Nat) (f g : Core → Core) :
    (s.updCore c f).updCore c g = s.updCore c fun x => g (f x) := by
  unfold State.updCore
  simp only [State.core, lookupD_insertAt_self, insertAt_insertAt]

theorem updEngine_updEngine (s : State) (c : Nat) (f g : MatrixEngine → MatrixEngine) :
    (s.updEngine c f).updEngine c g = s.updEngine c fun e => g (f e) := updCore_updCore s c _ _

theorem State.core_updMe (s : State) (f : Strand → Strand) (c : Nat) : (s.updMe f).core c = s.core c := rfl

theorem State.core_updEngine (s : State) (c d : Nat) (f : MatrixEngine → MatrixEngine) : (s.updEngine c f).core d =
    if d = c then { s.core c with engine := f (s.core c).engine } else s.core d := State.core_updCore s c d _

theorem State.core_updEngine_self (s : State) (c : Nat) (f : MatrixEngine → MatrixEngine) :
    (s.updEngine c f).core c = { s.core c with engine := f (s.core c).engine } := State.core_updCore_self s c _

/-- Nothing but pages of strands and cores has changed. -/
def PagesAndCores (s t : State) : Prop := { t with strands := s.strands, cores := s.cores } = s

theorem PagesAndCores.refl (s : State) : PagesAndCores s s := rfl

section
variable {s t : State} (h : PagesAndCores s t)
include h

theorem PagesAndCores.updStrand (n : Nat) (f : Strand → Strand) : PagesAndCores s (t.updStrand n f) := h
theorem PagesAndCores.updMe (f : Strand → Strand) : PagesAndCores s (t.updMe f) := h
theorem PagesAndCores.updCore (c : Nat) (f : Core → Core) : PagesAndCores s (t.updCore c f) := h
theorem PagesAndCores.updEngine (c : Nat) (f : MatrixEngine → MatrixEngine) : PagesAndCores s (t.updEngine c f) := h

end

/-! How a page retires. -/

/-- What a settled page still shows, retirement leaves. -/
theorem Strand.retire_shows {α : Type} (f : Strand → α) (blind : ∀ x : Strand, f x.settled = f x) (x : Strand) (p : Word) :
    f (x.retire p) = f x := by
  rw [← blind, Strand.retire_settled, blind]

/-- What retirement reads of a page (R36, R223). -/
def Strand.run (x : Strand) : Bool × BitVec 4 × BitVec 8 × Option Place := (x.stepping, x.state, x.cause, x.place)

theorem retiredAt_of_run {s t : State} {y : Strand} (page : t.me = y.retire s.npc) (run : y.run = s.me.run) :
    RetiredAt s t s.npc := by
  simp only [Strand.run, Prod.mk.injEq] at run
  obtain ⟨stepping, state, cause, place⟩ := run
  exact retiredAt_of_me page stepping state cause place

@[simp] theorem Strand.run_setS (x : Strand) (r : SReg) (v : Word) : (x.setS r v).run = x.run := by
  rw [Strand.setS_other]
  rfl

/-! The issuing strand, bound to its core (R132). -/

theorem bindHere_me (s : State) : (s.updMe Strand.bindHere).me = { s.me with bound := some s.me.core } :=
  State.me_updMe s _

@[simp] theorem Strand.run_bindHere (x : Strand) : x.bindHere.run = x.run := rfl

@[simp] theorem bindHere_me_core (s : State) : (s.updMe Strand.bindHere).me.core = s.me.core := by
  rw [State.me_updMe, Strand.bindHere_core]

theorem bindHere_engine (s : State) : (s.updMe Strand.bindHere).engine = (s.core s.me.core).engine := by
  rw [State.engine, bindHere_me_core]
  rfl

theorem bindHere_sreg (s : State) (r : SReg) : (s.updMe Strand.bindHere).sreg r = s.sreg r := by
  rw [State.sreg, bindHere_me]
  rfl

/-- An instruction that binds its strand and then meets a cause of the handler disposition raises it at its address. -/
theorem bindHere_raises {i : Instr} {s : State} {m : BitVec 3} {c : Nat} {a : Word}
    (run : exec i s = finish (s.updMe Strand.bindHere) m (.error (.trap c a))) (h1 : c ≠ cUncorrectable)
    (h2 : fatalCause c = false) (h3 : c ≠ cBreakpoint) :
    Completes i s fun t => Raises (s.updMe Strand.bindHere) t c s.me.pc a := by
  have pc : (s.updMe Strand.bindHere).me.pc = s.me.pc := by rw [bindHere_me]
  unfold Completes
  rw [run, ← pc]
  exact finish_trap_raises _ m c a h1 h2 h3

/-- A compute core has an engine (R9). -/
theorem hasEngine_ok {s : State} (h : s.me.core % 64 < 36) : s.hasEngine = .ok () := by
  have compute : decide (36 ≤ s.me.core % 64) = false := by
    simp
    omega
  rw [State.hasEngine, isSteward, compute]
  rfl

/-- The holder of an engine that is not being given up (R148). -/
theorem holdsEngine_iff (s : State) :
    s.holdsEngine = true ↔ (s.core s.me.core).engine.holder = some s.cur ∧ (s.core s.me.core).engine.release = false := by
  simp [State.holdsEngine, State.engine]

/-! How a matrix instruction retires (R22, R258). -/

/-- Its page before it retires: VSTART 0, no valid checkpoint. -/
def Strand.issueDone (x : Strand) : Strand := { x with vstart := 0#32, ckpt := { x.ckpt with valid := false } }

@[simp] theorem Strand.run_issueDone (x : Strand) : x.issueDone.run = x.run := rfl

theorem matrixDone_eq (s : State) : s.matrixDone = s.updMe fun x => x.issueDone.retire s.npc := by
  unfold State.matrixDone State.dropCheckpoint State.retire
  rw [updMe_updMe, updMe_updMe]
  rfl

theorem matrixDone_me (s : State) : s.matrixDone.me = s.me.issueDone.retire s.npc := by
  rw [matrixDone_eq, State.me_updMe]

end Sys2Proof.Machine
end

section
/-! `mshape` (O37; R148, R152). -/

namespace Sys2Proof.Machine

/-- What `mshape` leaves when it has changed the engine and grants a shape. -/
def State.shapeTo (s : State) (f : MatrixEngine → MatrixEngine) (rd : SReg) (v : Word) : State :=
  (((s.updEngine s.me.core f).updMe fun x => { x with shape := v }).setS rd v).matrixDone

/-- It has retired with the granted shape in its register and in SHAPE, and nothing but its page and the engine of its
core has changed. -/
def State.shapeRetires (s t : State) (rd : SReg) (v : Word) : Prop :=
  RetiredAt s t s.npc ∧
  (∀ r, t.sreg r = if r = 0#5 then 0#64 else if r = rd then v else s.sreg r) ∧
  t.me.shape = v ∧ t.me.vstart = 0#32 ∧ t.me.ckpt = { s.me.ckpt with valid := false } ∧
  { t with strands := s.strands, cores := s.cores } = s ∧
  (∀ j, j ≠ s.cur → t.strand j = s.strand j) ∧
  (∀ j, t.core j = if j = s.me.core then { s.core s.me.core with engine := (t.core s.me.core).engine } else s.core j)

/-- The page that it retires. -/
def Strand.shaped (x : Strand) (rd : SReg) (v : Word) : Strand := (({ x with shape := v } : Strand).setS rd v).issueDone

theorem Strand.shaped_run (x : Strand) (rd : SReg) (v : Word) : (x.shaped rd v).run = x.run := by
  rw [Strand.shaped, Strand.run_issueDone, Strand.run_setS]
  rfl

theorem Strand.shaped_eq (x : Strand) (rd : SReg) (v : Word) : x.shaped rd v =
    { x with shape := v, s := (x.shaped rd v).s, vstart := 0#32, ckpt := { x.ckpt with valid := false } } := by
  rw [Strand.shaped, Strand.setS_other]
  rfl

section
variable (s : State) (f : MatrixEngine → MatrixEngine) (rd : SReg) (v : Word)

theorem shapeTo_eq : s.shapeTo f rd v = (s.updEngine s.me.core f).updMe fun x => (x.shaped rd v).retire s.npc := by
  rw [State.shapeTo, matrixDone_eq, State.setS, updMe_updMe, updMe_updMe]
  rfl

theorem shapeTo_engine : (((s.updMe Strand.bindHere).shapeTo f rd v).core s.me.core).engine = f (s.core s.me.core).engine := by
  rw [shapeTo_eq, bindHere_me_core, State.core_updMe, State.core_updEngine_self]
  rfl

theorem shapeTo_retires : s.shapeRetires ((s.updMe Strand.bindHere).shapeTo f rd v) rd v := by
  have page : ((s.updMe Strand.bindHere).shapeTo f rd v).me = (s.me.bindHere.shaped rd v).retire s.npc := by
    rw [shapeTo_eq, State.me_updMe]
    exact congrArg (fun x => (x.shaped rd v).retire s.npc) (State.me_updMe s _)
  have shows {α : Type} (proj : Strand → α) (blind : ∀ x : Strand, proj x.settled = proj x) :
      proj ((s.updMe Strand.bindHere).shapeTo f rd v).me = proj (s.me.bindHere.shaped rd v) :=
    (congrArg proj page).trans (Strand.retire_shows proj blind _ s.npc)
  have whole := s.me.bindHere.shaped_eq rd v
  have rest := shapeTo_eq _ f rd v ▸ ((PagesAndCores.refl s).updMe Strand.bindHere |>.updEngine _ f |>.updMe _)
  refine ⟨retiredAt_of_run page (Strand.shaped_run ..), fun r => ?_,
    (shows Strand.shape fun _ => rfl).trans (congrArg Strand.shape whole),
    (shows Strand.vstart fun _ => rfl).trans (congrArg Strand.vstart whole),
    (shows Strand.ckpt fun _ => rfl).trans (congrArg Strand.ckpt whole), rest, fun j hj => ?_, fun j => ?_⟩
  · rw [State.sreg, page, Strand.retire_sreg]
    exact Strand.sreg_setS _ rd r v
  · rw [shapeTo_eq, State.strand_updMe]
    exact (if_neg hj).trans ((State.strand_updMe s j _).trans (if_neg hj))
  · rw [shapeTo_engine, shapeTo_eq, bindHere_me_core]
    exact State.core_updEngine _ _ _ _

/-- The engine that `mshape` takes before it grants a shape changes once. -/
theorem shapeTo_updEngine (g : MatrixEngine → MatrixEngine) :
    (s.updEngine s.me.core g).shapeTo f rd v = s.shapeTo (fun e => f (g e)) rd v := by
  rw [shapeTo_eq, shapeTo_eq]
  exact congrArg (fun u : State => u.updMe _) (updEngine_updEngine s _ g f)

end

section
variable {s : State} (mode : BitVec 2) (sparse : Bool) (rd : SReg) {m n k : Nat}

theorem grantShape_eq (g : Word) : s.grantShape mode sparse rd g =
    s.shapeTo (fun e => { e with mode := mode, sparse := sparse, shape := g }) rd g := rfl

theorem mshape_release (hc : s.me.core % 64 < 36) (held : s.holdsEngine = true) :
    s.mshape mode sparse rd 0 0 0 =
      .ok (s.shapeTo (fun e => ({ e with release := true, shape := 0#64 } : MatrixEngine).settle) rd 0#64) := by
  rw [State.mshape, hasEngine_ok hc, State.releaseEngine, if_pos held]
  rfl

/-- A request of some zeros only is no request. -/
theorem mshape_malformed (hc : s.me.core % 64 < 36) (zeros : m = 0 ∨ n = 0 ∨ k = 0) (others : m ≠ 0 ∨ n ≠ 0 ∨ k ≠ 0) :
    s.mshape mode sparse rd m n k = .error (.trap cIllegalState 0#64) := by
  have some : ¬ (m = 0 ∧ n = 0 ∧ k = 0) := by omega
  have less : ¬ (m ≠ 0 ∧ n ≠ 0 ∧ k ≠ 0) := by omega
  rw [State.mshape, hasEngine_ok hc, ok_bind, if_neg some, decide_eq_false less]
  rfl

/-- The order of requests with the strand that asks in it. -/
def State.joinWaiters (s : State) : List Nat :=
  if (s.waitersOf s.me.core).contains s.cur then s.waitersOf s.me.core else s.waitersOf s.me.core ++ [s.cur]

/-- A well-formed request: the holder's is granted, a free engine is taken, another's is waited for. -/
theorem mshape_asks (hc : s.me.core % 64 < 36) (hm : m ≠ 0) (hn : n ≠ 0) (hk : k ≠ 0) (hs : ¬ (sparse = true ∧ mode = 2#2)) :
    s.mshape mode sparse rd m n k =
      if s.holdsEngine then .ok (s.grantShape mode sparse rd (shapeGrant mode.toNat sparse m n k))
      else if s.engine.holder.isNone ∧ (s.waitersOf s.me.core).headD s.cur = s.cur then
        .ok ((s.updEngine s.me.core fun e => ({ e with waiters := s.waitersOf s.me.core } : MatrixEngine).take s.cur).grantShape
          mode sparse rd (shapeGrant mode.toNat sparse m n k))
      else if s.me.stepping then .error .wait
      else .ok (s.updEngine s.me.core fun e => { e with waiters := s.joinWaiters }) := by
  have zero : ¬ (m = 0 ∧ n = 0 ∧ k = 0) := by omega
  have dense : (!(sparse && mode == 2#2)) = true := by
    cases sparse <;> simp_all
  rw [State.mshape, hasEngine_ok hc, ok_bind, if_neg zero, decide_eq_true ⟨hm, hn, hk⟩, dense]
  rfl

end

/-- The limits of a mode (R152). -/
theorem shapeGrant_eq {mode : BitVec 2} (h : mode.toNat < 3) (sparse : Bool) (m n k : Nat) :
    shapeGrant mode.toNat sparse m n k =
      let most (dense : Nat) : Nat := if sparse then 2 * dense else dense
      BitVec.ofNat 64
        (min m (if mode = 2#2 then 1024 else 2048) * 2 ^ 48 + min n 32 * 2 ^ 40 +
         min k (most (if mode = 0#2 then 2048 else if mode = 1#2 then 512 else 32)) * 2 ^ 24) := by
  obtain rfl | rfl | rfl : mode = 0#2 ∨ mode = 1#2 ∨ mode = 2#2 := by
    revert mode
    decide
  all_goals rfl

theorem waitersOf_nil {s : State} {c : Nat} (h : (s.core c).engine.waiters = []) : s.waitersOf c = [] := by
  rw [State.waitersOf, h]
  rfl

/-- Settles O37: each answer of `mshape` is one change of the engine of its core, with the grant in SHAPE. -/
theorem matrixShapeGrants : Obligations.MatrixShapeGrants := by
  intro s mode sparse rd rb rc rk hint c e i m n k most g retires hc hmode
  let s0 := s.updMe Strand.bindHere
  have here : s0.me.core = s.me.core := bindHere_me_core s
  have compute : s0.me.core % 64 < 36 := by rw [here]; exact hc
  have run : exec i s = finish s0 0#3 (s0.mshape mode sparse rd m n k) := by
    change finish s0 0#3 (s0.mshape mode sparse rd (s0.sreg rb).toNat (s0.sreg rc).toNat (s0.sreg rk).toNat) = _
    simp only [s0, bindHere_sreg, m, n, k]
  have holds : s0.holdsEngine = true ↔ e.holder = some s.cur ∧ e.release = false := by
    rw [holdsEngine_iff, here]
    rfl
  refine ⟨fun hm hn hk hs => ?_, fun hm hn hk holder kept empty still => ?_, fun zeros others => ?_⟩
  · have asks := mshape_asks mode sparse rd compute hm hn hk hs
    rw [shapeGrant_eq hmode] at asks
    refine ⟨fun holder kept => ?_, fun free none => ?_, fun h holder other none running => ?_⟩
    · rw [if_pos (holds.2 ⟨holder, kept⟩)] at asks
      exact ⟨_, run.trans (congrArg _ asks), shapeTo_retires s _ rd g, shapeTo_engine s _ rd g⟩
    · have away : ¬ s0.holdsEngine = true := by
        rw [holds, free]
        rintro ⟨⟨⟩, -⟩
      have first : s0.engine.holder.isNone = true ∧ (s0.waitersOf s0.me.core).headD s0.cur = s0.cur := by
        rw [bindHere_engine, waitersOf_nil (by rw [here]; exact none)]
        exact ⟨by rw [free]; rfl, rfl⟩
      rw [if_neg away, if_pos first, grantShape_eq, shapeTo_updEngine] at asks
      refine ⟨_, run.trans (congrArg _ asks), shapeTo_retires s _ rd g, ?_⟩
      rw [shapeTo_engine]
      exact ⟨rfl, rfl, rfl, rfl, rfl, rfl, rfl, rfl⟩
    · have away : ¬ s0.holdsEngine = true := by
        rw [holds, holder]
        rintro ⟨same, -⟩
        exact other (Option.some.inj same)
      have taken : ¬ (s0.engine.holder.isNone = true ∧ (s0.waitersOf s0.me.core).headD s0.cur = s0.cur) := by
        rw [bindHere_engine, holder]
        rintro ⟨⟨⟩, -⟩
      have going : ¬ s0.me.stepping = true := by
        rw [bindHere_me, running]
        exact Bool.false_ne_true
      rw [if_neg away, if_neg taken, if_neg going, State.joinWaiters, waitersOf_nil (by rw [here]; exact none)] at asks
      refine ⟨_, run.trans (congrArg _ asks), bindHere_me s, ?_⟩
      rw [here, State.core_updEngine_self]
      rfl
  · rw [hm, hn, hk, mshape_release mode sparse rd compute (holds.2 ⟨holder, kept⟩)] at run
    refine ⟨_, run, shapeTo_retires s _ rd 0#64, ?_⟩
    have idle : ({ e with release := true, shape := 0#64 } : MatrixEngine).idle = true := by
      simp [MatrixEngine.idle, empty, still]
    rw [shapeTo_engine, MatrixEngine.settle, if_pos (by rw [idle]; rfl)]
    rfl
  · exact bindHere_raises (run.trans (congrArg _ (mshape_malformed mode sparse rd compute zeros others))) (by decide)
      (by decide) (by decide)

end Sys2Proof.Machine
end

section
/-! The queue of a matrix engine (R143 to R146, R149, R160): what an instruction that is put there checks, and what it leaves. -/

namespace Sys2Proof.Machine

/-! The fields of SHAPE (R152). -/

theorem shapeM_eq (x : Word) : shapeM x = x.toNat / 2 ^ 48 := toNat_rows x

theorem shapeN_eq (x : Word) : shapeN x = x.toNat / 2 ^ 40 % 2 ^ 8 := by
  rw [shapeN, BitVec.extractLsb'_toNat, Nat.shiftRight_eq_div_pow]

theorem shapeK_eq (x : Word) : shapeK x = x.toNat / 2 ^ 24 % 2 ^ 16 := by
  rw [shapeK, BitVec.extractLsb'_toNat, Nat.shiftRight_eq_div_pow]

/-! The strand that issues to its engine (R148, R161). -/

/-- The issuing strand holds the engine of its compute core, which no error has stopped. -/
structure State.mayMatrix (s : State) : Prop where
  compute : s.me.core % 64 < 36
  holder  : (s.core s.me.core).engine.holder = some s.cur
  kept    : (s.core s.me.core).engine.release = false
  running : s.me.mstopValid = false

theorem State.mayMatrix.bound {s : State} (h : s.mayMatrix) : (s.updMe Strand.bindHere).mayMatrix := by
  have here := bindHere_me_core s
  exact ⟨by rw [here]; exact h.compute, by rw [here]; exact h.holder, by rw [here]; exact h.kept,
    by rw [bindHere_me]; exact h.running⟩

theorem State.mayMatrix.issue {s : State} (h : s.mayMatrix) : s.matrixIssue = .ok () := by
  rw [State.matrixIssue, hasEngine_ok h.compute, (holdsEngine_iff s).2 ⟨h.holder, h.kept⟩]
  rfl

/-- An instruction of the holder goes on to its own checks. -/
theorem State.mayMatrix.run {s : State} (h : s.mayMatrix) (r : Except Stop State) :
    (do s.matrixIssue; s.unlessStopped r) = r := by
  rw [h.issue, ok_bind, State.unlessStopped, h.running]
  rfl

/-! How it retires. -/

/-- A matrix instruction without a result has retired: VSTART is 0, the checkpoint is gone, no register has changed. -/
structure MatrixIssued (s t : State) : Prop where
  retired : RetiredAt s t s.npc
  vstart  : t.me.vstart = 0#32
  ckpt    : t.me.ckpt = { s.me.ckpt with valid := false }
  sreg    : ∀ r, t.sreg r = s.sreg r
  vreg    : ∀ r, t.me.vreg r = s.me.vreg r

theorem matrixIssued {s u : State} {b : Option Nat} (page : u.me = { s.me with bound := b }) (npc : u.npc = s.npc) :
    MatrixIssued s u.matrixDone := by
  have me : u.matrixDone.me = ({ s.me with bound := b } : Strand).issueDone.retire s.npc := by
    rw [matrixDone_me, page, npc]
  refine ⟨retiredAt_of_run me rfl, ?_, ?_, fun r => ?_, fun r => ?_⟩
  · rw [me, Strand.retire_vstart]
    rfl
  · rw [me, Strand.retire_ckpt]
    rfl
  · rw [State.sreg, me, Strand.retire_sreg]
    rfl
  · rw [me, Strand.retire_shows (fun x => x.vreg r) fun _ => rfl]
    rfl

/-! What an entry of the scoreboard and one of the queue leave alone. -/

theorem boardAdd_core (s : State) (c n op : Nat) (write : Bool) (l : List Nat) :
    ∃ b, (s.boardAdd c n op write l).core c = { s.core c with board := b } := by
  unfold State.boardAdd
  split
  · exact ⟨_, rfl⟩
  · exact ⟨_, State.core_updCore_self _ _ _⟩

theorem boardAdd_npc (s : State) (c n op : Nat) (write : Bool) (l : List Nat) : (s.boardAdd c n op write l).npc = s.npc :=
  (IssueFrame.boardAdd s c n op write l).npc

/-- What an operation of a strand captures at its issue (R149). -/
def MatrixEngine.capture (e : MatrixEngine) (x : Strand) (kind : MatKind) (sa base : Nat) (stride : Word) (id : Nat) : MatOp :=
  { kind := kind, pc := x.pc, shape := x.shape, mode := e.mode, sparse := e.sparse, base := sa, addr := base
    stride := stride, start := x.vstart.toNat, sbOp := id }

section
variable (s : State) (kind : MatKind) (sa base stride : Nat) (write : Bool) (blocks : List Nat)

theorem enqueue_eq : s.enqueue kind sa base stride write blocks =
    ((s.fresh.2.boardAdd s.me.core s.cur s.nextId write (blocks.map (· / 64))).updEngine s.me.core fun e =>
      { e with queue := e.queue ++ [e.capture s.me kind sa base (BitVec.ofNat 64 stride) s.nextId] }).matrixDone := rfl

theorem enqueue_issued : MatrixIssued s ((s.updMe Strand.bindHere).enqueue kind sa base stride write blocks) := by
  rw [enqueue_eq]
  exact matrixIssued (b := some s.me.core) ((boardAdd_me _ _ _ _ _ _).trans (bindHere_me s)) (boardAdd_npc _ _ _ _ _ _)

theorem enqueue_core : ∃ b, (s.enqueue kind sa base stride write blocks).core s.me.core =
    { s.core s.me.core with board := b, engine := { (s.core s.me.core).engine with queue := (s.core s.me.core).engine.queue ++
        [(s.core s.me.core).engine.capture s.me kind sa base (BitVec.ofNat 64 stride) s.nextId] } } := by
  obtain ⟨b, core⟩ := boardAdd_core s.fresh.2 s.me.core s.cur s.nextId write (blocks.map (· / 64))
  refine ⟨b, ?_⟩
  rw [enqueue_eq, matrixDone_eq, State.core_updMe, State.core_updEngine_self, core]
  rfl

theorem enqueue_mem : (s.enqueue kind sa base stride write blocks).mem = s.mem := by
  rw [enqueue_eq, matrixDone_eq]
  exact (IssueFrame.boardAdd s.fresh.2 s.me.core s.cur s.nextId write (blocks.map (· / 64))).mem

end

/-! The checks of rows (R129, R157, R160). -/

theorem spadBlocksOk_of {s : State} {l : List Nat}
    (h : ∀ a ∈ l, ∀ j, j < 64 → s.spadCheck s.me.owner.toNat s.me.core false (a + j) = none) : s.spadBlocksOk l = .ok () := by
  have free : (l.findSome? fun a => (List.range 64).findSome? fun i =>
      (s.spadCheck s.me.owner.toNat s.me.core false (a + i)).map fun c => (c, a + i)) = none := by
    simp only [List.findSome?_eq_none_iff, Option.map_eq_none_iff, List.mem_range]
    exact h
  rw [State.spadBlocksOk, free]

theorem rowChecks_ok {s : State} {sa base stride nb least : Nat}
    (rows : sa + shapeM s.me.shape * accRows s.engine.mode.toNat ≤ 2048) (start : s.me.vstart.toNat < shapeM s.me.shape)
    (room : least ≤ stride) (aligned : base % 64 = 0 ∧ stride % 64 = 0)
    (spad : ∀ a ∈ rowBlocks base stride s.me.vstart.toNat (shapeM s.me.shape) nb, ∀ j, j < 64 →
      s.spadCheck s.me.owner.toNat s.me.core false (a + j) = none) :
    s.rowChecks sa base stride nb least = .ok (rowBlocks base stride s.me.vstart.toNat (shapeM s.me.shape) nb) := by
  unfold State.rowChecks
  dsimp only
  rw [decide_eq_true ⟨rows, start, room⟩, decide_eq_true aligned, spadBlocksOk_of spad]
  rfl

/-- An entry belongs to the strand and the operation it was made for. -/
theorem entryOf_owner {n op : Nat} {write indexed : Bool} {l : List Nat} {g : SbEntry}
    (h : entryOf n op write l indexed = some g) : g.strand = n ∧ g.write = write := by
  unfold entryOf at h
  dsimp only at h
  split at h
  · exact nomatch h
  · cases h
    exact ⟨rfl, rfl⟩
  · cases h
    exact ⟨rfl, rfl⟩

/-- Formats are checked once no older write of the strand meets the entry of the rows (R143, R144). -/
theorem rowFormats_ok {s : State} {blocks codes : List Nat}
    (formats : ∀ a ∈ blocks, tagFormat (s.spadTag s.me.core false a) ∈ codes)
    (free : ∀ g, entryOf s.cur 0 false (blocks.map (· / 64)) = some g → ∀ o ∈ (s.core s.me.core).board,
      o.strand = s.cur → o.write = true → ∀ j, j < g.count → o.covers (g.first + j * g.stride) = false) :
    s.rowFormats blocks codes = .ok () := by
  have clear : ¬ (entryOf s.cur 0 false (blocks.map (· / 64))).any (s.entryBlocked s.me.core) = true := by
    cases entry : entryOf s.cur 0 false (blocks.map (· / 64)) with
    | none => simp
    | some g =>
      obtain ⟨strand, write⟩ := entryOf_owner entry
      simp only [Option.any_some, State.entryBlocked, SbEntry.conflicts, List.any_eq_true, Bool.and_eq_true, strand, write,
        Bool.false_or, beq_iff_eq, List.mem_range, not_exists, not_and]
      rintro o mem ⟨mine, writes⟩ j hj
      rw [free g entry o mem mine.symm writes j hj]
      exact Bool.false_ne_true
  have all : (blocks.all fun a => codes.contains (tagFormat (s.spadTag s.me.core false a))) = true := by
    simpa using formats
  unfold State.rowFormats
  dsimp only
  rw [if_neg clear, all]
  rfl

theorem queueRoom_ok {s : State} (short : s.engine.queue.length < 8) (room : s.boardRoom 1) : s.queueRoom = .ok () := by
  rw [State.queueRoom, decide_eq_true short, boardEntry_of_room s 1 (by omega) room]
  rfl

/-! The operations that enter the queue. -/

section
variable {s : State} {sa base stride : Nat} {blocks : List Nat}

theorem mmac_ok (zero : Bool) (plane : s.planeChecks = .ok ())
    (rows : s.rowChecks sa base stride ((shapeK s.me.shape + actElems s.engine.mode.toNat - 1) / actElems s.engine.mode.toNat) 0 =
      .ok blocks)
    (room : s.queueRoom = .ok ()) (formats : s.rowFormats blocks (actCodes s.engine.mode.toNat) = .ok ()) :
    s.mmac zero sa base stride = .ok (s.enqueue (.mmac zero) sa base stride false blocks) := by
  unfold State.mmac
  dsimp only
  rw [plane, ok_bind, rows, ok_bind, room, ok_bind, formats]
  rfl

theorem mld_ok {fmt : BitVec 2} (plane : s.planeChecks = .ok ())
    (format : if s.engine.mode = 2#2 then mldCode fmt = 6 ∨ mldCode fmt = 7 else mldCode fmt = 6 ∨ mldCode fmt = 3)
    (rows : s.rowChecks sa base stride ((shapeN s.me.shape + tagElems (mldCode fmt) - 1) / tagElems (mldCode fmt)) 0 = .ok blocks)
    (room : s.queueRoom = .ok ()) (formats : s.rowFormats blocks [mldCode fmt] = .ok ()) :
    s.mld fmt sa base stride = .ok (s.enqueue (.mld fmt) sa base stride false blocks) := by
  have known : (if s.engine.mode = 2#2 then mldCode fmt == 6 || mldCode fmt == 7 else mldCode fmt == 6 || mldCode fmt == 3) =
      true := by
    split at format <;> simp_all
  unfold State.mld
  dsimp only
  rw [plane, ok_bind, known, demand_true, ok_bind, rows, ok_bind, room, ok_bind, formats]
  rfl

theorem mst_ok {fmt : BitVec 3} (wide : fmt = 4#3 → s.engine.mode = 2#2)
    (rows : s.rowChecks sa base stride ((shapeN s.me.shape + tagElems (mstCode fmt) - 1) / tagElems (mstCode fmt))
      (64 * ((shapeN s.me.shape + tagElems (mstCode fmt) - 1) / tagElems (mstCode fmt))) = .ok blocks)
    (room : s.queueRoom = .ok ()) :
    s.mst fmt sa base stride = .ok (s.enqueue (.mst fmt) sa base stride true blocks) := by
  have known : (!(fmt == 4#3 && s.engine.mode != 2#2)) = true := by
    by_cases h : fmt = 4#3
    · simp [wide h]
    · simp [h]
  unfold State.mst
  dsimp only
  rw [known, demand_true, ok_bind, rows, ok_bind, room]
  rfl

theorem mzero_ok {count : Nat} (some : count ≠ 0) (rows : base + count ≤ 2048) (short : s.engine.queue.length < 8) :
    s.mzero base count = .ok (s.enqueue (.mzero count) base 0 0 false []) := by
  rw [State.mzero, if_neg some, decide_eq_true rows, decide_eq_true short]
  rfl

/-- `mmac` and `mld` raise ILLEGAL_STATE first of all when no plane agrees. -/
theorem mmac_mld_noPlane (plane : s.planeChecks ≠ .ok ()) (zero : Bool) (fmt : BitVec 2) :
    s.mmac zero sa base stride = .error (.trap cIllegalState 0#64) ∧
      s.mld fmt sa base stride = .error (.trap cIllegalState 0#64) := by
  rw [State.mmac, State.mld, planeChecks_error s plane]
  exact ⟨rfl, rfl⟩

end

end Sys2Proof.Machine
end

section
/-! Matrix operations enter the queue (O39; R149, R157, R158, R160). -/

namespace Sys2Proof.Machine

/-- An instruction has put an operation in the queue of its core's engine, with what it captures, and retired: no byte and no
tag has changed. -/
def State.entersQueue (s : State) (i : Instr) (kind : MatKind) (sa base stride : Nat) : Prop :=
  let e := (s.core s.me.core).engine
  Completes i s fun t => RetiredAt s t s.npc ∧ t.me.vstart = 0#32 ∧
    t.me.ckpt = { s.me.ckpt with valid := false } ∧ (∀ r, t.sreg r = s.sreg r) ∧
    t.mem = s.mem ∧ (t.core s.me.core).spad = (s.core s.me.core).spad ∧
    (t.core s.me.core).stags = (s.core s.me.core).stags ∧
    ∃ id, (t.core s.me.core).engine = { e with queue := e.queue ++
      [{ kind := kind, pc := s.me.pc, shape := s.me.shape, mode := e.mode, sparse := e.sparse, base := sa
         addr := base, stride := BitVec.ofNat 64 stride, start := s.me.vstart.toNat, sbOp := id }] }

theorem entersQueue_of_enqueue {s : State} {i : Instr} {kind : MatKind} {sa base stride : Nat} {write : Bool} {blocks : List Nat}
    (run : exec i s = .next ((s.updMe Strand.bindHere).enqueue kind sa base stride write blocks)) :
    s.entersQueue i kind sa base stride := by
  obtain ⟨retired, vstart, ckpt, sreg, -⟩ := enqueue_issued s kind sa base stride write blocks
  obtain ⟨b, core⟩ := enqueue_core (s.updMe Strand.bindHere) kind sa base stride write blocks
  rw [bindHere_me_core, bindHere_me] at core
  exact ⟨_, run, retired, vstart, ckpt, sreg, enqueue_mem _ kind sa base stride write blocks, by rw [core]; rfl, by rw [core]; rfl,
    s.nextId, by rw [core]; rfl⟩

section
variable {s : State} (may : s.mayMatrix) {zero : Bool} {ra rb rc : SReg} {hint : BitVec 2}
include may

theorem exec_mmac : exec (.mmac zero ra rb rc hint) s = finish (s.updMe Strand.bindHere) 0#3
    ((s.updMe Strand.bindHere).mmac zero (s.sreg ra).toNat (s.sreg rb).toNat (s.sreg rc).toNat) := by
  simp only [← bindHere_sreg s]
  exact congrArg (finish _ 0#3) (may.bound.run _)

theorem exec_mld {fmt : BitVec 2} : exec (.mld fmt ra rb rc hint) s = finish (s.updMe Strand.bindHere) 0#3
    ((s.updMe Strand.bindHere).mld fmt (s.sreg ra).toNat (s.sreg rb).toNat (s.sreg rc).toNat) := by
  simp only [← bindHere_sreg s]
  exact congrArg (finish _ 0#3) (may.bound.run _)

theorem exec_mst {fmt : BitVec 3} : exec (.mst fmt ra rb rc hint) s = finish (s.updMe Strand.bindHere) 0#3
    ((s.updMe Strand.bindHere).mst fmt (s.sreg ra).toNat (s.sreg rb).toNat (s.sreg rc).toNat) := by
  simp only [← bindHere_sreg s]
  exact congrArg (finish _ 0#3) (may.bound.run _)

theorem exec_mzero : exec (.mzero rb rc) s = finish (s.updMe Strand.bindHere) 0#3
    ((s.updMe Strand.bindHere).mzero (s.sreg rb).toNat (s.sreg rc).toNat) := by
  simp only [← bindHere_sreg s]
  exact congrArg (finish _ 0#3) (may.bound.run _)

end

/-- The parameters of a mode, as the rules list them (R126, R148, R157). -/
theorem actElems_eq (mode : BitVec 2) :
    actElems mode.toNat = if mode = 0#2 then 64 else if mode = 1#2 then 32 else 8 := by
  revert mode
  decide

theorem actCodes_eq (mode : BitVec 2) :
    actCodes mode.toNat = if mode = 0#2 then [1, 2] else if mode = 1#2 then [3] else [7] := by
  revert mode
  decide

theorem accRows_eq (mode : BitVec 2) : accRows mode.toNat = if mode = 2#2 then 2 else 1 := by
  revert mode
  decide

theorem mstCode_eq (fmt : BitVec 3) : mstCode fmt =
    if fmt = 0#3 then 1 else if fmt = 1#3 then 2 else if fmt = 2#3 then 3 else if fmt = 3#3 then 6 else 7 := by
  revert fmt
  decide

/-- Settles O39: each instruction whose checks pass is one `enqueue`; without a plane, `mmac` and `mld` raise. -/
theorem matrixOperationsQueue : Obligations.MatrixOperationsQueue := by
  intro s zero fmt2 fmt3 ra rb rc hint c e shape m n k m0 blocks queued a b d per mayRows p plane hc holder kept running short room
  let s0 := s.updMe Strand.bindHere
  have may : s.mayMatrix := ⟨hc, holder, kept, running⟩
  have here : s0.me.core = c := bindHere_me_core s
  have engine : s0.engine = e := bindHere_engine s
  have shape0 : s0.me.shape = shape := by rw [bindHere_me]
  have vstart0 : s0.me.vstart.toNat = m0 := by rw [bindHere_me]
  have owner0 : s0.me.owner = s.me.owner := by rw [bindHere_me]
  have ready : s0.queueRoom = .ok () :=
    queueRoom_ok (by rw [engine]; exact short) ((boardRoom_bindHere s 1).2 room)
  have checks {nb least : Nat} {formats : List Nat} (fits : least ≤ d) (rows : mayRows nb formats) :
      s0.rowChecks a b d nb least = .ok (blocks d b nb) ∧ (formats ≠ [] → s0.rowFormats (blocks d b nb) formats = .ok ()) := by
    obtain ⟨acc, start, base, stride, spad, free⟩ := rows
    have list : rowBlocks b d s0.me.vstart.toNat (shapeM s0.me.shape) nb = blocks d b nb := by
      rw [vstart0, shape0, shapeM_eq]
      rfl
    refine ⟨?_, fun some => rowFormats_ok (fun x hx => ?_) ?_⟩
    · rw [← list]
      refine rowChecks_ok ?_ ?_ fits ⟨base, stride⟩ ?_
      · rw [shape0, shapeM_eq, engine, accRows_eq]
        exact acc
      · rw [vstart0, shape0, shapeM_eq]
        exact start
      · rw [list, here, owner0]
        exact fun x hx => (spad x hx).1
    · rw [here]
      exact (spad x hx).2 some
    · rw [here]
      exact free some
  have loaded : s0.planeChecks = .ok () ↔ plane := by
    rw [planeChecks_ok, engine, shape0, shapeK_eq, shapeN_eq]
  refine ⟨fun ok rows => ?_, fun none i hi => ?_, ?_, ?_, fun some rows => ?_⟩
  · let acts := if e.mode = 0#2 then 64 else if e.mode = 1#2 then 32 else 8
    obtain ⟨rows, formats⟩ := checks (Nat.zero_le d) rows
    refine entersQueue_of_enqueue ((exec_mmac may).trans (congrArg (finish s0 0#3)
      (mmac_ok (blocks := blocks d b ((k + acts - 1) / acts)) zero (loaded.2 ok) ?_ ready ?_)))
    · rw [engine, shape0, shapeK_eq, actElems_eq]
      exact rows
    · rw [engine, actCodes_eq]
      exact formats (by split_ifs <;> exact List.cons_ne_nil _ _)
  · obtain ⟨mmac, mld⟩ := mmac_mld_noPlane (sa := a) (base := b) (stride := d) (mt loaded.1 none) zero fmt2
    simp only [List.mem_cons, List.not_mem_nil, or_false] at hi
    obtain rfl | rfl := hi
    · exact bindHere_raises ((exec_mmac may).trans (congrArg _ mmac)) (by decide) (by decide) (by decide)
    · exact bindHere_raises ((exec_mld may).trans (congrArg _ mld)) (by decide) (by decide) (by decide)
  · intro code ok format rows
    obtain ⟨rows, formats⟩ := checks (Nat.zero_le d) rows
    refine entersQueue_of_enqueue ((exec_mld may).trans (congrArg (finish s0 0#3)
      (mld_ok (loaded.2 ok) ?_ ?_ ready (formats (List.cons_ne_nil _ _)))))
    · rw [engine]
      exact format
    · rw [shape0, shapeN_eq]
      exact rows
  · intro code wide fits rows
    obtain ⟨rows, -⟩ := checks fits rows
    refine entersQueue_of_enqueue ((exec_mst may).trans (congrArg (finish s0 0#3)
      (mst_ok (blocks := blocks d b ((n + tagElems code - 1) / tagElems code)) ?_ ?_ ready)))
    · rw [engine]
      exact wide
    · rw [shape0, shapeN_eq, mstCode_eq]
      exact rows
  · exact entersQueue_of_enqueue ((exec_mzero may).trans (congrArg (finish s0 0#3) (mzero_ok some rows (by rw [engine]; exact short))))

end Sys2Proof.Machine
end

section
/-! Weight loads are issued (O38; R149, R153 to R155, R163, R166). -/

namespace Sys2Proof.Machine

/-- Of the entries that are kept, each reads as it did. -/
theorem lookupD_keepKeys {α : Type} (p : Nat → Bool) (t : Table α) (k : Nat) (d : α) :
    lookupD (keepKeys p t) k d = if p k then lookupD t k d else d := by
  induction t with
  | nil => simp [keepKeys, lookupD]
  | cons e r ih =>
    obtain ⟨j, v⟩ := e
    have keeps : keepKeys p ((j, v) :: r) = if p j then (j, v) :: keepKeys p r else keepKeys p r := by
      rw [keepKeys, List.filter_cons]
      rfl
    rw [keeps]
    by_cases h : j = k
    · subst h
      by_cases hp : p j = true <;> simp [lookupD, hp, ih]
    · by_cases hp : p j = true <;> simp [lookupD, hp, h, ih]

/-! What a load reads (R153 to R155, R163). -/

section
variable (s : State) (cls : BitVec 2) (sparse : Bool) (stride : Nat) (vm : VReg)

/-- The weights stored of a column. -/
def State.keptWeights : Nat :=
  if sparse then popBelow (maskBits (s.me.vreg vm) (shapeK s.me.shape)) (shapeK s.me.shape) else shapeK s.me.shape

/-- The numbers of the blocks of the groups from VSTART on. -/
def State.loadBlocks : List Nat :=
  ((List.range ((s.keptWeights sparse vm + clsElems cls.toNat - 1) / clsElems cls.toNat)).drop s.me.vstart.toNat).flatMap fun i =>
    (List.range (shapeN s.me.shape)).map fun j => i * stride + j

/-- The plane that it makes of its sources. -/
def State.loadPlane (srcs : List WeightSource) : Plane :=
  { Plane.empty with
    state := 1#2, cask := srcs.any fun w => w.cask.isSome
    sparse := sparse, mode := s.engine.mode, k := shapeK s.me.shape, n := shapeN s.me.shape
    mask := maskBits (s.me.vreg vm) (shapeK s.me.shape), pc := s.me.pc, cls := cls
    first := shapeN s.me.shape * s.me.vstart.toNat, srcs := srcs, sbOp := s.nextId, region := s.me.region }

/-- The state with a load in the engine's hands: its entry in the scoreboard if it reads the scratchpad. -/
def State.loadIssued (space : BitVec 2) (addrs : List Nat) (p : Plane) : State :=
  ((if space = 1#2 then s.fresh.2.boardAdd s.me.core s.cur s.nextId false (addrs.map (· / 64)) else s.fresh.2).updEngine
    s.me.core fun e => e.issueLoad p s.me.shape).matrixDone

/-- Its sources: the scratchpad's blocks, or what a plan of the address space gives. -/
def State.loadPlan (space : BitVec 2) (base : Nat) (ls : List Nat) : Except Stop WeightPlan :=
  if space = 1#2 then do
    s.spadBlocksOk (ls.map fun l => base + 64 * l)
    .ok (.read ((ls.map fun l => base + 64 * l).map fun a =>
      { va := BitVec.ofNat 64 a, tgt := .spad s.me.core false a, cask := none }))
  else s.weightPlan base ls

end

/-- The operands of a load agree with its engine and with each other (R153, R155). -/
structure State.loadFits (s : State) (cls : BitVec 2) (sparse : Bool) (stride : Nat) : Prop where
  cls    : (clsModes cls.toNat).contains s.engine.mode.toNat = true
  sparse : s.engine.sparse = sparse
  stride : shapeN s.me.shape ≤ stride

section
variable {s : State} {cls space : BitVec 2} {sparse : Bool} {base stride : Nat} {vm : VReg}

theorem State.loadFits.demand (h : s.loadFits cls sparse stride) : ((clsModes cls.toNat).contains s.engine.mode.toNat &&
    sparse == s.engine.sparse && decide (shapeN s.me.shape ≤ stride)) = true := by
  rw [h.cls, h.sparse, decide_eq_true h.stride]
  simp

theorem mldw_ok {srcs : List WeightSource} (fits : s.loadFits cls sparse stride) (aligned : base % 64 = 0)
    (mask : sparse = true → vm.toNat ∉ s.me.poisonV ∧ shapeK s.me.shape ≤ s.me.mvl.toNat ∧
      s.keptWeights sparse vm ≤ planeMax s.engine.mode.toNat)
    (plan : s.loadPlan space base (s.loadBlocks cls sparse stride vm) = .ok (.read srcs))
    (short : s.engine.queue.length < 8) (room : s.boardRoom 1) :
    s.mldw cls space sparse base stride vm =
      .ok (s.loadIssued space ((s.loadBlocks cls sparse stride vm).map fun l => base + 64 * l)
        (s.loadPlane cls sparse vm srcs)) := by
  have clean : (!(sparse && s.me.poisonV.contains vm.toNat)) = true := by
    cases sparse <;> simp_all
  have held : (!(sparse && (decide (s.me.mvl.toNat < shapeK s.me.shape) ||
      decide (planeMax s.engine.mode.toNat < s.keptWeights sparse vm)))) = true := by
    cases sparse <;> simp_all
  have entry := boardEntry_of_room s 1 (by omega) room
  unfold State.mldw
  dsimp only
  rw [fits.demand, demand_true, ok_bind, clean, demand_true, ok_bind]
  change (do
    demand (!(sparse && (decide (s.me.mvl.toNat < shapeK s.me.shape) ||
      decide (planeMax s.engine.mode.toNat < s.keptWeights sparse vm)))) cIllegalState
    _) = _
  rw [held, demand_true, ok_bind, decide_eq_true aligned, demand_true, ok_bind, decide_eq_true short, entry]
  by_cases spad : space = 1#2
  · simp only [spad, State.loadPlan, if_true] at plan ⊢
    cases read : s.spadBlocksOk ((s.loadBlocks cls sparse stride vm).map fun l => base + 64 * l) with
    | error e => exact nomatch (congrArg (· >>= fun _ => _) read).symm.trans plan
    | ok u =>
      rw [read, ok_bind, Except.ok.injEq, WeightPlan.read.injEq] at plan
      change (do s.spadBlocksOk ((s.loadBlocks cls sparse stride vm).map fun l => base + 64 * l); _) = _
      rw [read, ← plan]
      simp only [State.loadIssued, if_true]
      rfl
  · simp only [spad, State.loadPlan, if_false] at plan ⊢
    change (do let plan ← s.weightPlan base (s.loadBlocks cls sparse stride vm); _) = _
    rw [plan]
    simp only [State.loadIssued, if_neg spad]
    rfl

/-- A mask vector that holds poison stops a sparse load before it reads (R257). -/
theorem mldw_poisoned (fits : s.loadFits cls true stride) (poison : vm.toNat ∈ s.me.poisonV) :
    s.mldw cls space true base stride vm = .error (.trap cUncorrectable 0#64) := by
  have dirty : (!(true && s.me.poisonV.contains vm.toNat)) = false := by simp [poison]
  unfold State.mldw
  dsimp only
  rw [fits.demand, demand_true, ok_bind, dirty]
  rfl

end

/-! What it leaves. -/

/-- The state that the load's entry in the scoreboard leaves. -/
theorem loadEntry_frame (s : State) (space : BitVec 2) (addrs : List Nat) :
    ∃ u : State, (if space = 1#2 then s.fresh.2.boardAdd s.me.core s.cur s.nextId false (addrs.map (· / 64)) else s.fresh.2) = u ∧
      u.me = s.me ∧ u.npc = s.npc ∧ (u.core s.me.core).engine = (s.core s.me.core).engine := by
  refine ⟨_, rfl, ?_⟩
  split
  · obtain ⟨b, core⟩ := boardAdd_core s.fresh.2 s.me.core s.cur s.nextId false (addrs.map (· / 64))
    exact ⟨boardAdd_me _ _ _ _ _ _, boardAdd_npc _ _ _ _ _ _, by rw [core]; rfl⟩
  · exact ⟨rfl, rfl, rfl⟩

theorem loadIssued_issued (s : State) (space : BitVec 2) (addrs : List Nat) (p : Plane) :
    MatrixIssued s ((s.updMe Strand.bindHere).loadIssued space addrs p) := by
  obtain ⟨u, entry, me, npc, -⟩ := loadEntry_frame (s.updMe Strand.bindHere) space addrs
  rw [State.loadIssued, entry]
  exact matrixIssued (b := some s.me.core) (me.trans (bindHere_me s)) npc

theorem loadIssued_engine (s : State) (space : BitVec 2) (addrs : List Nat) (p : Plane) :
    ((s.loadIssued space addrs p).core s.me.core).engine = (s.core s.me.core).engine.issueLoad p s.me.shape := by
  obtain ⟨u, entry, -, -, engine⟩ := loadEntry_frame s space addrs
  rw [State.loadIssued, entry, matrixDone_eq, State.core_updMe, State.core_updEngine_self, ← engine]

theorem any_isLoad_or_isSwap (l : List MatOp) :
    (l.any fun q => q.isLoad || q.isSwap) = (l.any MatOp.isLoad || l.any MatOp.isSwap) := by
  induction l with
  | nil => rfl
  | cons q r ih => simp [ih, Bool.or_assoc, Bool.or_left_comm]

/-- A load starts at once on a shadow plane that nothing is to load or to swap (R149, R153). -/
theorem issueLoad_starts {e : MatrixEngine} (p : Plane) (shape : Word) (still : e.shadow.state ≠ 1#2)
    (swap : e.swapping = false) (load : e.queue.any MatOp.isLoad = false) : e.issueLoad p shape = e.startLoad p := by
  rw [MatrixEngine.swapping] at swap
  rw [MatrixEngine.issueLoad, any_isLoad_or_isSwap, swap, load, if_pos (by simpa using still)]

/-- It waits in the queue behind a load or a swap (log 28). -/
theorem issueLoad_waits {e : MatrixEngine} (p : Plane) (shape : Word)
    (busy : e.shadow.state = 1#2 ∨ e.swapping = true ∨ e.queue.any MatOp.isLoad = true) :
    e.issueLoad p shape = { e with queue := e.queue ++
      [{ kind := .mldw p, pc := p.pc, shape := shape, mode := e.mode, sparse := e.sparse, base := 0
         addr := 0, stride := 0#64, start := 0, sbOp := p.sbOp }] } := by
  rw [MatrixEngine.swapping] at busy
  rw [MatrixEngine.issueLoad, any_isLoad_or_isSwap, if_neg]
  obtain h | h | h := busy <;> simp [h]

/-! The mask vector's poison (R257). -/

/-- The strip rolls back when its checkpoint is valid and it may roll back once more. -/
def Strand.mayRollBack (x : Strand) : Prop := x.ckpt.valid = true ∧ x.inHandler = false ∧ x.rbStrip.toNat < 4

theorem raise_uncorrectable (s : State) (n : Nat) (pc a : Word) : s.raise n cUncorrectable pc a = s.uncorrectable n a := by
  rw [State.raise, if_pos rfl]

/-- Poison that no address names is in no cache. -/
theorem consumePoison_zero (s : State) (n : Nat) : s.consumePoison n 0#64 = s := by
  unfold State.consumePoison
  exact if_pos (.inl rfl)

theorem uncorrectable_rolls {s : State} (h : s.me.mayRollBack) :
    s.uncorrectable s.cur 0#64 = s.updMe fun x => { x with wait := .rollback } := by
  obtain ⟨valid, outside, few⟩ := h
  unfold State.uncorrectable
  dsimp only
  rw [consumePoison_zero]
  exact if_pos ⟨valid, by rw [← State.me, outside]; rfl, few⟩

theorem uncorrectable_ends {s : State} (h : ¬ s.me.mayRollBack) :
    s.uncorrectable s.cur 0#64 = s.endStrand s.cur 6#4 cUncorrectable false := by
  unfold State.uncorrectable
  dsimp only
  rw [consumePoison_zero]
  refine if_neg fun rolls => h ?_
  obtain ⟨valid, outside, few⟩ := rolls
  exact ⟨valid, (Bool.not_eq_true' _).mp outside, few⟩

/-! `mswap` (R156). -/

section
variable {s : State} (may : s.mayMatrix)
include may

theorem exec_mldw {cls space : BitVec 2} {sparse : Bool} {rb rc : SReg} {vm : VReg} {hint : BitVec 2} :
    exec (.mldw cls space sparse rb rc vm hint) s = finish (s.updMe Strand.bindHere) (maskOf true false false)
      ((s.updMe Strand.bindHere).mldw cls space sparse (s.sreg rb).toNat (s.sreg rc).toNat vm) := by
  simp only [← bindHere_sreg s]
  exact congrArg (finish _ _) (may.bound.run _)

theorem exec_mswap : exec .mswap s = finish (s.updMe Strand.bindHere) 0#3 (s.updMe Strand.bindHere).mswap :=
  congrArg (finish _ 0#3) (may.bound.run _)

end

theorem mswap_eq (s : State) : s.mswap = (do
    waitUnless (s.engine.nextShadow != 1#2)
    demand (s.engine.nextShadow != 0#2) cIllegalState
    demand (s.engine.nextShadow != 3#2) s.engine.shadow.cause.toNat (s.me.mfaddr.setWidth 64)
    waitUnless (decide (s.engine.queue.length < 8))
    .ok (s.enqueue .mswap 0 0 0 false [])) := rfl

theorem mswap_waits {s : State} (h : s.engine.nextShadow = 1#2) : s.mswap = .error .wait := by
  rw [mswap_eq, h]
  rfl

theorem mswap_empty {s : State} (h : s.engine.nextShadow = 0#2) : s.mswap = .error (.trap cIllegalState 0#64) := by
  rw [mswap_eq, h]
  rfl

theorem mswap_faulted {s : State} (h : s.engine.nextShadow = 3#2) :
    s.mswap = .error (.trap s.engine.shadow.cause.toNat (s.me.mfaddr.setWidth 64)) := by
  rw [mswap_eq, h]
  rfl

theorem mswap_decided {s : State} (h : s.engine.nextShadow = 2#2) (short : s.engine.queue.length < 8) :
    s.mswap = .ok (s.enqueue .mswap 0 0 0 false []) := by
  rw [mswap_eq, h, decide_eq_true short]
  rfl

end Sys2Proof.Machine
end

section
/-! The engine finishes a weight load (O38; R143, R153, R166). -/

namespace Sys2Proof.Machine

theorem settle_kept {e : MatrixEngine} (h : e.release = false) : e.settle = e := by
  rw [MatrixEngine.settle, h]
  rfl

/-- The block of a weight load that meets nothing: its bytes, or its plaintext, and its tag (R153, R166). -/
def State.weightBlock (s : State) (n : Nat) (w : WeightSource) : BitVec 512 × Tag :=
  (BitVec.ofNat 512 (natOfBytes ((s.weightBytes n w).getD [])), s.tagTarget w.tgt)

/-- Nothing meets the read of a block: no write in flight, no poison, a chunk that opens, a die that admits it, and a format of
its class. -/
structure State.weightReads (s : State) (n : Nat) (cls : BitVec 2) (w : WeightSource) : Prop where
  quiet  : s.quiet w.tgt
  bytes  : (s.weightBytes n w).isSome = true
  home   : s.homeRefuses (s.strand n).owner.toNat weightAccess w.va w.tgt = .ok ()
  format : tagFormat (s.tagTarget w.tgt) ∈ clsCodes cls.toNat

theorem readWeights_reads {s : State} {n : Nat} {cls : BitVec 2} {w : WeightSource} (h : s.weightReads n cls w) (region i : Nat) :
    s.readWeights n region cls.toNat i w = .ok (s.weightBlock n w, s) := by
  obtain ⟨quiet, bytes, home, format⟩ := h
  obtain ⟨va, x, cask⟩ := w
  have known : (clsCodes cls.toNat).contains (tagFormat (s.tagTarget x)) = true := by simpa using format
  unfold State.readWeights
  dsimp only at home ⊢
  rw [home]
  dsimp only
  rw [settleTarget_quiet quiet, raceTarget_unraced (quiet_unraced quiet)]
  dsimp only
  rw [if_neg (not_not.2 (windowAnswer_quiet quiet i 2))]
  simp only [known, if_true]
  unfold State.weightBytes at bytes
  unfold State.weightBlock State.weightBytes
  rcases cask with none | ⟨slot, key⟩
  · dsimp only at bytes ⊢
    by_cases poison : s.poisonedAt (some (dieOfCore (s.strand n).core)) x 64 = true
    · rw [if_pos poison] at bytes
      exact nomatch bytes
    · rw [if_neg poison, if_neg poison]
      rfl
  · cases x with
    | hbm pa memKey raced =>
      dsimp only at bytes ⊢
      have place : pa / 4096 * 4096 / 64 = pa / 4096 * 64 := by omega
      rw [place]
      by_cases poison : ((List.range 64).any fun j => hasKey s.poison (pa / 4096 * 64 + j)) = true
      · rw [if_pos poison] at bytes
        exact nomatch bytes
      · have clean : (List.range 64).find? (fun j => hasKey s.poison (pa / 4096 * 64 + j)) = none := by
          simpa using poison
        rw [if_neg poison] at bytes ⊢
        rw [clean]
        cases opened : s.openChunk key memKey (pa / 4096 * 4096) with
        | none => exact nomatch (congrArg (fun o => (Option.map _ o).isSome) opened).symm.trans bytes
        | some l => rfl
    | _ =>
      dsimp only at bytes ⊢
      split at bytes
      · exact nomatch bytes
      · next poison =>
        rw [if_neg poison, if_neg poison]
        rfl

/-- Blocks that meet nothing are all read, each in its place. -/
theorem readAllWeights_reads {s : State} {n : Nat} {cls : BitVec 2} (region : Nat) {l : List WeightSource}
    (h : ∀ w ∈ l, s.weightReads n cls w) (first : Nat) (acc : Table (BitVec 512 × Tag)) :
    ∃ blocks, readAllWeights n region cls.toNat first l s acc = (blocks, s, none) ∧
      (∀ i, i < first → lookupD blocks i (0#512, 0#16) = lookupD acc i (0#512, 0#16)) ∧
      ∀ i, (hi : i < l.length) → lookupD blocks (first + i) (0#512, 0#16) = s.weightBlock n l[i] := by
  induction l generalizing first acc with
  | nil => exact ⟨acc, rfl, fun _ _ => rfl, fun i hi => absurd hi (Nat.not_lt_zero i)⟩
  | cons w r ih =>
    obtain ⟨head, rest⟩ := List.forall_mem_cons.1 h
    obtain ⟨blocks, read, below, above⟩ := ih rest (first + 1) (insertAt acc first (s.weightBlock n w))
    refine ⟨blocks, ?_, fun i hi => ?_, fun i hi => ?_⟩
    · rw [readAllWeights, readWeights_reads head]
      exact read
    · rw [below i (by omega), lookupD_insertAt_other _ _ _ (by omega)]
    · cases i with
      | zero => exact (below first (by omega)).trans (lookupD_insertAt_self _ _ _ _)
      | succ j =>
        rw [show first + (j + 1) = first + 1 + j by omega]
        exact above j (by simpa using hi)

/-- The load that is under way ends with its plane loaded, and its entries retire. -/
theorem mldwDone_loads {s : State} {c n : Nat} (holder : (s.core c).engine.holder = some n)
    (free : s.boardHeld c (s.core c).engine.shadow.sbOp = false)
    (loading : (s.core c).engine.shadow.state = 1#2) {blocks : Table (BitVec 512 × Tag)}
    (read : readAllWeights n (s.core c).engine.shadow.region (s.core c).engine.shadow.cls.toNat (s.core c).engine.shadow.first
      (s.core c).engine.shadow.srcs s (s.core c).engine.shadow.blocks = (blocks, s, none)) :
    s.mldwDone c = ((s.boardRetire c (s.core c).engine.shadow.sbOp).sweepRaces).updEngine c fun e => ({ e with
      shadow := { (s.core c).engine.shadow with state := 2#2, blocks := blocks, srcs := [] } } : MatrixEngine).settle := by
  unfold State.mldwDone
  dsimp only
  rw [holder]
  dsimp only
  rw [if_neg (by simp [loading, free]), read]

end Sys2Proof.Machine
end

section
/-! Weight loads and swaps (O38). -/

namespace Sys2Proof.Machine

/-! The operands that the statement names, of the strand before it is bound. -/

section
variable (s : State) (cls : BitVec 2) (sparse : Bool) (stride : Nat) (vm : VReg)

theorem bound_keptWeights : (s.updMe Strand.bindHere).keptWeights sparse vm = s.keptWeights sparse vm := by
  rw [State.keptWeights, State.keptWeights, bindHere_me]
  rfl

theorem bound_loadBlocks : (s.updMe Strand.bindHere).loadBlocks cls sparse stride vm = s.loadBlocks cls sparse stride vm := by
  rw [State.loadBlocks, State.loadBlocks, bound_keptWeights, bindHere_me]

theorem bound_loadPlane (srcs : List WeightSource) :
    (s.updMe Strand.bindHere).loadPlane cls sparse vm srcs = s.loadPlane cls sparse vm srcs := by
  rw [State.loadPlane, State.loadPlane, bindHere_engine, bindHere_me]
  rfl

end

theorem clsElems_eq (cls : BitVec 2) : clsElems cls.toNat = if cls = 0#2 then 128 else if cls = 1#2 then 32 else 8 := by
  revert cls
  decide

theorem loadBlocks_eq (s : State) (cls : BitVec 2) (sparse : Bool) (stride : Nat) (vm : VReg) :
    s.loadBlocks cls sparse stride vm =
      (let n := (s.me.shape.toNat / 2 ^ 40) % 2 ^ 8
       let k := (s.me.shape.toNat / 2 ^ 24) % 2 ^ 16
       let g := if cls = 0#2 then 128 else if cls = 1#2 then 32 else 8
       let kept := if sparse then popBelow (maskBits (s.me.vreg vm) k) k else k
       ((List.range ((kept + g - 1) / g)).drop s.me.vstart.toNat).flatMap fun i =>
         (List.range n).map fun j => i * stride + j) := by
  rw [State.loadBlocks, State.keptWeights, clsElems_eq, shapeN_eq, shapeK_eq]

/-- The classes that a mode accepts (R153). -/
theorem clsModes_contains {cls mode : BitVec 2} (h : (cls = 0#2 ∧ (mode = 0#2 ∨ mode = 1#2)) ∨ (cls = 1#2 ∧ mode = 1#2) ∨
    (cls = 2#2 ∧ mode = 2#2)) : (clsModes cls.toNat).contains mode.toNat = true := by
  obtain ⟨rfl, rfl | rfl⟩ | ⟨rfl, rfl⟩ | ⟨rfl, rfl⟩ := h <;> rfl

/-- A load that passes its checks is in the engine's hands: started, or in the queue. -/
theorem mldw_completes {s : State} (may : s.mayMatrix) {cls space : BitVec 2} {sparse : Bool} {rb rc : SReg} {vm : VReg}
    {hint : BitVec 2} {srcs : List WeightSource} (fits : (s.updMe Strand.bindHere).loadFits cls sparse (s.sreg rc).toNat)
    (aligned : (s.sreg rb).toNat % 64 = 0)
    (mask : sparse = true → vm.toNat ∉ s.me.poisonV ∧ shapeK s.me.shape ≤ s.me.mvl.toNat ∧
      s.keptWeights sparse vm ≤ planeMax (s.core s.me.core).engine.mode.toNat)
    (plan : (s.updMe Strand.bindHere).loadPlan space (s.sreg rb).toNat (s.loadBlocks cls sparse (s.sreg rc).toNat vm) =
      .ok (.read srcs))
    (short : (s.core s.me.core).engine.queue.length < 8) (room : s.boardRoom 1) :
    Completes (.mldw cls space sparse rb rc vm hint) s fun t => MatrixIssued s t ∧ (t.core s.me.core).engine =
      (s.core s.me.core).engine.issueLoad (s.loadPlane cls sparse vm srcs) s.me.shape := by
  have run := mldw_ok (vm := vm) fits aligned (by rw [bound_keptWeights, bindHere_engine, bindHere_me]; exact mask)
    (by rw [bound_loadBlocks]; exact plan) (by rw [bindHere_engine]; exact short) ((boardRoom_bindHere s 1).2 room)
  refine ⟨_, (exec_mldw may).trans (congrArg (finish _ _) run), loadIssued_issued s _ _ _, ?_⟩
  have engine := loadIssued_engine (s.updMe Strand.bindHere) space
    (((s.updMe Strand.bindHere).loadBlocks cls sparse (s.sreg rc).toNat vm).map fun l => (s.sreg rb).toNat + 64 * l)
    ((s.updMe Strand.bindHere).loadPlane cls sparse vm srcs)
  rw [bindHere_me_core, bindHere_me, bound_loadPlane] at engine
  rw [bound_loadPlane]
  exact engine

/-- A sparse load whose mask vector holds poison rolls the strip back, or ends the strand (R257). -/
theorem mldw_poison {s : State} (may : s.mayMatrix) {cls space : BitVec 2} {rb rc : SReg} {vm : VReg} {hint : BitVec 2}
    (fits : (s.updMe Strand.bindHere).loadFits cls true (s.sreg rc).toNat) (poison : vm.toNat ∈ s.me.poisonV) :
    (s.me.mayRollBack → Completes (.mldw cls space true rb rc vm hint) s fun t => OnlyMe (s.updMe Strand.bindHere) t ∧
      t.me = { (s.updMe Strand.bindHere).me with wait := .rollback }) ∧
    (¬ s.me.mayRollBack → s.me.state ≠ 0#4 → s.me.ended = false → Completes (.mldw cls space true rb rc vm hint) s fun t =>
      t.freed s.cur s.me ∨ (t.me.state = 6#4 ∧ t.me.cause = 0x13#8 ∧ t.me.place = none)) := by
  let s0 := s.updMe Strand.bindHere
  have me : s0.me = { s.me with bound := some s.me.core } := bindHere_me s
  have rolls : s0.me.mayRollBack ↔ s.me.mayRollBack := by rw [me]; rfl
  have run : exec (.mldw cls space true rb rc vm hint) s = .next (s0.uncorrectable s0.cur 0#64) := by
    rw [exec_mldw may, mldw_poisoned fits (by rw [bindHere_me]; exact poison)]
    exact congrArg Host.Outcome.next (raise_uncorrectable s0 s0.cur s0.me.pc 0#64)
  refine ⟨fun h => ?_, fun h state live => ?_⟩
  · rw [uncorrectable_rolls (rolls.2 h)] at run
    exact ⟨_, run, onlyMe_updMe s0 _, State.me_updMe s0 _⟩
  · rw [uncorrectable_ends (mt rolls.1 h)] at run
    obtain ⟨cur, gone | page⟩ := endStrand_keptOrFreed (s := s0) (state := 6#4) (cause := cUncorrectable) (discard := false)
      (by rw [me]; exact state) (by rw [me]; exact live) rfl
    · refine ⟨_, run, .inl ?_⟩
      rw [me] at gone
      exact gone
    · refine ⟨_, run, .inr ?_⟩
      rw [State.me, cur, page]
      exact ⟨rfl, rfl, rfl⟩

/-- A load that starts keeps the blocks below its first (R161, R163). -/
theorem startLoad_blocks (e : MatrixEngine) (p : Plane) (i : Nat) : lookupD (e.startLoad p).shadow.blocks i (0#512, 0#16) =
    if i < p.first then lookupD e.shadow.blocks i (0#512, 0#16) else (0#512, 0#16) := by
  rw [MatrixEngine.startLoad, lookupD_keepKeys]
  by_cases h : i < p.first <;> simp [h]

theorem nextShadow_eq (e : MatrixEngine) : e.nextShadow =
    if e.queue.any MatOp.isLoad then 1#2 else if e.swapping then 0#2 else e.shadow.state := rfl

/-- Settles O38: a load is one `issueLoad`, a swap one decision on the shadow plane that its turn will find, and a load that
meets nothing reads each of its blocks. -/
theorem matrixWeightLoads : Obligations.MatrixWeightLoads := by
  refine ⟨?_, ?_⟩
  · intro s cls space sparse rb rc vm hint s0 c e n k base stride g kept m0 ls retires started queued follows
      hc holder engineKept running
    have may : s.mayMatrix := ⟨hc, holder, engineKept, running⟩
    have here : s0.me.core = c := bindHere_me_core s
    have engine : s0.engine = e := bindHere_engine s
    have blocks : s.loadBlocks cls sparse stride vm = ls := loadBlocks_eq s cls sparse stride vm
    have fits (sp : e.sparse = sparse) (hn : n ≤ stride) (ok : (cls = 0#2 ∧ (e.mode = 0#2 ∨ e.mode = 1#2)) ∨
        (cls = 1#2 ∧ e.mode = 1#2) ∨ (cls = 2#2 ∧ e.mode = 2#2)) : s0.loadFits cls sparse stride :=
      ⟨by rw [engine]; exact clsModes_contains ok, by rw [engine]; exact sp, by rw [bindHere_me, shapeN_eq]; exact hn⟩
    have k0 : shapeK s.me.shape = k := shapeK_eq _
    have n0 : shapeN s.me.shape = n := shapeN_eq _
    have kept0 : s.keptWeights sparse vm = kept := by
      rw [State.keptWeights, k0]
    refine ⟨fun sp hn aligned short room ok mask => ?_, fun sp hn ok => ?_, fun busy => ?_, fun load => ⟨fun loaded swap short => ?_,
      fun faulted swap live poison brk => ?_, fun none => ?_⟩⟩
    · have issued (srcs : List WeightSource) (plan : s0.loadPlan space base ls = .ok (.read srcs)) : follows srcs := by
        obtain ⟨t, run, ⟨retired, vstart, ckpt, sreg, vreg⟩, made⟩ := mldw_completes may (hint := hint) (fits sp hn ok) aligned
          (by rw [k0, kept0]; exact mask) (by rw [blocks]; exact plan) short room
        have retires' : retires t := ⟨retired, vstart, ckpt, sreg, vreg⟩
        refine ⟨fun still swap load => ⟨t, run, retires', ?_⟩, fun busy => ⟨t, run, retires', s.loadPlane cls sparse vm srcs, ?_⟩⟩
        · rw [issueLoad_starts _ _ still swap load] at made
          have shadow := congrArg MatrixEngine.shadow made
          refine ⟨made.trans (by rw [shadow]; rfl), ?_⟩
          rw [shadow, ← k0, ← n0]
          exact ⟨rfl, rfl, rfl, rfl, fun i hi => (startLoad_blocks e _ i).trans (if_pos hi), rfl, rfl, rfl, rfl, rfl⟩
        · rw [issueLoad_waits _ _ busy] at made
          exact ⟨made, rfl, rfl, congrArg (· * m0) n0, k0, n0, rfl, rfl, congrArg (maskBits _) k0, rfl, rfl⟩
      refine ⟨fun spad free => issued _ ?_, fun global srcs plan => issued srcs ?_⟩
      · have free0 : s0.spadBlocksOk (ls.map fun l => base + 64 * l) = .ok () := by
          refine spadBlocksOk_of fun a ha => ?_
          obtain ⟨l, hl, rfl⟩ := List.mem_map.1 ha
          rw [here, bindHere_me]
          exact free l hl
        rw [State.loadPlan, if_pos spad, free0, here, List.map_map]
        rfl
      · rw [State.loadPlan, if_neg (by rw [global]; decide)]
        exact plan
    · rintro rfl poison rolls
      obtain ⟨back, ends⟩ := mldw_poison may (space := space) (rb := rb) (hint := hint) (fits sp hn ok) poison
      exact ⟨back, ends⟩
    · have next : s0.engine.nextShadow = 1#2 := by
        rw [engine, nextShadow_eq]
        obtain h | ⟨swap, h⟩ := busy
        · rw [if_pos h]
        · rw [swap, h]
          simp
      rw [exec_mswap may, mswap_waits next]
      rfl
    · have next : s0.engine.nextShadow = 2#2 := by
        rw [engine, nextShadow_eq, load, swap]
        exact loaded
      obtain ⟨retired, vstart, ckpt, sreg, vreg⟩ := enqueue_issued s .mswap 0 0 0 false []
      obtain ⟨b, core⟩ := enqueue_core s0 .mswap 0 0 0 false []
      rw [here, bindHere_me] at core
      refine ⟨_, (exec_mswap may).trans (congrArg (finish s0 0#3) (mswap_decided next (by rw [engine]; exact short))),
        ⟨retired, vstart, ckpt, sreg, vreg⟩, s.nextId, ?_⟩
      rw [core]
      rfl
    · have next : s0.engine.nextShadow = 3#2 := by
        rw [engine, nextShadow_eq, load, swap]
        exact faulted
      have run := (exec_mswap may).trans (congrArg (finish s0 0#3) (mswap_faulted next))
      rw [engine, bindHere_me] at run
      exact bindHere_raises run poison live brk
    · have next : s0.engine.nextShadow = 0#2 := by
        rw [engine, nextShadow_eq, load]
        obtain empty | ⟨-, swap⟩ := none
        · rw [empty]
          simp
        · rw [swap]
          rfl
      exact bindHere_raises ((exec_mswap may).trans (congrArg (finish s0 0#3) (mswap_empty next))) (by decide) (by decide)
        (by decide)
  · intro s c n e p holder kept free loading reads
    obtain ⟨blocks, read, below, above⟩ := readAllWeights_reads (s := s) (n := n) (cls := p.cls) p.region (l := p.srcs)
      (fun w hw => have ⟨quiet, bytes, home, format⟩ := reads w hw; ⟨quiet, bytes, home, format⟩) p.first p.blocks
    have done := mldwDone_loads holder free loading read
    have core : (s.mldwDone c).core c = { s.core c with board := (s.core c).board.filter fun x => x.op != p.sbOp, engine := { e with
        shadow := { p with state := 2#2, blocks := blocks, srcs := [] } } } := by
      rw [done, State.core_updEngine_self, core_sweepRaces, State.boardRetire, State.core_updCore_self]
      exact congrArg (fun g => { s.core c with board := (s.core c).board.filter fun x => x.op != p.sbOp, engine := g })
        (settle_kept (e := { e with shadow := { p with state := 2#2, blocks := blocks, srcs := [] } }) kept)
    refine ⟨_, rfl, ?_⟩
    beta_reduce
    rw [core]
    exact ⟨rfl, rfl, below, above, rfl, by rw [done]; rfl, by rw [done]; rfl, rfl⟩

end Sys2Proof.Machine
end

section
/-! Fields of wide words written one by one: elements and segment tags of a vector register (R16, R20), raw elements of the
accumulator (R148, R159). -/

namespace Sys2Proof.Machine

/-! One field of a word. -/

theorem getLsbD_putSlice {n w : Nat} (x : BitVec n) (lo : Nat) (v : BitVec w) (i : Nat) :
    (putSlice x lo v).getLsbD i = if lo ≤ i ∧ i < lo + w ∧ i < n then v.getLsbD (i - lo) else x.getLsbD i := by
  unfold putSlice
  have inside : x.getLsbD i = true → i < n := BitVec.lt_of_getLsbD
  by_cases hn : i < n
  · by_cases hlo : lo ≤ i
    · have low : ¬ i < lo := by omega
      by_cases hw : i < lo + w
      · have field : i - lo < w := by omega
        simp [hn, hlo, low, hw, field]
      · have field : ¬ i - lo < w := by omega
        have above : v.getLsbD (i - lo) = false := BitVec.getLsbD_of_ge v _ (by omega)
        simp [hn, hlo, low, hw, field, above]
    · have low : i < lo := by omega
      simp [hn, hlo, low]
  · simpa [hn] using inside

theorem extractLsb'_putSlice_self {n w : Nat} (x : BitVec n) (lo : Nat) (v : BitVec w) (fits : lo + w ≤ n) :
    (putSlice x lo v).extractLsb' lo w = v := by
  refine BitVec.eq_of_getLsbD_eq fun i hi => ?_
  have place : lo ≤ lo + i ∧ lo + i < lo + w ∧ lo + i < n := by omega
  rw [BitVec.getLsbD_extractLsb', getLsbD_putSlice, if_pos place, Nat.add_sub_cancel_left, decide_eq_true hi, Bool.true_and]

theorem extractLsb'_putSlice_apart {n w : Nat} (x : BitVec n) (lo : Nat) (v : BitVec w) (o u : Nat)
    (apart : lo + w ≤ o ∨ o + u ≤ lo ∨ n ≤ lo) : (putSlice x lo v).extractLsb' o u = x.extractLsb' o u := by
  refine BitVec.eq_of_getLsbD_eq fun i hi => ?_
  have place : ¬ (lo ≤ o + i ∧ o + i < lo + w ∧ o + i < n) := by omega
  rw [BitVec.getLsbD_extractLsb', getLsbD_putSlice, if_neg place, BitVec.getLsbD_extractLsb']

/-! Fields written one after the other. -/

/-- Each step writes the field of its index: a field that the list names holds its value, another is as before. -/
theorem foldl_slot {σ β : Type} {read : σ → β} {step : σ → Nat → σ} {val : Nat → β} {i : Nat} {l : List Nat}
    (one : ∀ s, ∀ e ∈ l, read (step s e) = if e = i then val e else read s) (s : σ) :
    read (l.foldl step s) = if i ∈ l then val i else read s := by
  induction l generalizing s with
  | nil => rfl
  | cons e r ih =>
    rw [List.foldl_cons, ih fun s x hx => one s x (.tail _ hx), one s e (.head _)]
    by_cases later : i ∈ r
    · rw [if_pos later, if_pos (.tail _ later)]
    · rw [if_neg later]
      by_cases here : e = i
      · rw [if_pos here, if_pos (by rw [here]; exact .head _), here]
      · rw [if_neg here, if_neg (by simp [later, Ne.symm here])]

theorem element_putElement {w : Nat} (v : BitVec 16384) (e i : Nat) (z : Nat → BitVec w) (fits : (i + 1) * w ≤ 16384) :
    element (putElement v e (z e)) w i = if e = i then z e else element v w i := by
  have ends : w * i + w ≤ 16384 := by rw [Nat.add_mul, Nat.mul_comm i, Nat.one_mul] at fits; exact fits
  by_cases h : e = i
  · subst h
    rw [if_pos rfl]
    exact extractLsb'_putSlice_self _ _ _ ends
  · rw [if_neg h]
    refine extractLsb'_putSlice_apart _ _ _ _ _ ?_
    rcases Nat.lt_or_gt_of_ne h with below | above
    · exact .inl (Nat.mul_succ w e ▸ Nat.mul_le_mul_left w below)
    · exact .inr (.inl (Nat.mul_succ w i ▸ Nat.mul_le_mul_left w above))

theorem element_putElements {w : Nat} (v : BitVec 16384) (l : List Nat) (z : Nat → BitVec w) {i : Nat}
    (fits : (i + 1) * w ≤ 16384) :
    element (l.foldl (fun v e => putElement v e (z e)) v) w i = if i ∈ l then z i else element v w i :=
  foldl_slot (read := fun v => element v w i) (fun v e _ => element_putElement v e i z fits) v

/-! The registers of a page. -/

theorem Strand.vreg_setV (x : Strand) (r q : VReg) (v : BitVec 16384) :
    (x.setV r v).vreg q = if q = r then v else x.vreg q := by
  unfold Strand.vreg Strand.setV
  dsimp only
  rw [toList_getD_setIfInBounds]
  by_cases h : q = r
  · rw [if_pos h, if_pos ⟨by rw [h], by omega⟩]
  · rw [if_neg h, if_neg fun g => h (BitVec.eq_of_toNat_eq g.1)]

theorem Strand.segTag_setSegTag (x : Strand) (r q : VReg) (g n : Nat) (t : Tag) (hn : n < 32) :
    (x.setSegTag r g t).segTag q n = if q = r then if g = n then t else x.segTag r n else x.segTag q n := by
  unfold Strand.segTag Strand.setSegTag
  dsimp only
  rw [toList_getD_setIfInBounds]
  by_cases h : q = r
  · subst h
    rw [if_pos ⟨rfl, by omega⟩, if_pos rfl]
    by_cases hg : g = n
    · subst hg
      rw [if_pos rfl]
      exact extractLsb'_putSlice_self _ _ _ (by omega)
    · rw [if_neg hg]
      exact extractLsb'_putSlice_apart _ _ _ _ _ (by omega)
  · rw [if_neg h, if_neg fun g => h (BitVec.eq_of_toNat_eq g.1)]

theorem Strand.segTag_tagSegs (x : Strand) (r : VReg) (l : List Nat) (t : Tag) {n : Nat} (hn : n < 32) :
    (x.tagSegs r l t).segTag r n = if n ∈ l then t else x.segTag r n :=
  foldl_slot (read := fun x : Strand => x.segTag r n) (val := fun _ => t)
    (fun x g _ => (x.segTag_setSegTag r r g n t hn).trans (if_pos rfl)) x

/-- Tags of one register change nothing else of a page. -/
theorem Strand.tagSegs_frame (r : VReg) (l : List Nat) (t : Tag) (x : Strand) :
    { x.tagSegs r l t with vec := { (x.tagSegs r l t).vec with tags := x.vec.tags } } = x ∧
      ∀ q, q ≠ r → ∀ n, (x.tagSegs r l t).segTag q n = x.segTag q n := by
  refine foldl_related (R := fun x y : Strand => { y with vec := { y.vec with tags := x.vec.tags } } = x ∧
    ∀ q, q ≠ r → ∀ n, y.segTag q n = x.segTag q n) (fun _ => ⟨rfl, fun _ _ _ => rfl⟩) ?_ ?_ x
  · rintro x y z ⟨xy, tags⟩ ⟨yz, tags'⟩
    refine ⟨?_, fun q hq n => (tags' q hq n).trans (tags q hq n)⟩
    rw [← xy, ← yz]
  · intro x g _
    refine ⟨rfl, fun q hq n => ?_⟩
    unfold Strand.segTag Strand.setSegTag
    dsimp only
    rw [toList_getD_setIfInBounds, if_neg fun h => hq (BitVec.eq_of_toNat_eq h.1)]

theorem mem_segsOf {w n : Nat} {l : List Nat} : n ∈ segsOf w l ↔ ∃ e ∈ l, w * e / 512 = n := by
  rw [segsOf, List.mem_eraseDups, List.mem_map]

/-- The elements of `es` of register `vd` hold `val`, their segments hold `tag`; another element, tag, register and field of
the page `y` is that of `x`, poison apart (R16, R20, R257). -/
structure Strand.Loaded (x y : Strand) (vd : VReg) (w : Nat) (es : List Nat) (val : Nat → BitVec w) (tag : Tag) : Prop where
  frame  : { y with vec := x.vec, poisonV := x.poisonV } = x
  masks  : y.vec.k = x.vec.k
  prog   : y.vec.prog = x.vec.prog
  value  : ∀ i, (i + 1) * w ≤ 16384 → element (y.vreg vd) w i = if i ∈ es then val i else element (x.vreg vd) w i
  tags   : ∀ n, n < 32 → y.segTag vd n = if n ∈ segsOf w es then tag else x.segTag vd n
  others : ∀ q, q ≠ vd → y.vreg q = x.vreg q ∧ ∀ n, y.segTag q n = x.segTag q n

/-- Elements of one register of a page, written with one tag. -/
def Strand.loadElems {w : Nat} (x : Strand) (vd : VReg) (es : List Nat) (val : Nat → BitVec w) (tag : Tag) : Strand :=
  if es.isEmpty then x
  else (x.setV vd (es.foldl (fun v e => putElement v e (val e)) (x.vreg vd))).tagSegs vd (segsOf w es) tag

theorem Strand.loadElems_loaded {w : Nat} (x : Strand) (vd : VReg) (es : List Nat) (val : Nat → BitVec w) (tag : Tag) :
    x.Loaded (x.loadElems vd es val tag) vd w es val tag := by
  unfold Strand.loadElems
  cases es with
  | nil => exact ⟨rfl, rfl, rfl, fun _ _ => rfl, fun _ _ => rfl, fun _ _ => ⟨rfl, fun _ => rfl⟩⟩
  | cons e r =>
    generalize hv : (e :: r).foldl (fun v e => putElement v e (val e)) (x.vreg vd) = v
    obtain ⟨frame, others⟩ := Strand.tagSegs_frame vd (segsOf w (e :: r)) tag (x.setV vd v)
    have shows {α : Type} (f : Strand → α) (blind : ∀ y : Strand, ∀ l, f { y with vec := { y.vec with tags := l } } = f y) :
        f ((x.setV vd v).tagSegs vd (segsOf w (e :: r)) tag) = f (x.setV vd v) :=
      (blind _ _).symm.trans (congrArg f frame)
    have vregs (q : VReg) := (shows (fun y => y.vreg q) fun _ _ => rfl).trans (x.vreg_setV vd q v)
    refine ⟨shows (fun y => { y with vec := x.vec, poisonV := x.poisonV }) fun _ _ => rfl,
      shows (fun y => y.vec.k) fun _ _ => rfl, shows (fun y => y.vec.prog) fun _ _ => rfl, fun i hi => ?_,
      fun n hn => Strand.segTag_tagSegs _ vd _ tag hn, fun q hq => ⟨(vregs q).trans (if_neg hq), others q hq⟩⟩
    rw [← element_putElements _ _ val hi, hv]
    exact congrArg (fun u => element u w i) ((vregs vd).trans (if_pos rfl))

/-! Raw elements of the accumulator. -/

/-- Raw element `i` of width `w` from a base row (R159). -/
def MatrixEngine.raw (g : MatrixEngine) (base w i : Nat) : BitVec w :=
  (lookupD g.acc (base + i * w / 1024) 0#1024).extractLsb' (i * w % 1024) w

/-- One raw element written. -/
def MatrixEngine.putRaw {w : Nat} (g : MatrixEngine) (base e : Nat) (z : BitVec w) : MatrixEngine :=
  { g with acc := putAt g.acc (base + e * w / 1024) (putSlice (lookupD g.acc (base + e * w / 1024) 0#1024) (e * w % 1024) z) }

theorem raw_putRaw {w : Nat} (hw : w = 32 ∨ w = 64) (g : MatrixEngine) (base e i : Nat) (z : Nat → BitVec w) :
    (g.putRaw base e (z e)).raw base w i = if e = i then z e else g.raw base w i := by
  unfold MatrixEngine.raw MatrixEngine.putRaw
  dsimp only
  rw [lookupD_putAt]
  by_cases h : e = i
  · subst h
    rw [if_pos rfl, if_pos rfl]
    exact extractLsb'_putSlice_self _ _ _ (by obtain rfl | rfl := hw <;> omega)
  · rw [if_neg h]
    split
    · next same =>
      rw [same]
      exact extractLsb'_putSlice_apart _ _ _ _ _ (by obtain rfl | rfl := hw <;> omega)
    · rfl

theorem raw_putRaws {w : Nat} (hw : w = 32 ∨ w = 64) (base : Nat) (l : List Nat) (z : Nat → BitVec w) (g : MatrixEngine) (i : Nat) :
    (l.foldl (fun g e => g.putRaw base e (z e)) g).raw base w i = if i ∈ l then z i else g.raw base w i :=
  foldl_slot (read := fun g : MatrixEngine => g.raw base w i) (fun g e _ => raw_putRaw hw g base e i z) g

/-- Raw elements are written to the accumulator from the base row up, and nothing else of the engine changes. -/
theorem putRaws_frame {w : Nat} (base : Nat) (z : Nat → BitVec w) (l : List Nat) (g : MatrixEngine) :
    { l.foldl (fun g e => g.putRaw base e (z e)) g with acc := g.acc } = g ∧
      ∀ r, r < base → lookupD (l.foldl (fun g e => g.putRaw base e (z e)) g).acc r 0#1024 = lookupD g.acc r 0#1024 := by
  refine foldl_related (R := fun g h : MatrixEngine => { h with acc := g.acc } = g ∧
    ∀ r, r < base → lookupD h.acc r 0#1024 = lookupD g.acc r 0#1024) (fun _ => ⟨rfl, fun _ _ => rfl⟩) ?_ ?_ g
  · rintro f g h ⟨fg, rows⟩ ⟨gh, rows'⟩
    refine ⟨?_, fun r hr => (rows' r hr).trans (rows r hr)⟩
    rw [← fg, ← gh]
  · intro g e _
    refine ⟨rfl, fun r hr => ?_⟩
    unfold MatrixEngine.putRaw
    dsimp only
    rw [lookupD_putAt, if_neg (by omega)]

end Sys2Proof.Machine
end

section
/-! `mrd`, `mwr` and `mchk` (R159, R162). -/

namespace Sys2Proof.Machine

theorem vectorIssue_ok {s : State} {p : BitVec 2} (h : s.mayVector true p) : s.vectorIssue true p = .ok () := by
  obtain ⟨claimed, -, wide⟩ := h
  have handler : (!(s.me.inHandler && !s.me.claimed)) = true := by
    cases inside : s.me.inHandler with
    | false => rfl
    | true => rw [claimed inside]; rfl
  have width : (!(p == 3#2 && s.me.mvl == 256#16)) = true := by
    by_cases hp : p = 3#2
    · simp [hp, wide hp]
    · simp [hp]
  unfold State.vectorIssue
  dsimp only
  rw [handler, width]
  rfl

theorem State.mayVector.bound {s : State} {p : BitVec 2} (h : s.mayVector true p) :
    (s.updMe Strand.bindHere).mayVector true p := by
  unfold State.mayVector
  rw [bindHere_me]
  exact h

/-- Raw rows of the holder whose checks pass wait for the older operations of the engine (R149, R159). -/
theorem rawIssue_checked {s : State} {base : Nat} {p : BitVec 2} (may : s.mayMatrix) (vector : s.mayVector true p)
    (wide : 2 ≤ s.me.sew.toNat) (range : 128 * base + s.me.vl.toNat * s.me.width / 8 ≤ 262144) :
    s.rawIssue base p = waitUnless s.engine.idle := by
  rw [State.rawIssue, vectorIssue_ok vector, may.issue, decide_eq_true wide, decide_eq_true range, may.running]
  rfl

theorem mem_activeElems {s : State} {k : KReg} {i : Nat} : i ∈ s.me.activeElems k ↔ s.active k i := by
  unfold Strand.activeElems State.active
  simp only [List.mem_filter, List.mem_range, Bool.and_eq_true, decide_eq_true_eq]
  tauto

theorem bindHere_active (s : State) (k : KReg) : (s.updMe Strand.bindHere).active k = s.active k := by
  unfold State.active
  rw [bindHere_me]
  rfl

theorem width_cases {x : Strand} (h : 2 ≤ x.sew.toNat) : x.width = 32 ∨ x.width = 64 := by
  have below := x.sew.isLt
  unfold Strand.width sewBits
  obtain two | three : x.sew.toNat = 2 ∨ x.sew.toNat = 3 := by omega
  · exact .inl (by rw [two]; rfl)
  · exact .inr (by rw [three]; rfl)

/-! What a page shows once `mrd` has retired. -/

/-- A page whose loaded elements are done with retires with what a vector instruction leaves (R16, R20 to R22). -/
theorem vectorResult_of_loaded {s : State} {vd : VReg} {k : KReg} {w : Nat} {val : Nat → BitVec w} {tag : Tag}
    (f : Strand → Strand) (loaded : s.me.Loaded (f s.me) vd w (s.me.activeElems k) val tag) :
    VectorResult s.dropCheckpoint (s.updMe fun x => ((f x).vectorDone (some vd)).issueDone.retire s.npc) vd w (s.active k) val
      (fun _ => tag) (fun _ => 0#5) fun _ => False := by
  have page := State.me_updMe s fun x => ((f x).vectorDone (some vd)).issueDone.retire s.npc
  have old : s.dropCheckpoint.me = { s.me with ckpt := { s.me.ckpt with valid := false } } := State.me_updMe s _
  have shows {α : Type} (proj : Strand → α) (blind : ∀ x : Strand, proj x.settled = proj x) :
      proj (s.updMe fun x => ((f x).vectorDone (some vd)).issueDone.retire s.npc).me =
        proj ((f s.me).vectorDone (some vd)).issueDone :=
    (congrArg proj page).trans (Strand.retire_shows proj blind _ s.npc)
  have vregs (r : VReg) := shows (fun x => x.vreg r) fun _ => rfl
  have tags (r : VReg) (n : Nat) := shows (fun x => x.segTag r n) fun _ => rfl
  have prog := shows (fun x => x.vec.prog) fun _ => rfl
  have masks (q : Nat) : (s.updMe fun x => ((f x).vectorDone (some vd)).issueDone.retire s.npc).me.kreg q = s.me.kreg q :=
    (shows (fun x => x.kreg q) fun _ => rfl).trans (congrArg (fun m : Vector (BitVec 2048) 16 =>
      if q = 0 then BitVec.allOnes 2048 else m.toList.getD q 0#2048) loaded.masks)
  have kept {α : Type} (proj : Strand → α) (blind : ∀ x : Strand, ∀ v l, proj { x with vec := v, poisonV := l } = proj x) :
      proj (f s.me) = proj s.me := (blind _ _ _).symm.trans (congrArg proj loaded.frame)
  refine ⟨⟨rfl, fun n hn => ?_⟩, ?_, fun e fits => ?_, fun n hn => ?_, fun r hr => ?_, ?_, fun q _ => ?_, fun e _ => ?_, fun i => ?_,
    ⟨shows Strand.vstart fun _ => rfl, shows Strand.vres fun _ => rfl⟩, ?_⟩
  · rw [State.strand_updMe]
    exact (if_neg hn).trans ((State.strand_updMe s n _).trans (if_neg hn)).symm
  · refine retiredAt_of_run page ?_
    rw [old]
    exact kept Strand.run fun _ _ _ => rfl
  · rw [vregs, old]
    have value := loaded.value e fits
    exact ⟨fun on => value.trans (if_pos (mem_activeElems.2 on)), fun off => value.trans (if_neg fun h => off (mem_activeElems.1 h))⟩
  · rw [tags, old]
    have tag := loaded.tags n hn
    refine ⟨fun ⟨e, on, here⟩ => tag.trans (if_pos (mem_segsOf.2 ⟨e, mem_activeElems.2 on, here⟩)), fun none => tag.trans (if_neg ?_)⟩
    rw [mem_segsOf]
    rintro ⟨e, on, here⟩
    exact none e (mem_activeElems.1 on) here
  · rw [old, vregs, prog]
    obtain ⟨same, tags'⟩ := loaded.others r hr
    refine ⟨same, fun n => (tags r n).trans (tags' n), ?_⟩
    refine (toList_getD_setIfInBounds _ _ _ _ _).trans ((if_neg fun h => hr (BitVec.eq_of_toNat_eq h.1)).trans ?_)
    rw [loaded.prog]
  · rw [old, prog]
    refine (toList_getD_setIfInBounds _ _ _ _ _).trans ((if_pos ⟨rfl, vd.isLt⟩).trans ?_)
    rw [kept Strand.vl fun _ _ _ => rfl]
    simp
  · rw [masks, old]
    rfl
  · rw [masks, old]
    exact ⟨.inl, fun h => h.elim id fun ⟨_, no⟩ => no.elim⟩
  · have flags := (shows Strand.fflags fun _ => rfl).trans (kept Strand.fflags fun _ _ _ => rfl)
    rw [flags, old]
    refine ⟨.inl, fun h => h.elim id ?_⟩
    rintro ⟨e, -, set⟩
    simp at set
  · rw [page, Strand.retire_settled, old]
    exact congrArg (fun x : Strand => { x.settled with
      vstart := s.me.vstart, vres := s.me.vres, fflags := s.me.fflags, ckpt := { x.ckpt with valid := false } }) loaded.frame

theorem mrd_eq (s : State) (vd : VReg) (base : Nat) (k : KReg) : s.mrd vd base k = s.updMe fun x =>
    ((if (s.me.activeElems k).isEmpty then x else
      (x.setV vd ((s.me.activeElems k).foldl (fun v e => putElement v e (s.engine.raw base s.me.width e)) (s.me.vreg vd))).tagSegs
        vd (segsOf s.me.width (s.me.activeElems k)) (if s.me.width = 32 then 0x7F06#16 else 0x7F07#16)).vectorDone
          (some vd)).issueDone.retire s.npc := by
  unfold State.mrd
  dsimp only
  rw [matrixDone_eq, updMe_updMe]
  split
  · rfl
  · rw [updMe_updMe]
    rfl

theorem mrd_result {s : State} {w : Nat} (hw : s.me.width = w) (vd : VReg) (base : Nat) (k : KReg) :
    VectorResult s.dropCheckpoint (s.mrd vd base k) vd w (s.active k) (s.engine.raw base w)
      (fun _ => if w = 32 then 0x7F06#16 else 0x7F07#16) (fun _ => 0#5) fun _ => False := by
  subst hw
  rw [mrd_eq]
  exact vectorResult_of_loaded (fun x => if (s.me.activeElems k).isEmpty then x else
      (x.setV vd ((s.me.activeElems k).foldl (fun v e => putElement v e (s.engine.raw base s.me.width e)) (s.me.vreg vd))).tagSegs
        vd (segsOf s.me.width (s.me.activeElems k)) (if s.me.width = 32 then 0x7F06#16 else 0x7F07#16))
    (s.me.loadElems_loaded vd _ _ _)

/-! What `mwr` leaves. -/

/-- `mwr` of a source without poison writes its active elements to the accumulator, and retires (R159, R257). -/
theorem mwr_writes {s : State} {vc : VReg} {w : Nat} (hw : s.me.width = w) (clean : vc.toNat ∉ s.me.poisonV) (base : Nat)
    (p : BitVec 2) (k : KReg) :
    ∃ u : State, s.mwr base vc p k = (u.updMe fun x => x.vectorDone none).matrixDone ∧ u.me = s.me ∧ u.npc = s.npc ∧
      (u.core s.me.core).engine = (s.me.activeElems k).foldl (fun g e => g.putRaw base e
        (repElement (s.me.vreg vc) p w e : BitVec w)) s.engine := by
  subst hw
  unfold State.mwr
  dsimp only
  cases s.me.activeElems k with
  | nil => exact ⟨s, rfl, rfl, rfl, rfl⟩
  | cons e r =>
    exact ⟨_, if_neg (by simpa using clean), rfl, rfl, congrArg Core.engine (State.core_updEngine_self s s.me.core _)⟩

/-- An instruction that has bound its strand retires where that strand does. -/
theorem RetiredAt.unbound {s t : State} {pc : Word} (h : RetiredAt (s.updMe Strand.bindHere) t pc) : RetiredAt s t pc := by
  obtain ⟨place, running, stepped⟩ := h
  rw [bindHere_me] at running stepped
  exact ⟨place, running, stepped⟩

/-- It retires with every register as it was. -/
theorem mwr_issued {s u : State} (page : u.me = s.me.bindHere) (npc : u.npc = s.npc) :
    RetiredAt s (u.updMe fun x => x.vectorDone none).matrixDone s.npc ∧
    (u.updMe fun x => x.vectorDone none).matrixDone.me.vstart = 0#32 ∧
    (u.updMe fun x => x.vectorDone none).matrixDone.me.ckpt = { s.me.ckpt with valid := false } ∧
    ∀ r, (u.updMe fun x => x.vectorDone none).matrixDone.me.vreg r = s.me.vreg r := by
  have me : (u.updMe fun x => x.vectorDone none).matrixDone.me = (s.me.bindHere.vectorDone none).issueDone.retire s.npc := by
    rw [matrixDone_me, State.me_updMe, page]
    exact congrArg _ npc
  refine ⟨retiredAt_of_run me rfl, ?_, ?_, fun r => ?_⟩
  · rw [me, Strand.retire_vstart]
    rfl
  · rw [me, Strand.retire_ckpt]
    rfl
  · rw [me, Strand.retire_shows (fun x => x.vreg r) fun _ => rfl]
    rfl

/-! `mchk`. -/

/-- The page once the record has been read and cleared. -/
def Strand.recordRead (x : Strand) : Strand :=
  { x with
    mstopValid := false, mstopAddr := 0#57, mchkRow := 0#11, mchkLost := 0#8, mchkFail := 0#11
    mchkCount := 0#16, vstart := 0#32 }

theorem mchk_waits {s : State} {rd : SReg} (hc : s.me.core % 64 < 36) (holder : s.engine.holder = some s.cur)
    (busy : s.engine.idle = false) : s.mchk rd = .error .wait := by
  rw [State.mchk, hasEngine_ok hc, ok_bind, holder, busy, BEq.rfl]
  rfl

theorem mchk_reads {s : State} {rd : SReg} (hc : s.me.core % 64 < 36)
    (free : s.engine.holder ≠ some s.cur ∨ s.engine.idle = true) :
    s.mchk rd = .ok (s.updMe fun x => (x.recordRead.setS rd s.me.checkWord).retire s.npc) := by
  have may : (!(s.engine.holder == some s.cur) || s.engine.idle) = true := by
    obtain other | idle := free
    · simp [other]
    · simp [idle]
  rw [State.mchk, hasEngine_ok hc, ok_bind, may]
  change Except.ok (State.retire (State.setS (s.updMe _) rd s.me.checkWord)) = _
  rw [State.retire, State.setS, updMe_updMe, updMe_updMe]
  rfl

theorem mchk_result {s : State} (rd : SReg) (v : Word) :
    let t := s.updMe fun x => (x.recordRead.setS rd v).retire s.npc
    OnlyMe s t ∧ RetiredAt s t s.npc ∧ (∀ r, t.sreg r = if r = 0#5 then 0#64 else if r = rd then v else s.sreg r) ∧
      t.me.mstopValid = false ∧ t.me.mchkLost = 0#8 ∧ t.me.mchkCount = 0#16 ∧ t.me.ckpt = s.me.ckpt := by
  intro t
  have page : t.me = (s.me.recordRead.setS rd v).retire s.npc := State.me_updMe s _
  have shows {α : Type} (proj : Strand → α) (blind : ∀ x : Strand, proj x.settled = proj x)
      (other : ∀ x : Strand, ∀ l, proj { x with s := l } = proj x) : proj t.me = proj s.me.recordRead := by
    rw [page, Strand.retire_shows proj blind, Strand.setS_other]
    exact other _ _
  refine ⟨onlyMe_updMe s _, retiredAt_of_run page ((Strand.run_setS ..).trans rfl), fun r => ?_,
    shows Strand.mstopValid (fun _ => rfl) fun _ _ => rfl, shows Strand.mchkLost (fun _ => rfl) fun _ _ => rfl,
    shows Strand.mchkCount (fun _ => rfl) fun _ _ => rfl, shows Strand.ckpt (fun _ => rfl) fun _ _ => rfl⟩
  rw [State.sreg, page, Strand.retire_sreg, Strand.sreg_setS]
  rfl

end Sys2Proof.Machine
end

section
/-! Rows of matrix operations (R149, R157 to R163): what the engine does to one row of the oldest operation of its queue, what
any row leaves alone, and when a row meets an error. -/

namespace Sys2Proof.Machine

/-! Nothing but cores. -/

/-- Nothing but cores has changed. -/
def SameButCores (s t : State) : Prop := { t with cores := s.cores } = s

theorem SameButCores.refl (s : State) : SameButCores s s := rfl

section
variable {s t u : State} (h : SameButCores s t)
include h

theorem SameButCores.trans (k : SameButCores t u) : SameButCores s u := by
  have both := congrArg (fun x : State => { x with cores := s.cores }) k
  exact Eq.trans both h

theorem SameButCores.updCore (c : Nat) (f : Core → Core) : SameButCores s (t.updCore c f) := h

theorem SameButCores.updEngine (c : Nat) (f : MatrixEngine → MatrixEngine) : SameButCores s (t.updEngine c f) := h

theorem SameButCores.pages : PagesAndCores s t := by
  have both := congrArg (fun x : State => { x with strands := s.strands }) h
  exact both

theorem SameButCores.shows {α : Type} (f : State → α) (blind : ∀ x : State, ∀ l, f { x with cores := l } = f x) : f t = f s :=
  (blind t s.cores).symm.trans (congrArg f h)

end

/-- The frame of one strand, cores put aside. -/
theorem PagesAndCores.onlyStrand {s t : State} {n : Nat} (h : PagesAndCores s t) (others : ∀ k, k ≠ n → t.strand k = s.strand k) :
    OnlyStrand s { t with cores := s.cores } n := ⟨h, others⟩

/-! What rows leave alone. -/

/-- A page with what rows write put aside: the vector state (R160) and the counts of failures (R162). -/
def Strand.rowsAside (x : Strand) : Strand := { x with vec := VecState.zero, mchkFail := 0#11, mchkCount := 0#16 }

/-- A core with what rows write put aside: the scratchpad and the accumulator. -/
def Core.rowsAside (x : Core) : Core :=
  { x with spad := [], stags := [], poison := [], engine := { x.engine with acc := [] } }

/-- Rows of a strand `n` have been worked on core `c`: only the page of the strand and what rows write of the core have
changed, and no block is poisoned that was not. -/
structure RowKeeps (c n : Nat) (s t : State) : Prop where
  rest    : PagesAndCores s t
  cores   : ∀ j, j ≠ c → t.core j = s.core j
  strands : ∀ k, k ≠ n → t.strand k = s.strand k
  page    : (t.strand n).rowsAside = (s.strand n).rowsAside
  core    : (t.core c).rowsAside = (s.core c).rowsAside
  poison  : ∀ x ∈ (t.core c).poison, x ∈ (s.core c).poison

theorem PagesAndCores.trans {s t u : State} (h : PagesAndCores s t) (k : PagesAndCores t u) : PagesAndCores s u := by
  have both := congrArg (fun x : State => { x with strands := s.strands, cores := s.cores }) k
  exact Eq.trans both h

section
variable {c n : Nat}

theorem RowKeeps.refl (s : State) : RowKeeps c n s s :=
  ⟨.refl s, fun _ _ => rfl, fun _ _ => rfl, rfl, rfl, fun _ => id⟩

theorem RowKeeps.trans {s t u : State} (h : RowKeeps c n s t) (k : RowKeeps c n t u) : RowKeeps c n s u :=
  ⟨h.rest.trans k.rest, fun j hj => (k.cores j hj).trans (h.cores j hj), fun j hj => (k.strands j hj).trans (h.strands j hj),
    k.page.trans h.page, k.core.trans h.core, fun x hx => h.poison x (k.poison x hx)⟩

theorem RowKeeps.updCore (s : State) (f : Core → Core) (aside : ∀ x, (f x).rowsAside = x.rowsAside)
    (poison : ∀ x, ∀ b ∈ (f x).poison, b ∈ x.poison) : RowKeeps c n s (s.updCore c f) := by
  have core := State.core_updCore_self s c f
  refine ⟨(PagesAndCores.refl s).updCore c f, fun j hj => ?_, fun _ _ => rfl, rfl, ?_, ?_⟩
  · rw [State.core_updCore, if_neg hj]
  · rw [core, aside]
  · rw [core]
    exact poison _

theorem RowKeeps.updStrand (s : State) (f : Strand → Strand) (aside : ∀ x, (f x).rowsAside = x.rowsAside) :
    RowKeeps c n s (s.updStrand n f) := by
  refine ⟨(PagesAndCores.refl s).updStrand n f, fun _ _ => rfl, fun j hj => ?_, ?_, rfl, fun _ => id⟩
  · rw [State.strand_updStrand, if_neg hj]
  · rw [State.strand_updStrand_self, aside]

/-- The accumulator alone is put aside. -/
theorem RowKeeps.updAcc (s : State) (f : MatrixEngine → MatrixEngine) (aside : ∀ e, { f e with acc := [] } = { e with acc := [] }) :
    RowKeeps c n s (s.updEngine c f) :=
  RowKeeps.updCore s _ (fun x => congrArg (fun e => { x with spad := [], stags := [], poison := [], engine := e }) (aside x.engine))
    fun _ _ => id

theorem RowKeeps.spadWrite (s : State) (a : Nat) (l : List Byte) : RowKeeps c n s (s.spadWrite c false a l) := by
  unfold State.spadWrite
  refine RowKeeps.updCore s _ (fun x => ?_) fun x b hb => ?_
  · have frame := congrArg Core.rowsAside (putBytes_frame l x c false a)
    exact frame
  · have left := (List.mem_filter.1 hb).1
    have same := congrArg Core.poison (putBytes_frame l x c false a)
    rw [← same]
    exact left

theorem RowKeeps.spadSetTag (s : State) (a : Nat) (v : Tag) : RowKeeps c n s (s.spadSetTag c false a v) :=
  RowKeeps.updCore s _ (fun _ => rfl) fun _ _ => id

section
variable {s t : State} (h : RowKeeps c n s t)
include h

theorem RowKeeps.engine {α : Type} (f : MatrixEngine → α) (blind : ∀ e, f { e with acc := [] } = f e) :
    f (t.core c).engine = f (s.core c).engine := by
  rw [← blind, ← blind (s.core c).engine]
  exact congrArg (fun x : Core => f x.engine) h.core

theorem RowKeeps.board : (t.core c).board = (s.core c).board := by
  have same := congrArg Core.board h.core
  exact same

theorem RowKeeps.shows {α : Type} (f : Strand → α) (blind : ∀ x, f x.rowsAside = f x) : f (t.strand n) = f (s.strand n) := by
  rw [← blind, ← blind (s.strand n)]
  exact congrArg f h.page

theorem RowKeeps.latch (k d : Nat) : t.latchRefuses k d = s.latchRefuses k d := by
  have same := congrArg (fun x : State => x.latchRefuses k d) h.rest
  exact same

theorem RowKeeps.mem : t.mem = s.mem := by
  have same := congrArg State.mem h.rest
  exact same

theorem RowKeeps.rowRefused (op : MatOp) : t.rowRefused c n op = s.rowRefused c n op := by
  unfold State.rowRefused
  rw [h.shows Strand.owner fun _ => rfl, h.latch]

end

end

/-! One row. -/

/-- The columns of an output row, written from a function of the column (R148). -/
def MatrixEngine.setRow (e : MatrixEngine) (mode base m cols : Nat) (out : Nat → Nat) : MatrixEngine :=
  (List.range cols).foldl (fun e j => e.setAcc mode base m j (out j)) e

theorem setRow_frame (e : MatrixEngine) (mode base m cols : Nat) (out : Nat → Nat) :
    { e.setRow mode base m cols out with acc := [] } = { e with acc := [] } := by
  unfold MatrixEngine.setRow
  refine foldl_related (R := fun e g : MatrixEngine => ({ g with acc := [] } : MatrixEngine) = { e with acc := [] })
    (step := fun e j => e.setAcc mode base m j (out j)) (fun _ => rfl) (fun _ _ _ h k => ?_) (fun _ _ _ => rfl) e
  exact Eq.trans k h

/-- The bits of column `j` of row `m` after an `mmac` that no error meets (R126, R157). -/
def State.rowSum (s : State) (c : Nat) (op : MatOp) (zero : Bool) (m j : Nat) : Nat :=
  stepSums (accFmt op.mode.toNat) (stepLen op.mode.toNat op.sparse)
    (fun x => ((s.core c).engine.active.weight x j).map fun w => (fvMul w ((s.rowActs c op m).getD x (.nan false))).1)
    (shapeK op.shape) ((shapeK op.shape + stepLen op.mode.toNat op.sparse - 1) / stepLen op.mode.toNat op.sparse) 0
    (if zero then 0 else (s.core c).engine.accBits op.mode.toNat op.base m j)

/-- The bits of column `j` of row `m` after an `mld` (R158). -/
def State.rowLoad (s : State) (c : Nat) (op : MatOp) (fmt : BitVec 2) (m j : Nat) : Nat :=
  ((accFmt op.mode.toNat).roundTo rne ((s.decodeBlocks c [mldCode fmt] (tagElems (mldCode fmt))
    (op.addr + m * op.stride.toNat) ((shapeN op.shape + tagElems (mldCode fmt) - 1) / tagElems (mldCode fmt))).getD j
      (.nan false))).1

/-- One block of scratchpad stored with its tag (R160). -/
def State.storeBlock (s : State) (c a : Nat) (p : Packed) : State :=
  (s.spadWrite c false a (bytesOf 64 p.block.toNat)).spadSetTag c false a p.tag

/-- A row's blocks stored from an address up. -/
def State.storeRow (s : State) (c a nb : Nat) (p : Nat → Packed) : State :=
  (List.range nb).foldl (fun t b => t.storeBlock c (a + 64 * b) (p b)) s

/-- The block of the columns from `b * g` up of row `m`, in the format of an `mst` (R123, R160). -/
def MatrixEngine.packRow (e : MatrixEngine) (op : MatOp) (fmt : BitVec 3) (m b : Nat) : Packed :=
  packBlock (mstCode fmt) rne ((((List.range (shapeN op.shape)).map fun j =>
    (accFmt op.mode.toNat).decode (e.accBits op.mode.toNat op.base m j)).drop (b * tagElems (mstCode fmt))).take
      (tagElems (mstCode fmt)))

/-- The blocks of a row of an `mst`. -/
def MatOp.mstBlocks (op : MatOp) (fmt : BitVec 3) : Nat :=
  (shapeN op.shape + tagElems (mstCode fmt) - 1) / tagElems (mstCode fmt)

theorem zip_range_map {α : Type} (f : Nat → α) (n : Nat) :
    (List.range ((List.range n).map f).length).zip ((List.range n).map f) = (List.range n).map fun b => (b, f b) := by
  rw [List.length_map, List.length_range]
  conv => lhs; arg 1; rw [← List.map_id (List.range n)]
  rw [List.zip_map']
  rfl

section
variable {s : State} {c n : Nat} {op : MatOp} {m : Nat}

theorem matRow_mzero {count : Nat} (kind : op.kind = .mzero count) :
    s.matRow c n op m = some (s.updEngine c fun e => { e with acc := removeAt e.acc (op.base + m) }) := by
  have admitted : s.rowRefused c n op = false := by rw [State.rowRefused, kind]
  unfold State.matRow
  rw [admitted, kind]
  rfl

theorem matRow_mld {fmt : BitVec 2} (kind : op.kind = .mld fmt) (admitted : s.rowRefused c n op = false)
    (clean : s.rowPoisoned c op m ((shapeN op.shape + tagElems (mldCode fmt) - 1) / tagElems (mldCode fmt)) = false) :
    s.matRow c n op m = some (s.updEngine c fun e => e.setRow op.mode.toNat op.base m (shapeN op.shape) (s.rowLoad c op fmt m)) := by
  unfold State.matRow
  rw [admitted, kind]
  dsimp only
  rw [clean]
  rfl

theorem rowFails_false (calm : m ∉ (s.core c).engine.upset) : s.rowFails c n op m = false := by
  unfold State.rowFails
  dsimp only
  split
  · rw [List.contains_eq_mem, decide_eq_false calm]
    rfl
  · rfl

theorem matRow_mmac {zero : Bool} (kind : op.kind = .mmac zero) (admitted : s.rowRefused c n op = false)
    (calm : m ∉ (s.core c).engine.upset)
    (clean : s.rowPoisoned c op m ((shapeK op.shape + actElems op.mode.toNat - 1) / actElems op.mode.toNat) = false) :
    s.matRow c n op m = some (s.updEngine c fun e => e.setRow op.mode.toNat op.base m (shapeN op.shape) (s.rowSum c op zero m)) := by
  have fine : (s.core c).engine.upset.contains m = false := by simpa using calm
  unfold State.matRow
  rw [admitted, kind, rowFails_false calm]
  dsimp only
  rw [clean, fine]
  rfl

theorem matRow_mst {fmt : BitVec 3} (kind : op.kind = .mst fmt) (admitted : s.rowRefused c n op = false) :
    let u := s.storeRow c (op.addr + m * op.stride.toNat) (op.mstBlocks fmt) ((s.core c).engine.packRow op fmt m)
    s.matRow c n op m = some (if (List.range (op.mstBlocks fmt)).any fun b => !((s.core c).engine.packRow op fmt m b).sat.isEmpty
      then u.updStrand n fun x => x.setKBits 15 [m] else u) := by
  intro u
  unfold State.matRow
  rw [admitted, kind]
  dsimp only
  rw [zip_range_map, List.foldl_map, List.any_map]
  rfl

/-- Whatever a row does, it leaves the rest alone. -/
theorem matRow_keeps {t : State} (row : s.matRow c n op m = some t) : RowKeeps c n s t := by
  have admitted : s.rowRefused c n op = false := by
    by_contra refused
    rw [State.matRow, if_pos (by simpa using refused)] at row
    exact nomatch row
  rcases kind : op.kind with p | _ | zero | fmt | fmt | count
  case mldw | mswap =>
    unfold State.matRow at row
    rw [admitted, kind] at row
    obtain rfl := Option.some.inj row
    exact RowKeeps.refl s
  case mmac =>
    unfold State.matRow at row
    rw [admitted, kind] at row
    dsimp only at row
    rw [if_neg Bool.false_ne_true] at row
    split at row
    · exact nomatch row
    · obtain rfl := Option.some.inj row
      have written := RowKeeps.updAcc (c := c) (n := n) s
        (fun e => e.setRow op.mode.toNat op.base m (shapeN op.shape) fun j =>
          if (s.core c).engine.upset.contains m then (s.free (64 * m + j)).toNat else s.rowSum c op zero m j)
        fun e => setRow_frame e _ _ _ _ _
      split
      · exact written.trans (RowKeeps.updStrand _ _ fun _ => rfl)
      · exact written
  case mld =>
    unfold State.matRow at row
    rw [admitted, kind] at row
    dsimp only at row
    rw [if_neg Bool.false_ne_true] at row
    split at row
    · exact nomatch row
    · obtain rfl := Option.some.inj row
      exact RowKeeps.updAcc s (fun e => e.setRow op.mode.toNat op.base m (shapeN op.shape) (s.rowLoad c op fmt m))
        fun e => setRow_frame e _ _ _ _ _
  case mst =>
    rw [matRow_mst kind admitted] at row
    obtain rfl := Option.some.inj row
    have stored : RowKeeps c n s (s.storeRow c (op.addr + m * op.stride.toNat) (op.mstBlocks fmt)
        ((s.core c).engine.packRow op fmt m)) :=
      foldl_related RowKeeps.refl (fun _ _ _ h k => h.trans k)
        (fun u _ _ => (RowKeeps.spadWrite u _ _).trans (RowKeeps.spadSetTag _ _ _)) s
    split
    · exact stored.trans (RowKeeps.updStrand _ _ fun _ => rfl)
    · exact stored
  case mzero =>
    rw [matRow_mzero kind] at row
    obtain rfl := Option.some.inj row
    exact RowKeeps.updAcc s _ fun _ => rfl

end

/-! Rows that meet no error. -/

/-- The scratchpad blocks that a row reads (R157, R158). -/
def MatOp.reads (op : MatOp) : Nat :=
  match op.kind with
  | .mmac _ => (shapeK op.shape + actElems op.mode.toNat - 1) / actElems op.mode.toNat
  | .mld fmt => (shapeN op.shape + tagElems (mldCode fmt) - 1) / tagElems (mldCode fmt)
  | .mldw _ | .mzero _ | .mst _ | .mswap => 0

/-- Nothing meets a row: its die admits it, no error has struck it, and no block that it reads is poisoned. -/
structure State.rowClear (s : State) (c n : Nat) (op : MatOp) (m : Nat) : Prop where
  admitted : s.rowRefused c n op = false
  calm     : m ∉ (s.core c).engine.upset
  clean    : ∀ j, j < op.reads → (op.addr + m * op.stride.toNat) / 64 + j ∉ (s.core c).poison

section
variable {s t : State} {c n : Nat} {op : MatOp} {m : Nat}

theorem State.rowClear.kept (h : s.rowClear c n op m) (kept : RowKeeps c n s t) : t.rowClear c n op m :=
  ⟨(kept.rowRefused op).trans h.admitted, by rw [kept.engine MatrixEngine.upset fun _ => rfl]; exact h.calm,
    fun j hj mem => h.clean j hj (kept.poison _ mem)⟩

theorem State.rowClear.notPoisoned (h : s.rowClear c n op m) : s.rowPoisoned c op m op.reads = false := by
  have clean := h.clean
  simpa [State.rowPoisoned] using clean

theorem State.rowClear.row (h : s.rowClear c n op m) : ∃ t, s.matRow c n op m = some t := by
  have clean := h.notPoisoned
  rcases kind : op.kind with p | _ | zero | fmt | fmt | count
  case mldw | mswap =>
    refine ⟨s, ?_⟩
    unfold State.matRow
    rw [h.admitted, kind]
    rfl
  case mmac =>
    rw [MatOp.reads, kind] at clean
    exact ⟨_, matRow_mmac kind h.admitted h.calm clean⟩
  case mld =>
    rw [MatOp.reads, kind] at clean
    exact ⟨_, matRow_mld kind h.admitted clean⟩
  case mst => exact ⟨_, matRow_mst kind h.admitted⟩
  case mzero => exact ⟨_, matRow_mzero kind⟩

theorem rowRefused_false (h : (∃ count, op.kind = .mzero count) ∨ s.latchRefuses (s.strand n).owner.toNat (dieOfCore c) = false) :
    s.rowRefused c n op = false := by
  unfold State.rowRefused
  obtain ⟨count, kind⟩ | latch := h
  · rw [kind]
  · rw [latch]
    split <;> rfl

end

/-! Rows one after the other. -/

section
variable {c n : Nat} {op : MatOp}

/-- Rows that all succeed keep what each of them keeps. -/
theorem matRows_induct {P : Nat → State → Prop} {s : State} (fuel start : Nat) (first : P start s)
    (row : ∀ m t, start ≤ m → m < start + fuel → P m t → ∃ u, t.matRow c n op m = some u ∧ P (m + 1) u) :
    ∃ t, matRows c n op fuel start s = (t, none) ∧ P (start + fuel) t := by
  induction fuel generalizing start s with
  | zero => exact ⟨s, rfl, first⟩
  | succ fuel ih =>
    obtain ⟨u, made, next⟩ := row start s (Nat.le_refl _) (by omega) first
    obtain ⟨t, rows, last⟩ := ih (start + 1) next fun m t hm hlt => row m t (by omega) (by omega)
    refine ⟨t, ?_, by rw [show start + (fuel + 1) = start + 1 + fuel by omega]; exact last⟩
    rw [matRows, made]
    exact rows

theorem matRows_clear {s : State} (fuel start : Nat) (clear : ∀ m, start ≤ m → m < start + fuel → s.rowClear c n op m) :
    ∃ t, matRows c n op fuel start s = (t, none) ∧ RowKeeps c n s t :=
  matRows_induct (P := fun _ t => RowKeeps c n s t) fuel start (RowKeeps.refl s) fun m _ hm hlt kept =>
    have ⟨u, made⟩ := ((clear m hm hlt).kept kept).row
    ⟨u, made, kept.trans (matRow_keeps made)⟩

end

end Sys2Proof.Machine
end

section
/-! An error stops the oldest operation of an engine at a row (R161), and O40. -/

namespace Sys2Proof.Machine

/-- The entries that are left of a scoreboard when a queue has been discarded. -/
def Core.boardLeft (x : Core) (queue : List MatOp) : List SbEntry :=
  x.board.filter fun e => !(queue.map (·.sbOp)).contains e.op

/-- A core whose queue has been discarded, with its entries. -/
def Core.emptied (x : Core) : Core := { x with
  board := x.boardLeft x.engine.queue, engine := { x.engine with queue := [] } }

/-- The page of a strand whose engine stops at a row (R161, R162). -/
def Strand.stoppedAt (x : Strand) (pc : Word) (row lost : Nat) : Strand :=
  { x with
    mstopValid := true, mstopAddr := pc.setWidth 57, mchkRow := BitVec.ofNat 11 row
    mchkLost := satAdd x.mchkLost lost }

section
variable {s : State} {c n : Nat} {op : MatOp} {rest : List MatOp}

theorem upsetDone_core (s : State) (c : Nat) (op : MatOp) : (s.upsetDone c op).core c = { s.core c with
    engine := { (s.core c).engine with upset := if (∃ zero, op.kind = .mmac zero) then [] else (s.core c).engine.upset } } := by
  unfold State.upsetDone
  rcases op.kind with p | _ | zero | fmt | fmt | count
  case mmac =>
    rw [if_pos ⟨zero, rfl⟩]
    exact State.core_updEngine_self s c _
  all_goals
    rw [if_neg (by rintro ⟨_, ⟨⟩⟩)]

theorem upsetDone_rest (s : State) (c : Nat) (op : MatOp) :
    SameButCores s (s.upsetDone c op) ∧ ∀ j, j ≠ c → (s.upsetDone c op).core j = s.core j := by
  unfold State.upsetDone
  rcases op.kind with p | _ | zero | fmt | fmt | count
  case mmac => exact ⟨(SameButCores.refl s).updEngine c _, fun j hj => (State.core_updEngine s c j _).trans (if_neg hj)⟩
  all_goals exact ⟨.refl s, fun _ _ => rfl⟩

theorem stopMatrix_eq (holder : (s.core c).engine.holder = some n) (kept : (s.core c).engine.release = false) (pc : Word)
    (row : Nat) (lost : List MatOp) : s.stopMatrix c pc row lost =
      ((s.updStrand n fun x => x.stoppedAt pc row lost.length).updCore c fun _ => (s.core c).emptied) := by
  unfold State.stopMatrix
  rw [holder]
  dsimp only
  rw [State.updEngine, updCore_updCore]
  refine congrArg (fun x : Core => { s.updStrand n (fun x => x.stoppedAt pc row lost.length) with
    cores := insertAt s.cores c x }) ?_
  exact congrArg (fun e => { s.core c with board := (s.core c).boardLeft (s.core c).engine.queue, engine := e })
    (settle_kept (e := { (s.core c).engine with queue := [] }) kept)

/-- What an error leaves that stops the oldest operation at a row: the queue and its entries are gone, the strand of the
engine shows where, and nothing else has changed. -/
structure RowStopped (s t : State) (c n : Nat) (op : MatOp) (row lost : Nat) : Prop where
  core   : t.core c = { s.core c with
    board := (s.core c).boardLeft (s.core c).engine.queue
    engine := { (s.core c).engine with
      queue := [], upset := if (∃ zero, op.kind = .mmac zero) then [] else (s.core c).engine.upset } }
  only   : OnlyStrand s { t with cores := s.cores } n
  page   : t.strand n = (s.strand n).stoppedAt op.pc row lost
  others : ∀ j, j ≠ c → t.core j = s.core j

theorem rowStopped (holder : (s.core c).engine.holder = some n) (kept : (s.core c).engine.release = false) (row : Nat) :
    RowStopped s ((s.upsetDone c op).stopMatrix c op.pc row rest) c n op row rest.length := by
  obtain ⟨same, cores⟩ := upsetDone_rest s c op
  have core := upsetDone_core s c op
  have strand (k : Nat) : (s.upsetDone c op).strand k = s.strand k := same.shows (fun x => x.strand k) fun _ _ => rfl
  have stop := stopMatrix_eq (s := s.upsetDone c op) (by rw [core]; exact holder) (by rw [core]; exact kept) op.pc row rest
  rw [stop]
  refine ⟨?_, ((same.pages.updStrand n _).updCore c _).onlyStrand fun k hk => ?_, ?_, fun j hj => ?_⟩
  · rw [State.core_updCore_self, core]
    rfl
  · refine Eq.trans ?_ (strand k)
    exact (State.strand_updStrand (s.upsetDone c op) n k fun x => x.stoppedAt op.pc row rest.length).trans (if_neg hk)
  · refine Eq.trans (State.strand_updStrand_self (s.upsetDone c op) n fun x => x.stoppedAt op.pc row rest.length) ?_
    rw [strand]
  · rw [State.core_updCore, if_neg hj]
    exact cores j hj

/-- An error that strikes at a row of the operation, the rows before it done. -/
theorem matrixError_at (holder : (s.core c).engine.holder = some n) (queue : (s.core c).engine.queue = op :: rest)
    (free : s.boardHeld c op.sbOp = false) {r : Nat} (first : op.start ≤ r) (last : r < op.rows) {t : State}
    (rows : matRows c n op (r - op.start) op.start s = (t, none)) :
    s.matrixError c r = (t.upsetDone c op).stopMatrix c op.pc r rest := by
  unfold State.matrixError
  rw [holder, queue]
  dsimp only
  rw [if_neg (by simp [free]; omega), rows]

end

/-- Settles O40: `mrd` and `mwr` write their elements one by one, `mchk` reads the record, and the rows before an error leave
what the stop shows as it was. -/
theorem matrixRawRowsAndCheck : Obligations.MatrixRawRowsAndCheck := by
  refine ⟨?_, ?_⟩
  · intro s vd vc rd rb p k hint s0 c e w base raw compute
    have here : s0.me = s.me.bindHere := bindHere_me s
    have engine : s0.engine = e := bindHere_engine s
    have width : s0.me.width = w := by rw [here]; rfl
    have compute0 : s0.me.core % 64 < 36 := by rw [bindHere_me_core]; exact compute
    have active (i : Nat) : s0.active k i ↔ s.active k i := by rw [bindHere_active]
    have checked {q : BitVec 2} (holder : e.holder = some s.cur) (kept : e.release = false) (sew : 2 ≤ s.me.sew.toNat)
        (range : 128 * base + s.me.vl.toNat * w / 8 ≤ 262144) (running : s.me.mstopValid = false)
        (vector : s.mayVector true q) : s0.rawIssue base q = waitUnless e.idle := by
      have may : s.mayMatrix := ⟨compute, holder, kept, running⟩
      rw [rawIssue_checked may.bound vector.bound (by rw [here]; exact sew) (by rw [width, here]; exact range), engine]
    have mrd : exec (.mrd vd rb k hint) s = finish s0 0#3 (do s0.rawIssue base 0#2; .ok (s0.mrd vd base k)) := by
      change finish s0 0#3 (do s0.rawIssue (s0.sreg rb).toNat 0#2; .ok (s0.mrd vd (s0.sreg rb).toNat k)) = _
      rw [bindHere_sreg]
    have mwr : exec (.mwr rb vc p k hint) s = finish s0 0#3 (do s0.rawIssue base p; .ok (s0.mwr base vc p k)) := by
      change finish s0 0#3 (do s0.rawIssue (s0.sreg rb).toNat p; .ok (s0.mwr (s0.sreg rb).toNat vc p k)) = _
      rw [bindHere_sreg]
    refine ⟨fun holder kept sew range running empty still => ?_, fun holder kept sew range running busy vp v0 => ?_,
      fun holder busy => ?_, fun free => ?_⟩
    · have idle : e.idle = true := by simp [MatrixEngine.idle, empty, still]
      refine ⟨fun vector => ?_, fun vector clean => ?_⟩
      · rw [checked holder kept sew range running vector, idle] at mrd
        refine ⟨_, mrd, ?_⟩
        have result := mrd_result width vd base k
        rw [engine, bindHere_active] at result
        exact result
      · rw [checked holder kept sew range running vector, idle] at mwr
        obtain ⟨u, made, page, npc, wrote⟩ := mwr_writes (s := s0) (vc := vc) width (by rw [here]; exact clean) base p k
        obtain ⟨retired, vstart, ckpt, vreg⟩ := mwr_issued (s := s) (u := u) (page.trans here) npc
        rw [bindHere_me_core, engine] at wrote
        have final : ((u.updMe fun x => x.vectorDone none).matrixDone.core c).engine =
            (s0.me.activeElems k).foldl (fun (g : MatrixEngine) i => g.putRaw base i (repElement (s0.me.vreg vc) p w i : BitVec w)) e := by
          rw [matrixDone_eq, State.core_updMe, State.core_updMe]
          exact wrote
        obtain ⟨frame, below⟩ := putRaws_frame base (repElement (s0.me.vreg vc) p w) (s0.me.activeElems k) e
        have wide : w = 32 ∨ w = 64 := width_cases sew
        have elements := raw_putRaws wide base (s0.me.activeElems k) (repElement (s0.me.vreg vc) p w) e
        refine ⟨_, mwr.trans (congrArg Host.Outcome.next made), retired, vstart, ckpt, vreg, ?_, fun i on => ?_, fun i off => ?_,
          fun r hr => ?_⟩
        all_goals rw [final]
        · exact congrArg (fun g : MatrixEngine => { g with acc := ((s0.me.activeElems k).foldl (fun (g : MatrixEngine) i =>
            g.putRaw base i (repElement (s0.me.vreg vc) p w i : BitVec w)) e).acc }) frame
        · refine (elements i).trans ((if_pos (mem_activeElems.2 ((active i).2 on))).trans ?_)
          rw [repElement, repIndex_eq_replica, here]
          rfl
        · exact (elements i).trans (if_neg fun mem => off ((active i).1 (mem_activeElems.1 mem)))
        · exact below r hr
    · have gate {q : BitVec 2} (vector : s.mayVector true q) : s0.rawIssue base q = .error .wait := by
        rw [checked holder kept sew range running vector, busy]
        rfl
      exact ⟨mrd.trans (by rw [gate v0]; rfl), mwr.trans (by rw [gate vp]; rfl)⟩
    · exact congrArg (finish s0 0#3) (mchk_waits compute0 (by rw [engine]; exact holder) (by rw [engine]; exact busy))
    · have run := congrArg (finish s0 0#3) (mchk_reads (rd := rd) compute0 (by
        rw [engine]
        exact free.imp_right fun ⟨empty, still⟩ => by simp [MatrixEngine.idle, empty, still]))
      obtain ⟨only, retired, sreg, mstop, lost, count, ckpt⟩ := mchk_result (s := s0) rd s0.me.checkWord
      refine ⟨_, run, only, ?_, fun r => ?_, mstop, lost, count, ?_⟩
      · exact retired.unbound
      · rw [sreg r, bindHere_sreg, here]
        rfl
      · rw [ckpt, here]
        rfl
  · intro s c n op rest e acts nb clear left holder queue kept free
    refine ⟨fun r first last before => ?_, fun more => ?_⟩
    · have rowClear (m : Nat) (hm : op.start ≤ m) (hlt : m < op.start + (r - op.start)) : s.rowClear c n op m := by
        obtain ⟨calm, admitted, clean⟩ := before m hm (by omega)
        exact ⟨rowRefused_false admitted, calm, clean⟩
      obtain ⟨u, rows, keeps⟩ := matRows_clear (r - op.start) op.start rowClear
      have stopped := rowStopped (s := u) (op := op) (rest := rest) ((keeps.engine MatrixEngine.holder fun _ => rfl).trans holder)
        ((keeps.engine MatrixEngine.release fun _ => rfl).trans kept) r
      have line : (u.core c).boardLeft (u.core c).engine.queue = left := by
        rw [Core.boardLeft, keeps.board, keeps.engine MatrixEngine.queue fun _ => rfl, queue]
      refine ⟨_, congrArg Host.Outcome.next (matrixError_at holder queue free first last rows), ?_, ?_, ?_, ?_, ?_, ?_, ?_⟩
      · rw [stopped.core]
      · rw [stopped.core]
        exact line
      · rw [stopped.page]
        rfl
      · rw [stopped.page]
        rfl
      · rw [stopped.page]
        rfl
      · rw [stopped.page]
        exact congrArg (fun l => satAdd l rest.length) (keeps.shows Strand.mchkLost fun _ => rfl)
      · have same := congrArg State.mem stopped.only.1
        exact Eq.trans same keeps.mem
    · have stopped := rowStopped (op := op) (rest := rest) holder kept op.start
      refine ⟨_, congrArg Host.Outcome.next (matrixError_at holder queue free (Nat.le_refl _) more (by rw [Nat.sub_self]; rfl)), ?_,
        stopped.only, stopped.page, stopped.others⟩
      rw [stopped.core, queue]
      rfl

end Sys2Proof.Machine
end

section
/-! The rows of an accumulator (R148, R149): columns written one by one, and rows one after the other (O41). -/

namespace Sys2Proof.Machine

/-! One column. -/

theorem accBits_eq (e : MatrixEngine) (mode base m n : Nat) : e.accBits mode base m n =
    ((lookupD e.acc (accPlace mode base m n).1 0#1024).extractLsb' (accPlace mode base m n).2 (accFmt mode).bits).toNat := by
  unfold MatrixEngine.accBits
  rcases accPlace mode base m n with ⟨r, o⟩
  simp only [BitVec.extractLsb'_toNat, Nat.shiftRight_eq_div_pow]

theorem setAcc_eq (e : MatrixEngine) (mode base m n v : Nat) : e.setAcc mode base m n v = { e with
    acc := putAt e.acc (accPlace mode base m n).1 (putSlice (lookupD e.acc (accPlace mode base m n).1 0#1024)
      (accPlace mode base m n).2 (BitVec.ofNat (accFmt mode).bits v)) } := by
  have bits : (if mode = 2 then putSlice (lookupD e.acc (accPlace mode base m n).1 0#1024) (accPlace mode base m n).2
        (BitVec.ofNat 64 v) else putSlice (lookupD e.acc (accPlace mode base m n).1 0#1024) (accPlace mode base m n).2
        (BitVec.ofNat 32 v)) = putSlice (lookupD e.acc (accPlace mode base m n).1 0#1024) (accPlace mode base m n).2
      (BitVec.ofNat (accFmt mode).bits v) := by
    generalize lookupD e.acc (accPlace mode base m n).1 0#1024 = row
    unfold accFmt
    split
    · next two => exact congrArg (fun w => putSlice row _ (BitVec.ofNat w v)) (by rw [if_pos two]; rfl)
    · next other => exact congrArg (fun w => putSlice row _ (BitVec.ofNat w v)) (by rw [if_neg other]; rfl)
  rw [← bits]
  rfl

/-- The rows of the accumulator that an output row takes (R148). -/
def accPer (mode : Nat) : Nat := if mode = 2 then 2 else 1

theorem accPlace_row (mode base m : Nat) {n : Nat} (hn : n < 32) :
    base + accPer mode * m ≤ (accPlace mode base m n).1 ∧ (accPlace mode base m n).1 < base + accPer mode * (m + 1) := by
  unfold accPlace accPer
  split <;> (dsimp only; omega)

theorem accPlace_fits (mode base m : Nat) {n : Nat} (hn : n < 32) : (accPlace mode base m n).2 + (accFmt mode).bits ≤ 1024 := by
  unfold accPlace accFmt
  split
  · change 64 * (n % 16) + 64 ≤ 1024
    omega
  · change 32 * n + 32 ≤ 1024
    omega

theorem accPlace_apart (mode base m : Nat) {i j : Nat} (h : i ≠ j) (same : (accPlace mode base m i).1 = (accPlace mode base m j).1) :
    (accPlace mode base m i).2 + (accFmt mode).bits ≤ (accPlace mode base m j).2 ∨
      (accPlace mode base m j).2 + (accFmt mode).bits ≤ (accPlace mode base m i).2 := by
  unfold accPlace at same ⊢
  unfold accFmt
  split at same
  · next two =>
    rw [if_pos two, if_pos two, if_pos two]
    change 64 * (i % 16) + 64 ≤ 64 * (j % 16) ∨ 64 * (j % 16) + 64 ≤ 64 * (i % 16)
    dsimp only at same
    omega
  · next other =>
    rw [if_neg other, if_neg other, if_neg other]
    change 32 * i + 32 ≤ 32 * j ∨ 32 * j + 32 ≤ 32 * i
    omega

theorem accBits_setAcc (e : MatrixEngine) (mode base m j i : Nat) (v : Nat → Nat) (hi : i < 32) :
    (e.setAcc mode base m j (v j)).accBits mode base m i =
      if j = i then v j % 2 ^ (accFmt mode).bits else e.accBits mode base m i := by
  rw [setAcc_eq, accBits_eq, accBits_eq]
  dsimp only
  rw [lookupD_putAt]
  by_cases h : j = i
  · subst h
    rw [if_pos rfl, if_pos rfl, extractLsb'_putSlice_self _ _ _ (accPlace_fits mode base m hi), BitVec.toNat_ofNat]
  · rw [if_neg h]
    split
    · next same =>
      rw [same]
      obtain before | after := accPlace_apart mode base m h same.symm
      · rw [extractLsb'_putSlice_apart _ _ _ _ _ (.inl before)]
      · rw [extractLsb'_putSlice_apart _ _ _ _ _ (.inr (.inl after))]
    · rfl

/-! One row. -/

theorem accBits_setRow (e : MatrixEngine) (mode base m cols : Nat) (out : Nat → Nat) {j : Nat} (hj : j < cols) (few : cols ≤ 32) :
    (e.setRow mode base m cols out).accBits mode base m j = out j % 2 ^ (accFmt mode).bits := by
  unfold MatrixEngine.setRow
  have slot := foldl_slot (read := fun e : MatrixEngine => e.accBits mode base m j) (l := List.range cols)
    (val := fun j => out j % 2 ^ (accFmt mode).bits) (fun e i _ => accBits_setAcc e mode base m i j out (by omega)) e
  exact slot.trans (if_pos (List.mem_range.2 hj))

theorem setRow_others (e : MatrixEngine) (mode base m cols : Nat) (out : Nat → Nat) (few : cols ≤ 32) {r : Nat}
    (away : ¬ (base + accPer mode * m ≤ r ∧ r < base + accPer mode * (m + 1))) :
    lookupD (e.setRow mode base m cols out).acc r 0#1024 = lookupD e.acc r 0#1024 := by
  unfold MatrixEngine.setRow
  refine foldl_related (R := fun e g : MatrixEngine => lookupD g.acc r 0#1024 = lookupD e.acc r 0#1024)
    (step := fun e j => e.setAcc mode base m j (out j)) (fun _ => rfl) (fun _ _ _ h k => k.trans h) (fun e j hj => ?_) e
  have place := accPlace_row mode base m (n := j) (by have := List.mem_range.1 hj; omega)
  rw [setAcc_eq]
  dsimp only
  rw [lookupD_putAt, if_neg]
  rintro rfl
  exact away place

/-- An element is as before when its row of the accumulator is. -/
theorem accBits_congr {e g : MatrixEngine} {mode base m j : Nat} (hj : j < 32)
    (same : ∀ r, base + accPer mode * m ≤ r → r < base + accPer mode * (m + 1) → lookupD g.acc r 0#1024 = lookupD e.acc r 0#1024) :
    g.accBits mode base m j = e.accBits mode base m j := by
  obtain ⟨low, high⟩ := accPlace_row mode base m hj
  rw [accBits_eq, accBits_eq, same _ low high]

/-! Nothing but an accumulator. -/

/-- A core with another accumulator. -/
def Core.withAcc (x : Core) (acc : Table (BitVec 1024)) : Core := { x with engine := { x.engine with acc := acc } }

/-- Nothing but the accumulator of core `c` has changed. -/
structure OnlyAcc (c : Nat) (s t : State) : Prop where
  rest   : SameButCores s t
  others : ∀ j, j ≠ c → t.core j = s.core j
  core   : t.core c = (s.core c).withAcc (t.core c).engine.acc

section
variable {c : Nat}

theorem OnlyAcc.refl (s : State) : OnlyAcc c s s := ⟨.refl s, fun _ _ => rfl, rfl⟩

theorem OnlyAcc.trans {s t u : State} (h : OnlyAcc c s t) (k : OnlyAcc c t u) : OnlyAcc c s u := by
  refine ⟨h.rest.trans k.rest, fun j hj => (k.others j hj).trans (h.others j hj), k.core.trans ?_⟩
  have both := congrArg (fun x : Core => x.withAcc (u.core c).engine.acc) h.core
  exact both

theorem OnlyAcc.updEngine (s : State) (f : MatrixEngine → MatrixEngine) (aside : ∀ e, { f e with acc := [] } = { e with acc := [] }) :
    OnlyAcc c s (s.updEngine c f) := by
  have core := State.core_updEngine_self s c f
  refine ⟨(SameButCores.refl s).updEngine c f, fun j hj => (State.core_updEngine s c j f).trans (if_neg hj), ?_⟩
  rw [core]
  exact congrArg (fun e : MatrixEngine => { s.core c with engine := { e with acc := (f (s.core c).engine).acc } }) (aside (s.core c).engine)

section
variable {s t : State} (h : OnlyAcc c s t)
include h

theorem OnlyAcc.engine {α : Type} (f : MatrixEngine → α) (blind : ∀ e l, f { e with acc := l } = f e) :
    f (t.core c).engine = f (s.core c).engine := by
  rw [h.core]
  exact blind _ _

theorem OnlyAcc.decodeBlocks (codes : List Nat) (g addr nb : Nat) :
    t.decodeBlocks c codes g addr nb = s.decodeBlocks c codes g addr nb := by
  have read (n a : Nat) : t.spadRead c false a n = s.spadRead c false a n := by
    induction n generalizing a with
    | zero => rfl
    | succ n ih =>
      rw [State.spadRead, State.spadRead, ih, h.core]
      rfl
  unfold State.decodeBlocks State.spadTag
  simp only [read]
  rw [h.core]
  rfl

theorem OnlyAcc.rowRefused (n : Nat) (op : MatOp) : t.rowRefused c n op = s.rowRefused c n op :=
  h.rest.shows (fun x => x.rowRefused c n op) fun _ _ => rfl

theorem OnlyAcc.rowPoisoned (op : MatOp) (m nb : Nat) : t.rowPoisoned c op m nb = s.rowPoisoned c op m nb := by
  unfold State.rowPoisoned
  rw [h.core]
  rfl

end

end

end Sys2Proof.Machine
end

section
/-! The engine completes the oldest operation of its queue (O41): its rows, and what follows them (R143, R149). -/

namespace Sys2Proof.Machine

/-! Rows written to the accumulator one after the other. -/

/-- The columns of the rows from `start` up to `stop` hold `out`, and nothing else has changed but rows of the accumulator that
they take. -/
structure RowsWritten (c : Nat) (s t : State) (mode base cols : Nat) (out : Nat → Nat → Nat) (start stop : Nat) : Prop where
  acc    : OnlyAcc c s t
  value  : ∀ r j, start ≤ r → r < stop → j < cols →
    (t.core c).engine.accBits mode base r j = out r j % 2 ^ (accFmt mode).bits
  others : ∀ x, x < base + accPer mode * start ∨ base + accPer mode * stop ≤ x →
    lookupD (t.core c).engine.acc x 0#1024 = lookupD (s.core c).engine.acc x 0#1024

section
variable {s t : State} {c n : Nat} {op : MatOp} {mode base cols start m : Nat} {out : Nat → Nat → Nat}

/-- A row above the last one written is as it was. -/
theorem RowsWritten.accBits (h : RowsWritten c s t mode base cols out start m) {j : Nat} (hj : j < 32) :
    (t.core c).engine.accBits mode base m j = (s.core c).engine.accBits mode base m j :=
  accBits_congr hj fun r low _ => h.others r (.inr low)

theorem RowsWritten.setRow (h : RowsWritten c s t mode base cols out start m) (few : cols ≤ 32) (first : start ≤ m)
    {o : Nat → Nat} (same : ∀ j, j < cols → o j = out m j) :
    RowsWritten c s (t.updEngine c fun e => e.setRow mode base m cols o) mode base cols out start (m + 1) := by
  have per (a b : Nat) (hab : a ≤ b) : accPer mode * a ≤ accPer mode * b := Nat.mul_le_mul_left _ hab
  have engine : ((t.updEngine c fun e => e.setRow mode base m cols o).core c).engine = (t.core c).engine.setRow mode base m cols o :=
    congrArg Core.engine (State.core_updEngine_self t c _)
  have row (x : Nat) (away : ¬ (base + accPer mode * m ≤ x ∧ x < base + accPer mode * (m + 1))) :=
    setRow_others (t.core c).engine mode base m cols o few away
  refine ⟨h.acc.trans (OnlyAcc.updEngine t _ fun e => setRow_frame e _ _ _ _ _), fun r j low high hj => ?_, fun x hx => ?_⟩
  all_goals rw [engine]
  · by_cases last : r = m
    · subst last
      rw [accBits_setRow _ _ _ _ _ _ hj few, same j hj]
    · have below := per (r + 1) m (by omega)
      rw [accBits_congr (by omega) fun x _ hx => row x (by omega)]
      exact h.value r j low (by omega) hj
  · have grows := per m (m + 1) (by omega)
    have starts := per start m first
    rw [row x (by omega)]
    exact h.others x (by omega)

/-- Rows that each write their columns. -/
theorem matRows_written (few : cols ≤ 32) (fuel start : Nat)
    (row : ∀ m t, start ≤ m → m < start + fuel → OnlyAcc c s t →
      (∀ j, j < cols → (t.core c).engine.accBits mode base m j = (s.core c).engine.accBits mode base m j) →
      ∃ o, t.matRow c n op m = some (t.updEngine c fun e => e.setRow mode base m cols o) ∧ ∀ j, j < cols → o j = out m j) :
    ∃ t, matRows c n op fuel start s = (t, none) ∧ RowsWritten c s t mode base cols out start (start + fuel) :=
  matRows_induct (P := fun m t => start ≤ m ∧ RowsWritten c s t mode base cols out start m) fuel start
    ⟨Nat.le_refl _, OnlyAcc.refl s, fun r j low high => absurd high (by omega), fun _ _ => rfl⟩
    (fun m t low high ⟨first, written⟩ => by
      obtain ⟨o, made, same⟩ := row m t low high written.acc fun j hj => written.accBits (by omega)
      exact ⟨_, made, by omega, written.setRow few first same⟩)
    |>.imp fun t h => ⟨h.1, h.2.2⟩

/-- The rows of an operation: those from its first row up. -/
theorem RowsWritten.last {stop : Nat} (h : RowsWritten c s t mode base cols out start (start + (stop - start))) :
    (∀ r j, start ≤ r → r < stop → j < cols →
      (t.core c).engine.accBits mode base r j = out r j % 2 ^ (accFmt mode).bits) ∧
    ∀ x, x < base + accPer mode * start ∨ base + accPer mode * stop ≤ x →
      lookupD (t.core c).engine.acc x 0#1024 = lookupD (s.core c).engine.acc x 0#1024 := by
  refine ⟨fun r j low high => h.value r j low (by omega), fun x hx => h.others x ?_⟩
  by_cases some : start ≤ stop
  · rw [Nat.add_sub_cancel' some]
    exact hx
  · rw [Nat.sub_eq_zero_of_le (by omega), Nat.add_zero]
    omega

end

/-! What follows the rows. -/

/-- An operation whose rows are done leaves the queue (R143, R149). -/
def State.opDone (s : State) (c : Nat) (op : MatOp) (rest : List MatOp) : State :=
  ((s.upsetDone c op).boardRetire c op.sbOp).updEngine c fun e => ({ e with queue := rest } : MatrixEngine).settle

section
variable {s t : State} {c n : Nat} {op : MatOp} {rest : List MatOp}

theorem opDone_core (kept : (t.core c).engine.release = false) : (t.opDone c op rest).core c = { t.core c with
    board := (t.core c).board.filter fun x => x.op != op.sbOp
    engine := { (t.core c).engine with
      queue := rest, upset := if (∃ zero, op.kind = .mmac zero) then [] else (t.core c).engine.upset } } := by
  have retired : ((t.upsetDone c op).boardRetire c op.sbOp).core c = _ := State.core_updCore_self (t.upsetDone c op) c _
  rw [State.opDone, State.core_updEngine_self, retired, upsetDone_core]
  exact congrArg (fun e => { t.core c with board := (t.core c).board.filter fun x => x.op != op.sbOp, engine := e })
    (settle_kept (e := { (t.core c).engine with
      queue := rest, upset := if (∃ zero, op.kind = .mmac zero) then [] else (t.core c).engine.upset }) kept)

theorem opDone_rest (t : State) (c : Nat) (op : MatOp) (rest : List MatOp) :
    SameButCores t (t.opDone c op rest) ∧ ∀ j, j ≠ c → (t.opDone c op rest).core j = t.core j := by
  obtain ⟨same, others⟩ := upsetDone_rest t c op
  refine ⟨(same.updCore c _).updEngine c _, fun j hj => ?_⟩
  have retired : ((t.upsetDone c op).boardRetire c op.sbOp).core j = (t.upsetDone c op).core j :=
    (State.core_updCore _ c j _).trans (if_neg hj)
  rw [State.opDone, State.core_updEngine, if_neg hj, retired]
  exact others j hj

/-- An operation that has written accumulator rows alone is done. -/
theorem OnlyAcc.opDone (h : OnlyAcc c s t) (kept : (s.core c).engine.release = false) :
    (t.opDone c op rest).core c = { s.core c with
      board := (s.core c).board.filter fun x => x.op != op.sbOp
      engine := { (s.core c).engine with
        queue := rest, acc := ((t.opDone c op rest).core c).engine.acc
        upset := if (∃ zero, op.kind = .mmac zero) then [] else (s.core c).engine.upset } } ∧
    ((t.opDone c op rest).core c).engine.acc = (t.core c).engine.acc ∧
    SameButCores s (t.opDone c op rest) ∧ ∀ j, j ≠ c → (t.opDone c op rest).core j = s.core j := by
  have core := opDone_core (op := op) (rest := rest) ((h.engine MatrixEngine.release fun _ _ => rfl).trans kept)
  obtain ⟨same, others⟩ := opDone_rest t c op rest
  rw [core]
  refine ⟨?_, rfl, h.rest.trans same, fun j hj => (others j hj).trans (h.others j hj)⟩
  rw [h.core]
  rfl

/-- The engine completes an operation whose rows meet nothing. -/
theorem matrixComplete_done (holder : (s.core c).engine.holder = some n) (queue : (s.core c).engine.queue = op :: rest)
    (free : s.boardHeld c op.sbOp = false) (load : ∀ p, op.kind ≠ .mldw p) (swap : op.kind ≠ .mswap)
    (rows : matRows c n op (op.rows - op.start) op.start s = (t, none)) : s.matrixComplete c = t.opDone c op rest := by
  unfold State.matrixComplete
  rw [holder, queue]
  dsimp only
  split
  · next p kind => exact absurd kind (load p)
  · rw [free, rows]
    dsimp only
    rw [if_neg Bool.false_ne_true]
    split
    · next kind => exact absurd kind swap
    · rfl

/-- It stops at the row that something meets (R161). -/
theorem matrixComplete_stops (holder : (s.core c).engine.holder = some n) (queue : (s.core c).engine.queue = op :: rest)
    (free : s.boardHeld c op.sbOp = false) (load : ∀ p, op.kind ≠ .mldw p) {m : Nat}
    (rows : matRows c n op (op.rows - op.start) op.start s = (t, some m)) (sound : t.rowFails c n op m = false) :
    s.matrixComplete c = (t.upsetDone c op).stopMatrix c op.pc m rest := by
  unfold State.matrixComplete
  rw [holder, queue]
  dsimp only
  split
  · next p kind => exact absurd kind (load p)
  · rw [free, rows]
    dsimp only
    rw [if_neg Bool.false_ne_true, State.stopRow, sound]
    rfl

/-- A swap has no rows. -/
theorem matrixComplete_swaps (holder : (s.core c).engine.holder = some n) (queue : (s.core c).engine.queue = op :: rest)
    (free : s.boardHeld c op.sbOp = false) (kind : op.kind = .mswap) : s.matrixComplete c =
      ((s.updEngine c MatrixEngine.swap).boardRetire c op.sbOp).updEngine c fun e => ({ e with queue := rest } : MatrixEngine).settle := by
  have none : op.rows = 0 := by rw [MatOp.rows, kind]
  unfold State.matrixComplete
  rw [holder, queue]
  dsimp only
  rw [kind, free, none, Nat.zero_sub]
  rfl

/-- A weight load leaves the queue when it starts (R153). -/
theorem matrixComplete_loads (holder : (s.core c).engine.holder = some n) (queue : (s.core c).engine.queue = op :: rest)
    {p : Plane} (kind : op.kind = .mldw p) : s.matrixComplete c =
      if (s.core c).engine.shadow.state = 1#2 then s
      else s.updEngine c fun e => { e.startLoad p with queue := rest } := by
  unfold State.matrixComplete
  rw [holder, queue]
  dsimp only
  rw [kind]

end

end Sys2Proof.Machine
end

section
/-! The blocks that an `mst` stores (R131, R160, R257), and the bits of k15 that it sets (R19). -/

namespace Sys2Proof.Machine

/-! One block of scratchpad. -/

/-- What a block of a scratchpad holds: its bytes, its tag, and whether it is poisoned. -/
def Core.block (x : Core) (b : Nat) : (Fin 64 → Byte) × Tag × Bool :=
  (fun j => readByte x.spad (64 * b + j), lookupD x.stags b 0#16, decide (b ∈ x.poison))

/-- The same of a packed block that has been stored. -/
def Packed.stored (p : Packed) : (Fin 64 → Byte) × Tag × Bool :=
  (fun j => p.block.extractLsb' (8 * j) 8, p.tag, false)

theorem getD_bytesOf (n v i : Nat) (hi : i < n) : (bytesOf n v).getD i 0#8 = BitVec.ofNat 8 (v / 2 ^ (8 * i)) := by
  induction n generalizing v i with
  | zero => omega
  | succ n ih =>
    cases i with
    | zero => simp [bytesOf]
    | succ i =>
      have next : v / 256 / 2 ^ (8 * i) = v / 2 ^ (8 * (i + 1)) := by
        rw [Nat.div_div_eq_div_mul, show 8 * (i + 1) = 8 + 8 * i by omega, Nat.pow_add]
      rw [bytesOf, List.getD_cons_succ, ih _ _ (by omega), next]

/-- Bytes written to a scratchpad read back. -/
theorem putBytes_inside (l : List Byte) (x : Core) (c a i : Nat) (hi : i < l.length) :
    readByte (x.putBytes c false a l).spad (a + i) = l.getD i 0#8 := by
  induction l generalizing x a i with
  | nil => exact absurd hi (Nat.not_lt_zero _)
  | cons b r ih =>
    rw [Core.putBytes]
    cases i with
    | zero =>
      rw [putBytes_outside r _ c false (a + 1) (a + 0) fun i _ => by simp only [spadOffset]; split <;> [contradiction; omega]]
      simp [spadOffset]
    | succ i =>
      rw [show a + (i + 1) = a + 1 + i by omega, ih _ _ _ (by simpa using hi), List.getD_cons_succ]

theorem ofNat_div_eq_extractLsb' {n : Nat} (v : BitVec n) (i : Nat) : BitVec.ofNat 8 (v.toNat / 2 ^ i) = v.extractLsb' i 8 := by
  refine BitVec.eq_of_toNat_eq ?_
  rw [BitVec.toNat_ofNat, BitVec.extractLsb'_toNat, Nat.shiftRight_eq_div_pow]

/-- A block is written whole by 64 bytes from its start. -/
theorem block_covered {a : Nat} (aligned : a % 64 = 0) (c b : Nat) : ((List.range 64).all fun i =>
    ((List.range 64).map fun j => spadOffset c false (a + j)).contains (64 * b + i)) = decide (a / 64 = b) := by
  rw [Bool.eq_iff_iff]
  simp only [List.all_eq_true, List.mem_range, List.contains_iff_mem, List.mem_map, spadOffset, decide_eq_true_eq]
  constructor
  · intro all
    obtain ⟨j, hj, first⟩ := all 0 (by omega)
    obtain ⟨k, hk, last⟩ := all 63 (by omega)
    rw [if_neg Bool.false_ne_true] at first last
    omega
  · intro here i hi
    exact ⟨i, hi, by rw [if_neg Bool.false_ne_true]; omega⟩

theorem block_storeBlock (s : State) {c a : Nat} (aligned : a % 64 = 0) (p : Packed) (b : Nat) :
    ((s.storeBlock c a p).core c).block b = if a / 64 = b then p.stored else (s.core c).block b := by
  unfold State.storeBlock State.spadSetTag State.spadWrite
  rw [State.core_updCore_self, State.core_updCore_self, bytesOf_length]
  dsimp only
  have tags := congrArg Core.stags (putBytes_frame (bytesOf 64 p.block.toNat) (s.core c) c false a)
  have poison := congrArg Core.poison (putBytes_frame (bytesOf 64 p.block.toNat) (s.core c) c false a)
  dsimp only at tags poison
  unfold Core.block
  dsimp only
  rw [tags, poison, lookupD_putAt, spadOffset, if_neg Bool.false_ne_true]
  by_cases here : a / 64 = b
  · rw [if_pos here, if_pos here.symm]
    refine Prod.ext (funext fun j => ?_) (Prod.ext rfl (decide_eq_false fun mem => ?_))
    · have place : 64 * b + j.val = a + j.val := by omega
      dsimp only
      rw [place, putBytes_inside _ _ _ _ _ (by rw [bytesOf_length]; exact j.isLt), getD_bytesOf _ _ _ j.isLt]
      exact ofNat_div_eq_extractLsb' p.block (8 * j.val)
    · have kept := (List.mem_filter.1 mem).2
      rw [block_covered aligned, decide_eq_true here] at kept
      exact nomatch kept
  · rw [if_neg here, if_neg (Ne.symm here)]
    refine Prod.ext (funext fun j => ?_) (Prod.ext rfl (decide_eq_decide.2 ?_))
    · refine putBytes_outside _ _ _ _ _ _ fun i hi => ?_
      rw [bytesOf_length] at hi
      rw [spadOffset, if_neg Bool.false_ne_true]
      omega
    · rw [List.mem_filter, block_covered aligned, decide_eq_false here]
      exact ⟨And.left, fun mem => ⟨mem, rfl⟩⟩

/-! One row. -/

section
variable {c a nb : Nat} (p : Nat → Packed) (s : State)

theorem block_storeRow_inside (aligned : a % 64 = 0) {b : Nat} (hb : b < nb) :
    ((s.storeRow c a nb p).core c).block ((a + 64 * b) / 64) = (p b).stored := by
  have slot := foldl_slot (read := fun t : State => (t.core c).block ((a + 64 * b) / 64)) (l := List.range nb)
    (step := fun t i => t.storeBlock c (a + 64 * i) (p i)) (val := fun i => (p i).stored) (i := b) (fun t i _ => by
      refine (block_storeBlock t (by omega) (p i) _).trans (if_congr ?_ rfl rfl)
      omega) s
  exact slot.trans (if_pos (List.mem_range.2 hb))

theorem block_storeRow_outside (aligned : a % 64 = 0) {x : Nat} (away : ∀ b, b < nb → (a + 64 * b) / 64 ≠ x) :
    ((s.storeRow c a nb p).core c).block x = (s.core c).block x := by
  refine foldl_related (R := fun s t : State => (t.core c).block x = (s.core c).block x)
    (step := fun t i => t.storeBlock c (a + 64 * i) (p i)) (fun _ => rfl) (fun _ _ _ h k => k.trans h) (fun t b hb => ?_) s
  exact (block_storeBlock t (by omega) (p b) x).trans (if_neg (away b (List.mem_range.1 hb)))

/-- A core with another scratchpad. -/
def Core.withSpad (x y : Core) : Core := { x with spad := y.spad, stags := y.stags, poison := y.poison }

/-- Nothing but the scratchpad of core `c` has changed. -/
structure OnlySpad (c : Nat) (s t : State) : Prop where
  rest   : SameButCores s t
  others : ∀ j, j ≠ c → t.core j = s.core j
  core   : t.core c = (s.core c).withSpad (t.core c)

theorem OnlySpad.trans {s t u : State} (h : OnlySpad c s t) (k : OnlySpad c t u) : OnlySpad c s u := by
  refine ⟨h.rest.trans k.rest, fun j hj => (k.others j hj).trans (h.others j hj), k.core.trans ?_⟩
  have both := congrArg (fun x : Core => x.withSpad (u.core c)) h.core
  exact both

theorem OnlySpad.updCore (s : State) (f : Core → Core) (frame : ∀ x, f x = x.withSpad (f x)) : OnlySpad c s (s.updCore c f) := by
  refine ⟨(SameButCores.refl s).updCore c f, fun j hj => (State.core_updCore s c j f).trans (if_neg hj), ?_⟩
  rw [State.core_updCore_self]
  exact frame _

theorem storeRow_frame (c a nb : Nat) : OnlySpad c s (s.storeRow c a nb p) := by
  refine foldl_related (R := OnlySpad c) (step := fun t i => t.storeBlock c (a + 64 * i) (p i))
    (fun s => ⟨.refl s, fun _ _ => rfl, rfl⟩) (fun _ _ _ => OnlySpad.trans) (fun t b _ => ?_) s
  unfold State.storeBlock State.spadSetTag State.spadWrite
  refine (OnlySpad.updCore t _ fun x => ?_).trans (OnlySpad.updCore _ _ fun _ => rfl)
  have frame := congrArg (fun y : Core => y.withSpad { x.putBytes c false (a + 64 * b) (bytesOf 64 (p b).block.toNat) with
    poison := (x.putBytes c false (a + 64 * b) (bytesOf 64 (p b).block.toNat)).poison.filter fun d => !((List.range 64).all fun i =>
      ((List.range (bytesOf 64 (p b).block.toNat).length).map fun i => spadOffset c false (a + 64 * b + i)).contains (64 * d + i)) })
    (putBytes_frame (bytesOf 64 (p b).block.toNat) x c false (a + 64 * b))
  exact frame

end

/-! Bits of k15. -/

theorem kreg_setKBits (x : Strand) (m j : Nat) :
    (x.setKBits 15 [m]).kreg j = if j = 15 then putBit (x.kreg 15) m true else x.kreg j := by
  unfold Strand.setKBits Strand.setK
  rw [if_neg (by decide)]
  by_cases h : j = 15
  · subst h
    exact (if_neg (by decide)).trans ((toList_getD_setIfInBounds _ _ _ _ _).trans (if_pos ⟨rfl, by decide⟩))
  · rw [if_neg h]
    unfold Strand.kreg
    dsimp only
    rw [toList_getD_setIfInBounds, if_neg (c := j = 15 ∧ _) fun g => h g.1]

theorem getLsbD_setKBits (x : Strand) (m : Nat) {j : Nat} (hj : j < 2048) :
    ((x.setKBits 15 [m]).kreg 15).getLsbD j = true ↔ (x.kreg 15).getLsbD j = true ∨ j = m := by
  rw [kreg_setKBits, if_pos rfl, putBit, getLsbD_putSlice]
  by_cases h : j = m
  · subst h
    simp [hj]
  · rw [if_neg (by omega)]
    simp [h]

end Sys2Proof.Machine
end

section
/-! The rows of an `mst` (R160). -/

namespace Sys2Proof.Machine

/-- The rows from `start` up to `stop` of an `mst` stand in the scratchpad, each block with its tag and no poison; every other
block is as before, k15 has a bit for each of the rows that saturates, and nothing else has changed. -/
structure RowsStored (c n : Nat) (s t : State) (op : MatOp) (fmt : BitVec 3) (start stop : Nat) : Prop where
  rest    : PagesAndCores s t
  others  : ∀ j, j ≠ c → t.core j = s.core j
  strands : ∀ k, k ≠ n → t.strand k = s.strand k
  core    : t.core c = (s.core c).withSpad (t.core c)
  page    : t.strand n = { s.strand n with vec := { (s.strand n).vec with k := (t.strand n).vec.k } }
  masks   : ∀ j, j ≠ 15 → (t.strand n).kreg j = (s.strand n).kreg j
  k15     : ∀ j, j < 2048 → (((t.strand n).kreg 15).getLsbD j = true ↔ ((s.strand n).kreg 15).getLsbD j = true ∨
    (start ≤ j ∧ j < stop ∧ ∃ b, b < op.mstBlocks fmt ∧ ((s.core c).engine.packRow op fmt j b).sat ≠ []))
  stored  : ∀ r b, start ≤ r → r < stop → b < op.mstBlocks fmt →
    (t.core c).block ((op.addr + r * op.stride.toNat + 64 * b) / 64) = ((s.core c).engine.packRow op fmt r b).stored
  left    : ∀ x, (∀ r b, start ≤ r → r < stop → b < op.mstBlocks fmt → (op.addr + r * op.stride.toNat + 64 * b) / 64 ≠ x) →
    (t.core c).block x = (s.core c).block x

section
variable {s t : State} {c n : Nat} {op : MatOp} {fmt : BitVec 3} {start m : Nat}

theorem RowsStored.refl (s : State) (c n : Nat) (op : MatOp) (fmt : BitVec 3) (start : Nat) :
    RowsStored c n s s op fmt start start := by
  refine ⟨.refl s, fun _ _ => rfl, fun _ _ => rfl, rfl, rfl, fun _ _ => rfl, fun j _ => ⟨.inl, fun h => h.elim id ?_⟩,
    fun r b low high => absurd high (by omega), fun _ _ => rfl⟩
  rintro ⟨low, high, -⟩
  exact absurd high (by omega)

/-- Blocks of different rows are different blocks. -/
theorem blocks_apart {addr stride nb r k b d : Nat} (aligned : addr % 64 = 0) (strides : stride % 64 = 0) (fit : 64 * nb ≤ stride)
    (below : r < k) (hb : b < nb) : (addr + k * stride + 64 * d) / 64 ≠ (addr + r * stride + 64 * b) / 64 := by
  have rows : (r + 1) * stride ≤ k * stride := Nat.mul_le_mul_right _ below
  rw [Nat.add_mul, Nat.one_mul] at rows
  omega

theorem row_aligned {addr stride : Nat} (aligned : addr % 64 = 0) (strides : stride % 64 = 0) (r : Nat) :
    (addr + r * stride) % 64 = 0 := by
  rw [Nat.add_mod, Nat.mul_mod, aligned, strides, Nat.mul_zero]

/-- One more row. -/
theorem RowsStored.row (h : RowsStored c n s t op fmt start m) (first : start ≤ m) (aligned : op.addr % 64 = 0)
    (strides : op.stride.toNat % 64 = 0) (fit : 64 * op.mstBlocks fmt ≤ op.stride.toNat) :
    let u := t.storeRow c (op.addr + m * op.stride.toNat) (op.mstBlocks fmt) ((t.core c).engine.packRow op fmt m)
    RowsStored c n s (if (List.range (op.mstBlocks fmt)).any fun b => !((t.core c).engine.packRow op fmt m b).sat.isEmpty
      then u.updStrand n fun x => x.setKBits 15 [m] else u) op fmt start (m + 1) := by
  intro u
  have engine : (t.core c).engine = (s.core c).engine := by
    rw [h.core]
    rfl
  have only : OnlySpad c t u := storeRow_frame _ t c _ _
  have start_aligned := row_aligned aligned strides m
  have strandU (k : Nat) : u.strand k = t.strand k := only.rest.shows (fun x => x.strand k) fun _ _ => rfl
  -- what both cases share: the scratchpad of `u`, and the page of `t` but for k15
  have last (v : State) (y : Strand → Strand) (pages : PagesAndCores u v) (cores : ∀ j, v.core j = u.core j)
      (strand : v.strand n = y (t.strand n)) (strands : ∀ k, k ≠ n → v.strand k = u.strand k)
      (page : ∀ x : Strand, y x = { x with vec := { x.vec with k := (y x).vec.k } })
      (masks : ∀ x j, j ≠ 15 → (y x).kreg j = x.kreg j)
      (k15 : ∀ x j, j < 2048 → (((y x).kreg 15).getLsbD j = true ↔ (x.kreg 15).getLsbD j = true ∨ (j = m ∧
        ∃ b, b < op.mstBlocks fmt ∧ ((s.core c).engine.packRow op fmt m b).sat ≠ []))) :
      RowsStored c n s v op fmt start (m + 1) := by
    refine ⟨(h.rest.trans only.rest.pages).trans pages, fun j hj => ?_, fun k hk => ?_, ?_, ?_, fun j hj => ?_, fun j hj => ?_,
      fun r b low high hb => ?_, fun x away => ?_⟩
    · rw [cores, only.others j hj, h.others j hj]
    · rw [strands k hk, strandU, h.strands k hk]
    · rw [cores]
      have both := congrArg (fun x : Core => x.withSpad (u.core c)) h.core
      exact only.core.trans both
    · rw [strand, page]
      have old := congrArg (fun x : Strand => { x with vec := { x.vec with k := (y (t.strand n)).vec.k } }) h.page
      exact old
    · rw [strand, masks _ _ hj, h.masks j hj]
    · rw [strand, k15 _ _ hj, h.k15 j hj]
      constructor
      · rintro ((old | ⟨low, high, sat⟩) | ⟨rfl, sat⟩)
        · exact .inl old
        · exact .inr ⟨low, by omega, sat⟩
        · exact .inr ⟨first, by omega, sat⟩
      · rintro (old | ⟨low, high, sat⟩)
        · exact .inl (.inl old)
        · by_cases here : j = m
          · subst here
            exact .inr ⟨rfl, sat⟩
          · exact .inl (.inr ⟨low, by omega, sat⟩)
    · rw [cores]
      by_cases here : r = m
      · subst here
        rw [← engine]
        exact block_storeRow_inside _ t start_aligned hb
      · refine (block_storeRow_outside _ t start_aligned fun d _ => ?_).trans (h.stored r b low (by omega) hb)
        exact blocks_apart aligned strides fit (by omega) hb
    · rw [cores]
      refine (block_storeRow_outside _ t start_aligned fun d hd => away m d first (by omega) hd).trans (h.left x fun r b low high hb => ?_)
      exact away r b low (by omega) hb
  have sats : ((List.range (op.mstBlocks fmt)).any fun b => !((t.core c).engine.packRow op fmt m b).sat.isEmpty) = true ↔
      ∃ b, b < op.mstBlocks fmt ∧ ((s.core c).engine.packRow op fmt m b).sat ≠ [] := by
    rw [engine]
    simp
  split
  · next sat =>
    refine last _ (fun x => x.setKBits 15 [m]) ((PagesAndCores.refl u).updStrand n _) (fun _ => rfl) ?_ (fun k hk => ?_)
      (fun _ => rfl) (fun x j hj => (kreg_setKBits x m j).trans (if_neg hj)) fun x j hj => ?_
    · rw [State.strand_updStrand_self, strandU]
    · rw [State.strand_updStrand, if_neg hk]
    · rw [getLsbD_setKBits x m hj]
      exact or_congr Iff.rfl ⟨fun h => ⟨h, sats.1 sat⟩, And.left⟩
  · next fine =>
    refine last u id (.refl u) (fun _ => rfl) (strandU n) (fun _ _ => rfl) (fun _ => rfl) (fun _ _ _ => rfl) fun x j hj => ?_
    exact ⟨.inl, fun h => h.elim id fun ⟨_, sat⟩ => absurd (sats.2 sat) fine⟩

/-- The rows of an operation: those from its first row up. -/
theorem RowsStored.last {stop : Nat} (h : RowsStored c n s t op fmt start (start + (stop - start))) :
    RowsStored c n s t op fmt start stop := by
  have inside (r : Nat) (low : start ≤ r) : r < start + (stop - start) ↔ r < stop := by omega
  refine ⟨h.rest, h.others, h.strands, h.core, h.page, h.masks, fun j hj => (h.k15 j hj).trans (or_congr Iff.rfl ?_),
    fun r b low high => h.stored r b low ((inside r low).2 high),
    fun x away => h.left x fun r b low high => away r b low ((inside r low).1 high)⟩
  exact and_congr_right fun low => and_congr (inside j low) Iff.rfl

/-- All rows of an `mst` whose die admits it. -/
theorem matRows_stored (kind : op.kind = .mst fmt) (admitted : s.rowRefused c n op = false) (aligned : op.addr % 64 = 0)
    (strides : op.stride.toNat % 64 = 0) (fit : 64 * op.mstBlocks fmt ≤ op.stride.toNat) :
    ∃ t, matRows c n op (op.rows - op.start) op.start s = (t, none) ∧ RowsStored c n s t op fmt op.start op.rows := by
  obtain ⟨t, rows, -, stored⟩ := matRows_induct (c := c) (n := n) (op := op)
    (P := fun m t => t.rowRefused c n op = false ∧ RowsStored c n s t op fmt op.start m) (op.rows - op.start) op.start
    ⟨admitted, RowsStored.refl s c n op fmt op.start⟩ fun m t low high ⟨open', stored⟩ => by
      have made := matRow_mst (m := m) kind open'
      exact ⟨_, made, ((matRow_keeps made).rowRefused op).trans open', stored.row low aligned strides fit⟩
  exact ⟨t, rows, stored.last⟩

end

end Sys2Proof.Machine
end

section
/-! What the engine leaves of each kind of operation (R153, R156 to R165), and O41. -/

namespace Sys2Proof.Machine

section
variable {s : State} {c n : Nat} {op : MatOp} {rest : List MatOp}

/-- The first row of an operation that its die refuses: the operation stops there (R161, R265). -/
theorem matRows_refused (refused : s.rowRefused c n op = true) (more : op.start < op.rows) :
    matRows c n op (op.rows - op.start) op.start s = (s, some op.start) ∧ s.rowFails c n op op.start = false := by
  have row : s.matRow c n op op.start = none := by rw [State.matRow, if_pos refused]
  obtain ⟨k, count⟩ : ∃ k, op.rows - op.start = k + 1 := ⟨op.rows - op.start - 1, by omega⟩
  refine ⟨by rw [count, matRows, row], ?_⟩
  unfold State.rowFails
  dsimp only
  split
  · rw [refused]
    simp
  · rfl

theorem rowRefused_latched (latched : s.latchRefuses (s.strand n).owner.toNat (dieOfCore c) = true)
    (kind : (∃ f, op.kind = .mld f) ∨ (∃ f, op.kind = .mst f) ∨ ∃ z, op.kind = .mmac z) :
    s.rowRefused c n op = true ∧ op.rows = shapeM op.shape ∧ ∀ p, op.kind ≠ .mldw p := by
  unfold State.rowRefused MatOp.rows
  obtain ⟨f, kind⟩ | ⟨f, kind⟩ | ⟨z, kind⟩ := kind
  all_goals
    rw [kind]
    dsimp only
    exact ⟨latched, rfl, fun _ => by simp⟩

theorem rowRefused_unlatched (latched : ¬ s.latchRefuses (s.strand n).owner.toNat (dieOfCore c) = true) :
    s.rowRefused c n op = false := rowRefused_false (.inr (by simpa using latched))

theorem rowPoisoned_false {m nb : Nat} (clean : ∀ j, j < nb → (op.addr + m * op.stride.toNat) / 64 + j ∉ (s.core c).poison) :
    s.rowPoisoned c op m nb = false := by
  simpa [State.rowPoisoned] using clean

/-- Rows of an `mzero` (R163). -/
theorem matRows_zeroed {count : Nat} (kind : op.kind = .mzero count) (fuel : Nat) :
    ∃ t, matRows c n op fuel op.start s = (t, none) ∧ OnlyAcc c s t ∧ ∀ r, lookupD (t.core c).engine.acc r 0#1024 =
      if op.base + op.start ≤ r ∧ r < op.base + (op.start + fuel) then 0#1024 else lookupD (s.core c).engine.acc r 0#1024 := by
  refine matRows_induct (P := fun m t => OnlyAcc c s t ∧ ∀ r, lookupD (t.core c).engine.acc r 0#1024 =
    if op.base + op.start ≤ r ∧ r < op.base + m then 0#1024 else lookupD (s.core c).engine.acc r 0#1024) fuel op.start
    ⟨OnlyAcc.refl s, fun r => by rw [if_neg (by omega)]⟩ fun m t low _ ⟨only, zero⟩ =>
      ⟨_, matRow_mzero kind, only.trans (OnlyAcc.updEngine t _ fun _ => rfl), fun r => ?_⟩
  rw [State.core_updEngine_self]
  dsimp only
  rw [lookupD_removeAt, zero r]
  by_cases here : r = op.base + m
  · rw [if_pos here, if_pos (by omega)]
  · rw [if_neg here]
    exact if_congr (by omega) rfl rfl

/-- Rows of an `mld` (R158). -/
theorem matRows_loaded {fmt : BitVec 2} (kind : op.kind = .mld fmt) (admitted : s.rowRefused c n op = false)
    (few : shapeN op.shape ≤ 32) (fuel : Nat) (clean : ∀ r, op.start ≤ r → r < op.start + fuel →
      s.rowPoisoned c op r ((shapeN op.shape + tagElems (mldCode fmt) - 1) / tagElems (mldCode fmt)) = false) :
    ∃ t, matRows c n op fuel op.start s = (t, none) ∧
      RowsWritten c s t op.mode.toNat op.base (shapeN op.shape) (s.rowLoad c op fmt) op.start (op.start + fuel) := by
  refine matRows_written few fuel op.start fun m t low high only _ => ?_
  refine ⟨_, matRow_mld kind ((only.rowRefused n op).trans admitted) ((only.rowPoisoned op m _).trans (clean m low high)),
    fun j _ => ?_⟩
  unfold State.rowLoad
  rw [only.decodeBlocks]

/-- Rows of an `mmac` (R126, R157). -/
theorem matRows_summed {zero : Bool} (kind : op.kind = .mmac zero) (admitted : s.rowRefused c n op = false)
    (few : shapeN op.shape ≤ 32) (fuel : Nat) (calm : ∀ r, op.start ≤ r → r < op.start + fuel → r ∉ (s.core c).engine.upset)
    (clean : ∀ r, op.start ≤ r → r < op.start + fuel →
      s.rowPoisoned c op r ((shapeK op.shape + actElems op.mode.toNat - 1) / actElems op.mode.toNat) = false) :
    ∃ t, matRows c n op fuel op.start s = (t, none) ∧
      RowsWritten c s t op.mode.toNat op.base (shapeN op.shape) (s.rowSum c op zero) op.start (op.start + fuel) := by
  refine matRows_written few fuel op.start fun m t low high only same => ?_
  have upset := only.engine MatrixEngine.upset fun _ _ => rfl
  refine ⟨_, matRow_mmac kind ((only.rowRefused n op).trans admitted) (by rw [upset]; exact calm m low high)
    ((only.rowPoisoned op m _).trans (clean m low high)), fun j hj => ?_⟩
  unfold State.rowSum State.rowActs
  rw [only.decodeBlocks, only.engine MatrixEngine.active fun _ _ => rfl, same j hj]

/-! What an operation that is done leaves. -/

theorem opDone_strand (t : State) (c : Nat) (op : MatOp) (rest : List MatOp) (k : Nat) :
    (t.opDone c op rest).strand k = t.strand k := (opDone_rest t c op rest).1.shows (fun x => x.strand k) fun _ _ => rfl

theorem opDone_block (kept : (s.core c).engine.release = false) (x : Nat) :
    ((s.opDone c op rest).core c).block x = (s.core c).block x := by
  rw [opDone_core kept]
  rfl

/-- The planes have changed places (R156). -/
theorem swapDone_core (kept : (s.core c).engine.release = false) :
    (((s.updEngine c MatrixEngine.swap).boardRetire c op.sbOp).updEngine c fun e =>
      ({ e with queue := rest } : MatrixEngine).settle).core c = { s.core c with
        board := (s.core c).board.filter fun x => x.op != op.sbOp
        engine := { (s.core c).engine.swap with queue := rest } } := by
  have retired : ((s.updEngine c MatrixEngine.swap).boardRetire c op.sbOp).core c = _ :=
    State.core_updCore_self (s.updEngine c MatrixEngine.swap) c _
  rw [State.core_updEngine_self, retired, State.core_updEngine_self]
  exact congrArg (fun g => { s.core c with board := (s.core c).board.filter fun x => x.op != op.sbOp, engine := g })
    (settle_kept (e := { (s.core c).engine.swap with queue := rest }) kept)

theorem swapDone_others {j : Nat} (hj : j ≠ c) : (((s.updEngine c MatrixEngine.swap).boardRetire c op.sbOp).updEngine c fun e =>
    ({ e with queue := rest } : MatrixEngine).settle).core j = s.core j := by
  have retired : ((s.updEngine c MatrixEngine.swap).boardRetire c op.sbOp).core j = (s.updEngine c MatrixEngine.swap).core j :=
    (State.core_updCore _ c j _).trans (if_neg hj)
  rw [State.core_updEngine, if_neg hj, retired, State.core_updEngine, if_neg hj]

end

/-- Settles O41: each kind of operation has its rows done one after the other, each row over what the rows before it left, and
then leaves the queue. -/
theorem matrixOperationsComplete : Obligations.MatrixOperationsComplete := by
  intro s c n op rest e holder queue free kept left clear i row latched frame
  have complete {t : State} (made : s.matrixComplete c = t) : exec i s = .next t := congrArg Host.Outcome.next made
  have poisonFree {nb fuel : Nat} (h : clear nb) (fits : op.start + fuel ≤ max op.start (shapeM op.shape)) :
      ∀ r, op.start ≤ r → r < op.start + fuel → s.rowPoisoned c op r nb = false :=
    fun r low high => rowPoisoned_false fun j hj => h r low (by omega) j hj
  have written {t : State} {upset : List Nat} (only : OnlyAcc c s t)
      (upsets : (if (∃ zero, op.kind = .mmac zero) then [] else e.upset) = upset) : frame (t.opDone c op rest) upset := by
    obtain ⟨core, -, same, others⟩ := only.opDone (op := op) (rest := rest) kept
    rw [upsets] at core
    exact ⟨core, same, others⟩
  have acc {t : State} (only : OnlyAcc c s t) : ((t.opDone c op rest).core c).engine.acc = (t.core c).engine.acc :=
    (only.opDone kept).2.1
  refine ⟨fun latch more kind => ?_, fun count kind => ?_, fun fmt kind => ?_, fun fmt kind => ?_, fun p kind => ?_, fun kind => ?_,
    fun zero kind => ?_⟩
  · obtain ⟨refused, rows, load⟩ := rowRefused_latched latch kind
    obtain ⟨stopped, sound⟩ := matRows_refused refused (by rw [rows]; exact more)
    have stop := rowStopped (op := op) (rest := rest) holder kept op.start
    exact ⟨_, complete (matrixComplete_stops holder queue free load stopped sound), stop.only, stop.core, stop.page, stop.others⟩
  · have count' : op.rows = count := by rw [MatOp.rows, kind]
    obtain ⟨t, rows, only, zeroed⟩ := matRows_zeroed (s := s) (c := c) (n := n) kind (op.rows - op.start)
    refine ⟨_, complete (matrixComplete_done holder queue free (by simp [kind]) (by simp [kind]) rows),
      written only (if_neg (by simp [kind])), fun r => ?_⟩
    refine (congrArg (fun l => lookupD l r 0#1024) (acc only)).trans ((zeroed r).trans (if_congr ?_ rfl rfl))
    rw [count']
    omega
  · intro mode m f per code g value admitted _ few clean
    have rows' : op.rows = m := by rw [MatOp.rows, kind]
    obtain ⟨t, rows, done⟩ := matRows_loaded (s := s) (c := c) (n := n) kind (rowRefused_unlatched admitted) few (op.rows - op.start)
      (poisonFree clean (by omega))
    obtain ⟨values, others⟩ := done.last
    rw [rows'] at values others
    refine ⟨_, complete (matrixComplete_done holder queue free (by simp [kind]) (by simp [kind]) rows),
      written done.acc (if_neg (by simp [kind])), fun r j low high hj => ?_, fun r away => ?_⟩
    · refine Eq.trans ?_ (values r j low high hj)
      rw [accBits_eq, accBits_eq, acc done.acc]
    · exact (congrArg (fun l => lookupD l r 0#1024) (acc done.acc)).trans (others r away)
  · intro m code g nb stride pack stored admitted aligned strides fit
    have rows' : op.rows = m := by rw [MatOp.rows, kind]
    obtain ⟨t, rows, done⟩ := matRows_stored (s := s) (c := c) (n := n) kind (rowRefused_unlatched admitted) aligned strides fit
    rw [rows'] at done
    have kept' : (t.core c).engine.release = false := by rw [done.core]; exact kept
    have core := opDone_core (op := op) (rest := rest) kept'
    obtain ⟨same, others⟩ := opDone_rest t c op rest
    have at' (r b : Nat) (h : stored r b) : ((t.opDone c op rest).core c).block ((op.addr + r * stride + 64 * b) / 64) =
        (pack r b).stored := (opDone_block kept' _).trans (done.stored r b h.1 h.2.1 h.2.2)
    have left' (x : Nat) (away : ∀ r b, stored r b → (op.addr + r * stride + 64 * b) / 64 ≠ x) :
        ((t.opDone c op rest).core c).block x = (s.core c).block x :=
      (opDone_block kept' x).trans (done.left x fun r b low high hb => away r b ⟨low, high, hb⟩)
    have start64 (r b : Nat) : 64 * ((op.addr + r * stride + 64 * b) / 64) = op.addr + r * stride + 64 * b := by
      have row := row_aligned aligned strides r
      omega
    refine ⟨_, complete (matrixComplete_done holder queue free (by simp [kind]) (by simp [kind]) rows), ?_, fun x => ?_,
      fun r b h j hj => ?_, fun r b h => ?_, fun a away => ?_, ?_, fun j hj => ?_, fun j hj => ?_, ?_, fun j hj => ?_⟩
    · rw [core, if_neg (by simp [kind]), done.core]
      rfl
    · by_cases covered : ∃ r b, stored r b ∧ (op.addr + r * stride + 64 * b) / 64 = x
      · obtain ⟨r, b, h, rfl⟩ := covered
        have gone := of_decide_eq_false (congrArg (fun y => y.2.2) (at' r b h))
        exact ⟨fun mem => absurd mem gone, fun ⟨_, away⟩ => absurd rfl (away r b h)⟩
      · have away (r b : Nat) (h : stored r b) : (op.addr + r * stride + 64 * b) / 64 ≠ x := fun here => covered ⟨r, b, h, here⟩
        have kept := decide_eq_decide.1 (congrArg (fun y => y.2.2) (left' x away))
        exact ⟨fun mem => ⟨kept.1 mem, away⟩, fun ⟨mem, _⟩ => kept.2 mem⟩
    · have byte := congrFun (congrArg Prod.fst (at' r b h)) ⟨j, hj⟩
      rwa [Core.block, Packed.stored, start64 r b] at byte
    · exact congrArg (fun y => y.2.1) (at' r b h)
    · have same' := left' (a / 64) away
      have byte := congrFun (congrArg Prod.fst same') ⟨a % 64, Nat.mod_lt _ (by omega)⟩
      unfold Core.block at byte
      dsimp only at byte
      rw [Nat.div_add_mod] at byte
      exact ⟨byte, congrArg (fun y => y.2.1) same'⟩
    · rw [opDone_strand]
      exact done.page
    · rw [opDone_strand]
      exact done.masks j hj
    · rw [opDone_strand, done.k15 j hj]
      exact or_congr Iff.rfl ⟨fun ⟨low, high, b, hb, sat⟩ => ⟨b, ⟨low, high, hb⟩, sat⟩,
        fun ⟨b, ⟨low, high, hb⟩, sat⟩ => ⟨low, high, b, hb, sat⟩⟩
    · exact (done.rest.trans same.pages).onlyStrand fun k hk => (opDone_strand t c op rest k).trans (done.strands k hk)
    · exact (others j hj).trans (done.others j hj)
  · refine ⟨fun busy => ?_, fun still => ?_⟩
    · exact complete ((matrixComplete_loads holder queue kind).trans (if_pos busy))
    · refine ⟨_, complete ((matrixComplete_loads holder queue kind).trans (if_neg still)), { p with
        blocks := keepKeys (fun i => decide (i < p.first)) e.shadow.blocks
        cask := p.cask || (e.shadow.cask && decide (0 < p.first)) }, ?_, rfl, fun j => ?_, rfl,
        fun j hj => (State.core_updEngine s c j _).trans (if_neg hj)⟩
      · rw [State.core_updEngine_self]
        rfl
      · exact startLoad_blocks e p j
  · exact ⟨_, complete (matrixComplete_swaps holder queue free kind), swapDone_core kept,
      (((SameButCores.refl s).updEngine c MatrixEngine.swap).updCore c _).updEngine c _, fun j hj => swapDone_others hj⟩
  · intro mode m k f per len a act admitted _ few clean calm
    have rows' : op.rows = m := by rw [MatOp.rows, kind]
    obtain ⟨t, rows, done⟩ := matRows_summed (s := s) (c := c) (n := n) kind (rowRefused_unlatched admitted) few (op.rows - op.start)
      (fun r low high => calm r low (by omega)) (poisonFree clean (by omega))
    obtain ⟨values, others⟩ := done.last
    rw [rows'] at values others
    refine ⟨_, complete (matrixComplete_done holder queue free (by simp [kind]) (by simp [kind]) rows),
      written done.acc (if_pos ⟨zero, kind⟩), fun r j low high hj => ?_, fun r away => ?_⟩
    · refine Eq.trans ?_ (values r j low high hj)
      rw [accBits_eq, accBits_eq, acc done.acc]
    · exact (congrArg (fun l => lookupD l r 0#1024) (acc done.acc)).trans (others r away)

end Sys2Proof.Machine
end
